-- ==== Sys2Proof/Word.lean ====
section
/-! DEFINITION. The word types of the device: bytes, 32-bit lane elements, 64-bit scalars and 1,024-bit masks
(spec/07 R139, R172; spec/03 R48). -/

namespace Sys2Proof

/-- One byte of memory. -/
abbrev Byte := BitVec 8

/-- One element of a vector register in one lane (spec/05 R106). -/
abbrev W32 := BitVec 32

/-- A scalar register, an address, a code word (spec/07 R139, R172). -/
abbrev W64 := BitVec 64

/-- A mask register: bit l belongs to lane l (spec/03 R48). -/
abbrev Mask := BitVec 1024

end Sys2Proof
end

