-- ==== Sys2Proof/Config.lean ====
section
/-! DEFINITION. What the spec leaves to the implementation or gives no value for, as constants without a body, and
the constants of the device. Nothing in Lean can tell the value of an opaque constant, so a theorem about the
machine holds whatever it is. -/

namespace Sys2Proof.Config

/-- A free choice between two outcomes the spec allows: the `j`-th choice of the `n`-th step
(notes/assumptions/6.md). -/
opaque freeBit : Nat → Nat → Bool

/-- A free 64-bit value: the `j`-th value of the `n`-th step (notes/assumptions/6.md). -/
opaque freeWord : Nat → Nat → BitVec 64

/-- The device's certificate chain, as it answers an SPDM request: fixed at manufacture (spec/27 R482, notes/assumptions/9.md). -/
opaque spdmChain : List (BitVec 8)

/-- The measurements of the boot ROM, the firmware image and the fuse state, by the image's identity (spec/27 R482,
notes/assumptions/9.md). -/
opaque spdmMeasurements : Nat → List (BitVec 8)

/-- The answer to the challenge of the `n`-th step: a signature over a nonce (spec/27 R482, notes/assumptions/9.md). -/
opaque spdmSignature : Nat → List (BitVec 8)

/-- The key hash held in the fuses (spec/27 R481). -/
opaque fuseKeyHash : BitVec 512

/-- The minimum security version held in the fuses (spec/27 R481). -/
opaque fuseMinSvn : Nat

end Sys2Proof.Config
end

