-- ==== Sys2Proof/Syntax.lean ====
section
/-! DEFINITION. The instructions of the SV-EY480 and the steps of its other agents: one constructor of
`Instr` for each row of spec/opcode_table.json. Operand fields bear the names D, A, B, K, FS of spec/07 R152.
A field the instruction does not use has no place here; the decoder requires it to be 0 (spec/07 R153).
The K field of a team-level instruction is kept, although nothing reads it (spec/09 R193), so that no bit of a
word is lost. -/

namespace Sys2Proof

/-- The 4-bit type codes (spec/07 R158). -/
inductive Ty where
  | i32 | n32 | i64 | n64 | i16 | n16 | i8 | n8 | f | d | h | bf | t8 | t6 | b32 | b64
  deriving DecidableEq, Repr

/-- Operand b of a scalar instruction: a register, the signed 11-bit immediate (bit I), or a literal word
(spec/09 R194, R210). -/
inductive SSrc where
  | reg (n : Nat)
  | imm (v : BitVec 11)
  | lit (v : BitVec 64)
  deriving DecidableEq, Repr

/-- Operand b of a vector instruction: a register, a broadcast scalar (bit SB), or a literal word
(spec/11 R225). -/
inductive VSrc where
  | reg (n : Nat)
  | sb (n : Nat)
  | lit (v : BitVec 64)
  deriving DecidableEq, Repr

/-- A count or index operand: a scalar register or, with L, a literal word (spec/11 R250, spec/13 R284). -/
inductive LSrc where
  | reg (n : Nat)
  | lit (v : BitVec 64)
  deriving DecidableEq, Repr

/-- Relation codes 0 to 5 (spec/09 R212). -/
inductive Rel where
  | eq | ne | lt | le | gt | ge
  deriving DecidableEq, Repr

/-- Rounding codes 0b00 to 0b11 (spec/05 R108). -/
inductive Rm where
  | rne | rtz | rup | rdn
  deriving DecidableEq, Repr

/-- Access widths (spec/13 R256, R258). -/
inductive Width where
  | b8 | b16 | b32 | b64 | x2 | x4
  deriving DecidableEq, Repr

/-- Memory orders (spec/13 R256). -/
inductive Order where
  | relaxed | acq | rel | acqrel | sc
  deriving DecidableEq, Repr

/-- Scopes (spec/13 R256, spec/19 R367). -/
inductive Scope where
  | team | crew | cluster | dev | sys
  deriving DecidableEq, Repr

/-- Atomic operations, codes 0 to 10 (spec/13 R277). -/
inductive AOp where
  | add | min | max | and | or | xor | swap | inc | fadd | fmin | fmax
  deriving DecidableEq, Repr

/-- Fold and scan operations, codes 0 to 5 (spec/11 R250). -/
inductive FOp where
  | add | min | max | and | or | xor
  deriving DecidableEq, Repr

/-- KTEST modes 0 to 2 (spec/09 R214). -/
inductive KMode where
  | any | all | none
  deriving DecidableEq, Repr

/-- VSHFL modes (spec/11 R251). -/
inductive ShMode where
  | index | xor | up | down
  deriving DecidableEq, Repr

/-- VFCOPYSIGN modes 0 to 2 (spec/11 R245). -/
inductive CsMode where
  | same | inverse | xor
  deriving DecidableEq, Repr

/-- CMAINT operations (spec/13 R290). -/
inductive CmOp where
  | clean | inv | cleaninv
  deriving DecidableEq, Repr

/-- CMAINT levels (spec/13 R290). -/
inductive CmLevel where
  | l1 | llc | mem
  deriving DecidableEq, Repr

/-- The operand of QTRY: a push of a handle in scalar A, or a pop into scalar D (spec/09 R216). -/
inductive QtryOp where
  | push (a : Nat)
  | pop (d : Nat)
  deriving DecidableEq, Repr

/-- The system registers of GETSYS and SETSYS (spec/07 R165). -/
inductive Sel where
  | teamid | crewid | clusteridx | clusteridy | clusteridz | stage | role | lanes | nregs
  | fpmode | fpflags | stampfloor | batchnext | batchdone
  | faultcode | faultpc | faultmask | resumepc | faultaddr | laneid
  | handlerbase | poolcounter | redlogbase | horizoncache
  deriving DecidableEq, Repr

/-- Fields of a scalar instruction with a second operand (spec/09 R210). -/
structure SBin where
  k : Nat
  d : Nat
  a : Nat
  ty : Ty
  b : SSrc
  deriving DecidableEq, Repr

/-- Fields of a vector instruction with operands a and b (spec/11 R225). -/
structure VBin where
  k : Nat
  d : Nat
  a : Nat
  ty : Ty
  b : VSrc
  deriving DecidableEq, Repr

/-- Fields of a vector instruction with operand a alone (spec/11 R225). -/
structure VUn where
  k : Nat
  d : Nat
  a : Nat
  ty : Ty
  deriving DecidableEq, Repr

/-- Fields of the three-source subform (spec/07 R155). -/
structure V3 where
  k : Nat
  d : Nat
  a : Nat
  b : Nat
  c : Nat
  ty : Ty
  deriving DecidableEq, Repr

/-- Fields of LD, ST (spec/13 R256). The scalar forms LDS and STS have b = 0, nv = u = false (R257). -/
structure MemOp where
  k : Nat
  fs : Nat
  d : Nat
  a : Nat
  b : Nat
  nv : Bool
  u : Bool
  width : Width
  order : Order
  scope : Scope
  deriving DecidableEq, Repr

/-- Fields of LDASOF and LDASOFS: `st` names the stamp scalar (spec/13 R267). -/
structure AsofOp where
  k : Nat
  fs : Nat
  d : Nat
  a : Nat
  b : Nat
  nv : Bool
  st : Nat
  width : Width
  deriving DecidableEq, Repr

/-- Fields of the atomics and reductions but for the operation (spec/13 R276). -/
structure AtOp where
  k : Nat
  fs : Nat
  d : Nat
  a : Nat
  b : Nat
  u : Bool
  ty : Ty
  order : Order
  scope : Scope
  deriving DecidableEq, Repr

/-- Fields of the copy commands (spec/15 R317). -/
structure CpOp where
  k : Nat
  fs : Nat
  d : Nat
  a : Nat
  b : Nat
  swap : Bool
  deriving DecidableEq, Repr

/-- The opcodes a dual slot may hold (spec/07 R161). -/
inductive SlotOp where
  | nop
  | sadd | ssub | sand | sor | sxor | sshl | sshr | smov
  | vadd | vsub | vand | vor | vxor | vshl | vshr | vmov
  | vmin | vmax
  | vfadd | vfsub | vfmul | vfmin | vfmax | vfabs | vfneg
  deriving DecidableEq, Repr

/-- One slot of a dual word (spec/07 R160). -/
structure Slot where
  op : SlotOp
  d : Nat
  s : Nat
  k : Nat
  ty : Ty
  deriving DecidableEq, Repr

/-- A clause header (spec/07 R142). `aflag` and `bflag` are `none` where AV or BV is 0; `safe` is the safe-point
table index where SAFE is 1. -/
structure Header where
  wait : BitVec 12
  aflag : Option Nat
  bflag : Option Nat
  len : Nat
  safe : Option Nat
  yh : Bool
  deriving DecidableEq, Repr

/-- The functions that have a READY bit (spec/01 R21-R24). -/
inductive Ready where
  | core (n : Nat)
  | group (stack g : Nat)
  | stack (n : Nat)
  | releng
  | kiln
  | cp
  | huanen (p : Nat)
  | cxl (x : Nat)
  deriving DecidableEq, Repr

/-- The engines with an acceptance queue (spec/15 R314). -/
inductive Engine where
  | copy | quant | nmc
  deriving DecidableEq, Repr

/-- What an SPDM request may ask for (spec/27 R482). -/
inductive Spdm where
  | certificates | challenge | measurements
  deriving DecidableEq, Repr

/-- What a peer asks for on exported bytes (spec/27 R479): a read, a write with its poison, an atomic that returns the old value, a compare
and swap, a reduction. The request carries the bytes to write or the operand beside it. -/
inductive PeerOp where
  | read (n : Nat)
  | write (poison : Bool)
  | atomic (ty : Ty) (op : AOp)
  | cas (ty : Ty) (expected : Nat)
  | reduction (ty : Ty) (op : AOp)
  deriving DecidableEq, Repr

/-- The firmware image the boot ROM finds (spec/27 R481): the hash of the key that signed it, whether its signature over its digest is
right, its security version, its firmware version, and a number that tells images apart (R482). -/
structure Image where
  keyHash : BitVec 512
  signed : Bool
  svn : Nat
  fwver : Nat
  id : Nat
  deriving DecidableEq, Repr

/-- Instructions (spec/07 R167), the dual word, the clause header, and the steps of the other agents of the
device (spec/95): one constructor per row of spec/opcode_table.json, in its order but for the last two. -/
inductive Instr where
  -- control (spec/09 R197-R209)
  | nop (k : Nat)
  | br (off : Int)
  | brc (c : Nat) (sns : Bool) (off : Int)
  | brz (m : Nat) (sns : Bool) (off : Int)
  | call (lnk : Nat) (off : Int)
  | jmp (k a : Nat)
  | loop (lnk : Nat) (off : Int)
  | exit (k : Nat)
  | trap (k code : Nat)
  | rtt (k : Nat) (skip : Bool)
  | yield (k : Nat)
  | getsys (k d : Nat) (sel : Sel)
  | setsys (k a : Nat) (sel : Sel)
  | brkpt (k : Nat)
  | mbox (k a tag : Nat)
  | escalate (k a : Nat)
  -- scalar (spec/09 R211)
  | sadd (o : SBin)
  | ssub (o : SBin)
  | smul (o : SBin)
  | smulh (o : SBin)
  | sdiv (o : SBin)
  | srem (o : SBin)
  | sand (o : SBin)
  | sor (o : SBin)
  | sxor (o : SBin)
  | sshl (o : SBin)
  | sshr (o : SBin)
  | scmp (o : SBin) (rel : Rel)
  | smov (o : SBin)
  | ssel (o : SBin) (c : Nat)
  | smin (o : SBin)
  | smax (o : SBin)
  -- mask (spec/09 R213)
  | kand (k d a b : Nat)
  | kor (k d a b : Nat)
  | kxor (k d a b : Nat)
  | kandn (k d a b : Nat)
  | knot (k d a : Nat)
  | kmov (k d a : Nat)
  | kcnt (k d a : Nat)
  | kfirst (k d a : Nat)
  | ktest (k d a : Nat) (mode : KMode)
  | kfromv (k d a : Nat)
  | ktov (k d a : Nat)
  | ksetw (k d a : Nat) (b : SSrc)
  | kgetw (k d a : Nat) (b : SSrc)
  -- queue and synchronisation (spec/09 R216-R224)
  | qpush (k a q : Nat)
  | qpop (k d q : Nat)
  | qtry (k n : Nat) (op : QtryOp) (q : Nat)
  | bar (k : Nat) (cluster : Bool)
  | mxacq (k : Nat)
  | mxrel (k : Nat)
  | spawn (k a b : Nat)
  | batch (k d : Nat)
  | waitb (k a : Nat)
  | cwait (k a b : Nat)
  | ctest (k d a b : Nat)
  -- vector integer and logic (spec/11 R232)
  | vadd (o : VBin)
  | vsub (o : VBin)
  | vmul (o : VBin)
  | vmulh (o : VBin)
  | vmad (o : V3)
  | vdiv (o : VBin)
  | vrem (o : VBin)
  | vmin (o : VBin)
  | vmax (o : VBin)
  | vabs (o : VUn)
  | vneg (o : VUn)
  | vand (o : VBin)
  | vor (o : VBin)
  | vxor (o : VBin)
  | vnot (o : VUn)
  | vshl (o : VBin)
  | vshr (o : VBin)
  | vrot (o : VBin)
  | vcmp (o : VBin) (rel : Rel)
  | vsel (o : VBin) (ks : Nat)
  | vmov (o : VBin)
  | vbfe (o : VBin)
  | vbfi (o : V3)
  | vpopc (o : VUn)
  | vclz (o : VUn)
  | vaddc (o : VBin) (kc : Nat)
  | vadds (o : VBin) (sub : Bool)
  | vlane (k d a : Nat) (wordwise : Bool)
  | vmulw (o : VBin)
  -- vector floating point (spec/11 R237)
  | vfadd (o : VBin) (rm : Rm)
  | vfsub (o : VBin) (rm : Rm)
  | vfmul (o : VBin) (rm : Rm)
  | vfma (o : V3)
  | vfdiv (o : VBin) (fs : Nat) (rm : Rm)
  | vfsqrt (o : VUn) (fs : Nat) (rm : Rm)
  | vfrsqs (o : VUn)
  | vfrcps (o : VUn)
  | vfmin (o : VBin) (num : Bool)
  | vfmax (o : VBin) (num : Bool)
  | vfabs (o : VUn)
  | vfneg (o : VUn)
  | vfcmp (o : VBin) (rel : Rel) (u sig half : Bool)
  | vfclass (o : VUn)
  | vfrnd (o : VUn) (rm : Rm) (exact : Bool)
  | vfscale (o : VBin) (rm : Rm)
  | vfexp2 (o : VUn)
  | vflog2 (o : VUn)
  | vfgetexp (o : VUn)
  | vfgetman (o : VUn)
  | vfcopysign (o : VBin) (mode : CsMode)
  -- conversion (spec/11 R247-R249)
  | vcvt (k d a : Nat) (dst src : Ty) (rm : Rm)
  | vpack (o : VBin) (rm : Rm)
  | vunpk (o : VUn) (half : Bool)
  | vqnt (o : VBin) (byte : Nat)
  | vdqnt (o : VBin) (byte : Nat)
  -- permute and prefixes (spec/11 R250-R255)
  | vshfl (o : VBin) (mode : ShMode)
  | vxch (o : VBin)
  | vfold (o : VUn) (op : FOp) (num : Bool)
  | vscan (o : VUn) (op : FOp) (num excl : Bool)
  | vapnd (k d a : Nat)
  | vreadl (k d a : Nat) (ty : Ty) (b : LSrc)
  | vwritel (k d a : Nat) (ty : Ty) (b : LSrc)
  -- memory (spec/13 R262-R275)
  | ld (o : MemOp)
  | st (o : MemOp)
  | lds (o : MemOp)
  | sts (o : MemOp)
  | ldasof (o : AsofOp)
  | ldasofs (o : AsofOp)
  | ldpk (k fs d a b : Nat) (nv u t6 : Bool)
  | pref (k a b : Nat) (nv u llc : Bool)
  | stashmap (k d a b : Nat)
  | stashdrop (k d : Nat) (discard : Bool)
  -- atomics and reductions (spec/13 R276-R282)
  | atom (o : AtOp) (op : AOp)
  | atcas (o : AtOp)
  | red (o : AtOp) (op : AOp)
  | vatom (o : AtOp) (op : AOp)
  | vred (o : AtOp) (op : AOp)
  -- allowance counters (spec/13 R283-R285)
  | alinit (k a : Nat) (b : LSrc)
  | aldec (k fs d a : Nat) (b : LSrc) (acq : Bool) (scope : Scope) (wait : Bool)
  | alinc (k a : Nat) (b : LSrc) (rel : Bool) (scope : Scope)
  | alrd (k fs d a : Nat) (acq : Bool) (scope : Scope)
  | alfree (k a : Nat)
  -- fences, maintenance, translation (spec/13 R286-R293)
  | fence (k : Nat) (order : Order) (scope : Scope)
  | fenceo (k : Nat) (scope : Scope)
  | fencer (k : Nat) (scope : Scope)
  | cmaint (k a b : Nat) (op : CmOp) (level : CmLevel)
  | tlblock (k a b : Nat)
  | tlbunlock (k a b : Nat)
  | pgmap (k d a b : Nat)
  | pgunmap (k a b : Nat)
  -- history (spec/13 R294-R298)
  | stampget (k fs d : Nat)
  | snap (k fs d : Nat)
  | pin (k fs d a : Nat)
  | unpin (k a : Nat)
  | horizon (k fs d : Nat)
  -- matrix (spec/15 R300-R313)
  | mxmma (k fs d a b : Nat) (ty : Ty) (reuse sparse : Bool) (sm : Nat)
  | mxsca (k fs d a b e : Nat)
  | mxperm (k fs d a b : Nat) (ty : Ty)
  | mxtrn (k fs d a : Nat) (ty : Ty)
  | mxrsum (k fs d a : Nat) (ty : Ty)
  -- engine commands (spec/15 R314-R335)
  | cpin (o : CpOp) (frame : Bool)
  | cpout (o : CpOp)
  | cppeer (o : CpOp)
  | qst (k fs d a : Nat) (ty : Ty) (q : Nat) (col reset : Bool)
  | qstd (k fs d a : Nat) (ty : Ty) (qa qb : Nat) (reset : Bool)
  | qload (k fs a q : Nat)
  | qsave (k fs a q : Nat)
  | nmc (k fs d a : Nat)
  -- the dual word and the clause header (spec/07 R142, R160)
  | dualWord (x y : Slot)
  | clauseEntry (h : Header)
  -- steps of the other agents: completions of a team's work
  | lateFaultTaken (core slot : Nat)
  | loadCompletion (op : Nat)
  | storeAcknowledgement (op : Nat)
  | atomicCompletion (op : Nat)
  | reductionFaultLogged (op : Nat)
  | longArithmeticCompletion (op : Nat)
  | mxCompletion (op : Nat)
  | mxGatedAbort (op : Nat)
  | serialisingRequest (core op : Nat)
  | gatedRangeRead (op : Nat)
  | allowanceCompletion (op : Nat)
  | aldecWaitServed (counter : Nat)
  | shareEviction (counter core : Nat)
  | historyCompletion (op : Nat)
  | queuePushDone (crew q : Nat)
  | queuePopDone (crew q : Nat)
  | barrierRelease (cluster : Bool) (id : Nat)
  | matrixOwnershipGrant (core : Nat)
  | waitbComplete (core slot : Nat)
  | cwaitComplete (core slot : Nat)
  | engineAcceptance (core slot : Nat)
  | copyChunkDone (op n : Nat)
  | copyStop (op : Nat)
  | engineCompletionRecord (op : Nat)
  | quantCommandExecute (core : Nat)
  | nmcPcShare (op home : Nat)
  -- homes, history, bins, partitions
  | trackedWriteAtHome (home : Nat)
  | leesReclaim (stack : Nat)
  | horizonPropagation (core : Nat)
  | spawnBinTimer (core bin : Nat)
  | spawnedTeamPlacement (core : Nat)
  | partitionRelease (crew : Nat)
  | partitionSpill (crew : Nat)
  -- pre-emption and launches
  | preemptionRequest (cluster : Nat)
  | preemptionDeadline (core slot : Nat)
  | teamSave (core slot : Nat)
  | saveStreamDone (core slot : Nat)
  | clusterRestoreDone (cluster : Nat)
  | launchAdmission (q : Nat)
  | clusterPlacement (cluster : Nat)
  | launchCompletion (launch : Nat)
  | queueEnable (q : Nat) (v : BitVec 64)
  | queueTeardown (q : Nat) (v : BitVec 64)
  | queueSuspend (q : Nat) (v : BitVec 64)
  | queueUnsuspend (q : Nat) (v : BitVec 64)
  | doorbell (q : Nat) (v : BitVec 64)
  | tornClear (q : Nat) (v : BitVec 64)
  -- host registers
  | registerWrite (off bits : Nat) (v : BitVec 64)
  | leescfgWrite (v : BitVec 64)
  | stackQuiesceRequest (n : Nat)
  | stackQuiesceComplete (n : Nat)
  | stackReturnToService (n : Nat)
  | hashmaskWrite (n j : Nat) (v : BitVec 64)
  | rateChangeRequest (n : Nat)
  | retrainingStart (n : Nat)
  | retrainingComplete (n : Nat)
  | rateChangeAbandon (n : Nat)
  -- hardware events
  | pcGrant (home : Nat)
  | patrolScrub (loc : Nat)
  | sramError (structureCode unit slot : Nat) (loc : Nat) (correctable : Bool)
  | timingDetection (core : Nat) (again : Bool)
  | consume (launch code : Nat)
  | rollbackRestore (launch : Nat)
  -- host service
  | parkResume (core slot ctx : Nat)
  | parkResumeSkip (core slot ctx : Nat)
  | parkKillTeam (core slot ctx : Nat)
  | contextResume (ctx : Nat)
  | contextKill (ctx : Nat)
  | errctlWrite (v : BitVec 64)
  | errheadWrite (v : BitVec 64)
  | rebase
  | rebaseComplete
  | kilnDrain (addr : Nat)
  | kilnCommit
  | kilnRestore (addr : Nat)
  | kilnReleaseGeneration (addr : Nat)
  | kilnAbort
  | framecmdGo (v : BitVec 64)
  | frameChangeComplete
  -- debugger
  | dbgHalt (core : Nat)
  | dbgResume (core : Nat)
  | dbgStepInstruction (core : Nat)
  | dbgStepClause (core : Nat)
  | mbpopRead (core : Nat)
  -- host memory, links, peers, pins
  | hostMemRead (port addr n : Nat)
  | hostMemWrite (port addr : Nat) (data : List (BitVec 8)) (poison : Bool)
  | cxlLinkUp (link : Nat)
  | cxlLinkDown (link : Nat)
  | huanenPortFail (port : Nat)
  | peerAccess (off : Nat) (op : PeerOp) (data : List (BitVec 8))
  | spdmRequest (what : Spdm)
  | resetRelease (bifur0 bifur1 : Bool) (image : Image)
  | powerGood
  | thermalTrip
  | functionReady (f : Ready)
  | readyFall (f : Ready)
  | resetNAssertion
  | lossOfPower
  | hbmDataError (loc : Nat) (bits : List Nat)
  deriving DecidableEq, Repr

end Sys2Proof
end

