-- ==== Sys2Proof/WellFormed.lean ====
section
/-! DEFINITION. Which instructions have an encoding: the limits of spec/07 R153 that do not depend on the team's
register count, the legality lists of types and codes (spec/07 R158, spec/09, spec/11, spec/13, spec/15), and the
header and dual rules of spec/07 R143, R161, R162. The limits that depend on the register count N are checked
when the instruction issues (Machine/Operands.lean, `regsFit`). A step of another agent has no encoding and no
limits here. -/

namespace Sys2Proof

/-- Types of 64 bits (spec/05 R106). -/
def Ty.is64 : Ty → Bool
  | .i64 | .n64 | .d | .b64 => true
  | _ => false

/-- The four binary floating-point types (spec/05 R102). -/
def Ty.isFloat : Ty → Bool
  | .f | .d | .h | .bf => true
  | _ => false

/-- The packed types, two values per element (spec/05 R106). -/
def Ty.isPacked : Ty → Bool
  | .h | .bf => true
  | _ => false

/-- "All six" of spec/09 R211, "Word" of spec/11 R231. -/
def Ty.isWord : Ty → Bool
  | .i32 | .n32 | .b32 | .i64 | .n64 | .b64 => true
  | _ => false

/-- "Integer" of spec/09 R211, "Int" of spec/11 R231. -/
def Ty.isInt : Ty → Bool
  | .i32 | .n32 | .i64 | .n64 => true
  | _ => false

/-- "Narrow" of spec/11 R231. -/
def Ty.isNarrow : Ty → Bool
  | .i16 | .n16 | .i8 | .n8 => true
  | _ => false

/-- "Bits" of spec/11 R231. -/
def Ty.isBits : Ty → Bool
  | .b32 | .b64 => true
  | _ => false

/-- The tapered types (spec/05 R117). -/
def Ty.isTapered : Ty → Bool
  | .t8 | .t6 => true
  | _ => false

/-- The signed integer types (spec/05 R105). -/
def Ty.isSigned : Ty → Bool
  | .i32 | .i64 | .i16 | .i8 => true
  | _ => false

/-- The types of VABS and VNEG (spec/11 R232). -/
def Ty.isAbs (t : Ty) : Bool := t.isSigned

/-- The types of VCVT (spec/11 R247). -/
def Ty.isCvt (t : Ty) : Bool := t.isInt || t.isNarrow || t.isFloat

/-- The types of VPACK and VUNPK (spec/11 R248). -/
def Ty.isPack : Ty → Bool
  | .h | .bf | .i16 | .n16 => true
  | _ => false

/-- The types MXMMA and MXRSUM accept (spec/15 R301, R312). -/
def Ty.isMx : Ty → Bool
  | .t8 | .t6 | .bf | .h | .i8 | .f | .d => true
  | _ => false

namespace Wf

/-- A mask selector (spec/07 R153). -/
def km (n : Nat) : Bool := decide (n < 16)

/-- A mask destination: never k0 (spec/03 R49). -/
def kd (n : Nat) : Bool := decide (0 < n ∧ n < 16)

/-- A scalar register (spec/07 R153). -/
def sc (n : Nat) : Bool := decide (n < 128)

/-- A condition destination: never c0 (spec/07 R153). -/
def cd (n : Nat) : Bool := decide (0 < n ∧ n < 8)

/-- A vector register field of 11 bits (spec/07 R152, R153). -/
def vr (n : Nat) : Bool := decide (n < 2048)

/-- A vector register of type `t`: even for a 64-bit type (spec/07 R153). -/
def vt (t : Ty) (n : Nat) : Bool := vr n && (!t.is64 || n % 2 == 0)

/-- A flag slot (spec/07 R152). -/
def fs (n : Nat) : Bool := decide (n < 4)

/-- Operand b of a scalar instruction (spec/09 R210). -/
def ssrc : SSrc → Bool
  | .reg n => sc n
  | _ => true

/-- Operand b without a literal form: KSETW, KGETW (spec/09 R213). -/
def ssrcNoLit : SSrc → Bool
  | .reg n => sc n
  | .imm _ => true
  | .lit _ => false

/-- Operand b of SSEL: a literal but no immediate (spec/09 R211). -/
def ssrcNoImm : SSrc → Bool
  | .reg n => sc n
  | .imm _ => false
  | .lit _ => true

/-- Operand b of type `t` of a vector instruction (spec/11 R225). -/
def vsrc (t : Ty) : VSrc → Bool
  | .reg n => vt t n
  | .sb n => sc n
  | .lit _ => true

/-- Operand b that is always a single register (spec/11 R226). -/
def vsrc1 : VSrc → Bool
  | .reg n => vr n
  | .sb n => sc n
  | .lit _ => true

/-- A count or index operand (spec/11 R250, spec/13 R284). -/
def lsrc : LSrc → Bool
  | .reg n => sc n
  | .lit _ => true

/-- The fields of a scalar instruction with types `p` (spec/09 R210, R211). -/
def sbin (p : Ty → Bool) (o : SBin) : Bool := km o.k && sc o.d && sc o.a && p o.ty && ssrc o.b

/-- The fields of a vector instruction with types `p`, all operands of the type (spec/11 R225, R226). -/
def vbin (p : Ty → Bool) (o : VBin) : Bool :=
  km o.k && vt o.ty o.d && vt o.ty o.a && p o.ty && vsrc o.ty o.b

/-- The fields of a unary vector instruction (spec/11 R225). -/
def vun (p : Ty → Bool) (o : VUn) : Bool := km o.k && vt o.ty o.d && vt o.ty o.a && p o.ty

/-- The fields of a three-source instruction (spec/07 R155). -/
def v3 (p : Ty → Bool) (o : V3) : Bool :=
  km o.k && vt o.ty o.d && vt o.ty o.a && vt o.ty o.b && vt o.ty o.c && p o.ty

/-- The destination of a width (spec/13 R258). -/
def vwidth (w : Width) (d : Nat) : Bool :=
  match w with
  | .b64 | .x2 => d % 2 == 0
  | .x4 => d % 4 == 0
  | _ => true

/-- A scope goes with an order only (spec/13 R256). -/
def orderScope (o : Order) (s : Scope) : Bool := (o != .relaxed) || (s == .team)

/-- Widths a scalar access may have (spec/13 R258). -/
def swidth : Width → Bool
  | .x2 | .x4 => false
  | _ => true

/-- The memory modifier (spec/13 R256): no vector offset leaves U and B at 0. -/
def nvub (nv u : Bool) (b : Nat) : Bool := vr b && (!nv || (!u && b == 0))

/-- LD and ST (spec/13 R256-R258, R262); `ok` lists the orders. -/
def mem (ok : Order → Bool) (o : MemOp) : Bool :=
  km o.k && fs o.fs && vr o.d && sc o.a && nvub o.nv o.u o.b && vwidth o.width o.d && ok o.order
    && orderScope o.order o.scope

/-- LDS and STS (spec/13 R257, R258, R262). -/
def smem (ok : Order → Bool) (o : MemOp) : Bool :=
  km o.k && fs o.fs && sc o.d && sc o.a && o.b == 0 && !o.nv && !o.u && swidth o.width && ok o.order
    && orderScope o.order o.scope

/-- The orders of a load (spec/13 R262). -/
def ldOrder : Order → Bool
  | .relaxed | .acq | .sc => true
  | _ => false

/-- The orders of a store (spec/13 R262). -/
def stOrder : Order → Bool
  | .relaxed | .rel | .sc => true
  | _ => false

/-- The orders of a reduction (spec/13 R276). -/
def redOrder : Order → Bool
  | .relaxed | .rel => true
  | _ => false

/-- Whether an atomic operation admits a type (spec/13 R277). -/
def aop (op : AOp) (t : Ty) : Bool :=
  match op with
  | .add | .min | .max | .and | .or | .xor => t.isInt
  | .swap => t.isInt || t.isFloat
  | .inc => t == .n32 || t == .n64
  | .fadd | .fmin | .fmax => t.isFloat

/-- The fields common to the atomics (spec/13 R276). -/
def atc (ok : Order → Bool) (o : AtOp) : Bool :=
  km o.k && fs o.fs && vr o.d && sc o.a && vr o.b && ok o.order && orderScope o.order o.scope

/-- The types of ATCAS (spec/13 R279). -/
def casTy : Ty → Bool
  | .i32 | .n32 | .i64 | .n64 | .f | .d => true
  | _ => false

/-- VFOLD and VSCAN (spec/11 R250): the types of an operation and of its num variant. -/
def fop (op : FOp) (t : Ty) (num : Bool) : Bool :=
  (match op with
   | .add | .min | .max => t.isInt || (t == .f || t == .d)
   | _ => t.isInt)
  && (!num || (t == .f || t == .d))

/-- Identical or disjoint ranges of `n` registers (spec/15 R309, R310). -/
def sameOrApart (x y n : Nat) : Bool := decide (x = y ∨ x + n ≤ y ∨ y + n ≤ x)

/-- The number of A registers of a matrix type (spec/15 R303). -/
def nA : Ty → Nat
  | .t8 => 12
  | .t6 => 9
  | .bf | .h | .f => 8
  | _ => 16

/-- Branch offsets (spec/07 R156). -/
def off (o : Int) : Bool := decide (-4294967296 ≤ o ∧ o < 4294967296)

/-- The copy commands (spec/15 R317). -/
def cp (o : CpOp) : Bool := km o.k && fs o.fs && sc o.d && sc o.a && sc o.b

/-- Whether SETSYS may name a selector (spec/07 R165). -/
def settable : Sel → Bool
  | .fpmode | .fpflags | .stampfloor | .handlerbase | .poolcounter | .redlogbase => true
  | _ => false

/-- GETSYS destinations (spec/09 R208). -/
def getsysD (sel : Sel) (d : Nat) : Bool :=
  match sel with
  | .faultmask => kd d
  | .faultaddr => vr d && d % 2 == 0
  | .laneid => vr d
  | _ => sc d

/-- The register file of a slot (spec/07 R162). -/
def slotScalar : SlotOp → Bool
  | .sadd | .ssub | .sand | .sor | .sxor | .sshl | .sshr | .smov => true
  | _ => false

/-- The types a slot operation admits (spec/07 R161). -/
def slotTy : SlotOp → Ty → Bool
  | .nop, t => t == .i32
  | .vmin, t | .vmax, t => t == .i32 || t == .n32
  | .vfadd, t | .vfsub, t | .vfmul, t | .vfmin, t | .vfmax, t | .vfabs, t | .vfneg, t =>
    t == .f || t == .h || t == .bf
  | _, t => t == .i32 || t == .n32 || t == .b32

/-- One slot (spec/07 R161, R162). -/
def slot (x : Slot) : Bool :=
  slotTy x.op x.ty &&
  (match x.op with
   | .nop => x.d == 0 && x.s == 0 && x.k == 0
   | op => if slotScalar op then sc x.d && sc x.s && x.k == 0
           else decide (x.d < 256) && decide (x.s < 256) && decide (x.k < 8))

/-- The bank rules of a pair of slots (spec/07 R162). -/
def banks (x y : Slot) : Bool :=
  x.op == .nop || y.op == .nop || (slotScalar x.op != slotScalar y.op) ||
    (x.s % 4 != y.s % 4 && x.d % 4 != y.d % 4)

/-- A bound flag (spec/07 R143). -/
def hflag : Option Nat → Bool
  | none => true
  | some n => decide (n < 12)

/-- A legal clause header (spec/07 R143). -/
def header (h : Header) : Bool :=
  decide (0 < h.len ∧ h.len < 16) && hflag h.aflag && hflag h.bflag
    && (h.aflag.isNone || h.aflag != h.bflag)
    && (match h.safe with | none => true | some p => decide (p < 32768))

end Wf

open Wf in
/-- Whether an instruction obeys every limit that does not depend on the team. -/
def Instr.wf : Instr → Bool
  | .nop k | .exit k | .yield k | .brkpt k | .mxacq k | .mxrel k => km k
  | .br o => off o
  | .brc c _ o => decide (c < 8) && off o
  | .brz m _ o => km m && off o
  | .call l o => sc l && off o
  | .jmp k a => km k && sc a
  | .loop l o => sc l && decide (0 < l) && off o
  | .trap k c => km k && decide (c < 256)
  | .rtt k _ => km k
  | .getsys k d sel => km k && getsysD sel d
  | .setsys k a sel => km k && sc a && settable sel
  | .mbox k a t => km k && sc a && decide (t < 256)
  | .escalate k a => km k && sc a
  | .sadd o | .ssub o | .smul o | .sand o | .sor o | .sxor o | .sshl o | .sshr o => sbin Ty.isWord o
  | .smov o => sbin Ty.isWord o && (match o.b with | .reg n => n == 0 | _ => o.a == 0)
  | .smulh o | .sdiv o | .srem o | .smin o | .smax o => sbin Ty.isInt o
  | .scmp o _ => sbin Ty.isInt o && cd o.d
  | .ssel o c => sbin Ty.isBits o && ssrcNoImm o.b && decide (c < 8)
  | .kand k d a b | .kor k d a b | .kxor k d a b | .kandn k d a b => km k && kd d && km a && km b
  | .knot k d a | .kmov k d a => km k && kd d && km a
  | .kcnt k d a | .kfirst k d a => km k && sc d && km a
  | .ktest k d a _ => km k && cd d && km a
  | .kfromv k d a => km k && kd d && vr a
  | .ktov k d a => km k && vr d && km a
  | .ksetw k d a b => km k && kd d && sc a && ssrcNoLit b
  | .kgetw k d a b => km k && sc d && km a && ssrcNoLit b
  | .qpush k a q => km k && sc a && decide (q < 16)
  | .qpop k d q => km k && sc d && decide (q < 16)
  | .qtry k n op q => km k && cd n && decide (q < 16) && (match op with | .push a => sc a | .pop d => sc d)
  | .bar k _ => km k
  | .spawn k a b => km k && vr a && sc b
  | .batch k d => km k && sc d
  | .waitb k a => km k && sc a
  | .cwait k a b => km k && sc a && sc b
  | .ctest k d a b => km k && cd d && sc a && sc b
  | .vadd o | .vsub o => vbin (fun t => t.isWord || t.isNarrow) o
  | .vmul o | .vmin o | .vmax o => vbin (fun t => t.isInt || t.isNarrow) o
  | .vmulh o | .vdiv o | .vrem o | .vbfe o => vbin Ty.isInt o
  | .vmad o => v3 Ty.isInt o
  | .vabs o | .vneg o => vun Ty.isAbs o
  | .vand o | .vor o | .vxor o | .vshl o | .vshr o => vbin Ty.isWord o
  | .vnot o => vun Ty.isWord o
  | .vrot o => vbin Ty.isBits o
  | .vcmp o _ => km o.k && kd o.d && vt o.ty o.a && (o.ty.isInt || o.ty.isNarrow) && vsrc o.ty o.b
  | .vsel o ks => vbin Ty.isBits o && km ks
  | .vmov o => vbin Ty.isWord o && (match o.b with | .reg n => n == 0 | _ => o.a == 0)
  | .vbfi o => v3 Ty.isBits o
  | .vpopc o | .vclz o => vun Ty.isBits o
  | .vaddc o kc => vbin (fun t => t == .n32 || t == .n64) o && kd kc
  | .vadds o _ => vbin (fun t => t.isInt || t.isNarrow) o
  | .vlane k d a _ => km k && vr d && sc a
  | .vmulw o => km o.k && vr o.d && o.d % 2 == 0 && vr o.a && (o.ty == .i32 || o.ty == .n32) && vsrc1 o.b
  | .vfadd o _ | .vfsub o _ | .vfmul o _ => vbin Ty.isFloat o
  | .vfma o => v3 Ty.isFloat o
  | .vfdiv o f _ => vbin Ty.isFloat o && fs f
  | .vfsqrt o f _ => vun Ty.isFloat o && fs f
  | .vfrsqs o | .vfrcps o => vun (fun t => t == .f || t == .d || t == .h) o
  | .vfmin o _ | .vfmax o _ => vbin Ty.isFloat o
  | .vfabs o | .vfneg o | .vfgetexp o | .vfgetman o => vun Ty.isFloat o
  | .vfcmp o _ _ _ half =>
    km o.k && kd o.d && vt o.ty o.a && o.ty.isFloat && vsrc o.ty o.b && (!half || o.ty.isPacked)
  | .vfclass o => km o.k && vr o.d && vt o.ty o.a && o.ty.isFloat
  | .vfrnd o _ _ => vun Ty.isFloat o
  | .vfscale o _ => km o.k && vt o.ty o.d && vt o.ty o.a && o.ty.isFloat && vsrc1 o.b
  | .vfexp2 o | .vflog2 o => vun (fun t => t == .f || t == .h) o
  | .vfcopysign o _ => vbin Ty.isFloat o
  | .vcvt k d a dst src _ =>
    km k && vt dst d && vt src a && dst.isCvt && src.isCvt && dst != src && (dst.isFloat || src.isFloat)
  | .vpack o rm => vbin Ty.isPack o && (o.ty.isFloat || rm == .rne)
  | .vunpk o _ => vun Ty.isPack o
  | .vqnt o b | .vdqnt o b => vbin Ty.isTapered o && decide (b < 4) && (o.ty == .t8 || b == 0)
  | .vshfl o _ | .vxch o => km o.k && vt o.ty o.d && vt o.ty o.a && o.ty.isBits && vsrc1 o.b
  | .vfold o op num => km o.k && sc o.d && vt o.ty o.a && fop op o.ty num
  | .vscan o op num _ => km o.k && vt o.ty o.d && vt o.ty o.a && fop op o.ty num
  | .vapnd k d a => km k && vr d && sc a
  | .vreadl k d a ty b => km k && sc d && vt ty a && ty.isBits && lsrc b
  | .vwritel k d a ty b => km k && vt ty d && sc a && ty.isBits && lsrc b
  | .ld o => mem ldOrder o
  | .st o => mem stOrder o && o.fs == 0
  | .lds o => smem ldOrder o
  | .sts o => smem stOrder o && o.fs == 0
  | .ldasof o =>
    km o.k && fs o.fs && vr o.d && sc o.a && nvub o.nv false o.b && sc o.st && vwidth o.width o.d
  | .ldasofs o => km o.k && fs o.fs && sc o.d && sc o.a && o.b == 0 && !o.nv && sc o.st && swidth o.width
  | .ldpk k f d a b nv u _ => km k && fs f && vr d && sc a && nvub nv u b
  | .pref k a b nv u _ => km k && sc a && nvub nv u b
  | .stashmap k d a b => km k && sc d && sc a && sc b
  | .stashdrop k d _ => km k && sc d
  | .atom o op => atc (fun _ => true) o && aop op o.ty && vt o.ty o.d
  | .atcas o => atc (fun _ => true) o && casTy o.ty && vt o.ty o.d
  | .red o op => atc redOrder o && aop op o.ty && vt o.ty o.d && o.fs == 0
  | .vatom o op => atc (fun _ => true) o && aop op o.ty && op != .inc && o.d % 2 == 0
  | .vred o op => atc redOrder o && aop op o.ty && op != .inc && o.d % 2 == 0 && o.fs == 0
  | .alinit k a b => km k && sc a && lsrc b
  | .aldec k f d a b acq scope wait =>
    km k && fs f && decide (d < 8) && (wait || decide (0 < d)) && sc a && lsrc b && (acq || scope == .team)
  | .alinc k a b rel scope => km k && sc a && lsrc b && (rel || scope == .team)
  | .alrd k f d a acq scope => km k && fs f && sc d && sc a && (acq || scope == .team)
  | .alfree k a => km k && sc a
  | .fence k o _ => km k && o != .relaxed
  | .fenceo k s | .fencer k s => km k && s != .team
  | .cmaint k a b _ _ => km k && sc a && sc b
  | .tlblock k a b | .tlbunlock k a b => km k && sc a && sc b
  | .pgmap k d a b => km k && cd d && sc a && sc b
  | .pgunmap k a b => km k && sc a && sc b
  | .stampget k f d | .horizon k f d => km k && fs f && sc d && decide (0 < d)
  | .snap k f d => km k && fs f && decide (0 < d ∧ d < 127)
  | .pin k f d a => km k && fs f && sc d && decide (0 < d) && sc a
  | .unpin k a => km k && sc a
  | .mxmma k f d a b ty _ sparse sm =>
    km k && fs f && vt ty d && vt ty a && sc b && ty.isMx && sc sm && (sparse || sm == 0)
      && decide (d + 32 ≤ a ∨ a + nA ty ≤ d)
  | .mxsca k f d a b e => km k && fs f && vr d && vr a && vr b && sc e && sameOrApart d a 32
  | .mxperm k f d a b ty => km k && fs f && vt ty d && vt ty a && vr b && ty.isBits && sameOrApart d a 32
  | .mxtrn k f d a ty => km k && fs f && vt ty d && vt ty a && ty.isBits && sameOrApart d a 32
  | .mxrsum k f d a ty =>
    km k && fs f && vt ty d && vt ty a && ty.isMx
      && decide (d + (if ty.is64 then 2 else 1) ≤ a ∨ a + nA ty ≤ d)
  | .cpin o _ | .cpout o | .cppeer o => cp o
  | .qst k f d a ty q _ _ => km k && fs f && decide (d < 127) && sc a && ty.isTapered && decide (q < 8)
  | .qstd k f d a ty qa qb _ =>
    km k && fs f && decide (d < 125) && sc a && ty.isTapered && decide (qa < 8) && decide (qb < 8) && qa != qb
  | .qload k f a q | .qsave k f a q => km k && fs f && sc a && decide (q < 8)
  | .nmc k f d a => km k && fs f && sc d && decide (a < 125)
  | .dualWord x y => slot x && slot y && banks x y
  | .clauseEntry h => header h
  | _ => true

end Sys2Proof
end

