-- ==== Sys2Proof/Decode.lean ====
section
/-! DEFINITION. The instruction words of spec/07: forms (R139), the full form and its subforms (R152, R154-R156), the
dual form (R160), the clause header (R142), the opcode map (R167); the decoder, which names why it refuses a word;
and after it the encoder. All fields are taken with division and remainder over `Nat`, so that the laws are
arithmetic. The decoder forms the one instruction a word could be (`candidate…`) and accepts it only when it is well
formed and encodes back to the same word: a field the instruction does not use, and a reserved field, must be 0
(R153, R168). -/

namespace Sys2Proof

/-- Why a word is no instruction (spec/07 R168). -/
inductive Reject where
  /-- Form 0b11, or a form that is not due here. -/
  | form
  /-- A header that breaks R143. -/
  | header
  /-- An opcode without an instruction (R167). -/
  | unassigned
  /-- A type, relation, operation or mode code without a meaning. -/
  | code
  /-- An operand beyond its limit, or a type off the opcode's list. -/
  | operand
  /-- A field that is reserved or unused and not 0. -/
  | reserved
  deriving DecidableEq, Repr

/-- The fields of a full-form word (spec/07 R152). -/
structure Raw where
  op : Nat
  k : Nat
  fs : Nat
  d : Nat
  a : Nat
  b : Nat
  m : Nat
  deriving DecidableEq, Repr

/-- The words of an instruction: the first, and the literal word where there is one. -/
structure Words where
  first : Nat
  lit : Option (BitVec 64)
  deriving DecidableEq, Repr

/-- A Bool as a bit. -/
def bit (b : Bool) : Nat := if b then 1 else 0

/-- Bit `n` of `w`. -/
def hasBit (w n : Nat) : Bool := w / 2 ^ n % 2 == 1

/-- The fields of a full-form word (spec/07 R152). -/
def unpack (w : Nat) : Raw :=
  { op := w / 2 ^ 54 % 256, k := w / 2 ^ 50 % 16, fs := w / 2 ^ 48 % 4, d := w / 2 ^ 37 % 2048,
    a := w / 2 ^ 26 % 2048, b := w / 2 ^ 15 % 2048, m := w % 2 ^ 15 }

/-- The full-form word of its fields (spec/07 R152). -/
def pack (r : Raw) : Nat :=
  r.op * 2 ^ 54 + r.k * 2 ^ 50 + r.fs * 2 ^ 48 + r.d * 2 ^ 37 + r.a * 2 ^ 26 + r.b * 2 ^ 15 + r.m

/-- The form of a word, bits [63:62] (spec/07 R139). -/
def form (w : Nat) : Nat := w / 2 ^ 62 % 4

/-- The type codes (spec/07 R158). -/
def Ty.code : Ty → Nat
  | .i32 => 0 | .n32 => 1 | .i64 => 2 | .n64 => 3 | .i16 => 4 | .n16 => 5 | .i8 => 6 | .n8 => 7
  | .f => 8 | .d => 9 | .h => 10 | .bf => 11 | .t8 => 12 | .t6 => 13 | .b32 => 14 | .b64 => 15

/-- The type of a code (spec/07 R158). -/
def Ty.ofCode : Nat → Ty
  | 0 => .i32 | 1 => .n32 | 2 => .i64 | 3 => .n64 | 4 => .i16 | 5 => .n16 | 6 => .i8 | 7 => .n8
  | 8 => .f | 9 => .d | 10 => .h | 11 => .bf | 12 => .t8 | 13 => .t6 | 14 => .b32 | _ => .b64

/-- Relation codes (spec/09 R212). -/
def Rel.code : Rel → Nat
  | .eq => 0 | .ne => 1 | .lt => 2 | .le => 3 | .gt => 4 | .ge => 5

/-- The relation of a code (spec/09 R212). -/
def Rel.ofCode : Nat → Option Rel
  | 0 => some .eq | 1 => some .ne | 2 => some .lt | 3 => some .le | 4 => some .gt | 5 => some .ge | _ => none

/-- Rounding codes (spec/05 R108, spec/07 R159). -/
def Rm.code : Rm → Nat
  | .rne => 0 | .rtz => 1 | .rup => 2 | .rdn => 3

/-- The rounding of a code (spec/05 R108). -/
def Rm.ofCode : Nat → Rm
  | 0 => .rne | 1 => .rtz | 2 => .rup | _ => .rdn

/-- Width codes (spec/13 R256). -/
def Width.code : Width → Nat
  | .b8 => 0 | .b16 => 1 | .b32 => 2 | .b64 => 3 | .x2 => 4 | .x4 => 5

/-- The width of a code (spec/13 R256). -/
def Width.ofCode : Nat → Option Width
  | 0 => some .b8 | 1 => some .b16 | 2 => some .b32 | 3 => some .b64 | 4 => some .x2 | 5 => some .x4 | _ => none

/-- Order codes (spec/13 R256). -/
def Order.code : Order → Nat
  | .relaxed => 0 | .acq => 1 | .rel => 2 | .acqrel => 3 | .sc => 4

/-- The order of a code (spec/13 R256). -/
def Order.ofCode : Nat → Option Order
  | 0 => some .relaxed | 1 => some .acq | 2 => some .rel | 3 => some .acqrel | 4 => some .sc | _ => none

/-- Scope codes (spec/13 R256). -/
def Scope.code : Scope → Nat
  | .team => 0 | .crew => 1 | .cluster => 2 | .dev => 3 | .sys => 4

/-- The scope of a code (spec/13 R256). -/
def Scope.ofCode : Nat → Option Scope
  | 0 => some .team | 1 => some .crew | 2 => some .cluster | 3 => some .dev | 4 => some .sys | _ => none

/-- Atomic operation codes (spec/13 R277). -/
def AOp.code : AOp → Nat
  | .add => 0 | .min => 1 | .max => 2 | .and => 3 | .or => 4 | .xor => 5 | .swap => 6 | .inc => 7
  | .fadd => 8 | .fmin => 9 | .fmax => 10

/-- The atomic operation of a code (spec/13 R277). -/
def AOp.ofCode : Nat → Option AOp
  | 0 => some .add | 1 => some .min | 2 => some .max | 3 => some .and | 4 => some .or | 5 => some .xor
  | 6 => some .swap | 7 => some .inc | 8 => some .fadd | 9 => some .fmin | 10 => some .fmax | _ => none

/-- Fold operation codes (spec/11 R250). -/
def FOp.code : FOp → Nat
  | .add => 0 | .min => 1 | .max => 2 | .and => 3 | .or => 4 | .xor => 5

/-- The fold operation of a code (spec/11 R250). -/
def FOp.ofCode : Nat → Option FOp
  | 0 => some .add | 1 => some .min | 2 => some .max | 3 => some .and | 4 => some .or | 5 => some .xor | _ => none

/-- KTEST mode codes (spec/09 R214). -/
def KMode.code : KMode → Nat
  | .any => 0 | .all => 1 | .none => 2

/-- The KTEST mode of a code (spec/09 R214). -/
def KMode.ofCode : Nat → Option KMode
  | 0 => some .any | 1 => some .all | 2 => some .none | _ => none

/-- VSHFL mode codes (spec/11 R251). -/
def ShMode.code : ShMode → Nat
  | .index => 0 | .xor => 1 | .up => 2 | .down => 3

/-- The VSHFL mode of a code (spec/11 R251). -/
def ShMode.ofCode : Nat → ShMode
  | 0 => .index | 1 => .xor | 2 => .up | _ => .down

/-- VFCOPYSIGN mode codes (spec/11 R245). -/
def CsMode.code : CsMode → Nat
  | .same => 0 | .inverse => 1 | .xor => 2

/-- The VFCOPYSIGN mode of a code (spec/11 R245). -/
def CsMode.ofCode : Nat → Option CsMode
  | 0 => some .same | 1 => some .inverse | 2 => some .xor | _ => none

/-- CMAINT operation codes (spec/13 R290). -/
def CmOp.code : CmOp → Nat
  | .clean => 0 | .inv => 1 | .cleaninv => 2

/-- The CMAINT operation of a code (spec/13 R290). -/
def CmOp.ofCode : Nat → Option CmOp
  | 0 => some .clean | 1 => some .inv | 2 => some .cleaninv | _ => none

/-- CMAINT level codes (spec/13 R290). -/
def CmLevel.code : CmLevel → Nat
  | .l1 => 0 | .llc => 1 | .mem => 2

/-- The CMAINT level of a code (spec/13 R290). -/
def CmLevel.ofCode : Nat → Option CmLevel
  | 0 => some .l1 | 1 => some .llc | 2 => some .mem | _ => none

/-- Selector codes (spec/07 R165). -/
def Sel.code : Sel → Nat
  | .teamid => 0x000 | .crewid => 0x001 | .clusteridx => 0x002 | .clusteridy => 0x003 | .clusteridz => 0x004
  | .stage => 0x005 | .role => 0x006 | .lanes => 0x007 | .nregs => 0x008
  | .fpmode => 0x010 | .fpflags => 0x011 | .stampfloor => 0x020 | .batchnext => 0x021 | .batchdone => 0x022
  | .faultcode => 0x030 | .faultpc => 0x031 | .faultmask => 0x032 | .resumepc => 0x033
  | .faultaddr => 0x040 | .laneid => 0x041
  | .handlerbase => 0x100 | .poolcounter => 0x101 | .redlogbase => 0x102 | .horizoncache => 0x103

/-- The system register of a selector (spec/07 R165). -/
def Sel.ofCode : Nat → Option Sel
  | 0x000 => some .teamid | 0x001 => some .crewid | 0x002 => some .clusteridx | 0x003 => some .clusteridy
  | 0x004 => some .clusteridz | 0x005 => some .stage | 0x006 => some .role | 0x007 => some .lanes
  | 0x008 => some .nregs | 0x010 => some .fpmode | 0x011 => some .fpflags | 0x020 => some .stampfloor
  | 0x021 => some .batchnext | 0x022 => some .batchdone | 0x030 => some .faultcode | 0x031 => some .faultpc
  | 0x032 => some .faultmask | 0x033 => some .resumepc | 0x040 => some .faultaddr | 0x041 => some .laneid
  | 0x100 => some .handlerbase | 0x101 => some .poolcounter | 0x102 => some .redlogbase
  | 0x103 => some .horizoncache | _ => none

/-- The dual type codes (spec/07 R161). -/
def Ty.dualCode : Ty → Nat
  | .i32 => 0 | .n32 => 1 | .b32 => 2 | .f => 3 | .h => 4 | .bf => 5 | _ => 31

/-- The type of a dual type code (spec/07 R161). -/
def Ty.ofDual : Nat → Option Ty
  | 0 => some .i32 | 1 => some .n32 | 2 => some .b32 | 3 => some .f | 4 => some .h | 5 => some .bf | _ => none

/-- The OP7 values (spec/07 R161). -/
def SlotOp.code : SlotOp → Nat
  | .nop => 0x00 | .sadd => 0x10 | .ssub => 0x11 | .sand => 0x16 | .sor => 0x17 | .sxor => 0x18 | .sshl => 0x19
  | .sshr => 0x1A | .smov => 0x1C
  | .vadd => 0x40 | .vsub => 0x41 | .vand => 0x4B | .vor => 0x4C | .vxor => 0x4D | .vshl => 0x4F | .vshr => 0x50
  | .vmov => 0x54 | .vmin => 0x47 | .vmax => 0x48
  | .vfadd => 0x60 | .vfsub => 0x61 | .vfmul => 0x62 | .vfmin => 0x68 | .vfmax => 0x69 | .vfabs => 0x6A
  | .vfneg => 0x6B

/-- The operation of an OP7 value (spec/07 R161). -/
def SlotOp.ofCode : Nat → Option SlotOp
  | 0x00 => some .nop | 0x10 => some .sadd | 0x11 => some .ssub | 0x16 => some .sand | 0x17 => some .sor
  | 0x18 => some .sxor | 0x19 => some .sshl | 0x1A => some .sshr | 0x1C => some .smov
  | 0x40 => some .vadd | 0x41 => some .vsub | 0x4B => some .vand | 0x4C => some .vor | 0x4D => some .vxor
  | 0x4F => some .vshl | 0x50 => some .vshr | 0x54 => some .vmov | 0x47 => some .vmin | 0x48 => some .vmax
  | 0x60 => some .vfadd | 0x61 => some .vfsub | 0x62 => some .vfmul | 0x68 => some .vfmin | 0x69 => some .vfmax
  | 0x6A => some .vfabs | 0x6B => some .vfneg | _ => none

/-- Whether the row of an opcode lists L, so that M[10] = 1 announces a literal word (spec/07 R154; spec/09 R210,
R211; spec/11 R232, R237, R248-R250; spec/13 R284). -/
def listsL (op : Nat) : Bool :=
  decide (0x10 ≤ op ∧ op ≤ 0x1F)
    || decide (op ∈ [0x40, 0x41, 0x42, 0x43, 0x45, 0x46, 0x47, 0x48, 0x4B, 0x4C, 0x4D, 0x4F, 0x50, 0x51, 0x52, 0x53,
        0x54, 0x55, 0x59, 0x5A, 0x5C])
    || decide (op ∈ [0x60, 0x61, 0x62, 0x64, 0x68, 0x69, 0x6C, 0x6F, 0x74, 0x81, 0x83, 0x84, 0x90, 0x91, 0x95, 0x96])
    || decide (op ∈ [0xC5, 0xC6, 0xC7])

/-- How many words the device decodes for an instruction that begins with `w`, legal or not (spec/09 R206). -/
def wordCount (w : Nat) : Nat :=
  if form w = 0 ∧ listsL (unpack w).op = true ∧ hasBit w 10 = true then 2 else 1

/-! ### The operand forms -/

/-- Bits L and I of a scalar operand (spec/09 R210). -/
def SSrc.bits : SSrc → Nat
  | .reg _ => 0 | .imm _ => 512 | .lit _ => 1024

/-- The B field of a scalar operand (spec/09 R194, R210). -/
def SSrc.field : SSrc → Nat
  | .reg n => n | .imm v => v.toNat | .lit _ => 0

/-- The literal word of a scalar operand. -/
def SSrc.literal : SSrc → Option (BitVec 64)
  | .lit v => some v | _ => none

/-- The scalar operand of a word (spec/09 R210). -/
def SSrc.of (r : Raw) (lit : BitVec 64) : SSrc :=
  if hasBit r.m 10 then .lit lit else if hasBit r.m 9 then .imm (BitVec.ofNat 11 r.b) else .reg r.b

/-- Operand b of KSETW and KGETW, where M[10] is reserved (spec/09 R213). -/
def SSrc.ofNoLit (r : Raw) : SSrc :=
  if hasBit r.m 9 then .imm (BitVec.ofNat 11 r.b) else .reg r.b

/-- Bits L and SB of a vector operand (spec/11 R225). -/
def VSrc.bits : VSrc → Nat
  | .reg _ => 0 | .sb _ => 512 | .lit _ => 1024

/-- The B field of a vector operand (spec/11 R225). -/
def VSrc.field : VSrc → Nat
  | .reg n => n | .sb n => n | .lit _ => 0

/-- The literal word of a vector operand. -/
def VSrc.literal : VSrc → Option (BitVec 64)
  | .lit v => some v | _ => none

/-- The vector operand of a word (spec/11 R225). -/
def VSrc.of (r : Raw) (lit : BitVec 64) : VSrc :=
  if hasBit r.m 10 then .lit lit else if hasBit r.m 9 then .sb r.b else .reg r.b

/-- Bit L of a count or index operand (spec/11 R250, spec/13 R284). -/
def LSrc.bits : LSrc → Nat
  | .reg _ => 0 | .lit _ => 1024

/-- The B field of a count or index operand. -/
def LSrc.field : LSrc → Nat
  | .reg n => n | .lit _ => 0

/-- The literal word of a count or index operand. -/
def LSrc.literal : LSrc → Option (BitVec 64)
  | .lit v => some v | _ => none

/-- The count or index operand of a word. -/
def LSrc.of (r : Raw) (lit : BitVec 64) : LSrc :=
  if hasBit r.m 10 then .lit lit else .reg r.b

/-- The type field M[14:11] (spec/07 R154). -/
def Raw.ty (r : Raw) : Ty := Ty.ofCode (r.m / 2048 % 16)

/-- The fields of a scalar word (spec/09 R210). -/
def SBin.of (r : Raw) (lit : BitVec 64) : SBin := ⟨r.k, r.d, r.a, r.ty, SSrc.of r lit⟩

/-- The fields of a vector word (spec/11 R225). -/
def VBin.of (r : Raw) (lit : BitVec 64) : VBin := ⟨r.k, r.d, r.a, r.ty, VSrc.of r lit⟩

/-- The fields of a unary vector word (spec/11 R225). -/
def VUn.of (r : Raw) : VUn := ⟨r.k, r.d, r.a, r.ty⟩

/-- The fields of a three-source word (spec/07 R155). -/
def V3.of (r : Raw) : V3 := ⟨r.k, r.d, r.a, r.b, r.m / 16 % 2048, Ty.ofCode (r.m % 16)⟩

/-- The fields of LD, ST, LDS, STS (spec/13 R256). -/
def MemOp.of (r : Raw) : Option MemOp := do
  let w ← Width.ofCode (r.m % 8)
  let o ← Order.ofCode (r.m / 16 % 8)
  let s ← Scope.ofCode (r.m / 128 % 8)
  some ⟨r.k, r.fs, r.d, r.a, r.b, hasBit r.m 10, hasBit r.m 3, w, o, s⟩

/-- The fields of LDASOF, LDASOFS (spec/13 R267). -/
def AsofOp.of (r : Raw) : Option AsofOp := do
  let w ← Width.ofCode (r.m % 8)
  some ⟨r.k, r.fs, r.d, r.a, r.b, hasBit r.m 10, r.m / 8 % 128, w⟩

/-- The fields of the atomics but for the operation (spec/13 R276). -/
def AtOp.of (r : Raw) : Option AtOp := do
  let o ← Order.ofCode (r.m / 16 % 8)
  let s ← Scope.ofCode (r.m / 128 % 8)
  some ⟨r.k, r.fs, r.d, r.a, r.b, hasBit r.m 10, r.ty, o, s⟩

/-- The fields of a copy command (spec/15 R317). -/
def CpOp.of (r : Raw) : CpOp := ⟨r.k, r.fs, r.d, r.a, r.b, hasBit r.m 0⟩

/-! ### Candidates: the one instruction a word could be -/

/-- Control, opcodes 0x00 and 0x05-0x0F (spec/09 R197, R199, R208, R209). -/
def candControl (r : Raw) : Option Instr :=
  match r.op with
  | 0x00 => some (.nop r.k)
  | 0x05 => some (.jmp r.k r.a)
  | 0x07 => some (.exit r.k)
  | 0x08 => some (.trap r.k (r.m % 256))
  | 0x09 => some (.rtt r.k (hasBit r.m 0))
  | 0x0A => some (.yield r.k)
  | 0x0B => (Sel.ofCode (r.m % 2048)).map (.getsys r.k r.d ·)
  | 0x0C => (Sel.ofCode (r.m % 2048)).map (.setsys r.k r.a ·)
  | 0x0D => some (.brkpt r.k)
  | 0x0E => some (.mbox r.k r.a (r.m % 256))
  | 0x0F => some (.escalate r.k r.a)
  | _ => none

/-- Scalar, opcodes 0x10-0x1F (spec/09 R211). -/
def candScalar (r : Raw) (lit : BitVec 64) : Option Instr :=
  match r.op with
  | 0x10 => some (.sadd (.of r lit))
  | 0x11 => some (.ssub (.of r lit))
  | 0x12 => some (.smul (.of r lit))
  | 0x13 => some (.smulh (.of r lit))
  | 0x14 => some (.sdiv (.of r lit))
  | 0x15 => some (.srem (.of r lit))
  | 0x16 => some (.sand (.of r lit))
  | 0x17 => some (.sor (.of r lit))
  | 0x18 => some (.sxor (.of r lit))
  | 0x19 => some (.sshl (.of r lit))
  | 0x1A => some (.sshr (.of r lit))
  | 0x1B => (Rel.ofCode (r.m % 8)).map (.scmp (.of r lit) ·)
  | 0x1C => some (.smov (.of r lit))
  | 0x1D => some (.ssel (.of r lit) (r.m % 8))
  | 0x1E => some (.smin (.of r lit))
  | 0x1F => some (.smax (.of r lit))
  | _ => none

/-- Mask, opcodes 0x20-0x2C (spec/09 R213). -/
def candMask (r : Raw) : Option Instr :=
  match r.op with
  | 0x20 => some (.kand r.k r.d r.a r.b)
  | 0x21 => some (.kor r.k r.d r.a r.b)
  | 0x22 => some (.kxor r.k r.d r.a r.b)
  | 0x23 => some (.kandn r.k r.d r.a r.b)
  | 0x24 => some (.knot r.k r.d r.a)
  | 0x25 => some (.kmov r.k r.d r.a)
  | 0x26 => some (.kcnt r.k r.d r.a)
  | 0x27 => some (.kfirst r.k r.d r.a)
  | 0x28 => (KMode.ofCode (r.m % 4)).map (.ktest r.k r.d r.a ·)
  | 0x29 => some (.kfromv r.k r.d r.a)
  | 0x2A => some (.ktov r.k r.d r.a)
  | 0x2B => some (.ksetw r.k r.d r.a (.ofNoLit r))
  | 0x2C => some (.kgetw r.k r.d r.a (.ofNoLit r))
  | _ => none

/-- Queues, synchronisation, spawning, batches, opcodes 0x30-0x3A (spec/09 R216-R224). -/
def candSync (r : Raw) : Option Instr :=
  match r.op with
  | 0x30 => some (.qpush r.k r.a (r.m % 16))
  | 0x31 => some (.qpop r.k r.d (r.m % 16))
  | 0x32 => some (.qtry r.k (r.m / 32 % 8) (if hasBit r.m 4 then .pop r.d else .push r.a) (r.m % 16))
  | 0x33 => some (.bar r.k (hasBit r.m 0))
  | 0x34 => some (.mxacq r.k)
  | 0x35 => some (.mxrel r.k)
  | 0x36 => some (.spawn r.k r.a r.b)
  | 0x37 => some (.batch r.k r.d)
  | 0x38 => some (.waitb r.k r.a)
  | 0x39 => some (.cwait r.k r.a r.b)
  | 0x3A => some (.ctest r.k r.d r.a r.b)
  | _ => none

/-- Vector integer and logic, opcodes 0x40-0x4F (spec/11 R232). -/
def candInt (r : Raw) (lit : BitVec 64) : Option Instr :=
  match r.op with
  | 0x40 => some (.vadd (.of r lit))
  | 0x41 => some (.vsub (.of r lit))
  | 0x42 => some (.vmul (.of r lit))
  | 0x43 => some (.vmulh (.of r lit))
  | 0x44 => some (.vmad (.of r))
  | 0x45 => some (.vdiv (.of r lit))
  | 0x46 => some (.vrem (.of r lit))
  | 0x47 => some (.vmin (.of r lit))
  | 0x48 => some (.vmax (.of r lit))
  | 0x49 => some (.vabs (.of r))
  | 0x4A => some (.vneg (.of r))
  | 0x4B => some (.vand (.of r lit))
  | 0x4C => some (.vor (.of r lit))
  | 0x4D => some (.vxor (.of r lit))
  | 0x4E => some (.vnot (.of r))
  | 0x4F => some (.vshl (.of r lit))
  | _ => none

/-- Vector integer and logic, opcodes 0x50-0x5C (spec/11 R232-R236). -/
def candInt2 (r : Raw) (lit : BitVec 64) : Option Instr :=
  match r.op with
  | 0x50 => some (.vshr (.of r lit))
  | 0x51 => some (.vrot (.of r lit))
  | 0x52 => (Rel.ofCode (r.m % 8)).map (.vcmp (.of r lit) ·)
  | 0x53 => some (.vsel (.of r lit) (r.m % 16))
  | 0x54 => some (.vmov (.of r lit))
  | 0x55 => some (.vbfe (.of r lit))
  | 0x56 => some (.vbfi (.of r))
  | 0x57 => some (.vpopc (.of r))
  | 0x58 => some (.vclz (.of r))
  | 0x59 => some (.vaddc (.of r lit) (r.m % 16))
  | 0x5A => some (.vadds (.of r lit) (hasBit r.m 0))
  | 0x5B => some (.vlane r.k r.d r.a (hasBit r.m 0))
  | 0x5C => some (.vmulw (.of r lit))
  | _ => none

/-- Vector floating point, opcodes 0x60-0x6F (spec/11 R237). -/
def candFloat (r : Raw) (lit : BitVec 64) : Option Instr :=
  match r.op with
  | 0x60 => some (.vfadd (.of r lit) (.ofCode (r.m % 4)))
  | 0x61 => some (.vfsub (.of r lit) (.ofCode (r.m % 4)))
  | 0x62 => some (.vfmul (.of r lit) (.ofCode (r.m % 4)))
  | 0x63 => some (.vfma (.of r))
  | 0x64 => some (.vfdiv (.of r lit) r.fs (.ofCode (r.m % 4)))
  | 0x65 => some (.vfsqrt (.of r) r.fs (.ofCode (r.m % 4)))
  | 0x66 => some (.vfrsqs (.of r))
  | 0x67 => some (.vfrcps (.of r))
  | 0x68 => some (.vfmin (.of r lit) (hasBit r.m 0))
  | 0x69 => some (.vfmax (.of r lit) (hasBit r.m 0))
  | 0x6A => some (.vfabs (.of r))
  | 0x6B => some (.vfneg (.of r))
  | 0x6C => (Rel.ofCode (r.m % 8)).map (.vfcmp (.of r lit) · (hasBit r.m 3) (hasBit r.m 4) (hasBit r.m 5))
  | 0x6D => some (.vfclass (.of r))
  | 0x6E => some (.vfrnd (.of r) (.ofCode (r.m % 4)) (hasBit r.m 2))
  | 0x6F => some (.vfscale (.of r lit) (.ofCode (r.m % 4)))
  | _ => none

/-- Further floating point, conversion, permute and prefixes, opcodes 0x70-0x96 (spec/11 R237, R247-R250). -/
def candConv (r : Raw) (lit : BitVec 64) : Option Instr :=
  match r.op with
  | 0x70 => some (.vfexp2 (.of r))
  | 0x71 => some (.vflog2 (.of r))
  | 0x72 => some (.vfgetexp (.of r))
  | 0x73 => some (.vfgetman (.of r))
  | 0x74 => (CsMode.ofCode (r.m % 4)).map (.vfcopysign (.of r lit) ·)
  | 0x80 => some (.vcvt r.k r.d r.a r.ty (Ty.ofCode (r.m / 32 % 16)) (.ofCode (r.m % 4)))
  | 0x81 => some (.vpack (.of r lit) (.ofCode (r.m % 4)))
  | 0x82 => some (.vunpk (.of r) (hasBit r.m 0))
  | 0x83 => some (.vqnt (.of r lit) (r.m % 4))
  | 0x84 => some (.vdqnt (.of r lit) (r.m % 4))
  | 0x90 => some (.vshfl (.of r lit) (.ofCode (r.m % 4)))
  | 0x91 => some (.vxch (.of r lit))
  | 0x92 => (FOp.ofCode (r.m % 16)).map (.vfold (.of r) · (hasBit r.m 4))
  | 0x93 => (FOp.ofCode (r.m % 16)).map (.vscan (.of r) · (hasBit r.m 4) (hasBit r.m 5))
  | 0x94 => some (.vapnd r.k r.d r.a)
  | 0x95 => some (.vreadl r.k r.d r.a r.ty (.of r lit))
  | 0x96 => some (.vwritel r.k r.d r.a r.ty (.of r lit))
  | _ => none

/-- Memory, opcodes 0xA0-0xA9 (spec/13 R256-R275). -/
def candMem (r : Raw) : Option Instr :=
  match r.op with
  | 0xA0 => (MemOp.of r).map (.ld ·)
  | 0xA1 => (MemOp.of r).map (.st ·)
  | 0xA2 => (MemOp.of r).map (.lds ·)
  | 0xA3 => (MemOp.of r).map (.sts ·)
  | 0xA4 => (AsofOp.of r).map (.ldasof ·)
  | 0xA5 => (AsofOp.of r).map (.ldasofs ·)
  | 0xA6 =>
    if r.ty.isTapered then
      some (.ldpk r.k r.fs r.d r.a r.b (hasBit r.m 10) (hasBit r.m 3) (decide (r.ty = .t6)))
    else none
  | 0xA7 => some (.pref r.k r.a r.b (hasBit r.m 10) (hasBit r.m 3) (hasBit r.m 0))
  | 0xA8 => some (.stashmap r.k r.d r.a r.b)
  | 0xA9 => some (.stashdrop r.k r.d (hasBit r.m 0))
  | _ => none

/-- Atomics and allowance counters, opcodes 0xC0-0xC9 (spec/13 R276-R285). -/
def candAtomic (r : Raw) (lit : BitVec 64) : Option Instr :=
  match r.op with
  | 0xC0 => do some (.atom (← AtOp.of r) (← AOp.ofCode (r.m % 16)))
  | 0xC1 => (AtOp.of r).map (.atcas ·)
  | 0xC2 => do some (.red (← AtOp.of r) (← AOp.ofCode (r.m % 16)))
  | 0xC3 => do some (.vatom (← AtOp.of r) (← AOp.ofCode (r.m % 16)))
  | 0xC4 => do some (.vred (← AtOp.of r) (← AOp.ofCode (r.m % 16)))
  | 0xC5 => some (.alinit r.k r.a (.of r lit))
  | 0xC6 => do
    let s ← Scope.ofCode (r.m / 128 % 8)
    some (.aldec r.k r.fs r.d r.a (.of r lit) (hasBit r.m 4) s (hasBit r.m 3))
  | 0xC7 => do
    let s ← Scope.ofCode (r.m / 128 % 8)
    some (.alinc r.k r.a (.of r lit) (hasBit r.m 5) s)
  | 0xC8 => do
    let s ← Scope.ofCode (r.m / 128 % 8)
    some (.alrd r.k r.fs r.d r.a (hasBit r.m 4) s)
  | 0xC9 => some (.alfree r.k r.a)
  | _ => none

/-- Fences, maintenance, translation and history, opcodes 0xD0-0xDC (spec/13 R286-R298). -/
def candFence (r : Raw) : Option Instr :=
  match r.op with
  | 0xD0 => do
    let o ← Order.ofCode (r.m / 16 % 8)
    let s ← Scope.ofCode (r.m / 128 % 8)
    some (.fence r.k o s)
  | 0xD1 => (Scope.ofCode (r.m / 128 % 8)).map (.fenceo r.k ·)
  | 0xD2 => (Scope.ofCode (r.m / 128 % 8)).map (.fencer r.k ·)
  | 0xD3 => do
    let o ← CmOp.ofCode (r.m % 4)
    let l ← CmLevel.ofCode (r.m / 4 % 4)
    some (.cmaint r.k r.a r.b o l)
  | 0xD4 => some (.tlblock r.k r.a r.b)
  | 0xD5 => some (.tlbunlock r.k r.a r.b)
  | 0xD6 => some (.pgmap r.k r.d r.a r.b)
  | 0xD7 => some (.pgunmap r.k r.a r.b)
  | 0xD8 => some (.stampget r.k r.fs r.d)
  | 0xD9 => some (.snap r.k r.fs r.d)
  | 0xDA => some (.pin r.k r.fs r.d r.a)
  | 0xDB => some (.unpin r.k r.a)
  | 0xDC => some (.horizon r.k r.fs r.d)
  | _ => none

/-- Matrix and engine commands, opcodes 0xE0-0xE4 and 0xF0-0xF7 (spec/15). -/
def candEngine (r : Raw) : Option Instr :=
  match r.op with
  | 0xE0 => some (.mxmma r.k r.fs r.d r.a r.b r.ty (hasBit r.m 3) (hasBit r.m 2) (r.m / 16 % 128))
  | 0xE1 => if r.ty = .f then some (.mxsca r.k r.fs r.d r.a r.b (r.m / 16 % 128)) else none
  | 0xE2 => some (.mxperm r.k r.fs r.d r.a r.b r.ty)
  | 0xE3 => some (.mxtrn r.k r.fs r.d r.a r.ty)
  | 0xE4 => some (.mxrsum r.k r.fs r.d r.a r.ty)
  | 0xF0 => some (.cpin (.of r) (hasBit r.m 3))
  | 0xF1 => some (.cpout (.of r))
  | 0xF2 => some (.cppeer (.of r))
  | 0xF3 => some (.qst r.k r.fs r.d r.a r.ty (r.m / 256 % 8) (hasBit r.m 4) (hasBit r.m 3))
  | 0xF4 => some (.qstd r.k r.fs r.d r.a r.ty (r.m / 256 % 8) (r.m / 32 % 8) (hasBit r.m 3))
  | 0xF5 => some (.qload r.k r.fs r.a (r.m / 256 % 8))
  | 0xF6 => some (.qsave r.k r.fs r.a (r.m / 256 % 8))
  | 0xF7 => some (.nmc r.k r.fs r.d r.a)
  | _ => none

/-- The signed branch offset, bits [47:15] (spec/07 R156). -/
def branchOff (w : Nat) : Int :=
  let u : Nat := w / 2 ^ 15 % 2 ^ 33
  if u < 2 ^ 32 then (u : Int) else (u : Int) - 2 ^ 33

/-- The branch subform, opcodes 0x01-0x04 and 0x06 (spec/07 R156). -/
def candBranch (w : Nat) : Option Instr :=
  match w / 2 ^ 54 % 256 with
  | 0x01 => some (.br (branchOff w))
  | 0x02 => some (.brc (w / 2 ^ 11 % 16) (hasBit w 10) (branchOff w))
  | 0x03 => some (.brz (w / 2 ^ 11 % 16) (hasBit w 10) (branchOff w))
  | 0x04 => some (.call (w / 2 ^ 3 % 128) (branchOff w))
  | 0x06 => some (.loop (w / 2 ^ 3 % 128) (branchOff w))
  | _ => none

/-- Whether an opcode uses the branch subform (spec/07 R156). -/
def isBranchOp (op : Nat) : Bool := decide (op = 1 ∨ op = 2 ∨ op = 3 ∨ op = 4 ∨ op = 6)

/-- Whether an opcode is assigned (spec/07 R167). -/
def assigned (op : Nat) : Bool :=
  decide (op < 0x2D ∨ (0x30 ≤ op ∧ op < 0x3B) ∨ (0x40 ≤ op ∧ op < 0x5D) ∨ (0x60 ≤ op ∧ op < 0x75)
    ∨ (0x80 ≤ op ∧ op < 0x85) ∨ (0x90 ≤ op ∧ op < 0x97) ∨ (0xA0 ≤ op ∧ op < 0xAA) ∨ (0xC0 ≤ op ∧ op < 0xCA)
    ∨ (0xD0 ≤ op ∧ op < 0xDD) ∨ (0xE0 ≤ op ∧ op < 0xE5) ∨ (0xF0 ≤ op ∧ op < 0xF8))

/-- The full-form instruction a word could be (spec/07 R167). -/
def candFull (w : Nat) (lit : BitVec 64) : Option Instr :=
  let r := unpack w
  match r.op / 16 with
  | 0x0 => if isBranchOp r.op then candBranch w else candControl r
  | 0x1 => candScalar r lit
  | 0x2 => candMask r
  | 0x3 => candSync r
  | 0x4 => candInt r lit
  | 0x5 => candInt2 r lit
  | 0x6 => candFloat r lit
  | 0x7 | 0x8 | 0x9 => candConv r lit
  | 0xA => candMem r
  | 0xC => candAtomic r lit
  | 0xD => candFence r
  | 0xE | 0xF => candEngine r
  | _ => none

/-- One slot of a dual word, 31 bits (spec/07 R160). -/
def slotOf (w : Nat) : Option Slot := do
  let op ← SlotOp.ofCode (w / 2 ^ 24 % 128)
  let ty ← Ty.ofDual (w % 32)
  some ⟨op, w / 2 ^ 16 % 256, w / 2 ^ 8 % 256, w / 2 ^ 5 % 8, ty⟩

/-- The dual word a word could be (spec/07 R160). -/
def candDual (w : Nat) : Option Instr := do
  some (.dualWord (← slotOf (w / 2 ^ 31 % 2 ^ 31)) (← slotOf (w % 2 ^ 31)))

/-- The clause header a word could be (spec/07 R142). -/
def headerOf (w : Nat) : Header :=
  { wait := BitVec.ofNat 12 (w / 2 ^ 50),
    aflag := if hasBit w 49 then some (w / 2 ^ 45 % 16) else none,
    bflag := if hasBit w 44 then some (w / 2 ^ 40 % 16) else none,
    len := w / 2 ^ 36 % 16,
    safe := if hasBit w 35 then some (w / 2 ^ 20 % 2 ^ 15) else none,
    yh := hasBit w 19 }

/-! ### The encoder -/

/-- The branch subform (spec/07 R156). -/
def packBranch (op : Nat) (off : Int) (cnd sns lnk : Nat) : Nat :=
  op * 2 ^ 54 + Int.toNat (off % (2 ^ 33 : Int)) * 2 ^ 15 + cnd * 2 ^ 11 + sns * 2 ^ 10 + lnk * 2 ^ 3

/-- One slot of a dual word (spec/07 R160). -/
def packSlot (x : Slot) : Nat :=
  x.op.code * 2 ^ 24 + x.d * 2 ^ 16 + x.s * 2 ^ 8 + x.k * 2 ^ 5 + x.ty.dualCode

/-- A valid bit and the flag it announces (spec/07 R142). -/
def packFlag : Option Nat → Nat
  | none => 0
  | some n => 16 + n

/-- The SAFE bit and the safe-point index (spec/07 R142). -/
def packSafe : Option Nat → Nat
  | none => 0
  | some n => 2 ^ 15 + n

/-- A clause header (spec/07 R142). -/
def packHeader (h : Header) : Nat :=
  2 * 2 ^ 62 + h.wait.toNat * 2 ^ 50 + packFlag h.aflag * 2 ^ 45 + packFlag h.bflag * 2 ^ 40 + h.len * 2 ^ 36
    + packSafe h.safe * 2 ^ 20 + bit h.yh * 2 ^ 19

/-- A word without a literal. -/
def word1 (op k fs d a b m : Nat) : Option Words := some ⟨pack ⟨op, k, fs, d, a, b, m⟩, none⟩

/-- A scalar word (spec/09 R210). -/
def wordS (op : Nat) (o : SBin) (low : Nat) : Option Words :=
  some ⟨pack ⟨op, o.k, 0, o.d, o.a, o.b.field, o.ty.code * 2048 + o.b.bits + low⟩, o.b.literal⟩

/-- A vector word (spec/11 R225). -/
def wordV (op : Nat) (o : VBin) (fs low : Nat) : Option Words :=
  some ⟨pack ⟨op, o.k, fs, o.d, o.a, o.b.field, o.ty.code * 2048 + o.b.bits + low⟩, o.b.literal⟩

/-- A unary vector word (spec/11 R225). -/
def wordU (op : Nat) (o : VUn) (fs low : Nat) : Option Words :=
  word1 op o.k fs o.d o.a 0 (o.ty.code * 2048 + low)

/-- A three-source word (spec/07 R155). -/
def word3 (op : Nat) (o : V3) : Option Words := word1 op o.k 0 o.d o.a o.b (o.c * 16 + o.ty.code)

/-- The modifier of LD, ST, LDS, STS (spec/13 R256). -/
def wordMem (op : Nat) (o : MemOp) : Option Words :=
  word1 op o.k o.fs o.d o.a o.b
    (bit o.nv * 1024 + o.scope.code * 128 + o.order.code * 16 + bit o.u * 8 + o.width.code)

/-- The modifier of LDASOF, LDASOFS (spec/13 R267). -/
def wordAsof (op : Nat) (o : AsofOp) : Option Words :=
  word1 op o.k o.fs o.d o.a o.b (bit o.nv * 1024 + o.st * 8 + o.width.code)

/-- The atomic modifier (spec/13 R276). -/
def wordAt (op : Nat) (o : AtOp) (code : Nat) : Option Words :=
  word1 op o.k o.fs o.d o.a o.b
    (o.ty.code * 2048 + bit o.u * 1024 + o.scope.code * 128 + o.order.code * 16 + code)

/-- A copy command (spec/15 R317). -/
def wordCp (op : Nat) (o : CpOp) (frame : Bool) : Option Words :=
  word1 op o.k o.fs o.d o.a o.b (bit frame * 8 + bit o.swap)

/-- The words of an instruction, from the encoding tables of spec/07, spec/09, spec/11, spec/13 and spec/15; a step
of another agent has none. -/
def encode : Instr → Option Words
  | .nop k => word1 0x00 k 0 0 0 0 0
  | .br o => some ⟨packBranch 0x01 o 0 0 0, none⟩
  | .brc c s o => some ⟨packBranch 0x02 o c (bit s) 0, none⟩
  | .brz m s o => some ⟨packBranch 0x03 o m (bit s) 0, none⟩
  | .call l o => some ⟨packBranch 0x04 o 0 0 l, none⟩
  | .jmp k a => word1 0x05 k 0 0 a 0 0
  | .loop l o => some ⟨packBranch 0x06 o 0 0 l, none⟩
  | .exit k => word1 0x07 k 0 0 0 0 0
  | .trap k c => word1 0x08 k 0 0 0 0 c
  | .rtt k s => word1 0x09 k 0 0 0 0 (bit s)
  | .yield k => word1 0x0A k 0 0 0 0 0
  | .getsys k d sel => word1 0x0B k 0 d 0 0 sel.code
  | .setsys k a sel => word1 0x0C k 0 0 a 0 sel.code
  | .brkpt k => word1 0x0D k 0 0 0 0 0
  | .mbox k a t => word1 0x0E k 0 0 a 0 t
  | .escalate k a => word1 0x0F k 0 0 a 0 0
  | .sadd o => wordS 0x10 o 0
  | .ssub o => wordS 0x11 o 0
  | .smul o => wordS 0x12 o 0
  | .smulh o => wordS 0x13 o 0
  | .sdiv o => wordS 0x14 o 0
  | .srem o => wordS 0x15 o 0
  | .sand o => wordS 0x16 o 0
  | .sor o => wordS 0x17 o 0
  | .sxor o => wordS 0x18 o 0
  | .sshl o => wordS 0x19 o 0
  | .sshr o => wordS 0x1A o 0
  | .scmp o rel => wordS 0x1B o rel.code
  | .smov o => wordS 0x1C o 0
  | .ssel o c => wordS 0x1D o c
  | .smin o => wordS 0x1E o 0
  | .smax o => wordS 0x1F o 0
  | .kand k d a b => word1 0x20 k 0 d a b 0
  | .kor k d a b => word1 0x21 k 0 d a b 0
  | .kxor k d a b => word1 0x22 k 0 d a b 0
  | .kandn k d a b => word1 0x23 k 0 d a b 0
  | .knot k d a => word1 0x24 k 0 d a 0 0
  | .kmov k d a => word1 0x25 k 0 d a 0 0
  | .kcnt k d a => word1 0x26 k 0 d a 0 0
  | .kfirst k d a => word1 0x27 k 0 d a 0 0
  | .ktest k d a mode => word1 0x28 k 0 d a 0 mode.code
  | .kfromv k d a => word1 0x29 k 0 d a 0 0
  | .ktov k d a => word1 0x2A k 0 d a 0 0
  | .ksetw k d a b => word1 0x2B k 0 d a b.field b.bits
  | .kgetw k d a b => word1 0x2C k 0 d a b.field b.bits
  | .qpush k a q => word1 0x30 k 0 0 a 0 q
  | .qpop k d q => word1 0x31 k 0 d 0 0 q
  | .qtry k n (.push a) q => word1 0x32 k 0 0 a 0 (n * 32 + q)
  | .qtry k n (.pop d) q => word1 0x32 k 0 d 0 0 (n * 32 + 16 + q)
  | .bar k c => word1 0x33 k 0 0 0 0 (bit c)
  | .mxacq k => word1 0x34 k 0 0 0 0 0
  | .mxrel k => word1 0x35 k 0 0 0 0 0
  | .spawn k a b => word1 0x36 k 0 0 a b 0
  | .batch k d => word1 0x37 k 0 d 0 0 0
  | .waitb k a => word1 0x38 k 0 0 a 0 0
  | .cwait k a b => word1 0x39 k 0 0 a b 0
  | .ctest k d a b => word1 0x3A k 0 d a b 0
  | .vadd o => wordV 0x40 o 0 0
  | .vsub o => wordV 0x41 o 0 0
  | .vmul o => wordV 0x42 o 0 0
  | .vmulh o => wordV 0x43 o 0 0
  | .vmad o => word3 0x44 o
  | .vdiv o => wordV 0x45 o 0 0
  | .vrem o => wordV 0x46 o 0 0
  | .vmin o => wordV 0x47 o 0 0
  | .vmax o => wordV 0x48 o 0 0
  | .vabs o => wordU 0x49 o 0 0
  | .vneg o => wordU 0x4A o 0 0
  | .vand o => wordV 0x4B o 0 0
  | .vor o => wordV 0x4C o 0 0
  | .vxor o => wordV 0x4D o 0 0
  | .vnot o => wordU 0x4E o 0 0
  | .vshl o => wordV 0x4F o 0 0
  | .vshr o => wordV 0x50 o 0 0
  | .vrot o => wordV 0x51 o 0 0
  | .vcmp o rel => wordV 0x52 o 0 rel.code
  | .vsel o ks => wordV 0x53 o 0 ks
  | .vmov o => wordV 0x54 o 0 0
  | .vbfe o => wordV 0x55 o 0 0
  | .vbfi o => word3 0x56 o
  | .vpopc o => wordU 0x57 o 0 0
  | .vclz o => wordU 0x58 o 0 0
  | .vaddc o kc => wordV 0x59 o 0 kc
  | .vadds o s => wordV 0x5A o 0 (bit s)
  | .vlane k d a w => word1 0x5B k 0 d a 0 (bit w)
  | .vmulw o => wordV 0x5C o 0 0
  | .vfadd o rm => wordV 0x60 o 0 rm.code
  | .vfsub o rm => wordV 0x61 o 0 rm.code
  | .vfmul o rm => wordV 0x62 o 0 rm.code
  | .vfma o => word3 0x63 o
  | .vfdiv o fs rm => wordV 0x64 o fs rm.code
  | .vfsqrt o fs rm => wordU 0x65 o fs rm.code
  | .vfrsqs o => wordU 0x66 o 0 0
  | .vfrcps o => wordU 0x67 o 0 0
  | .vfmin o n => wordV 0x68 o 0 (bit n)
  | .vfmax o n => wordV 0x69 o 0 (bit n)
  | .vfabs o => wordU 0x6A o 0 0
  | .vfneg o => wordU 0x6B o 0 0
  | .vfcmp o rel u sig half => wordV 0x6C o 0 (bit half * 32 + bit sig * 16 + bit u * 8 + rel.code)
  | .vfclass o => wordU 0x6D o 0 0
  | .vfrnd o rm ex => wordU 0x6E o 0 (bit ex * 4 + rm.code)
  | .vfscale o rm => wordV 0x6F o 0 rm.code
  | .vfexp2 o => wordU 0x70 o 0 0
  | .vflog2 o => wordU 0x71 o 0 0
  | .vfgetexp o => wordU 0x72 o 0 0
  | .vfgetman o => wordU 0x73 o 0 0
  | .vfcopysign o m => wordV 0x74 o 0 m.code
  | .vcvt k d a dst src rm => word1 0x80 k 0 d a 0 (dst.code * 2048 + src.code * 32 + rm.code)
  | .vpack o rm => wordV 0x81 o 0 rm.code
  | .vunpk o h => wordU 0x82 o 0 (bit h)
  | .vqnt o b => wordV 0x83 o 0 b
  | .vdqnt o b => wordV 0x84 o 0 b
  | .vshfl o m => wordV 0x90 o 0 m.code
  | .vxch o => wordV 0x91 o 0 0
  | .vfold o op num => wordU 0x92 o 0 (bit num * 16 + op.code)
  | .vscan o op num ex => wordU 0x93 o 0 (bit ex * 32 + bit num * 16 + op.code)
  | .vapnd k d a => word1 0x94 k 0 d a 0 0
  | .vreadl k d a ty b => some ⟨pack ⟨0x95, k, 0, d, a, b.field, ty.code * 2048 + b.bits⟩, b.literal⟩
  | .vwritel k d a ty b => some ⟨pack ⟨0x96, k, 0, d, a, b.field, ty.code * 2048 + b.bits⟩, b.literal⟩
  | .ld o => wordMem 0xA0 o
  | .st o => wordMem 0xA1 o
  | .lds o => wordMem 0xA2 o
  | .sts o => wordMem 0xA3 o
  | .ldasof o => wordAsof 0xA4 o
  | .ldasofs o => wordAsof 0xA5 o
  | .ldpk k fs d a b nv u t6 =>
    word1 0xA6 k fs d a b ((if t6 then 13 else 12) * 2048 + bit nv * 1024 + bit u * 8)
  | .pref k a b nv u llc => word1 0xA7 k 0 0 a b (bit nv * 1024 + bit u * 8 + bit llc)
  | .stashmap k d a b => word1 0xA8 k 0 d a b 0
  | .stashdrop k d dis => word1 0xA9 k 0 d 0 0 (bit dis)
  | .atom o op => wordAt 0xC0 o op.code
  | .atcas o => wordAt 0xC1 o 0
  | .red o op => wordAt 0xC2 o op.code
  | .vatom o op => wordAt 0xC3 o op.code
  | .vred o op => wordAt 0xC4 o op.code
  | .alinit k a b => some ⟨pack ⟨0xC5, k, 0, 0, a, b.field, b.bits⟩, b.literal⟩
  | .aldec k fs d a b acq sc w =>
    some ⟨pack ⟨0xC6, k, fs, d, a, b.field, b.bits + sc.code * 128 + bit acq * 16 + bit w * 8⟩, b.literal⟩
  | .alinc k a b rel sc => some ⟨pack ⟨0xC7, k, 0, 0, a, b.field, b.bits + sc.code * 128 + bit rel * 32⟩, b.literal⟩
  | .alrd k fs d a acq sc => word1 0xC8 k fs d a 0 (sc.code * 128 + bit acq * 16)
  | .alfree k a => word1 0xC9 k 0 0 a 0 0
  | .fence k o s => word1 0xD0 k 0 0 0 0 (s.code * 128 + o.code * 16)
  | .fenceo k s => word1 0xD1 k 0 0 0 0 (s.code * 128)
  | .fencer k s => word1 0xD2 k 0 0 0 0 (s.code * 128)
  | .cmaint k a b o l => word1 0xD3 k 0 0 a b (l.code * 4 + o.code)
  | .tlblock k a b => word1 0xD4 k 0 0 a b 0
  | .tlbunlock k a b => word1 0xD5 k 0 0 a b 0
  | .pgmap k d a b => word1 0xD6 k 0 d a b 0
  | .pgunmap k a b => word1 0xD7 k 0 0 a b 0
  | .stampget k fs d => word1 0xD8 k fs d 0 0 0
  | .snap k fs d => word1 0xD9 k fs d 0 0 0
  | .pin k fs d a => word1 0xDA k fs d a 0 0
  | .unpin k a => word1 0xDB k 0 0 a 0 0
  | .horizon k fs d => word1 0xDC k fs d 0 0 0
  | .mxmma k fs d a b ty reuse sparse sm =>
    word1 0xE0 k fs d a b (ty.code * 2048 + sm * 16 + bit reuse * 8 + bit sparse * 4)
  | .mxsca k fs d a b e => word1 0xE1 k fs d a b (Ty.f.code * 2048 + e * 16)
  | .mxperm k fs d a b ty => word1 0xE2 k fs d a b (ty.code * 2048)
  | .mxtrn k fs d a ty => word1 0xE3 k fs d a 0 (ty.code * 2048)
  | .mxrsum k fs d a ty => word1 0xE4 k fs d a 0 (ty.code * 2048)
  | .cpin o f => wordCp 0xF0 o f
  | .cpout o => wordCp 0xF1 o false
  | .cppeer o => wordCp 0xF2 o false
  | .qst k fs d a ty q col reset =>
    word1 0xF3 k fs d a 0 (ty.code * 2048 + q * 256 + bit col * 16 + bit reset * 8)
  | .qstd k fs d a ty qa qb reset =>
    word1 0xF4 k fs d a 0 (ty.code * 2048 + qa * 256 + qb * 32 + bit reset * 8)
  | .qload k fs a q => word1 0xF5 k fs 0 a 0 (q * 256)
  | .qsave k fs a q => word1 0xF6 k fs 0 a 0 (q * 256)
  | .nmc k fs d a => word1 0xF7 k fs d a 0 0
  | .dualWord x y => some ⟨1 * 2 ^ 62 + packSlot x * 2 ^ 31 + packSlot y, none⟩
  | .clauseEntry h => some ⟨packHeader h, none⟩
  | _ => none

/-! ### The decoder -/

/-- Accept a candidate that is well formed and encodes back to the words it was read from. -/
def accept (w : Nat) (lit : BitVec 64) (i : Instr) : Except Reject Instr :=
  if i.wf then
    if encode i = some ⟨w, if wordCount w = 2 then some lit else none⟩ then .ok i else .error .reserved
  else .error .operand

/-- The instruction of a word inside a clause, and of the word after it where it carries a literal
(spec/07 R139, R168). -/
def decodeInstr (w : Nat) (lit : BitVec 64) : Except Reject Instr :=
  match form w with
  | 0 =>
    if assigned (w / 2 ^ 54 % 256) then
      match candFull w lit with
      | some i => accept w lit i
      | none => .error .code
    else .error .unassigned
  | 1 =>
    match candDual w with
    | some i => accept w lit i
    | none => .error .code
  | _ => .error .form

/-- The clause header of a word where a header is due (spec/07 R141-R143). -/
def decodeHeader (w : Nat) : Except Reject Header :=
  if form w = 2 then
    let h := headerOf w
    if Wf.header h ∧ packHeader h = w then .ok h else .error .header
  else .error .form

/-- The instruction or header that begins with the word `w`, followed by the word `lit`. -/
def decodeWords (w : Nat) (lit : BitVec 64) : Except Reject Instr :=
  if form w = 2 then (decodeHeader w).map Instr.clauseEntry else decodeInstr w lit

/-- Eight bytes, least significant first, as a number (spec/00 R4). -/
def leNat : List Byte → Nat
  | [] => 0
  | b :: bs => b.toNat + 256 * leNat bs

/-- The `n` low bytes of `v`, least significant first (spec/00 R4). -/
def leBytes : Nat → Nat → List Byte
  | 0, _ => []
  | n + 1, v => BitVec.ofNat 8 v :: leBytes n (v / 256)

/-- Decode the instruction at the head of a list of code bytes (spec/07 R139, R157): the instruction and its length
in bytes. A list shorter than the words the instruction takes is refused. -/
def decodeBytes (bs : List Byte) : Except Reject (Instr × Nat) :=
  if bs.length < 8 then .error .form
  else
    let w := leNat (bs.take 8)
    let n := wordCount w
    if bs.length < 8 * n then .error .form
    else (decodeWords w (BitVec.ofNat 64 (leNat ((bs.drop 8).take 8)))).map fun i => (i, 8 * n)

/-- The two code words of an instruction whose bits are `w`, least significant word first. -/
def tableBytes (nbits w : Nat) : List Byte := leBytes 16 (w % 2 ^ nbits)

/-- The instruction the decoder reads from an instruction whose bits are `w`: the first word in bits 63-0, a literal
word in bits 127-64. -/
def decodeTableWord (nbits w : Nat) : Option Instr :=
  match decodeBytes (tableBytes nbits w) with
  | .ok (i, _) => some i
  | .error _ => none

end Sys2Proof
end

