-- ==== Sys2Proof/Machine/Float.lean ====
section
/-! DEFINITION. Floating-point and tapered arithmetic (spec/05 R102-R138; spec/11 R238-R246). A finite value is an
exact dyadic number, sign, magnitude `m` and exponent `e`, for (-1)^s · m · 2^e; every operation is exact on these
and rounds once, by `roundTo` (R110). Quotients, roots, exponentials and logarithms carry a sticky bit for the part
below `m`. -/

namespace Sys2Proof.Fp

/-- A binary format: exponent bits and fraction bits (spec/05 R102). -/
structure Fmt where
  eb : Nat
  fb : Nat
  deriving DecidableEq, Repr

/-- FP32 (spec/05 R102). -/
def f32 : Fmt := ⟨8, 23⟩

/-- FP64 (spec/05 R102). -/
def f64 : Fmt := ⟨11, 52⟩

/-- FP16 (spec/05 R102). -/
def f16 : Fmt := ⟨5, 10⟩

/-- BF16 (spec/05 R102). -/
def bf16 : Fmt := ⟨8, 7⟩

/-- The format of a floating-point type. -/
def fmtOf : Ty → Fmt
  | .d => f64
  | .h => f16
  | .bf => bf16
  | _ => f32

/-- The exception set E as FPFLAGS has it: NV bit 0, DZ bit 1, OF bit 2, UF bit 3, NX bit 4 (spec/05 R112). -/
abbrev Ex := BitVec 5

/-- Invalid. -/
def exNV : Ex := 1#5
/-- Divide by zero. -/
def exDZ : Ex := 2#5
/-- Overflow. -/
def exOF : Ex := 4#5
/-- Underflow. -/
def exUF : Ex := 8#5
/-- Inexact. -/
def exNX : Ex := 16#5

/-- A result and the exceptions it raised. -/
structure Res where
  bits : Nat
  ex : Ex
  deriving DecidableEq, Repr

/-- A value without its NaN payload: a signed zero is `fin s 0 e`. -/
inductive Num where
  | nan
  | inf (s : Bool)
  | fin (s : Bool) (m : Nat) (e : Int)
  deriving DecidableEq, Repr

/-- The exponent bias (spec/05 R102). -/
def bias (F : Fmt) : Int := 2 ^ (F.eb - 1) - 1

/-- The exponent of the least subnormal (spec/05 R102). -/
def emin (F : Fmt) : Int := 1 - bias F - F.fb

/-- The greatest exponent of a finite value, floor(log2 |x|) (spec/05 R102). -/
def emax (F : Fmt) : Int := bias F

/-- The width of the format. -/
def width (F : Fmt) : Nat := 1 + F.eb + F.fb

/-- The sign bit. -/
def signOf (F : Fmt) (w : Nat) : Bool := w / 2 ^ (F.eb + F.fb) % 2 == 1

/-- The exponent field. -/
def expOf (F : Fmt) (w : Nat) : Nat := w / 2 ^ F.fb % 2 ^ F.eb

/-- The fraction field. -/
def fracOf (F : Fmt) (w : Nat) : Nat := w % 2 ^ F.fb

/-- The magnitude bits. -/
def magOf (F : Fmt) (w : Nat) : Nat := w % 2 ^ (F.eb + F.fb)

/-- The sign bit in place. -/
def signBit (F : Fmt) (s : Bool) : Nat := if s then 2 ^ (F.eb + F.fb) else 0

/-- Whether `w` is a NaN (spec/05 R103). -/
def isNaN (F : Fmt) (w : Nat) : Bool := expOf F w == 2 ^ F.eb - 1 && fracOf F w != 0

/-- Whether `w` is a signalling NaN (spec/05 R103). -/
def isSNaN (F : Fmt) (w : Nat) : Bool := isNaN F w && decide (fracOf F w < 2 ^ (F.fb - 1))

/-- A NaN with its quiet bit set (spec/05 R114). -/
def quiet (F : Fmt) (w : Nat) : Nat := if fracOf F w < 2 ^ (F.fb - 1) then w + 2 ^ (F.fb - 1) else w

/-- The default NaN (spec/05 R114). -/
def defaultNaN (F : Fmt) : Nat := (2 ^ F.eb - 1) * 2 ^ F.fb + 2 ^ (F.fb - 1)

/-- An infinity. -/
def infBits (F : Fmt) (s : Bool) : Nat := signBit F s + (2 ^ F.eb - 1) * 2 ^ F.fb

/-- The largest finite value. -/
def maxBits (F : Fmt) (s : Bool) : Nat := infBits F s - 1

/-- A zero. -/
def zeroBits (F : Fmt) (s : Bool) : Nat := signBit F s

/-- The value of `w` (spec/05 R102, R103). -/
def toNum (F : Fmt) (w : Nat) : Num :=
  let s := signOf F w
  let x := expOf F w
  let f := fracOf F w
  if x = 2 ^ F.eb - 1 then (if f = 0 then .inf s else .nan)
  else if x = 0 then .fin s f (emin F)
  else .fin s (2 ^ F.fb + f) (emin F + x - 1)

/-- Bit length. -/
def bitLen (m : Nat) : Nat := if m = 0 then 0 else Nat.log2 m + 1

/-- Whether a magnitude with the discarded part compared to one half as `c` says moves up: `c` is 0 for nothing
discarded, 1 below one half, 2 one half, 3 above; `odd` tells the last kept bit (spec/05 R108). -/
def roundsUp (rm : Rm) (s odd : Bool) (c : Nat) : Bool :=
  match rm with
  | .rne => decide (c = 3) || (decide (c = 2) && odd)
  | .rtz => false
  | .rup => decide (c ≠ 0) && !s
  | .rdn => decide (c ≠ 0) && s

/-- The discarded part of `m` below bit `n`, with the sticky bit, compared with one half. -/
def lowPart (m n : Nat) (sticky : Bool) : Nat :=
  if n = 0 then (if sticky then 1 else 0)
  else if bitLen m < n then (if m = 0 ∧ sticky = false then 0 else 1)
  else
    let r := m % 2 ^ n
    let h := 2 ^ (n - 1)
    if r < h then (if r = 0 ∧ sticky = false then 0 else 1)
    else if r = h ∧ sticky = false then 2 else 3

/-- `m / 2^n`, without forming a needlessly large power. -/
def shr (m n : Nat) : Nat := if bitLen m < n then 0 else m / 2 ^ n

/-- `m` with its low `n` bits rounded away, and whether anything was discarded. -/
def roundShift (rm : Rm) (s : Bool) (m n : Nat) (sticky : Bool) : Nat × Bool :=
  let q := shr m n
  let c := lowPart m n sticky
  (if roundsUp rm s (q % 2 == 1) c then q + 1 else q, decide (c ≠ 0))

/-- RoundTo for a non-zero finite value of magnitude in [m, m+1)·2^e, equal to m·2^e when `sticky` is false
(spec/05 R110). A sticky value must have more bits than the format keeps. -/
def roundTo (F : Fmt) (rm : Rm) (s : Bool) (m : Nat) (e : Int) (sticky : Bool) : Res :=
  let l := bitLen m
  -- y: the significand precision with unbounded exponent
  let ny := l - (F.fb + 1)
  let (qy, _) := roundShift rm s m ny sticky
  let ey : Int := e + ny + bitLen qy - 1
  if ey > emax F then
    let up := match rm with
      | .rne => true
      | .rtz => false
      | .rup => !s
      | .rdn => s
    ⟨if up then infBits F s else maxBits F s, exOF ||| exNX⟩
  else
    -- z: subnormals included
    let nz := max ny (emin F - e).toNat
    let (qz, nx) := roundShift rm s m nz sticky
    let k := e + nz - emin F
    -- k ≥ 0 when bits were dropped; otherwise the value is exact and is shifted up
    let body : Nat :=
      if bitLen qz ≤ F.fb then
        -- fewer bits than the significand: shift up as far as the exponent allows
        let up := min (F.fb + 1 - bitLen qz) k.toNat
        (k.toNat - up) * 2 ^ F.fb + qz * 2 ^ up
      else k.toNat * 2 ^ F.fb + qz
    let ex : Ex := if nx then (if ey < 1 - bias F then exNX ||| exUF else exNX) else 0#5
    ⟨signBit F s + body, ex⟩

/-- RoundTo of a number: zeros, infinities; an invalid operation gives the default NaN (spec/05 R110, R114). -/
def roundNum (F : Fmt) (rm : Rm) : Num → Res
  | .nan => ⟨defaultNaN F, exNV⟩
  | .inf s => ⟨infBits F s, 0#5⟩
  | .fin s m e => if m = 0 then ⟨zeroBits F s, 0#5⟩ else roundTo F rm s m e false

/-- Negation. -/
def neg : Num → Num
  | .nan => .nan
  | .inf s => .inf (!s)
  | .fin s m e => .fin (!s) m e

/-- Exact product; 0 · ∞ is invalid (spec/05 R114). -/
def mul : Num → Num → Num
  | .nan, _ => .nan
  | _, .nan => .nan
  | .inf s, .inf t => .inf (s != t)
  | .inf s, .fin t m _ => if m = 0 then .nan else .inf (s != t)
  | .fin t m _, .inf s => if m = 0 then .nan else .inf (s != t)
  | .fin s m e, .fin t n f => .fin (s != t) (m * n) (e + f)

/-- A signed magnitude. -/
def signed (s : Bool) (m : Nat) : Int := if s then -(m : Int) else m

/-- Exact sum; ∞ - ∞ is invalid; the sign of a zero sum follows R111 (spec/05 R111, R114). -/
def add (rm : Rm) : Num → Num → Num
  | .nan, _ => .nan
  | _, .nan => .nan
  | .inf s, .inf t => if s = t then .inf s else .nan
  | .inf s, .fin _ _ _ => .inf s
  | .fin _ _ _, .inf s => .inf s
  | .fin s m e, .fin t n f =>
    if m = 0 then (if n = 0 then .fin (if s = t then s else decide (rm = .rdn)) 0 0 else .fin t n f)
    else if n = 0 then .fin s m e
    else
      let g := min e f
      let v := signed s (m * 2 ^ (e - g).toNat) + signed t (n * 2 ^ (f - g).toNat)
      if v = 0 then .fin (decide (rm = .rdn)) 0 0 else .fin (decide (v < 0)) v.natAbs g

/-- The NaN result of R114: the first NaN of the operands, quieted; invalid when any is signalling. -/
def nanResult (F : Fmt) (ws : List Nat) : Option Res :=
  match ws.find? (isNaN F) with
  | some w => some ⟨quiet F w, if ws.any (isSNaN F) then exNV else 0#5⟩
  | none => none

/-- x + y (spec/11 R238). -/
def fAdd (F : Fmt) (rm : Rm) (x y : Nat) : Res :=
  (nanResult F [x, y]).getD (roundNum F rm (add rm (toNum F x) (toNum F y)))

/-- x - y (spec/11 R238). -/
def fSub (F : Fmt) (rm : Rm) (x y : Nat) : Res :=
  (nanResult F [x, y]).getD (roundNum F rm (add rm (toNum F x) (neg (toNum F y))))

/-- x · y (spec/11 R238). -/
def fMul (F : Fmt) (rm : Rm) (x y : Nat) : Res :=
  (nanResult F [x, y]).getD (roundNum F rm (mul (toNum F x) (toNum F y)))

/-- x · y + z with one rounding; 0 · ∞ raises invalid whatever z is (spec/05 R114, spec/11 R238). -/
def fFma (F : Fmt) (rm : Rm) (x y z : Nat) : Res :=
  match nanResult F [x, y, z] with
  | some r =>
    if !isNaN F x && !isNaN F y && decide (mul (toNum F x) (toNum F y) = .nan) then ⟨r.bits, r.ex ||| exNV⟩ else r
  | none => roundNum F rm (add rm (mul (toNum F x) (toNum F y)) (toNum F z))

/-- x / y (spec/11 R238). -/
def fDiv (F : Fmt) (rm : Rm) (x y : Nat) : Res :=
  match nanResult F [x, y] with
  | some r => r
  | none =>
    match toNum F x, toNum F y with
    | .inf _, .inf _ => ⟨defaultNaN F, exNV⟩
    | .inf s, .fin t _ _ => ⟨infBits F (s != t), 0#5⟩
    | .fin s _ _, .inf t => ⟨zeroBits F (s != t), 0#5⟩
    | .fin s m e, .fin t n f =>
      if n = 0 then (if m = 0 then ⟨defaultNaN F, exNV⟩ else ⟨infBits F (s != t), exDZ⟩)
      else if m = 0 then ⟨zeroBits F (s != t), 0#5⟩
      else
        let u := m * 2 ^ 128
        roundTo F rm (s != t) (u / n) (e - 128 - f) (decide (u % n ≠ 0))
    | _, _ => ⟨defaultNaN F, exNV⟩

/-- Integer square root, bit by bit from bit `n - 1` down: the greatest r < 2^n above `r` with r² ≤ x. -/
def isqrtGo (x : Nat) : Nat → Nat → Nat
  | 0, r => r
  | n + 1, r => isqrtGo x n (if (r + 2 ^ n) * (r + 2 ^ n) ≤ x then r + 2 ^ n else r)

/-- Integer square root. -/
def isqrt (x : Nat) : Nat := isqrtGo x (bitLen x / 2 + 1) 0

/-- √x (spec/11 R238). -/
def fSqrt (F : Fmt) (rm : Rm) (x : Nat) : Res :=
  match nanResult F [x] with
  | some r => r
  | none =>
    match toNum F x with
    | .inf s => if s then ⟨defaultNaN F, exNV⟩ else ⟨infBits F false, 0#5⟩
    | .fin s m e =>
      if m = 0 then ⟨zeroBits F s, 0#5⟩
      else if s then ⟨defaultNaN F, exNV⟩
      else
        let (m, e) := if e % 2 = 0 then (m, e) else (2 * m, e - 1)
        let u := m * 2 ^ 128
        let r := isqrt u
        roundTo F rm false r ((e - 128) / 2) (decide (r * r ≠ u))
    | .nan => ⟨defaultNaN F, exNV⟩

/-- The order of R239: -0 below +0. -/
def minKey (F : Fmt) (w : Nat) : Int :=
  if signOf F w then -(magOf F w : Int) - 1 else magOf F w

/-- VFMIN, VFMAX: an operand unchanged (spec/11 R239). -/
def fMinMax (F : Fmt) (max num : Bool) (x y : Nat) : Res :=
  let nx := isNaN F x
  let ny := isNaN F y
  if nx || ny then
    if num && (nx != ny) then
      let n := if nx then x else y
      ⟨if nx then y else x, if isSNaN F n then exNV else 0#5⟩
    else (nanResult F [x, y]).getD ⟨x, 0#5⟩
  else
    let takeY := if max then decide (minKey F x < minKey F y) else decide (minKey F y < minKey F x)
    ⟨if takeY then y else x, 0#5⟩

/-- The order of R240: -0 = +0. -/
def cmpKey (F : Fmt) (w : Nat) : Int :=
  if signOf F w then -(magOf F w : Int) else magOf F w

/-- A relation between integers (spec/09 R212). -/
def relInt (r : Rel) (a b : Int) : Bool :=
  match r with
  | .eq => decide (a = b)
  | .ne => decide (a ≠ b)
  | .lt => decide (a < b)
  | .le => decide (a ≤ b)
  | .gt => decide (b < a)
  | .ge => decide (b ≤ a)

/-- VFCMP (spec/11 R240). -/
def fCmp (F : Fmt) (r : Rel) (u sig : Bool) (x y : Nat) : Bool × Ex :=
  if isNaN F x || isNaN F y then (u, if sig || isSNaN F x || isSNaN F y then exNV else 0#5)
  else (relInt r (cmpKey F x) (cmpKey F y), 0#5)

/-- VFCLASS (spec/11 R241). -/
def fClass (F : Fmt) (w : Nat) : Nat :=
  if isNaN F w then (if isSNaN F w then 256 else 512)
  else
    let s := signOf F w
    if expOf F w = 2 ^ F.eb - 1 then (if s then 1 else 128)
    else if magOf F w = 0 then (if s then 8 else 16)
    else if expOf F w = 0 then (if s then 4 else 32)
    else (if s then 2 else 64)

/-- VFRND (spec/11 R242). -/
def fRnd (F : Fmt) (rm : Rm) (exact : Bool) (w : Nat) : Res :=
  match nanResult F [w] with
  | some r => r
  | none =>
    match toNum F w with
    | .fin s m e =>
      if m = 0 ∨ 0 ≤ e then ⟨w, 0#5⟩
      else
        let (q, nx) := roundShift rm s m (-e).toNat false
        let r := roundNum F .rne (.fin s q 0)
        ⟨r.bits, if exact && nx then exNX else 0#5⟩
    | _ => ⟨w, 0#5⟩

/-- VFSCALE (spec/11 R242). -/
def fScale (F : Fmt) (rm : Rm) (w : Nat) (n : Int) : Res :=
  match nanResult F [w] with
  | some r => r
  | none =>
    match toNum F w with
    | .fin s m e => if m = 0 then ⟨w, 0#5⟩ else roundTo F rm s m (e + n) false
    | _ => ⟨w, 0#5⟩

/-- ln 2 · 2^256, rounded down. -/
def ln2Scaled : Nat := 80260960185991308862233904206310070533990667611589946606122867505419956976171

/-- Σ over k of z^k / k!, scaled by 2^256: `t` is the current term, `acc` the sum. -/
def expSeries (z : Nat) : Nat → Nat → Nat → Nat → Nat
  | 0, _, _, acc => acc
  | n + 1, k, t, acc =>
    let t' := t * z / 2 ^ 256 / k
    expSeries z n (k + 1) t' (acc + t')

/-- 2^f · 2^256 for f = `u` / 2^256 in [0, 1), to within a few units (notes/assumptions/7.md). -/
def exp2Frac (u : Nat) : Nat := expSeries (u * ln2Scaled / 2 ^ 256) 64 1 (2 ^ 256) (2 ^ 256)

/-- VFEXP2 (spec/11 R243). -/
def fExp2 (F : Fmt) (w : Nat) : Res :=
  match nanResult F [w] with
  | some r => r
  | none =>
    match toNum F w with
    | .nan => ⟨defaultNaN F, exNV⟩
    | .inf s => if s then ⟨zeroBits F false, 0#5⟩ else ⟨infBits F false, 0#5⟩
    | .fin s m e =>
      if m = 0 then roundTo F .rne false 1 0 false
      else if 12 < e + bitLen m then
        -- |x| ≥ 4096: the result overflows or is smaller than any subnormal
        roundTo F .rne false 1 (if s then -4096 else 4096) false
      else
        -- x · 2^256 is an integer, since e ≥ -149
        let v := signed s (if 0 ≤ e then m * 2 ^ e.toNat * 2 ^ 256 else m * 2 ^ (256 + e).toNat)
        let n := v / 2 ^ 256
        let u := (v % 2 ^ 256).toNat
        if u = 0 then roundTo F .rne false 1 n false
        else roundTo F .rne false (exp2Frac u) (n - 256) true

/-- Σ over odd k of z^k / k, scaled by 2^256, with `p` the current power. -/
def atanhSeries (z2 : Nat) : Nat → Nat → Nat → Nat → Nat
  | 0, _, _, acc => acc
  | n + 1, k, p, acc => atanhSeries z2 n (k + 2) (p * z2 / 2 ^ 256) (acc + p / k)

/-- log2(m / 2^k) · 2^250 for m in [2^k, 2^(k+1)), to within a few units (notes/assumptions/7.md). -/
def log2Frac (m k : Nat) : Nat :=
  let z := (m - 2 ^ k) * 2 ^ 256 / (m + 2 ^ k)
  2 * atanhSeries (z * z / 2 ^ 256) 90 1 z 0 * 2 ^ 250 / ln2Scaled

/-- VFLOG2 (spec/11 R243). -/
def fLog2 (F : Fmt) (w : Nat) : Res :=
  match nanResult F [w] with
  | some r => r
  | none =>
    match toNum F w with
    | .nan => ⟨defaultNaN F, exNV⟩
    | .inf s => if s then ⟨defaultNaN F, exNV⟩ else ⟨infBits F false, 0#5⟩
    | .fin s m e =>
      if m = 0 then ⟨infBits F true, exDZ⟩
      else if s then ⟨defaultNaN F, exNV⟩
      else
        let k := bitLen m - 1
        let n : Int := e + k
        if m = 2 ^ k then roundNum F .rne (.fin (decide (n < 0)) n.natAbs 0)
        else
          let v : Int := n * 2 ^ 250 + log2Frac m k
          if v < 0 then roundTo F .rne true ((-v).toNat - 1) (-250) true
          else roundTo F .rne false v.toNat (-250) true

/-- VFGETEXP (spec/11 R244). -/
def fGetExp (F : Fmt) (w : Nat) : Res :=
  match nanResult F [w] with
  | some r => r
  | none =>
    match toNum F w with
    | .fin _ m e =>
      if m = 0 then ⟨infBits F true, exDZ⟩
      else
        let n : Int := e + bitLen m - 1
        roundNum F .rne (.fin (decide (n < 0)) n.natAbs 0)
    | _ => ⟨infBits F false, 0#5⟩

/-- VFGETMAN (spec/11 R244). -/
def fGetMan (F : Fmt) (w : Nat) : Res :=
  match nanResult F [w] with
  | some r => r
  | none =>
    match toNum F w with
    | .fin s m _ =>
      if m = 0 then ⟨w, 0#5⟩ else roundTo F .rne s m (1 - (bitLen m : Int)) false
    | _ => ⟨defaultNaN F, exNV⟩

/-- VFABS (spec/11 R245). -/
def fAbs (F : Fmt) (w : Nat) : Nat := magOf F w

/-- VFNEG (spec/11 R245). -/
def fNeg (F : Fmt) (w : Nat) : Nat := magOf F w + signBit F (!signOf F w)

/-- VFCOPYSIGN (spec/11 R245). -/
def fCopySign (F : Fmt) (mode : CsMode) (x y : Nat) : Nat :=
  let s := match mode with
    | .same => signOf F y
    | .inverse => !signOf F y
    | .xor => signOf F x != signOf F y
  magOf F x + signBit F s

/-- RsqSeed (spec/05 R136). -/
def rsqSeed (F : Fmt) (w : Nat) : Res :=
  match nanResult F [w] with
  | some r => r
  | none =>
    match toNum F w with
    | .nan => ⟨defaultNaN F, exNV⟩
    | .inf s => if s then ⟨defaultNaN F, exNV⟩ else ⟨zeroBits F false, 0#5⟩
    | .fin s m e =>
      if m = 0 then ⟨infBits F s, exDZ⟩
      else if s then ⟨defaultNaN F, exNV⟩
      else
        let n : Int := e + bitLen m - 1
        -- m scaled to [2^60, 2^61) stands for [1, 2)
        let f := m * 2 ^ (61 - bitLen m)
        let idx := f / 2 ^ 52 % 256
        -- μ = u / 2^sc, the midpoint of an interval of width 2^-8 in [1, 2), or of width 2^-7 in [2, 4)
        let (u, sc) := if n % 2 = 0 then (2 * (256 + idx) + 1, 9) else (2 * (256 + idx) + 1, 8)
        let e' := if n % 2 = 0 then n else n - 1
        let t := (isqrt (2 ^ (28 + sc) / u) + 1) / 2
        ⟨(roundTo F .rne false t (-13 - e' / 2) false).bits, 0#5⟩

/-- RcpSeed (spec/05 R137). -/
def rcpSeed (F : Fmt) (w : Nat) : Res :=
  match nanResult F [w] with
  | some r => r
  | none =>
    match toNum F w with
    | .nan => ⟨defaultNaN F, exNV⟩
    | .inf s => ⟨zeroBits F s, 0#5⟩
    | .fin s m e =>
      if m = 0 then ⟨infBits F s, exDZ⟩
      else
        let n : Int := e + bitLen m - 1
        let f := m * 2 ^ (61 - bitLen m)
        let idx := f / 2 ^ 52 % 256
        let u := 2 * (256 + idx) + 1
        -- 1/μ = 2^9 / u, to the nearest multiple of 2^-13, ties upward
        let t := (2 * 2 ^ 22 / u + 1) / 2
        let r := roundTo F .rne s t (-13 - n) false
        let tiny := decide (r.ex &&& (exOF ||| exUF) ≠ 0#5)
        ⟨r.bits, if tiny then r.ex else 0#5⟩

/-- Conversion between formats (spec/05 R114, R115). -/
def cvtFF (S D : Fmt) (rm : Rm) (w : Nat) : Res :=
  if isNaN S w then
    let f := fracOf S w
    let g := if S.fb ≤ D.fb then f * 2 ^ (D.fb - S.fb) else f / 2 ^ (S.fb - D.fb)
    let g := if g < 2 ^ (D.fb - 1) then g + 2 ^ (D.fb - 1) else g
    ⟨signBit D (signOf S w) + (2 ^ D.eb - 1) * 2 ^ D.fb + g, if isSNaN S w then exNV else 0#5⟩
  else roundNum D rm (toNum S w)

/-- The least value of an integer type of `n` bits (spec/05 R105). -/
def intMin (sg : Bool) (n : Nat) : Int := if sg then -(2 ^ (n - 1)) else 0

/-- The greatest value of an integer type of `n` bits (spec/05 R105). -/
def intMax (sg : Bool) (n : Nat) : Int := if sg then 2 ^ (n - 1) - 1 else 2 ^ n - 1

/-- Conversion to an integer type of `n` bits (spec/05 R116). -/
def cvtFI (S : Fmt) (sg : Bool) (n : Nat) (rm : Rm) (w : Nat) : Int × Ex :=
  match toNum S w with
  | .nan => (0, exNV)
  | .inf s => (if s then intMin sg n else intMax sg n, exNV)
  | .fin s m e =>
    let (q, nx) := if 0 ≤ e then (m * 2 ^ e.toNat, false) else roundShift rm s m (-e).toNat false
    let v := signed s q
    if v < intMin sg n then (intMin sg n, exNV)
    else if intMax sg n < v then (intMax sg n, exNV)
    else (v, if nx then exNX else 0#5)

/-- Conversion from an integer (spec/05 R116). -/
def cvtIF (D : Fmt) (rm : Rm) (v : Int) : Res := roundNum D rm (.fin (decide (v < 0)) v.natAbs 0)

/-! ### Tapered formats (spec/05 R117-R120) -/

/-- The width of the field M of T8 (7) and T6 (5) (spec/05 R117). -/
def tw : Ty → Nat
  | .t6 => 5
  | _ => 7

/-- The number of leading bits of an `n`-bit field equal to `b`. -/
def runLen (m : Nat) (b : Bool) : Nat → Nat
  | 0 => 0
  | n + 1 => if (m / 2 ^ n % 2 == 1) = b then 1 + runLen m b n else 0

/-- The magnitude of the field M > 0 of `n` bits, as mantissa and exponent (spec/05 R118). -/
def taperMag (n m : Nat) : Nat × Int :=
  let b := m / 2 ^ (n - 1) % 2 == 1
  let k := runLen m b n
  let r : Int := if b then (k : Int) - 1 else -(k : Int)
  let rest := n - k - 1
  let e := if rest = 0 then 0 else m / 2 ^ (rest - 1) % 2
  let w := rest - 1
  (2 ^ w + m % 2 ^ w, 2 * r + e - w)

/-- DecodeT (spec/05 R118). -/
def decodeT (t : Ty) (q : Nat) : Num :=
  let n := tw t
  let m := q % 2 ^ n
  let s := q / 2 ^ n % 2 == 1
  if m = 0 then (if s then .nan else .fin false 0 0)
  else
    let (x, e) := taperMag n m
    .fin s x e

/-- NaR (spec/05 R117). -/
def naR (t : Ty) : Nat := 2 ^ tw t

/-- Compare magnitudes a·2^e and b·2^f. -/
def leMag (a : Nat) (e : Int) (b : Nat) (f : Int) : Bool :=
  let g := min e f
  decide (a * 2 ^ (e - g).toNat ≤ b * 2 ^ (f - g).toNat)

/-- The greatest field M whose magnitude is at most m·2^e, found bit by bit. -/
def taperFloor (n m : Nat) (e : Int) : Nat → Nat → Nat
  | 0, acc => acc
  | i + 1, acc =>
    let c := acc + 2 ^ i
    let (x, f) := taperMag n c
    taperFloor n m e i (if leMag x f m e then c else acc)

/-- EncodeT (spec/05 R120). -/
def encodeT (t : Ty) : Num → Nat
  | .nan => naR t
  | .inf _ => naR t
  | .fin s m e =>
    let n := tw t
    if m = 0 then 0
    else
      let lo := taperFloor n m e n 0
      let c :=
        if lo = 2 ^ n - 1 then lo
        else
          let (a, f) := if lo = 0 then (0, (0 : Int)) else taperMag n lo
          let (b, g) := taperMag n (lo + 1)
          -- compare 2·|x| with lo + hi
          let k := min (e + 1) (min f g)
          let x2 := m * 2 ^ (e + 1 - k).toNat
          let sum := a * 2 ^ (f - k).toNat + b * 2 ^ (g - k).toNat
          if x2 < sum then lo else if sum < x2 then lo + 1 else if lo % 2 = 0 then lo else lo + 1
      if c = 0 then 0 else c + (if s then 2 ^ n else 0)

/-- A number times 2^n. -/
def scaleNum (n : Int) : Num → Num
  | .nan => .nan
  | .inf s => .inf s
  | .fin s m e => .fin s m (e + n)

/-- floor(log2 a) of the largest magnitude of a block, by the magnitude bits (spec/05 R122). -/
def blockScale (xs : List Nat) : Nat :=
  if xs.any (fun x => expOf f32 x == 255) then 255
  else
    let a := xs.foldl (fun acc x => max acc (magOf f32 x)) 0
    match toNum f32 a with
    | .fin _ m e =>
      if m = 0 then 127
      else (max 0 (min 254 (e + bitLen m - 1 - 1 + 127))).toNat
    | _ => 255

/-- Clamp an FP32 value to ±2^(c-127) (spec/05 R123). -/
def clampRes (c : Nat) (w : Nat) : Nat :=
  let lim := (roundTo f32 .rne false 1 ((c : Int) - 127) false).bits
  if magOf f32 w > lim then lim + signBit f32 (signOf f32 w) else w

/-- ShapeStep (spec/05 R123): the code and the new residue. -/
def shapeStep (t : Ty) (c : Nat) (x ρ : Nat) : Nat × Nat :=
  let u := (fAdd f32 .rne x ρ).bits
  let u := if magOf f32 u = infBits f32 false then maxBits f32 (signOf f32 u) else u
  let un := toNum f32 u
  let q := encodeT t (scaleNum (127 - (c : Int)) un)
  let dq := scaleNum ((c : Int) - 127) (decodeT t q)
  let ρ' := (roundNum f32 .rne (add .rne un (neg dq))).bits
  (q, clampRes c ρ')

/-- The sequential part of QuantBlock (spec/05 R124). -/
def shapeAll (t : Ty) (c : Nat) : List Nat → Nat → List Nat × Nat
  | [], ρ => ([], ρ)
  | x :: xs, ρ =>
    let (q, ρ') := shapeStep t c x ρ
    let (qs, r) := shapeAll t c xs ρ'
    (q :: qs, r)

/-- QuantBlock (spec/05 R124): the codes, the scale code and the final residue. -/
def quantBlock (t : Ty) (xs : List Nat) (ρ0 : Nat) (reset : Bool) : List Nat × Nat × Nat :=
  let c := blockScale xs
  if c = 255 then (xs.map fun _ => naR t, 255, 0)
  else
    let ρ := if reset || expOf f32 ρ0 == 255 then 0 else ρ0
    let (qs, r) := shapeAll t c xs ρ
    (qs, c, r)

/-! ### Matrix accumulation (spec/05 R129-R135) -/

/-- Whether a number is -0. -/
def isNegZero : Num → Bool
  | .fin true 0 _ => true
  | _ => false

/-- The exact sum of a group of products, special values apart. -/
def sumFin (ps : List Num) : Num :=
  ps.foldl (fun acc p => add .rne acc p) (.fin false 0 0)

/-- The exact group sum G of R130. -/
def groupSum (ps : List Num) : Num :=
  if ps.any (fun p => decide (p = .nan)) then .nan
  else if ps.any (fun p => decide (p = .inf false)) && ps.any (fun p => decide (p = .inf true)) then .nan
  else if ps.any (fun p => decide (p = .inf false)) then .inf false
  else if ps.any (fun p => decide (p = .inf true)) then .inf true
  else if ps.all isNegZero then .fin true 0 0
  else sumFin ps

/-- C + G rounded: a NaN in C is kept, quieted; otherwise a NaN of G is the default NaN (spec/05 R114, R130). -/
def accumulate (F : Fmt) (c : Nat) (g : Num) : Nat :=
  if isNaN F c then quiet F c else (roundNum F .rne (add .rne (toNum F c) g)).bits

end Sys2Proof.Fp
end

