-- ==== Sys2Proof/Machine/Arith.lean ====
section
/-! DEFINITION. Integer arithmetic of the scalar, vector and atomic instructions over numbers below 2^w
(spec/05 R105; spec/09 R210-R212; spec/11 R232-R236; spec/13 R277). -/

namespace Sys2Proof.Machine

open Sys2Proof

/-- The width of a type's value, or of one half of a packed type (spec/09 R210, spec/11 R225). -/
def tyWidth : Ty → Nat
  | .i64 | .n64 | .d | .b64 => 64
  | .i16 | .n16 | .h | .bf => 16
  | .i8 | .n8 | .t8 => 8
  | .t6 => 6
  | _ => 32

/-- The signed value of a `w`-bit pattern. -/
def toSigned (w x : Nat) : Int := if x % 2 ^ w < 2 ^ (w - 1) then (x % 2 ^ w : Nat) else (x % 2 ^ w : Nat) - (2 ^ w : Int)

/-- The value of a `w`-bit pattern. -/
def toVal (sg : Bool) (w x : Nat) : Int := if sg then toSigned w x else (x % 2 ^ w : Nat)

/-- The `w`-bit pattern of an integer. -/
def ofInt (w : Nat) (v : Int) : Nat := Int.toNat (v % (2 ^ w : Int))

/-- Sum modulo 2^w. -/
def addW (w x y : Nat) : Nat := (x + y) % 2 ^ w

/-- Difference modulo 2^w. -/
def subW (w x y : Nat) : Nat := (x + 2 ^ w - y % 2 ^ w) % 2 ^ w

/-- Low half of the product. -/
def mulW (w x y : Nat) : Nat := x * y % 2 ^ w

/-- High half of the product, signed or unsigned. -/
def mulHigh (sg : Bool) (w x y : Nat) : Nat := ofInt w (toVal sg w x * toVal sg w y / (2 ^ w : Int))

/-- Quotient (spec/05 R105). -/
def divW (sg : Bool) (w x y : Nat) : Nat :=
  if y % 2 ^ w = 0 then 2 ^ w - 1 else ofInt w (Int.tdiv (toVal sg w x) (toVal sg w y))

/-- Remainder (spec/05 R105). -/
def remW (sg : Bool) (w x y : Nat) : Nat :=
  if y % 2 ^ w = 0 then x % 2 ^ w else ofInt w (Int.tmod (toVal sg w x) (toVal sg w y))

/-- Shift left by y mod w. -/
def shlW (w x y : Nat) : Nat := x * 2 ^ (y % w) % 2 ^ w

/-- Shift right by y mod w: arithmetic when signed. -/
def shrW (sg : Bool) (w x y : Nat) : Nat := ofInt w (toVal sg w x / (2 ^ (y % w) : Int))

/-- Rotate left by y mod w. -/
def rotW (w x y : Nat) : Nat :=
  let n := y % w
  (x * 2 ^ n % 2 ^ w + x % 2 ^ w / 2 ^ (w - n)) % 2 ^ w

/-- Lesser. -/
def minW (sg : Bool) (w x y : Nat) : Nat := if toVal sg w y < toVal sg w x then y % 2 ^ w else x % 2 ^ w

/-- Greater. -/
def maxWd (sg : Bool) (w x y : Nat) : Nat := if toVal sg w x < toVal sg w y then y % 2 ^ w else x % 2 ^ w

/-- A relation (spec/09 R212). -/
def relW (r : Rel) (sg : Bool) (w x y : Nat) : Bool := Fp.relInt r (toVal sg w x) (toVal sg w y)

/-- Exact value clamped to the type (spec/05 R105). -/
def clampW (sg : Bool) (w : Nat) (v : Int) : Nat := ofInt w (max (Fp.intMin sg w) (min (Fp.intMax sg w) v))

/-- Number of set bits of the low `n` bits. -/
def popcount (x : Nat) : Nat → Nat
  | 0 => 0
  | n + 1 => x / 2 ^ n % 2 + popcount x n

/-- Leading zeros of a `w`-bit pattern. -/
def clzW (w x : Nat) : Nat := w - Fp.bitLen (x % 2 ^ w)

/-- VBFE (spec/11 R233). -/
def bfe (sg : Bool) (w x ctl : Nat) : Nat :=
  let pos := ctl % 64
  let len := min (ctl / 256 % 128) w
  let f := x % 2 ^ w / 2 ^ pos % 2 ^ len
  if sg && decide (0 < len) then ofInt w (toSigned len f) else f

/-- VBFI (spec/11 R233). -/
def bfi (w x ctl z : Nat) : Nat :=
  let pos := ctl % 64
  let len := min (ctl / 256 % 128) w
  let m := (2 ^ len - 1) * 2 ^ pos % 2 ^ w
  (z % 2 ^ w &&& (2 ^ w - 1 - m)) ||| (x * 2 ^ pos % 2 ^ w &&& m)

/-- One element of an atomic: f(old, y) on `w` bits (spec/13 R277). -/
def atomicElem (ty : Ty) (op : AOp) (old y : Nat) : Nat :=
  let w := tyWidth ty
  let sg := ty.isSigned
  let F := Fp.fmtOf ty
  match op with
  | .add => addW w old y
  | .min => minW sg w old y
  | .max => maxWd sg w old y
  | .and => old &&& y
  | .or => old ||| y
  | .xor => old ^^^ y
  | .swap => y
  | .inc => if y ≤ old then 0 else old + 1
  | .fadd => (Fp.fAdd F .rne old y).bits
  | .fmin => (Fp.fMinMax F false true old y).bits
  | .fmax => (Fp.fMinMax F true true old y).bits

/-- f(old, y) of R277: both halves of a packed element. -/
def atomicF (ty : Ty) (op : AOp) (old y : Nat) : Nat :=
  if ty.isPacked then
    atomicElem ty op (old % 65536) (y % 65536) + 65536 * atomicElem ty op (old / 65536) (y / 65536)
  else atomicElem ty op old y

/-- Bytes of an atomic element (spec/13 R276). -/
def atBytes (ty : Ty) : Nat := if ty.is64 then 8 else 4

end Sys2Proof.Machine
end

