-- ==== Sys2Proof/Machine/Sparse.lean ====
section
/-! DEFINITION. Sparse maps as plain data: a list of (key, value) pairs, keys strictly rising, no entry equal to what
an unlisted key reads as. Equal maps are equal lists. Memory, register files and every table of the machine use them. -/

namespace Sys2Proof

/-- Read key `k`; an unlisted key reads as `d`. -/
def smGet {α : Type} (d : α) : List (Nat × α) → Nat → α
  | [], _ => d
  | (j, v) :: m, k => if j = k then v else smGet d m k

/-- Write key `k`, keeping the canonical form. -/
def smSet {α : Type} [DecidableEq α] (d : α) : List (Nat × α) → Nat → α → List (Nat × α)
  | [], k, v => if v = d then [] else [(k, v)]
  | (j, w) :: m, k, v =>
    if k < j then (if v = d then (j, w) :: m else (k, v) :: (j, w) :: m)
    else if k = j then (if v = d then m else (k, v) :: m)
    else (j, w) :: smSet d m k v

/-- Whether keys rise strictly above `lo` and no entry is `d`. -/
def smWfFrom {α : Type} [DecidableEq α] (d : α) : Option Nat → List (Nat × α) → Bool
  | _, [] => true
  | lo, (k, v) :: m =>
    (match lo with | none => true | some l => decide (l < k)) && decide (v ≠ d) && smWfFrom d (some k) m

/-- The canonical form of a sparse map. -/
def smWf {α : Type} [DecidableEq α] (d : α) (m : List (Nat × α)) : Bool := smWfFrom d none m

/-- Find key `k` in a table whose absent keys have no value. -/
def tbGet {α : Type} : List (Nat × α) → Nat → Option α
  | [], _ => none
  | (j, v) :: m, k => if j = k then some v else tbGet m k

/-- Enter or replace key `k`, keys rising. -/
def tbSet {α : Type} : List (Nat × α) → Nat → α → List (Nat × α)
  | [], k, v => [(k, v)]
  | (j, w) :: m, k, v =>
    if k < j then (k, v) :: (j, w) :: m
    else if k = j then (k, v) :: m
    else (j, w) :: tbSet m k v

/-- Remove key `k`. -/
def tbDel {α : Type} (m : List (Nat × α)) (k : Nat) : List (Nat × α) := m.filter fun e => e.1 != k

/-- Change the value at key `k` where there is one. -/
def tbMod {α : Type} : List (Nat × α) → Nat → (α → α) → List (Nat × α)
  | [], _, _ => []
  | (j, w) :: m, k, f => if j = k then (j, f w) :: m else (j, w) :: tbMod m k f

/-- Write the pairs of a list, in order. -/
def smSetAll {α : Type} [DecidableEq α] (d : α) (m : List (Nat × α)) (ps : List (Nat × α)) : List (Nat × α) :=
  ps.foldl (fun m p => smSet d m p.1 p.2) m

/-- Remove the keys from `lo` up to but not including `hi`. -/
def smClear {α : Type} (m : List (Nat × α)) (lo hi : Nat) : List (Nat × α) :=
  m.filter fun e => decide (e.1 < lo) || decide (hi ≤ e.1)

/-- Set bit `i` of a bit vector to `b`. -/
def setBit {w : Nat} (x : BitVec w) (i : Nat) (b : Bool) : BitVec w :=
  if b then x ||| BitVec.ofNat w (2 ^ i) else x &&& ~~~ BitVec.ofNat w (2 ^ i)

/-- Bits [lo, lo + n) of a number. -/
def bitsOf (x lo n : Nat) : Nat := x / 2 ^ lo % 2 ^ n

/-- The larger of two stamps, compared under spec/00 R6. -/
def maxW (a b : W64) : W64 := if a.toNat < b.toNat then b else a

/-- A list without repeats of `x`, with `x` at its end. -/
def insertNew {α : Type} [DecidableEq α] (l : List α) (x : α) : List α := if x ∈ l then l else l ++ [x]

end Sys2Proof
end

