-- ==== Sys2Proof/Machine/State.lean ====
section
/-! DEFINITION. The whole state of the device as plain data, the reasons a step can stop, and the state after reset.
Tables are sparse maps (Machine/Sparse.lean). Fields marked (model) belong to the model, not to the spec. -/

namespace Sys2Proof.Machine

/-- A sparse map. -/
abbrev Tab (α : Type) := List (Nat × α)

/-- The fault codes (spec/25 R449). -/
inductive FCode where
  | illegalEncoding | roleViolation | privileged | misaligned | apertureBounds | pageNotPresent | pageProtection
  | trackingMismatch | lockedMiss | historyReclaimed | historyUnavailable | stampRange | matrixNotOwned | queueMisuse
  | allowanceInvalid | dataUncorrectable | softwareTrap | breakpoint | watchpoint | reductionLogHalt | engineDescriptor
  | stackOverflow
  deriving DecidableEq, Repr

/-- A clause that has been entered (spec/07 R144): the address of its header, the header, and whether its wait mask
is still to be satisfied. -/
structure Clause where
  addr : W64
  h : Header
  waiting : Bool
  deriving DecidableEq, Repr

/-- What a team waits for. `drain` to `pages` are interlocks: the instruction is issued again when the condition holds.
The others are the blocking instructions of spec/09 R196, completed by a step of their own. -/
inductive Wait where
  | none
  /-- Every earlier store, atomic, reduction and load complete (spec/13 R264). -/
  | drain
  /-- Every long arithmetic operation of the team complete (spec/05 R113). -/
  | arith
  /-- A place in an engine's acceptance queue (spec/15 R314). -/
  | engine (e : Engine)
  /-- A completion flag below 63 (spec/07 R147). -/
  | flag (f : Nat)
  /-- Every engine command that writes (or also reads) the bytes of the crew's partition complete
  (spec/13 R272, R275). -/
  | cmds (lo hi : Nat) (reads : Bool)
  /-- Every accepted near-memory command that reads or writes a page complete (spec/13 R293). -/
  | pages (base size : Nat)
  /-- An operation that holds the team's issue: a gated MX instruction, FENCER, an allowance request
  (spec/15 R308, spec/13 R284, R288). -/
  | hold (op : Nat)
  | push (q : Nat) (handle : W32)
  | pop (q d : Nat)
  | bar (cluster : Bool)
  | mxacq
  | waitb (m : Nat)
  /-- CWAIT: the address, the bits, and the number of its arrival (spec/03 R101). -/
  | cwait (a m : W64) (arrival : Nat)
  deriving DecidableEq, Repr

/-- The pre-emption state machine (spec/23 R441). `quiesce full` and `save full` tell a full save. -/
inductive PState where
  | run | drain | quiesce (full : Bool) | save (full : Bool) | saved | restore
  deriving DecidableEq, Repr

/-- A late fault that waits for the team's next instruction boundary (spec/25 R486); `stamp` is that of the version an as-of load read
(spec/25 R466). -/
structure Late where
  op : Nat
  code : FCode
  pc : W64
  mask : Mask
  addrs : Tab W64
  phys : Nat
  stamp : Option W64
  esc : Bool
  deriving DecidableEq, Repr

/-- What the debugger asked of a team (spec/23 R447). -/
inductive DbgStep where
  | none | instruction | clause
  deriving DecidableEq, Repr

/-- A team (spec/03 R44, R46; spec/07 R165, R172-R174). `place` is its core and slot while it is resident, `home` and `slot` those
it has or had last; `stk` is the stack its lanes' stack block lies on (spec/17 R337); `sptoff` the SPTOFF its kernel descriptor
held (spec/03 R88); `parkCmd` the PARKCMD operation that waits
for its restore (spec/25 R462); `saveAt` the units of 1 KiB of the save area its save takes (spec/23 R430, R442); `faultStamp` the stamp of the version in which an as-of load found its fault (spec/25 R466). `batchBounds` holds, by batch and under 0 for commands not yet
closed, the largest stamp bound of the completed engine commands (spec/15 R315). -/
structure Team where
  place : Option (Nat × Nat)
  home : Nat
  launch : Nat
  ctx : Nat
  crew : Nat
  spawned : Bool
  nregs : Nat
  lanes : Nat
  teamid : Nat
  crewid : Nat
  cx : Nat
  cy : Nat
  cz : Nat
  stage : Nat
  role : Nat
  entry : W64
  hwin : Bool
  stackz : Nat
  stk : Nat
  sptoff : Nat
  live : Mask
  v : Tab W32
  s : Tab W64
  k : Tab Mask
  c : BitVec 8
  f : Tab Nat
  q : Tab W32
  pc : W64
  clause : Option Clause
  floor : W64
  tagSeen : W64
  fpmode : BitVec 2
  fpflags : BitVec 5
  batchNext : Nat
  batchBounds : Tab W64
  priv : Bool
  shadow : Mask
  faultcode : W64
  faultpc : W64
  faultmask : Mask
  faultaddr : Tab W64
  resumepc : W64
  resumeHdr : W64
  faultLate : Bool
  faultAtHeader : Bool
  faultWords : Nat
  faultPhys : Nat
  faultStamp : Option W64
  late : List Late
  wait : Wait
  parked : Option W64
  logHalt : Bool
  halted : Bool
  dbg : DbgStep
  w : Nat
  notNext : Bool
  pre : PState
  reqCycle : Nat
  slot : Nat
  parkCmd : Nat
  saveAt : List Nat
  deriving DecidableEq, Repr

/-- One destination of a long-latency operation: elements of v (key r·1024+l), scalars, masks, conditions. -/
structure Dest where
  v : Tab W32
  s : Tab W64
  c : Tab Bool
  deriving DecidableEq, Repr

/-- A matrix instruction (spec/15 R300-R312). -/
inductive MxKind where
  | mma (sparse : Bool) (bitmap : Nat)
  | sca
  | perm
  | trn
  | rsum
  deriving DecidableEq, Repr

/-- One tile: the lane-word, the active rows, and the registers of every row, A, C and the per-row scalar operand,
as read at issue (spec/15 R300). -/
structure MxTile where
  word : Nat
  act : Nat
  a : List (List W32)
  c : List (List W32)
  x : List W32
  deriving DecidableEq, Repr

/-- A matrix instruction in flight. `brd` holds the bytes of B, or the eb bytes, once they are read
(spec/15 R305, R308, R309). -/
structure Mx where
  kind : MxKind
  ty : Ty
  c : Nat
  mask : Mask
  tiles : List MxTile
  bcrew : Nat
  boff : Nat
  blen : Nat
  bva : W64
  gated : Bool
  brd : Option (List Byte)
  deriving DecidableEq, Repr

/-- What a history instruction asks for (spec/13 R294-R298). -/
inductive Hist where
  | stampget (d : Nat)
  | snap (d : Nat)
  | pin (d : Nat) (stamp : W64)
  | horizon (d : Nat)
  deriving DecidableEq, Repr

/-- The kinds of operation in flight. -/
inductive OpKind where
  /-- LD, LDS, LDPK, LDASOF, LDASOFS. -/
  | load
  /-- ST, STS and the write-backs of STASHDROP. -/
  | store
  /-- RED, VRED; the entries to be logged for lanes that failed after issue (spec/13 R281). -/
  | reduction
  /-- ATOM, ATCAS, VATOM. -/
  | atomic
  /-- VFDIV, VFSQRT. -/
  | arith
  | mx (m : Mx)
  /-- ALDEC, ALRD whose home has answered. -/
  | allowance
  /-- A queued ALDEC.wait: the address, the counter, the count, the condition flag, acquire, whether its scope is .cluster or wider, and
  whether it was served. -/
  | aldecWait (addr : W64) (counter n d : Nat) (acq wide served : Bool)
  | history (h : Hist)
  /-- FENCER: the cores that have not answered, each with the operations it waits for; the largest floor the answers brought. -/
  | fencer (cores : List (Nat × List Nat)) (floor : W64)
  deriving DecidableEq, Repr

/-- An entry for the reduction-fault log (spec/17 R361). -/
structure LogEntry where
  addr : W64
  operand : W64
  code : Nat
  opc : Nat
  ty : Nat
  op : Nat
  lane : Nat
  pc : W64
  deriving DecidableEq, Repr

/-- A request on its way over a CXL link: the lane it is made for, its FAULTADDR, the key it reads, and its link: 2 times the port, and 1 more
for the upper link of a bifurcated one (spec/27 R470, R473); `fill` names the stash chunk it fills, by crew, window offset and index (spec/13
R273), `log` the entry its loss is reported by where it is a reduction's (R281). -/
structure ExtReq where
  lane : Nat
  addr : W64
  key : Nat
  link : Nat
  fill : Option (Nat × Nat × Nat)
  log : Option LogEntry
  deriving DecidableEq, Repr

/-- An operation in flight: a load, an unacknowledged store, and the others of spec/07 R148. `homes` are the tracked
writes that have not reached their home; `logs` the failures its completion reports; `late` the late fault it met; `rewritten` the elements of its destination written
again since its issue (spec/07 R151): 4·key for v, 4·n+1 for a scalar, 4·n+2 for a condition; `sc` tells a store, atomic or reduction
with .sc, which takes its place in the order S when it is performed (spec/19 R379); `ext` the requests of its lanes over CXL links
(spec/27 R473); `reads` the parts of the blocks LDPK read in two sectors, by first key, length and the stamp the block read (spec/13 R269,
spec/19 R388). -/
structure Op where
  team : Nat
  core : Nat
  ctx : Nat
  launch : Nat
  opc : Nat
  pc : W64
  flags : List Nat
  dest : Dest
  ex : BitVec 5
  floor : W64
  homes : List Nat
  logs : List LogEntry
  late : Option Late
  rewritten : List Nat
  sc : Bool
  ext : List ExtReq
  reads : List (Nat × Nat × W64)
  kind : OpKind
  deriving DecidableEq, Repr

/-- A copy command (spec/15 R317-R325); `segs` holds by sector the bytes and stamp of each 64-byte segment of its source already read
(spec/19 R384). -/
structure Copy where
  dir : Nat
  frame : Bool
  phys : Bool
  swap : Bool
  base : W64
  esize : Nat
  fill : W64
  extent : List Nat
  stride : List Int
  box : List Nat
  lead : List Nat
  tile : Nat
  bcrew : Nat
  bitmap : Nat
  record : Nat
  chunks : Nat
  done : List Nat
  segs : Tab (List Byte × W64)
  deriving DecidableEq, Repr

/-- A quantising store (spec/15 R326-R329): `dests` are the addresses of row codes, row scales, column codes, column
scales, absent ones `none`. -/
structure Quant where
  ty : Ty
  src : Nat
  dests : List (Option W64)
  qrow : Option Nat
  qcol : Option Nat
  reset : Bool
  deriving DecidableEq, Repr

/-- A near-memory command (spec/15 R331-R334). `pages` holds the translated pages (first address, size, frame, tracked, whether
uncached) once they are known; `homes` are the PCs that have not finished their share; `stop` the failing sector. -/
structure Nmc where
  op : Nat
  ty : Ty
  count : Nat
  xw : W64
  yg : W64
  param : W64
  pages : List (Nat × Nat × Nat × Bool × Bool)
  ready : Bool
  homes : List Nat
  written : Nat
  stop : Option Nat
  deriving DecidableEq, Repr

/-- The engine commands. -/
inductive CmdKind where
  | copy (c : Copy)
  | quant (q : Quant)
  | qload (q src : Nat)
  | qsave (q dst : Nat)
  | nmc (n : Nmc)
  deriving DecidableEq, Repr

/-- An engine command (spec/15 R314-R316): the stamp bound, the batch it was closed into, whether it is accepted, whether its record
is written, the error that stopped it, the log entries of writes that failed (by destination of a quantising store, 4 for a record;
spec/15 R316, R328), and where its record lies. -/
structure Cmd where
  team : Nat
  core : Nat
  ctx : Nat
  launch : Nat
  crew : Nat
  opc : Nat
  pc : W64
  flags : List Nat
  floor : W64
  bound : W64
  batch : Option Nat
  accepted : Bool
  executed : Bool
  recorded : Bool
  err : Option (Nat × W64)
  fails : Tab LogEntry
  record : Option W64
  homes : List Nat
  kind : CmdKind
  deriving DecidableEq, Repr

/-- A stage ring (spec/03 R69-R71): the floors of its slots (spec/19 R387) and its waiting teams. -/
structure Ring where
  depth : Nat
  producer : Nat
  consumer : Nat
  off : Nat
  p : Nat
  q : Nat
  tags : Tab W64
  pushers : List Nat
  poppers : List Nat
  deriving DecidableEq, Repr

/-- A barrier (spec/09 R218): its generation, the teams arrived, the largest floor of the arrivals. -/
structure Barrier where
  gen : Nat
  arrived : List Nat
  floor : W64
  deriving DecidableEq, Repr

/-- One 512-byte chunk of a stash window (spec/13 R273): the physical keys of its eight sectors, the recorded W bits and
tracked bits, which sectors are dirty, and whether its page is uncached at the LLC (spec/17 R343). -/
structure Chunk where
  keys : List Nat
  w : Bool
  tracked : List Bool
  dirty : List Bool
  unc : Bool
  deriving DecidableEq, Repr

/-- A stash window (spec/13 R272): the filled chunks by index. -/
structure Window where
  off : Nat
  len : Nat
  va : W64
  chunks : Tab Chunk
  deriving DecidableEq, Repr

/-- Where a crew's partition stands (spec/03 R97, R98); `freed` where its slot and partition are free and a command that does not write it is
still to complete as if it were resident (R85, R86). -/
inductive Residency where
  | resident | retained | spilled | freed
  deriving DecidableEq, Repr

/-- A crew (spec/03 R55, R80-R84); a spawned team's crew declares no carve. `saveAt` are the units of 1 KiB of the save area its spilled
partition takes; `spilledWindows` the stash windows that are unregistered while it is spilled (spec/03 R97). -/
structure Crew where
  launch : Nat
  ctx : Nat
  cluster : Nat
  index : Nat
  core : Nat
  partSize : Nat
  carve : Option Nat
  residency : Residency
  rings : Tab Ring
  bar : Barrier
  windows : List Window
  spilledWindows : List Window
  bounds : Tab W64
  saveAt : List Nat
  deriving DecidableEq, Repr

/-- Where a cluster stands (spec/23 R438, R441). -/
inductive ClusterState where
  | placed | saved | restoring
  deriving DecidableEq, Repr

/-- A placed or saved cluster (spec/03 R56-R58). `order` is its place in the launch; `asked` tells that its pre-emption was decided
(spec/23 R440, R441). -/
structure Cluster where
  launch : Nat
  order : Nat
  crews : List Nat
  state : ClusterState
  asked : Bool
  bar : Barrier
  deriving DecidableEq, Repr

/-- The shape of one team of a crew (spec/23 R433), with the SPTOFF of its kernel descriptor (spec/03 R88). -/
structure Shape where
  entry : W64
  sptoff : Nat
  stage : Nat
  role : Nat
  nregs : Nat
  lanes : Nat
  deriving DecidableEq, Repr

/-- A ring declaration (spec/23 R433). -/
structure QDecl where
  num : Nat
  depth : Nat
  producer : Nat
  consumer : Nat
  off : Nat
  deriving DecidableEq, Repr

/-- A record the reliability engine has still to write (spec/25 R465): class, SEV, code, unit, index, address, owner,
AUX0, AUX1. -/
structure ErrRec where
  cls : Nat
  sev : Nat
  code : Nat
  unit : Nat
  index : Nat
  addr : Nat
  owner : Nat
  aux0 : Nat
  aux1 : Nat
  deriving DecidableEq, Repr

/-- A launch that has been admitted and not yet completed (spec/23 R433, R434): its shape, its pin and stamp, the places in the
grid of the clusters placed, the quad reserved for its next cluster, the error it is to consume. `status` is the physical address of
its record; `detached` tells that its queue was enabled again since it was torn down, `trail` the later records of the old ring, each with
the code it completes with (spec/23 R432); `code` the memory its code words may have been fetched from early (spec/07 R170). -/
structure Launch where
  queue : Nat
  index : Nat
  status : Nat
  detached : Bool
  trail : List (Nat × Nat)
  code : List Host.Cell
  ctx : Nat
  gx : Nat
  gy : Nat
  gz : Nat
  crews : Nat
  teams : List Shape
  rings : List QDecl
  part : Nat
  carve : Nat
  hwin : Bool
  prot : Bool
  retry : Nat
  replays : Nat
  age : Nat
  stackz : Nat
  spawnT : Nat
  tag : Nat
  floor : W64
  sl : Option W64
  pin : Nat
  placed : List Nat
  reserved : Option Nat
  dying : Option ErrRec
  restoring : Bool
  discarded : Nat
  doneCode : Option (Nat × Nat)
  wsectors : List Nat
  wblocks : List Nat
  deriving DecidableEq, Repr

/-- A context (spec/23 R429; spec/07 R165; spec/17 R361; spec/25 R459). `haltCycle` is the cycle of the fence that halted it. -/
structure Context where
  record : Nat
  ptroot : Nat
  handlerbase : W64
  poolcounter : W64
  redlogbase : W64
  savebase : Nat
  savelen : Nat
  armed : Bool
  halted : Option Nat
  haltCycle : Nat
  locked : List (Nat × Nat)
  deriving DecidableEq, Repr

/-- One hardware queue's registers (spec/23 R426), the ring of its last accepted enable (`ring`, `ringLog`), whether a write of EN to 0 tore it down (spec/23 R432), whether a context kill did
(spec/25 R460), its queue floor (spec/21 R393). -/
structure Queue where
  base : Nat
  ring : Nat
  ringLog : Nat
  ctxAddr : Nat
  en : Bool
  susp : Bool
  torn : Bool
  bad : Bool
  dead : Bool
  killed : Bool
  ctxidx : Nat
  cls : Nat
  log2n : Nat
  head : Nat
  tail : Nat
  floor : W64
  deriving DecidableEq, Repr

/-- A spawn bin (spec/03 R76, R77): the launch and entry it is bound to, its records with their floors, the cycle of
its first record, the place in the order of binding. -/
structure Bin where
  launch : Nat
  entry : W64
  sptoff : Nat
  nregs : Nat
  records : List (List W32)
  floor : W64
  born : Nat
  order : Nat
  deriving DecidableEq, Repr

/-- A mailbox entry (spec/09 R209). -/
structure Mail where
  data : W64
  tag : Nat
  ctx : Nat
  slot : Nat
  deriving DecidableEq, Repr

/-- A copy in the L1: one 64-byte sector under its context and virtual address (spec/17 R339), with the frame address it was translated
to, the stamp beside it (spec/13 R265), the floor tags of its bytes (spec/19 R387), and when it was filled. -/
structure L1Copy where
  ctx : Nat
  va : Nat
  phys : Nat
  pa : Nat
  data : List Byte
  stamp : W64
  tags : List W64
  born : Nat
  deriving DecidableEq, Repr

/-- The reuse latch (spec/15 R307). -/
structure Latch where
  team : Nat
  a : Nat
  ty : Ty
  words : List Nat
  deriving DecidableEq, Repr

/-- A watchpoint register (spec/23 R446). -/
structure Watch where
  en : Bool
  rd : Bool
  wr : Bool
  lenm1 : Nat
  tslot : Nat
  offset : Nat
  deriving DecidableEq, Repr

/-- One core (spec/01 R14; spec/03 R74-R80; spec/09 R209; spec/15 R307; spec/17 R339; spec/23 R446). `passes` are the cycles in which
the vector words in its datapaths run their last pass (spec/23 R439); `ofloors` and `rfloors` hold by context the largest floor of the
FENCEOs of its teams and of the FENCERs whose request reached it (spec/19 R380, R388). -/
structure Core where
  carve : Nat
  mxOwner : Option Nat
  mxQueue : List Nat
  mxOver : List Nat
  latch : Option Latch
  bins : Tab Bin
  launched : List Bin
  mail : List Mail
  ovr : Bool
  hcache : W64
  l1 : List L1Copy
  attach : Bool
  haltbrk : Bool
  dctx : Nat
  dslot : Nat
  watches : Tab Watch
  rsel : W64
  failed : Bool
  passes : List Nat
  ofloors : Tab W64
  rfloors : Tab W64
  deriving DecidableEq, Repr

/-- A core after reset. -/
def Core.zero : Core :=
  { carve := 0, mxOwner := none, mxQueue := [], mxOver := [], latch := none, bins := [], launched := [], mail := [],
    ovr := false, hcache := 0, l1 := [], attach := false, haltbrk := false, dctx := 0, dslot := 0, watches := [],
    rsel := 0, failed := false, passes := [], ofloors := [], rfloors := [] }

/-- One stack's registers and rate change (spec/01 R36-R43). -/
structure Stack where
  qreq : Bool
  qrefuse : Bool
  hbad : Bool
  wdrop : Bool
  qack : Bool
  quiescing : Bool
  rate : Nat
  degr : Bool
  rateReq : Option Nat
  retraining : Bool
  masks : List W64
  deriving DecidableEq, Repr

/-- The reset values of the hash masks (spec/01 R38). -/
def hashReset : List W64 :=
  [0x0000000210842100#64, 0x0000000421084200#64, 0x0000000842108400#64, 0x0000001084210800#64, 0x0000002108421000#64]

/-- A stack after reset (spec/01 R36, R38, R43). -/
def Stack.zero : Stack :=
  { qreq := false, qrefuse := false, hbad := false, wdrop := false, qack := false, quiescing := false, rate := 0,
    degr := false, rateReq := none, retraining := false, masks := hashReset }

/-- A waiter of an allowance counter (spec/13 R285): its operation, its count. -/
structure Waiter where
  op : Nat
  n : Nat
  deriving DecidableEq, Repr

/-- A live allowance counter, keyed by the location of its descriptor (spec/13 R283; spec/21 R420-R424; spec/19 R387); `unc` tells that it was
initialised through a page that is uncached at the LLC (spec/17 R343). -/
structure Counter where
  ctx : Nat
  reserve : Nat
  ovf : Bool
  init : Nat
  shares : Tab (Nat × W64)
  queue : List Waiter
  floor : W64
  unc : Bool
  deriving DecidableEq, Repr

/-- A launch pin or generation pin (spec/21 R402): its stamp, the launch that holds it, the boundary it opened. -/
structure Pin where
  id : Nat
  stamp : W64
  launch : Nat
  boundary : Nat
  deriving DecidableEq, Repr

/-- A record of a lees (spec/21 R398, R399, R406, R417). -/
inductive Lees where
  /-- A version: the sector, its bytes, its stamp, LINK, its tag, whether poisoned. -/
  | version (sector : Nat) (data : List Byte) (stamp : W64) (link : Nat) (tag : Nat) (poison : Bool)
  /-- A copy of an untracked block: the boundary of its previous write, the boundary copied for and its stamp, the tag, MIXED, and the poisoned sectors. -/
  | copy (block : Nat) (data : List Host.Cell) (prev boundary : Nat) (stamp : W64) (tag : Nat) (mixed : Bool)
      (poison : List Nat)
  /-- A slot of a launch's write index: the launch and how many of five entries it holds. -/
  | index (launch used : Nat)
  deriving DecidableEq, Repr

/-- A tracked write on its way to its home (spec/21 R392). `line` is the L1 line a store of a team wrote through (spec/17 R340), `chunk` the
partition key of the stash chunk's bytes that it writes through (spec/13 R274). -/
structure HomeWrite where
  id : Nat
  home : Nat
  key : Nat
  data : List Byte
  poison : Bool
  floor : W64
  tag : Nat
  launch : Nat
  op : Option Nat
  cmd : Option Nat
  port : Option Nat
  line : Option Nat
  chunk : Option Nat
  log : Option (Nat × LogEntry)
  deriving DecidableEq, Repr

/-- A core's partial of a reduction group (spec/17 R359): values by offset in the sector. -/
structure Partial where
  core : Nat
  vals : Tab Nat
  deriving DecidableEq, Repr

/-- A sector in U (spec/17 R359). -/
structure Group where
  ty : Ty
  op : AOp
  parts : List Partial
  floor : W64
  members : List (Nat × Nat × Nat)
  deriving DecidableEq, Repr

/-- A CTU entry (spec/17 R345-R348): the context, the first virtual address, the leaf entry, whether it is locked, and the floor of the
PGMAP that installed the leaf, with the time of that PGMAP (spec/19 R371, R387). -/
structure Ctu where
  ctx : Nat
  va : Nat
  size : Nat
  pte : Nat
  locked : Bool
  tag : W64
  since : Nat
  deriving DecidableEq, Repr

/-- A private holder of a sector that can answer reads (spec/17 R357): a chunk of a crew's stash window, by the crew, the window's offset and
the chunk's index, or the host. -/
inductive Holder where
  | chunk (crew woff i : Nat)
  | host
  deriving DecidableEq, Repr

/-- A host or pool line cached in the LLC, in order of allocation (spec/17 R362). -/
structure CxlLine where
  key : Nat
  port : Bool
  dirty : Bool
  deriving DecidableEq, Repr

/-- A drain that runs (spec/21 R409-R412): its generation, the extent area, the commit slot, SEQ. -/
structure Drain where
  gen : Nat
  dest : Nat
  commit : Nat
  seq : Nat
  deriving DecidableEq, Repr

/-- A restore that runs (spec/21 R415): the extent area, its bytes, the count of its extents, the stamp of its generation. -/
structure Restore where
  dest : Nat
  image : Nat
  count : Nat
  stamp : W64
  deriving DecidableEq, Repr

/-- The kiln command that runs (spec/21 R409, R410). -/
inductive Kiln where
  | drain (d : Drain)
  | restore (r : Restore)
  deriving DecidableEq, Repr

/-- A request at a pseudo-channel's arbiter (spec/17 R363): its class, and the higher classes granted while it waited at the head
of its class. -/
structure PcReq where
  home : Nat
  cls : Nat
  passed : List Nat
  deriving DecidableEq, Repr

/-- The error ring's registers and counters (spec/25 R463-R465). -/
structure ErrRing where
  base : Nat
  en : Bool
  ie : Bool
  log2n : Nat
  head : Nat
  tail : Nat
  overflow : Bool
  headbad : Bool
  dropped : Nat
  seq : Nat
  treplay : Nat
  hbmce : Nat
  sramce : Nat
  park : W64
  parkRef : Bool
  deriving DecidableEq, Repr

/-- The host's attachment, peers, boot and pins (spec/27 R469-R483). `links` are the links that are up, bit 2·x + h for half h of port x
(R470); `image` is the firmware image found at the release of RESET_N (R481). `frameRun` is the change of a granule that runs: BUSY. -/
structure HostLink where
  hostlim : Nat
  frameGran : Nat
  frameT : Bool
  frameRun : Option (Nat × Bool)
  frameRef : Bool
  expbase : Nat
  explen : Nat
  huanenid : W64
  peermap : BitVec 512
  fwok : Bool
  fwbad : Bool
  svn : Nat
  fwver : Nat
  image : Option Image
  bifur0 : Bool
  bifur1 : Bool
  links : BitVec 4
  floors : Tab W64
  msix : List Nat
  spdm : List (List Byte)
  pwrgd : Bool
  resetN : Bool
  thermtrip : Bool
  lastRead : List Byte
  lastPoison : Bool
  lastRefused : Option Nat
  deriving DecidableEq, Repr

/-- Why the machine stops. Every fault the spec describes is taken by the team (spec/25 R449) and is no stop. -/
inductive Fault where
  /-- Raised by an instruction where `cur` names no team: no step of the device does this. Safe. -/
  | noCurrentTeam
  deriving DecidableEq, Repr

/-- Why an instruction has no meaning. -/
inductive Refusal where
  /-- Raised by an arm of Dispatch.lean whose instruction has no meaning yet. Safe. -/
  | notModelled (mnemonic : String)
  deriving DecidableEq, Repr

/-- The state of the device. -/
structure State where
  /-- Bytes by location: physical bytes of HBM and of host memory, partition, stack and peer bytes
  (Machine/Ops.lean gives the keys). -/
  mem : List Host.Cell
  /-- Floor tags of written bytes (spec/19 R387). -/
  tags : Tab W64
  teams : Tab Team
  crews : Tab Crew
  clusters : Tab Cluster
  launches : Tab Launch
  contexts : Tab Context
  queues : Tab Queue
  cores : Tab Core
  ops : Tab Op
  cmds : Tab Cmd
  /-- Clocks of the 768 homes (spec/21 R392). -/
  clocks : Tab Nat
  /-- Stamp and writer tag of each tracked sector (spec/21 R392). -/
  sectors : Tab (W64 × Nat)
  homeq : List HomeWrite
  lees : Tab (List Lees)
  /-- Slots reclaimed from each stack's lees: where its ring's head stands (spec/21 R398). -/
  leesHead : Tab Nat
  /-- Stacks under pressure (spec/21 R403). -/
  press : BitVec 12
  horizon : W64
  lpins : List Pin
  gpins : List Pin
  nextGen : Nat
  boundary : Nat
  /-- Boundary after which each untracked block was last written (spec/21 R406). -/
  blocks : Tab Nat
  /-- Frame table: tracked granules (spec/17 R349). -/
  tracked : List Nat
  counters : Tab Counter
  groups : Tab Group
  ctu : Tab (List Ctu)
  /-- Page-table entries PGMAP wrote, by key: the entry, the floor of the instruction and its time (spec/19 R371, R387). -/
  pgmaps : Tab (Nat × W64 × Nat)
  /-- The largest floor or stamp of the .sc events already in the order S (spec/19 R379, R388). -/
  scFloor : W64
  /-- Dirty untracked LLC sectors (spec/17 R351). -/
  dirty : List Nat
  cxl : List CxlLine
  hostHeld : List Nat
  /-- Sectors in a core's atomic-ownership lines, each with its core (spec/17 R357, R360). -/
  owners : Tab Nat
  /-- The private holder that read a sector last (spec/17 R357). -/
  reader : Tab Holder
  /-- Held sectors that another agent has read since they were filled or written: S or F (spec/17 R357, R358). -/
  shared : List Nat
  /-- HBM bit flips present, by location: which bits of the byte (spec/25 R453). -/
  flips : Tab Byte
  /-- Poisoned sectors of HBM and host memory, and poisoned blocks of partitions (spec/25 R452, R454). -/
  poison : List Nat
  pcq : List PcReq
  /-- Cycles of the stage-2 corrections of each channel group within the last second, by stack·4 + group (spec/01 R43). -/
  corr : Tab (List Nat)
  stk : Tab Stack
  readyCore : BitVec 256
  readyStack : BitVec 12
  readyGroup : BitVec 48
  readyIo : BitVec 21
  leesNext : BitVec 3
  leesMode : Nat
  stampLow : Bool
  rbRefuse : Bool
  rbDone : Bool
  rebasing : Bool
  kilncmd : W64
  kilnStatus : Nat
  kilnBytes : Nat
  kiln : Option Kiln
  err : ErrRing
  /-- Records of the current step not yet written to the ring. -/
  errq : List ErrRec
  /-- Entries of the current step not yet written to a context's reduction-fault log: context, entry. -/
  logq : List (Nat × LogEntry)
  host : HostLink
  /-- (model) The team whose word is being issued: its id. -/
  cur : Option Nat
  /-- (model) What the outside world and the hardware do to the device, in order: each lands at the first step at or after its
  cycle, between instructions. -/
  agenda : List (Nat × Instr)
  /-- (model) The largest floor of the PGMAPs whose entries the current step translated through. -/
  xlFloor : W64
  /-- (model) The latest time of those PGMAPs. -/
  xlSince : Nat
  /-- (model) Core cycles. -/
  cycle : Nat
  /-- (model) Teams issued in this cycle, each with its core. -/
  chosen : List (Nat × Nat)
  /-- (model) The teams ready in this cycle, once its first issue is selected (spec/23 R439). -/
  ready : Option (List Nat)
  /-- (model) Index of the next free value: it rises with every step, and so tells the time of a step too. -/
  free : Nat
  /-- (model) The next identifier. -/
  nextId : Nat
  deriving DecidableEq, Repr

/-- The error ring after reset (spec/25 R463). -/
def ErrRing.zero : ErrRing :=
  { base := 0, en := false, ie := false, log2n := 10, head := 0, tail := 0, overflow := false, headbad := false,
    dropped := 0, seq := 0, treplay := 0, hbmce := 0, sramce := 0, park := 0, parkRef := false }

/-- The host link after reset (spec/27 R476-R483). -/
def HostLink.zero : HostLink :=
  { hostlim := 0, frameGran := 0, frameT := false, frameRun := none, frameRef := false, expbase := 0, explen := 0,
    huanenid := 0, peermap := 0, fwok := false, fwbad := false, svn := 0, fwver := 0, image := none, bifur0 := false,
    bifur1 := false, links := 0, floors := [], msix := [], spdm := [], pwrgd := true, resetN := false,
    thermtrip := false, lastRead := [], lastPoison := false, lastRefused := none }

/-- A queue after reset (spec/23 R426). -/
def Queue.zero : Queue :=
  { base := 0, ring := 0, ringLog := 4, ctxAddr := 0, en := false, susp := false, torn := false, bad := false, dead := false, killed := false, ctxidx := 0, cls := 0,
    log2n := 4, head := 0, tail := 0, floor := 0 }

/-- The machine right after reset: every READY bit 0 (spec/01 R20), no context, no team (spec/23 R429), memory with
nothing listed. Values the spec does not give are those of notes/assumptions/12.md. -/
def State.reset : State :=
  { mem := [], tags := [], teams := [], crews := [], clusters := [], launches := [], contexts := [], queues := [],
    cores := [], ops := [], cmds := [], clocks := [], sectors := [], homeq := [], lees := [], leesHead := [], press := 0, horizon := 0,
    lpins := [], gpins := [], nextGen := 1, boundary := 0, blocks := [], tracked := [], counters := [], groups := [],
    ctu := [], pgmaps := [], scFloor := 0, dirty := [], cxl := [], hostHeld := [], owners := [], reader := [], shared := [], flips := [], poison := [], pcq := [], corr := [], stk := [],
    readyCore := 0, readyStack := 0, readyGroup := 0, readyIo := 0, leesNext := 2, leesMode := 2, stampLow := false,
    rbRefuse := false, rbDone := false, rebasing := false, kilncmd := 0, kilnStatus := 0, kilnBytes := 0,
    kiln := none, err := ErrRing.zero, errq := [], logq := [], host := HostLink.zero, cur := none, agenda := [], xlFloor := 0, xlSince := 0, cycle := 0, chosen := [],
    ready := none, free := 0, nextId := 1 }

end Sys2Proof.Machine
end

