-- ==== Sys2Proof/Machine/Hist.lean ====
section
/-! DEFINITION. Physical addresses, stacks and homes (spec/01 R27-R35), the correction stages of HBM (spec/25 R453, R454), stamps and
versions at the homes, pins, reclamation and boundaries (spec/21 R391-R407, R417). -/

namespace Sys2Proof.Machine

/-! ### Free choices -/

/-- A free element of a list. -/
def pickOne (s : State) (j : Nat) (l : List Nat) : Option Nat :=
  match l with
  | [] => none
  | [x] => some x
  | _ => l[(Config.freeWord s.free j).toNat % l.length]?

/-- `n` free elements of a list, each taken once. -/
def pickMany (s : State) (j : Nat) : Nat → List Nat → List Nat
  | 0, _ => []
  | n + 1, l =>
    match pickOne s (j + n) l with
    | none => []
    | some x => x :: pickMany s j n (l.filter (· != x))

/-! ### Places -/

/-- Bytes of lees per stack by mode (spec/01 R27). -/
def lsOf : Nat → Nat
  | 0 => 0
  | 1 => 1500512256
  | 2 => 3001024512
  | 3 => 6001000448
  | _ => 12000952320

/-- Addressable bytes per stack (spec/01 R27). -/
def csOf (mode : Nat) : Nat := 48000000000 - lsOf mode

/-- First byte of the stack windows (spec/01 R29). -/
def stackBase : Nat := 2 ^ 40

/-- First byte of the CXL window (spec/27 R472). -/
def cxlBase : Nat := 2 ^ 50

/-- The key of the byte of a crew's partition (spec/03 R83). -/
def partKey (crew off : Nat) : Nat := 2 ^ 64 + crew * 2 ^ 20 + off

/-- The key of the byte of a team's stack block, which lies on stack `stk`; which addresses of the stack it takes is not stated
(spec/17 R337, notes/assumptions/42.md). -/
def stackKey (team stk off : Nat) : Nat := 2 ^ 128 + team * 2 ^ 30 + stk * 2 ^ 26 + off

/-- Whether a key lies in a stack block. -/
def isStk (k : Nat) : Bool := decide (2 ^ 128 ≤ k)

/-- The key of the byte of a peer's exported window (spec/17 R336). -/
def peerKey (peer off : Nat) : Nat := 2 ^ 60 + peer * 2 ^ 47 + off

/-- The key of the byte of stack `n` at a stack-local address: its address in the stack window (spec/01 R29, R32). -/
def hbmKey (n sla : Nat) : Nat := stackBase + n * 2 ^ 36 + sla

/-- Whether a key lies on device HBM. -/
def isHbm (k : Nat) : Bool := decide (stackBase ≤ k ∧ k < stackBase + 12 * 2 ^ 36)

/-- Whether a key lies in the CXL window. -/
def isCxl (k : Nat) : Bool := decide (cxlBase ≤ k ∧ k < 2 * cxlBase)

/-- The stack of an HBM key (spec/01 R31) or of a byte of a stack block (spec/17 R337). -/
def stackOf (k : Nat) : Nat := if isStk k then k / 2 ^ 26 % 16 else (k - stackBase) / 2 ^ 36

/-- The stack-local address of an HBM key (spec/01 R31). -/
def slaOf (k : Nat) : Nat := (k - stackBase) % 2 ^ 36

/-- The key of a physical address, where it is populated (spec/01 R29, R31; spec/27 R472). -/
def keyOfPa (s : State) (pa : Nat) : Option Nat :=
  let cs := csOf s.leesMode
  if pa < 12 * cs then
    let g := pa / 4096
    some (hbmKey (g % 12) (g / 12 * 4096 + pa % 4096))
  else if stackBase ≤ pa ∧ pa < stackBase + 12 * 2 ^ 36 then
    (if (pa - stackBase) % 2 ^ 36 < cs then some pa else none)
  else if cxlBase ≤ pa ∧ pa < cxlBase + s.host.hostlim then some pa
  else none

/-- Which window of spec/01 R29 or spec/27 R472 a physical address lies in the populated part of: 0 interleaved,
1 + n stack n, 13 CXL. -/
def windowOf (s : State) (pa : Nat) : Option Nat :=
  let cs := csOf s.leesMode
  if pa < 12 * cs then some 0
  else if stackBase ≤ pa ∧ pa < stackBase + 12 * 2 ^ 36 then
    (if (pa - stackBase) % 2 ^ 36 < cs then some (1 + (pa - stackBase) / 2 ^ 36) else none)
  else if cxlBase ≤ pa ∧ pa < cxlBase + s.host.hostlim then some 13
  else none

/-- Whether `n` bytes lie wholly in the populated part of one window (spec/01 R30). -/
def inOneWindow (s : State) (pa n : Nat) : Bool :=
  match windowOf s pa, windowOf s (pa + n - 1) with
  | some a, some b => decide (a = b)
  | _, _ => false

/-- A stack's registers. -/
def State.stack (s : State) (n : Nat) : Stack := smGet Stack.zero s.stk n

/-- Change a stack's registers. -/
def State.modStack (s : State) (n : Nat) (f : Stack → Stack) : State :=
  { s with stk := smSet Stack.zero s.stk n (f (s.stack n)) }

/-- Whether a stack reports ready (spec/01 R22, R25). -/
def stackReady (s : State) (n : Nat) : Bool := s.readyStack.getLsbD n

/-- Whether any CXL port is up (spec/01 R24, spec/27 R473). -/
def portUp (s : State) : Bool := s.readyIo.getLsbD 0 || s.readyIo.getLsbD 1

/-- Whether RELENG is ready: it rises before any other bit (spec/27 R484). -/
def relengReady (s : State) : Bool := s.readyIo.getLsbD 20

/-- Whether the CP is usable (spec/01 R20, R24). While it is not, a doorbell is ignored, and no launch is admitted, placed, completed or rolled
back (notes/assumptions/44.md). -/
def cpReady (s : State) : Bool := s.readyIo.getLsbD 18

/-- Whether the kiln is ready (spec/01 R24). -/
def kilnReady (s : State) : Bool := s.readyIo.getLsbD 19

/-- Whether the memory behind a key can be reached (spec/01 R25, spec/27 R473). A program's access through an all-stacks frame at a sector of a
ready stack while another stack's bit is 0 is barred by R25, which gives it no outcome: it is performed, a design choice
(notes/assumptions/35.md, notes/assumptions/43.md). -/
def reachable (s : State) (k : Nat) : Bool :=
  if isHbm k || isStk k then stackReady s (stackOf k) else if isCxl k then portUp s else true

/-- Parity of the low `n` bits of `x` (spec/01 R33). -/
def parity (x : Nat) : Nat → Bool
  | 0 => false
  | n + 1 => (x / 2 ^ n % 2 == 1) != parity x n

/-- The channel of a stack-local address under a stack's masks (spec/01 R33). -/
def channelOf (masks : List W64) (sla : Nat) : Nat :=
  (List.range 5).foldl (fun c j => c + (if parity (sla &&& (masks.getD j 0).toNat) 36 then 2 ^ j else 0)) 0

/-- The home id of an HBM key (spec/01 R33, R35); of a byte of a stack block, one of its stack's that no rule gives. -/
def homeOf (s : State) (k : Nat) : Nat :=
  let sla := slaOf k
  if isStk k then stackOf k * 64 + (Config.freeWord 0 (2 ^ 140 + k / 64)).toNat % 64
  else stackOf k * 64 + channelOf (s.stack (stackOf k)).masks sla * 2 + sla / 128 % 2

/-- The 64-byte sector of a key. -/
def sectorOf (k : Nat) : Nat := k / 64

/-- The tracked bit of the granule of a physical address (spec/17 R349). -/
def trackedPa (s : State) (pa : Nat) : Bool := decide (pa / 65536 * 65536 ∈ s.tracked)

/-- The physical addresses of a key (spec/01 R29, R31). -/
def pasOfKey (s : State) (k : Nat) : List Nat :=
  if isHbm k then
    let pa := (slaOf k / 4096 * 12 + stackOf k) * 4096 + slaOf k % 4096
    if pa < 12 * csOf s.leesMode then [pa, k] else [k]
  else [k]

/-- Whether a key lies on a tracked granule. -/
def trackedKey (s : State) (k : Nat) : Bool := (pasOfKey s k).any (trackedPa s)

/-! ### Stamps (spec/21 R391, R392) -/

/-- The stamp with a logical part and a home id. -/
def mkStamp (l h : Nat) : W64 := BitVec.ofNat 64 (l * 1024 + h)

/-- The logical part of a stamp. -/
def logical (x : W64) : Nat := x.toNat / 1024

/-- Whether versions are kept (spec/21 R397). -/
def leesOn (s : State) : Bool := decide (s.leesMode ≠ 0)

/-- A home's clock. -/
def clockOf (s : State) (h : Nat) : Nat := smGet 0 s.clocks h

/-- The largest clock of any home. -/
def maxClock (s : State) : Nat := s.clocks.foldl (fun m e => max m e.2) 0

/-- The stamp and tag of a sector; 0.0 and 0 before its first tracked write. -/
def stampAt (s : State) (sec : Nat) : W64 × Nat := smGet (0, 0) s.sectors sec

/-- The stamp of the version a sector holds; 0 for an untracked one. -/
def versionStamp (s : State) (sec : Nat) : W64 := if trackedKey s (sec * 64) then (stampAt s sec).1 else 0

/-- Queue a record for the error ring. -/
def pushErr (s : State) (r : ErrRec) : State := { s with errq := s.errq ++ [r] }

/-- Add one to a counter that saturates. -/
def satInc (n : Nat) : Nat := min (n + 1) (2 ^ 64 - 1)

/-- Raise a home's clock; at 2^53 LOW is set and recorded (spec/21 R394). -/
def setClock (s : State) (h c : Nat) : State :=
  let s' := { s with clocks := smSet 0 s.clocks h c }
  if 2 ^ 53 ≤ c ∧ s.stampLow = false then
    pushErr { s' with stampLow := true } ⟨0x0F, 3, 0, 2, h, 0, 0, c, 0⟩
  else s'

/-! ### Transfers at a pseudo-channel (spec/17 R363) -/

/-- The class of a launch's demand: 2 where its queue is IMMEDIATE, else 3. -/
def demandClass (s : State) (launch : Nat) : Nat :=
  match tbGet s.launches launch with
  | some l => if (smGet Queue.zero s.queues l.queue).cls = 0 then 2 else 3
  | none => 3

/-- The class of the demand of the team whose word is being issued; 3 for any other demand. -/
def curClass (s : State) : Nat :=
  match s.cur.bind (tbGet s.teams) with
  | some t => demandClass s t.launch
  | none => 3

/-- Enter a transfer at the pseudo-channel of a home. -/
def pcAsk (s : State) (home cls : Nat) : State := { s with pcq := s.pcq ++ [⟨home, cls, []⟩] }

/-- Enter the transfer of a read of a sector where the LLC holds no copy of it: which clean copies it holds is a free choice
(notes/assumptions/43.md). -/
def pcMiss (s : State) (sec cls : Nat) : State :=
  { s with pcq := if Config.freeBit s.free (2 ^ 96 + sec) then s.pcq else s.pcq ++ [⟨homeOf s (sec * 64), cls, []⟩] }

/-- The class of a read by its finder, as HBM_UE numbers finders; an engine enters its own (spec/25 R466). -/
def finderClass (s : State) : Nat → Option Nat
  | 0 => some (curClass s)
  | 1 => some 7
  | 2 => none
  | 4 => some 6
  | _ => some 3

/-! ### Correction (spec/25 R453, R454) -/

/-- Whether a sector is poisoned (spec/25 R454). -/
def poisoned (s : State) (sec : Nat) : Bool := decide (sec ∈ s.poison)

/-- Set or clear a sector's poison. -/
def setPoison (s : State) (sec : Nat) (b : Bool) : State :=
  { s with poison := if b then insertNew s.poison sec else s.poison.filter (· != sec) }

/-- Flipped bits of the 64-bit word at key `k`. -/
def flipsIn (s : State) (k : Nat) : Nat :=
  (List.range 8).foldl (fun n i => n + popcount (smGet 0 s.flips (k + i)).toNat 8) 0

/-- The words of the 256-byte line of a sector with more than one flipped bit: stage 2 cannot correct them. -/
def badWords (s : State) (sec : Nat) : List Nat :=
  ((List.range 32).map fun i => sec / 4 * 256 + 8 * i).filter fun k => decide (1 < flipsIn s k)

/-- The physical address a record carries: that of a location in the stack window or the CXL window, 0 for one that has none, as a byte of a
lees, a partition or a stack block (spec/25 R465, spec/01 R27). -/
def recAddr (s : State) (k : Nat) : Nat := if keyOfPa s k = some k then k else 0

/-- Core cycles in one second (spec/01 R15). -/
def secondCycles : Nat := 2500000000

/-- Note a stage-2 correction of a home's channel group (spec/01 R22, R43). -/
def noteStage2 (s : State) (home : Nat) : State :=
  let g := home / 16
  { s with corr := smSet [] s.corr g ((smGet [] s.corr g).filter (fun c => decide (s.cycle < c + secondCycles)) ++ [s.cycle]) }

/-- Whether some byte of a sector has a flipped bit. -/
def sectorFlipped (s : State) (sec : Nat) : Bool := s.flips.any fun e => e.1 / 64 == sec

/-- Read a sector of HBM through the correction stages: corrected in place and counted, or poisoned and recorded; under a dirty LLC
copy, which a write-back puts in its place, no poison is left (spec/25 R453, R454; spec/17 R351). A sector that cannot be corrected keeps its
bad words, which still count for the other sectors of its line; a poisoned one, whatever poisoned it, is uncorrectable on every read (R454), and
only the scrub reports it again (R455). `finder` is AUX0 of HBM_UE. -/
def correctSector (s : State) (sec finder : Nat) : State :=
  let k := sec * 64
  let ue : ErrRec := ⟨0x02, 1, 0x10, 2, homeOf s k, recAddr s k, 0, finder, (versionStamp s sec).toNat⟩
  if poisoned s sec then (if finder = 1 then pushErr s ue else s)
  else if sectorFlipped s sec then
    let bad := badWords s sec
    let mine := bad.filter fun x => decide (k ≤ x ∧ x < k + 64)
    let s' := { s with flips := smClear s.flips k (k + 64) }
    let home := homeOf s k
    if mine = [] then
      pushErr (noteStage2 { s' with err := { s'.err with hbmce := satInc s'.err.hbmce } } home)
        ⟨0x01, 0, 0, 2, home, recAddr s k, 0, 2, 0⟩
    else if bad.length = 1 then
      pushErr { s' with err := { s'.err with hbmce := satInc s'.err.hbmce } } ⟨0x01, 0, 0, 2, home, recAddr s k, 0, 3, 0⟩
    else pushErr (if sec ∈ s.dirty then s else setPoison s sec true) ue
  else s

/-! ### The lees (spec/21 R398-R404) -/

/-- Slots a record takes (spec/21 R398). -/
def slotsOf : Lees → Nat
  | .version .. => 1
  | .copy .. => 52
  | .index .. => 1

/-- The records of a stack, head first. -/
def leesOf (s : State) (n : Nat) : List Lees := smGet [] s.lees n

/-- Slots in use on a stack. -/
def slotsUsed (s : State) (n : Nat) : Nat := (leesOf s n).foldl (fun a r => a + slotsOf r) 0

/-- Slots of a stack's lees (spec/21 R398). -/
def slotsAll (s : State) : Nat := lsOf s.leesMode / 80

/-- The first byte of a slot of a stack's lees: the ring lies in the top bytes of the stack-local space (spec/21 R398). -/
def slotLoc (s : State) (n slot : Nat) : Nat := hbmKey n (csOf s.leesMode + 80 * (slot % max 1 (slotsAll s)))

/-- The mark that bytes [lo, hi) of a record lost to an uncorrectable error leave: on its data, or for a copy record's header on the
whole record (notes/assumptions/41.md). -/
def spoil (lo hi : Nat) : Lees → Lees
  | .version sec d st l g p => .version sec d st l g (p || decide (lo < hi))
  | .copy b d x y st g m po =>
    let hit (j : Nat) : Bool := decide (64 * j < hi ∧ lo < 64 * j + 64)
    .copy b d x y st g (m || decide (4096 < hi))
      (((List.range 64).filter hit).foldl (fun l j => insertNew l (b * 64 + j)) po)
  | .index l u => .index l u

/-- Spoil the records that hold bytes of the 64 bytes at `key`; `slot` is the place of the first. -/
def spoilAt (s : State) (n key : Nat) : Nat → List Lees → List Lees
  | _, [] => []
  | slot, r :: rs =>
    let at' := slotLoc s n slot
    let n80 := 80 * slotsOf r
    let r' := if at' < key + 64 ∧ key < at' + n80 then spoil (key - at') (min n80 (key + 64 - at')) r else r
    r' :: spoilAt s n key (slot + slotsOf r) rs

/-- Read a sector of a stack's lees through the correction stages; an uncorrectable one spoils the records it holds bytes of, and stays
uncorrectable until its bytes are written again. -/
def correctSlot (n finder : Nat) (s : State) (sec : Nat) : State :=
  let s := correctSector s sec finder
  if poisoned s sec then
    { s with lees := smSet [] s.lees n (spoilAt s n (sec * 64) (smGet 0 s.leesHead n) (leesOf s n)) }
  else s

/-- The bytes of a slot of a stack's lees are written: what was wrong in them is gone, and a sector with no wrong bit left can be read
again. -/
def writeSlot (n : Nat) (s : State) (slot : Nat) : State :=
  let lo := slotLoc s n slot
  let s := { s with flips := smClear s.flips lo (lo + 80) }
  [lo / 64, (lo + 79) / 64].foldl (fun s x => if sectorFlipped s x then s else setPoison s x false) s

/-- A record is written into the slots from `slot` on. -/
def writeSlots (s : State) (n slot count : Nat) : State :=
  if s.flips = [] ∧ s.poison = [] then s else ((List.range count).map (slot + ·)).foldl (writeSlot n) s

/-- The sectors that the records `p` selects lie in; `slot` is the place of the first record. -/
def recordSectors (s : State) (n : Nat) (p : Lees → Bool) : Nat → List Lees → List Nat
  | _, [] => []
  | slot, r :: rs =>
    let lo := slotLoc s n slot / 64
    let hi := (slotLoc s n slot + 80 * slotsOf r + 63) / 64
    (if p r then (List.range (hi - lo)).map (lo + ·) else []) ++ recordSectors s n p (slot + slotsOf r) rs

/-- Read the records of a stack's lees that `p` selects through the correction stages (spec/25 R453-R455). -/
def correctLees (s : State) (n finder : Nat) (p : Lees → Bool) : State :=
  if s.flips = [] then s
  else ((recordSectors s n p (smGet 0 s.leesHead n) (leesOf s n)).filter (sectorFlipped s)).foldl (correctSlot n finder) s

/-- Whether a record holds bytes of a sector. -/
def ofSector (sec : Nat) : Lees → Bool
  | .version x _ _ _ _ _ => x == sec
  | .copy b _ _ _ _ _ _ _ => b == sec / 64
  | .index _ _ => false

/-- Live pins of both kinds. -/
def livePins (s : State) : List Pin := s.lpins ++ s.gpins

/-- The lowest stamp of any live pin (spec/21 R403). -/
def lowestPin (s : State) : Option Nat :=
  (livePins s).foldl (fun m p => match m with
    | none => some p.stamp.toNat
    | some x => some (min x p.stamp.toNat)) none

/-- A record's superseding stamp (spec/21 R399). -/
def supersede (s : State) (sec : Nat) (stamp : W64) (link : Nat) : W64 :=
  let h := homeOf s (sec * 64)
  if link < 2 ^ 48 - 1 then mkStamp (logical stamp + link) h else mkStamp (clockOf s h) h

/-- The protection pin of a launch, while it is held (spec/21 R416). -/
def protPin (s : State) (lid : Nat) : Option Pin :=
  match tbGet s.launches lid with
  | some l => s.lpins.find? fun p => p.launch == lid && p.id == l.pin
  | none => none

/-- Whether the head record may be reclaimed, and the stamp the horizon rises to (spec/21 R403). -/
def reclaimable (s : State) : Lees → Option W64
  | .version sec _ stamp link _ _ =>
    let x := supersede s sec stamp link
    match lowestPin s with
    | none => some x
    | some p => if x.toNat ≤ p then some x else none
  | .copy _ _ prev b _ _ _ _ =>
    if (livePins s).any fun p => decide (prev < p.boundary ∧ p.boundary ≤ b) then none else some 0
  | .index l _ => if (protPin s l).isSome then none else some 0

/-- Reclaim head records of stack `n` while they may be, until `want` slots are free; `fuel` bounds the number. -/
def reclaimHead (n want : Nat) : Nat → State → State
  | 0, s => s
  | fuel + 1, s =>
    if want + slotsUsed s n ≤ slotsAll s then s
    else
      match leesOf s n with
      | [] => s
      | r :: rs =>
        match reclaimable s r with
        | none => s
        | some x => reclaimHead n want fuel { s with
            lees := smSet [] s.lees n rs, horizon := maxW s.horizon x,
            leesHead := smSet 0 s.leesHead n ((smGet 0 s.leesHead n + slotsOf r) % max 1 (slotsAll s)) }

/-- The pin with the lowest stamp, the first created among equals. -/
def oldestPin : List Pin → Option Pin
  | [] => none
  | p :: ps =>
    match oldestPin ps with
    | none => some p
    | some q => if q.stamp.toNat < p.stamp.toNat then some q else some p

/-- The owner field of a record for a launch (spec/25 R465). -/
def ownerOf (s : State) (launch : Nat) : Nat :=
  match tbGet s.launches launch with
  | none => 0
  | some l => l.ctx % 128 + 128 + l.queue * 256 + 32768 + l.tag * 65536

/-- Release the launch pin with the lowest stamp, with its record; where it was its launch's protection pin the launch has none from then
on (spec/21 R403 step 2, R404). -/
def releaseLaunchPin (s : State) : State :=
  match oldestPin s.lpins with
  | some p =>
    pushErr { s with lpins := s.lpins.filter (fun q => q.id != p.id),
                     launches := tbMod s.launches p.launch fun l => if l.pin = p.id then { l with pin := 0 } else l } ⟨0x08, 3, 0, 3, 0, 0, ownerOf s p.launch, 0, p.id⟩
  | none => s

/-- Release the generation pin with the lowest stamp, with its record (spec/21 R403 step 3, R404). -/
def releaseGenPin (s : State) : State :=
  match oldestPin s.gpins with
  | some p =>
    pushErr { s with gpins := s.gpins.filter (fun q => q.id != p.id) } ⟨0x08, 3, 0, 3, 0, 0, 0, 1, p.id⟩
  | none => s

/-- Whether `want` slots of a stack are free. -/
def slotsFree (s : State) (n want : Nat) : Bool := decide (want + slotsUsed s n ≤ slotsAll s)

/-- Step 1 of R403 until `want` slots are free. -/
def reclaimStep (s : State) (n want : Nat) : State := reclaimHead n want (leesOf s n).length s

/-- The steps of R403 until `want` slots are free, beginning again after step 3; `fuel` bounds the rounds. -/
def reclaim (n want : Nat) : Nat → State → State
  | 0, s => reclaimStep s n want
  | fuel + 1, s =>
    let s := reclaimStep s n want
    if slotsFree s n want || livePins s = [] then s
    else
      let s := reclaimStep (releaseLaunchPin s) n want
      if slotsFree s n want then s else reclaim n want fuel (releaseGenPin s)

/-- Append a record to a stack's lees; one that finds no free slot waits for R403 to free one. Pressure begins when fewer than 1/64
of the slots are free (spec/21 R399, R403, R404). -/
def appendLees (s : State) (n : Nat) (r : Lees) : State :=
  let s := if slotsUsed s n + slotsOf r ≤ slotsAll s then s
           else reclaim n (slotsOf r) ((livePins s).length + 1) s
  let s := writeSlots s n (smGet 0 s.leesHead n + slotsUsed s n) (slotsOf r)
  let s := { s with lees := smSet [] s.lees n (leesOf s n ++ [r]) }
  if (slotsAll s - slotsUsed s n) * 64 < slotsAll s then { s with press := setBit s.press n true } else s

/-! ### The write index (spec/21 R417) -/

/-- Whether an index slot of the launch has room, and the list with the entry counted. -/
def addIndexEntry (launch : Nat) : List Lees → Option (List Lees)
  | [] => none
  | .index l u :: rs =>
    if l = launch ∧ u < 5 then some (.index l (u + 1) :: rs) else (addIndexEntry launch rs).map (.index l u :: ·)
  | r :: rs => (addIndexEntry launch rs).map (r :: ·)

/-- Count an entry in the launch's index slots on stack `n`. -/
def noteIndex (s : State) (n launch : Nat) : State :=
  match addIndexEntry launch (leesOf s n) with
  | some rs => { s with lees := smSet [] s.lees n rs }
  | none => appendLees s n (.index launch 1)

/-- List a tracked sector in the write index of a protected launch, while its pin is held (spec/21 R417). -/
def indexSector (s : State) (launch sec : Nat) : State :=
  match tbGet s.launches launch with
  | some l =>
    if l.prot && (protPin s launch).isSome && !decide (sec ∈ l.wsectors) then
      noteIndex { s with launches := tbSet s.launches launch { l with wsectors := l.wsectors ++ [sec] } }
        (stackOf (sec * 64)) launch
    else s
  | none => s

/-- List an untracked block in the write index of a protected launch, while its pin is held (spec/21 R417). -/
def indexBlock (s : State) (launch blk : Nat) : State :=
  match tbGet s.launches launch with
  | some l =>
    if l.prot && (protPin s launch).isSome && !decide (blk ∈ l.wblocks) then
      noteIndex { s with launches := tbSet s.launches launch { l with wblocks := l.wblocks ++ [blk] } }
        (stackOf (blk * 4096)) launch
    else s
  | none => s

/-! ### Bytes -/

/-- The canonical form of memory: addresses strictly rising, no entry 0, which is what an unlisted byte reads as. -/
def Memory.wf (m : List Host.Cell) : Bool := smWf 0 m

/-- Read one byte; an unlisted byte reads as 0. -/
def memGet (s : State) (k : Nat) : Byte := smGet 0 s.mem k

/-- Write one byte. -/
def memSet (s : State) (k : Nat) (b : Byte) : State := { s with mem := smSet 0 s.mem k b }

/-- Read `n` bytes, lowest first. -/
def memRead (s : State) (k : Nat) : Nat → List Byte
  | 0 => []
  | n + 1 => memGet s k :: memRead s (k + 1) n

/-- Write bytes, lowest first. -/
def memWrite (s : State) (k : Nat) : List Byte → State
  | [] => s
  | b :: bs => memWrite (memSet s k b) (k + 1) bs

/-- Set the floor tags of `n` bytes (spec/19 R387). -/
def tagWrite (s : State) (k : Nat) (floor : W64) : Nat → State
  | 0 => s
  | n + 1 => tagWrite { s with tags := smSet 0 s.tags k floor } (k + 1) floor n

/-- The largest floor tag of `n` bytes. -/
def tagRead (s : State) (k : Nat) : Nat → W64
  | 0 => 0
  | n + 1 => maxW (smGet 0 s.tags k) (tagRead s (k + 1) n)

/-! ### Writes at the home (spec/21 R392, R399) -/

/-- StampAssign for a write of `data` at key `k` within one sector, with the write itself: the stamp, or none when the
clock cannot advance (spec/21 R392, R394, R397, R399, R417; spec/25 R454). -/
def stampAssign (s : State) (k : Nat) (data : List Byte) (floor : W64) (tag launch : Nat) (poison : Bool) :
    State × Option W64 :=
  let sec := sectorOf k
  let h := homeOf s k
  let l := max (clockOf s h) (logical floor) + 1
  if 2 ^ 54 - 1 < l then (s, none)
  else
    let s := setClock (correctSector s sec 3) h l
    let (old, oldTag) := stampAt s sec
    let st := mkStamp l h
    let s :=
      if leesOn s then
        appendLees (pcAsk s h 4) (stackOf k) (.version sec (memRead s (sec * 64) 64) old (min (l - logical old) (2 ^ 48 - 1)) oldTag
          (poisoned s sec))
      else { s with horizon := maxW s.horizon st }
    let s := { s with sectors := smSet (0, 0) s.sectors sec (st, tag), flips := smClear s.flips k (k + data.length) }
    let s := memWrite s k data
    let s := tagWrite s k floor data.length
    let s := if poison then setPoison s sec true
             else if data.length = 64 then setPoison s sec false else s
    (indexSector s launch sec, some st)

/-! ### Copy-on-write of untracked blocks (spec/21 R406) -/

/-- The listed bytes of a block. -/
def blockCells (s : State) (blk : Nat) : List Host.Cell :=
  s.mem.filter fun c => decide (blk * 4096 ≤ c.1 ∧ c.1 < blk * 4096 + 4096)

/-- Mark MIXED in the copy records of a block whose tag differs. -/
def markMixed (blk tag : Nat) : List Lees → List Lees
  | [] => []
  | .copy b d p x st t m po :: rs => .copy b d p x st t (m || (b == blk && t != tag)) po :: markMixed blk tag rs
  | r :: rs => r :: markMixed blk tag rs

/-- Write one dirty LLC sector back to its memory (spec/17 R351), a transfer of class 3 at its pseudo-channel (spec/17 R363). -/
def writeBack (s : State) (sec : Nat) : State :=
  if sec ∈ s.dirty then
    { s with dirty := s.dirty.filter (· != sec), flips := smClear s.flips (sec * 64) (sec * 64 + 64),
             pcq := s.pcq ++ [⟨homeOf s (sec * 64), 3, []⟩] }
  else s

/-- Sectors the LLC holds: 1 GiB of 64-byte sectors (spec/01 R16). -/
def llcRoom : Nat := 2 ^ 24

/-- Make room for a sector in the LLC: where it is full of dirty and CXL sectors, a free choice of the dirty ones is written back (spec/01
R16, spec/17 R351). The CXL lines alone, at most 4 Mi, never fill it (R362). -/
def llcEvict (s : State) : State :=
  if s.dirty.length + s.cxl.length < llcRoom then s else writeBack s ((pickOne s 12 s.dirty).getD 0)

/-- Note that the LLC holds a sector dirty. -/
def addDirty (s : State) (sec : Nat) : State :=
  if sec ∈ s.dirty then s
  else
    let s := llcEvict s
    { s with dirty := insertNew s.dirty sec }

/-- Write back the dirty LLC sectors of a block, and read the block through the correction stages (spec/21 R406). -/
def settleBlock (s : State) (blk : Nat) : State :=
  let s := (s.dirty.filter fun x => x / 64 == blk).foldl writeBack s
  ((s.flips.filter fun e => e.1 / 4096 == blk).map (·.1 / 64)).foldl (fun s x => correctSector s x 3) s

/-- What comes before a write to an untracked HBM block: the copy record, the MIXED marks, the write index
(spec/21 R406, R417). -/
def beforeUntracked (s : State) (k tag launch : Nat) : State :=
  let blk := k / 4096
  let prev := smGet 0 s.blocks blk
  let n := stackOf k
  let live := (livePins s).filter fun p => decide (prev < p.boundary ∧ p.boundary ≤ s.boundary)
  let s :=
    match live with
    | [] => s
    | p :: ps =>
      if leesOn s then
        let top := ps.foldl (fun (q r : Pin) => if q.boundary < r.boundary then r else q) p
        let s := settleBlock s blk
        appendLees (pcAsk s (homeOf s k) 4) n (.copy blk (blockCells s blk) prev s.boundary top.stamp tag false
          (s.poison.filter fun x => decide (x / 64 = blk)))
      else s
  let s := { s with blocks := smSet 0 s.blocks blk s.boundary,
                    lees := smSet [] s.lees n (markMixed blk tag (leesOf s n)) }
  indexBlock s launch blk

/-! ### As-of content (spec/21 R396, R407) -/

/-- The version record of a sector with the largest STAMP at or below `st`. -/
def versionAt (sec : Nat) (st : W64) : List Lees → Option (W64 × List Byte × Bool)
  | [] => none
  | .version x d t _ _ p :: rs =>
    let rest := versionAt sec st rs
    if x = sec ∧ t.toNat ≤ st.toNat then
      match rest with
      | some (u, e, q) => if t.toNat < u.toNat then some (u, e, q) else some (t, d, p)
      | none => some (t, d, p)
    else rest
  | _ :: rs => versionAt sec st rs

/-- AsOf for a tracked sector: its 64 bytes and whether they are poisoned (spec/21 R396). -/
def asOfSector (s : State) (sec : Nat) (st : W64) : List Byte × Bool :=
  if (stampAt s sec).1.toNat ≤ st.toNat then (memRead s (sec * 64) 64, poisoned s sec)
  else match versionAt sec st (leesOf s (stackOf (sec * 64))) with
    | some (_, d, p) => (d, p)
    | none => (List.replicate 64 0, false)

/-- The oldest copy record of a block taken after boundary `b`. -/
def copyAfter (blk b : Nat) : List Lees → Option (List Host.Cell × Bool × List Nat)
  | [] => none
  | .copy x d _ y _ _ m po :: rs => if x = blk ∧ b ≤ y then some (d, m, po) else copyAfter blk b rs
  | _ :: rs => copyAfter blk b rs

/-- The generation content of an untracked sector at boundary `b` (spec/21 R407). -/
def generationSector (s : State) (sec b : Nat) : List Byte × Bool :=
  match copyAfter (sec / 64) b (leesOf s (stackOf (sec * 64))) with
  | some (d, _, po) => ((List.range 64).map fun i => smGet 0 d (sec * 64 + i), decide (sec ∈ po))
  | none => (memRead s (sec * 64) 64, poisoned s sec)

/-- The launch pins reserved at admission whose stamp is not yet set (spec/21 R416). -/
def reservedPins (s : State) : List Nat :=
  s.launches.filterMap fun e => if e.2.prot && e.2.sl.isNone && e.2.pin != 0 then some e.2.pin else none

/-- Launch pins held or reserved. -/
def pinsHeld (s : State) : Nat := s.lpins.length + (reservedPins s).length

/-- The id of a launch pin: a free choice among the ids from 1 to 256 that no live pin has (spec/13 R297). -/
def freePinId (s : State) : Nat :=
  (pickOne s 11 ((List.range 256).filter fun i =>
    !(s.lpins.any fun p => p.id == i + 1) && !(reservedPins s).contains (i + 1))).getD 255 + 1

/-- Create a launch pin (spec/21 R297, R402): the id, 0 when refused. -/
def pinLaunch (s : State) (stamp : W64) (launch boundary : Nat) : State × Nat :=
  if !leesOn s || decide (stamp.toNat < s.horizon.toNat) || decide (256 ≤ pinsHeld s) then (s, 0)
  else
    let id := freePinId s
    ({ s with lpins := s.lpins ++ [⟨id, stamp, launch, boundary⟩] }, id)

/-- Create a generation pin (spec/21 R402, spec/13 R296): the id, 0 when refused. -/
def pinGeneration (s : State) (stamp : W64) (boundary : Nat) : State × Nat :=
  if !leesOn s || decide (stamp.toNat < s.horizon.toNat) || decide (8 ≤ s.gpins.length) then (s, 0)
  else ({ s with gpins := s.gpins ++ [⟨s.nextGen, stamp, 0, boundary⟩], nextGen := s.nextGen + 1 }, s.nextGen)

end Sys2Proof.Machine
end

