-- ==== Sys2Proof/Machine/Mem.lean ====
section
/-! DEFINITION. Coherent access to memory by physical key: correction and poison (spec/25 R453, R454), tracked writes
at their homes (spec/21 R392), reduction groups (spec/17 R359), recall of stash sectors (spec/17 R358), host-held and
CXL lines (spec/17 R362), the failure of writes (spec/25 R451). -/

namespace Sys2Proof.Machine

/-- Who writes: the writer tag and launch (spec/21 R400), the context, the floor (spec/21 R393), the operation, engine command or
port that the stamp returns to, the L1 line a store writes through (spec/17 R340), the partition key of the chunk's bytes a write-through is of
(spec/13 R274), and the entry a failure is reported by (spec/25 R451). -/
structure Writer where
  tag : Nat
  launch : Nat
  floor : W64
  op : Option Nat
  cmd : Option Nat
  port : Option Nat
  line : Option Nat
  chunk : Option Nat
  log : Option (Nat × LogEntry)
  deriving DecidableEq, Repr

/-- Change an operation in flight. -/
def modOp (s : State) (o : Nat) (f : Op → Op) : State := { s with ops := tbMod s.ops o f }

/-- Change an engine command. -/
def modCmd (s : State) (c : Nat) (f : Cmd → Cmd) : State := { s with cmds := tbMod s.cmds c f }

/-- A core's state. -/
def State.core (s : State) (c : Nat) : Core := smGet Core.zero s.cores c

/-- Change a core's state. -/
def modCore (s : State) (c : Nat) (f : Core → Core) : State :=
  { s with cores := smSet Core.zero s.cores c (f (s.core c)) }

/-- Change a crew. -/
def modCrew (s : State) (c : Nat) (f : Crew → Crew) : State := { s with crews := tbMod s.crews c f }

/-! ### Host and CXL lines (spec/17 R362) -/

/-- Recall a sector from the host's caches and from a core's atomic-ownership line before another access uses it (spec/17 R357, R360,
R362). -/
def backInvalidate (s : State) (sec : Nat) : State :=
  { s with hostHeld := s.hostHeld.filter (· != sec), owners := tbDel s.owners sec }

/-- The port a request for a sector of the CXL window goes through: one that is up, a free choice when both are. -/
def cxlPort (s : State) (sec : Nat) : Bool :=
  if s.readyIo.getLsbD 0 then (s.readyIo.getLsbD 1 && Config.freeBit s.free sec) else true

/-- The link a request for a key goes over: of a port that trains as two, the one that bit 8 of its address selects (spec/27 R470). -/
def linkOf (s : State) (k : Nat) : Nat :=
  if cxlPort s (sectorOf k) then 2 + (if s.host.bifur1 then k / 256 % 2 else 0)
  else if s.host.bifur0 then k / 256 % 2 else 0

/-- Whether the LLC holds a line of the CXL window. -/
def cxlHeld (s : State) (sec : Nat) : Bool := s.cxl.any fun l => l.key == sec

/-- Allocate or touch a line of the CXL window; the oldest beyond the bound of 4 Mi lines is evicted, and the LLC makes room (spec/01 R16). -/
def touchCxl (s : State) (sec : Nat) (dirty : Bool) : State :=
  if cxlHeld s sec then
    { s with cxl := s.cxl.map fun l => if l.key = sec then { l with dirty := l.dirty || dirty } else l }
  else
    let s := llcEvict s
    let l := s.cxl ++ [⟨sec, cxlPort s sec, dirty⟩]
    { s with cxl := if 2 ^ 22 < l.length then l.drop 1 else l }

/-! ### Stash sectors (spec/17 R358) -/

/-- The places where a filled chunk holds a sector: crew, window offset, chunk, sector within the chunk, and the key of its
partition bytes. -/
def stashPlaces (s : State) (sec : Nat) : List (Nat × Nat × Nat × Nat × Nat) :=
  s.crews.flatMap fun (cid, c) =>
    c.windows.flatMap fun w =>
      w.chunks.flatMap fun (i, ch) =>
        ((List.range 8).filter fun j => ch.keys.getD j 0 == sec).map fun j =>
          (cid, w.off, i, j, partKey cid (w.off + 512 * i + 64 * j))

/-- Whether a place is one of a filled chunk. -/
def placeOf (cid woff i : Nat) (p : Nat × Nat × Nat × Nat × Nat) : Bool := p.1 == cid && p.2.1 == woff && p.2.2.1 == i

/-- The private holder that answers further reads of a sector: the most recent reader among them, while it holds the sector
(spec/17 R357). -/
def answerer (s : State) (sec : Nat) : Option Holder :=
  match tbGet s.reader sec with
  | some (.chunk cid woff i) => if (stashPlaces s sec).any (placeOf cid woff i) then some (.chunk cid woff i) else none
  | some .host => if sec ∈ s.hostHeld then some .host else none
  | none => none

/-- Note that another agent has read a sector that stashes hold (spec/17 R358). -/
def markShared (s : State) (sec : Nat) : State :=
  { s with shared := if (stashPlaces s sec).isEmpty then s.shared else insertNew s.shared sec }

/-- Note the holder that has just read a sector: the sector is shared where another held it (spec/17 R357). -/
def noteReader (h : Holder) (s : State) (sec : Nat) : State :=
  { s with reader := tbSet s.reader sec h,
           shared := if (stashPlaces s sec).isEmpty && !decide (sec ∈ s.hostHeld) then s.shared.filter (· != sec)
                     else insertNew s.shared sec }

/-- Note that a stash, a sector's one holder, has written it (spec/17 R357). -/
def noteOwned (s : State) (sec : Nat) : State := { s with shared := s.shared.filter (· != sec) }

/-- Set the dirty bit of a sector of a chunk. -/
def setChunkDirty (s : State) (cid woff i j : Nat) (b : Bool) : State :=
  modCrew s cid fun c => { c with windows := c.windows.map fun w =>
    if w.off = woff then { w with chunks := tbMod w.chunks i fun ch => { ch with dirty := ch.dirty.set j b } } else w }

/-- Whether a sector of a chunk is dirty. -/
def chunkDirty (s : State) (cid woff i j : Nat) : Bool :=
  match tbGet s.crews cid with
  | none => false
  | some c => c.windows.any fun w => w.off == woff &&
      (match tbGet w.chunks i with | some ch => ch.dirty.getD j false | none => false)

/-- Whether a chunk's page is uncached at the LLC (spec/17 R343). -/
def chunkUnc (s : State) (cid woff i : Nat) : Bool :=
  match tbGet s.crews cid with
  | none => false
  | some c => c.windows.any fun w => w.off == woff && (match tbGet w.chunks i with | some ch => ch.unc | none => false)

/-- An access that is uncached at the LLC leaves no line there (spec/17 R343). -/
def uncache (s : State) (sec : Nat) : State :=
  let s := writeBack s sec
  { s with cxl := s.cxl.filter fun l => l.key != sec }

/-- A write to an untracked HBM or CXL location that is known to be performed (spec/21 R406; spec/25 R454). -/
def putUntracked (s : State) (k : Nat) (data : List Byte) (floor : W64) (tag launch : Nat) : State :=
  let sec := sectorOf k
  let s := if isHbm k then beforeUntracked s k tag launch else s
  let s := { s with flips := smClear s.flips k (k + data.length) }
  let s := tagWrite (memWrite s k data) k floor data.length
  let s := if data.length = 64 then setPoison s sec false else s
  if isHbm k then addDirty s sec else if isCxl k then touchCxl s sec true else s

/-- The launch and tag of a crew. -/
def crewTag (s : State) (cid : Nat) : Nat × Nat :=
  match tbGet s.crews cid with
  | none => (0, 0)
  | some c => (c.launch, match tbGet s.launches c.launch with | some l => l.tag | none => 0)

/-- The global address of sector `j` of chunk `i` of a crew's window. -/
def windowVa (s : State) (cid woff i j : Nat) : W64 :=
  match (tbGet s.crews cid).bind fun c => c.windows.find? fun w => w.off == woff with
  | some w => w.va + BitVec.ofNat 64 (512 * i + 64 * j)
  | none => 0

/-- Copy the floor tags of `n` bytes with the bytes (spec/19 R387). -/
def copyTags (s : State) (src dst : Nat) : Nat → State
  | 0 => s
  | n + 1 => copyTags { s with tags := smSet 0 s.tags dst (smGet 0 s.tags src) } (src + 1) (dst + 1) n

/-- Forward a written sector, as it stands, into every stash that holds it (spec/17 R358). -/
def forwardStash (s : State) (sec : Nat) : State :=
  (stashPlaces s sec).foldl (fun s p =>
    setPoison (copyTags (memWrite s p.2.2.2.2 (memRead s (sec * 64) 64)) (sec * 64) p.2.2.2.2 64) (sectorOf p.2.2.2.2)
      (poisoned s sec)) s

/-- The bytes of a chunk whose write-through to a sector is still on its way stand in the chunk as they were stored, whatever the home forwards
(spec/13 R274). -/
def keepQueued (s : State) (sec : Nat) : State :=
  let mine := s.homeq.filter fun w => sectorOf w.key == sec
  mine.foldl (fun s w => match w.chunk with
    | some k => if (stashPlaces s sec).any fun p => sectorOf p.2.2.2.2 == sectorOf k then tagWrite (memWrite s k w.data) k w.floor w.data.length else s
    | none => s) s

/-- Write a stash sector back to its home, and into the other stashes that hold it; poisoned bytes poison it (notes/assumptions/43.md). -/
def writeChunkBack (s : State) (sec key launch tag : Nat) (unc : Bool) : State :=
  let bad := poisoned s (sectorOf key)
  let s := copyTags (putUntracked s (sec * 64) (memRead s key 64) 0 tag launch) key (sec * 64) 64
  let s := forwardStash (if bad then setPoison s sec true else s) sec
  if unc then uncache s sec else s

/-- Write back one dirty stash sector and leave it filled and clean; where the write fails it is logged with the address of the
instruction that asked for it, 0 for a recall (spec/17 R358; spec/25 R451). -/
def recallOne (sec : Nat) (pc : W64) (s : State) (p : Nat × Nat × Nat × Nat × Nat) : State :=
  let (cid, woff, i, j, key) := p
  if chunkDirty s cid woff i j then
    let s := setChunkDirty s cid woff i j false
    let (launch, tag) := crewTag s cid
    let data := memRead s key 64
    if reachable s (sec * 64) then writeChunkBack s sec key launch tag (chunkUnc s cid woff i)
    else
      let ctx := match tbGet s.crews cid with | some c => c.ctx | none => 0
      { s with logq := s.logq ++ [(ctx, ⟨windowVa s cid woff i j, BitVec.ofNat 64 (leNat (data.take 8)), 0x10, 0xA9,
          0, 0, 0, pc⟩)] }
  else s

/-- Recall a sector from every stash that holds it dirty (spec/17 R358). -/
def recallStash (s : State) (sec : Nat) : State := (stashPlaces s sec).foldl (recallOne sec 0) s

/-! ### Tracked writes at the home (spec/21 R392) -/

/-- Bytes of 48 blocks of codes (spec/15 R327). -/
def codesLen (ty : Ty) : Nat := if ty = .t8 then 2304 else 1728

/-- The destination of a quantising store that an address lies in. -/
def quantDestOf (q : Quant) (a : W64) : Nat :=
  ((List.range 4).find? fun i => match q.dests.getD i none with
    | some d => decide (d.toNat ≤ a.toNat ∧ a.toNat < d.toNat + if i % 2 = 1 then 48 else codesLen q.ty)
    | none => false).getD 0

/-- Keep a log entry under a number, the one with the lowest address. -/
def lowestFail (m : Tab LogEntry) (i : Nat) (x : LogEntry) : Tab LogEntry :=
  match tbGet m i with
  | some y => if x.addr.toNat < y.addr.toNat then tbSet m i x else m
  | none => tbSet m i x

/-- What a failed write leaves with its command: the error that stops a copy, or an entry for the reduction-fault log (spec/15 R316,
R323, R328). -/
def cmdFail (c : Cmd) (x : LogEntry) : Cmd :=
  if c.recorded then { c with fails := lowestFail c.fails 4 x }
  else
    match c.kind with
    | .copy _ => { c with err := some (c.err.getD (x.code, x.addr)) }
    | .nmc _ => { c with err := some (match c.err with
        | some y => if x.addr.toNat < y.2.toNat then (x.code, x.addr) else y
        | none => (x.code, x.addr)) }
    | .quant q => { c with fails := lowestFail c.fails (quantDestOf q x.addr) x }
    | _ => { c with fails := lowestFail c.fails 0 x }

/-- A write of a command failed. -/
def failCmd (s : State) (id : Nat) (e : Option (Nat × LogEntry)) : State :=
  match e with
  | some x => modCmd s id fun c => cmdFail c x.2
  | none => s

/-- The L1 line a store wrote through, of the core and context of its operation: with the write's stamp beside it, or none where the write
failed (spec/13 R263, R265; spec/17 R339). A synonym's line stays as it is (R340). -/
def stampL1 (s : State) (w : HomeWrite) (r : Option W64) : State :=
  match w.op.bind (tbGet s.ops) with
  | none => s
  | some o =>
    let mine (x : L1Copy) : Bool := x.ctx == o.ctx && w.line == some x.va && x.phys == sectorOf w.key
    modCore s o.core fun c => { c with l1 := match r with
      | some st => c.l1.map fun x => if mine x then { x with stamp := st } else x
      | none => c.l1.filter fun x => !mine x }

/-- The near-memory commands a team issued after operation `o` learn a stamp it was given: their writes are ordered after it (spec/19
R385, R388). -/
def raiseLater (s : State) (o : Nat) (x : W64) : State :=
  match tbGet s.ops o with
  | none => s
  | some op => { s with cmds := s.cmds.map fun e =>
      if e.2.team == op.team && decide (o < e.1) && (match e.2.kind with | .nmc _ => true | _ => false) then
        (e.1, { e.2 with floor := maxW e.2.floor x })
      else e }

/-- Return a stamp, or a failure, to the operation of a write; what has none reports its failure with its command, or at once. -/
def returnOp (s : State) (w : HomeWrite) (r : Option W64) : State :=
  match w.op, w.cmd with
  | some o, _ => modOp (raiseLater s o (r.getD 0)) o fun op =>
      { op with homes := op.homes.filter (· != w.id), floor := maxW op.floor (r.getD 0),
                logs := if r.isNone then op.logs ++ (w.log.map (·.2)).toList else op.logs }
  | none, some c => if r.isNone then failCmd s c w.log else s
  | none, none => if r.isNone then { s with logq := s.logq ++ w.log.toList } else s

/-- Return a stamp to the command and to the port of a write. -/
def returnOthers (s : State) (w : HomeWrite) (fl : W64) : State :=
  let s := match w.cmd with
    | some c => modCmd s c fun c => { c with homes := c.homes.filter (· != w.id), bound := maxW c.bound fl }
    | none => s
  match w.port with
  | some p => { s with host := { s.host with floors := smSet 0 s.host.floors p (maxW (smGet 0 s.host.floors p) fl) } }
  | none => s

/-- Return a stamp, or a failure, to what waits for it. -/
def returnStamp (s : State) (w : HomeWrite) (r : Option W64) : State :=
  returnOthers (returnOp (stampL1 s w r) w r) w (r.getD 0)

/-- The first queued write of a home, and the rest of the queue. -/
def takeHome (home : Nat) : List HomeWrite → Option (HomeWrite × List HomeWrite)
  | [] => none
  | w :: ws => if w.home = home then some (w, ws) else (takeHome home ws).map fun (x, r) => (x, w :: r)

/-- Whether the writes of an operation take their place in the order S when they are performed (spec/19 R379). -/
def isScOp (s : State) (op : Option Nat) : Bool :=
  match op.bind (tbGet s.ops) with
  | some o => o.sc
  | none => false

/-- Whether a write takes its place in the order S when it is performed. -/
def isScWrite (s : State) (w : HomeWrite) : Bool := isScOp s w.op

/-- The floor a write of an operation carries at its home: a .sc write follows every .sc event before it in S (spec/19 R379, R388). -/
def orderFloor (s : State) (op : Option Nat) (floor : W64) : W64 := if isScOp s op then maxW floor s.scFloor else floor

/-- The floor a write carries at its home. -/
def homeFloor (s : State) (w : HomeWrite) : W64 := orderFloor s w.op w.floor

/-- Raise the floor of the order S to the stamp of a .sc write. -/
def noteSc (s : State) (w : HomeWrite) (x : W64) : State :=
  { s with scFloor := if isScWrite s w then maxW s.scFloor x else s.scFloor }

/-- The queue of the uncached writes that go over a link of a CXL port: a number that is no home's (spec/27 R473). -/
def linkQueue (link : Nat) : Nat := 768 + link

/-- An uncached write over a CXL link reaches the memory behind it (spec/17 R343). -/
def putThrough (s : State) (w : HomeWrite) : State :=
  let sec := sectorOf w.key
  uncache (forwardStash (putUntracked (backInvalidate s sec) w.key w.data w.floor w.tag w.launch) sec) sec

/-- The next tracked write reaches its home; one the home cannot stamp changes no byte (spec/21 R392; spec/25 R451; spec/13 R274). The next
uncached write on a CXL link reaches the memory behind it. -/
def homeStep (s : State) (home : Nat) : State :=
  match takeHome home s.homeq with
  | none => s
  | some (w, rest) =>
    let s := { s with homeq := rest }
    if isCxl w.key then (if reachable s w.key then returnStamp (putThrough s w) w (some 0) else returnStamp s w none)
    else if reachable s w.key then
      let (s, r) := stampAssign (backInvalidate s (sectorOf w.key)) w.key w.data (homeFloor s w) w.tag w.launch w.poison
      returnStamp (noteSc (if r.isSome then keepQueued (forwardStash s (sectorOf w.key)) (sectorOf w.key) else s) w (r.getD 0)) w r
    else returnStamp s w none

/-- Let queued writes reach their homes, each home's in order, until none that `p` selects is left. -/
def drainWrites (p : HomeWrite → Bool) : Nat → State → State
  | 0, s => s
  | fuel + 1, s =>
    match s.homeq.find? p with
    | some w => drainWrites p fuel (homeStep s w.home)
    | none => s

/-- Let the writes on their way to a sector reach it. -/
def drainSector (s : State) (sec : Nat) : State := drainWrites (fun w => sectorOf w.key == sec) s.homeq.length s

/-- Let the writes on their way to the home of a key reach it, so that what its clock allows next is known (spec/21 R394). -/
def drainHome (s : State) (k : Nat) : State := drainWrites (fun w => w.home == homeOf s k) s.homeq.length s

/-- Whether a stash that holds a sector in F answers its reads in place of the memory (spec/17 R357). -/
def answered (s : State) (sec : Nat) : Bool :=
  decide (sec ∈ s.shared) && (match answerer s sec with
    | some (.chunk cid woff i) => (stashPlaces s sec).any fun p =>
        placeOf cid woff i p && !poisoned s (sectorOf p.2.2.2.2) && !chunkDirty s cid woff i p.2.2.2.1
    | _ => false)

/-- Read a sector of HBM through the correction stages, where a read goes to HBM: no dirty LLC copy and no stash answers in its place
(spec/25 R453, spec/17 R351, R357). -/
def sense (s : State) (sec finder : Nat) : State :=
  if isHbm (sec * 64) && reachable s (sec * 64) && !decide (sec ∈ s.dirty) && !answered s sec then
    correctSector (match finderClass s finder with | some c => pcMiss s sec c | none => s) sec finder
  else s

/-! ### Reduction groups (spec/17 R359) -/

/-- Combine one core's partial into the sector. -/
def combinePart (ty : Ty) (op : AOp) (floor : W64) (k : Nat) (s : State) (p : Partial) : State :=
  p.vals.foldl (fun s (off, y) =>
    let n := atBytes ty
    let old := leNat (memRead s (k + off) n)
    tagWrite (memWrite s (k + off) (leBytes n (atomicF ty op old y))) (k + off)
      (maxW floor (tagRead s (k + off) n)) n) s

/-- Enter a core's partial, cores rising. -/
def insertPart (p : Partial) : List Partial → List Partial
  | [] => [p]
  | q :: qs => if p.core < q.core then p :: q :: qs else q :: insertPart p qs

/-- Recall a reduction group and combine it, or report that it cannot be combined (spec/17 R359). -/
def combineGroup (s : State) (sec : Nat) : State :=
  match tbGet s.groups sec with
  | none => s
  | some g =>
    let s := sense { s with groups := tbDel s.groups sec } sec 0
    let k := sec * 64
    if reachable s k && !poisoned s sec then
      let ids := g.members
      let s := ids.foldl (fun s (_, launch, tag) => if isHbm k then beforeUntracked s k tag launch else s) s
      let s := g.parts.foldl (combinePart g.ty g.op g.floor k) s
      let s := if isHbm k then addDirty s sec else touchCxl s sec true
      forwardStash s sec
    else
      let ctxs := g.members.foldl (fun l m => insertNew l m.1) ([] : List Nat)
      { s with logq := s.logq ++ ctxs.map fun c =>
          (c, ⟨BitVec.ofNat 64 k, 0, 0x10, 0xC2, g.ty.code, g.op.code, 0, 0⟩) }

/-! ### Coherent access -/

/-- The home's coherence state of a sector (spec/17 R357); `f` is S with one holder in F, which answers reads. -/
inductive DirState where
  | m | e | s | f | u | i
  deriving DecidableEq, Repr

/-- The state of a sector, told by its private holders: stash chunks, a core's atomic-ownership line, host caches, and the reduction lines of
a group (spec/17 R357, R358). R357's table has S for a sector that the home alone holds and I for one without a private holder; a sector
without one is always I here, so that a reduction may gather, a design choice (notes/assumptions/43.md). -/
def dirState (s : State) (sec : Nat) : DirState :=
  let chunks := stashPlaces s sec
  let dirty := (tbGet s.owners sec).isSome || chunks.any fun p => chunkDirty s p.1 p.2.1 p.2.2.1 p.2.2.2.1
  let holders := chunks.length + (if (tbGet s.owners sec).isSome then 1 else 0) + if sec ∈ s.hostHeld then 1 else 0
  if (tbGet s.groups sec).isSome then .u
  else if dirty then .m
  else if holders = 0 then .i
  else if holders = 1 ∧ sec ∉ s.shared then .e
  else if (answerer s sec).isSome then .f
  else .s

/-- What must have happened before a sector of HBM or of the CXL window is read or written by an agent: tracked writes on their
way have reached the home, a reduction group is combined, stash and host copies are recalled, flipped bits pass the
correction stages (spec/17 R358, R359, R362; spec/25 R453). -/
def settle (s : State) (sec finder : Nat) : State :=
  let k := sec * 64
  let s := sense s sec finder
  let s := if isHbm k || isCxl k then drainSector s sec else s
  let s := combineGroup s sec
  let s := recallStash s sec
  markShared (backInvalidate s sec) sec

/-- What must have happened before a stash itself reads or writes a sector it holds: tracked writes on their way have reached the home, a
reduction group is combined, and what other stash windows hold dirty is written back (spec/17 R358). -/
def settleChunk (s : State) (cid woff sec : Nat) : State :=
  let s := if isHbm (sec * 64) || isCxl (sec * 64) then drainSector s sec else s
  let s := combineGroup s sec
  let others := (stashPlaces s sec).filter fun p => !(p.1 == cid && p.2.1 == woff)
  let s := others.foldl (recallOne sec 0) s
  if others.isEmpty then s else markShared s sec

/-- Whether another stash window holds a sector too. -/
def sharedChunk (s : State) (cid woff sec : Nat) : Bool :=
  (stashPlaces s sec).any fun p => !(p.1 == cid && p.2.1 == woff)

/-- Whether a read of a sector fails: its memory is not reachable, or it is poisoned and no stash answers (spec/25 R451, R454;
spec/17 R357). -/
def readFails (s : State) (sec : Nat) : Bool := !reachable s (sec * 64) || (poisoned s sec && !answered s sec)

/-- A coherent read of `n` bytes within one sector: the bytes, the stamp of a tracked sector (0 otherwise), or none when it fails. -/
def readSector (s : State) (k n finder : Nat) : State × Option (List Byte × W64) :=
  let sec := sectorOf k
  let s := settle s sec finder
  let s := if isCxl k && reachable s k then touchCxl s sec false else s
  if readFails s sec then (s, none)
  else (s, some (memRead s k n, versionStamp s sec))

/-- The arbitration class of a tracked write (spec/17 R363): an engine command's is 5 for near-memory, a launch's is 2 where its
queue is IMMEDIATE, any other 3. -/
def writeClass (s : State) (w : Writer) : Nat :=
  match (w.cmd.bind fun c => tbGet s.cmds c).map fun (c : Cmd) => c.kind with
  | some (.nmc _) => 5
  | _ => demandClass s w.launch

/-- Queue a write at a home or a link; its operation or command waits for it. -/
def queueWrite (s : State) (home k : Nat) (data : List Byte) (w : Writer) (poison : Bool) : State :=
  let id := s.nextId
  let hw : HomeWrite := { id := id, home := home, key := k, data := data, poison := poison, floor := w.floor,
                          tag := w.tag, launch := w.launch, op := w.op, cmd := w.cmd, port := w.port, line := w.line,
                          chunk := w.chunk, log := w.log }
  let s := { s with homeq := s.homeq ++ [hw], nextId := id + 1 }
  let s := match w.op with | some o => modOp s o fun op => { op with homes := op.homes ++ [id] } | none => s
  match w.cmd with | some c => modCmd s c fun c => { c with homes := c.homes ++ [id] } | none => s

/-- Queue a tracked write for its home, and its transfer at the pseudo-channel. -/
def queueHome (s : State) (k : Nat) (data : List Byte) (w : Writer) (poison : Bool) : State :=
  queueWrite (pcAsk s (homeOf s k) (writeClass s w)) (homeOf s k) k data w poison

/-- A write that failed at the memory: reported with its operation's acknowledgement, or at once (spec/25 R451). -/
def failWrite (s : State) (w : Writer) : State :=
  match w.op, w.cmd with
  | some o, _ => modOp s o fun op => { op with logs := op.logs ++ (w.log.map (·.2)).toList }
  | none, some c => failCmd s c w.log
  | none, none => { s with logq := s.logq ++ w.log.toList }

/-- A coherent write within one sector of HBM or of the CXL window (spec/17 R351). -/
def writeSector (s : State) (k : Nat) (data : List Byte) (tracked : Bool) (w : Writer) : State :=
  let sec := sectorOf k
  let s := settle s sec 0
  if tracked then queueHome s k data w false
  else if reachable s k then forwardStash (putUntracked s k data w.floor w.tag w.launch) sec
  else failWrite s w

/-- A coherent write within one sector through a page that is uncached at the LLC: one to the CXL window is on its way over its link until it
reaches the memory (spec/17 R343, spec/27 R473). -/
def writeUnc (s : State) (k : Nat) (data : List Byte) (tracked : Bool) (w : Writer) : State :=
  if isCxl k && reachable s k then queueWrite (settle s (sectorOf k) 0) (linkQueue (linkOf s k)) k data w false
  else uncache (writeSector s k data tracked w) (sectorOf k)

/-- Split `data` at key `k` into pieces that each lie in one sector; `fuel` bounds the pieces. -/
def pieces (k : Nat) (data : List Byte) : Nat → List (Nat × List Byte)
  | 0 => []
  | fuel + 1 =>
    if data = [] then []
    else
      let n := 64 - k % 64
      (k, data.take n) :: pieces (k + n) (data.drop n) fuel

/-- The sectors of `n` bytes from `k`, with the offset and length of each piece. -/
def spans (k n : Nat) : Nat → List (Nat × Nat)
  | 0 => []
  | fuel + 1 =>
    if n = 0 then []
    else
      let m := min n (64 - k % 64)
      (k, m) :: spans (k + m) (n - m) fuel

/-- Write bytes at physical addresses, sector by sector; a byte at an unpopulated address is dropped. -/
def writePa (s : State) (pa : Nat) (data : List Byte) (w : Writer) : State :=
  (pieces pa data (data.length / 64 + 2)).foldl (fun s (a, d) =>
    match keyOfPa s a with
    | some k => writeSector s k d (trackedPa s a) w
    | none => s) s

/-- Whether `n` bytes at a physical address can be read or written now. -/
def paUsable (s : State) (pa n : Nat) : Bool :=
  (spans pa n (n / 64 + 2)).all fun (a, _) =>
    match keyOfPa s a with
    | some k => reachable s k
    | none => false

/-- Whether a home can stamp one more write (spec/21 R394). -/
def canStamp (s : State) (key : Nat) (floor : W64) : Bool :=
  decide (max (clockOf s (homeOf s key)) (logical floor) + 1 ≤ 2 ^ 54 - 1)

/-- Whether a write of `n` bytes at a physical address can be made now: its memory is reached, and the home of a tracked part can
stamp it (spec/25 R451). -/
def paWritable (s : State) (pa n : Nat) (floor : W64) : Bool :=
  paUsable s pa n && (spans pa n (n / 64 + 2)).all fun (a, _) =>
    match keyOfPa s a with
    | some k => !trackedPa s a || canStamp s k floor
    | none => false

/-- Read bytes at physical addresses; none where any part fails. -/
def readPa (s : State) (pa n finder : Nat) : State × Option (List Byte) :=
  (spans pa n (n / 64 + 2)).foldl (fun (s, r) (a, m) =>
    match r, keyOfPa s a with
    | some bs, some k =>
      match readSector s k m finder with
      | (s, some (d, _)) => (s, some (bs ++ d))
      | (s, none) => (s, none)
    | _, _ => (s, none)) (s, some [])

/-- The writer of the CP, the kiln and the reliability engine: tag 0, the largest home clock (spec/21 R393, R400). -/
def deviceWriter (s : State) : Writer :=
  { tag := 0, launch := 0, floor := mkStamp (maxClock s) 0, op := none, cmd := none, port := none, line := none, chunk := none,
    log := none }

/-- Let the writes on their way to the homes of the tracked parts of `n` bytes at a physical address reach them. -/
def drainPa (s : State) (pa n : Nat) : State :=
  (spans pa n (n / 64 + 2)).foldl (fun s (a, _) => match keyOfPa s a with
    | some k => if trackedPa s a then drainHome s k else s
    | none => s) s

/-- A write of the device at a physical address, where it can be made: none where it fails at the memory. -/
def devicePut (s : State) (pa : Nat) (data : List Byte) : Option State :=
  let s := drainPa s pa data.length
  if paWritable s pa data.length (deviceWriter s).floor then some (writePa s pa data (deviceWriter s)) else none

end Sys2Proof.Machine
end

