-- ==== Sys2Proof/Machine/Regs.lean ====
section
/-! DEFINITION. Teams and their registers: lookup, the views of spec/07 R171-R174, the hard-wired s0, k0 and c0, the
writes of an instruction, and pending destinations (spec/07 R151). -/

namespace Sys2Proof.Machine

/-- The team with an id. -/
def State.team (s : State) (tid : Nat) : Option Team := tbGet s.teams tid

/-- Change a team. -/
def modTeam (s : State) (tid : Nat) (f : Team → Team) : State := { s with teams := tbMod s.teams tid f }

/-- Put a team. -/
def setTeam (s : State) (tid : Nat) (t : Team) : State := { s with teams := tbSet s.teams tid t }

/-- The team whose word is being issued. -/
def State.curTeam (s : State) : Option (Nat × Team) :=
  match s.cur with
  | none => none
  | some tid => (s.team tid).map fun t => (tid, t)

/-- The team at a slot of a core. -/
def teamAt (s : State) (core slot : Nat) : Option (Nat × Team) :=
  s.teams.find? fun e => decide (e.2.place = some (core, slot))

/-- Change a context. -/
def modCtx (s : State) (c : Nat) (f : Context → Context) : State := { s with contexts := tbMod s.contexts c f }

/-- Change a launch. -/
def modLaunch (s : State) (l : Nat) (f : Launch → Launch) : State := { s with launches := tbMod s.launches l f }

/-- A queue's registers. -/
def State.queue (s : State) (q : Nat) : Queue := smGet Queue.zero s.queues q

/-- Change a queue's registers. -/
def modQueue (s : State) (q : Nat) (f : Queue → Queue) : State :=
  { s with queues := smSet Queue.zero s.queues q (f (s.queue q)) }

/-! ### Registers -/

/-- The key of element `l` of vector register `r`. -/
def vkey (r l : Nat) : Nat := r * 1024 + l

/-- S[n]; S[0] reads 0 (spec/07 R172). -/
def sget (t : Team) (n : Nat) : W64 := if n = 0 then 0 else smGet 0 t.s n

/-- Write S[n]; a write to S[0] is discarded (spec/07 R172). -/
def sput (t : Team) (n : Nat) (x : W64) : Team := if n = 0 then t else { t with s := smSet 0 t.s n x }

/-- V[r][l], one 32-bit element (spec/07 R172). -/
def vget (t : Team) (r l : Nat) : W32 := smGet 0 t.v (vkey r l)

/-- V[r][l] of a type: an element, or the pair r, r + 1 with the low word in r (spec/07 R172, spec/05 R106). -/
def vgetT (t : Team) (ty : Ty) (r l : Nat) : Nat :=
  if ty.is64 then (vget t r l).toNat + 2 ^ 32 * (vget t (r + 1) l).toNat else (vget t r l).toNat

/-- The mask with the lowest `n` bits set. -/
def laneMask (n : Nat) : Mask := BitVec.ofNat 1024 (2 ^ n - 1)

/-- Mask k[n]; k0 is the live-lane mask (spec/03 R49). -/
def kget (t : Team) (n : Nat) : Mask := if n = 0 then t.live else smGet 0 t.k n

/-- Write k[n]; k0 does not change, bits of lanes at or above L stay 0 (spec/03 R48, R49). -/
def kput (t : Team) (n : Nat) (m : Mask) : Team :=
  if n = 0 then t else { t with k := smSet 0 t.k n (m &&& laneMask t.lanes) }

/-- Condition flag c[n]; c0 reads true (spec/07 R174). -/
def cget (t : Team) (n : Nat) : Bool := if n = 0 then true else t.c.getLsbD n

/-- SetFlag, ClearFlag (spec/07 R174). -/
def cput (t : Team) (n : Nat) (b : Bool) : Team := if n = 0 ∨ 8 ≤ n then t else { t with c := setBit t.c n b }

/-- Active(k) (spec/07 R171). -/
def activeOf (m : Mask) (lanes : Nat) : List Nat := (List.range lanes).filter fun l => m.getLsbD l

/-- Active(k) for mask register `k` of a team. -/
def active (t : Team) (k : Nat) : List Nat := activeOf (kget t k) t.lanes

/-- The summary of a mask: bit w is set exactly when word w is not zero (spec/03 R48). -/
def summary (m : Mask) : BitVec 32 :=
  BitVec.ofNat 32 ((List.range 32).foldl (fun a w => a + (if m.toNat / 2 ^ (32 * w) % 2 ^ 32 = 0 then 0 else 2 ^ w)) 0)

/-- The mask of a list of lanes. -/
def maskOf (ls : List Nat) : Mask := BitVec.ofNat 1024 (ls.foldl (fun a l => a ||| 2 ^ l) 0)

/-- One register write of an instruction. -/
inductive Wr where
  /-- Element `l` of vector register `r`. -/
  | v (r l : Nat) (x : W32)
  /-- Scalar `n`. -/
  | s (n : Nat) (x : W64)
  /-- Mask `n`. -/
  | k (n : Nat) (x : Mask)
  /-- Condition flag `n`. -/
  | c (n : Nat) (b : Bool)
  deriving DecidableEq, Repr

/-- Perform one write. -/
def applyWr (t : Team) : Wr → Team
  | .v r l x => { t with v := smSet 0 t.v (vkey r l) x }
  | .s n x => sput t n x
  | .k n x => kput t n x
  | .c n b => cput t n b

/-- Perform writes in order. -/
def applyWrs (t : Team) (ws : List Wr) : Team := ws.foldl applyWr t

/-- The writes of a value of a type into lane `l` of register `r`: an element, extended for a narrow type, or a pair
(spec/05 R106). -/
def wrT (ty : Ty) (r l x : Nat) : List Wr :=
  if ty.is64 then [.v r l (BitVec.ofNat 32 x), .v (r + 1) l (BitVec.ofNat 32 (x / 2 ^ 32))]
  else
    match ty with
    | .i16 => [.v r l (BitVec.ofNat 32 (ofInt 32 (toSigned 16 x)))]
    | .i8 => [.v r l (BitVec.ofNat 32 (ofInt 32 (toSigned 8 x)))]
    | _ => [.v r l (BitVec.ofNat 32 x)]

/-! ### Pending destinations (spec/07 R151) -/

/-- The mark of the element a write names, as `Op.rewritten` numbers elements. -/
def wrMark : Wr → Option Nat
  | .v r l _ => some (4 * vkey r l)
  | .s n _ => some (4 * n + 1)
  | .c n _ => some (4 * n + 2)
  | .k _ _ => none

/-- The elements an operation's destination names; that of a queued ALDEC.wait has no value before it is served (spec/19 R381). -/
def destMarks (o : Op) : List Nat :=
  match o.kind with
  | .mx m => m.tiles.flatMap fun t =>
      ((List.range 32).filter fun i => t.act / 2 ^ i % 2 == 1).flatMap fun i =>
        (List.range (match m.kind with | .rsum => (if m.ty.is64 then 2 else 1) | _ => 32)).map fun j =>
          4 * vkey (m.c + j) (32 * t.word + i)
  | .aldecWait _ _ _ d _ _ _ => [4 * d + 2]
  | _ => o.dest.v.map (fun e => 4 * e.1) ++ o.dest.s.map (fun e => 4 * e.1 + 1) ++ o.dest.c.map (fun e => 4 * e.1 + 2)

/-- Operations of a team in flight. -/
def opsOf (s : State) (tid : Nat) : List (Nat × Op) := s.ops.filter fun e => e.2.team == tid

/-- Apply the elements of a pending destination that a reader finds written: each is a free choice. -/
def peek (s : State) (t : Team) (e : Nat × Op) : Team :=
  let o := e.2
  let pick (i : Nat) : Bool := Config.freeBit s.free (4 * (e.1 * 2 ^ 22 + i))
  let t := o.dest.v.foldl (fun t x => if pick (4 * x.1) then { t with v := smSet 0 t.v x.1 x.2 } else t) t
  let t := o.dest.s.foldl (fun t x =>
    let old := sget t x.1
    let lo := if pick (4 * x.1 + 1) then x.2.toNat % 2 ^ 32 else old.toNat % 2 ^ 32
    let hi := if pick (4 * x.1 + 2) then x.2.toNat / 2 ^ 32 else old.toNat / 2 ^ 32
    sput t x.1 (BitVec.ofNat 64 (lo + 2 ^ 32 * hi))) t
  o.dest.c.foldl (fun t x => if pick (4 * x.1 + 3) then cput t x.1 x.2 else t) t

/-- The team as its next instruction reads it: for each pending element, the value before the producer or the producer's result. The
destination of a matrix instruction is seen only when it completes (spec/15 R300). -/
def viewOf (s : State) (tid : Nat) (t : Team) : Team :=
  (opsOf s tid).foldl (peek s) t

/-- Note that the team's instruction wrote these elements again while they were pending. -/
def markRewritten (s : State) (tid : Nat) (ws : List Wr) : State :=
  let ms := ws.filterMap wrMark
  { s with ops := s.ops.map fun e =>
      if e.2.team = tid then
        (e.1, { e.2 with rewritten := (ms.filter fun m => decide (m ∈ destMarks e.2)).foldl insertNew e.2.rewritten })
      else e }

/-- Empty the reuse latch of the team's core where a write names a register of the latched A range (spec/15 R307). -/
def unlatch (s : State) (tid : Nat) (ws : List Wr) : State :=
  match s.team tid with
  | none => s
  | some t =>
    match (s.core t.home).latch with
    | none => s
    | some h =>
      if h.team = tid && (ws.any fun w => match w with
          | .v r _ _ => decide (h.a ≤ r ∧ r < h.a + Wf.nA h.ty)
          | _ => false) then
        modCore s t.home fun c => { c with latch := none }
      else s

/-- The register writes of an instruction of a team (spec/07 R151, spec/15 R307). -/
def writeRegs (s : State) (tid : Nat) (ws : List Wr) : State :=
  modTeam (unlatch (markRewritten s tid ws) tid ws) tid fun t => applyWrs t ws

/-- The writes of a destination. -/
def destWrs (d : Dest) : List Wr :=
  d.v.map (fun e => .v (e.1 / 1024) (e.1 % 1024) e.2) ++ d.s.map (fun e => .s e.1 e.2) ++ d.c.map fun e => .c e.1 e.2

/-- The register writes at the completion of an operation: an element written again since the issue ends holding one of the two values,
by 32-bit halves for a scalar, and an element pending in another operation too counts as written again (spec/07 R151); the reuse latch
over them is emptied (spec/15 R307). -/
def settleDest (s : State) (oid : Nat) (o : Op) (d : Dest) : State :=
  let keep (m : Nat) : Bool := decide (m ∈ o.rewritten) && Config.freeBit s.free (oid * 2 ^ 24 + m)
  let s := unlatch (markRewritten s o.team (destWrs d)) o.team (destWrs d)
  modTeam s o.team fun t =>
    let t := d.v.foldl (fun t x => if keep (4 * x.1) then t else { t with v := smSet 0 t.v x.1 x.2 }) t
    let t := d.s.foldl (fun t x =>
      let m := 4 * x.1 + 1
      if m ∈ o.rewritten then
        let old := sget t x.1
        let lo := if Config.freeBit s.free (oid * 2 ^ 24 + 8 * m) then old.toNat % 2 ^ 32 else x.2.toNat % 2 ^ 32
        let hi := if Config.freeBit s.free (oid * 2 ^ 24 + 8 * m + 1) then old.toNat / 2 ^ 32 else x.2.toNat / 2 ^ 32
        sput t x.1 (BitVec.ofNat 64 (lo + 2 ^ 32 * hi))
      else sput t x.1 x.2) t
    d.c.foldl (fun t x => if keep (4 * x.1 + 2) then t else cput t x.1 x.2) t

/-! ### Completion flags (spec/07 R147) -/

/-- The flags an FS field names through the bindings of the clause; none where it names a slot the header does not declare
(spec/07 R147, R148). -/
def slotFlags (t : Team) (fs : Nat) : Option (List Nat) :=
  if fs = 0 then some []
  else
    match t.clause with
    | none => none
    | some c =>
      let a := if fs % 2 = 1 then (match c.h.aflag with | some f => some [f] | none => none) else some []
      let b := if 2 ≤ fs then (match c.h.bflag with | some f => some [f] | none => none) else some []
      match a, b with
      | some x, some y => some (x ++ y)
      | _, _ => none

/-- The count of flag `f`. -/
def fget (t : Team) (f : Nat) : Nat := smGet 0 t.f f

/-- Count an issue on each flag. -/
def incFlags (t : Team) (fs : List Nat) : Team := fs.foldl (fun t f => { t with f := smSet 0 t.f f (fget t f + 1) }) t

/-- Count a completion on each flag. -/
def decFlags (t : Team) (fs : List Nat) : Team := fs.foldl (fun t f => { t with f := smSet 0 t.f f (fget t f - 1) }) t

/-! ### Floors (spec/13 R265, spec/19 R387) -/

/-- Raise a team's STAMPFLOOR. -/
def raiseFloor (t : Team) (x : W64) : Team := { t with floor := maxW t.floor x }

/-- The floor that what a team issues carries: its STAMPFLOOR, which an entry a PGMAP installed, once this step has translated through it, has
raised (spec/21 R393, spec/19 R371, R387). -/
def relFloor (s : State) (t : Team) : W64 := maxW t.floor s.xlFloor

/-- A team's .sc event takes the next place in the order S: it follows the writes that happen before the events already there, and they
precede what follows it (spec/19 R379, R388). The order takes in events that are not scope-matched too: a floor may be higher than an edge
asks. -/
def enterS (s : State) (tid : Nat) : State :=
  match s.team tid with
  | none => s
  | some t =>
    { modTeam s tid (fun t => raiseFloor t s.scFloor) with scFloor := maxW s.scFloor (relFloor s t) }

/-- A .sc read returned this stamp: what comes later in S follows its version (spec/19 R379, R388). -/
def noteScRead (s : State) (x : W64) : State := { s with scFloor := maxW s.scFloor x }

/-- The writer for a team's store of the operation `op`, its translation being an acquire (spec/21 R393, R400; spec/19 R387). -/
def teamWriter (s : State) (t : Team) (op : Option Nat) (log : Option LogEntry) : Writer :=
  { tag := match tbGet s.launches t.launch with | some l => l.tag | none => 0, launch := t.launch,
    floor := relFloor s t,
    op := op, cmd := none, port := none, line := none, chunk := none, log := log.map fun e => (t.ctx, e) }

/-- The number of code words an instruction takes (spec/07 R157). -/
def wordsOf (i : Instr) : Nat := match encode i with | some ⟨_, some _⟩ => 2 | _ => 1

end Sys2Proof.Machine
end

