-- ==== Sys2Proof/Machine/Xlate.lean ====
section
/-! DEFINITION. The apertures (spec/17 R336, R337), the page-table walk (R342-R344), the channel translation units
(R345-R348), the claim check (R350) and Translate (R353). -/

namespace Sys2Proof.Machine

/-! ### Apertures (spec/17 R336, spec/03 R59, R83) -/

/-- Where a generic address leads before translation. -/
inductive Loc where
  | part (crew off : Nat)
  | stk (off : Nat)
  | peer (id off : Nat)
  | glob (va : Nat)
  deriving DecidableEq, Repr

/-- First byte of the scratchpad window. -/
def scratchBase : Nat := 0xFFFFFFFF00000000
/-- First byte of the cluster window. -/
def clusterBase : Nat := 0xFFFFFFFE00000000
/-- First byte of the stack window. -/
def stackWinBase : Nat := 0xFFFFFFFD00000000
/-- First byte of the peer window. -/
def peerBase : Nat := 0xFE00000000000000
/-- One past the last byte of the peer window. -/
def peerEnd : Nat := 0xFF00000000000000
/-- One past the last byte of the global window. -/
def globEnd : Nat := 2 ^ 57

/-- The partition size of a crew; 0 where there is none (spec/03 R78, R82). What an access through the cluster window to the partition of a
sibling crew does that has retired and been freed (R86) while its cluster runs on is stated by no rule: it lies outside any partition and
raises APERTURE_BOUNDS, a design choice (notes/assumptions/43.md). -/
def partSizeOf (s : State) (cid : Nat) : Nat := match tbGet s.crews cid with | some c => c.partSize | none => 0

/-- The crews of the cluster a crew belongs to, by crew index (spec/03 R56). -/
def clusterCrews (s : State) (cid : Nat) : List Nat :=
  match tbGet s.crews cid with
  | none => []
  | some c => match tbGet s.clusters c.cluster with | some k => k.crews | none => [cid]

/-- Whether a peer id names another device of the scale-up domain (spec/17 R336). -/
def peerKnown (s : State) (id : Nat) : Bool :=
  s.host.peermap.getLsbD id && decide (id ≠ s.host.huanenid.toNat % 512)

/-- Steering of an access of `n` bytes: none raises APERTURE_BOUNDS (spec/17 R336). -/
def aperture (s : State) (t : Team) (a : W64) (n : Nat) : Option Loc :=
  let x := a.toNat
  let e := x + n
  if scratchBase ≤ x then
    (if x - scratchBase + n ≤ partSizeOf s t.crew then some (.part t.crew (x - scratchBase)) else none)
  else if clusterBase ≤ x then
    match (clusterCrews s t.crew)[(x - clusterBase) / 2 ^ 20]? with
    | none => none
    | some cid =>
      let off := (x - clusterBase) % 2 ^ 20
      if off + n ≤ partSizeOf s cid then some (.part cid off) else none
  else if stackWinBase ≤ x then (if e ≤ clusterBase then some (.stk (x - stackWinBase)) else none)
  else if peerBase ≤ x ∧ e ≤ peerEnd then
    (if peerKnown s ((x - peerBase) / 2 ^ 47) && decide (x % 2 ^ 47 + n ≤ 2 ^ 47) then
      some (.peer ((x - peerBase) / 2 ^ 47) (x % 2 ^ 47)) else none)
  else if e ≤ globEnd then some (.glob x)
  else none

/-! ### Page-table entries (spec/17 R342-R344) -/

/-- First VA bit a level indexes. -/
def levelShift : Nat → Nat
  | 0 => 16
  | 1 => 21
  | 2 => 30
  | 3 => 39
  | _ => 48

/-- Entries of a table at a level. -/
def levelEntries : Nat → Nat
  | 0 => 32
  | _ => 512

/-- P. -/
def pteP (e : Nat) : Bool := bitsOf e 63 1 == 1
/-- W. -/
def pteW (e : Nat) : Bool := bitsOf e 62 1 == 1
/-- T. -/
def pteT (e : Nat) : Bool := bitsOf e 61 1 == 1
/-- SIZE. -/
def pteSize (e : Nat) : Nat := bitsOf e 59 2
/-- CACHE. -/
def pteCache (e : Nat) : Nat := bitsOf e 57 2
/-- The table a pointer names. -/
def pteTable (e : Nat) : Nat := bitsOf e 8 44 * 256
/-- The frame a leaf names. -/
def pteFrame (e : Nat) : Nat := bitsOf e 16 36 * 65536

/-- Bytes of a page by SIZE: 64 KiB, 2 MiB, 1 GiB. -/
def sizeBytes : Nat → Nat
  | 1 => 65536
  | 2 => 2097152
  | 3 => 1073741824
  | _ => 0

/-- A legal pointer at a level (spec/17 R343). -/
def legalPtr (s : State) (l e : Nat) : Bool :=
  bitsOf e 0 8 == 0 && decide (l ≠ 0) && (l == 1 || bitsOf e 8 4 == 0) &&
    inOneWindow s (pteTable e) (if l = 1 then 256 else 4096)

/-- A legal leaf at a level (spec/17 R343). -/
def legalLeaf (l e : Nat) : Bool :=
  bitsOf e 0 8 == 0 && pteSize e == l + 1 && decide (l ≤ 2) && bitsOf e 8 8 == 0 && pteCache e != 3

/-- Where a walk ends: at an entry it cannot read, a not-present, an illegal entry, a pointer at the level asked for, or
a leaf; with the entry's level, physical address and value. -/
inductive WalkEnd where
  | unreadable (pa : Nat)
  | absent (l pa e : Nat)
  | illegal
  | pointer (pa e : Nat)
  | leaf (l pa e : Nat)
  deriving DecidableEq, Repr

/-- One level of the walk, and the levels below it; a pointer at level `stop` ends the walk. -/
def walkFrom (va stop : Nat) : Nat → Nat → State → State × WalkEnd
  | l, table, s =>
    let pa := table + 8 * (va / 2 ^ levelShift l % levelEntries l)
    match readPa s pa 8 0 with
    | (s, none) => (s, .unreadable pa)
    | (s, some bs) =>
      let e := leNat bs
      if !pteP e then (s, .absent l pa e)
      else if pteSize e = 0 then
        if !legalPtr s l e then (s, .illegal)
        else if l = stop then (s, .pointer pa e)
        else match l with
          | 0 => (s, .illegal)
          | m + 1 => walkFrom va stop m (pteTable e) s
      else if legalLeaf l e then (s, .leaf l pa e)
      else (s, .illegal)

/-- The walk of a context's page table down to level `stop` (spec/17 R342). -/
def walk (s : State) (ctx va stop : Nat) : State × WalkEnd :=
  walkFrom va stop 4 (match tbGet s.contexts ctx with | some c => c.ptroot | none => 0) s

/-! ### Translate (spec/17 R353) -/

/-- A failed check: its step of spec/17 R352 (5, 6, 71 to 78 for 7a to 7h), the code, the FAULTADDR of the lane, the
first byte of the page concerned, and the key of what could not be read. -/
structure XErr where
  step : Nat
  code : FCode
  addr : W64
  page : W64
  phys : Nat
  deriving DecidableEq, Repr

/-- A translation: the physical address and its key, the claim, CACHE, the page. -/
structure Xl where
  pa : Nat
  key : Nat
  tracked : Bool
  cache : Nat
  base : Nat
  size : Nat
  w : Bool
  deriving DecidableEq, Repr

/-- The hub of a core (spec/01 R13). -/
def hubOf (core : Nat) : Nat := core / 64

/-- The entries of a hub's CTU. -/
def ctuOf (s : State) (hub : Nat) : List Ctu := smGet [] s.ctu hub

/-- Whether an address lies in a locked range of a context. -/
def inLocked (s : State) (ctx va : Nat) : Bool :=
  match tbGet s.contexts ctx with
  | none => false
  | some c => c.locked.any fun r => decide (r.1 ≤ va ∧ va < r.1 + r.2)

/-- The entry of a CTU for an address, locked or ordinary. -/
def ctuFind (s : State) (hub ctx va : Nat) (locked : Bool) : Option Ctu :=
  (ctuOf s hub).find? fun e => e.ctx == ctx && e.locked == locked && decide (e.va ≤ va ∧ va < e.va + e.size)

/-- Put an entry into a CTU in place of those it overlaps of its kind. -/
def ctuFill (s : State) (hub : Nat) (e : Ctu) : State :=
  let rest := (ctuOf s hub).filter fun x => !(x.ctx == e.ctx && x.locked == e.locked &&
    decide (x.va < e.va + e.size ∧ e.va < x.va + x.size))
  { s with ctu := smSet [] s.ctu hub (rest ++ [e]) }

/-- Shoot down the translations of a range in every CTU (spec/17 R347). -/
def shootDown (s : State) (p : Ctu → Bool) : State :=
  let one (m : Tab (List Ctu)) (h : Nat) : Tab (List Ctu) := smSet [] m h ((smGet [] m h).filter fun e => !p e)
  { s with ctu := (List.range 4).foldl one s.ctu }

/-- Whether the frame-table bits of every granule of a frame are `t` (spec/17 R349, R350). -/
def granulesAre (s : State) (frame size : Nat) (t : Bool) : Bool :=
  let n := (s.tracked.filter fun g => decide (frame ≤ g ∧ g < frame + size)).length
  if t then n == size / 65536 else n == 0

/-- The checks of a leaf for an access at `va`: its legality, which a locked or cached entry is held to as well (spec/17 R343, R353), its frame
(spec/01 R30), W, the claim (spec/17 R350). What an access through a 2 MiB or 1
GiB leaf does whose frame is no multiple of the page size is stated by no rule (R30 says frames are aligned, spec/17 R343 does not call the entry
illegal): it fails as R30 does, with the page's first byte, a design choice (notes/assumptions/43.md). -/
def checkLeaf (s : State) (va : Nat) (write : Bool) (e : Nat) : Except XErr Xl :=
  let size := sizeBytes (pteSize e)
  let base := va / size * size
  let frame := pteFrame e
  let v := BitVec.ofNat 64 va
  let b := BitVec.ofNat 64 base
  let pa := frame + va % size
  if !legalLeaf (pteSize e - 1) e then
    let g := BitVec.ofNat 64 (va / 65536 * 65536)
    .error ⟨75, .pageProtection, v, g, 0⟩
  else if frame % size ≠ 0 || !inOneWindow s frame size then .error ⟨75, .pageProtection, b, b, 0⟩
  else if write && !pteW e then .error ⟨75, .pageProtection, v, b, 0⟩
  else
    match keyOfPa s pa with
    | none => .error ⟨75, .pageProtection, b, b, 0⟩
    | some k =>
      if (if isHbm k then !granulesAre s frame size (pteT e) else pteT e) then
        .error ⟨76, .trackingMismatch, v, b, 0⟩
      else .ok ⟨pa, k, pteT e, pteCache e, base, size, pteW e⟩

/-- The floor and time of the PGMAP that installed the entry at a physical address; 0 where none did (spec/19 R371, R387). -/
def pgTag (s : State) (pa e : Nat) : W64 × Nat :=
  match (keyOfPa s pa).bind (tbGet s.pgmaps) with
  | some (x, f) => if x = e then f else (0, 0)
  | none => (0, 0)

/-- Note that the step translated through an entry of a PGMAP with this floor and time: an acquire of .dev scope (spec/19 R371). -/
def noteXl (s : State) (f : W64) (since : Nat) : State :=
  { s with xlFloor := maxW s.xlFloor f, xlSince := max s.xlSince since }

/-- Translate (spec/17 R353); ordinary entries leave the CTU between cycles (R346). -/
def translate (s : State) (ctx hub va : Nat) (write : Bool) : State × Except XErr Xl :=
  let v := BitVec.ofNat 64 va
  let g := BitVec.ofNat 64 (va / 65536 * 65536)
  if inLocked s ctx va then
    match ctuFind s hub ctx va true with
    | none => (s, .error ⟨73, .lockedMiss, v, g, 0⟩)
    | some e => (noteXl s e.tag e.since, checkLeaf s va write e.pte)
  else
    match ctuFind s hub ctx va false with
    | some e => (noteXl s e.tag e.since, checkLeaf s va write e.pte)
    | none =>
      match walk s ctx va 0 with
      | (s, .unreadable pa) => (s, .error ⟨74, .dataUncorrectable, v, g, (keyOfPa s pa).getD 0⟩)
      | (s, .absent _ _ _) => (s, .error ⟨74, .pageNotPresent, v, g, 0⟩)
      | (s, .illegal) | (s, .pointer _ _) => (s, .error ⟨75, .pageProtection, v, g, 0⟩)
      | (s, .leaf _ pa e) =>
        let tag := pgTag s pa e
        match checkLeaf s va false e with
        | .error _ => (s, checkLeaf s va write e)
        | .ok x =>
          (ctuFill (noteXl s tag.1 tag.2) hub ⟨ctx, x.base, x.size, e, false, tag.1, tag.2⟩, checkLeaf s va write e)

end Sys2Proof.Machine
end

