-- ==== Sys2Proof/Machine/Err.lean ====
section
/-! DEFINITION. The reduction-fault log (spec/17 R361), the error ring (spec/25 R463-R465) and the MSI-X vectors
(spec/27 R475): what the queued entries and records of a step write at its end. -/

namespace Sys2Proof.Machine

/-- Codes of spec/25 R449. -/
def FCode.num : FCode → Nat
  | .illegalEncoding => 0x01 | .roleViolation => 0x02 | .privileged => 0x03 | .misaligned => 0x04
  | .apertureBounds => 0x05 | .pageNotPresent => 0x06 | .pageProtection => 0x07 | .trackingMismatch => 0x08
  | .lockedMiss => 0x09 | .historyReclaimed => 0x0A | .historyUnavailable => 0x0B | .stampRange => 0x0C
  | .matrixNotOwned => 0x0D | .queueMisuse => 0x0E | .allowanceInvalid => 0x0F | .dataUncorrectable => 0x10
  | .softwareTrap => 0x11 | .breakpoint => 0x12 | .watchpoint => 0x13 | .reductionLogHalt => 0x14
  | .engineDescriptor => 0x15 | .stackOverflow => 0x16

/-- Signal an MSI-X vector (spec/27 R475). -/
def signal (s : State) (v : Nat) : State := { s with host := { s.host with msix := s.host.msix ++ [v] } }

/-! ### The reduction-fault log -/

/-- The 32 bytes of a log entry (spec/17 R361). -/
def logBytes (e : LogEntry) : List Byte :=
  leBytes 8 e.addr.toNat ++ leBytes 8 e.operand.toNat ++
    leBytes 8 (e.code * 2 ^ 56 + e.opc * 2 ^ 48 + e.ty * 2 ^ 44 + e.op * 2 ^ 40 + e.lane % 256) ++ leBytes 8 e.pc.toNat

/-- Translate an address of the log in the context: the physical address, and whether the page is uncached at the LLC; none where it cannot be
reached (spec/17 R361, R343). -/
def logPa (s : State) (ctx va : Nat) (n : Nat) : State × Option (Nat × Bool) :=
  if va + n ≤ globEnd then
    match translate s ctx 0 va true with
    | (s, .ok x) => (s, if paUsable s x.pa n then some (x.pa, x.cache == 2) else none)
    | (s, .error _) => (s, none)
  else (s, none)

/-- Carry on with the sectors of `n` bytes at a physical address. -/
def eachSector (f : State → Nat → State) (s : State) (pa n : Nat) : State :=
  (spans pa n (n / 64 + 2)).foldl (fun s (a, _) => match keyOfPa s a with
    | some k => f s (sectorOf k)
    | none => s) s

/-- An access of `n` bytes at a physical address leaves no line in the LLC where its page is uncached there (spec/17 R343). -/
def uncachePa (s : State) (pa : Nat × Bool) (n : Nat) : State := if pa.2 then eachSector uncache s pa.1 n else s

/-- A write of the log, performed at once, so that a write that fails is known; none where it fails. -/
def logPut (s : State) (pa : Nat × Bool) (data : List Byte) : Option State :=
  (devicePut s pa.1 data).map fun s => uncachePa (eachSector drainSector s pa.1 data.length) pa data.length

/-- Append one entry to a context's log; an entry that cannot be written is lost, and COUNT and OVF stand where the header or the entry cannot
be written. The halt is armed in every case (spec/17 R361, spec/13 R289). -/
def appendLog (s : State) (ctx : Nat) (e : LogEntry) : State :=
  let s := modCtx s ctx fun c => { c with armed := true }
  match tbGet s.contexts ctx with
  | none => s
  | some c =>
    let base := c.redlogbase.toNat
    if base = 0 then s
    else
      match logPa s ctx base 16 with
      | (s, none) => s
      | (s, some h) =>
        match readPa s h.1 16 0 with
        | (s, none) => s
        | (s, some bs) =>
          let s := uncachePa s h 16
          let w0 := leNat (bs.take 8)
          let cap := leNat (bs.drop 8) % 2 ^ 32
          let count := w0 % 2 ^ 32
          if cap ≤ count then
            (logPut s h (leBytes 8 (if w0 < 2 ^ 63 then w0 + 2 ^ 63 else w0))).getD s
          else
            match logPa s ctx (base + 64 + 32 * count) 32 with
            | (s, none) => s
            | (s, some a) =>
              match logPut s a (logBytes e) with
              | none => s
              | some s => (logPut s h (leBytes 8 (w0 + 1))).getD s

/-- The entries of a list, in order. -/
def appendLogs (s : State) (l : List (Nat × LogEntry)) : State := l.foldl (fun s e => appendLog s e.1 e.2) s

/-! ### The error ring -/

/-- The 64 bytes of a record (spec/25 R465). -/
def errBytes (r : ErrRec) (seq : Nat) : List Byte :=
  leBytes 8 (r.cls % 256 * 2 ^ 56 + r.sev % 4 * 2 ^ 54 + r.code % 256 * 2 ^ 40 + r.unit % 256 * 2 ^ 32 +
      r.index % 65536 * 2 ^ 16) ++
    leBytes 8 seq ++ leBytes 8 r.addr ++ leBytes 8 r.owner ++ leBytes 8 r.aux0 ++ leBytes 8 r.aux1 ++
    List.replicate 16 0

/-- Change the error ring. -/
def modErr (s : State) (f : ErrRing → ErrRing) : State := { s with err := f s.err }

/-- A record dropped (spec/25 R464). -/
def dropRec (s : State) : State :=
  modErr s fun e => { e with seq := e.seq + 1, dropped := min (e.dropped + 1) (2 ^ 48 - 1) }

/-- Write one record, or drop it (spec/25 R464). While the reliability engine is not ready it handles none (spec/01 R20, R24). -/
def writeRec (s : State) (r : ErrRec) : State :=
  let s := if r.cls = 0x0A then signal s 1 else s
  let e := s.err
  let size := 2 ^ e.log2n
  let used := (e.tail + 2 ^ 32 - e.head) % 2 ^ 32
  let pa := e.base + 64 * (e.tail % size)
  if s.readyIo.getLsbD 20 = false then s
  else if !e.en then dropRec s
  else if r.sev = 0 && decide (size ≤ 2 * used) then s
  else if used = size then modErr (dropRec s) fun e => { e with overflow := true }
  else
    match devicePut s pa (errBytes r e.seq) with
    | none => dropRec s
    | some s =>
      let s := modErr s fun e => { e with seq := e.seq + 1, tail := (e.tail + 1) % 2 ^ 32 }
      if e.ie then signal s 0 else s

/-- Write the queued records; those that arise from these writes follow while `fuel` lasts. -/
def flushRecs : Nat → State → State
  | 0, s => s
  | fuel + 1, s =>
    match s.errq with
    | [] => s
    | q => flushRecs fuel (q.foldl writeRec { s with errq := [] })

/-- The end of every step: the queued log entries, then the queued records. -/
def finish (s : State) : State :=
  let s := match s.logq with
    | [] => s
    | q => appendLogs { s with logq := [] } q
  match s.errq with
  | [] => s
  | _ => flushRecs 4 s

end Sys2Proof.Machine
end

