-- ==== Sys2Proof/Machine/Operands.lean ====
section
/-! DEFINITION. What the checks of spec/03 R64 ask of an instruction before its own: its vector registers against N
(spec/07 R153), its place in the clause (spec/07 R140, R141), privilege, role by opcode (spec/03 R62), engine ownership;
and the operand forms of spec/09 R210 and spec/11 R225. -/

namespace Sys2Proof.Machine

/-- Registers a width occupies (spec/13 R258). -/
def widthRegs : Width → Nat
  | .b64 | .x2 => 2
  | .x4 => 4
  | _ => 1

/-- Bytes of a width (spec/13 R258). -/
def widthBytes : Width → Nat
  | .b8 => 1
  | .b16 => 2
  | .b32 => 4
  | .b64 | .x2 => 8
  | .x4 => 16

/-- Alignment of a width (spec/13 R258). -/
def widthAlign : Width → Nat := widthBytes

/-- Registers of one value of a type. -/
def tyRegs (t : Ty) : Nat := if t.is64 then 2 else 1

/-- The vector registers of operand b. -/
def vsrcRange (n : Nat) : VSrc → List (Nat × Nat)
  | .reg r => [(r, n)]
  | _ => []

/-- The vector registers of one slot. -/
def slotRange (x : Slot) : List (Nat × Nat) :=
  match x.op with
  | .nop => []
  | op => if Wf.slotScalar op then [] else [(x.d, 1), (x.s, 1)]

/-- The vector register ranges an instruction names: first register and count (spec/07 R153). -/
def vranges : Instr → List (Nat × Nat)
  | .getsys _ d sel => (match sel with | .faultaddr => [(d, 2)] | .laneid => [(d, 1)] | _ => [])
  | .kfromv _ _ a => [(a, 1)]
  | .ktov _ d _ => [(d, 1)]
  | .spawn _ a _ => [(a, 16)]
  | .vadd o | .vsub o | .vmul o | .vmulh o | .vdiv o | .vrem o | .vmin o | .vmax o | .vand o | .vor o | .vxor o
  | .vshl o | .vshr o | .vrot o | .vbfe o | .vadds o _ | .vaddc o _ | .vsel o _
  | .vfadd o _ | .vfsub o _ | .vfmul o _ | .vfdiv o _ _ | .vfmin o _ | .vfmax o _ | .vfcopysign o _ =>
    let n := tyRegs o.ty
    (o.d, n) :: (o.a, n) :: vsrcRange n o.b
  | .vmov o =>
    let n := tyRegs o.ty
    (o.d, n) :: (match o.b with | .reg _ => [(o.a, n)] | _ => [])
  | .vcmp o _ | .vfcmp o _ _ _ _ =>
    let n := tyRegs o.ty
    (o.a, n) :: vsrcRange n o.b
  | .vmad o | .vfma o | .vbfi o =>
    let n := tyRegs o.ty
    [(o.d, n), (o.a, n), (o.b, n), (o.c, n)]
  | .vabs o | .vneg o | .vnot o | .vpopc o | .vclz o | .vfsqrt o _ _ | .vfrsqs o | .vfrcps o | .vfabs o | .vfneg o
  | .vfrnd o _ _ | .vfexp2 o | .vflog2 o | .vfgetexp o | .vfgetman o | .vunpk o _ | .vscan o _ _ _ =>
    [(o.d, tyRegs o.ty), (o.a, tyRegs o.ty)]
  | .vlane _ d _ _ => [(d, 1)]
  | .vmulw o => (o.d, 2) :: (o.a, 1) :: vsrcRange 1 o.b
  | .vfclass o => [(o.d, 1), (o.a, tyRegs o.ty)]
  | .vfscale o _ => (o.d, tyRegs o.ty) :: (o.a, tyRegs o.ty) :: vsrcRange 1 o.b
  | .vcvt _ d a dst src _ => [(d, tyRegs dst), (a, tyRegs src)]
  | .vpack o _ | .vqnt o _ | .vdqnt o _ => (o.d, 1) :: (o.a, 1) :: vsrcRange 1 o.b
  | .vshfl o _ | .vxch o => (o.d, tyRegs o.ty) :: (o.a, tyRegs o.ty) :: vsrcRange 1 o.b
  | .vfold o _ _ => [(o.a, tyRegs o.ty)]
  | .vapnd _ d _ => [(d, 1)]
  | .vreadl _ _ a ty _ => [(a, tyRegs ty)]
  | .vwritel _ d _ ty _ => [(d, tyRegs ty)]
  | .ld o | .st o => (o.d, widthRegs o.width) :: (if o.nv then [] else [(o.b, 1)])
  | .ldasof o => (o.d, widthRegs o.width) :: (if o.nv then [] else [(o.b, 1)])
  | .ldpk _ _ d _ b nv _ t6 => (d, if t6 then 9 else 12) :: (if nv then [] else [(b, 1)])
  | .pref _ _ b nv _ _ => if nv then [] else [(b, 1)]
  | .atom o _ | .red o _ => [(o.d, tyRegs o.ty), (o.b, 1)]
  | .atcas o => [(o.d, 2 * tyRegs o.ty), (o.b, 1)]
  | .vatom o _ | .vred o _ => [(o.d, 8), (o.b, 1)]
  | .mxmma _ _ d a _ ty _ _ _ => [(d, 32), (a, Wf.nA ty)]
  | .mxsca _ _ d a b _ => [(d, 32), (a, 32), (b, 1)]
  | .mxperm _ _ d a b _ => [(d, 32), (a, 32), (b, 1)]
  | .mxtrn _ _ d a _ => [(d, 32), (a, 32)]
  | .mxrsum _ _ d a ty => [(d, tyRegs ty), (a, Wf.nA ty)]
  | .dualWord x y => slotRange x ++ slotRange y
  | _ => []

/-- Whether every vector register named lies below N (spec/07 R153). -/
def regsFit (i : Instr) (n : Nat) : Bool := (vranges i).all fun r => decide (r.1 + r.2 ≤ n)

/-- The instructions that must stand last in their clause (spec/07 R141). -/
def mustBeLast : Instr → Bool
  | .br _ | .brc .. | .brz .. | .call .. | .jmp .. | .loop .. | .exit _ | .rtt .. | .escalate .. => true
  | _ => false

/-- The flag slot field (spec/07 R148). -/
def fsOf : Instr → Nat
  | .vfdiv _ fs _ | .vfsqrt _ fs _ => fs
  | .ld o | .lds o => o.fs
  | .ldasof o | .ldasofs o => o.fs
  | .ldpk _ fs .. => fs
  | .atom o _ | .vatom o _ => o.fs
  | .atcas o => o.fs
  | .aldec _ fs .. | .alrd _ fs .. => fs
  | .stampget _ fs _ | .snap _ fs _ | .horizon _ fs _ => fs
  | .pin _ fs _ _ => fs
  | .mxmma _ fs .. | .mxsca _ fs .. | .mxperm _ fs .. | .mxtrn _ fs .. | .mxrsum _ fs .. => fs
  | .cpin o _ | .cpout o | .cppeer o => o.fs
  | .qst _ fs .. | .qstd _ fs .. | .qload _ fs .. | .qsave _ fs .. | .nmc _ fs .. => fs
  | _ => 0

/-- Whether the instruction stands where its clause allows: inside it, ending within it, last where it must be
(spec/07 R140, R141). -/
def inClause (i : Instr) (pc : W64) (c : Clause) : Bool :=
  let pos := (pc.toNat - c.addr.toNat) / 8
  let last := pos + wordsOf i - 1
  decide (last ≤ c.h.len) && (!mustBeLast i || last == c.h.len)

/-- Step 1 of R64: every encoding check that depends on the team. -/
def encodingOk (i : Instr) (t : Team) : Bool :=
  i.wf && regsFit i t.nregs &&
    (match t.clause with | some c => inClause i t.pc c | none => false) && (slotFlags t (fsOf i)).isSome

/-- The privileged instructions (spec/09 R199, R208; spec/13 R292). -/
def privileged : Instr → Bool
  | .rtt .. | .escalate .. | .pgmap .. | .pgunmap .. => true
  | .setsys _ _ sel => (match sel with | .handlerbase | .poolcounter | .redlogbase => true | _ => false)
  | _ => false

/-- Role codes (spec/03 R61). -/
def roleLoad : Nat := 0
/-- Role codes (spec/03 R61). -/
def roleStore : Nat := 1
/-- Role codes (spec/03 R61). -/
def roleMatrix : Nat := 2
/-- Role codes (spec/03 R61). -/
def roleVector : Nat := 3
/-- Role codes (spec/03 R61). -/
def roleGeneral : Nat := 4

/-- VECTOR and GENERAL. -/
def vecRole (r : Nat) : Bool := r == roleVector || r == roleGeneral

/-- Role by opcode of a slot (spec/11 R229). -/
def slotRole (r : Nat) (x : Slot) : Bool :=
  match x.op with
  | .vfadd | .vfsub | .vfmul | .vfmin | .vfmax | .vfabs | .vfneg => vecRole r
  | _ => true

/-- Step 3 of R64: whether a role may issue the instruction, its addresses apart (spec/03 R62). -/
def roleOk (i : Instr) (r : Nat) : Bool :=
  match i with
  | .mxacq _ | .mxrel _ | .mxmma .. | .mxsca .. | .mxperm .. | .mxtrn .. | .mxrsum .. =>
    r == roleMatrix || r == roleGeneral
  | .vfadd .. | .vfsub .. | .vfmul .. | .vfma .. | .vfdiv .. | .vfsqrt .. | .vfrsqs .. | .vfrcps .. | .vfmin ..
  | .vfmax .. | .vfabs .. | .vfneg .. | .vfcmp .. | .vfclass .. | .vfrnd .. | .vfscale .. | .vfexp2 .. | .vflog2 ..
  | .vfgetexp .. | .vfgetman .. | .vfcopysign .. | .vcvt .. | .vpack .. | .vunpk .. | .vqnt .. | .vdqnt ..
  | .vshfl .. | .vxch .. | .vfold .. | .vscan .. | .vapnd .. | .vreadl .. | .vwritel .. => vecRole r
  | .atom .. | .atcas .. | .red .. | .vatom .. | .vred .. | .alinit .. | .alrd .. | .alfree .. => vecRole r
  | .stashmap .. | .stashdrop .. | .cpin .. | .cppeer .. => r == roleLoad || r == roleGeneral
  | .cpout .. | .qst .. | .qstd .. | .qload .. | .qsave .. | .nmc .. => r == roleStore || r == roleGeneral
  | .dualWord x y => slotRole r x && slotRole r y
  | _ => true

/-- The instructions that need the matrix engine (spec/03 R74). -/
def needsMx : Instr → Bool
  | .mxrel _ | .mxmma .. | .mxsca .. | .mxperm .. | .mxtrn .. | .mxrsum .. => true
  | _ => false

/-! ### Operand forms -/

/-- Operand x of a scalar instruction (spec/09 R210). -/
def scalarX (t : Team) (o : SBin) : Nat := (sget t o.a).toNat % 2 ^ tyWidth o.ty

/-- Operand y of a scalar instruction: register, sign-extended immediate, or literal (spec/09 R194, R210). -/
def scalarY (t : Team) (w : Nat) : SSrc → Nat
  | .reg n => (sget t n).toNat % 2 ^ w
  | .imm v => ofInt w v.toInt
  | .lit v => v.toNat % 2 ^ w

/-- Write(r) of R210: whole, sign-extended for .i32, zero-extended for .n32 and .b32. -/
def scalarResult (ty : Ty) (r : Nat) : W64 :=
  match ty with
  | .i32 => BitVec.ofInt 64 (toSigned 32 r)
  | .n32 | .b32 => BitVec.ofNat 64 (r % 2 ^ 32)
  | _ => BitVec.ofNat 64 r

/-- Operand y of a vector instruction in lane `l`, as a pattern of the element or pair (spec/11 R225). -/
def vectorY (t : Team) (ty : Ty) (l : Nat) : VSrc → Nat
  | .reg r => vgetT t ty r l
  | .sb n => if ty.is64 then (sget t n).toNat else (sget t n).toNat % 2 ^ 32
  | .lit v => if ty.is64 then v.toNat else v.toNat % 2 ^ 32

/-- Operand b where it is one 32-bit register whatever the type (spec/11 R226). -/
def vectorY1 (t : Team) (l : Nat) : VSrc → Nat
  | .reg r => (vget t r l).toNat
  | .sb n => (sget t n).toNat % 2 ^ 32
  | .lit v => v.toNat % 2 ^ 32

/-- A count operand (spec/13 R284). -/
def countVal (t : Team) : LSrc → Nat
  | .reg n => (sget t n).toNat
  | .lit v => v.toNat

/-- The index operand of VREADL and VWRITEL; a 32-bit type takes bits [31:0] of a literal (spec/11 R250, spec/07 R154). -/
def indexVal (t : Team) (ty : Ty) : LSrc → Nat
  | .reg n => (sget t n).toNat
  | .lit v => if ty.is64 then v.toNat else v.toNat % 2 ^ 32

/-- The address of lane `l` of a vector memory instruction (spec/13 R257). -/
def laneAddr (t : Team) (a b : Nat) (nv u : Bool) (l : Nat) : W64 :=
  if nv then sget t a
  else if u then sget t a + BitVec.ofNat 64 (vget t b l).toNat
  else sget t a + BitVec.ofInt 64 (vget t b l).toInt

end Sys2Proof.Machine
end

