-- ==== Sys2Proof/Machine/Flags.lean ====
section
/-! DEFINITION. The flags: FPFLAGS and FPMODE (spec/05 R109, R112), condition flags (spec/07 R174), the relations and
mask tests that set them (spec/09 R212, R214), masks and their summaries (spec/03 R48, R50). -/

namespace Sys2Proof.Machine

/-- The rounding mode FPMODE selects (spec/05 R109). -/
def rmOf (m : BitVec 2) : Rm := Rm.ofCode m.toNat

/-- Merge exceptions into FPFLAGS (spec/05 R112). -/
def mergeFp (t : Team) (ex : BitVec 5) : Team := { t with fpflags := t.fpflags ||| ex }

/-- The union of the exceptions of several elements. -/
def unionEx (l : List (BitVec 5)) : BitVec 5 := l.foldl (· ||| ·) 0

/-- KTEST (spec/09 R214). -/
def ktestHolds (t : Team) (m : KMode) (k : Mask) : Bool :=
  match m with
  | .any => decide (k ≠ 0)
  | .all => decide (k &&& t.live = t.live)
  | .none => decide (k = 0)

/-- NOT of a mask in the lanes below L (spec/09 R213). -/
def knotOf (t : Team) (m : Mask) : Mask := ~~~ m &&& laneMask t.lanes

/-- Word `i` of a mask. -/
def maskWord (m : Mask) (i : Nat) : Nat := m.toNat / 2 ^ (32 * i) % 2 ^ 32

/-- A mask with word `i` replaced (spec/09 R215). -/
def setMaskWord (m : Mask) (i w : Nat) : Mask :=
  BitVec.ofNat 1024 (m.toNat - maskWord m i * 2 ^ (32 * i) + w % 2 ^ 32 * 2 ^ (32 * i))

/-- The least set bit of a mask (spec/09 R213 KFIRST). -/
def kfirstOf (m : Mask) : W64 :=
  match (List.range 1024).find? fun l => m.getLsbD l with
  | some l => BitVec.ofNat 64 l
  | none => BitVec.ofNat 64 (2 ^ 64 - 1)

end Sys2Proof.Machine
end

