-- ==== Sys2Proof/Machine/Ops.lean ====
section
/-! DEFINITION. The shared operations of a team's instructions: fetching a code word (spec/17 R354), taking a fault
(spec/09 R204, spec/25 R457, R459, R486), returning from one (R206, R207), moving to the next instruction (spec/07 R140,
R146), the checks before an instruction (spec/03 R64) and the start of a long-latency operation (spec/07 R147). -/

namespace Sys2Proof.Machine

/-- A fault to be taken: its code, TCODE, lanes, addresses of the lanes, the words decoded for the instruction, and the
key of the failing sector, or of the code word, where there is one (spec/09 R204, R206; spec/25 R457). -/
structure Flt where
  code : FCode
  tcode : Nat
  mask : Mask
  addrs : Tab W64
  words : Nat
  phys : Nat
  deriving DecidableEq, Repr

/-- What an instruction does. -/
inductive Act where
  /-- Completed; the team goes on with the next word. -/
  | go (s : State)
  /-- A taken transfer. -/
  | jump (s : State) (target : W64)
  /-- Completed; the meaning has placed the team itself. -/
  | placed (s : State)
  /-- A fault. -/
  | fault (s : State) (f : Flt)
  /-- Issued; the team goes on with the next word once operation `op` releases it. -/
  | hold (s : State) (op : Nat)
  /-- Not issued, or issued and waiting: the team stays at the instruction. -/
  | wait (s : State) (w : Wait)

/-- A fault without addresses in the lanes of a mask. -/
def fltMask (code : FCode) (m : Mask) : Flt := ⟨code, 0, m, [], 1, 0⟩

/-- A fault of a team-level instruction: the live-lane mask (spec/09 R204). -/
def fltTeam (t : Team) (code : FCode) : Flt := fltMask code t.live

/-- The lanes of a mask, each with the address `a`. -/
def sameAddr (m : Mask) (a : W64) : Tab W64 :=
  ((List.range 1024).filter fun l => m.getLsbD l).foldl (fun x l => smSet 0 x l a) []

/-- A fault with one address in every lane of its mask. -/
def fltAt (code : FCode) (m : Mask) (a : W64) (phys : Nat) : Flt := ⟨code, 0, m, sameAddr m a, 1, phys / 64 * 64⟩

/-! ### Fetch (spec/17 R354) -/

/-- The hub and context of a team. -/
def teamHub (t : Team) : Nat := hubOf t.home

/-- The word an issue decodes: what memory holds, or where that differs, by a free choice, what it held when the launch's code was
fetched early (spec/07 R170, notes/assumptions/32.md). -/
def decodedWord (s : State) (t : Team) (key w : Nat) : Nat :=
  match tbGet s.launches t.launch with
  | none => w
  | some l =>
    let old := leNat ((List.range 8).map fun i => smGet 0 l.code (key + i))
    if old = w then w else if Config.freeBit s.free (2 ^ 91 + key) then old else w

/-- Read the code word at `va`: its bits, or the fault it meets; the CACHE field of its page has no effect (spec/17 R354). An address that is no multiple of 8, which only a HANDLERBASE can give, raises
MISALIGNED: R141 has it for a transferring instruction, R204 and R354 name no fault, a design choice (notes/assumptions/43.md). -/
def fetchWord (s : State) (t : Team) (va : W64) : State × Except (FCode × Nat) Nat :=
  let x := va.toNat
  if x % 8 ≠ 0 then (s, .error (.misaligned, 0))
  else if globEnd < x + 8 then (s, .error (.apertureBounds, 0))
  else
    match translate s t.ctx (teamHub t) x false with
    | (s, .error e) => (s, .error (e.code, e.phys / 64 * 64))
    | (s, .ok l) =>
      match readSector s l.key 8 0 with
      | (s, none) => (s, .error (.dataUncorrectable, l.key))
      | (s, some (bs, _)) => (s, .ok (decodedWord s t l.key (leNat bs)))

/-- The fault of a word that could not be fetched (spec/17 R354). -/
def fltFetch (t : Team) (e : FCode × Nat) (va : W64) (words : Nat) : Flt :=
  ⟨e.1, 0, t.live, sameAddr t.live va, words, e.2⟩

/-! ### Taking a fault -/

/-- The slot of a team; 0 where it has none. -/
def slotNum (t : Team) : Nat := match t.place with | some p => p.2 | none => 0

/-- OWNER of a record about a team (spec/25 R465). -/
def teamOwner (s : State) (t : Team) : Nat := ownerOf s t.launch + slotNum t * 2 ^ 32

/-- The core a partition block lies on: that of its crew, or where the crew is gone the team's own. -/
def partCore (s : State) (t : Team) (key : Nat) : Nat :=
  match tbGet s.crews ((key - 2 ^ 64) / 2 ^ 20) with
  | some c => c.core
  | none => t.home

/-- The record of a consumption: the failing sector or code word `key`, 0 for none, in a partition above 2^64; AUX1 is the stamp of the version read
(spec/25 R457, R466). -/
def consumeRec (s : State) (t : Team) (key : Nat) : ErrRec :=
  if isStk key then ⟨0x02, 2, 0x10, 2, homeOf s key, 0, teamOwner s t, 0, 0⟩
  else if 2 ^ 64 ≤ key then ⟨0x04, 2, 0x10, 0, partCore s t key, 0, teamOwner s t, 1, 0⟩
  else if isHbm key then
    ⟨0x02, 2, 0x10, 2, homeOf s key, recAddr s key, teamOwner s t, 0,
      (t.faultStamp.getD (versionStamp s (sectorOf key))).toNat⟩
  else ⟨0x02, 2, 0x10, 2, 0, recAddr s key, teamOwner s t, 0, 0⟩

/-- Park a team with a reason word; with FAULTCODE DATA_UNCORRECTABLE its launch consumes the error instead
(spec/09 R207, spec/25 R457). -/
def park (s : State) (tid : Nat) (reason : W64) : State :=
  match s.team tid with
  | none => s
  | some t =>
    let s := modTeam s tid fun t => { t with parked := some reason }
    if t.faultcode.toNat % 256 = 0x10 then
      modLaunch s t.launch fun l => if l.dying.isSome then l else { l with dying := some (consumeRec s t t.faultPhys) }
    else
      pushErr s ⟨0x0A, 3, t.faultcode.toNat % 256, 0, t.home, 0, teamOwner s t, t.faultpc.toNat, reason.toNat⟩

/-- The COUNT of a context's log, 0 where it cannot be read (spec/25 R466). -/
def logCount (s : State) (ctx : Nat) (base : W64) : Nat :=
  match logPa s ctx base.toNat 8 with
  | (s, some pa) => match readPa s pa.1 8 0 with | (_, some bs) => leNat bs % 2 ^ 32 | _ => 0
  | _ => 0

/-- The fault registers at a fault (spec/09 R204). A team still at the wait mask of a clause is at its header. -/
def setFaultRegs (t : Team) (f : Flt) (pc : W64) (late : Bool) : Team :=
  let (rpc, hdr) := match t.clause with
    | none => (t.pc, t.pc)
    | some c => if c.waiting then (c.addr, c.addr) else (t.pc, c.addr)
  { t with
    faultcode := BitVec.ofNat 64 (f.code.num + f.tcode * 256), faultpc := pc, faultmask := f.mask,
    faultaddr := f.addrs.filter (fun e => f.mask.getLsbD e.1),
    resumepc := if late then rpc else pc, resumeHdr := if late then hdr else (if t.clause.isNone then pc else hdr),
    faultLate := late, faultAtHeader := !late && t.clause.isNone, faultWords := f.words, faultPhys := f.phys,
    faultStamp := if late then t.faultStamp else none, wait := .none }

/-- EnterHandler (spec/09 R204), with the halt of spec/25 R459 for REDUCTION_LOG_HALT. -/
def enterHandler (s : State) (tid : Nat) (f : Flt) (pc : W64) (late : Bool) : State :=
  match s.team tid with
  | none => s
  | some t =>
    let t' := setFaultRegs t f pc late
    let ctx := tbGet s.contexts t.ctx
    let base := match ctx with | some c => c.handlerbase | none => 0
    match f.code with
    | .reductionLogHalt =>
      let s := setTeam s tid { t' with parked := some 0, logHalt := true }
      let log := match ctx with | some c => c.redlogbase | none => 0
      let s := modCtx s t.ctx fun c => 
        if c.halted.isSome then c else { c with armed := false, halted := some tid, haltCycle := s.cycle }
      if (match ctx with | some c => c.halted.isNone | none => false) then
        pushErr s ⟨0x0B, 3, 0x14, 0, t.home, 0, teamOwner s t, log.toNat, logCount s t.ctx log⟩
      else s
    | _ =>
      if t.priv || !t.hwin || decide (base = 0) then park (setTeam s tid t') tid 0
      else
        setTeam s tid (kput { t' with shadow := kget t 15, priv := true, pc := base, clause := none } 15 f.mask)

/-! ### Leaving the handler -/

/-- Resume inside the clause whose header stands at `hdr`, at `pc`. Where `pc` lies past its last word the next header follows the clause, if
the resumption skips; without skip the instruction at `pc` belongs to no clause and raises ILLEGAL_ENCODING (spec/09 R206; spec/07 R145, R168,
R170). -/
def resumeInside (s : State) (tid : Nat) (hdr pc : W64) (skip : Bool) : State :=
  match s.team tid with
  | none => s
  | some t =>
    let atHdr (s : State) : State := modTeam s tid fun t => { t with pc := hdr, clause := none }
    match fetchWord s t hdr with
    | (s, .error e) => enterHandler (atHdr s) tid (fltFetch t e hdr 1) hdr false
    | (s, .ok w) =>
      match decodeHeader w with
      | .error _ => enterHandler (atHdr s) tid (fltTeam t .illegalEncoding) hdr false
      | .ok h =>
        if (pc.toNat - hdr.toNat) / 8 ≤ h.len then
          modTeam s tid fun t => { t with pc := pc, clause := some ⟨hdr, h, false⟩ }
        else if skip then modTeam s tid fun t => { t with pc := hdr + BitVec.ofNat 64 (8 * (h.len + 1)), clause := none }
        else
          enterHandler (modTeam s tid fun t => { t with pc := pc, clause := some ⟨hdr, h, false⟩ }) tid
            (fltTeam t .illegalEncoding) pc false

/-- RTT, and the resumption of a parked team (spec/09 R206, R207): k15 is restored from the shadow in each case, also where the team was
parked without entering the handler and the shadow is an older one (notes/assumptions/16.md). -/
def leaveHandler (s : State) (tid : Nat) (skip : Bool) : State :=
  match s.team tid with
  | none => s
  | some t =>
    let s := modTeam s tid fun t =>
      { kput t 15 t.shadow with priv := false, parked := none, logHalt := false, wait := .none }
    let skipping := skip && !t.faultLate
    let pc := if skipping then t.faultpc + BitVec.ofNat 64 (8 * (if t.faultAtHeader then 1 else t.faultWords))
              else t.resumepc
    if (if skipping then t.faultAtHeader else decide (t.resumeHdr = t.resumepc)) then
      modTeam s tid fun t => { t with pc := pc, clause := none }
    else resumeInside s tid t.resumeHdr pc skipping

/-! ### The next instruction -/

/-- A debugger's step at an instruction boundary (spec/23 R447). -/
def dbgBoundary (t : Team) : Team :=
  match t.dbg with
  | .none => t
  | .instruction => { t with dbg := .none, halted := true }
  | .clause => if t.clause.isNone then { t with dbg := .none, halted := true } else t

/-- Drop the lines of a team's core and context that were filled before the PGMAPs whose entries the step translated through, an acquire of
.dev scope (spec/19 R371, spec/13 R264). -/
def dropOlder (s : State) (tid : Nat) : State :=
  if s.xlSince = 0 then s
  else
    match s.team tid with
    | none => s
    | some t => modCore s t.home fun c => { c with l1 := c.l1.filter fun x => !(x.ctx == t.ctx && decide (x.born < s.xlSince)) }

/-- The acquire from the entries a team's instruction translated through, whether it ends or waits: older lines go, STAMPFLOOR rises
(spec/19 R371, R376, R387). -/
def acquireXl (s : State) (tid : Nat) : State :=
  modTeam { dropOlder s tid with xlFloor := 0, xlSince := 0 } tid fun t => raiseFloor t s.xlFloor

/-- What happens at an instruction boundary: the acquire from the entries the instruction translated through, and the debugger's steps
(spec/23 R447). -/
def boundary (s : State) (tid : Nat) : State := modTeam (acquireXl s tid) tid dbgBoundary

/-- The team after an instruction of `n` words: the next one, or the header after the clause (spec/07 R140, R146). -/
def nextTeam (t : Team) (n : Nat) : Team :=
  let pc := t.pc + BitVec.ofNat 64 (8 * n)
  match t.clause with
  | none => { t with pc := pc, wait := .none }
  | some c =>
    if (t.pc.toNat - c.addr.toNat) / 8 + n ≤ c.h.len then { t with pc := pc, wait := .none }
    else { t with pc := pc, wait := .none, clause := none, notNext := t.notNext || c.h.yh }

/-- Move a team past an instruction of `n` words. -/
def advance (s : State) (tid n : Nat) : State := boundary (modTeam s tid fun t => nextTeam t n) tid

/-- Enter the header at `target` (spec/07 R144, R146). -/
def transfer (s : State) (tid : Nat) (target : W64) : State :=
  boundary (modTeam s tid fun t => { t with pc := target, clause := none, wait := .none }) tid

/-- Carry out what an instruction of `n` words of team `tid` at `pc` does; `s0` is the state before it. -/
def applyAct (s0 : State) (tid n : Nat) (t : Team) : Act → State
  | .go s => finish (advance s tid n)
  | .jump s target =>
    if target.toNat % 8 = 0 then finish (transfer s tid target)
    else finish (boundary (enterHandler s0 tid { fltTeam t .misaligned with words := n } t.pc false) tid)
  | .placed s => finish (boundary s tid)
  | .fault s f => finish (boundary (enterHandler s tid { f with words := n } t.pc false) tid)
  | .hold s op => finish (modTeam (advance s tid n) tid fun t => { t with wait := .hold op })
  | .wait s w => finish (modTeam (acquireXl s tid) tid fun t => { t with wait := w })

/-! ### The checks before an instruction -/

/-- Whether counting the flags of a slot field would pass 63 (spec/07 R147); the flag that would. -/
def flagFull (t : Team) (fs : Nat) : Option Nat :=
  match slotFlags t fs with
  | some l => l.find? fun f => decide (63 ≤ fget t f)
  | none => none

/-- The outcome of steps 1 to 4 of R64: the code of the first check that fails (spec/03 R63, R64). -/
def firstCheck (s : State) (tid : Nat) (t : Team) (i : Instr) : Option FCode :=
  if !encodingOk i t then some .illegalEncoding
  else if privileged i && !t.priv then some .privileged
  else if !t.priv && !roleOk i t.role then some .roleViolation
  else if needsMx i && decide ((s.core t.home).mxOwner ≠ some tid) then some .matrixNotOwned
  else none

/-- Lanes of the faults of steps 1 to 4: those of a vector instruction's mask are named by no rule, so the fault carries the
live-lane mask (spec/09 R204). -/
def issueAct (i : Instr) (s : State) (tid : Nat) (t : Team) (body : Team → Team → Nat → State → Act) : Act :=
  match firstCheck s tid t i with
  | some c => .fault s (fltTeam t c)
  | none =>
    match flagFull t (fsOf i) with
    | some f => .wait s (.flag f)
    | none => body (viewOf s tid t) t tid s

/-- Issue an instruction of the current team: the checks of R64, then `body`, given the team as the instruction reads it, the
team, its id and the state (spec/03 R64, spec/07 R147, R151). -/
def issue (i : Instr) (s : State) (body : Team → Team → Nat → State → Act) : Host.Outcome State Fault Refusal :=
  match s.curTeam with
  | none => .fault .noCurrentTeam
  | some (tid, t) => .next (applyAct s tid (wordsOf i) t (issueAct i s tid t body))

/-! ### Long-latency operations -/

/-- The opcode of a full-form instruction (spec/07 R152). -/
def opcOf (i : Instr) : Nat := match encode i with | some w => w.first / 2 ^ 54 % 256 | none => 0

/-- An operation of a team. -/
def newOp (t : Team) (tid : Nat) (i : Instr) (dest : Dest) (kind : OpKind) : Op :=
  { team := tid, core := t.home, ctx := t.ctx, launch := t.launch, opc := opcOf i, pc := t.pc,
    flags := (slotFlags t (fsOf i)).getD [], dest := dest, ex := 0, floor := 0, homes := [], logs := [], late := none,
    rewritten := [], sc := false, ext := [], reads := [], kind := kind }

/-- Put an operation in flight and count its flags (spec/07 R147); its id is the state's `nextId`. -/
def launchOp (s : State) (tid : Nat) (o : Op) : State :=
  let id := s.nextId
  { modTeam s tid (fun t => incFlags t o.flags) with ops := tbSet s.ops id o, nextId := id + 1 }

/-- Remove an operation and uncount its flags. -/
def endOp (s : State) (id : Nat) (o : Op) : State :=
  modTeam { s with ops := tbDel s.ops id } o.team fun t => decFlags t o.flags

/-- Release a team held by an operation. -/
def unhold (s : State) (tid id : Nat) : State :=
  modTeam s tid fun t => if t.wait = .hold id then { t with wait := .none } else t

/-- Raise the STAMPFLOOR an operation's stamps return to, its team's (spec/13 R265). After the team's retirement they raise nothing: the queue
floor takes the STAMPFLOOR held at retirement (spec/21 R393). -/
def raiseBy (s : State) (o : Op) : State := modTeam s o.team fun t => raiseFloor t o.floor

/-- Whether a team has an operation of a kind in flight. -/
def anyOp (s : State) (tid : Nat) (p : Op → Bool) : Bool := s.ops.any fun e => e.2.team == tid && p e.2

/-- Operations a release waits for: stores, atomics, reductions, loads (spec/13 R264). -/
def isAccess (o : Op) : Bool :=
  match o.kind with
  | .load | .store | .reduction | .atomic => true
  | _ => false

/-- Whether the team must drain before a release (spec/13 R264). -/
def mustDrain (s : State) (tid : Nat) : Bool := anyOp s tid isAccess

/-- Drop a context's copies from a core's L1 (spec/13 R264). -/
def dropL1 (s : State) (core ctx : Nat) : State :=
  modCore s core fun c => { c with l1 := c.l1.filter fun x => x.ctx != ctx }

/-- Note that the team read these floor tags with an acquire (spec/19 R387). -/
def acquireTag (t : Team) (x : W64) : Team := raiseFloor t x

end Sys2Proof.Machine
end

