-- ==== Sys2Proof/Machine/Access.lean ====
section
/-! DEFINITION. Memory accesses of a team: the per-lane checks of spec/03 R64 and spec/17 R352, stash windows
(spec/13 R272-R274), reads and writes of every window (spec/13 R262-R265, spec/17 R339), read-modify-writes (spec/13 R280),
watchpoints (spec/23 R448). -/

namespace Sys2Proof.Machine

/-! ### Stash windows -/

/-- The stash window of a crew that holds an offset, and the chunk's index (spec/13 R272). -/
def windowAt (s : State) (cid off : Nat) : Option (Window × Nat) :=
  match tbGet s.crews cid with
  | none => none
  | some c => (c.windows.find? fun w => decide (w.off ≤ off ∧ off < w.off + w.len)).map fun w => (w, (off - w.off) / 512)

/-- The filled chunk at an offset. -/
def chunkAt (s : State) (cid off : Nat) : Option Chunk :=
  match windowAt s cid off with
  | some (w, i) => tbGet w.chunks i
  | none => none

/-- The key of the global byte that an offset of a partition stands for: that of its filled chunk, or of the page its fill was translated
to. -/
def chunkKey (s : State) (cid off : Nat) (x : Option Xl) : Option Nat :=
  match windowAt s cid off with
  | none => none
  | some (w, i) =>
    match tbGet w.chunks i with
    | some ch => some (ch.keys.getD ((off - w.off) % 512 / 64) 0 * 64 + off % 64)
    | none => x.map fun x => x.key + (off - w.off) % 512

/-- Put a chunk into its window. -/
def putChunk (s : State) (cid woff i : Nat) (ch : Chunk) : State :=
  modCrew s cid fun c => { c with windows := c.windows.map fun w =>
    if w.off = woff then { w with chunks := tbSet w.chunks i ch } else w }

/-- Read the eight sectors of a chunk: the bytes and keys, or the key that fails. -/
def chunkSectors (s : State) (key : Nat) : Nat → State × Except Nat (List Byte × List Nat)
  | 0 => (s, .ok ([], []))
  | n + 1 =>
    match readSector s key 64 0 with
    | (s, none) => (s, .error key)
    | (s, some (bs, _)) =>
      match chunkSectors s (key + 64) n with
      | (s, .ok (r, ks)) => (s, .ok (bs ++ r, sectorOf key :: ks))
      | (s, .error k) => (s, .error k)

/-- Fill a chunk from its translated page (spec/13 R273): none, or the key of the sector that cannot be read. -/
def fillChunk (s : State) (cid : Nat) (w : Window) (i : Nat) (x : Xl) : State × Option Nat :=
  match chunkSectors s x.key 8 with
  | (s, .error k) => (s, some k)
  | (s, .ok (bs, ks)) =>
    let s := copyTags (memWrite s (partKey cid (w.off + 512 * i)) bs) x.key (partKey cid (w.off + 512 * i)) 512
    let s := if x.cache = 2 then ks.foldl uncache s else s
    let s := ks.foldl (noteReader (.chunk cid w.off i)) s
    (putChunk s cid w.off i ⟨ks, x.w, List.replicate 8 x.tracked, List.replicate 8 false, decide (x.cache = 2)⟩, none)

/-- Translate the page of an unfilled chunk; a failure carries the page's first byte (spec/13 R273). -/
def chunkXl (s : State) (ctx hub : Nat) (w : Window) (i : Nat) (write : Bool) : State × Except XErr Xl :=
  match translate s ctx hub (w.va.toNat + 512 * i) write with
  | (s, .ok x) => (s, .ok x)
  | (s, .error e) => (s, .error { e with addr := e.page })

/-! ### Checks of an access -/

/-- What an access asks for: whether it writes, the role other than GENERAL that may reach beyond the partitions,
its alignment, whether it may cross pages (LDPK), whether it is an as-of load, which translates in the global window only (spec/13 R268). -/
structure Acc where
  write : Bool
  role : Option Nat
  align : Nat
  split : Bool
  asof : Bool
  deriving DecidableEq, Repr

/-- A checked part of an access, within one page and one chunk. -/
structure Piece where
  addr : Nat
  n : Nat
  key : Nat
  loc : Loc
  xl : Option Xl
  deriving DecidableEq, Repr

/-- The first key of a piece: in a stash window that of the global byte it stands for. -/
def pieceKey (s : State) (p : Piece) : Nat :=
  match p.loc with
  | .part cid off => (chunkKey s cid off p.xl).getD p.key
  | _ => p.key

/-- Whether `n` bytes at an offset of a crew's partition touch a declared ring (spec/03 R73). -/
def inRing (s : State) (cid off n : Nat) : Bool :=
  match tbGet s.crews cid with
  | none => false
  | some c => c.rings.any fun e => decide (e.2.off < off + n ∧ off < e.2.off + 8 * e.2.depth)

/-- Whether `n` bytes at a key touch a live allowance descriptor (spec/13 R283). -/
def touchesCounter (s : State) (key n : Nat) : Bool :=
  s.counters.any fun e => decide (e.1 < key + n ∧ key < e.1 + 64)

/-- Whether any Huanen port is ready (spec/27 R480). -/
def huanenUp (s : State) : Bool := (List.range 16).any fun p => s.readyIo.getLsbD (2 + p)

/-- What a peer answers to an access: a free choice of the answers of spec/17 R338 (notes/assumptions/24.md). -/
def peerAnswer (s : State) (id off : Nat) (a : W64) : Option XErr :=
  let j := 2 ^ 70 + (id * 2 ^ 47 + off) * 2
  if !huanenUp s then some ⟨78, .dataUncorrectable, a, a, 0⟩
  else if Config.freeBit s.free j then some ⟨5, .apertureBounds, a, a, 0⟩
  else if Config.freeBit s.free (j + 1) then some ⟨78, .dataUncorrectable, a, a, 0⟩
  else none

/-- The first byte of the 64 KiB granule of an address (spec/17 R352). -/
def granOf (a : Nat) : W64 := BitVec.ofNat 64 (a / 65536 * 65536)

/-- Steps 7b to 7g for one part of lane `l`, whose first byte is at `a` (spec/17 R352); LDPK reports the page of the first byte that
fails (spec/13 R269). -/
def checkPiece (s : State) (t : Team) (tid : Nat) (acc : Acc) (l : Nat) (lane : W64) (a n : Nat) (loc : Loc) :
    State × Except XErr Piece :=
  match loc with
  | .part cid off =>
    let key := partKey cid off
    if acc.asof then (s, .ok ⟨a, n, key, loc, none⟩) else
    let done (s : State) (phys : Option Nat) (x : Option Xl) : State × Except XErr Piece :=
      if acc.write && inRing s cid off n then (s, .error ⟨77, .queueMisuse, lane, lane, 0⟩)
      else if acc.write && (touchesCounter s key n || (match phys with | some k => touchesCounter s k n | none => false))
      then (s, .error ⟨77, .allowanceInvalid, lane, lane, 0⟩)
      else (s, .ok ⟨a, n, key, loc, x⟩)
    match windowAt s cid off with
    | none => done s none none
    | some (w, i) =>
      match tbGet w.chunks i with
      | some ch =>
        if acc.write && !ch.w then (s, .error ⟨75, .pageProtection, lane, lane, 0⟩)
        else done s (some (ch.keys.getD ((off - w.off) % 512 / 64) 0 * 64 + off % 64)) none
      | none =>
        match chunkXl s t.ctx (teamHub t) w i acc.write with
        | (s, .error e) => (s, .error e)
        | (s, .ok x) => done s (some (x.key + (off - w.off) % 512)) (some x)
  | .stk off =>
    let at' := if acc.split then granOf (a + (t.stackz - off)) else lane
    if t.stackz < off + n then (s, .error ⟨72, .stackOverflow, at', at', 0⟩)
    else (s, .ok ⟨a, n, stackKey tid t.stk (l * t.stackz + off), loc, none⟩)
  | .peer id off =>
    match (if acc.asof then none else peerAnswer s id off (if acc.split then granOf a else lane)) with
    | some e => (s, .error e)
    | none => (s, .ok ⟨a, n, peerKey id off, loc, none⟩)
  | .glob va =>
    match translate s t.ctx (teamHub t) va acc.write with
    | (s, .error e) => (s, .error (if acc.split then { e with addr := e.page } else e))
    | (s, .ok x) =>
      if acc.write && touchesCounter s x.key n then (s, .error ⟨77, .allowanceInvalid, lane, lane, 0⟩)
      else (s, .ok ⟨a, n, x.key, loc, some x⟩)

/-- Cut `n` bytes at `a` where they cross a multiple of 512. -/
def cuts (a n : Nat) : Nat → List (Nat × Nat)
  | 0 => []
  | fuel + 1 =>
    if n = 0 then []
    else
      let m := min n (512 - a % 512)
      (a, m) :: cuts (a + m) (n - m) fuel

/-- Whether a location lies in the scratchpad or cluster window. -/
def Loc.isPart : Loc → Bool
  | .part .. => true
  | _ => false

/-- The FAULTADDR of a lane whose `n` bytes leave their window: its address, or for LDPK the page of the first byte that fails (spec/13
R269; a block that is misaligned or barred by its role reports its address, notes/assumptions/43.md). -/
def boundsAddr (s : State) (t : Team) (acc : Acc) (a : W64) (n : Nat) : W64 :=
  if acc.split then
    granOf (a.toNat + ((List.range n).find? fun i => (aperture s t a (i + 1)).isNone).getD 0)
  else a

/-- The checks of steps 5 to 7 for lane `l` at its address (spec/03 R64, spec/17 R352). -/
def checkLane (s : State) (t : Team) (tid : Nat) (acc : Acc) (l : Nat) (a : W64) (n : Nat) :
    State × Except XErr (List Piece) :=
  let at' := boundsAddr s t acc a n
  match aperture s t a n with
  | none => (s, .error ⟨5, .apertureBounds, at', at', 0⟩)
  | some loc =>
    if (match acc.role with
        | some r => !t.priv && !loc.isPart && t.role != r && t.role != roleGeneral
        | none => false) then (s, .error ⟨6, .roleViolation, a, a, 0⟩)
    else if a.toNat % acc.align ≠ 0 then (s, .error ⟨71, .misaligned, a, a, 0⟩)
    else
      let parts := if acc.split then cuts a.toNat n 3 else [(a.toNat, n)]
      parts.foldl (fun (s, r) (x, m) =>
        match r with
        | .error e => (s, .error e)
        | .ok ps =>
          match aperture s t (BitVec.ofNat 64 x) m with
          | none => (s, .error ⟨5, .apertureBounds, granOf x, granOf x, 0⟩)
          | some loc =>
            match checkPiece s t tid acc l a x m loc with
            | (s, .error e) => (s, .error e)
            | (s, .ok p) => (s, .ok (ps ++ [p]))) (s, .ok [])

/-- A lane, its address and the outcome of its checks. -/
abbrev LaneCheck := Nat × W64 × Except XErr (List Piece)

/-- The checks of every lane (spec/17 R345: before any lane is performed). -/
def checkLanes (s : State) (t : Team) (tid : Nat) (acc : Acc) (n : Nat) : List (Nat × W64) → State × List LaneCheck
  | [] => (s, [])
  | (l, a) :: ls =>
    let (s, r) := checkLane s t tid acc l a n
    let (s, rs) := checkLanes s t tid acc n ls
    (s, (l, a, r) :: rs)

/-- The failed lanes. -/
def failures (cs : List LaneCheck) : List (Nat × XErr) :=
  cs.filterMap fun c => match c.2.2 with | .error e => some (c.1, e) | .ok _ => none

/-- The lanes that passed. -/
def passed (cs : List LaneCheck) : List (Nat × W64 × List Piece) :=
  cs.filterMap fun c => match c.2.2 with | .ok p => some (c.1, c.2.1, p) | .error _ => none

/-- FAULTCODE, FAULTMASK and FAULTADDR of spec/17 R352: the earliest step, the lowest lane's code there. -/
def pickFault : List (Nat × XErr) → Option Flt
  | [] => none
  | e :: es =>
    let step := es.foldl (fun m x => min m x.2.step) e.2.step
    let at' := (e :: es).filter fun x => x.2.step == step
    match at' with
    | [] => none
    | x :: _ =>
      let sel := at'.filter fun y => decide (y.2.code = x.2.code)
      some ⟨x.2.code, 0, maskOf (sel.map (·.1)), sel.foldl (fun m y => smSet 0 m y.1 y.2.addr) [], 1, x.2.phys / 64 * 64⟩

/-- The fault of an instruction that executes once: the active mask, one address (spec/13 R260). -/
def onceFault (m : Mask) (e : XErr) : Flt := fltAt e.code m e.addr e.phys

/-! ### Watchpoints (spec/23 R448) -/

/-- The watchpoints of a core that a piece of an access touches. -/
def watchHit (s : State) (t : Team) (write : Bool) (p : Piece) : Option Nat :=
  match p.loc with
  | .part cid off =>
    match tbGet s.crews cid with
    | none => none
    | some c =>
      let k := s.core c.core
      if k.attach && k.dctx == t.ctx && (k.watches.any fun e =>
          e.2.en && (if write then e.2.wr else e.2.rd) &&
          (match teamAt s c.core e.2.tslot with | some x => x.2.crew == cid | none => false) &&
          decide (e.2.offset < off + p.n ∧ off < e.2.offset + e.2.lenm1 + 1)) then some c.core else none
  | _ => none

/-- The lanes that hit a watchpoint, with their addresses, and the core whose watchpoint it is. -/
def watchLanes (s : State) (t : Team) (write : Bool) (ls : List (Nat × W64 × List Piece)) : List (Nat × W64 × Nat) :=
  ls.filterMap fun x => (x.2.2.findSome? (watchHit s t write)).map fun c => (x.1, x.2.1, c)

/-- What a watchpoint hit does: halt with HALTBRK, else raise WATCHPOINT. `once` is the mask of an instruction that executes
once. -/
def watchAct (s : State) (tid : Nat) (once : Option Mask) (hits : List (Nat × W64 × Nat)) : Option Act :=
  match hits with
  | [] => none
  | (_, a, c) :: _ =>
    if (s.core c).haltbrk then some (.placed (modTeam s tid fun t => { t with halted := true }))
    else
      match once with
      | some m => some (.fault s (fltAt .watchpoint m a 0))
      | none => some (.fault s ⟨.watchpoint, 0, maskOf (hits.map (·.1)), hits.foldl (fun m h => smSet 0 m h.1 h.2.1) [], 1, 0⟩)

/-! ### Performing reads -/

/-- Fill the unfilled chunks that pieces touch: none, or the FAULTADDR and the key that failed (spec/13 R273,
spec/25 R486). -/
def fillPieces (s : State) : List Piece → State × Option (W64 × Nat)
  | [] => (s, none)
  | p :: ps =>
    match p.loc, p.xl with
    | .part cid off, some x =>
      match windowAt s cid off with
      | some (w, i) =>
        if (tbGet w.chunks i).isSome then fillPieces s ps
        else
          -- the chunk starts (off - w.off) % 512 bytes below the piece
          match fillChunk s cid w i x with
          | (s, some k) => (s, some (BitVec.ofNat 64 x.base, k))
          | (s, none) => fillPieces s ps
      | none => fillPieces s ps
    | _, _ => fillPieces s ps

/-- The L1 copy of a sector of a context's address; one filled before a PGMAP whose entry the step translated through is dropped (spec/19
R371). -/
def l1Find (s : State) (core ctx sec : Nat) : Option L1Copy :=
  (s.core core).l1.find? fun c => c.ctx == ctx && c.va == sec && decide (s.xlSince ≤ c.born)

/-- Bytes of a carve code (spec/03 R80). -/
def carveBytes (code : Nat) : Nat := 262144 * code

/-- Sectors a core's L1 holds: what the carve leaves of 1 MiB (spec/01 R14, spec/03 R80). -/
def l1Room (c : Core) : Nat := (2 ^ 20 - carveBytes c.carve) / 64

/-- The floor tags of the bytes of a sector. -/
def sectorTags (s : State) (sec : Nat) : List W64 := (List.range 64).map fun i => smGet 0 s.tags (sec * 64 + i)

/-- Whether an L1 copy holds what a coherent read of the sector would give, with nothing on its way that would change it. -/
def l1Fresh (s : State) (c : L1Copy) : Bool :=
  let sec := c.phys
  reachable s (sec * 64) && !poisoned s sec && !(s.homeq.any fun w => sectorOf w.key == sec) &&
    (tbGet s.groups sec).isNone && !(s.flips.any fun e => e.1 / 64 == sec) && (stashPlaces s sec).isEmpty &&
    c.data == memRead s (sec * 64) 64 && c.stamp == versionStamp s sec && c.tags == sectorTags s sec

/-- Whether a copy counts as evicted in this step: one that is no longer what memory holds, a free choice. -/
def l1Gone (s : State) (c : L1Copy) : Bool := Config.freeBit s.free (2 ^ 90 + c.va) && !l1Fresh s c

/-- The L1 copy a read hits. -/
def l1Hit (s : State) (core ctx sec : Nat) : Option L1Copy := (l1Find s core ctx sec).filter fun c => !l1Gone s c

/-- Put a copy into an L1; where it is full, a free choice goes of the copies that hold what memory holds or are gone: the lanes of one load
that read a byte see one value (spec/13 R261). -/
def l1Insert (s : State) (c : Core) (x : L1Copy) : List L1Copy :=
  if c.l1.length < l1Room c then c.l1 ++ [x]
  else
    let out := c.l1.filter fun y => l1Fresh s y || l1Gone s y
    match out[(Config.freeWord s.free (2 ^ 92)).toNat % max 1 out.length]? with
    | some y => (c.l1.filter fun z => !(z.ctx == y.ctx && z.va == y.va)) ++ [x]
    | none => c.l1

/-- Replace or remove the L1 copy of a sector. -/
def l1Put (s : State) (core ctx sec : Nat) (c : Option L1Copy) : State :=
  if c.isNone && (l1Find s core ctx sec).isNone then s
  else modCore s core fun k =>
    let k := { k with l1 := k.l1.filter fun x => !(x.ctx == ctx && x.va == sec) }
    match c with
    | some x => { k with l1 := l1Insert s k x }
    | none => k

/-- Bytes [i, i + data.length) of an L1 copy written, with their floor tag (spec/13 R263, spec/19 R387). -/
def l1Write (c : L1Copy) (i : Nat) (data : List Byte) (floor : W64) : L1Copy :=
  let n := data.length
  { c with data := c.data.take i ++ data ++ c.data.drop (i + n),
           tags := c.tags.take i ++ List.replicate n floor ++ c.tags.drop (i + n) }

/-- The writes of a core's teams in a context on their way to a sector have their stamps first: a read of the core's copy returns that of
its own write (spec/13 R265). -/
def settleOwn (s : State) (core ctx sec : Nat) : State :=
  drainWrites (fun w => sectorOf w.key == sec && (match w.op.bind (tbGet s.ops) with
    | some o => o.core == core && o.ctx == ctx
    | none => false)) s.homeq.length s

/-- The largest of floor tags. -/
def maxTags (l : List W64) : W64 := l.foldl maxW 0

/-- Bytes, stamp, floor tag of a read. -/
abbrev Got := List Byte × W64 × W64

/-- Read `n` bytes of one sector of global memory, at `pa` in its frame: from the core's L1, or from the LLC with an allocation, which a host
or pool line has in the LLC only (spec/13 R263-R265; spec/17 R339, R343, R362). -/
def readGlobal (s : State) (core ctx va key pa n cache : Nat) (acq : Bool) : State × Option Got :=
  let sec := va / 64
  let s := if acq || cache != 0 || (l1Find s core ctx sec).isNone then s else settleOwn s core ctx (key / 64)
  match (if acq || cache != 0 then none else l1Hit s core ctx sec) with
  | some c => (s, some ((c.data.drop (va % 64)).take n, c.stamp, maxTags ((c.tags.drop (va % 64)).take n)))
  | none =>
    match readSector s key n 0 with
    | (s, none) => (s, none)
    | (s, some r) =>
      let phys := key / 64
      let copy : Option L1Copy :=
        if cache = 0 && !acq && isHbm key then
          some { ctx := ctx, va := sec, phys := phys, pa := pa, data := memRead s (phys * 64) 64, stamp := r.2,
                 tags := sectorTags s phys, born := s.free }
        else none
      let s := if cache = 2 then uncache s phys else s
      (l1Put s core ctx sec copy, some (r.1, r.2, tagRead s key n))

/-- Settle the chunk sectors under `n` bytes of a partition before its stash reads them (spec/17 R358). -/
def settlePart (s : State) (cid off n : Nat) : State :=
  (spans off n (n / 64 + 2)).foldl (fun s x =>
    match windowAt s cid x.1 with
    | none => s
    | some (w, i) =>
      match tbGet w.chunks i with
      | none => s
      | some ch => settleChunk s cid w.off (ch.keys.getD ((x.1 - w.off) % 512 / 64) 0)) s

/-- The stamp a read of partition bytes returns: that of the tracked version a filled stash chunk holds, so that a later write of the
reader is stamped above it (spec/19 R388; notes/assumptions/43.md); 0 elsewhere (spec/13 R265). -/
def partStamp (s : State) (cid off n : Nat) : W64 :=
  (spans off n (n / 64 + 2)).foldl (fun m x =>
    match windowAt s cid x.1 with
    | none => m
    | some (w, i) =>
      match tbGet w.chunks i with
      | none => m
      | some ch => maxW m (versionStamp s (ch.keys.getD ((x.1 - w.off) % 512 / 64) 0))) 0

/-- Read bytes of a stack block, which lie on HBM: none where its stack is down or a sector is poisoned (spec/17 R337; spec/25 R451,
R453, R454). -/
def readStk (s : State) (key n : Nat) : State × Option (List Byte) :=
  if !reachable s key then (s, none)
  else
    let s := (spans key n (n / 64 + 2)).foldl (fun s x =>
      correctSector (pcMiss s (sectorOf x.1) (curClass s)) (sectorOf x.1) 0) s
    if (spans key n (n / 64 + 2)).any fun x => poisoned s (sectorOf x.1) then (s, none) else (s, some (memRead s key n))

/-- The sectors of global memory that the pieces of a load read, each with the L1 line it is read through, none for a stash chunk. -/
def pieceLines (s : State) (ls : List (Nat × W64 × List Piece)) : List (Option Nat × Nat) :=
  ls.flatMap fun x => x.2.2.flatMap fun p =>
    match p.loc with
    | .glob va => (spans p.key p.n (p.n / 64 + 2)).map fun y => (some ((va + (y.1 - p.key)) / 64), sectorOf y.1)
    | .part cid off =>
      match chunkKey s cid off p.xl with
      | some k => (spans k p.n 3).map fun y => (none, sectorOf y.1)
      | none => []
    | _ => []

/-- The L1 lines of a load that reads their sectors through other lines or chunks too. -/
def mixedLines (l : List (Option Nat × Nat)) : List Nat :=
  l.filterMap fun x => if l.any fun y => y.2 == x.2 && y.1 != x.1 then x.1 else none

/-- The lanes of one load that read a byte see one value (spec/13 R261, spec/19 R368): where they read a sector through two L1 lines or a stash
chunk too, the lines are evicted first. -/
def dropMixed (s : State) (t : Team) (ls : List (Nat × W64 × List Piece)) : State :=
  match mixedLines ((pieceLines s ls).foldl insertNew []) with
  | [] => s
  | vs => modCore s t.home fun c => { c with l1 := c.l1.filter fun x => !(x.ctx == t.ctx && vs.contains x.va) }

/-- Whether a request for a key goes over a CXL link: the LLC does not hold its sector, or the page is uncached there (spec/17 R343). -/
def overCxl (s : State) (k cache : Nat) : Bool := isCxl k && reachable s k && (cache == 2 || !cxlHeld s (sectorOf k))

/-- The requests in flight that fill a stash chunk, one of each sector. -/
def pendingFill (s : State) (f : Nat × Nat × Nat) : List ExtReq :=
  ((s.ops.flatMap fun e => e.2.ext).filter fun r => r.fill == some f).foldl (fun l r => if l.any fun x => x.key == r.key then l else l ++ [r]) []

/-- The fill of a stash chunk has arrived: its requests are in flight no longer. -/
def arriveFill (s : State) (f : Nat × Nat × Nat) : State :=
  if pendingFill s f = [] then s
  else { s with ops := s.ops.map fun e => (e.1, { e.2 with ext := e.2.ext.filter fun r => r.fill != some f }) }

/-- The fills of the chunks under `n` bytes of a partition have arrived: an agent that does not wait for them uses the bytes. -/
def arrivePart (s : State) (cid off n : Nat) : State :=
  (spans off n (n / 64 + 2)).foldl (fun s x => match windowAt s cid x.1 with
    | some (w, i) => arriveFill s (cid, w.off, i)
    | none => s) s

/-- The requests that a piece in a stash window waits for: those that fill its chunk, be it for this access or for an earlier one still in
flight (spec/13 R273). -/
def fillReqs (s : State) (cid off : Nat) (x : Option Xl) : List ExtReq :=
  match windowAt s cid off with
  | none => []
  | some (w, i) =>
    let f := (cid, w.off, i)
    match (tbGet w.chunks i).isSome, x with
    | false, some x =>
      (((List.range 8).map fun j => x.key + 64 * j).filter fun k => overCxl s k x.cache).map fun k =>
        ⟨0, BitVec.ofNat 64 x.base, k, linkOf s k, some f, none⟩
    | _, _ => pendingFill s f

/-- The requests of a piece that go over CXL links (spec/27 R473); of a store only those that fill a chunk. -/
def pieceReqs (s : State) (fills page : Bool) (a : W64) (p : Piece) : List ExtReq :=
  match p.loc, p.xl with
  | .part cid off, x => fillReqs s cid off x
  | .glob _, some x =>
    if !fills && overCxl s p.key x.cache then
      [⟨0, if page then BitVec.ofNat 64 x.base else a, p.key, linkOf s p.key, none, none⟩]
    else []
  | _, _ => []

/-- The requests of the lanes of an access that go over CXL links. `once` is the mask of an instruction that executes once, `page` tells
that FAULTADDR is the page (spec/13 R260, R269), `log` gives the entry a reduction's lane is reported by (R281). -/
def extReqs (s : State) (once : Option Mask) (fills page : Bool) (log : Nat → W64 → Option LogEntry)
    (ls : List (Nat × W64 × List Piece)) : List ExtReq :=
  ls.flatMap fun x => (x.2.2.flatMap (pieceReqs s fills page x.2.1)).flatMap fun r =>
    match once with
    | some m => ((List.range 1024).filter fun l => m.getLsbD l).map fun l => { r with lane := l, log := none }
    | none => [{ r with lane := x.1, log := log x.1 x.2.1 }]

/-- Read one piece: what was read, or the key that failed (spec/13 R262, R265; spec/25 R452, R454). -/
def readPiece (s : State) (t : Team) (p : Piece) (acq : Bool) : State × Except Nat Got :=
  match p.loc with
  | .part cid off =>
    let s := settlePart s cid off p.n
    if (spans p.key p.n 3).any fun x => poisoned s (sectorOf x.1) then (s, .error p.key)
    else (s, .ok (memRead s p.key p.n, partStamp s cid off p.n, tagRead s p.key p.n))
  | .stk _ =>
    match readStk s p.key p.n with
    | (s, some bs) => (s, .ok (bs, 0, 0))
    | (s, none) => (s, .error p.key)
  | .peer .. => (s, .ok (memRead s p.key p.n, 0, tagRead s p.key p.n))
  | .glob va =>
    let (pa, cache) := match p.xl with | some x => (x.pa, x.cache) | none => (p.key, 2)
    (spans p.key p.n (p.n / 64 + 2)).foldl (fun (s, r) (k, m) =>
      match r with
      | .error e => (s, .error e)
      | .ok (g : Got) =>
        match readGlobal s t.home t.ctx (va + (k - p.key)) k (pa + (k - p.key)) m cache acq with
        | (s, none) => (s, .error k)
        | (s, some h) => (s, .ok (g.1 ++ h.1, maxW g.2.1 h.2.1, maxW g.2.2 h.2.2)))
      (s, .ok ([], 0, 0))

/-- A lane's read: what it read, or the FAULTADDR and key of its failure. `page` gives LDPK's FAULTADDR (spec/13 R269). -/
def readLane (s : State) (t : Team) (acq page : Bool) (a : W64) (ps : List Piece) :
    State × Except (W64 × Nat) Got :=
  match fillPieces s ps with
  | (s, some e) => (s, .error e)
  | (s, none) =>
    ps.foldl (fun (s, r) p =>
      match r with
      | .error e => (s, .error e)
      | .ok (g : Got) =>
        match readPiece s t p acq with
        | (s, .error k) =>
          (s, .error (if page then (match p.xl with | some x => BitVec.ofNat 64 x.base | none => granOf p.addr)
                      else a, k))
        | (s, .ok h) => (s, .ok (g.1 ++ h.1, maxW g.2.1 h.2.1, maxW g.2.2 h.2.2))) (s, .ok ([], 0, 0))

/-! ### Performing writes -/

/-- Write bytes of a partition and their floor tag. -/
def putPart (s : State) (cid off : Nat) (data : List Byte) (w : Writer) : State :=
  tagWrite (memWrite s (partKey cid off) data) (partKey cid off) w.floor data.length

/-- Write bytes of a filled chunk, which the host no longer holds: a tracked one is written through, another holds them, or where another
stash window holds the sector too the write is performed at the home and forwarded (spec/13 R274, spec/17 R358, R362); a page that is uncached
at the LLC leaves no line there (R343). -/
def writeChunk (s : State) (cid off : Nat) (data : List Byte) (w : Writer) (win : Window) (i : Nat) (ch : Chunk) : State :=
  let j := (off - win.off) % 512 / 64
  let sec := ch.keys.getD j 0
  let s := backInvalidate s sec
  if ch.tracked.getD j false then
    -- earlier write-throughs of the sector stay in order behind one another in the home's queue
    queueHome (putPart s cid off data w) (sec * 64 + off % 64) data { w with chunk := some (partKey cid off) } false
  else
    let s := settleChunk s cid win.off sec
    if sharedChunk s cid win.off sec && reachable s (sec * 64) then
      let s := putPart (recallStash s sec) cid off data w
      let s := forwardStash (putUntracked s (sec * 64 + off % 64) data w.floor w.tag w.launch) sec
      if ch.unc then uncache s sec else s
    else setChunkDirty (noteOwned (putPart s cid off data w) sec) cid win.off i j true

/-- Write bytes of a partition, with what a stash window adds (spec/13 R274). -/
def writePart (s : State) (cid off : Nat) (data : List Byte) (w : Writer) : State :=
  match windowAt s cid off with
  | none => putPart s cid off data w
  | some (win, i) =>
    match tbGet win.chunks i with
    | none => putPart s cid off data w
    | some ch => writeChunk s cid off data w win i ch

/-- Write bytes of a stack block, which lie on HBM (spec/17 R337; spec/25 R451). -/
def writeStk (s : State) (key : Nat) (data : List Byte) (w : Writer) : State :=
  if reachable s key then
    let s := { memWrite (pcAsk s (homeOf s key) (curClass s)) key data with flips := smClear s.flips key (key + data.length) }
    if data.length = 64 then setPoison s (sectorOf key) false else s
  else failWrite s w

/-- A store updates the core's L1 copy that holds its bytes, once the LLC has them or they are on their way to their home; a write that
failed leaves the copy as it was (spec/13 R263, spec/17 R339). -/
def storeL1 (s : State) (t : Team) (p : Piece) (va : Nat) (data : List Byte) (tracked : Bool) (floor : W64) : State :=
  match l1Find s t.home t.ctx (va / 64) with
  | none => s
  | some c =>
    if tracked || reachable s p.key then l1Put s t.home t.ctx (va / 64) (some (l1Write c (va % 64) data floor)) else s

/-- The stamps that a write of a piece follows because its team has read a block of which it writes bytes and another sector, in an LDPK that has
not completed (spec/19 R370 same location, R388; spec/13 R269). -/
def blockFloor (s : State) (op : Option Nat) (p : Piece) : W64 :=
  match op.bind (tbGet s.ops) with
  | none => 0
  | some o =>
    let k := pieceKey s p
    (s.ops.flatMap fun e => if e.2.team == o.team then e.2.reads else []).foldl (fun m r =>
      if r.1 < k + p.n ∧ k < r.1 + r.2.1 then maxW m r.2.2 else m) 0

/-- The writer of a team's write to a piece, after the blocks read there. -/
def afterBlocks (s : State) (p : Piece) (w : Writer) : Writer := { w with floor := maxW w.floor (blockFloor s w.op p) }

/-- Write a piece (spec/13 R262, R263, R265; spec/17 R343; the floor tag of a peer's bytes, spec/19 R387). -/
def writePiece (s : State) (t : Team) (p : Piece) (data : List Byte) (w : Writer) : State :=
  let w := afterBlocks s p w
  match p.loc with
  | .part cid off => writePart s cid off data w
  | .stk _ => writeStk s p.key data w
  | .peer .. => tagWrite (memWrite s p.key data) p.key w.floor data.length
  | .glob va =>
    let tracked := match p.xl with | some x => x.tracked | none => false
    let put := if (match p.xl with | some x => x.cache | none => 0) = 2 then writeUnc else writeSector
    storeL1 (put s p.key data tracked { w with line := some (va / 64) }) t p va data tracked w.floor

/-- Whether a write of `n` bytes at an offset of a partition touches a live descriptor, there or, through a filled stash chunk, in the global
frame (spec/13 R283). -/
def partTouches (s : State) (cid off n : Nat) : Bool :=
  touchesCounter s (partKey cid off) n || (match chunkKey s cid off none with | some k => touchesCounter s k n | none => false)

/-- The key of the sector of a tracked frame that a filled chunk holds at an offset of a partition. -/
def throughKey (s : State) (cid off : Nat) : Option Nat :=
  match windowAt s cid off with
  | none => none
  | some (win, i) =>
    match tbGet win.chunks i with
    | none => none
    | some ch =>
      let j := (off - win.off) % 512 / 64
      if ch.tracked.getD j false then some (ch.keys.getD j 0 * 64) else none

/-- After an atomic on global memory its core may hold the sector in an atomic-ownership line, a free choice, since no rule says when
a core does (spec/17 R357, R360; notes/assumptions/14.md). -/
def ownSector (s : State) (p : Piece) (core : Nat) : State :=
  match p.loc with
  | .glob _ =>
    if Config.freeBit s.free (2 ^ 95 + sectorOf p.key) then { s with owners := tbSet s.owners (sectorOf p.key) core } else s
  | _ => s

/-- A read-modify-write at the atomic point: the old value, the stamp and the floor tag read, or the key that fails where the data cannot be read
or the home cannot stamp the write once the writes before it have reached it (spec/21 R394). In a tracked stash chunk whose home cannot take the
write-through the chunk keeps the new bytes, and the atomic fails all the same (spec/13 R274, R278-R280; spec/25 R451). -/
def rmw (s : State) (t : Team) (p : Piece) (f : Nat → Option Nat) (w : Writer) : State × Except Nat (Nat × W64 × W64) :=
  match readPiece s t p true with
  | (s, .error k) => (s, .error k)
  | (s, .ok g) =>
    let old := leNat g.1
    match f old with
    | none => (s, .ok (old, g.2.1, g.2.2))
    | some new =>
      let w := afterBlocks s p { w with floor := maxW w.floor g.2.2 }
      let data := leBytes p.n new
      match p.loc with
      | .part cid off =>
        match throughKey s cid off with
        | none => (writePiece s t p data w, .ok (old, g.2.1, g.2.2))
        | some k =>
          let s := drainHome s k
          if reachable s k && canStamp s k (orderFloor s w.op w.floor) then
            (drainSector (writePiece s t p data w) (sectorOf k), .ok (old, g.2.1, g.2.2))
          else (putPart s cid off data w, .error k)
      | _ =>
        let tracked := match p.xl with | some x => x.tracked | none => false
        let s := if tracked then drainHome s p.key else s
        if tracked && !canStamp s p.key (orderFloor s w.op w.floor) then (s, .error p.key)
        else
          let s := writePiece s t p data w
          (ownSector (if tracked then settle s (sectorOf p.key) 0 else s) p t.home, .ok (old, g.2.1, g.2.2))

end Sys2Proof.Machine
end

