-- ==== Sys2Proof/Machine/VecInt.lean ====
section
/-! DEFINITION. The vector integer and logic instructions (spec/11 R225-R236). -/

namespace Sys2Proof.Machine

/-- A vector instruction that writes f(lane) of a type to V[D] in its active lanes (spec/11 R227, spec/03 R51). -/
def vecOp (i : Instr) (k d : Nat) (ty : Ty) (f : Team → Nat → Nat) (s : State) : Host.Outcome State Fault Refusal :=
  issue i s fun r _ tid s => .go (writeRegs s tid ((active r k).flatMap fun l => wrT ty d l (f r l)))

/-- Operand x: V[A] of the type, narrow types in their low bits (spec/11 R225). -/
def vecX (r : Team) (ty : Ty) (a l : Nat) : Nat := vgetT r ty a l % 2 ^ tyWidth ty

/-- Operand y of the type (spec/11 R225). -/
def vecY (r : Team) (ty : Ty) (b : VSrc) (l : Nat) : Nat := vectorY r ty l b % 2 ^ tyWidth ty

/-- An integer instruction d := f(W, x, y) (spec/11 R232). -/
def intOp (i : Instr) (o : VBin) (f : Nat → Nat → Nat → Nat) (s : State) : Host.Outcome State Fault Refusal :=
  vecOp i o.k o.d o.ty (fun r l => f (tyWidth o.ty) (vecX r o.ty o.a l) (vecY r o.ty o.b l)) s

/-- An integer instruction d := f(W, x) (spec/11 R232). -/
def intOp1 (i : Instr) (o : VUn) (f : Nat → Nat → Nat) (s : State) : Host.Outcome State Fault Refusal :=
  vecOp i o.k o.d o.ty (fun r l => f (tyWidth o.ty) (vecX r o.ty o.a l)) s

/-- A mask destination: bit l in the active lanes, every other bit kept (spec/11 R227). -/
def maskInto (old : Mask) (act set : List Nat) : Mask := (old &&& ~~~ maskOf act) ||| maskOf set

/-- VADD (spec/11 R232). -/
def execVadd (o : VBin) (s : State) : Host.Outcome State Fault Refusal :=
  intOp (.vadd o) o (fun w x y => addW w x y) s

/-- VSUB (spec/11 R232). -/
def execVsub (o : VBin) (s : State) : Host.Outcome State Fault Refusal :=
  intOp (.vsub o) o (fun w x y => subW w x y) s

/-- VMUL (spec/11 R232). -/
def execVmul (o : VBin) (s : State) : Host.Outcome State Fault Refusal :=
  intOp (.vmul o) o (fun w x y => mulW w x y) s

/-- VMULH (spec/11 R232). -/
def execVmulh (o : VBin) (s : State) : Host.Outcome State Fault Refusal :=
  intOp (.vmulh o) o (fun w x y => mulHigh o.ty.isSigned w x y) s

/-- VDIV (spec/11 R232, spec/05 R105). -/
def execVdiv (o : VBin) (s : State) : Host.Outcome State Fault Refusal :=
  intOp (.vdiv o) o (fun w x y => divW o.ty.isSigned w x y) s

/-- VREM (spec/11 R232, spec/05 R105). -/
def execVrem (o : VBin) (s : State) : Host.Outcome State Fault Refusal :=
  intOp (.vrem o) o (fun w x y => remW o.ty.isSigned w x y) s

/-- VMIN (spec/11 R232). -/
def execVmin (o : VBin) (s : State) : Host.Outcome State Fault Refusal :=
  intOp (.vmin o) o (fun w x y => minW o.ty.isSigned w x y) s

/-- VMAX (spec/11 R232). -/
def execVmax (o : VBin) (s : State) : Host.Outcome State Fault Refusal :=
  intOp (.vmax o) o (fun w x y => maxWd o.ty.isSigned w x y) s

/-- VAND (spec/11 R232). -/
def execVand (o : VBin) (s : State) : Host.Outcome State Fault Refusal :=
  intOp (.vand o) o (fun _ x y => x &&& y) s

/-- VOR (spec/11 R232). -/
def execVor (o : VBin) (s : State) : Host.Outcome State Fault Refusal :=
  intOp (.vor o) o (fun _ x y => x ||| y) s

/-- VXOR (spec/11 R232). -/
def execVxor (o : VBin) (s : State) : Host.Outcome State Fault Refusal :=
  intOp (.vxor o) o (fun _ x y => x ^^^ y) s

/-- VSHL (spec/11 R232). -/
def execVshl (o : VBin) (s : State) : Host.Outcome State Fault Refusal :=
  intOp (.vshl o) o (fun w x y => shlW w x y) s

/-- VSHR (spec/11 R232). -/
def execVshr (o : VBin) (s : State) : Host.Outcome State Fault Refusal :=
  intOp (.vshr o) o (fun w x y => shrW o.ty.isSigned w x y) s

/-- VROT (spec/11 R232). -/
def execVrot (o : VBin) (s : State) : Host.Outcome State Fault Refusal :=
  intOp (.vrot o) o (fun w x y => rotW w x y) s

/-- VMAD (spec/11 R232). -/
def execVmad (o : V3) (s : State) : Host.Outcome State Fault Refusal :=
  vecOp (.vmad o) o.k o.d o.ty (fun r l =>
    let w := tyWidth o.ty
    addW w (mulW w (vecX r o.ty o.a l) (vecX r o.ty o.b l)) (vecX r o.ty o.c l)) s

/-- VABS (spec/11 R232). -/
def execVabs (o : VUn) (s : State) : Host.Outcome State Fault Refusal :=
  intOp1 (.vabs o) o (fun w x => ofInt w (toSigned w x).natAbs) s

/-- VNEG (spec/11 R232). -/
def execVneg (o : VUn) (s : State) : Host.Outcome State Fault Refusal :=
  intOp1 (.vneg o) o (fun w x => subW w 0 x) s

/-- VNOT (spec/11 R232). -/
def execVnot (o : VUn) (s : State) : Host.Outcome State Fault Refusal :=
  intOp1 (.vnot o) o (fun w x => 2 ^ w - 1 - x) s

/-- VCMP (spec/11 R232, R234). -/
def execVcmp (o : VBin) (rel : Rel) (s : State) : Host.Outcome State Fault Refusal :=
  issue (.vcmp o rel) s fun r _ tid s =>
    let act := active r o.k
    if act = [] then .go s
    else
      let hit := act.filter fun l =>
        relW rel o.ty.isSigned (tyWidth o.ty) (vecX r o.ty o.a l) (vecY r o.ty o.b l)
      .go (writeRegs s tid [.k o.d (maskInto (kget r o.d) act hit)])

/-- VSEL (spec/11 R235). -/
def execVsel (o : VBin) (ks : Nat) (s : State) : Host.Outcome State Fault Refusal :=
  vecOp (.vsel o ks) o.k o.d o.ty
    (fun r l => if (kget r ks).getLsbD l then vecX r o.ty o.a l else vecY r o.ty o.b l) s

/-- VMOV (spec/11 R225, R232): x, or y with SB or L. -/
def execVmov (o : VBin) (s : State) : Host.Outcome State Fault Refusal :=
  vecOp (.vmov o) o.k o.d o.ty (fun r l => match o.b with
    | .reg _ => vecX r o.ty o.a l
    | b => vecY r o.ty b l) s

/-- VBFE (spec/11 R233). -/
def execVbfe (o : VBin) (s : State) : Host.Outcome State Fault Refusal :=
  intOp (.vbfe o) o (fun w x y => bfe o.ty.isSigned w x y) s

/-- VBFI (spec/11 R233). -/
def execVbfi (o : V3) (s : State) : Host.Outcome State Fault Refusal :=
  vecOp (.vbfi o) o.k o.d o.ty
    (fun r l => bfi (tyWidth o.ty) (vecX r o.ty o.a l) (vecX r o.ty o.b l) (vecX r o.ty o.c l)) s

/-- VPOPC (spec/11 R232). -/
def execVpopc (o : VUn) (s : State) : Host.Outcome State Fault Refusal :=
  intOp1 (.vpopc o) o (fun w x => popcount x w) s

/-- VCLZ (spec/11 R232). -/
def execVclz (o : VUn) (s : State) : Host.Outcome State Fault Refusal :=
  intOp1 (.vclz o) o (fun w x => clzW w x) s

/-- VADDC (spec/11 R235). -/
def execVaddc (o : VBin) (kc : Nat) (s : State) : Host.Outcome State Fault Refusal :=
  issue (.vaddc o kc) s fun r _ tid s =>
    let act := active r o.k
    if act = [] then .go s
    else
      let w := tyWidth o.ty
      let sum (l : Nat) : Nat :=
        vecX r o.ty o.a l + vecY r o.ty o.b l + (if (kget r kc).getLsbD l then 1 else 0)
      .go (writeRegs s tid ((act.flatMap fun l => wrT o.ty o.d l (sum l % 2 ^ w)) ++
        [.k kc (maskInto (kget r kc) act (act.filter fun l => decide (2 ^ w ≤ sum l)))]))

/-- VADDS (spec/11 R236). -/
def execVadds (o : VBin) (sub : Bool) (s : State) : Host.Outcome State Fault Refusal :=
  intOp (.vadds o sub) o (fun w x y =>
    let sg := o.ty.isSigned
    clampW sg w (if sub then toVal sg w x - toVal sg w y else toVal sg w x + toVal sg w y)) s

/-- VLANE (spec/11 R236). -/
def execVlane (k d a : Nat) (wordwise : Bool) (s : State) : Host.Outcome State Fault Refusal :=
  vecOp (.vlane k d a wordwise) k d .b32
    (fun r l => ((if wordwise then l % 32 else l) + (sget r a).toNat) % 2 ^ 32) s

/-- VMULW (spec/11 R236): operands are single registers, the product a pair. -/
def execVmulw (o : VBin) (s : State) : Host.Outcome State Fault Refusal :=
  vecOp (.vmulw o) o.k o.d .b64 (fun r l =>
    let sg := o.ty.isSigned
    ofInt 64 (toVal sg 32 (vget r o.a l).toNat * toVal sg 32 (vectorY1 r l o.b))) s

end Sys2Proof.Machine
end

