-- ==== Sys2Proof/Machine/Memory.lean ====
section
/-! DEFINITION. Loads and stores (spec/13 R262-R266), as-of loads (R267, R268), packed block loads (R269), prefetch (R270),
VAPND (spec/11 R254). -/

namespace Sys2Proof.Machine

/-- Whether an order includes .acq. -/
def isAcq : Order → Bool
  | .acq | .acqrel | .sc => true
  | _ => false

/-- Whether an order includes .rel. -/
def isRel : Order → Bool
  | .rel | .acqrel | .sc => true
  | _ => false

/-- Whether an order is .sc. -/
def isSc : Order → Bool
  | .sc => true
  | _ => false

/-- A .sc access takes its place in the order S (spec/19 R379). -/
def scState (order : Order) (s : State) (tid : Nat) : State := if isSc order then enterS s tid else s

/-- The team whose writes a .sc access orders (spec/19 R379, R388). -/
def scTeam (order : Order) (s : State) (t : Team) : Team := if isSc order then raiseFloor t s.scFloor else t

/-- Whether a scope is .cluster or wider. -/
def wideScope : Scope → Bool
  | .cluster | .dev | .sys => true
  | _ => false

/-- The lanes of a vector memory instruction with their addresses (spec/13 R257). -/
def memLanes (r : Team) (k a b : Nat) (nv u : Bool) : List (Nat × W64) :=
  (active r k).map fun l => (l, laneAddr r a b nv u l)

/-- The one access of an instruction that executes once, in the place of a lane (spec/13 R260): the lane whose stack an address of
the stack window would use is not stated, and is a free choice among the active ones (notes/assumptions/15.md). -/
def onceLanes (s : State) (r : Team) (k a : Nat) : List (Nat × W64) :=
  let act := active r k
  match act with
  | [] => []
  | [l] => [(l, sget r a)]
  | l :: _ =>
    if stackWinBase ≤ (sget r a).toNat ∧ (sget r a).toNat < clusterBase then
      [(act.getD ((Config.freeWord s.free 0).toNat % act.length) l, sget r a)]
    else [(l, sget r a)]

/-- The elements of V[d..] in lane `l` that bytes fill, zero-extended (spec/13 R258). -/
def vBytes (d l : Nat) (bs : List Byte) : List Wr :=
  (List.range ((bs.length + 3) / 4)).map fun j =>
    .v (d + j) l (BitVec.ofNat 32 (leNat ((bs.drop (4 * j)).take 4)))

/-- The destination of a vector load. -/
def vLoadDest (d : Nat) (got : List (Nat × List Byte)) : Dest :=
  { v := got.foldl (fun m g => (vBytes d g.1 g.2).foldl (fun m w => match w with
      | .v r l x => tbSet m (vkey r l) x
      | _ => m) m) [], s := [], c := [] }

/-- The destination of a scalar load. -/
def sLoadDest (d : Nat) (got : List (Nat × List Byte)) : Dest :=
  { v := [], s := match got with | g :: _ => [(d, BitVec.ofNat 64 (leNat g.2))] | [] => [], c := [] }

/-- What the lanes of a load read: values, the largest stamp, the largest tag, the failing lanes, and the stamp of each lane. -/
structure Reads where
  got : List (Nat × List Byte)
  stamp : W64
  tag : W64
  bad : List (Nat × W64 × Nat)
  stamps : Tab W64
  deriving DecidableEq, Repr

/-- The parts of the blocks that lanes read in two sectors, with the stamp each block read: a write to one of them before the load completes
follows what the other was read from (spec/13 R269, spec/19 R370, R388). -/
def blocksRead (s : State) (ls : List (Nat × W64 × List Piece)) (rd : Reads) : List (Nat × Nat × W64) :=
  ls.flatMap fun x =>
    let st := (tbGet rd.stamps x.1).getD 0
    let parts := x.2.2.flatMap fun p => spans (pieceKey s p) p.n 3
    if st = 0 || parts.length < 2 then [] else parts.map fun k => (k.1, k.2, st)

/-- Perform the reads of the lanes in order. -/
def readLanes (s : State) (t : Team) (acq page : Bool) : List (Nat × W64 × List Piece) → State × Reads
  | [] => (s, ⟨[], 0, 0, [], []⟩)
  | (l, a, ps) :: ls =>
    let (s, r) := readLane s t acq page a ps
    let (s, rs) := readLanes s t acq page ls
    match r with
    | .ok g => (s, { rs with got := (l, g.1) :: rs.got, stamp := maxW g.2.1 rs.stamp, tag := maxW g.2.2 rs.tag,
                               stamps := (l, g.2.1) :: rs.stamps })
    | .error e => (s, { rs with bad := (l, e) :: rs.bad })

/-- The late fault of failing lanes, which escalates where the handler met it (spec/25 R486); `once` is the mask of an instruction that executes once. -/
def lateOf (id : Nat) (t : Team) (once : Option Mask) (bad : List (Nat × W64 × Nat)) : Option Late :=
  match bad with
  | [] => none
  | (_, a, key) :: _ =>
    let m := once.getD (maskOf (bad.map (·.1)))
    let addrs := match once with
      | some m => sameAddr m a
      | none => bad.foldl (fun x b => smSet 0 x b.1 b.2.1) []
    some ⟨id, .dataUncorrectable, t.pc, m, addrs, key, none, t.priv⟩

/-- The precise fault of failed checks. -/
def checkFault (once : Option Mask) (fs : List (Nat × XErr)) : Option Flt :=
  match once with
  | some m => match fs with | e :: _ => some (onceFault m e.2) | [] => none
  | none => pickFault fs

/-- A load: the checks, the wait of .sc, the reads, the operation that writes its destination (spec/13 R262-R265). -/
def loadAct (i : Instr) (t : Team) (tid : Nat) (s : State) (lanes : List (Nat × W64)) (n : Nat) (acc : Acc)
    (once : Option Mask) (order : Order) (scope : Scope) (page : Bool) (dest : List (Nat × List Byte) → Dest) : Act :=
  if lanes = [] then .go s
  else if isRel order && mustDrain s tid then .wait s .drain
  else
    let (s1, cs) := checkLanes s t tid acc n lanes
    match checkFault once (failures cs) with
    | some f => .fault s1 f
    | none =>
      let ls := passed cs
      match watchAct s1 tid once (watchLanes s1 t false ls) with
      | some a => a
      | none =>
        let acq := isAcq order
        let (s2, rd) := readLanes (dropMixed (scState order s1 tid) t ls) t acq page ls
        let s2 := if isSc order then noteScRead s2 rd.stamp else s2
        let s2 := if acq && wideScope scope then dropL1 s2 t.home t.ctx else s2
        let id := s2.nextId
        let op := { newOp t tid i (dest rd.got) .load with
          floor := if acq then maxW rd.stamp rd.tag else rd.stamp, late := lateOf id t once rd.bad,
          ext := extReqs s1 once false page (fun _ _ => none) ls, reads := if page then blocksRead s2 ls rd else [] }
        let s3 := launchOp s2 tid op
        if acq then .hold s3 id else .go (modTeam s3 tid fun t => { t with tagSeen := maxW t.tagSeen rd.tag })

/-- The access of a load of a width. -/
def ldAcc (w : Width) : Acc := ⟨false, some roleLoad, widthAlign w, false, false⟩

/-- LD (spec/13 R262). -/
def execLd (o : MemOp) (s : State) : Host.Outcome State Fault Refusal :=
  issue (.ld o) s fun r t tid s =>
    loadAct (.ld o) t tid s (memLanes r o.k o.a o.b o.nv o.u) (widthBytes o.width) (ldAcc o.width) none o.order o.scope
      false (vLoadDest o.d)

/-- LDS (spec/13 R262, R260). -/
def execLds (o : MemOp) (s : State) : Host.Outcome State Fault Refusal :=
  issue (.lds o) s fun r t tid s =>
    loadAct (.lds o) t tid s (onceLanes s r o.k o.a) (widthBytes o.width) (ldAcc o.width)
      (some (maskOf (active r o.k))) o.order o.scope false (sLoadDest o.d)

/-- LDPK (spec/13 R269). -/
def execLdpk (k fs d a b : Nat) (nv u t6 : Bool) (s : State) : Host.Outcome State Fault Refusal :=
  issue (.ldpk k fs d a b nv u t6) s fun r t tid s =>
    loadAct (.ldpk k fs d a b nv u t6) t tid s (memLanes r k a b nv u) (if t6 then 36 else 48)
      ⟨false, some roleLoad, 4, true, false⟩ none .relaxed .team true (vLoadDest d)

/-! ### Stores -/

/-- The bytes of V[d..] in lane `l`, low bytes first. -/
def vData (r : Team) (d l n : Nat) : List Byte :=
  ((List.range ((n + 3) / 4)).flatMap fun j => leBytes 4 (vget r (d + j) l).toNat).take n

/-- The entry a failed store of a lane is logged by (spec/25 R451). -/
def storeEntry (i : Instr) (t : Team) (l : Nat) (a : W64) (data : List Byte) : LogEntry :=
  ⟨a, BitVec.ofNat 64 (leNat (data.take 8)), 0x10, opcOf i, 0, 0, l, t.pc⟩

/-- The first `n` bytes from byte `i` of a piece. -/
def subPiece (p : Piece) (i n : Nat) : Piece :=
  { p with addr := p.addr + i, n := n, key := p.key + i, loc := match p.loc with
    | .part cid off => .part cid (off + i)
    | .stk off => .stk (off + i)
    | .peer id off => .peer id (off + i)
    | .glob va => .glob (va + i) }

/-- The runs of consecutive numbers of a rising list: the first and the count of each. -/
def runsOf : List Nat → List (Nat × Nat)
  | [] => []
  | i :: is =>
    match runsOf is with
    | (j, m) :: rs => if j = i + 1 then (i, m + 1) :: rs else (i, 1) :: (j, m) :: rs
    | [] => [(i, 1)]

/-- The pieces of lanes, each with the key it stands for, be it through a stash window. -/
def keyed (s : State) (ls : List (Nat × W64 × List Piece)) : List (Nat × W64 × List (Nat × Piece)) :=
  ls.map fun x => (x.1, x.2.1, x.2.2.map fun p => (pieceKey s p, p))

/-- The runs of the `n` bytes from a key that none of some higher lanes' pieces writes too. -/
def ownRuns (k n : Nat) (higher : List (Nat × Piece)) : List (Nat × Nat) :=
  let near := higher.filter fun q => decide (q.1 < k + n ∧ k < q.1 + q.2.n)
  runsOf ((List.range n).filter fun i => !near.any fun q => decide (q.1 ≤ k + i ∧ k + i < q.1 + q.2.n))

/-- Fill the chunks that the lanes of a store touch: the lanes that can be written, and those whose fill failed (spec/13 R273). -/
def fillLanes : List (Nat × W64 × List Piece) → State → State × List (Nat × W64 × List Piece) × List (Nat × W64 × Nat)
  | [], s => (s, [], [])
  | (l, a, ps) :: ls, s =>
    let (s, r) := fillPieces s ps
    let (s, ok, bad) := fillLanes ls s
    match r with
    | some e => (s, ok, (l, e) :: bad)
    | none => (s, (l, a, ps) :: ok, bad)

/-- Write the lanes of a store. A byte that several lanes write is written once, with the value of the highest (spec/13 R261, spec/19
R368, R386). -/
def putLanes (i : Instr) (id : Nat) (t : Team) (data : Nat → List Byte) :
    List (Nat × W64 × List (Nat × Piece)) → State → State
  | [], s => s
  | (l, a, ps) :: ls, s =>
    let w := teamWriter s t (some id) (some (storeEntry i t l a (data l)))
    let higher := ls.flatMap fun x => x.2.2
    putLanes i id t data ls (ps.foldl (fun s p => (ownRuns p.1 p.2.n higher).foldl (fun s r =>
      writePiece s t (subPiece p.2 r.1 r.2) (((data l).drop r.1).take r.2) w) s) s)

/-- The fills and the writes of a store; the lanes whose stash fill failed write nothing. -/
def writeLanes (i : Instr) (id : Nat) (t : Team) (data : Nat → List Byte) (ls : List (Nat × W64 × List Piece)) (s : State) :
    State × List (Nat × W64 × Nat) :=
  let (s, ok, bad) := fillLanes ls s
  (putLanes i id t data (keyed s ok) s, bad)

/-- A store (spec/13 R262, R264, R265; spec/25 R486). -/
def storeAct (i : Instr) (t : Team) (tid : Nat) (s : State) (lanes : List (Nat × W64)) (n : Nat) (acc : Acc)
    (once : Option Mask) (order : Order) (scope : Scope) (data : Nat → List Byte) : Act :=
  if lanes = [] then .go s
  else if isRel order && mustDrain s tid then .wait s .drain
  else
    let (s1, cs) := checkLanes s t tid acc n lanes
    match checkFault once (failures cs) with
    | some f => .fault s1 f
    | none =>
      let ls := passed cs
      match watchAct s1 tid once (watchLanes s1 t true ls) with
      | some a => a
      | none =>
        let id := s1.nextId
        let s2 := launchOp (scState order s1 tid) tid { newOp t tid i ⟨[], [], []⟩ .store with
          sc := isSc order, ext := extReqs s1 once true false (fun _ _ => none) ls }
        let (s3, bad) := writeLanes i id (scTeam order s1 t) data ls s2
        let s3 := if isAcq order && wideScope scope then dropL1 s3 t.home t.ctx else s3
        .go (modOp s3 id fun op => { op with late := lateOf id t once bad })

/-- The access of a store of a width. -/
def stAcc (w : Width) : Acc := ⟨true, some roleStore, widthAlign w, false, false⟩

/-- ST (spec/13 R262). -/
def execSt (o : MemOp) (s : State) : Host.Outcome State Fault Refusal :=
  issue (.st o) s fun r t tid s =>
    storeAct (.st o) t tid s (memLanes r o.k o.a o.b o.nv o.u) (widthBytes o.width) (stAcc o.width) none o.order o.scope
      fun l => vData r o.d l (widthBytes o.width)

/-- STS (spec/13 R262, R260). -/
def execSts (o : MemOp) (s : State) : Host.Outcome State Fault Refusal :=
  issue (.sts o) s fun r t tid s =>
    storeAct (.sts o) t tid s (onceLanes s r o.k o.a) (widthBytes o.width) (stAcc o.width)
      (some (maskOf (active r o.k))) o.order o.scope fun _ => leBytes (widthBytes o.width) (sget r o.d).toNat

/-! ### As-of loads (spec/13 R268) -/

/-- The generation pin with a stamp. Of two live pins with one stamp and different boundaries, which two SNAPs with no tracked write between leave, it
is the one created first: which of them answers is not stated (spec/13 R268, spec/21 R407), a design choice (notes/assumptions/43.md). -/
def liveGeneration (s : State) (st : W64) : Option Pin := s.gpins.find? fun p => decide (p.stamp = st)

/-- Step 7g of an as-of load for one piece (spec/13 R268, spec/21 R394). -/
def asofCheck (s : State) (st : W64) (a : W64) (p : Piece) : Option XErr :=
  let err (c : FCode) : Option XErr := some ⟨77, c, a, a, 0⟩
  match p.loc, p.xl with
  | .glob _, some x =>
    if !isHbm p.key || (!x.tracked && (liveGeneration s st).isNone) then err .historyUnavailable
    else if st.toNat < s.horizon.toNat then err .historyReclaimed
    else if clockOf s (homeOf s p.key) + 2 ^ 32 < logical st ∨ 2 ^ 53 ≤ logical st then err .stampRange
    else none
  | _, _ => err .historyUnavailable

/-- The checks of an as-of load with step 7g. -/
def asofChecks (s : State) (st : W64) (cs : List LaneCheck) : List LaneCheck :=
  cs.map fun c => match c.2.2 with
    | .error _ => c
    | .ok ps => match ps.findSome? (asofCheck s st c.2.1) with
      | some e => (c.1, c.2.1, .error e)
      | none => c

/-- AsOf of one piece: the home clock raised, the bytes, or the failing key (spec/13 R268, spec/21 R396, R407). -/
def asofRead (s : State) (st : W64) (p : Piece) : State × Except Nat (List Byte) :=
  let sec := sectorOf p.key
  if !reachable s p.key then (s, .error p.key)
  else
    let s := correctLees (sense s sec 0) (stackOf p.key) 0 (ofSector sec)
    let tracked := match p.xl with | some x => x.tracked | none => false
    let h := homeOf s p.key
    let s := if tracked && decide (clockOf s h < logical st) then setClock s h (logical st) else s
    let (d, po) := if tracked then asOfSector s sec st
      else match liveGeneration s st with
        | some g => generationSector s sec g.boundary
        | none => (memRead s (sec * 64) 64, poisoned s sec)
    if po then (s, .error p.key) else (s, .ok ((d.drop (p.key % 64)).take p.n))

/-- The reads of the lanes of an as-of load. -/
def asofLanes (st : W64) : List (Nat × W64 × List Piece) → State → State × Reads
  | [], s => (s, ⟨[], 0, 0, [], []⟩)
  | (l, a, ps) :: ls, s =>
    let (s, r) := match ps with
      | p :: _ => asofRead s st p
      | [] => (s, .ok [])
    let (s, rs) := asofLanes st ls s
    match r with
    | .ok bs => (s, { rs with got := (l, bs) :: rs.got })
    | .error k => (s, { rs with bad := (l, a, k) :: rs.bad })

/-- The stamp of the version an as-of load read at a key; 0 for an untracked sector (spec/25 R466). -/
def asofStamp (s : State) (st : W64) (key : Nat) : W64 :=
  if trackedKey s key then
    let sec := sectorOf key
    if (stampAt s sec).1.toNat ≤ st.toNat then (stampAt s sec).1
    else match versionAt sec st (leesOf s (stackOf key)) with
      | some v => v.1
      | none => 0
  else 0

/-- An as-of load (spec/13 R268). It raises no floor, not that of the entries it translated through either. -/
def asofAct (i : Instr) (t : Team) (tid : Nat) (s : State) (lanes : List (Nat × W64)) (w : Width) (once : Option Mask)
    (st : W64) (dest : List (Nat × List Byte) → Dest) : Act :=
  if lanes = [] then .go s
  else
    let (s1, cs) := checkLanes s t tid { ldAcc w with asof := true } (widthBytes w) lanes
    let s1 := { s1 with xlFloor := s.xlFloor }
    let cs := asofChecks s1 st cs
    match checkFault once (failures cs) with
    | some f => .fault s1 f
    | none =>
      let (s2, rd) := asofLanes st (passed cs) s1
      let id := s2.nextId
      .go (launchOp s2 tid { newOp t tid i (dest rd.got) .load with
        late := (lateOf id t once rd.bad).map fun f => { f with stamp := some (asofStamp s2 st f.phys) } })

/-- LDASOF (spec/13 R267, R268). -/
def execLdasof (o : AsofOp) (s : State) : Host.Outcome State Fault Refusal :=
  issue (.ldasof o) s fun r t tid s =>
    asofAct (.ldasof o) t tid s (memLanes r o.k o.a o.b o.nv false) o.width none (sget r o.st) (vLoadDest o.d)

/-- LDASOFS (spec/13 R267, R268). -/
def execLdasofs (o : AsofOp) (s : State) : Host.Outcome State Fault Refusal :=
  issue (.ldasofs o) s fun r t tid s =>
    asofAct (.ldasofs o) t tid s (onceLanes s r o.k o.a) o.width (some (maskOf (active r o.k))) (sget r o.st)
      (sLoadDest o.d)

/-! ### Prefetch (spec/13 R270) -/

/-- Bring the line of one lane's address to the L1, where the L1 may hold it. A lane that fails a check is dropped. -/
def prefLane (t : Team) (tid : Nat) (llc : Bool) (s : State) (a : W64) : State :=
  match checkLane s t tid ⟨false, none, 1, false, false⟩ 0 a 1 with
  | (s, .ok (p :: _)) =>
    match p.loc, p.xl with
    | .glob va, some x =>
      let base := va / 256 * 256
      (List.range 4).foldl (fun s j =>
        let va' := base + 64 * j
        let key := p.key / 256 * 256 + 64 * j
        if llc then (if x.cache = 2 then s else (readSector s key 1 0).1)
        else (readGlobal s t.home t.ctx va' key (x.pa / 256 * 256 + 64 * j) 1 x.cache false).1) s
    | _, _ => s
  | (s, _) => s

/-- PREF (spec/13 R270): of the checks of a lane only the role by address (step 6) faults; it raises no floor. -/
def execPref (k a b : Nat) (nv u llc : Bool) (s : State) : Host.Outcome State Fault Refusal :=
  issue (.pref k a b nv u llc) s fun r t tid s =>
    let lanes := memLanes r k a b nv u
    let bad := lanes.filter fun x => match aperture s t x.2 1 with
      | some loc => !t.priv && !loc.isPart && t.role != roleLoad && t.role != roleGeneral
      | none => false
    match bad with
    | [] => .go { lanes.foldl (fun s x => prefLane t tid llc s x.2) s with xlFloor := s.xlFloor }
    | _ => .fault s ⟨.roleViolation, 0, maskOf (bad.map (·.1)), bad.foldl (fun m b => smSet 0 m b.1 b.2) [], 1, 0⟩

/-! ### VAPND (spec/11 R254) -/

/-- VAPND. A counter that cannot be read faults precisely (spec/17 R352 step 7h; it is none of the late faults of spec/25
R486). On a counter in a stash window the model takes the faults of the access and its fill too, a chunk that cannot be filled with the
page's first byte, as R273 has it for any access, and a read-only chunk with R273's PAGE_PROTECTION: R254 lists neither and gives the
counter's address, a design choice (notes/assumptions/43.md). In a chunk of a tracked frame the write goes through to the home as an operation
of the team, as a store does (spec/13 R274); R361 lists no entry for VAPND, and where it fails the model logs its opcode 0x94, lane 0 and as
operand the counter's old value, a design choice (notes/assumptions/43.md). -/
def execVapnd (k d a : Nat) (s : State) : Host.Outcome State Fault Refusal :=
  issue (.vapnd k d a) s fun r t tid s =>
    let act := active r k
    let m := maskOf act
    let addr := sget r a
    if act = [] then .go s
    else
      match aperture s t addr 4 with
      | some (.part cid off) =>
        match checkLane s t tid ⟨true, none, 4, false, false⟩ 0 addr 4 with
        | (s1, .error e) => .fault s1 (onceFault m e)
        | (s1, .ok ps) =>
          match watchAct s1 tid (some m) (watchLanes s1 t true [(0, addr, ps)]) with
          | some x => x
          | none =>
            match fillPieces s1 ps with
            | (s1, some e) => .fault s1 (fltAt .dataUncorrectable m e.1 e.2)
            | (s1, none) =>
              let s1 := arrivePart s1 cid off 4
              match readPiece s1 t ⟨addr.toNat, 4, partKey cid off, .part cid off, none⟩ true with
              | (s1, .error key) => .fault s1 (fltAt .dataUncorrectable m addr key)
              | (s1, .ok g) =>
                let b := leNat g.1
                let through := (throughKey s1 cid off).isSome
                let w := teamWriter s1 t (if through then some s1.nextId else none)
                  (some (storeEntry (.vapnd k d a) t 0 addr (leBytes 4 b)))
                let s1 := if through then launchOp s1 tid (newOp t tid (.vapnd k d a) ⟨[], [], []⟩ .store) else s1
                let s2 := writePart s1 cid off (leBytes 4 (b + act.length)) { w with floor := maxW w.floor g.2.2 }
                let s2 := modTeam s2 tid fun t => { raiseFloor t g.2.1 with tagSeen := maxW t.tagSeen g.2.2 }
                .go (writeRegs s2 tid (act.map fun l =>
                  .v d l (BitVec.ofNat 32 (b + (act.filter fun j => decide (j < l)).length))))
      | _ => .fault s (fltAt .apertureBounds m addr 0)

end Sys2Proof.Machine
end

