-- ==== Sys2Proof/Machine/Atomics.lean ====
section
/-! DEFINITION. Atomics and reductions (spec/13 R276-R282; spec/17 R359, R360). -/

namespace Sys2Proof.Machine

/-- The lanes of an atomic with their addresses (spec/13 R276). -/
def atLanes (r : Team) (o : AtOp) : List (Nat × W64) :=
  (active r o.k).map fun l => (l, laneAddr r o.a o.b false o.u l)

/-- The access of an atomic of `n` bytes. -/
def atAcc (n : Nat) : Acc := ⟨true, none, n, false, false⟩

/-- f(old, y) on each element of `n` bytes, given as one number (spec/13 R282). -/
def eachElem (ty : Ty) (op : AOp) (old y : Nat) (n : Nat) : Nat :=
  let b := atBytes ty
  let m := 2 ^ (8 * b)
  (List.range (n / b)).foldl (fun a j => a + atomicF ty op (old / m ^ j % m) (y / m ^ j % m) * m ^ j) 0

/-- The number in V[d..] of lane `l`, `n` bytes of it. -/
def vNum (r : Team) (d l n : Nat) : Nat := leNat (vData r d l n)

/-- Perform the lanes of a returning atomic in ascending order (spec/13 R278). -/
def atomLanes (id : Nat) (t : Team) (f : Nat → Nat → Option Nat) : List (Nat × W64 × List Piece) → State → State × Reads
  | [], s => (s, ⟨[], 0, 0, [], []⟩)
  | (l, a, ps) :: ls, s =>
    match fillPieces s ps with
    | (s, some e) =>
      let (s, rs) := atomLanes id t f ls s
      (s, { rs with bad := (l, e) :: rs.bad })
    | (s, none) =>
      match ps with
      | [] => atomLanes id t f ls s
      | p :: _ =>
        match rmw s t p (f l) (teamWriter s t (some id) none) with
        | (s, .error k) =>
          let (s, rs) := atomLanes id t f ls s
          (s, { rs with bad := (l, a, k) :: rs.bad })
        | (s, .ok (old, st, tag)) =>
          let (s, rs) := atomLanes id t f ls s
          (s, { rs with got := (l, leBytes p.n old) :: rs.got, stamp := maxW st rs.stamp, tag := maxW tag rs.tag })

/-- A returning atomic: checks, the wait of .rel, the updates, the operation that writes the old values
(spec/13 R276-R280, spec/25 R486). -/
def atomAct (i : Instr) (o : AtOp) (r t : Team) (tid : Nat) (s : State) (n : Nat) (f : Nat → Nat → Option Nat) : Act :=
  let lanes := atLanes r o
  if lanes = [] then .go s
  else if isRel o.order && mustDrain s tid then .wait s .drain
  else
    let (s1, cs) := checkLanes s t tid (atAcc n) n lanes
    match checkFault none (failures cs) with
    | some fl => .fault s1 fl
    | none =>
      let ls := passed cs
      match watchAct s1 tid none (watchLanes s1 t true ls) with
      | some a => a
      | none =>
        let acq := isAcq o.order
        let id := s1.nextId
        let s2 := launchOp (scState o.order s1 tid) tid { newOp t tid i ⟨[], [], []⟩ .atomic with
          sc := isSc o.order, ext := extReqs s1 none false false (fun _ _ => none) ls }
        let (s3, rd) := atomLanes id (scTeam o.order s1 t) f ls s2
        let s3 := if isSc o.order then noteScRead s3 rd.stamp else s3
        let s3 := if acq && wideScope o.scope then dropL1 s3 t.home t.ctx else s3
        let s3 := modOp s3 id fun op =>
          { op with dest := vLoadDest o.d rd.got, late := lateOf id t none rd.bad,
                    floor := maxW op.floor (if acq then maxW rd.stamp rd.tag else rd.stamp) }
        if acq then .hold s3 id else .go (modTeam s3 tid fun t => { t with tagSeen := maxW t.tagSeen rd.tag })

/-- ATOM (spec/13 R278). -/
def execAtom (o : AtOp) (op : AOp) (s : State) : Host.Outcome State Fault Refusal :=
  issue (.atom o op) s fun r t tid s =>
    atomAct (.atom o op) o r t tid s (atBytes o.ty) fun l old =>
      some (atomicF o.ty op old (vNum r o.d l (atBytes o.ty)))

/-- ATCAS (spec/13 R279): the comparand, then the new value, in D and the registers after it. -/
def execAtcas (o : AtOp) (s : State) : Host.Outcome State Fault Refusal :=
  issue (.atcas o) s fun r t tid s =>
    let b := atBytes o.ty
    atomAct (.atcas o) o r t tid s b fun l old =>
      if old = vNum r o.d l b then some (vNum r (o.d + b / 4) l b) else none

/-- VATOM (spec/13 R282). -/
def execVatom (o : AtOp) (op : AOp) (s : State) : Host.Outcome State Fault Refusal :=
  issue (.vatom o op) s fun r t tid s =>
    atomAct (.vatom o op) o r t tid s 32 fun l old => some (eachElem o.ty op old (vNum r o.d l 32) 32)

/-! ### Reductions (spec/13 R281) -/

/-- Whether an operation may be gathered in U (spec/17 R359). -/
def gathers : AOp → Bool
  | .swap | .inc => false
  | _ => true

/-- Enter operands of a core into its partial (spec/17 R359). -/
def enterPartial (ty : Ty) (op : AOp) (core : Nat) (vals : List (Nat × Nat)) (parts : List Partial) : List Partial :=
  let old := match parts.find? fun p => p.core == core with | some p => p.vals | none => []
  let new := vals.foldl (fun m v => tbSet m v.1 (match tbGet m v.1 with
    | some x => atomicF ty op x v.2
    | none => v.2)) old
  insertPart ⟨core, new⟩ (parts.filter fun p => p.core != core)

/-- Gather a reduction of a core in U (spec/17 R359, spec/21 R417). -/
def gather (s : State) (t : Team) (key va : Nat) (ty : Ty) (op : AOp) (vals : List (Nat × Nat)) : State :=
  let sec := sectorOf key
  let s := match tbGet s.groups sec with
    | some g => if g.ty = ty ∧ g.op = op then s else combineGroup s sec
    | none => s
  let g := (tbGet s.groups sec).getD ⟨ty, op, [], 0, []⟩
  let tag := match tbGet s.launches t.launch with | some l => l.tag | none => 0
  let g := { g with parts := enterPartial ty op t.home vals g.parts, floor := maxW g.floor (teamWriter s t none none).floor,
                    members := insertNew g.members (t.ctx, t.launch, tag) }
  let s := { s with groups := tbSet s.groups sec g }
  let s := if isHbm key then indexBlock s t.launch (key / 4096) else s
  l1Put s t.home t.ctx (va / 64) none

/-- The elements of a reduction by offset in the sector. -/
def elemVals (ty : Ty) (key y n : Nat) : List (Nat × Nat) :=
  let b := atBytes ty
  (List.range (n / b)).map fun j => (key % 64 + b * j, y / 2 ^ (8 * b * j) % 2 ^ (8 * b))

/-- The log entry of a lane of a reduction (spec/13 R281, spec/17 R361). -/
def redEntry (i : Instr) (t : Team) (ty : Ty) (op : AOp) (l : Nat) (a : W64) (y : Nat) (code : FCode) : LogEntry :=
  ⟨a, BitVec.ofNat 64 y, code.num, opcOf i, ty.code, op.code, l, t.pc⟩

/-- The outcome of a read-modify-write of a reduction: the floor tag it read, or the code it fails with. -/
def redDone (r : State × Except Nat (Nat × W64 × W64)) : State × Except FCode W64 :=
  match r with
  | (s, .ok x) => (s, .ok x.2.2)
  | (s, .error _) => (s, .error .dataUncorrectable)

/-- The floor tag a gathered reduction reads: that of the bytes, and that of the group so far (spec/19 R387). -/
def gatherTag (s : State) (key n : Nat) : W64 :=
  maxW (tagRead s key n) (match tbGet s.groups (sectorOf key) with | some g => g.floor | none => 0)

/-- Perform one lane of a reduction: gathered, or performed at once, as always on an uncached page (spec/17 R343); the floor tag it read, or
the code it fails with. It is gathered also where the sector's stack is not ready, and the group waits for its recall: R359 lists no readiness
among what enters U, and R281 logs what is refused, a design choice (notes/assumptions/43.md). `log` is the entry of a write that fails on its way (spec/27 R473). -/
def redLane (s : State) (id : Nat) (t : Team) (ty : Ty) (op : AOp) (ps : List Piece) (y n : Nat) (log : LogEntry) :
    State × Except FCode W64 :=
  match fillPieces s ps with
  | (s, some _) => (s, .error .dataUncorrectable)
  | (s, none) =>
    match ps with
    | [] => (s, .ok 0)
    | p :: _ =>
      let sec := sectorOf p.key
      match p.loc, p.xl with
      | .glob va, some x =>
        if !x.tracked && x.cache != 2 && gathers op && (dirState s sec = .i || dirState s sec = .u) then
          (gather s t p.key va ty op (elemVals ty p.key y n), .ok (gatherTag s p.key n))
        else redDone (rmw s t p (fun old => some (eachElem ty op old y n)) (teamWriter s t (some id) (some log)))
      | _, _ => redDone (rmw s t p (fun old => some (eachElem ty op old y n)) (teamWriter s t (some id) (some log)))

/-- Perform the lanes of a reduction, logging those that fail (spec/13 R281); with the largest floor tag they read. -/
def redLanes (i : Instr) (id : Nat) (t : Team) (ty : Ty) (op : AOp) (n : Nat) (y : Nat → Nat) :
    List LaneCheck → State → State × W64
  | [], s => (s, 0)
  | (l, a, c) :: ls, s =>
    let (s, r) : State × Except FCode W64 := match c with
      | .error e => (s, .error e.code)
      | .ok ps => redLane s id t ty op ps (y l) n (redEntry i t ty op l a (y l) .dataUncorrectable)
    match r with
    | .error code =>
      redLanes i id t ty op n y ls (modOp s id fun o => { o with logs := o.logs ++ [redEntry i t ty op l a (y l) code] })
    | .ok tag =>
      let (s, x) := redLanes i id t ty op n y ls s
      (s, maxW tag x)

/-- Whether a failed check of a reduction is raised precisely (spec/13 R281); what a peer refuses is too (spec/17 R338). -/
def redPrecise (e : Nat × XErr) : Bool :=
  e.2.step == 5 || e.2.step == 6 || e.2.step == 71 || e.2.step == 78 || decide (e.2.code = .queueMisuse)

/-- A reduction (spec/13 R281, R282). -/
def redAct (i : Instr) (o : AtOp) (op : AOp) (r t : Team) (tid : Nat) (s : State) (n : Nat) : Act :=
  let lanes := atLanes r o
  if lanes = [] then .go s
  else if isRel o.order && mustDrain s tid then .wait s .drain
  else
    let (s1, cs) := checkLanes s t tid (atAcc n) n lanes
    match pickFault ((failures cs).filter redPrecise) with
    | some f => .fault s1 f
    | none =>
      match watchAct s1 tid none (watchLanes s1 t true (passed cs)) with
      | some a => a
      | none =>
        let id := s1.nextId
        let s2 := launchOp (scState o.order s1 tid) tid { newOp t tid i ⟨[], [], []⟩ .reduction with
          sc := isSc o.order,
          ext := extReqs s1 none false false (fun l a => some (redEntry i t o.ty op l a (vNum r o.d l n) .dataUncorrectable))
            (passed cs) }
        let (s3, tag) := redLanes i id (scTeam o.order s1 t) o.ty op n (fun l => vNum r o.d l n) cs s2
        .go (modTeam s3 tid fun t => { t with tagSeen := maxW t.tagSeen tag })

/-- RED (spec/13 R281). -/
def execRed (o : AtOp) (op : AOp) (s : State) : Host.Outcome State Fault Refusal :=
  issue (.red o op) s fun r t tid s => redAct (.red o op) o op r t tid s (atBytes o.ty)

/-- VRED (spec/13 R282). -/
def execVred (o : AtOp) (op : AOp) (s : State) : Host.Outcome State Fault Refusal :=
  issue (.vred o op) s fun r t tid s => redAct (.vred o op) o op r t tid s 32

end Sys2Proof.Machine
end

