-- ==== Sys2Proof/Machine/Allow.lean ====
section
/-! DEFINITION. Allowance counters: the instructions of spec/13 R283-R285 and the protocol at the home of spec/21 R420-R424
(floors: spec/19 R387). A counter is keyed by the location of its descriptor. -/

namespace Sys2Proof.Machine

/-- Change a counter. -/
def modCounter (s : State) (key : Nat) (f : Counter → Counter) : State := { s with counters := tbMod s.counters key f }

/-- The sum of a counter's shares. -/
def shareSum (c : Counter) : Nat := c.shares.foldl (fun n e => n + e.2.1) 0

/-- The value V = reserve + Σ shares (spec/13 R283). -/
def counterValue (c : Counter) : Nat := c.reserve + shareSum c

/-- The 64 bytes the home writes (spec/13 R283). -/
def descBytes (live : Bool) (c : Counter) : List Byte :=
  leBytes 8 (c.reserve % 2 ^ 48 + (if live then 0xA1C0 * 2 ^ 48 else 0)) ++
    leBytes 8 (c.init + (if c.ovf then 2 ^ 48 else 0)) ++ List.replicate 48 0

/-- A write of a descriptor by its home: no tracked write (spec/19 R386). One the home makes of its own accord to a stack that is down is lost
(spec/01 R25, notes/assumptions/43.md). That of a counter initialised through an uncached page leaves no line in the LLC (spec/17 R343). -/
def writeDesc (s : State) (key : Nat) (live : Bool) (c : Counter) : State :=
  if isHbm key then
    (if reachable s key then
      let s := forwardStash (putUntracked (settle s (sectorOf key) 0) key (descBytes live c) c.floor 0 0) (sectorOf key)
      if c.unc then uncache s (sectorOf key) else s
     else s)
  else memWrite s key (descBytes live c)

/-- Recall every share to the home, which then writes RESERVE (spec/21 R422, R424). -/
def recallShares (s : State) (key : Nat) : State :=
  match tbGet s.counters key with
  | none => s
  | some c =>
    let c' := { c with reserve := counterValue c, shares := [],
                       floor := c.shares.foldl (fun m e => maxW m e.2.2) c.floor }
    writeDesc { s with counters := tbSet s.counters key c' } key true c'

/-- The most counters a core's share table holds shares of (spec/21 R420). -/
def shareRoom : Nat := 64

/-- The counters a core holds shares of, other than one. -/
def sharesOf (s : State) (core key : Nat) : List Nat :=
  (s.counters.filter fun e => e.1 != key && (tbGet e.2.shares core).isSome).map (·.1)

/-- An entry of a core's share table returns its share to the home (spec/21 R424). -/
def returnShare (s : State) (key core : Nat) : State :=
  modCounter s key fun c =>
    match tbGet c.shares core with
    | some (x, fl) => { c with reserve := c.reserve + x, shares := tbDel c.shares core, floor := maxW c.floor fl }
    | none => c

/-- The limit at and above which the home grants no share (spec/21 R423). -/
def grantLimit : Nat := 2 ^ 48 - 2 ^ 46

/-- While the reserve is at or above the limit every share is recalled (spec/21 R423). -/
def atLimit (s : State) (key : Nat) : State :=
  match tbGet s.counters key with
  | some c => if grantLimit ≤ c.reserve ∧ c.shares ≠ [] then recallShares s key else s
  | none => s

/-- Make room in a core's share table for a counter: where 64 others hold entries, a free choice of them is evicted (spec/21 R420,
R424). -/
def makeShareRoom (s : State) (core key : Nat) : State :=
  let l := sharesOf s core key
  if l.length < shareRoom then s
  else match pickOne s 12 l with
    | some k => atLimit (returnShare s k core) k
    | none => s

/-- The outcome of ALDEC: satisfied with a floor, failed, or queued. -/
inductive Dec where
  | ok (floor : W64)
  | fail
  | queue
  deriving DecidableEq, Repr

/-- ALDEC of `n` at a core (spec/21 R421, spec/13 R285). -/
def aldecAt (s : State) (key core n : Nat) (wait : Bool) : State × Dec :=
  match tbGet s.counters key with
  | none => (s, .fail)
  | some c =>
    let no : Dec := if wait then .queue else .fail
    if n = 0 then (s, .ok c.floor)
    else
      match (if c.queue = [] then tbGet c.shares core else none) with
      | some (x, fl) =>
        if n ≤ x then (modCounter s key fun c => { c with shares := tbSet c.shares core (x - n, fl) }, .ok fl)
        else atHome (atLimit (returnShare s key core) key) no
      | none => atHome (atLimit s key) no
where
  /-- The request at the home. -/
  atHome (s : State) (no : Dec) : State × Dec :=
    match tbGet s.counters key with
    | none => (s, .fail)
    | some c =>
      if c.queue ≠ [] then (s, no)
      else if n ≤ c.reserve then
        let g := if grantLimit ≤ c.reserve then n
                 else min (min c.reserve (max n ((c.reserve + 7) / 8))) (2 ^ 38 - 1 + n)
        let c' := { c with reserve := c.reserve - g,
                           shares := if g = n then c.shares else tbSet c.shares core (g - n, c.floor) }
        let s := if g = n then s else makeShareRoom s core key
        ({ s with counters := tbSet s.counters key c' }, .ok c.floor)
      else
        let s := recallShares s key
        match tbGet s.counters key with
        | none => (s, .fail)
        | some c =>
          if n ≤ c.reserve then (modCounter s key fun c => { c with reserve := c.reserve - n }, .ok c.floor)
          else (s, no)

/-- ALINC of `n` at a core with the floor of a release (spec/21 R423, spec/13 R285). A sum that would pass 2^48 - 1 is clamped at
the home (notes/assumptions/28.md). OVF reaches the descriptor's bytes with RESERVE, at the next recall or eviction: R424 says when RESERVE is
written and R283 not when OVF is, a design choice (notes/assumptions/43.md). -/
def alincAt (s : State) (key core n : Nat) (floor : W64) : State :=
  match tbGet s.counters key with
  | none => s
  | some c =>
    match (if c.queue = [] && decide (c.reserve < grantLimit) then tbGet c.shares core else none) with
    | some (x, fl) =>
      if x + n < 2 ^ 38 ∧ counterValue c + n < 2 ^ 48 then modCounter s key fun c => { c with shares := tbSet c.shares core (x + n, maxW fl floor) }
      else atHome s
    | none => atHome s
where
  /-- The increment at the home; the clamp is applied to the exact V. -/
  atHome (s : State) : State :=
    match tbGet s.counters key with
    | none => s
    | some c =>
      let s := if grantLimit ≤ c.reserve ∨ 2 ^ 48 - 1 < counterValue c + n then recallShares s key else s
      atLimit (modCounter s key fun c =>
        { c with reserve := min (c.reserve + n) (2 ^ 48 - 1), ovf := c.ovf || decide (2 ^ 48 - 1 < c.reserve + n),
                 floor := maxW c.floor floor }) key

/-- What the checks of an allowance address allow: the key of the descriptor (spec/13 R284). `role` limits a global counter to
the vector roles (spec/03 R62). -/
def counterCheck (s : State) (t : Team) (a : W64) (write role : Bool) (n : Nat) : State × Except XErr Nat :=
  let err (step : Nat) (c : FCode) : Except XErr Nat := .error ⟨step, c, a, a, 0⟩
  match aperture s t a 64 with
  | some (.part cid off) =>
    if a.toNat % 64 ≠ 0 then (s, err 71 .misaligned)
    else if 2 ^ 48 ≤ n then (s, err 77 .allowanceInvalid)
    else (s, .ok (partKey cid off))
  | some (.glob va) =>
    if role && !t.priv && !vecRole t.role then (s, err 6 .roleViolation)
    else if va % 64 ≠ 0 then (s, err 71 .misaligned)
    else
      match translate s t.ctx (teamHub t) va write with
      | (s, .error e) => (s, .error e)
      | (s, .ok x) =>
        if !isHbm x.key || decide (2 ^ 48 ≤ n) then (s, err 77 .allowanceInvalid) else (s, .ok x.key)
  | _ => (s, err 5 .apertureBounds)

/-- The watchpoints an allowance instruction's access to its descriptor hits; one in a partition is an access through the windows
(spec/23 R448). -/
def allowWatch (s : State) (t : Team) (write : Bool) (a : W64) : List (Nat × W64 × Nat) :=
  match aperture s t a 64 with
  | some (.part cid off) => watchLanes s t write [(0, a, [⟨a.toNat, 64, partKey cid off, .part cid off, none⟩])]
  | _ => []

/-- The shared part of the allowance instructions: nothing with an empty mask, then the checks, then `f` of the
descriptor's key (spec/13 R260, R284). -/
def allowAct (r t : Team) (tid : Nat) (s : State) (k a : Nat) (write role : Bool) (n : Nat) (f : Mask → W64 → Nat → State → Act) :
    Act :=
  if active r k = [] then .go s
  else
    let m := maskOf (active r k)
    let addr := sget r a
    match counterCheck s t addr write role n with
    | (s, .error e) => .fault s (onceFault m e)
    | (s, .ok key) =>
      match watchAct s tid (some m) (allowWatch s t write addr) with
      | some act => act
      | none => f m addr key s

/-- Whether a request at a live counter's home reaches no memory (spec/01 R25). -/
def homeDown (s : State) (key : Nat) : Bool := !reachable s key

/-- Whether an ALDEC of `n` is served from its core's share, with no request to the home (spec/21 R421). -/
def aldecLocal (s : State) (key core n : Nat) : Bool :=
  match tbGet s.counters key with
  | some c => c.queue.isEmpty && (match tbGet c.shares core with | some x => decide (n ≤ x.1) | none => false)
  | none => false

/-- Whether an ALINC of `n` is served from its core's share (spec/21 R423). -/
def alincLocal (s : State) (key core n : Nat) : Bool :=
  match tbGet s.counters key with
  | some c => c.queue.isEmpty && decide (c.reserve < grantLimit) && (match tbGet c.shares core with
      | some x => decide (x.1 + n < 2 ^ 38 ∧ counterValue c + n < 2 ^ 48)
      | none => false)
  | none => false

/-- A request for a write at a home that is down: it is not performed, and the context's log says so (spec/01 R25, spec/25 R451), with the
lowest active lane and the value or count as operand (notes/assumptions/43.md). -/
def allowLost (i : Instr) (s : State) (r t : Team) (k : Nat) (addr : W64) (n : Nat) : Act :=
  .go { s with logq := s.logq ++ [(t.ctx, ⟨addr, BitVec.ofNat 64 n, 0x10, opcOf i, 0, 0, (active r k).headD 0, t.pc⟩)] }

/-- A request whose answer the team waits for at a home that is down: DATA_UNCORRECTABLE, precise, since spec/25 R486 does not list it among the
late faults (spec/01 R25, notes/assumptions/43.md). -/
def allowFails (s : State) (m : Mask) (addr : W64) (key : Nat) : Act := .fault s (fltAt .dataUncorrectable m addr key)

/-- ALLOWANCE_INVALID at an address. -/
def notLive (s : State) (m : Mask) (a : W64) : Act := .fault s (fltAt .allowanceInvalid m a 0)

/-- Whether the page of a descriptor is uncached at the LLC (spec/17 R343). -/
def descUnc (s : State) (t : Team) (a : W64) : Bool :=
  match aperture s t a 64 with
  | some (.glob va) => (match (translate s t.ctx (teamHub t) va true).2 with | .ok x => x.cache == 2 | .error _ => false)
  | _ => false

/-- ALINIT (spec/13 R285). A descriptor over a declared ring raises QUEUE_MISUSE, after the check of liveness: R73 bars a store there, and R284 lists
no such check, a design choice (notes/assumptions/43.md). -/
def execAlinit (k a : Nat) (b : LSrc) (s : State) : Host.Outcome State Fault Refusal :=
  issue (.alinit k a b) s fun r t tid s =>
    let n := countVal r b
    allowAct r t tid s k a true false n fun m addr key s =>
      if (tbGet s.counters key).isSome then notLive s m addr
      else if (match aperture s t addr 64 with | some (.part cid off) => inRing s cid off 64 | _ => false) then
        .fault s (fltAt .queueMisuse m addr 0)
      else if homeDown s key then allowLost (.alinit k a b) s r t k addr n
      else
        let c : Counter := ⟨t.ctx, n, false, n, [], [], 0, descUnc s t addr⟩
        .go (writeDesc { s with counters := tbSet s.counters key c } key true c)

/-- ALDEC (spec/13 R285). The team is held by an acquire until it completes (spec/19 R370, R387). -/
def execAldec (k fs d a : Nat) (b : LSrc) (acq : Bool) (scope : Scope) (wait : Bool) (s : State) :
    Host.Outcome State Fault Refusal :=
  issue (.aldec k fs d a b acq scope wait) s fun r t tid s =>
    let i : Instr := .aldec k fs d a b acq scope wait
    let n := countVal r b
    allowAct r t tid s k a true true n fun m addr key s =>
      if (tbGet s.counters key).isNone then notLive s m addr
      else if homeDown s key && !aldecLocal s key t.home n then allowFails s m addr key
      else
        let id := s.nextId
        let (s, out) := aldecAt s key t.home n wait
        let s := if acq && wideScope scope then dropL1 s t.home t.ctx else s
        let s := match out with
          | .ok fl => launchOp s tid { newOp t tid i ⟨[], [], [(d, true)]⟩ .allowance with floor := if acq then fl else 0 }
          | .fail => launchOp s tid (newOp t tid i ⟨[], [], [(d, false)]⟩ .allowance)
          | .queue =>
            let s := launchOp s tid (newOp t tid i ⟨[], [], []⟩ (.aldecWait addr key n d acq (wideScope scope) false))
            modCounter s key fun c => { c with queue := c.queue ++ [⟨id, n⟩] }
        if acq then .hold s id else .go s

/-- ALINC (spec/13 R285). -/
def execAlinc (k a : Nat) (b : LSrc) (rel : Bool) (scope : Scope) (s : State) : Host.Outcome State Fault Refusal :=
  issue (.alinc k a b rel scope) s fun r t tid s =>
    let n := countVal r b
    if rel && mustDrain s tid && active r k != [] then .wait s .drain
    else
      allowAct r t tid s k a true true n fun m addr key s =>
        if (tbGet s.counters key).isNone then notLive s m addr
        else if homeDown s key && !alincLocal s key t.home n then allowLost (.alinc k a b rel scope) s r t k addr n
        else .go (alincAt s key t.home n (if rel then relFloor s t else 0))

/-- ALRD (spec/13 R285). -/
def execAlrd (k fs d a : Nat) (acq : Bool) (scope : Scope) (s : State) : Host.Outcome State Fault Refusal :=
  issue (.alrd k fs d a acq scope) s fun r t tid s =>
    let i : Instr := .alrd k fs d a acq scope
    allowAct r t tid s k a false false 0 fun m addr key s =>
      match tbGet s.counters key with
      | none => notLive s m addr
      | some c =>
        if homeDown s key then allowFails s m addr key else
        let s := recallShares s key
        let fl := match tbGet s.counters key with | some c => c.floor | none => 0
        let id := s.nextId
        let s := if acq && wideScope scope then dropL1 s t.home t.ctx else s
        let s := launchOp s tid { newOp t tid i ⟨[], [(d, BitVec.ofNat 64 (counterValue c))], []⟩ .allowance with
          floor := if acq then fl else 0 }
        if acq then .hold s id else .go s

/-- The late fault of a waiter whose counter is freed: its own descriptor address in every live lane (spec/25 R486). -/
def freedLate (s : State) (w : Waiter) : State :=
  modOp s w.op fun o =>
    match o.kind with
    | .aldecWait addr _ _ _ _ _ _ =>
      let live := match s.team o.team with | some t => t.live | none => 0
      let priv := match s.team o.team with | some t => t.priv | none => false
      { o with kind := .allowance, dest := ⟨[], [], []⟩,
               late := some ⟨w.op, .allowanceInvalid, o.pc, live, sameAddr live addr, 0, none, priv⟩ }
    | _ => o

/-- ALFREE (spec/13 R285). -/
def execAlfree (k a : Nat) (s : State) : Host.Outcome State Fault Refusal :=
  issue (.alfree k a) s fun r t tid s =>
    allowAct r t tid s k a true false 0 fun m addr key s =>
      if (tbGet s.counters key).isNone then notLive s m addr
      else if homeDown s key then allowLost (.alfree k a) s r t k addr 0
      else
        let s := recallShares s key
        match tbGet s.counters key with
        | none => notLive s m addr
        | some c =>
          let s := writeDesc { s with counters := tbDel s.counters key } key false c
          .go (c.queue.foldl freedLate s)

end Sys2Proof.Machine
end

