-- ==== Sys2Proof/Machine/Fence.lean ====
section
/-! DEFINITION. Fences (spec/13 R286-R289), cache maintenance (R290), translation locks and mapping (R291-R293), the
history instructions (R294-R298) and the sweep (spec/21 R405). -/

namespace Sys2Proof.Machine

/-! ### Fences -/

/-- Whether a load or returning atomic of the team is in flight. -/
def loadsPending (s : State) (tid : Nat) : Bool :=
  anyOp s tid fun o => match o.kind with | .load | .atomic => true | _ => false

/-- Whether a context's log holds an entry not yet reported (spec/13 R289); the fences of one cycle meet it together (spec/25 R467). -/
def logArmed (s : State) (ctx : Nat) : Bool :=
  match tbGet s.contexts ctx with
  | some c => c.armed || (c.halted.isSome && c.haltCycle == s.cycle)
  | none => false

/-- Whether a fence raises REDUCTION_LOG_HALT: an entry is not yet reported, and it is not the fence at which its team resumes from a halt, which
then takes effect (spec/13 R289, spec/25 R459). -/
def haltsAt (s : State) (t : Team) : Bool := logArmed s t.ctx && !(t.logHalt && t.pc == t.resumepc)

/-- A fence takes effect: its team has resumed from a halt in full (spec/25 R459). -/
def passFence (s : State) (tid : Nat) : State := modTeam s tid fun t => { t with logHalt := false }

/-- The largest stamp the operations of a team in flight have read or been given. -/
def opFloors (s : State) (tid : Nat) : W64 := (opsOf s tid).foldl (fun m e => maxW m e.2.floor) 0

/-- The acquire side of a fence: STAMPFLOOR, the one floor a team's writes carry (spec/21 R393), covers the tags read and the stamps of the
reads the fence orders, and the L1 is dropped at a wide scope (spec/13 R287, spec/19 R387, R388; notes/assumptions/46.md). -/
def fenceAcq (s : State) (t : Team) (tid : Nat) (scope : Scope) : State :=
  let s := modTeam s tid fun t => raiseFloor t (maxW t.tagSeen (opFloors s tid))
  if wideScope scope then dropL1 s t.home t.ctx else s

/-- FENCE (spec/13 R287, R289); an acquire of .team or .crew scope waits for nothing, loads being performed at their issue (R299). -/
def execFence (k : Nat) (order : Order) (scope : Scope) (s : State) : Host.Outcome State Fault Refusal :=
  issue (.fence k order scope) s fun _ t tid s =>
    if haltsAt s t then .fault s (fltTeam t .reductionLogHalt)
    else if (isRel order && mustDrain s tid) || (isAcq order && wideScope scope && loadsPending s tid) then .wait s .drain
    else .go (passFence (scState order (if isAcq order then fenceAcq s t tid scope else s) tid) tid)

/-- Whether a tracked write on its way is one of a team's. -/
def writeOfTeam (s : State) (tid : Nat) (w : HomeWrite) : Bool :=
  match w.op.bind (tbGet s.ops) with
  | some o => o.team == tid
  | none => false

/-- A FENCEO of a team: its writes on their way are performed, STAMPFLOOR, which later ones carry (spec/21 R393), rises to their stamps and to
the floor of each FENCER whose request has reached the core; a later FENCER of the core's scope learns it (spec/13 R288; spec/19 R370, R380,
R388; notes/assumptions/46.md). -/
def orderTeam (s : State) (t : Team) (tid : Nat) : State :=
  let s := drainWrites (writeOfTeam s tid) s.homeq.length s
  let f := maxW (maxW (relFloor s t) (opFloors s tid)) (smGet 0 (s.core t.home).rfloors t.ctx)
  let s := modCore s t.home fun c => { c with ofloors := smSet 0 c.ofloors t.ctx (maxW f (smGet 0 c.ofloors t.ctx)) }
  modTeam s tid fun t => raiseFloor t f

/-- FENCEO (spec/13 R288, R289): it waits for nothing. -/
def execFenceo (k : Nat) (scope : Scope) (s : State) : Host.Outcome State Fault Refusal :=
  issue (.fenceo k scope) s fun _ t tid s =>
    if haltsAt s t then .fault s (fltTeam t .reductionLogHalt) else .go (passFence (orderTeam s t tid) tid)

/-- The cores of a scope (spec/13 R288). -/
def scopeCores (s : State) (t : Team) : Scope → List Nat
  | .team | .crew => [t.home]
  | .cluster => (clusterCrews s t.crew).filterMap fun c => (tbGet s.crews c).map (·.core)
  | .dev | .sys => List.range 256

/-- The stores, atomics and reductions of a context's teams on a core that are not acknowledged. -/
def coreWrites (s : State) (ctx core : Nat) : List Nat :=
  (s.ops.filter fun e => e.2.ctx == ctx && e.2.core == core &&
    (match e.2.kind with | .store | .atomic | .reduction => true | _ => false)).map (·.1)

/-- A serialising request reaches a core: from now on no global load of the context is served from a line filled before (spec/19 R380),
and the core's FENCEOs learn the floor of the FENCER. -/
def serialise (ctx : Nat) (f : W64) (s : State) (core : Nat) : State :=
  modCore (dropL1 s core ctx) core fun c => { c with rfloors := smSet 0 c.rfloors ctx (maxW f (smGet 0 c.rfloors ctx)) }

/-- FENCER (spec/13 R288, R289): FENCE.sc for the team, then a serialising request to every core of the scope. -/
def execFencer (k : Nat) (scope : Scope) (s : State) : Host.Outcome State Fault Refusal :=
  issue (.fencer k scope) s fun _ t tid s =>
    let i : Instr := .fencer k scope
    if haltsAt s t then .fault s (fltTeam t .reductionLogHalt)
    else if mustDrain s tid then .wait s .drain
    else
      let cores := scopeCores s t scope
      let f := maxW (maxW (relFloor s t) t.tagSeen) s.scFloor
      let s := cores.foldl (serialise t.ctx f) (enterS (fenceAcq s t tid scope) tid)
      let s := passFence s tid
      let id := s.nextId
      .hold (launchOp s tid (newOp t tid i ⟨[], [], []⟩ (.fencer (cores.map fun c => (c, coreWrites s t.ctx c)) 0))) id

/-! ### Leaves of a range -/

/-- A present leaf: the first address, the size, the entry. -/
abbrev Leaf := Nat × Nat × Nat

/-- The present leaves of a table that meet [lo, hi); `va` is the first address the table maps. -/
def leavesIn (s : State) (lo hi : Nat) : Nat → Nat → Nat → List Leaf
  | l, table, va =>
    let step := 2 ^ levelShift l
    let first := (lo - va) / step
    let last := min (levelEntries l) ((hi - va + step - 1) / step)
    ((List.range (last - first)).map (· + first)).flatMap fun j =>
      match readPa s (table + 8 * j) 8 0 with
      | (_, none) => []
      | (_, some bs) =>
        let e := leNat bs
        if !pteP e then []
        else if pteSize e = 0 then
          (if legalPtr s l e then
            match l with
            | 0 => []
            | m + 1 => leavesIn s lo hi m (pteTable e) (va + j * step)
           else [])
        else if legalLeaf l e then [(va + j * step, step, e)] else []

/-- The present leaves of a context that meet [lo, hi), as the table in memory has them: whether CMAINT follows a cached or locked CTU entry
that differs is not stated (spec/13 R290), a design choice (notes/assumptions/43.md). -/
def leavesOf (s : State) (ctx lo hi : Nat) : List Leaf :=
  match tbGet s.contexts ctx with
  | none => []
  | some c => leavesIn s lo hi 4 c.ptroot 0

/-- Whether a 64-byte sector overlaps [lo, hi) through some leaf. -/
def sectorIn (s : State) (ls : List Leaf) (lo hi sec : Nat) : Bool :=
  (pasOfKey s (sec * 64)).any fun pa => ls.any fun (va, size, e) =>
    let f := pteFrame e
    decide (f ≤ pa ∧ pa < f + size ∧ lo < va + (pa - f) + 64 ∧ va + (pa - f) < hi)

/-! ### CMAINT (spec/13 R290) -/

/-- Drop a core's copies of a context that overlap [lo, hi). -/
def dropL1Range (s : State) (core ctx lo hi : Nat) : State :=
  modCore s core fun c => { c with l1 := c.l1.filter fun x =>
    !(x.ctx == ctx && decide (lo < x.va * 64 + 64 ∧ x.va * 64 < hi)) }

/-- The effect of CMAINT on [lo, hi). -/
def cmaintState (s : State) (t : Team) (op : CmOp) (level : CmLevel) (lo hi : Nat) : State :=
  let s := match level, op with
    | _, .inv | _, .cleaninv => dropL1Range s t.home t.ctx lo hi
    | _, .clean => s
  match level with
  | .l1 => s
  | .llc => (s.dirty.filter (sectorIn s (leavesOf s t.ctx lo hi) lo hi)).foldl writeBack s
  | .mem =>
    let ls := leavesOf s t.ctx lo hi
    let hit (x : Nat) : Bool := sectorIn s ls lo hi x
    let s := (s.dirty.filter hit).foldl writeBack s
    { s with cxl := match op with
               | .clean => s.cxl.map fun l => if hit l.key then { l with dirty := false } else l
               | _ => s.cxl.filter fun l => !hit l.key }

/-- CMAINT (spec/13 R290). -/
def execCmaint (k a b : Nat) (op : CmOp) (level : CmLevel) (s : State) : Host.Outcome State Fault Refusal :=
  issue (.cmaint k a b op level) s fun r t tid s =>
    let act := active r k
    let addr := sget r a
    let len := (sget r b).toNat
    if act = [] then .go s
    else if mustDrain s tid then .wait s .drain
    else if len = 0 then .go s
    else if globEnd < addr.toNat + len then .fault s (fltAt .apertureBounds (maskOf act) addr 0)
    else .go (cmaintState s t op level addr.toNat (addr.toNat + len))

/-! ### Translation locks (spec/13 R291) -/

/-- Locked entries of a context in the fullest CTU. -/
def lockedCount (s : State) (ctx : Nat) : Nat :=
  (List.range 4).foldl (fun m h => max m ((ctuOf s h).filter fun e => e.ctx == ctx && e.locked).length) 0

/-- Load a locked entry in every CTU. -/
def lockEntry (s : State) (ctx : Nat) (base size e : Nat) (tag : W64 × Nat) : State :=
  (List.range 4).foldl (fun s h => ctuFill s h ⟨ctx, base, size, e, true, tag.1, tag.2⟩) s

/-- In how many CTUs an address has a locked entry. -/
def lockedIn (s : State) (ctx va : Nat) : Nat := ((List.range 4).filter fun h => (ctuFind s h ctx va true).isSome).length

/-- Lock the pages from `va` up to `stop`: none, or the fault at the page where it stops. R291 gives FAULTADDR for two kinds of fault only; for
an illegal or unreadable entry and a claim that does not match it is the page's first byte too, a design choice
(notes/assumptions/43.md). -/
def lockPages (ctx stop : Nat) : Nat → Nat → State → State × Option (Nat × FCode × Nat)
  | 0, _, s => (s, none)
  | fuel + 1, va, s =>
    if stop ≤ va then (s, none)
    else
      let g := va / 65536 * 65536
      match walk s ctx va 0 with
      | (s, .unreadable pa) => (s, some (g, .dataUncorrectable, (keyOfPa s pa).getD 0))
      | (s, .absent ..) => (s, some (g, .pageNotPresent, 0))
      | (s, .illegal) | (s, .pointer ..) => (s, some (g, .pageProtection, 0))
      | (s, .leaf _ pa e) =>
        match checkLeaf s va false e with
        | .error x => (s, some (x.page.toNat, x.code, 0))
        | .ok x =>
          let tag := pgTag s pa e
          if lockedIn s ctx va = 4 then lockPages ctx stop fuel (x.base + x.size) (noteXl s tag.1 tag.2)
          else if lockedIn s ctx va = 0 ∧ 4096 ≤ lockedCount s ctx then (s, some (x.base, .lockedMiss, 0))
          else lockPages ctx stop fuel (x.base + x.size) (lockEntry (noteXl s tag.1 tag.2) ctx x.base x.size e tag)

/-- The checks of TLBLOCK and TLBUNLOCK (spec/13 R291): the range lies in the global window, both values are multiples of
64 KiB. -/
def rangeCheck (a : W64) (len : Nat) : Option FCode :=
  if globEnd < a.toNat + len then some .apertureBounds
  else if a.toNat % 65536 ≠ 0 ∨ len % 65536 ≠ 0 then some .misaligned
  else none

/-- TLBLOCK (spec/13 R291). A range locked in part covers the pages before the one that faults. -/
def execTlblock (k a b : Nat) (s : State) : Host.Outcome State Fault Refusal :=
  issue (.tlblock k a b) s fun r t tid s =>
    let act := active r k
    let addr := sget r a
    let len := (sget r b).toNat
    if act = [] then .go s
    else if mustDrain s tid then .wait s .drain
    else
      match rangeCheck addr len with
      | some c => .fault s (fltAt c (maskOf act) addr 0)
      | none =>
        let lo := addr.toNat
        let note (s : State) (n : Nat) : State :=
          if n = 0 then s else modCtx s t.ctx fun c => { c with locked := insertNew c.locked (lo, n) }
        match lockPages t.ctx (lo + len) (lockedCount s t.ctx + 4098) lo s with
        | (s, none) => .go (note s len)
        | (s, some (page, code, phys)) =>
          .fault (note s (page - lo)) (fltAt code (maskOf act) (BitVec.ofNat 64 page) phys)

/-- A range of locked addresses without [lo, hi). -/
def cutRange (lo hi : Nat) (r : Nat × Nat) : List (Nat × Nat) :=
  let e := r.1 + r.2
  if hi ≤ r.1 ∨ e ≤ lo then [r]
  else (if r.1 < lo then [(r.1, lo - r.1)] else []) ++ (if hi < e then [(hi, e - hi)] else [])

/-- TLBUNLOCK (spec/13 R291). Of a range that covers part of a locked larger page, what becomes of the rest is not stated: the whole entry is ordinary
again and the rest of the range stays locked, so that an access there raises LOCKED_MISS, a design choice (notes/assumptions/43.md). -/
def execTlbunlock (k a b : Nat) (s : State) : Host.Outcome State Fault Refusal :=
  issue (.tlbunlock k a b) s fun r t tid s =>
    let act := active r k
    let addr := sget r a
    let len := (sget r b).toNat
    if act = [] then .go s
    else if mustDrain s tid then .wait s .drain
    else
      match rangeCheck addr len with
      | some c => .fault s (fltAt c (maskOf act) addr 0)
      | none =>
        let lo := addr.toNat
        let hi := lo + len
        let s := modCtx s t.ctx fun c => { c with locked := c.locked.flatMap (cutRange lo hi) }
        let one (e : Ctu) : Ctu :=
          if e.ctx == t.ctx && e.locked && decide (e.va < hi ∧ lo < e.va + e.size) then { e with locked := false } else e
        let all (m : Tab (List Ctu)) (h : Nat) : Tab (List Ctu) := smSet [] m h ((smGet [] m h).map one)
        .go { s with ctu := (List.range 4).foldl all s.ctu }

/-! ### PGMAP and PGUNMAP (spec/13 R292, R293) -/

/-- Write a page-table entry of the issuing team: a tracked write where the table lies on a tracked frame (spec/13 R292). -/
def writePte (s : State) (t : Team) (tid pa : Nat) (e : W64) : State :=
  match keyOfPa s pa with
  | none => s
  | some k =>
    let s := writeSector s k (leBytes 8 e.toNat) (trackedPa s pa) (teamWriter s t none none)
    let s := settle s (sectorOf k) 0
    if trackedPa s pa then modTeam s tid fun t => raiseFloor t (stampAt s (sectorOf k)).1 else s

/-- Whether the entry at a physical address can be written: its memory is reached and the home of a tracked table can stamp it, the writes
before it having reached that home (spec/21 R394, spec/25 R451). -/
def pteWritable (s : State) (t : Team) (pa : Nat) : Bool :=
  match keyOfPa s pa with
  | none => false
  | some k => reachable s k && (!trackedPa s pa || canStamp s k (teamWriter s t none none).floor)

/-- The writes on their way to the home of a page-table entry of a tracked table reach it. -/
def drainPte (s : State) (pa : Nat) : State :=
  match keyOfPa s pa with
  | none => s
  | some k => if trackedPa s pa then drainHome s k else s

/-- The entry of the reduction-fault log for a page-table entry that could not be written (spec/25 R451): the address mapped, the entry as
operand, the lowest active lane (notes/assumptions/43.md). -/
def pteLost (i : Instr) (s : State) (t : Team) (lane : Nat) (addr e : W64) : State :=
  { s with logq := s.logq ++ [(t.ctx, ⟨addr, e, 0x10, opcOf i, 0, 0, lane, t.pc⟩)] }

/-- The floor of a PGMAP whose entry is written: the team's, which covers the entry's own stamp (spec/19 R387, R388). -/
def pgFloor (s : State) (tid : Nat) : W64 := match s.team tid with | some t => relFloor s t | none => 0

/-- Note the entry PGMAP wrote at a physical address, with the team's floor and the time; `none` where PGUNMAP wrote it (spec/19 R371,
R387). -/
def notePgmap (s : State) (pa : Nat) (e : Option (Nat × W64 × Nat)) : State :=
  match keyOfPa s pa with
  | none => s
  | some k => { s with pgmaps := match e with | some x => tbSet s.pgmaps k x | none => tbDel s.pgmaps k }

/-- PGMAP (spec/13 R292). For S[A] at or above 2^57 the rule lists no check: it raises APERTURE_BOUNDS before the listed ones, as does
PGUNMAP, a design choice (notes/assumptions/43.md). An entry that cannot be written is reported as R451 has it and leaves D clear. -/
def execPgmap (k d a b : Nat) (s : State) : Host.Outcome State Fault Refusal :=
  issue (.pgmap k d a b) s fun r t tid s =>
    let act := active r k
    let addr := sget r a
    let e := (sget r b).toNat
    let m := maskOf act
    if act = [] then .go s
    else if mustDrain s tid then .wait s .drain
    else if globEnd ≤ addr.toNat then .fault s (fltAt .apertureBounds m addr 0)
    else if !pteP e || pteSize e == 0 then .fault s (fltAt .pageProtection m addr 0)
    else if addr.toNat % sizeBytes (pteSize e) ≠ 0 then .fault s (fltAt .misaligned m addr 0)
    else
      let level := pteSize e - 1
      let clear (s : State) : Act := .go (writeRegs s tid [.c d false])
      match walk s t.ctx addr.toNat level with
      | (s, .illegal) => .fault s (fltAt .pageProtection m addr 0)
      | (s, .unreadable pa) => .fault s (fltAt .dataUncorrectable m addr ((keyOfPa s pa).getD 0))
      | (s, .leaf ..) | (s, .pointer ..) => clear s
      | (s, .absent l pa _) =>
        if l ≠ level then .fault s (fltAt .pageNotPresent m addr 0)
        else
          let s := drainPte s pa
          if !pteWritable s t pa then clear (pteLost (.pgmap k d a b) s t (act.headD 0) addr (sget r b)) else
          let s := writePte s t tid pa (sget r b)
          let tag := (pgFloor s tid, s.free)
          let s := notePgmap s pa (some (e, tag))
          let s := if inLocked s t.ctx addr.toNat && decide (lockedCount s t.ctx < 4096) then
            lockEntry s t.ctx addr.toNat (sizeBytes (pteSize e)) e tag else s
          .go (writeRegs s tid [.c d true])

/-- Let every tracked write in flight reach its home. -/
def drainAll (s : State) : State := drainWrites (fun _ => true) s.homeq.length s

/-- Whether an accepted near-memory command of a context that has not ended has translated pages that meet [lo, hi). -/
def nmcUses (s : State) (ctx lo hi : Nat) : Bool :=
  s.cmds.any fun e => e.2.ctx == ctx &&
    match e.2.kind with
    | .nmc n => n.ready && !n.homes.isEmpty && n.pages.any fun p => decide (p.1 < hi ∧ lo < p.1 + p.2.1)
    | _ => false

/-- Write back the dirty sectors of the chunks of a crew's windows that `p` selects. -/
def cleanChunks (s : State) (cid : Nat) (pc : W64) (p : Window → Nat → Bool) : State :=
  match tbGet s.crews cid with
  | none => s
  | some c => c.windows.foldl (fun s w => w.chunks.foldl (fun s (i, ch) =>
      if p w i then
        (List.range 8).foldl (fun s j =>
          recallOne (ch.keys.getD j 0) pc s (cid, w.off, i, j, partKey cid (w.off + 512 * i + 64 * j))) s
      else s) s) s

/-- Step 4 of R293: chunks of the context's windows that cover the page are written back and left unfilled. -/
def unfillPage (s : State) (ctx base size : Nat) : State :=
  let covers (w : Window) (i : Nat) : Bool :=
    let va := w.va.toNat + 512 * i
    decide (base ≤ va ∧ va < base + size)
  (s.crews.filter fun e => e.2.ctx == ctx).foldl (fun s e =>
    modCrew (cleanChunks s e.1 0 covers) e.1 fun c => { c with windows := c.windows.map fun w =>
      { w with chunks := w.chunks.filter fun x => !covers w x.1 } }) s

/-- PGUNMAP (spec/13 R293). The waits of step 5 come before step 1: no access is then under way when the entry is written. A walk that
meets an illegal or unreadable entry finds no present leaf: nothing is written and no fault raised, a design choice; an entry that cannot be
written is reported as R451 has it and stays mapped (notes/assumptions/43.md). -/
def execPgunmap (k a b : Nat) (s : State) : Host.Outcome State Fault Refusal :=
  issue (.pgunmap k a b) s fun r t tid s =>
    let act := active r k
    let addr := sget r a
    let m := maskOf act
    if act = [] then .go s
    else if mustDrain s tid then .wait s .drain
    else if globEnd ≤ addr.toNat then .fault s (fltAt .apertureBounds m addr 0)
    else if pteP (sget r b).toNat then .fault s (fltAt .pageProtection m addr 0)
    else
      match walk s t.ctx addr.toNat 0 with
      | (s, .leaf l pa _) =>
        let size := sizeBytes (l + 1)
        let base := addr.toNat / size * size
        if nmcUses s t.ctx base (base + size) then .wait s (.pages base size)
        else
          let s := drainPte s pa
          if !pteWritable s t pa then .go (pteLost (.pgunmap k a b) s t (act.headD 0) addr (sget r b)) else
          let s := notePgmap (writePte s t tid pa (sget r b)) pa none
          let s := shootDown s fun e => e.ctx == t.ctx && decide (e.va < base + size ∧ base < e.va + e.size)
          let s := { s with cores := s.cores.foldl (fun m (e : Nat × Core) =>
            smSet Core.zero m e.1 { e.2 with l1 := e.2.l1.filter fun x =>
              !(x.ctx == t.ctx && decide (base ≤ x.va * 64 ∧ x.va * 64 < base + size)) }) s.cores }
          .go (drainAll (unfillPage s t.ctx base size))
      | (s, _) => .go s

/-! ### History (spec/13 R294-R298) -/

/-- A history instruction whose value is settled now and written at its completion. -/
def historyAct (i : Instr) (s : State) (t : Team) (tid : Nat) (dest : Tab W64) (floor : W64) (h : Hist) : Act :=
  .go (launchOp s tid { newOp t tid i ⟨[], dest, []⟩ (.history h) with floor := floor })

/-- STAMPGET (spec/13 R295): earlier stores are acknowledged before it reads STAMPFLOOR. -/
def execStampget (k fs d : Nat) (s : State) : Host.Outcome State Fault Refusal :=
  issue (.stampget k fs d) s fun _ t tid s =>
    let i : Instr := .stampget k fs d
    if mustDrain s tid then .wait s .drain
    else historyAct i s t tid [(d, relFloor s t)] 0 (.stampget d)

/-- The untracked HBM sectors that some stash window holds dirty. -/
def stashDirty (s : State) : List Nat :=
  s.crews.flatMap fun c => c.2.windows.flatMap fun w => w.chunks.flatMap fun x =>
    ((List.range 8).filter fun j => x.2.dirty.getD j false && isHbm (x.2.keys.getD j 0 * 64)).map fun j => x.2.keys.getD j 0

/-- Phase 1 and 2 of the sweep (spec/21 R405): dirty stash sectors are written back and U sectors of untracked HBM combined, every
home's clock is raised, the boundary opens. -/
def sweep (s : State) (floor : W64) : State × W64 :=
  let s := (stashDirty s).foldl recallStash s
  let s := (s.groups.filter fun g => isHbm (g.1 * 64)).foldl (fun s g => combineGroup s g.1) s
  let l := max (maxClock s) (logical floor)
  let s := (List.range 768).foldl (fun s h => if clockOf s h < l then setClock s h l else s) s
  ({ s with boundary := s.boundary + 1 }, mkStamp l 767)

/-- SNAP (spec/13 R296). That the release it performs raises no REDUCTION_LOG_HALT while a log entry is unreported is a design choice: R289 names
FENCE, FENCEO and FENCER, R451 the next fence of any team (notes/assumptions/43.md). -/
def execSnap (k fs d : Nat) (s : State) : Host.Outcome State Fault Refusal :=
  issue (.snap k fs d) s fun _ t tid s =>
    let i : Instr := .snap k fs d
    if mustDrain s tid then .wait s .drain
    else if !leesOn s || decide (8 ≤ s.gpins.length) then historyAct i s t tid [(d, 0), (d + 1, 0)] 0 (.snap d)
    else
      let (s, st) := sweep s (relFloor s t)
      let (s, id) := pinGeneration s st s.boundary
      historyAct i s t tid [(d, st), (d + 1, BitVec.ofNat 64 id)] st (.snap d)

/-- PIN (spec/13 R297). -/
def execPin (k fs d a : Nat) (s : State) : Host.Outcome State Fault Refusal :=
  issue (.pin k fs d a) s fun r t tid s =>
    let i : Instr := .pin k fs d a
    let (s, id) := pinLaunch s (sget r a) t.launch 0
    historyAct i s t tid [(d, BitVec.ofNat 64 id)] 0 (.pin d (sget r a))

/-- UNPIN (spec/13 R297). The id of the launch's own protection pin, which the CP holds (spec/21 R416), names no pin the program may release:
it does nothing, a design choice (notes/assumptions/43.md). -/
def execUnpin (k a : Nat) (s : State) : Host.Outcome State Fault Refusal :=
  issue (.unpin k a) s fun r t _ s =>
    let id := (sget r a).toNat
    let own (p : Pin) : Bool := p.id == id && p.launch == t.launch &&
      (match tbGet s.launches t.launch with | some l => l.pin != id | none => true)
    .go { s with lpins := s.lpins.filter fun p => !own p }

/-- HORIZON (spec/13 R298). At which instant between its issue and its completion H is read is not stated: at its issue, a design choice
(notes/assumptions/43.md). -/
def execHorizon (k fs d : Nat) (s : State) : Host.Outcome State Fault Refusal :=
  issue (.horizon k fs d) s fun _ t tid s =>
    let i : Instr := .horizon k fs d
    let s := modCore s t.home fun c => { c with hcache := maxW c.hcache s.horizon }
    historyAct i s t tid [(d, s.horizon)] 0 (.horizon d)

end Sys2Proof.Machine
end

