-- ==== Sys2Proof/Machine/Quant.lean ====
section
/-! DEFINITION. What the engines share: reads of partitions with the fills they need (spec/13 R273, spec/19 R384), writes by
virtual address (spec/15 R315, spec/13 R283); and the quantising engine's commands (spec/15 R326-R330, spec/05
R122-R127). -/

namespace Sys2Proof.Machine

/-- Where an address of the scratchpad or cluster window leads for a crew; no other address leads to a partition. -/
def partOf (s : State) (cid : Nat) (a : W64) : Option (Nat × Nat) :=
  let x := a.toNat
  if scratchBase ≤ x then some (cid, x - scratchBase)
  else if clusterBase ≤ x then
    ((clusterCrews s cid)[(x - clusterBase) / 2 ^ 20]?).map fun c => (c, (x - clusterBase) % 2 ^ 20)
  else none

/-- Whether a range of a partition overlaps a stash window of its crew. -/
def inWindow (s : State) (cid off n : Nat) : Bool :=
  (match tbGet s.crews cid with | some c => c.windows | none => []).any fun w =>
    decide (w.off < off + n ∧ off < w.off + w.len)

/-- Whether a partition range holds a poisoned block (spec/25 R452). -/
def partPoisoned (s : State) (cid off n : Nat) : Bool :=
  s.poison.any fun x => decide (x * 64 < partKey cid (off + n) ∧ partKey cid off < x * 64 + 64)

/-- The failure of an engine access: its code, the address or page it names, the key of the failing sector. -/
abbrev EErr := FCode × W64 × Nat

/-- Fill the chunks of a range in ascending order for an engine read (spec/13 R273, spec/15 R308). -/
def engineFill (ctx hub cid stop : Nat) : Nat → Nat → State → State × Option EErr
  | 0, _, s => (s, none)
  | fuel + 1, off, s =>
    if stop ≤ off then (s, none)
    else
      match windowAt s cid off with
      | none => engineFill ctx hub cid stop fuel (off / 512 * 512 + 512) s
      | some (w, i) =>
        if (tbGet w.chunks i).isSome then engineFill ctx hub cid stop fuel (off / 512 * 512 + 512) s
        else
          match chunkXl s ctx hub w i false with
          | (s, .error e) => (s, some (e.code, e.addr, e.phys))
          | (s, .ok x) =>
            match fillChunk s cid w i x with
            | (s, some k) => (s, some (.dataUncorrectable, BitVec.ofNat 64 x.base, k))
            | (s, none) => engineFill ctx hub cid stop fuel (off / 512 * 512 + 512) s

/-- Read a partition range for an engine: the fills under it have arrived, and the writes on their way to its chunks are performed, so that no
later read finds older bytes (spec/19 R374, R384). R308 gives FAULTADDR of a fill fault only: where the partition's data is uncorrectable it is
the scratchpad-window address of the block, also where the operand names the cluster window, a design choice (notes/assumptions/43.md). -/
def engineRead (s : State) (ctx hub cid off n : Nat) : State × Except EErr (List Byte) :=
  match engineFill ctx hub cid (off + n) (n / 512 + 2) off s with
  | (s, some e) => (s, .error e)
  | (s, none) =>
    let s := settlePart (arrivePart s cid off n) cid off n
    if partPoisoned s cid off n then
      (s, .error (.dataUncorrectable, BitVec.ofNat 64 (scratchBase + off), partKey cid off))
    else (s, .ok (memRead s (partKey cid off) n))

/-- The address of a partition byte as a team of a crew names it: its own partition, or a sibling's. -/
def partVa (s : State) (crew cid off : Nat) : Nat :=
  if cid = crew then scratchBase + off
  else match (clusterCrews s crew).findIdx? (· == cid) with
    | some i => clusterBase + i * 2 ^ 20 + off
    | none => scratchBase + off

/-- The virtual address of a command's record, where it has one. -/
def recordVa (s : State) (c : Cmd) : Option Nat :=
  match c.kind with
  | .copy k => some (partVa s c.crew ((k.record - 2 ^ 64) / 2 ^ 20) ((k.record - 2 ^ 64) % 2 ^ 20))
  | .nmc _ => c.record.map (·.toNat)
  | _ => none

/-- The log entry of an engine command (spec/15 R316, R328). -/
def engineEntry (c : Cmd) (code : FCode) (addr : W64) (ty : Nat) : Nat × LogEntry :=
  (c.ctx, ⟨addr, 0, code.num, c.opc, ty, 0, 0, c.pc⟩)

/-- TYPE of the log entries of a command (spec/15 R316, R328). -/
def cmdTy (c : Cmd) : Nat := match c.kind with | .quant q => q.ty.code | _ => 0

/-- The writer of an engine command at an address: a write that fails at its home names it, or the record's address (spec/15 R315, R316,
R328; spec/21 R400). A record carries the command's stamp bound too: what acquires it follows the command's writes (spec/19 R372, R388). -/
def engineWriter (s : State) (id : Nat) (c : Cmd) (va : W64) : Writer :=
  let at' := if c.recorded then ((recordVa s c).map (BitVec.ofNat 64)).getD va else va
  { tag := match tbGet s.launches c.launch with | some l => l.tag | none => 0, launch := c.launch,
    floor := maxW (maxW c.floor s.xlFloor) (if c.recorded then c.bound else 0), op := none, cmd := some id, port := none,
    line := none, chunk := none,
    log := some (engineEntry c .dataUncorrectable at' (if c.recorded then 0 else cmdTy c)) }

/-- Whether a write of `n` bytes at an offset of a partition, through the filled chunk there, touches a live descriptor of the chunk's
frame, or the chunk's page may not be written (spec/13 R273, R283). -/
def chunkBar (s : State) (cid off n : Nat) : Option FCode :=
  match windowAt s cid off, chunkAt s cid off with
  | some (w, _), some ch =>
    if touchesCounter s (ch.keys.getD ((off - w.off) % 512 / 64) 0 * 64 + off % 64) n then some .allowanceInvalid
    else if !ch.w then some .pageProtection
    else none
  | _, _ => none

/-- Write bytes within one 64-byte sector of a partition (spec/13 R283: a write into a live descriptor is dropped). -/
def enginePutPart (s : State) (id : Nat) (c : Cmd) (va cid off : Nat) (data : List Byte) : State × Option EErr :=
  if touchesCounter s (partKey cid off) data.length then (s, some (.allowanceInvalid, BitVec.ofNat 64 va, 0))
  else
    match engineFill c.ctx (hubOf c.core) cid (off + data.length) 2 off s with
    | (s, some e) => (s, some e)
    | (s, none) =>
      match chunkBar s cid off data.length with
      | some e => (s, some (e, BitVec.ofNat 64 va, 0))
      | none => (writePart (arrivePart s cid off data.length) cid off data (engineWriter s id c (BitVec.ofNat 64 va)), none)

/-- Drop the L1 copies of a sector of a core and context: a read after the completion of an engine's write to it, acquired at .crew scope, returns
that write or a later one (spec/19 R376). -/
def dropPhys (s : State) (core ctx sec : Nat) : State :=
  if (s.core core).l1.any fun x => x.ctx == ctx && x.phys == sec then
    modCore s core fun k => { k with l1 := k.l1.filter fun x => !(x.ctx == ctx && x.phys == sec) }
  else s

/-- Write bytes within one sector at a physical key, uncached at the LLC or not (spec/25 R451; spec/21 R394; spec/17 R343). -/
def enginePutKey (s : State) (id : Nat) (c : Cmd) (va : W64) (key : Nat) (tracked unc : Bool) (data : List Byte) :
    State × Option EErr :=
  if touchesCounter s key data.length then (s, some (.allowanceInvalid, va, 0))
  else if !reachable s key || (tracked && !canStamp s key c.floor) then (s, some (.dataUncorrectable, va, key))
  else
    let put := if unc then writeUnc else writeSector
    (dropPhys (put s key data tracked (engineWriter s id c va)) c.core c.ctx (sectorOf key), none)

/-- Write bytes within one sector at a virtual address (spec/17 R353). -/
def enginePut (s : State) (id : Nat) (c : Cmd) (va : Nat) (data : List Byte) : State × Option EErr :=
  let a := BitVec.ofNat 64 va
  match partOf s c.crew a with
  | some (cid, off) =>
    if off + data.length ≤ partSizeOf s cid then enginePutPart s id c va cid off data
    else (s, some (.apertureBounds, a, 0))
  | none =>
    if globEnd < va + data.length then (s, some (.apertureBounds, a, 0))
    else
      match translate s c.ctx (hubOf c.core) va true with
      | (s, .error e) =>
        (s, some (e.code, if e.code = .dataUncorrectable then a else e.page, e.phys))
      | (s, .ok x) => enginePutKey s id c a x.key x.tracked (x.cache == 2) data

/-- Write a string of bytes, sector by sector; every part that can be written is, and the lowest failing one is named. -/
def enginePutAll (s : State) (id : Nat) (c : Cmd) (va : Nat) (data : List Byte) : State × Option (FCode × W64) :=
  (pieces va data (data.length / 64 + 2)).foldl (fun (s, bad) (a, d) =>
    match enginePut s id c a d with
    | (s, some e) => (s, some (bad.getD (e.1, BitVec.ofNat 64 a)))
    | (s, none) => (s, bad)) (s, none)

/-! ### The quantising engine -/

/-- Change a command. -/
def markExecuted (s : State) (id : Nat) : State := modCmd s id fun c => { c with executed := true }

/-- Keep a failure of a command for the reduction-fault log, under a number (spec/15 R328). -/
def keepFail (s : State) (id i : Nat) (c : Cmd) (code : FCode) (a : W64) : State :=
  modCmd s id fun x => { x with fails := lowestFail x.fails i (engineEntry c code a (cmdTy c)).2 }

/-- 48 codes as a block (spec/15 R327, spec/05 R107). -/
def packCodes (ty : Ty) (qs : List Nat) : List Byte :=
  if ty = .t8 then qs.map (BitVec.ofNat 8) else leBytes 36 (qs.foldr (fun q n => q + 64 * n) 0)

/-- Entry `i` of q register `n`. -/
def qget (t : Team) (n i : Nat) : W32 := smGet 0 t.q (48 * n + i)

/-- One copy: the codes, the scale codes and the final residues of the 48 blocks (spec/05 R124). -/
def quantCopy (ty : Ty) (x : List Nat) (col reset : Bool) (rho : Nat → Nat) : List Byte × List Byte × List Nat :=
  (List.range 48).foldl (fun (cs, sc, rs) b =>
    let xs := (List.range 48).map fun i => x.getD (if col then 48 * i + b else 48 * b + i) 0
    let (qs, c, r) := Fp.quantBlock ty xs (rho b) reset
    (cs ++ packCodes ty qs, sc ++ [BitVec.ofNat 8 c], rs ++ [r])) ([], [], [])

/-- Write destination `i` of a quantising store, keeping its lowest failing address for the log (spec/15 R328). -/
def quantPut (id : Nat) (c : Cmd) (q : Quant) (i : Nat) (data : List Byte) (s : State) : State :=
  match q.dests.getD i none with
  | none => s
  | some a =>
    match enginePutAll s id c a.toNat data with
    | (s, none) => s
    | (s, some (code, at')) => keepFail s id i c code at'

/-- One axis of a quantising store; its codes and scales are destinations `i` and `i` + 1. -/
def quantAxis (s : State) (id : Nat) (c : Cmd) (q : Quant) (x : List Nat) (col : Bool) (n i : Nat) : State :=
  let rho (b : Nat) : Nat := match s.team c.team with | some t => (qget t n b).toNat | none => 0
  let (cs, sc, rs) := quantCopy q.ty x col q.reset rho
  let s := quantPut id c q (i + 1) sc (quantPut id c q i cs s)
  let put (m : Tab W32) : Tab W32 := rs.zipIdx.foldl (fun m (r, i) => smSet 0 m (48 * n + i) (BitVec.ofNat 32 r)) m
  modTeam s c.team fun t => { t with q := put t.q }

/-- Execute a quantising command (spec/15 R327-R330). A source that cannot be read leaves every output and residue as it was, and
is logged for each destination (notes/assumptions/29.md). Each command runs whole in one step: a QLOAD that another team runs before a
QSAVE of the same bytes has completed reads all old or all new residues, where spec/05 R128 gives no order, a design choice
(notes/assumptions/43.md). -/
def quantRun (s : State) (id : Nat) : State :=
  match tbGet s.cmds id with
  | none => s
  | some c =>
    let s := markExecuted s id
    let at' (key : Nat) : Nat × Nat := ((key - 2 ^ 64) / 2 ^ 20, (key - 2 ^ 64) % 2 ^ 20)
    match c.kind with
    | .quant q =>
      let (cid, off) := at' q.src
      match engineRead s c.ctx (hubOf c.core) cid off 9216 with
      | (s, .error e) => q.dests.zipIdx.foldl (fun s x => match x.1 with
          | some a => keepFail s id x.2 c e.1 a
          | none => s) s
      | (s, .ok bs) =>
        let x := (List.range 2304).map fun i => leNat ((bs.drop (4 * i)).take 4)
        let s := match q.qrow with
          | some n => quantAxis s id c q x false n 0
          | none => s
        match q.qcol with
        | some n => quantAxis s id c q x true n 2
        | none => s
    | .qload n src =>
      let (cid, off) := at' src
      match engineRead s c.ctx (hubOf c.core) cid off 192 with
      | (s, .error e) => keepFail s id 0 c e.1 (BitVec.ofNat 64 (partVa s c.crew cid off))
      | (s, .ok bs) =>
        let put (m : Tab W32) : Tab W32 := (List.range 48).foldl (fun m i =>
          smSet 0 m (48 * n + i) (BitVec.ofNat 32 (leNat ((bs.drop (4 * i)).take 4)))) m
        modTeam s c.team fun t => { t with q := put t.q }
    | .qsave n dst =>
      let (cid, off) := at' dst
      match s.team c.team with
      | none => s
      | some t =>
        let data := (List.range 48).flatMap fun i => leBytes 4 (qget t n i).toNat
        match (pieces off data 8).foldl (fun (r : State × Option EErr) p =>
            match enginePutPart r.1 id c (partVa s c.crew cid p.1) cid p.1 p.2 with
            | (s, some e) => (s, some (r.2.getD e))
            | (s, none) => (s, r.2)) (s, none) with
        | (s, none) => s
        | (s, some e) => keepFail s id 0 c e.1 e.2.1
    | _ => s

/-- Whether a command is of the quantising engine. -/
def isQuant (c : Cmd) : Bool :=
  match c.kind with
  | .quant _ | .qload .. | .qsave .. => true
  | _ => false

/-- Execute every quantising command a team has issued (spec/05 R126; spec/03 R85). -/
def quantDrain (s : State) (tid : Nat) : State :=
  (s.cmds.filter fun e => e.2.team == tid && isQuant e.2 && !e.2.executed).foldl (fun s e => quantRun s e.1) s

end Sys2Proof.Machine
end

