-- ==== Sys2Proof/Machine/Lifecycle.lean ====
section
/-! DEFINITION. The end of teams, crews and clusters: EXIT (spec/09 R201), retirement (spec/03 R85-R87), the release of a
partition (R86), kills. -/

namespace Sys2Proof.Machine

/-- The teams of a crew. -/
def crewTeams (s : State) (cid : Nat) : List (Nat × Team) := s.teams.filter fun e => e.2.crew == cid

/-- Whether a team is resident and neither quiescing, being saved, saved nor being restored (spec/23 R441). -/
def running (t : Team) : Bool :=
  t.place.isSome && (match t.pre with | .run | .drain => true | _ => false)

/-! ### What engine commands still do to a partition -/

/-- Part of a partition: crew, first byte, length. -/
abbrev PRange := Nat × Nat × Nat

/-- The partition bytes a command's tile takes: T = 2^ESIZE·ΠB (spec/15 R320). -/
def copyBytes (c : Copy) : Nat := 2 ^ c.esize * c.box.foldl (· * ·) 1

/-- The digits of `e` in the bases given, least significant first. -/
def digits : List Nat → Nat → List Nat
  | [], _ => []
  | b :: bs, e => e % b :: digits bs (e / b)

/-- The box index of the element at place `e` of the tile (spec/15 R320). -/
def boxIndex (k : Copy) (e : Nat) : List Nat :=
  match k.swap, k.box with
  | true, b0 :: b1 :: bs =>
    match digits (b1 :: b0 :: bs) e with
    | i1 :: i0 :: is => i0 :: i1 :: is
    | is => is
  | _, bs => digits bs e

/-- inb(i). -/
def inBounds (k : Copy) (i : List Nat) : Bool :=
  i.zipIdx.all fun (x, d) => decide (k.lead.getD d 0 ≤ x ∧ x - k.lead.getD d 0 < k.extent.getD d 0)

/-- G(i). -/
def elemAddr (k : Copy) (i : List Nat) : W64 :=
  k.base + BitVec.ofInt 64 (2 ^ k.esize * (i.zipIdx.foldl (fun (a : Int) (x, d) =>
    a + ((x : Int) - k.lead.getD d 0) * k.stride.getD d 0) 0))

/-- The places of an out-going copy's elements (spec/15 R320). -/
def copyTargets (k : Copy) : List W64 :=
  let n := 2 ^ k.esize
  ((List.range (copyBytes k / n)).map (boxIndex k)).filterMap fun i => if inBounds k i then some (elemAddr k i) else none

/-- A location of a crew's partition, as a range of `n` bytes. -/
def keyRange (key n : Nat) : List PRange :=
  if 2 ^ 64 ≤ key ∧ key < 2 ^ 128 then [((key - 2 ^ 64) / 2 ^ 20, (key - 2 ^ 64) % 2 ^ 20, n)] else []

/-- Words of a copy's bitmap, and the offset of its record from the bitmap (spec/15 R322). -/
def bitmapWords (c : Copy) : Nat := ((copyBytes c + 511) / 512 + 63) / 64

/-- The partition ranges a command writes and those it reads. -/
def cmdRanges (s : State) (c : Cmd) : List PRange × List PRange :=
  match c.kind with
  | .copy k =>
    let w := keyRange k.bitmap (8 * bitmapWords k) ++ keyRange k.record 16
    let t := keyRange k.tile (copyBytes k)
    if k.dir = 0 then (w ++ t, [])
    else
      (w ++ (if k.dir = 2 then (copyTargets k).filterMap fun g =>
          (partOf s c.crew g).map fun x => (x.1, x.2, 2 ^ k.esize)
        else []), t)
  | .quant q =>
    let one (i : Nat) (a : Option W64) : List PRange :=
      match a.bind (partOf s c.crew) with
      | some (cid, off) => [(cid, off, if i % 2 = 1 then 48 else codesLen q.ty)]
      | none => []
    (((q.dests.zipIdx.flatMap fun (a, i) => one i a)), keyRange q.src 9216)
  | .qload _ src => ([], keyRange src 192)
  | .qsave _ dst => (keyRange dst 192, [])
  | .nmc _ =>
    ((match c.record.bind (partOf s c.crew) with | some (cid, off) => [(cid, off, 16)] | none => []), [])

/-- Whether some command in flight writes, or with `reads` reads or writes, bytes [lo, hi) of a crew's partition. -/
def cmdsTouch (s : State) (cid lo hi : Nat) (reads : Bool) : Bool :=
  s.cmds.any fun e =>
    let (w, r) := cmdRanges s e.2
    ((if reads then w ++ r else w).any fun (c, off, n) => c == cid && decide (off < hi ∧ lo < off + n))

/-! ### Stash windows dropped (spec/13 R275) -/

/-- Write back and remove the windows of a crew that `p` selects, or only remove them. -/
def dropWindows (s : State) (cid : Nat) (discard : Bool) (pc : W64) (p : Window → Bool) : State :=
  let s := if discard then s else cleanChunks s cid pc fun w _ => p w
  modCrew s cid fun c => { c with windows := c.windows.filter fun w => !p w }

/-- Drop every window that no engine command still reads or writes. -/
def dropIdleWindows (s : State) (cid : Nat) : State :=
  dropWindows s cid false 0 fun w => !cmdsTouch s cid w.off (w.off + w.len) true

/-! ### Crews and clusters -/

/-- Free the counters in a partition that ends: waiters meet a freed counter (notes/assumptions/23.md). -/
def dropCounters (s : State) (cid : Nat) : State :=
  let mine (k : Nat) : Bool := decide (partKey cid 0 ≤ k ∧ k < partKey (cid + 1) 0)
  let waiters := (s.counters.filter fun e => mine e.1).flatMap fun e => e.2.queue
  waiters.foldl freedLate { s with counters := s.counters.filter fun e => !mine e.1 }

/-- Forget a crew: its partition's bytes, tags and poison go, and its cluster with the last crew. -/
def forgetCrew (s : State) (cid : Nat) : State :=
  match tbGet s.crews cid with
  | none => s
  | some c =>
    let lo := partKey cid 0
    let hi := partKey (cid + 1) 0
    let s := { s with mem := smClear s.mem lo hi, tags := smClear s.tags lo hi,
                      poison := s.poison.filter (fun x => decide (x * 64 < lo) || decide (hi ≤ x * 64)),
                      crews := tbDel s.crews cid }
    match tbGet s.clusters c.cluster with
    | none => s
    | some k => if k.crews.any fun x => (tbGet s.crews x).isSome then s
                else { s with clusters := tbDel s.clusters c.cluster }

/-- Whether a command in flight is one of a crew's, or reads or writes its partition. -/
def cmdsNeed (s : State) (cid : Nat) : Bool := s.cmds.any (fun e => e.2.crew == cid) || cmdsTouch s cid 0 (2 ^ 20) true

/-- Free a crew: its slot, windows, counters, partition and save units (spec/03 R86). A command that still reads the partition, or whose team
was the crew's, completes as if the teams were resident (R85): what it reads stays to it until it ends (notes/assumptions/43.md). -/
def freeCrew (s : State) (cid : Nat) : State :=
  let s := dropCounters (dropWindows s cid false 0 fun _ => true) cid
  if cmdsNeed s cid then
    modCrew s cid fun c => { c with residency := .freed, partSize := 0, carve := none, rings := [], bar := ⟨0, [], 0⟩, spilledWindows := [],
                                    saveAt := [] }
  else forgetCrew s cid

/-- A command has ended: the crews that were kept for it alone are forgotten. -/
def forgetFreed (s : State) : State :=
  (s.crews.filter fun e => decide (e.2.residency = .freed)).foldl (fun s e => if cmdsNeed s e.1 then s else forgetCrew s e.1) s

/-- Whether a crew can be freed: no team left, no engine command that writes its partition (spec/03 R86), none that reads one of its stash
windows, which the drop of the window waits for (spec/13 R275). -/
def crewDone (s : State) (cid : Nat) : Bool :=
  (crewTeams s cid).isEmpty && !cmdsTouch s cid 0 (2 ^ 20) false &&
    (match tbGet s.crews cid with
     | some c => decide (c.residency ≠ .freed) && c.windows.all fun w => !cmdsTouch s cid w.off (w.off + w.len) true
     | none => false)

/-- The teams of a cluster. -/
def clusterTeams (s : State) (k : Cluster) : List (Nat × Team) := s.teams.filter fun e => k.crews.contains e.2.crew

/-- What the departure of a team, retired or saved, leaves of its crew and cluster: the crew is retained once none of its teams is left
but saved ones, the cluster is saved once all its teams left are (spec/03 R98, R99; spec/23 R441). -/
def leaveCrew (s : State) (cid kid : Nat) : State :=
  let gone (ts : List (Nat × Team)) : Bool := ts.all fun e => decide (e.2.pre = .saved)
  let s := if gone (crewTeams s cid) then
      modCrew s cid fun c => { c with residency := if c.residency = .resident then .retained else c.residency }
    else s
  match tbGet s.clusters kid with
  | none => s
  | some k =>
    let ts := clusterTeams s k
    if !ts.isEmpty && gone ts && decide (k.state = .placed) then
      { s with clusters := tbMod s.clusters kid fun k => { k with state := .saved } }
    else s

/-! ### Launches -/

/-- Clusters of a launch in all. -/
def gridSize (l : Launch) : Nat := l.gx * l.gy * l.gz

/-- Bins, and bins launched and waiting for a place, that belong to a launch (spec/03 R79). -/
def launchBins (s : State) (lid : Nat) : Nat :=
  s.cores.foldl (fun n e => n + (e.2.bins.filter fun b => b.2.launch == lid).length +
    (e.2.launched.filter fun b => b.launch == lid).length) 0

/-- Whether the last team of a launch has retired: every cluster placed, no team left, no bin left. -/
def launchEmpty (s : State) (lid : Nat) : Bool :=
  match tbGet s.launches lid with
  | none => true
  | some l => (decide (gridSize l ≤ l.placed.length) || l.doneCode.isSome) && !(s.teams.any fun e => e.2.launch == lid) &&
      launchBins s lid == 0

/-- Release the pins a launch holds other than its protection pin (spec/13 R297). -/
def dropPins (s : State) (lid : Nat) : State :=
  match tbGet s.launches lid with
  | none => s
  | some l => { s with lpins := s.lpins.filter fun p => p.launch != lid || p.id == l.pin }

/-! ### Retirement -/

/-- Fill the places of a core's matrix queue from the teams that wait to join it (spec/03 R75). -/
def refillMx (c : Core) : Core :=
  let room := 32 - c.mxQueue.length
  { c with mxQueue := c.mxQueue ++ c.mxOver.take room, mxOver := c.mxOver.drop room }

/-- Take a team out of every waiting queue it occupies. -/
def dropWaits (s : State) (tid : Nat) (t : Team) : State :=
  let s := modCrew s t.crew fun c => { c with rings := c.rings.map fun e =>
    (e.1, { e.2 with pushers := e.2.pushers.filter (· != tid), poppers := e.2.poppers.filter (· != tid) }) }
  modCore s t.home fun c =>
    refillMx { c with mxQueue := c.mxQueue.filter (· != tid), mxOver := c.mxOver.filter (· != tid) }

/-- Clear the stack block of a team (spec/17 R337). -/
def clearStk (s : State) (tid : Nat) : State :=
  let lo := stackKey tid 0 0
  let hi := stackKey (tid + 1) 0 0
  { s with mem := smClear s.mem lo hi, flips := smClear s.flips lo hi,
           poison := s.poison.filter fun x => decide (x * 64 < lo) || decide (hi ≤ x * 64) }

/-- Retire a team: its slot, rows and stack block are free; its last crew-mate drops the windows, and the crew is freed where
no engine command holds it, and else retained (spec/03 R85, R86; spec/13 R275, R297; spec/21 R393; spec/17 R337). -/
def retire (s : State) (tid : Nat) : State :=
  match s.team tid with
  | none => s
  | some t =>
    let s := modLaunch s t.launch fun l => { l with floor := maxW l.floor t.floor }
    let s := dropWaits (quantDrain s tid) tid t
    let kid := match tbGet s.crews t.crew with | some c => c.cluster | none => 0
    let s := clearStk { s with teams := tbDel s.teams tid } tid
    let s := if (crewTeams s t.crew).isEmpty then
        (if crewDone s t.crew then freeCrew s t.crew else dropIdleWindows s t.crew) else s
    let s := leaveCrew s t.crew kid
    if launchEmpty s t.launch then dropPins s t.launch else s

/-- Remove the queued ALDEC.wait operations that `p` selects from their counters without changing V (spec/03 R96). -/
def dropWaiters (s : State) (p : Op → Bool) : State :=
  let mine := s.ops.filter fun e => p e.2 && (match e.2.kind with | .aldecWait _ _ _ _ _ _ sv => !sv | _ => false)
  mine.foldl (fun s e =>
    { s with ops := tbDel s.ops e.1,
             counters := s.counters.map fun c => (c.1, { c.2 with queue := c.2.queue.filter fun w => w.op != e.1 }) }) s

/-- Kill a team: it retires, and its queued waiters go with it (spec/25 R462, spec/03 R96). -/
def killTeam (s : State) (tid : Nat) : State := retire (dropWaiters s fun o => o.team == tid) tid

/-- EXIT (spec/09 R201). -/
def execExit (k : Nat) (s : State) : Host.Outcome State Fault Refusal :=
  issue (.exit k) s fun _ _ tid s => .placed (retire (acquireXl s tid) tid)

end Sys2Proof.Machine
end

