-- ==== Sys2Proof/Machine/Engine.lean ====
section
/-! DEFINITION. The engine commands (spec/15 R314-R335): their checks at issue, their acceptance, the copy port, the
near-memory units, completion records. -/

namespace Sys2Proof.Machine

/-! ### Commands in common (spec/15 R314) -/

/-- The engine of a command. -/
def engineOf (k : CmdKind) : Engine :=
  match k with
  | .copy _ => .copy
  | .nmc _ => .nmc
  | _ => .quant

/-- Places of an acceptance queue. -/
def engineCap : Engine → Nat
  | .quant => 8
  | _ => 16

/-- Commands of an engine's queue on a core. -/
def engineLoad (s : State) (core : Nat) (e : Engine) : Nat :=
  (s.cmds.filter fun c => c.2.core == core && decide (engineOf c.2.kind = e)).length

/-- Issue a command whose checks have passed. A near-memory command, whose issue is a release, carries a floor that covers what the team's
operations in flight have read (spec/19 R385). `seen` is the stamp of the tracked version its descriptor was read from (R388). -/
def issueCmd (i : Instr) (s : State) (t : Team) (tid : Nat) (kind : CmdKind) (record : Option W64) (seen : W64) : Act :=
  let e := engineOf kind
  if engineCap e ≤ engineLoad s t.home e then .wait s (.engine e)
  else
    let id := s.nextId
    let flags := (slotFlags t (fsOf i)).getD []
    let c : Cmd := { team := tid, core := t.home, ctx := t.ctx, launch := t.launch, crew := t.crew, opc := opcOf i,
                     pc := t.pc, flags := flags,
                     floor := maxW (maxW (relFloor s t) seen) (match e with | .nmc => opFloors s tid | _ => 0), bound := seen,
                     batch := none, accepted := false, executed := false, recorded := false, err := none, fails := [],
                     record := record, homes := [], kind := kind }
    .go { modTeam s tid (fun t => incFlags t flags) with cmds := tbSet s.cmds id c, nextId := id + 1 }

/-- The partition range an operand names, or none (spec/15 R321, R328). -/
def partRange (s : State) (t : Team) (a : W64) (n : Nat) : Option (Nat × Nat) :=
  match aperture s t a n with
  | some (.part cid off) => some (cid, off)
  | _ => none

/-- A fault of an engine command in every live lane. -/
def fltCmd (t : Team) (c : FCode) (a : W64) : Flt := fltAt c t.live a 0

/-! ### Copies (spec/15 R317-R325) -/

/-- The sizes B of the dimensions a descriptor declares. Which T a descriptor has whose NDIM is not 1 to 9, and so whether it fails step 1 or step
3 of R321, is stated by no rule: NDIM counts as 1 or as 9 there, a design choice (notes/assumptions/43.md). -/
def descBox (d : List Byte) (ndim : Nat) : List Nat :=
  (List.range (min (max ndim 1) 9)).map fun i => (d.getD (105 + i) 0).toNat + 1

/-- NDIM. -/
def descNdim (d : List Byte) : Nat := leNat ((d.drop 8).take 8) / 16 % 16

/-- ESIZE. -/
def descEsize (d : List Byte) : Nat := leNat ((d.drop 8).take 8) % 4

/-- T, the bytes of the box (spec/15 R320). -/
def descT (d : List Byte) : Nat := 2 ^ descEsize d * (descBox d (descNdim d)).foldl (· * ·) 1

/-- A well-formed descriptor (spec/15 R318, R319, R321). -/
def copyDescOk (d : List Byte) (swap : Bool) : Bool :=
  let ctrl := leNat ((d.drop 8).take 8)
  let n := descNdim d
  let zero (lo len : Nat) : Bool := ((d.drop lo).take len).all (· == 0)
  decide (1 ≤ n ∧ n ≤ 9) && ctrl / 512 == 0 && ctrl / 4 % 4 == 0 && zero 123 5 &&
    ((List.range 9).all fun i => decide (i < n) ||
      (zero (24 + 4 * i) 4 && zero (60 + 5 * i) 5 && zero (105 + i) 1 && zero (114 + i) 1)) &&
    decide (descT d ≤ 262144) && !(swap && n == 1)

/-- The command of a descriptor. -/
def copyOf (d : List Byte) (dir : Nat) (frame swap : Bool) (tile bcrew bitmap record : Nat) : Copy :=
  let n := descNdim d
  let ctrl := leNat ((d.drop 8).take 8)
  { dir := dir, frame := frame, phys := ctrl / 256 % 2 == 1, swap := swap,
    base := BitVec.ofNat 64 (leNat (d.take 8)), esize := descEsize d,
    fill := BitVec.ofNat 64 (leNat ((d.drop 16).take 8)),
    extent := (List.range n).map fun i => leNat ((d.drop (24 + 4 * i)).take 4),
    stride := (List.range n).map fun i => toSigned 40 (leNat ((d.drop (60 + 5 * i)).take 5)),
    box := descBox d n, lead := (List.range n).map fun i => (d.getD (114 + i) 0).toNat,
    tile := tile, bcrew := bcrew, bitmap := bitmap, record := record, chunks := (descT d + 511) / 512, done := [], segs := [] }

/-- Bytes of the words of a bitmap for a box of `T` bytes (spec/15 R322). -/
def bitmapLen (T : Nat) : Nat := 8 * (((T + 511) / 512 + 63) / 64)

/-- Bytes from the bitmap to the end of its record (spec/15 R322). -/
def bitmapSpan (T : Nat) : Nat := 16 * ((((T + 511) / 512 + 63) / 64 + 1) / 2) + 16

/-- Whether a range of physical addresses touches a live descriptor. -/
def paTouchesCounter (s : State) (pa n : Nat) : Bool :=
  s.counters.any fun e => (pasOfKey s e.1).any fun x => decide (x < pa + n ∧ pa < x + 64)

/-- Whether some of `n` words of a partition touch a live descriptor, one of the partition or one that a filled stash chunk stands for. -/
def wordsTouch (s : State) (cid off n : Nat) : Bool := (List.range n).any fun i => partTouches s cid (off + 8 * i) 8

/-- The checks of R321 and the issue of a copy. Where a fill fault or bad data met in reading the descriptor stands among the steps is stated by
no rule: it comes after the check of the descriptor's range and before those of the tile and the bitmap; and where such data is met in the fill
of a stash chunk that holds the descriptor, FAULTADDR is the descriptor's address. A bitmap or record in a stash chunk not yet filled is not
translated at issue, so that a live descriptor in its global frame stops the write later and not step 7. Design choices, all three
(notes/assumptions/43.md). -/
def copyAct (i : Instr) (o : CpOp) (dir : Nat) (frame : Bool) (r t : Team) (tid : Nat) (s : State) : Act :=
  let dva := sget r o.d
  let tva := sget r o.a
  let bva := sget r o.b
  match partRange s t dva 128 with
  | none => .fault s (fltCmd t .apertureBounds dva)
  | some (dc, doff) =>
    match engineRead s t.ctx (teamHub t) dc doff 128 with
    | (s, .error e) => .fault s (fltAt e.1 t.live (if e.1 = .dataUncorrectable then dva else e.2.1) e.2.2)
    | (s, .ok d) =>
      let T := descT d
      let span := bitmapSpan T
      let tile : Option (Option (Nat × Nat)) :=
        if frame then
          (match windowOf s tva.toNat, windowOf s (tva.toNat + T - 1) with
           | some a, some b => if a = b ∧ a ≠ 13 then some none else none
           | _, _ => none)
        else (partRange s t tva T).map some
      match tile, partRange s t bva span with
      | none, _ => .fault s (fltCmd t .apertureBounds tva)
      | _, none => .fault s (fltCmd t .apertureBounds bva)
      | some tp, some (bc, boff) =>
        if dva.toNat % 8 ≠ 0 then .fault s (fltCmd t .misaligned dva)
        else if tva.toNat % 64 ≠ 0 then .fault s (fltCmd t .misaligned tva)
        else if bva.toNat % 16 ≠ 0 then .fault s (fltCmd t .misaligned bva)
        else if !copyDescOk d o.swap || (match tp with
            | some (tc, toff) => tc == bc && decide (toff < boff + span ∧ boff < toff + T)
            | none => false) then .fault s (fltCmd t .engineDescriptor dva)
        else if (frame || leNat ((d.drop 8).take 8) / 256 % 2 == 1) && !t.priv then .fault s (fltTeam t .privileged)
        else if dir == 0 && (match tp with | some (tc, toff) => inRing s tc toff T | none => false) then
          .fault s (fltCmd t .queueMisuse tva)
        else if inRing s bc boff (bitmapLen T) || inRing s bc (boff + (span - 16)) 16 then .fault s (fltCmd t .queueMisuse bva)
        else if dir == 0 && (match tp with | some (tc, toff) => inWindow s tc toff T | none => false) then
          .fault s (fltCmd t .engineDescriptor tva)
        else if dir == 0 && (match tp with
            | some (tc, toff) => touchesCounter s (partKey tc toff) T
            | none => paTouchesCounter s tva.toNat T) then .fault s (fltCmd t .allowanceInvalid tva)
        else if wordsTouch s bc boff (bitmapLen T / 8) || partTouches s bc (boff + (span - 16)) 16 then
          .fault s (fltCmd t .allowanceInvalid bva)
        else
          let key := match tp with | some (tc, toff) => partKey tc toff | none => tva.toNat
          issueCmd i s t tid (.copy (copyOf d dir frame o.swap key bc (partKey bc boff)
            (partKey bc boff + (span - 16)))) none (partStamp s dc doff 128)

/-- CPIN (spec/15 R317, R320, R325). -/
def execCpin (o : CpOp) (frame : Bool) (s : State) : Host.Outcome State Fault Refusal :=
  issue (.cpin o frame) s fun r t tid s => copyAct (.cpin o frame) o 0 frame r t tid s

/-- CPOUT (spec/15 R317, R320). -/
def execCpout (o : CpOp) (s : State) : Host.Outcome State Fault Refusal :=
  issue (.cpout o) s fun r t tid s => copyAct (.cpout o) o 1 false r t tid s

/-- CPPEER (spec/15 R317, R320, R324). -/
def execCppeer (o : CpOp) (s : State) : Host.Outcome State Fault Refusal :=
  issue (.cppeer o) s fun r t tid s => copyAct (.cppeer o) o 2 false r t tid s

/-! ### Quantising commands (spec/15 R326-R330) -/

/-- Step 1 of R328 for a destination: in a partition, or in the global window. -/
def quantDest (s : State) (t : Team) (a : W64) (n : Nat) : Option (Option (Nat × Nat)) :=
  match aperture s t a n with
  | some (.part cid off) => some (some (cid, off))
  | some (.glob _) => some none
  | _ => none

/-- The checks of R328: the source's place, or the fault. -/
def quantCheck (s : State) (t : Team) (src : W64) (dests : List (W64 × Nat)) : Except Flt (Nat × Nat) :=
  match partRange s t src 9216 with
  | none => .error (fltCmd t .apertureBounds src)
  | some (sc, soff) =>
    let places := dests.map fun d => (d, quantDest s t d.1 d.2)
    match places.find? fun p => p.2.isNone with
    | some p => .error (fltCmd t .apertureBounds p.1.1)
    | none =>
      if src.toNat % 64 ≠ 0 then .error (fltCmd t .misaligned src)
      else
        match dests.find? fun d => d.2 != 48 && d.1.toNat % 4 != 0 with
        | some d => .error (fltCmd t .misaligned d.1)
        | none =>
          let hits (f : Nat → Nat → Nat → Bool) (p : (W64 × Nat) × Option (Option (Nat × Nat))) : Bool :=
            match p.2 with
            | some (some (cid, off)) => f cid off p.1.2
            | _ => false
          if inWindow s sc soff 9216 then .error (fltCmd t .engineDescriptor src)
          else
            match places.find? (hits (inWindow s)) with
            | some p => .error (fltCmd t .engineDescriptor p.1.1)
            | none =>
              match places.find? (hits (inRing s)) with
              | some p => .error (fltCmd t .queueMisuse p.1.1)
              | none => .ok (sc, soff)

/-- QST (spec/15 R326). -/
def execQst (k fs d a : Nat) (ty : Ty) (q : Nat) (col reset : Bool) (s : State) : Host.Outcome State Fault Refusal :=
  issue (.qst k fs d a ty q col reset) s fun r t tid s =>
    let codes := sget r d
    let scales := sget r (d + 1)
    match quantCheck s t (sget r a) [(codes, codesLen ty), (scales, 48)] with
    | .error f => .fault s f
    | .ok (cid, off) =>
      let dests := if col then [none, none, some codes, some scales] else [some codes, some scales, none, none]
      issueCmd (.qst k fs d a ty q col reset) s t tid (.quant ⟨ty, partKey cid off, dests,
        if col then none else some q, if col then some q else none, reset⟩) none 0

/-- QSTD (spec/15 R326, spec/05 R125). -/
def execQstd (k fs d a : Nat) (ty : Ty) (qa qb : Nat) (reset : Bool) (s : State) : Host.Outcome State Fault Refusal :=
  issue (.qstd k fs d a ty qa qb reset) s fun r t tid s =>
    let x (j : Nat) : W64 := sget r (d + j)
    match quantCheck s t (sget r a) [(x 0, codesLen ty), (x 1, 48), (x 2, codesLen ty), (x 3, 48)] with
    | .error f => .fault s f
    | .ok (cid, off) =>
      issueCmd (.qstd k fs d a ty qa qb reset) s t tid (.quant ⟨ty, partKey cid off,
        [some (x 0), some (x 1), some (x 2), some (x 3)], some qa, some qb, reset⟩) none 0

/-- The checks of R330: the place of the 192 bytes. -/
def qmoveCheck (s : State) (t : Team) (a : W64) : Except Flt Nat :=
  match partRange s t a 192 with
  | none => .error (fltCmd t .apertureBounds a)
  | some (cid, off) =>
    if a.toNat % 64 ≠ 0 then .error (fltCmd t .misaligned a)
    else if inWindow s cid off 192 then .error (fltCmd t .engineDescriptor a)
    else if inRing s cid off 192 then .error (fltCmd t .queueMisuse a)
    else .ok (partKey cid off)

/-- QLOAD (spec/15 R330). -/
def execQload (k fs a q : Nat) (s : State) : Host.Outcome State Fault Refusal :=
  issue (.qload k fs a q) s fun r t tid s =>
    match qmoveCheck s t (sget r a) with
    | .error f => .fault s f
    | .ok key => issueCmd (.qload k fs a q) s t tid (.qload q key) none 0

/-- QSAVE (spec/15 R330). -/
def execQsave (k fs a q : Nat) (s : State) : Host.Outcome State Fault Refusal :=
  issue (.qsave k fs a q) s fun r t tid s =>
    match qmoveCheck s t (sget r a) with
    | .error f => .fault s f
    | .ok key => issueCmd (.qsave k fs a q) s t tid (.qsave q key) none 0

/-- The first quantising command of a core that is accepted and not executed. -/
def quantNext (s : State) (core : Nat) : Option Nat :=
  (s.cmds.find? fun e => e.2.core == core && isQuant e.2 && e.2.accepted && !e.2.executed).map (·.1)

/-- QUANT_COMMAND_EXECUTE. -/
def execQuantCommandExecute (core : Nat) (s : State) : Host.Outcome State Fault Refusal :=
  .next <| match quantNext s core with
  | some id => finish (quantRun s id)
  | none => s

/-! ### Near-memory commands (spec/15 R331-R334) -/

/-- Bytes of an element. Which width, and so which range of step 1 of R333, a command has whose TYPE is neither 8 nor 9 (it fails step 3) is not
stated: 4 bytes, a design choice (notes/assumptions/43.md). -/
def nmcBytes (ty : Nat) : Nat := if ty = 9 then 8 else 4

/-- Whether the operation reads a second operand; that an OP above 3 (which fails step 3 of R333) counts as reading none is stated by no rule, a
design choice (notes/assumptions/43.md). -/
def nmcTwo (op : Nat) : Bool := op == 2 || op == 3

/-- NMC (spec/15 R331, R333). The address of an ENGINE_DESCRIPTOR is XW (notes/assumptions/25.md). Whether step 4 looks through a filled stash
chunk under the record to a live descriptor of the global frame is not stated: it does, a design choice (notes/assumptions/43.md). -/
def execNmc (k fs d a : Nat) (s : State) : Host.Outcome State Fault Refusal :=
  issue (.nmc k fs d a) s fun r t tid s =>
    let rec' := sget r d
    let w := (sget r a).toNat
    let xw := sget r (a + 1)
    let yg := sget r (a + 2)
    let count := w / 65536
    let ty := w / 256 % 16
    let op := w % 256
    let n := count * nmcBytes ty
    let two := nmcTwo op
    let outside (x : W64) : Bool := decide (globEnd < x.toNat + n) || decide (globEnd ≤ x.toNat)
    let fail (c : FCode) (x : W64) : Act := .fault s (fltCmd t c x)
    let rp := aperture s t rec' 16
    if (match rp with | some (.part ..) | some (.glob _) => false | _ => true) then fail .apertureBounds rec'
    else if outside xw then fail .apertureBounds xw
    else if (two || decide (yg ≠ 0)) && outside yg then fail .apertureBounds yg
    else if xw.toNat % 64 ≠ 0 then fail .misaligned xw
    else if yg.toNat % 64 ≠ 0 then fail .misaligned yg
    else if rec'.toNat % 16 ≠ 0 then fail .misaligned rec'
    else if 3 < op ∨ (ty ≠ 8 ∧ ty ≠ 9) ∨ w / 4096 % 16 ≠ 0 ∨ (two = false ∧ yg ≠ 0) ∨
        (two = true ∧ xw ≠ yg ∧ xw.toNat < yg.toNat + n ∧ yg.toNat < xw.toNat + n) then fail .engineDescriptor xw
    else if (match rp with | some (.part cid off) => inRing s cid off 16 | _ => false) then fail .queueMisuse rec'
    else if (match rp with | some (.part cid off) => partTouches s cid off 16 | _ => false) then
      fail .allowanceInvalid rec'
    else
      issueCmd (.nmc k fs d a) s t tid (.nmc ⟨op, if ty = 9 then .d else .f, count, xw, yg, sget r (a + 3), [], false,
        [], 0, none⟩) (some rec') 0

/-- The destination of a command. -/
def nmcDest (n : Nmc) : W64 := if n.op = 2 then n.yg else n.xw

/-- Bytes of a command's ranges. -/
def nmcLen (n : Nmc) : Nat := n.count * (if n.ty = .d then 8 else 4)

/-- Translate the pages of [va, stop): the pages, or the first byte of the lowest failing page and its code. -/
def nmcPages (ctx hub stop : Nat) (write : Bool) : Nat → Nat → State → List (Nat × Nat × Nat × Bool × Bool) →
    State × Except (Nat × FCode) (List (Nat × Nat × Nat × Bool × Bool))
  | 0, _, s, ps => (s, .ok ps)
  | fuel + 1, va, s, ps =>
    if stop ≤ va then (s, .ok ps)
    else
      match translate s ctx hub va write with
      | (s, .error e) => (s, .error (e.page.toNat, e.code))
      | (s, .ok x) =>
        if !isHbm x.key then (s, .error (x.base, .pageProtection))
        else nmcPages ctx hub stop write fuel (x.base + x.size) s
          (ps ++ [(x.base, x.size, x.pa - va % x.size, x.tracked, x.cache == 2)])

/-- The physical key of a byte of a command's ranges, whether it is tracked, whether it is uncached at the LLC. -/
def nmcKey (s : State) (n : Nmc) (va : Nat) : Option (Nat × Bool × Bool) :=
  match n.pages.find? fun p => decide (p.1 ≤ va ∧ va < p.1 + p.2.1) with
  | some p => (keyOfPa s (p.2.2.1 + (va - p.1))).map fun k => (k, p.2.2.2)
  | none => none

/-- The destination sectors of a command: their addresses. -/
def nmcSectors (n : Nmc) : List Nat := (List.range ((nmcLen n + 63) / 64)).map fun i => (nmcDest n).toNat + 64 * i

/-- Translate an accepted command's ranges: the failing page with the lowest address, or the pages and the PCs (spec/15
R333). -/
def nmcReady (s : State) (id : Nat) (c : Cmd) (n : Nmc) : State :=
  let hub := hubOf c.core
  let stop (a : W64) : Nat := a.toNat + nmcLen n
  let fuel := nmcLen n / 65536 + 2
  let (s, d) := nmcPages c.ctx hub (stop (nmcDest n)) true fuel (nmcDest n).toNat s []
  let walk1 (s : State) (use : Bool) (a : W64) : State × Except (Nat × FCode) (List (Nat × Nat × Nat × Bool × Bool)) :=
    if use then nmcPages c.ctx hub (stop a) false fuel a.toNat s [] else (s, .ok [])
  let (s, x) := walk1 s (n.op != 0) n.xw
  let (s, y) := walk1 s (nmcTwo n.op) n.yg
  let bads := [d, x, y].filterMap fun r => match r with | .error e => some e | .ok _ => none
  match bads with
  | [] =>
    let ps := [d, x, y].flatMap fun r => match r with | .ok ps => ps | .error _ => []
    let n := { n with pages := ps, ready := true }
    let homes := (nmcSectors n).foldl (fun l va => match nmcKey s n va with
      | some (k, _) => insertNew l (homeOf s k)
      | none => l) []
    modCmd s id fun c => { c with floor := maxW c.floor s.xlFloor, kind := .nmc { n with homes := homes } }
  | e :: es =>
    let low := es.foldl (fun (m e : Nat × FCode) => if e.1 < m.1 then e else m) e
    modCmd s id fun c => { c with kind := .nmc { n with ready := true }, err := some (low.2.num, BitVec.ofNat 64 low.1) }

/-- One element of an NMC (spec/15 R332). -ETA is taken before R114 picks a NaN: where ETA is a NaN the result has its sign turned, which the rule
leaves open, a design choice (notes/assumptions/43.md). -/
def nmcElem (n : Nmc) (x y : Nat) : Nat :=
  let F := Fp.fmtOf n.ty
  let par (v : Nat) : Nat := if n.ty = .d then (Fp.cvtFF Fp.f32 Fp.f64 .rne v).bits else v
  let eta := par (n.param.toNat % 2 ^ 32)
  let lam := par (n.param.toNat / 2 ^ 32)
  match n.op with
  | 0 => if n.ty = .d then n.param.toNat else eta
  | 1 => (Fp.fMul F .rne eta x).bits
  | 2 =>
    match Fp.nanResult F [eta, x, lam, y] with
    | some r => r.bits
    | none => (Fp.roundNum F .rne (Fp.add .rne (Fp.mul (Fp.toNum F eta) (Fp.toNum F x))
        (Fp.mul (Fp.toNum F lam) (Fp.toNum F y)))).bits
  | _ =>
    let t := (Fp.fFma F .rne lam x y).bits
    (Fp.fFma F .rne (Fp.fNeg F eta) t x).bits

/-- Read `len` bytes of an operand sector; none when it is uncorrectable. -/
def nmcRead (s : State) (id : Nat) (n : Nmc) (va len : Nat) : State × Except Nat (List Byte) :=
  match nmcKey s n va with
  | none => (s, .error 0)
  | some (k, _, unc) =>
    match readSector (pcMiss s (sectorOf k) 5) k len 2 with
    | (s, none) => (s, .error k)
    | (s, some (bs, st)) =>
      let s := if unc then uncache s (sectorOf k) else s
      (modCmd s id fun c => { c with bound := maxW c.bound st }, .ok bs)

/-- Process one destination sector: none, or the code and the key of the sector that failed. -/
def nmcSector (s : State) (id : Nat) (c : Cmd) (n : Nmc) (va : Nat) : State × Option (FCode × Nat) :=
  let off := va - (nmcDest n).toNat
  let len := min 64 (nmcLen n - off)
  let e := if n.ty = .d then 8 else 4
  let opnd (s : State) (use : Bool) (a : W64) : State × Except Nat (List Byte) :=
    if use then nmcRead s id n (a.toNat + off) len else (s, .ok (List.replicate len 0))
  match opnd s (n.op != 0) n.xw with
  | (s, .error k) => (s, some (.dataUncorrectable, k))
  | (s, .ok xs) =>
    match opnd s (nmcTwo n.op) n.yg with
    | (s, .error k) => (s, some (.dataUncorrectable, k))
    | (s, .ok ys) =>
      match nmcKey s n va with
      | none => (s, some (.dataUncorrectable, 0))
      | some (k, tracked, unc) =>
        let s := settle s (sectorOf k) 2
        if poisoned s (sectorOf k) then (s, some (.dataUncorrectable, k))
        else
          let data := (List.range (len / e)).flatMap fun j =>
            leBytes e (nmcElem n (leNat ((xs.drop (e * j)).take e)) (leNat ((ys.drop (e * j)).take e)))
          match enginePutKey s id c (BitVec.ofNat 64 va) k tracked unc data with
          | (s, some x) => (s, some (x.1, k))
          | (s, none) =>
            let s := if tracked then settle s (sectorOf k) 2 else s
            (modCmd s id fun c => { c with kind := match c.kind with
              | .nmc n => .nmc { n with written := n.written + len / e }
              | x => x }, none)

/-- Note the failure of a PC: the lowest failing destination address stands (spec/15 R334). -/
def nmcStop (s : State) (id : Nat) (va : Nat) (code : FCode) (key : Nat) : State :=
  modCmd s id fun c =>
    let first := match c.err with | some (_, a) => decide (va < a.toNat) | none => true
    if first then { c with err := some (code.num, BitVec.ofNat 64 va), kind := match c.kind with
      | .nmc n => .nmc { n with stop := some key }
      | x => x }
    else c

/-- One PC's share of a near-memory command: its destination sectors, in ascending order, up to the first that fails (spec/15 R334). -/
def nmcShare (s : State) (op home : Nat) : State :=
  match tbGet s.cmds op with
  | none => s
  | some c =>
    match c.kind with
    | .nmc n =>
      if c.accepted && decide (home ∈ n.homes) then
        let mine := (nmcSectors n).filter fun va => match nmcKey s n va with
          | some (k, _) => homeOf s k == home
          | none => false
        let (s, _) := mine.foldl (fun (s, stopped) va =>
          if stopped then (s, true)
          else match nmcSector s op c n va with
            | (s, none) => (s, false)
            | (s, some (code, key)) => (nmcStop s op va code key, true)) (s, false)
        modCmd s op fun c => { c with kind := match c.kind with
          | .nmc n => .nmc { n with homes := n.homes.filter (· != home) }
          | x => x }
      else s
    | _ => s

/-- The shares of accepted near-memory commands that the PCs of a stack have not finished. -/
def sharesOn (s : State) (n : Nat) : List (Nat × Nat) :=
  s.cmds.flatMap fun e => match e.2.kind with
    | .nmc m => if e.2.accepted then (m.homes.filter fun h => h / 64 == n).map fun h => (e.1, h) else []
    | _ => []

/-- NMC_PC_SHARE. -/
def execNmcPcShare (op home : Nat) (s : State) : Host.Outcome State Fault Refusal := .next (finish (nmcShare s op home))

/-! ### Acceptance (spec/15 R314, R334) -/

/-- The command of a core that ENGINE_ACCEPTANCE takes for a slot: the oldest of its team, or of a retired or saved one (spec/03 R85,
R97). -/
def acceptNext (s : State) (core slot : Nat) : Option (Nat × Cmd) :=
  match teamAt s core slot with
  | some (tid, _) => s.cmds.find? fun e => e.2.team == tid && !e.2.accepted
  | none => s.cmds.find? fun e => e.2.core == core && !e.2.accepted && (match s.team e.2.team with
      | some t => t.place.isNone
      | none => true)

/-- Whether a command may be accepted: a near-memory command waits for the earlier stores, atomics and reductions of its
team. -/
def acceptable (s : State) (id : Nat) (c : Cmd) : Bool :=
  match c.kind with
  | .nmc _ => !(s.ops.any fun e => e.2.team == c.team && decide (e.1 < id) &&
      (match e.2.kind with | .store | .atomic | .reduction => true | _ => false))
  | _ => true

/-- ENGINE_ACCEPTANCE. -/
def execEngineAcceptance (core slot : Nat) (s : State) : Host.Outcome State Fault Refusal :=
  .next <| match acceptNext s core slot with
  | none => s
  | some (id, c) =>
    if acceptable s id c then
      let s := modTeam (modCmd s id fun c => { c with accepted := true }) c.team fun t => decFlags t c.flags
      match c.kind with
      | .nmc n => if n.count = 0 then modCmd s id fun c => { c with kind := .nmc { n with ready := true } }
                  else finish (nmcReady s id c n)
      | _ => s
    else s

/-! ### The copy port (spec/15 R320-R325) -/

/-- The physical place of an element of a copy with PHYS (spec/15 R323). -/
def physElem (s : State) (g : W64) (n : Nat) : Except EErr Nat :=
  match (if inOneWindow s g.toNat n then keyOfPa s g.toNat else none) with
  | none => .error (.apertureBounds, g, 0)
  | some k => if reachable s k then .ok k else .error (.dataUncorrectable, g, k)

/-- The place of an element in the global window. ADDR where the walk itself meets an unreadable table entry is not stated (spec/15 R323): it is the
element's address, as where the element's own sector is unreadable, not the first byte of its page, a design choice
(notes/assumptions/43.md). -/
def globElem (s : State) (c : Cmd) (g : W64) (write : Bool) : State × Except EErr (Nat × Bool × Bool) :=
  match translate s c.ctx (hubOf c.core) g.toNat write with
  | (s, .error e) => (s, .error (e.code, if e.code = .dataUncorrectable then g else e.page, e.phys))
  | (s, .ok x) => (s, .ok (x.key, x.tracked, x.cache == 2))

/-- Where element `g` of a copy to or from memory lies: its key, whether it is tracked, whether it is uncached at the LLC (spec/17 R343). -/
def memElem (s : State) (c : Cmd) (k : Copy) (g : W64) (write : Bool) : State × Except EErr (Nat × Bool × Bool) :=
  let n := 2 ^ k.esize
  if !k.phys && decide (globEnd < g.toNat + n) then (s, .error (.apertureBounds, g, 0))
  else if g.toNat % n ≠ 0 then (s, .error (.misaligned, g, 0))
  else if k.phys then (s, (physElem s g n).map fun key => (key, trackedPa s g.toNat, false))
  else globElem s c g write

/-- Put one element of a CPIN into its tile, or into memory with FRAME (spec/15 R320, R325). -/
def putTile (s : State) (id : Nat) (c : Cmd) (k : Copy) (off : Nat) (data : List Byte) : State × Option EErr :=
  if k.frame then
    match keyOfPa s (k.tile + off) with
    | none => (s, some (.dataUncorrectable, BitVec.ofNat 64 (k.tile + off), 0))
    | some key =>
      let tr := trackedPa s (k.tile + off)
      match enginePutKey s id c (BitVec.ofNat 64 (k.tile + off)) key tr false data with
      | (s, none) => (if tr then settle s (sectorOf key) 2 else s, none)
      | r => r
  else
    enginePutPart s id c (partVa s c.crew ((k.tile - 2 ^ 64) / 2 ^ 20) ((k.tile - 2 ^ 64) % 2 ^ 20 + off)) ((k.tile - 2 ^ 64) / 2 ^ 20)
      ((k.tile - 2 ^ 64) % 2 ^ 20 + off) data

/-- Put one element at its place in the cluster or peer window (spec/15 R324). One that lands on a declared ring of the cluster stops the copy with
QUEUE_MISUSE: R73 bars an engine's write there, and neither R321 step 5 nor R323 names it, a design choice (notes/assumptions/43.md). -/
def putPeer (s : State) (id : Nat) (c : Cmd) (k : Copy) (g : W64) (data : List Byte) : State × Option EErr :=
  let x := g.toNat
  let n := data.length
  let inClus (y : Nat) : Bool := decide (clusterBase ≤ y ∧ y < scratchBase)
  let inPeer (y : Nat) : Bool := decide (peerBase ≤ y ∧ y < peerEnd)
  if inClus k.base.toNat && inClus x then
    match partOf s c.crew g with
    | some (cid, off) =>
      if partSizeOf s cid < off + n then (s, some (.apertureBounds, g, 0))
      else if x % n ≠ 0 then (s, some (.misaligned, g, 0))
      else if inRing s cid off n then (s, some (.queueMisuse, g, 0))
      else enginePutPart s id c x cid off data
    | none => (s, some (.apertureBounds, g, 0))
  else if inPeer k.base.toNat && inPeer x && decide (x + n ≤ peerEnd) && peerKnown s ((x - peerBase) / 2 ^ 47) then
    if x % n ≠ 0 then (s, some (.misaligned, g, 0))
    else
      match peerAnswer s ((x - peerBase) / 2 ^ 47) (x % 2 ^ 47) g with
      | some e => (s, some (e.code, g, 0))
      | none =>
        let key := peerKey ((x - peerBase) / 2 ^ 47) (x % 2 ^ 47)
        (tagWrite (memWrite s key data) key (engineWriter s id c g).floor n, none)
  else (s, some (.apertureBounds, g, 0))

/-- Change the copy of a command. -/
def modCopy (s : State) (id : Nat) (f : Copy → Copy) : State :=
  modCmd s id fun c => { c with kind := match c.kind with | .copy k => .copy (f k) | x => x }

/-- The 64-byte segments of its source a command has read. -/
def segsOf (s : State) (id : Nat) : Tab (List Byte × W64) :=
  match tbGet s.cmds id with
  | some c => match c.kind with | .copy k => k.segs | _ => []
  | none => []

/-- The `n` bytes at a key of a segment that has been read. -/
def segPart (key n : Nat) (x : List Byte × W64) : List Byte × W64 := ((x.1.drop (key % 64)).take n, x.2)

/-- Keep a segment a command has read. -/
def keepSeg (s : State) (id key : Nat) (x : List Byte × W64) : State :=
  modCopy s id fun k => { k with segs := tbSet k.segs (sectorOf key) x }

/-- Read `n` bytes of a source element: its 64-byte segment is read once (spec/15 R314, spec/19 R384). -/
def readSeg (s : State) (id : Nat) (c : Cmd) (key n : Nat) (unc : Bool) : State × Option (List Byte × W64) :=
  match tbGet (segsOf s id) (sectorOf key) with
  | some x => (s, some (segPart key n x))
  | none =>
    let s := if isHbm key then pcMiss s (sectorOf key) (demandClass s c.launch) else s
    match readSector s (sectorOf key * 64) 64 2 with
    | (s, none) => (s, none)
    | (s, some x) =>
      let s := if unc then uncache s (sectorOf key) else s
      (keepSeg s id key x, some (segPart key n x))

/-- Read `n` bytes at byte `off` of the tile of a CPOUT or CPPEER: its 64-byte segment is read once, with the stamp of the tracked version a
stash chunk there holds (spec/15 R314, R315; spec/19 R384). -/
def readTile (s : State) (id : Nat) (c : Cmd) (k : Copy) (off n : Nat) : State × Except EErr (List Byte × W64) :=
  let key := k.tile + off
  match tbGet (segsOf s id) (sectorOf key) with
  | some x => (s, .ok (segPart key n x))
  | none =>
    let cid := (k.tile - 2 ^ 64) / 2 ^ 20
    let seg := off / 64 * 64
    let soff := (k.tile - 2 ^ 64) % 2 ^ 20 + seg
    let len := min 64 (copyBytes k - seg)
    match engineRead s c.ctx (hubOf c.core) cid soff len with
    | (s, .error e) => (s, .error e)
    | (s, .ok bs) =>
      let x := (bs, partStamp s cid soff len)
      (keepSeg s id key x, .ok (segPart key n x))

/-- A version a command has read: its stamp bound rises (spec/15 R315). -/
def raiseBound (s : State) (id : Nat) (st : W64) : State := modCmd s id fun c => { c with bound := maxW c.bound st }

/-- The failure of an engine's read of partition bytes, named by the address its team's crew gives them (spec/15 R323). -/
def partErr (s : State) (c : Cmd) (cid off : Nat) (e : EErr) : EErr :=
  if 2 ^ 64 ≤ e.2.2 then (e.1, BitVec.ofNat 64 (partVa s c.crew cid off), e.2.2) else e

/-- Move the element at byte `off` of the tile. -/
def moveElem (s : State) (id : Nat) (c : Cmd) (k : Copy) (off : Nat) : State × Option EErr :=
  let n := 2 ^ k.esize
  let i := boxIndex k (off / n)
  let g := elemAddr k i
  if k.dir = 0 then
    if !inBounds k i then putTile s id c k off (leBytes n (k.fill.toNat % 2 ^ (8 * n)))
    else
      match memElem s c k g false with
      | (s, .error e) => (s, some e)
      | (s, .ok (key, _, unc)) =>
        match readSeg s id c key n unc with
        | (s, none) => (s, some (.dataUncorrectable, g, key))
        | (s, some (bs, st)) => putTile (raiseBound s id st) id c k off bs
  else if !inBounds k i then (s, none)
  else
    let cid := (k.tile - 2 ^ 64) / 2 ^ 20
    let toff := (k.tile - 2 ^ 64) % 2 ^ 20 + off
    match readTile s id c k off n with
    | (s, .error e) => (s, some (partErr s c cid toff e))
    | (s, .ok (bs, st)) =>
      let s := raiseBound s id st
      if k.dir = 2 then putPeer s id c k g bs
      else
        match memElem s c k g true with
        | (s, .error e) => (s, some e)
        | (s, .ok (key, tracked, unc)) => enginePutKey s id c g key tracked unc bs

/-- Move the elements of chunk `n` in ascending order, up to the first that fails (spec/15 R322, R323). -/
def moveChunk (s : State) (id : Nat) (c : Cmd) (k : Copy) (n : Nat) : State × Option EErr :=
  let e := 2 ^ k.esize
  let last := min (copyBytes k) (512 * n + 512)
  (List.range ((last - 512 * n) / e)).foldl (fun (s, bad) j =>
    match bad with
    | some x => (s, some x)
    | none => moveElem s id c k (512 * n + e * j)) (s, none)

/-- Set the bit of a chunk, after its word's recorded bound; the word's floor tag covers the bound (spec/15 R315, R322; spec/19 R388). -/
def setChunkBit (s : State) (id : Nat) (c : Cmd) (k : Copy) (n : Nat) : State × Option EErr :=
  let off := (k.bitmap - 2 ^ 64) % 2 ^ 20
  let word := off + n / 64 * 8
  match engineRead s c.ctx (hubOf c.core) k.bcrew (off + n / 8) 1 with
  | (s, .error e) => (s, some (partErr s c k.bcrew (off + n / 8) e))
  | (s, .ok bs) =>
    let bound := match tbGet s.cmds id with | some c => c.bound | none => 0
    let s := modCrew s k.bcrew fun w => { w with bounds := smSet 0 w.bounds word (maxW (smGet 0 w.bounds word) bound) }
    enginePutPart s id { c with floor := maxW c.floor bound } (partVa s c.crew k.bcrew (off + n / 8)) k.bcrew (off + n / 8)
      [BitVec.ofNat 8 ((leNat bs) ||| 2 ^ (n % 8))]

/-- The writes of a command that are to be performed before a chunk's bit is set: all but those of a CPOUT, whose bit tells that the chunk
has been read (spec/15 R322). -/
def ackChunk (s : State) (id : Nat) (k : Copy) : State :=
  if k.dir = 1 then s else drainWrites (fun w => decide (w.cmd = some id)) s.homeq.length s

/-- The error a command's write met at its home. -/
def cmdErr (s : State) (id : Nat) : Option EErr :=
  match (tbGet s.cmds id).bind fun c => c.err with
  | some x => some (.dataUncorrectable, x.2, 0)
  | none => none

/-- A chunk moved and its bit set, or the state where it stopped and why. -/
def chunkStep (s : State) (id : Nat) (c : Cmd) (k : Copy) (n : Nat) : State × Option EErr :=
  match moveChunk s id c k n with
  | (s, some e) => (s, some e)
  | (s, none) =>
    let s := ackChunk s id k
    if (cmdErr s id).isSome then (s, cmdErr s id)
    else match setChunkBit s id c k n with
    | (s, some e) => (s, some e)
    | (s, none) => (modCopy s id fun k => { k with done := insertNew k.done n }, none)

/-- The running copy of a command: accepted and not stopped. -/
def runningCopy (s : State) (id : Nat) : Option (Cmd × Copy) :=
  match tbGet s.cmds id with
  | some c =>
    match c.kind with
    | .copy k => if c.accepted && c.err.isNone then some (c, k) else none
    | _ => none
  | none => none

/-- COPY_CHUNK_DONE. -/
def execCopyChunkDone (op n : Nat) (s : State) : Host.Outcome State Fault Refusal :=
  .next <| match runningCopy s op with
  | none => s
  | some (c, k) =>
    if k.chunks ≤ n ∨ n ∈ k.done then s
    else
      match chunkStep s op c k n with
      | (s', none) => finish s'
      | (_, some _) => s

/-- COPY_STOP: the first chunk left that cannot be moved. -/
def execCopyStop (op : Nat) (s : State) : Host.Outcome State Fault Refusal :=
  .next <| match runningCopy s op with
  | none => s
  | some (c, k) =>
    let left := (List.range k.chunks).filter fun n => !decide (n ∈ k.done)
    match left.findSome? fun n => match chunkStep s op c k n with
        | (s', some e) => some (s', e)
        | (_, none) => none with
    | some (s', e) => finish (modCmd s' op fun c => { c with err := some (e.1.num, e.2.1) })
    | none => s

/-! ### Completion (spec/15 R316, spec/09 R222) -/

/-- Whether every write of a command, but its record where that is not written, has been performed. -/
def cmdDone (c : Cmd) : Bool :=
  c.accepted && decide (c.homes = []) &&
    (match c.kind with
     | .copy k => c.err.isSome || k.done.length == k.chunks
     | .nmc n => n.ready && decide (n.homes = [])
     | _ => c.executed)

/-- Word 0 of the record. -/
def recordWord (c : Cmd) : Nat :=
  let count := match c.kind with | .copy k => k.done.length | .nmc n => n.written | _ => 0
  2 ^ 63 + (match c.err with | some (code, _) => 2 ^ 62 + code % 256 * 2 ^ 54 | none => 0) + count % 2 ^ 48

/-- Word 1 of the record. -/
def recordAddr (c : Cmd) : Nat := match c.err with | some (_, a) => a.toNat | none => 0

/-- Write the record, word 1 then word 0; a record that cannot be written, here or at its home, is lost and to be logged with the
record's address (spec/15 R316). -/
def writeRecord (s : State) (id : Nat) (c : Cmd) : State :=
  let c := { c with recorded := true }
  let s := modCmd s id fun c => { c with recorded := true }
  match recordVa s c with
  | none => s
  | some va =>
    let lost (s : State) (code : FCode) : State :=
      modCmd s id fun x => { x with fails := lowestFail x.fails 4 (engineEntry c code (BitVec.ofNat 64 va) 0).2 }
    match enginePut s id c (va + 8) (leBytes 8 (recordAddr c)) with
    | (s, some e) => lost s e.1
    | (s, none) =>
      match enginePut s id c va (leBytes 8 (recordWord c)) with
      | (s, some e) => lost s e.1
      | (s, none) => s

/-- The NMC_STOP record of a command that stopped on an uncorrectable error (spec/15 R334, spec/25 R466). -/
def nmcStopRec (s : State) (c : Cmd) : State :=
  match c.kind, c.err with
  | .nmc n, some (code, _) =>
    match n.stop with
    | some key =>
      if code = 0x10 then
        let owner := ownerOf s c.launch + (match s.team c.team with | some t => slotNum t * 2 ^ 32 | none => 0)
        pushErr s ⟨0x09, 1, 0x10, 2, homeOf s key, key / 64 * 64, owner, n.written,
          match c.record with | some a => a.toNat | none => 0⟩
      else s
    | none => s
  | _, _ => s

/-- The command completes for its batch: its stamp bound is kept, and its failures are appended to the log (spec/15 R315, R316, R328). -/
def endCmd (s : State) (op : Nat) (c : Cmd) : State :=
  let b := c.batch.getD 0
  let raise (m : Tab W64) : Tab W64 := smSet 0 m b (maxW (smGet 0 m b) c.bound)
  let s := modTeam s c.team fun t => { t with batchBounds := raise t.batchBounds }
  forgetFreed { s with cmds := tbDel s.cmds op, logq := s.logq ++ c.fails.map fun e => (c.ctx, e.2) }

/-- The completion record of a command that has none yet, and the NMC_STOP record. -/
def recordCmd (s : State) (op : Nat) (c : Cmd) : State := if c.recorded then s else nmcStopRec (writeRecord s op c) c

/-- ENGINE_COMPLETION_RECORD: the record; once it is performed, the command completes for its batch. -/
def execEngineCompletionRecord (op : Nat) (s : State) : Host.Outcome State Fault Refusal :=
  .next <| match tbGet s.cmds op with
  | none => s
  | some c =>
    if cmdDone c then
      let s := recordCmd s op c
      finish (match tbGet s.cmds op with
        | some c => if c.homes = [] then endCmd s op c else s
        | none => s)
    else s

end Sys2Proof.Machine
end

