-- ==== Sys2Proof/Machine/Sha.lean ====
section
/-! DEFINITION. SHA-512, which spec/21 R413 names and does not define: the function of FIPS 180-4 (notes/assumptions/8.md). -/

namespace Sys2Proof.Machine

/-- The first hash value: the fractions of the square roots of the first eight primes. -/
def shaStart : List W64 := [
  0x6a09e667f3bcc908, 0xbb67ae8584caa73b, 0x3c6ef372fe94f82b, 0xa54ff53a5f1d36f1,
  0x510e527fade682d1, 0x9b05688c2b3e6c1f, 0x1f83d9abfb41bd6b, 0x5be0cd19137e2179]

/-- The constants of rounds 0 to 19: fractions of the cube roots of primes. -/
def shaK0 : List W64 := [
  0x428a2f98d728ae22, 0x7137449123ef65cd, 0xb5c0fbcfec4d3b2f, 0xe9b5dba58189dbbc, 0x3956c25bf348b538,
  0x59f111f1b605d019, 0x923f82a4af194f9b, 0xab1c5ed5da6d8118, 0xd807aa98a3030242, 0x12835b0145706fbe,
  0x243185be4ee4b28c, 0x550c7dc3d5ffb4e2, 0x72be5d74f27b896f, 0x80deb1fe3b1696b1, 0x9bdc06a725c71235,
  0xc19bf174cf692694, 0xe49b69c19ef14ad2, 0xefbe4786384f25e3, 0x0fc19dc68b8cd5b5, 0x240ca1cc77ac9c65]

/-- The constants of rounds 20 to 39: fractions of the cube roots of primes. -/
def shaK1 : List W64 := [
  0x2de92c6f592b0275, 0x4a7484aa6ea6e483, 0x5cb0a9dcbd41fbd4, 0x76f988da831153b5, 0x983e5152ee66dfab,
  0xa831c66d2db43210, 0xb00327c898fb213f, 0xbf597fc7beef0ee4, 0xc6e00bf33da88fc2, 0xd5a79147930aa725,
  0x06ca6351e003826f, 0x142929670a0e6e70, 0x27b70a8546d22ffc, 0x2e1b21385c26c926, 0x4d2c6dfc5ac42aed,
  0x53380d139d95b3df, 0x650a73548baf63de, 0x766a0abb3c77b2a8, 0x81c2c92e47edaee6, 0x92722c851482353b]

/-- The constants of rounds 40 to 59: fractions of the cube roots of primes. -/
def shaK2 : List W64 := [
  0xa2bfe8a14cf10364, 0xa81a664bbc423001, 0xc24b8b70d0f89791, 0xc76c51a30654be30, 0xd192e819d6ef5218,
  0xd69906245565a910, 0xf40e35855771202a, 0x106aa07032bbd1b8, 0x19a4c116b8d2d0c8, 0x1e376c085141ab53,
  0x2748774cdf8eeb99, 0x34b0bcb5e19b48a8, 0x391c0cb3c5c95a63, 0x4ed8aa4ae3418acb, 0x5b9cca4f7763e373,
  0x682e6ff3d6b2b8a3, 0x748f82ee5defb2fc, 0x78a5636f43172f60, 0x84c87814a1f0ab72, 0x8cc702081a6439ec]

/-- The constants of rounds 60 to 79: fractions of the cube roots of primes. -/
def shaK3 : List W64 := [
  0x90befffa23631e28, 0xa4506cebde82bde9, 0xbef9a3f7b2c67915, 0xc67178f2e372532b, 0xca273eceea26619c,
  0xd186b8c721c0c207, 0xeada7dd6cde0eb1e, 0xf57d4f7fee6ed178, 0x06f067aa72176fba, 0x0a637dc5a2c898a6,
  0x113f9804bef90dae, 0x1b710b35131c471b, 0x28db77f523047d84, 0x32caab7b40c72493, 0x3c9ebe0a15c9bebc,
  0x431d67c49c100d4c, 0x4cc5d4becb3e42b6, 0x597f299cfc657e2a, 0x5fcb6fab3ad6faec, 0x6c44198c4a475817]

/-- The constants of the 80 rounds. -/
def shaK : List W64 := shaK0 ++ shaK1 ++ shaK2 ++ shaK3

/-- The number that bytes stand for, the first the most significant. -/
def shaWord (bs : List Byte) : W64 := bs.foldl (fun x b => x * 256 + b.setWidth 64) 0

/-- The low `n` bytes of a number, the most significant first. -/
def shaBytes (n x : Nat) : List Byte := (List.range n).map fun i => BitVec.ofNat 8 (x / 256 ^ (n - 1 - i))

/-- `n` 64-bit words of a string. -/
def shaWords (bs : List Byte) (n : Nat) : List W64 := (List.range n).map fun i => shaWord ((bs.drop (8 * i)).take 8)

/-- The message padded to whole blocks of 128 bytes: one bit 1, zeros, the length in bits as 16 bytes. -/
def shaPad (bs : List Byte) : List Byte :=
  let n := bs.length
  bs ++ 128#8 :: List.replicate ((239 - n % 128) % 128) 0 ++ shaBytes 16 (8 * n)

/-- The next word of a block's schedule, from the words before it, the last first. -/
def shaNext (w : List W64) : W64 :=
  let x := w.getD 14 0
  let y := w.getD 1 0
  (y.rotateRight 19 ^^^ y.rotateRight 61 ^^^ y >>> 6) + w.getD 6 0 + (x.rotateRight 1 ^^^ x.rotateRight 8 ^^^ x >>> 7) + w.getD 15 0

/-- The schedule of a block: its 16 words and the 64 that follow from them. -/
def shaSchedule (block : List Byte) : List W64 :=
  ((List.range 64).foldl (fun w _ => shaNext w :: w) (shaWords block 16).reverse).reverse

/-- One round on the eight working variables; `kw` is the round's constant and its word. -/
def shaRound : List W64 → W64 × W64 → List W64
  | [a, b, c, d, e, f, g, h], (k, w) =>
    let t := h + (e.rotateRight 14 ^^^ e.rotateRight 18 ^^^ e.rotateRight 41) + ((e &&& f) ^^^ (~~~e &&& g)) + k + w
    let u := (a.rotateRight 28 ^^^ a.rotateRight 34 ^^^ a.rotateRight 39) + ((a &&& b) ^^^ (a &&& c) ^^^ (b &&& c))
    [t + u, a, b, c, d + t, e, f, g]
  | l, _ => l

/-- The hash value after a block. -/
def shaBlock (hash : List W64) (block : List Byte) : List W64 :=
  (hash.zip ((shaK.zip (shaSchedule block)).foldl shaRound hash)).map fun x => x.1 + x.2

/-- The hash value after `n` blocks of a padded message. -/
def shaBlocks : Nat → List Byte → List W64 → List W64
  | 0, _, hash => hash
  | n + 1, bs, hash => shaBlocks n (bs.drop 128) (shaBlock hash (bs.take 128))

/-- The 64 bytes of the SHA-512 digest of a string of bytes. -/
def sha512 (bs : List Byte) : List Byte :=
  let m := shaPad bs
  (shaBlocks (m.length / 128) m shaStart).flatMap fun w => shaBytes 8 w.toNat

end Sys2Proof.Machine
end

