-- ==== Sys2Proof/Machine/Control.lean ====
section
/-! DEFINITION. The control and system instructions but EXIT: spec/09 R197-R209. -/

namespace Sys2Proof.Machine

/-- NOP (spec/09 R200). -/
def execNop (k : Nat) (s : State) : Host.Outcome State Fault Refusal :=
  issue (.nop k) s fun _ _ _ s => .go s

/-- The target of a branch: its word's address + 8·OFF (spec/09 R198). -/
def branchTarget (t : Team) (off : Int) : W64 := t.pc + BitVec.ofInt 64 (8 * off)

/-- BR (spec/09 R198). -/
def execBr (off : Int) (s : State) : Host.Outcome State Fault Refusal :=
  issue (.br off) s fun _ t _ s => .jump s (branchTarget t off)

/-- BRC (spec/09 R198). -/
def execBrc (c : Nat) (sns : Bool) (off : Int) (s : State) : Host.Outcome State Fault Refusal :=
  issue (.brc c sns off) s fun r t _ s => if cget r c != sns then .jump s (branchTarget t off) else .go s

/-- BRZ (spec/09 R198). -/
def execBrz (m : Nat) (sns : Bool) (off : Int) (s : State) : Host.Outcome State Fault Refusal :=
  issue (.brz m sns off) s fun r t _ s =>
    if decide (summary (kget r m) = 0) != sns then .jump s (branchTarget t off) else .go s

/-- CALL (spec/09 R198). -/
def execCall (lnk : Nat) (off : Int) (s : State) : Host.Outcome State Fault Refusal :=
  issue (.call lnk off) s fun _ t tid s => .jump (writeRegs s tid [.s lnk (t.pc + 8)]) (branchTarget t off)

/-- JMP (spec/09 R198). -/
def execJmp (k a : Nat) (s : State) : Host.Outcome State Fault Refusal :=
  issue (.jmp k a) s fun r _ _ s => .jump s (sget r a)

/-- LOOP (spec/09 R198). -/
def execLoop (lnk : Nat) (off : Int) (s : State) : Host.Outcome State Fault Refusal :=
  issue (.loop lnk off) s fun r t tid s =>
    let n := sget r lnk - 1
    let s := writeRegs s tid [.s lnk n]
    if n ≠ 0 then .jump s (branchTarget t off) else .go s

/-- TRAP (spec/09 R203). -/
def execTrap (k code : Nat) (s : State) : Host.Outcome State Fault Refusal :=
  issue (.trap k code) s fun _ t _ s => .fault s { fltTeam t .softwareTrap with tcode := code }

/-- RTT (spec/09 R206). -/
def execRtt (k : Nat) (skip : Bool) (s : State) : Host.Outcome State Fault Refusal :=
  issue (.rtt k skip) s fun _ _ tid s => .placed (leaveHandler s tid skip)

/-- YIELD (spec/03 R68). -/
def execYield (k : Nat) (s : State) : Host.Outcome State Fault Refusal :=
  issue (.yield k) s fun _ _ tid s => .go (modTeam s tid fun t => { t with notNext := true })

/-! ### System registers (spec/07 R165, R166; spec/09 R208) -/

/-- BATCHDONE: the largest n such that every batch from 1 to n is complete (spec/09 R222). -/
def batchDone (s : State) (tid : Nat) (t : Team) : Nat :=
  s.cmds.foldl (fun n c => match c.2.batch with
    | some b => if c.2.team = tid then min n (b - 1) else n
    | none => n) (t.batchNext - 1)

/-- The writes of GETSYS. -/
def getsysWrites (s : State) (tid : Nat) (t : Team) (d : Nat) (sel : Sel) : List Wr :=
  let nat (n : Nat) : List Wr := [.s d (BitVec.ofNat 64 n)]
  let ctx := tbGet s.contexts t.ctx
  match sel with
  | .teamid => nat t.teamid
  | .crewid => nat t.crewid
  | .clusteridx => nat t.cx
  | .clusteridy => nat t.cy
  | .clusteridz => nat t.cz
  | .stage => nat t.stage
  | .role => nat t.role
  | .lanes => nat t.lanes
  | .nregs => nat t.nregs
  | .fpmode => nat t.fpmode.toNat
  | .fpflags => nat t.fpflags.toNat
  | .stampfloor => [.s d (relFloor s t)]
  | .batchnext => nat t.batchNext
  | .batchdone => nat (batchDone s tid t)
  | .faultcode => [.s d t.faultcode]
  | .faultpc => [.s d t.faultpc]
  | .resumepc => [.s d t.resumepc]
  | .faultmask => [.k d t.faultmask]
  | .faultaddr => (List.range t.lanes).flatMap fun l => wrT .b64 d l (smGet 0 t.faultaddr l).toNat
  | .laneid => (List.range t.lanes).map fun l => .v d l (BitVec.ofNat 32 l)
  | .handlerbase => [.s d (match ctx with | some c => c.handlerbase | none => 0)]
  | .poolcounter => [.s d (match ctx with | some c => c.poolcounter | none => 0)]
  | .redlogbase => [.s d (match ctx with | some c => c.redlogbase | none => 0)]
  | .horizoncache => [.s d (s.core t.home).hcache]

/-- Whether a VFDIV or VFSQRT of the team is still to merge its flags (spec/05 R113). -/
def flagsPending (s : State) (tid : Nat) : Bool := anyOp s tid fun o => decide (o.kind = .arith)

/-- GETSYS (spec/09 R208). -/
def execGetsys (k d : Nat) (sel : Sel) (s : State) : Host.Outcome State Fault Refusal :=
  issue (.getsys k d sel) s fun _ t tid s =>
    if decide (sel = .fpflags) && flagsPending s tid then .wait s .arith
    else .go (writeRegs s tid (getsysWrites s tid t d sel))

/-- The state after SETSYS of a selector that can be written (spec/07 R165, R166; spec/21 R394). -/
def setsysState (s : State) (tid : Nat) (t : Team) (sel : Sel) (v : W64) : State :=
  match sel with
  | .fpmode => modTeam s tid fun t => { t with fpmode := BitVec.ofNat 2 v.toNat }
  | .fpflags => modTeam s tid fun t => { t with fpflags := BitVec.ofNat 5 v.toNat }
  | .stampfloor => modTeam s tid fun t => raiseFloor t (if 2 ^ 53 < logical v then mkStamp (2 ^ 53) 0 else v)
  | .handlerbase => modCtx s t.ctx fun c => { c with handlerbase := v }
  | .poolcounter => modCtx s t.ctx fun c => { c with poolcounter := v }
  | .redlogbase => modCtx s t.ctx fun c => { c with redlogbase := v }
  | _ => s

/-- SETSYS (spec/09 R208). -/
def execSetsys (k a : Nat) (sel : Sel) (s : State) : Host.Outcome State Fault Refusal :=
  issue (.setsys k a sel) s fun r t tid s =>
    if (decide (sel = .fpflags) || decide (sel = .fpmode)) && flagsPending s tid then .wait s .arith
    else .go (setsysState s tid t sel (sget r a))

/-! ### Breakpoints, the mailbox, escalation -/

/-- Whether a debugger is attached to a context on a core (spec/23 R446). -/
def attached (s : State) (core ctx : Nat) : Bool := (s.core core).attach && (s.core core).dctx == ctx

/-- BRKPT (spec/09 R203). -/
def execBrkpt (k : Nat) (s : State) : Host.Outcome State Fault Refusal :=
  issue (.brkpt k) s fun _ t tid s =>
    if attached s t.home t.ctx && (s.core t.home).haltbrk then
      .placed (modTeam s tid fun t => { t with halted := true })
    else .fault s (fltTeam t .breakpoint)

/-- MBOX (spec/09 R209). -/
def execMbox (k a tag : Nat) (s : State) : Host.Outcome State Fault Refusal :=
  issue (.mbox k a tag) s fun r t _ s =>
    if attached s t.home t.ctx then
      .go (modCore s t.home fun c =>
        let e : Mail := ⟨sget r a, tag, t.ctx, slotNum t⟩
        if c.mail.length < 16 then { c with mail := c.mail ++ [e] }
        else { c with mail := c.mail.drop 1 ++ [e], ovr := true })
    else .go s

/-- ESCALATE (spec/09 R207). The fault handed over is the one whose handler the team runs. -/
def execEscalate (k a : Nat) (s : State) : Host.Outcome State Fault Refusal :=
  issue (.escalate k a) s fun r _ tid s => .placed (park s tid (sget r a))

end Sys2Proof.Machine
end

