-- ==== Sys2Proof/Machine/Sync.lean ====
section
/-! DEFINITION. Stage rings (spec/03 R69-R73, spec/09 R217), barriers (R218), the matrix engine's ownership (R219, spec/03
R74, R75), spawning (R220, spec/03 R76), batches and chunk bitmaps (R222-R224). -/

namespace Sys2Proof.Machine

/-! ### Stage rings -/

/-- The ring a queue number names in a team's crew. -/
def ringOf (s : State) (t : Team) (q : Nat) : Option Ring :=
  match tbGet s.crews t.crew with
  | none => none
  | some c => tbGet c.rings q

/-- Change a ring of a crew. -/
def modRing (s : State) (cid q : Nat) (f : Ring → Ring) : State :=
  modCrew s cid fun c => { c with rings := tbMod c.rings q f }

/-- The key of a slot. -/
def slotKey (cid : Nat) (r : Ring) (i : Nat) : Nat := partKey cid (r.off + 8 * i)

/-- The send allowance (spec/03 R71). -/
def allowance (r : Ring) : Nat := r.depth - (r.p - r.q)

/-- The slot a pop would take. -/
def popSlot (s : State) (cid : Nat) (r : Ring) : Nat := leNat (memRead s (slotKey cid r (r.q % r.depth)) 8)

/-- Whether the slot at Q mod D is full: its PHASE is that of the lap (spec/03 R71). -/
def slotFull (s : State) (cid : Nat) (r : Ring) : Bool :=
  decide (popSlot s cid r / 2 ^ 32 % 2 = r.q / r.depth % 2)

/-- Write a slot: HANDLE, PHASE, and the pusher's floor beside it (spec/03 R71, spec/19 R387). -/
def pushSlot (s : State) (cid q : Nat) (r : Ring) (h : W32) (floor : W64) : State :=
  let i := r.p % r.depth
  let s := memWrite s (slotKey cid r i) (leBytes 8 (h.toNat + 2 ^ 32 * (r.p / r.depth % 2)))
  modRing s cid q fun r => { r with p := r.p + 1, tags := smSet 0 r.tags i floor }

/-- Take the slot at Q mod D for a team: the handle into S[D], the floor raised (spec/03 R71, spec/19 R387). -/
def popTake (s : State) (tid cid q d : Nat) (r : Ring) : State :=
  let h := popSlot s cid r % 2 ^ 32
  let fl := smGet 0 r.tags (r.q % r.depth)
  let s := modRing s cid q fun r => { r with q := r.q + 1 }
  modTeam (writeRegs s tid [.s d (BitVec.ofNat 64 h)]) tid fun t => raiseFloor t fl

/-- The checks of R73: the ring, declared, and the team's stage its producer or consumer. -/
def ringFor (s : State) (t : Team) (q : Nat) (push : Bool) : Option Ring :=
  match ringOf s t q with
  | none => none
  | some r => if t.stage = (if push then r.producer else r.consumer) then some r else none

/-- Whether the slot to be popped lies in a poisoned block (spec/25 R452). -/
def popPoisoned (s : State) (cid : Nat) (r : Ring) : Bool := poisoned s (sectorOf (slotKey cid r (r.q % r.depth)))

/-- The fault of a pop whose slot is poisoned: the failing block is the slot's (spec/25 R457, R466). -/
def popFault (t : Team) (r : Ring) : Flt := { fltTeam t .dataUncorrectable with phys := slotKey t.crew r (r.q % r.depth) }

/-- QPUSH (spec/09 R217). -/
def execQpush (k a q : Nat) (s : State) : Host.Outcome State Fault Refusal :=
  issue (.qpush k a q) s fun r t tid s =>
    match ringFor s t q true with
    | none => .fault s (fltTeam t .queueMisuse)
    | some g =>
      let h := BitVec.ofNat 32 (sget r a).toNat
      if mustDrain s tid then .wait s .drain
      else if g.pushers = [] && decide (0 < allowance g) then .go (pushSlot s t.crew q g h (relFloor s t))
      else .wait (modRing s t.crew q fun g => { g with pushers := g.pushers ++ [tid] }) (.push q h)

/-- QPOP (spec/09 R217). -/
def execQpop (k d q : Nat) (s : State) : Host.Outcome State Fault Refusal :=
  issue (.qpop k d q) s fun _ t tid s =>
    match ringFor s t q false with
    | none => .fault s (fltTeam t .queueMisuse)
    | some g =>
      if popPoisoned s t.crew g then .fault s (popFault t g)
      else if g.poppers = [] && slotFull s t.crew g then .go (popTake s tid t.crew q d g)
      else .wait (modRing s t.crew q fun g => { g with poppers := g.poppers ++ [tid] }) (.pop q d)

/-- QTRY (spec/09 R217). A push that cannot be made reports so at once; one that could, but for earlier accesses of the team in flight,
waits for these, whether it should is not stated, a design choice (notes/assumptions/43.md). -/
def execQtry (k n : Nat) (op : QtryOp) (q : Nat) (s : State) : Host.Outcome State Fault Refusal :=
  issue (.qtry k n op q) s fun r t tid s =>
    match op with
    | .push a =>
      match ringFor s t q true with
      | none => .fault s (fltTeam t .queueMisuse)
      | some g =>
        if g.pushers = [] && decide (0 < allowance g) then
          if mustDrain s tid then .wait s .drain
          else .go (writeRegs (pushSlot s t.crew q g (BitVec.ofNat 32 (sget r a).toNat) (relFloor s t)) tid [.c n true])
        else .go (writeRegs s tid [.c n false])
    | .pop d =>
      match ringFor s t q false with
      | none => .fault s (fltTeam t .queueMisuse)
      | some g =>
        if popPoisoned s t.crew g then .fault s (popFault t g)
        else if g.poppers = [] && slotFull s t.crew g then
          .go (writeRegs (popTake s tid t.crew q d g) tid [.c n true])
        else .go (writeRegs s tid [.c n false])

/-- Complete a blocking instruction of one word: the team goes on with the next. -/
def completeBlocking (s : State) (tid : Nat) : State := advance s tid 1

/-- QUEUE_PUSH_DONE: the head waiter of a ring finds a send allowance (spec/03 R71). -/
def execQueuePushDone (crew q : Nat) (s : State) : Host.Outcome State Fault Refusal :=
  .next <| match (tbGet s.crews crew).bind fun c => tbGet c.rings q with
  | none => s
  | some g =>
    match g.pushers with
    | [] => s
    | tid :: rest =>
      match s.team tid with
      | some t =>
        match t.wait with
        | .push _ h =>
          if running t && decide (0 < allowance g) then
            finish (completeBlocking (pushSlot (modRing s crew q fun g => { g with pushers := rest }) crew q g h t.floor)
              tid)
          else s
        | _ => s
      | none => s

/-- QUEUE_POP_DONE: the head waiter of a ring finds its slot full (spec/03 R71). -/
def execQueuePopDone (crew q : Nat) (s : State) : Host.Outcome State Fault Refusal :=
  .next <| match (tbGet s.crews crew).bind fun c => tbGet c.rings q with
  | none => s
  | some g =>
    match g.poppers with
    | [] => s
    | tid :: rest =>
      match s.team tid with
      | some t =>
        match t.wait with
        | .pop _ d =>
          if running t && slotFull s crew g then
            let s := modRing s crew q fun g => { g with poppers := rest }
            if popPoisoned s crew g then
              finish (boundary (enterHandler s tid (popFault t g) t.pc false) tid)
            else finish (completeBlocking (popTake s tid crew q d g) tid)
          else s
        | _ => s
      | none => s

/-! ### Barriers (spec/09 R218) -/

/-- BAR: the team arrives; it is released by BARRIER_RELEASE. -/
def execBar (k : Nat) (cluster : Bool) (s : State) : Host.Outcome State Fault Refusal :=
  issue (.bar k cluster) s fun _ t tid s =>
    if mustDrain s tid then .wait s .drain
    else
      let arrive (b : Barrier) : Barrier := { b with arrived := insertNew b.arrived tid, floor := maxW b.floor (relFloor s t) }
      let s := if cluster then
          (match tbGet s.crews t.crew with
           | some c => { s with clusters := tbMod s.clusters c.cluster fun k => { k with bar := arrive k.bar } }
           | none => s)
        else modCrew s t.crew fun c => { c with bar := arrive c.bar }
      .wait s (.bar cluster)

/-- The teams of a barrier's scope. -/
def scopeTeams (s : State) (cluster : Bool) (id : Nat) : List (Nat × Team) :=
  if cluster then
    match tbGet s.clusters id with
    | none => []
    | some k => s.teams.filter fun e => k.crews.contains e.2.crew
  else crewTeams s id

/-- The barrier of a crew or cluster. -/
def barrierOf (s : State) (cluster : Bool) (id : Nat) : Option Barrier :=
  if cluster then (tbGet s.clusters id).map (·.bar) else (tbGet s.crews id).map (·.bar)

/-- Whether every team of the scope has arrived; none is away from its core (spec/03 R87, R95). -/
def barrierDue (s : State) (cluster : Bool) (id : Nat) : Bool :=
  match barrierOf s cluster id with
  | none => false
  | some b =>
    let ts := scopeTeams s cluster id
    decide (b.arrived ≠ []) && ts.all fun e => b.arrived.contains e.1 && running e.2 && decide (e.2.wait = .bar cluster)

/-- Release one team: the acquire side of the barrier (spec/19 R371, R387). -/
def releaseOne (cluster : Bool) (fl : W64) (s : State) (e : Nat × Team) : State :=
  let s := modTeam s e.1 fun t => raiseFloor t fl
  let s := if cluster then dropL1 s e.2.home e.2.ctx else s
  completeBlocking s e.1

/-- BARRIER_RELEASE. -/
def execBarrierRelease (cluster : Bool) (id : Nat) (s : State) : Host.Outcome State Fault Refusal :=
  .next <| match barrierOf s cluster id with
  | none => s
  | some b =>
    if barrierDue s cluster id then
      let next (x : Barrier) : Barrier := { x with gen := x.gen + 1, arrived := [], floor := 0 }
      let s := (scopeTeams s cluster id).foldl (releaseOne cluster b.floor) s
      finish (if cluster then { s with clusters := tbMod s.clusters id fun k => { k with bar := next k.bar } }
              else modCrew s id fun c => { c with bar := next c.bar })
    else s

/-! ### The matrix engine's ownership (spec/03 R74, R75) -/

/-- Whether a team has a matrix instruction in flight. -/
def mxPending (s : State) (tid : Nat) : Bool := anyOp s tid fun o => match o.kind with | .mx _ => true | _ => false

/-- MXACQ. -/
def execMxacq (k : Nat) (s : State) : Host.Outcome State Fault Refusal :=
  issue (.mxacq k) s fun _ t tid s =>
    let c := s.core t.home
    if c.mxOwner = some tid then .go s
    else if c.mxOwner.isNone && decide (c.mxQueue = []) && decide (c.mxOver = []) then
      .go (modCore s t.home fun c => { c with mxOwner := some tid })
    else if c.mxQueue.length < 32 && decide (c.mxOver = []) then
      .wait (modCore s t.home fun c => { c with mxQueue := c.mxQueue ++ [tid] }) .mxacq
    else .wait (modCore s t.home fun c => { c with mxOver := c.mxOver ++ [tid] }) .mxacq

/-- MXREL: the head of the waiting queue becomes owner at MATRIX_OWNERSHIP_GRANT. -/
def execMxrel (k : Nat) (s : State) : Host.Outcome State Fault Refusal :=
  issue (.mxrel k) s fun _ t _ s => .go (modCore s t.home fun c => { c with mxOwner := none })

/-- Whether the engine has no owner, or one that has retired with its operations complete. -/
def mxFree (s : State) (c : Core) : Bool :=
  match c.mxOwner with
  | none => true
  | some o => (s.team o).isNone && !mxPending s o

/-- The first team of a waiting queue that is on the core. -/
def firstRunning (s : State) (l : List Nat) : Option Nat :=
  l.find? fun tid => match s.team tid with | some t => running t | none => false

/-- The next owner of a core's free matrix engine: the first team, of the queue and then of those that wait to join it, that is on the core;
a place that a saved team keeps does not hold the engine back (spec/03 R75, R95). -/
def nextMx (s : State) (c : Core) : Option Nat := if mxFree s c then firstRunning s (c.mxQueue ++ c.mxOver) else none

/-- MATRIX_OWNERSHIP_GRANT: a waiting MXACQ completes; a restored owner goes on (spec/03 R95). -/
def execMatrixOwnershipGrant (core : Nat) (s : State) : Host.Outcome State Fault Refusal :=
  .next <|
    match nextMx s (s.core core) with
    | none => s
    | some h =>
      let s := modCore s core fun c => refillMx { c with
        mxOwner := some h, mxQueue := c.mxQueue.filter (· != h), mxOver := c.mxOver.filter (· != h) }
      match s.team h with
      | some t => if t.wait = .mxacq then finish (completeBlocking s h) else s
      | none => s

/-! ### Spawning (spec/09 R220, spec/03 R76) -/

/-- Read `n` bytes at a virtual address under Translate, sector by sector: the bytes, or the fault and the failing key. Which fault a range meets
that leaves the global window, where Translate does not reach, is not stated (spec/17 R353, R354; spec/09 R220): APERTURE_BOUNDS, a design choice
(notes/assumptions/43.md). -/
def readVirt (s : State) (ctx hub va n : Nat) : State × Except (FCode × Nat) (List Byte) :=
  if globEnd < va + n then (s, .error (.apertureBounds, 0))
  else
    (spans va n (n / 64 + 2)).foldl (fun (s, r) (a, m) =>
      match r with
      | .error e => (s, .error e)
      | .ok bs =>
        match translate s ctx hub a false with
        | (s, .error e) => (s, .error (e.code, e.phys))
        | (s, .ok x) =>
          match readSector s x.key m 0 with
          | (s, none) => (s, .error (.dataUncorrectable, x.key))
          | (s, some (d, _)) => (if x.cache = 2 then uncache s (sectorOf x.key) else s, .ok (bs ++ d))) (s, .ok [])

/-- A valid kernel descriptor (spec/03 R88): MAGIC, and reserved bytes zero. -/
def descOk (d : List Byte) : Bool :=
  leNat (d.take 8) == 0x59564B4400000001 && ((d.drop 22).take 42).all (· == 0)

/-- SPTOFF of a descriptor. -/
def descSptoff (d : List Byte) : Nat := leNat ((d.drop 12).take 4)

/-- NREGS of a descriptor. -/
def descNregs (d : List Byte) : Nat := leNat ((d.drop 16).take 2)

/-- N is a multiple of 8 from 8 to 2,048 (spec/03 R44). -/
def nregsOk (n : Nat) : Bool := n % 8 == 0 && decide (8 ≤ n ∧ n ≤ 2048)

/-- Launch the bin at an index: it waits for its team's placement (spec/03 R77). -/
def launchBin (s : State) (core bin : Nat) : State :=
  modCore s core fun c => match tbGet c.bins bin with
    | none => c
    | some b => { c with bins := tbDel c.bins bin, launched := c.launched ++ [b] }

/-- The bin bound to a pair, or an empty one, or after the oldest has launched the place it left (spec/03 R76). -/
def binFor (s : State) (core launch : Nat) (e : W64) : State × Nat :=
  let c := s.core core
  match c.bins.find? fun b => b.2.launch == launch && b.2.entry == e with
  | some b => (s, b.1)
  | none =>
    match (List.range 8).find? fun i => (tbGet c.bins i).isNone with
    | some i => (s, i)
    | none =>
      let old := c.bins.foldl (fun (m : Nat × Nat) b => if b.2.order < m.2 then (b.1, b.2.order) else m)
        (match c.bins with | b :: _ => (b.1, b.2.order) | [] => (0, 0))
      (launchBin s core old.1, old.1)

/-- Place one record, with the descriptor `d` its SPAWN read. The team of a bin takes NREGS and SPTOFF as read for the bin's first record,
and later reads are ignored; which read counts is not stated, a design choice (spec/03 R78, R88; notes/assumptions/43.md). -/
def placeRecord (s : State) (core launch : Nat) (d : List Byte) (e : W64) (floor : W64) (rec : List W32) : State :=
  let (s, i) := binFor s core launch e
  let old := (tbGet (s.core core).bins i).getD ⟨launch, e, descSptoff d, descNregs d, [], 0, s.cycle, s.nextId⟩
  let b := { old with records := old.records ++ [rec], floor := maxW old.floor floor }
  let s := { modCore s core (fun c => { c with bins := tbSet c.bins i b }) with nextId := s.nextId + 1 }
  if 32 ≤ b.records.length then launchBin s core i else s

/-- SPAWN. FAULTADDR of its MISALIGNED and ENGINE_DESCRIPTOR faults, which the rule does not name, is e in every active lane, a design choice
(notes/assumptions/43.md). -/
def execSpawn (k a b : Nat) (s : State) : Host.Outcome State Fault Refusal :=
  issue (.spawn k a b) s fun r t tid s =>
    let act := active r k
    let m := maskOf act
    let e := sget r b
    let at64 := e - 64
    if act = [] then .go s
    else if e.toNat % 8 ≠ 0 then .fault s (fltAt .misaligned m e 0)
    else
      match readVirt s t.ctx (teamHub t) at64.toNat 64 with
      | (s, .error (c, phys)) => .fault s (fltAt c m at64 phys)
      | (s, .ok d) =>
        if e.toNat % 64 ≠ 0 || !descOk d || !nregsOk (descNregs d) then .fault s (fltAt .engineDescriptor m e 0)
        else if mustDrain s tid then .wait s .drain
        else
          let floor := relFloor s t
          .go (act.foldl (fun s l => placeRecord s t.home t.launch d e floor
            ((List.range 16).map fun j => vget r (a + j) l)) s)

/-! ### Batches (spec/09 R222, R223) -/

/-- BATCH. -/
def execBatch (k d : Nat) (s : State) : Host.Outcome State Fault Refusal :=
  issue (.batch k d) s fun _ t tid s =>
    let n := t.batchNext
    let close (c : Cmd) : Cmd := if c.team = tid && c.batch.isNone then { c with batch := some n } else c
    let s := { s with cmds := s.cmds.map fun e => (e.1, close e.2) }
    let move (m : Tab W64) : Tab W64 := smSet 0 (smSet 0 m n (smGet 0 m 0)) 0 0
    let s := modTeam s tid fun t => { t with batchNext := n + 1, batchBounds := move t.batchBounds }
    .go (writeRegs s tid [.s d (BitVec.ofNat 64 n)])

/-- The floor a WAITB of batch `m` raises: the stamp bounds of the batches it covers (spec/15 R315). -/
def batchFloor (t : Team) (m : Nat) : W64 :=
  t.batchBounds.foldl (fun f e => if 1 ≤ e.1 ∧ e.1 ≤ m then maxW f e.2 else f) 0

/-- WAITB. -/
def execWaitb (k a : Nat) (s : State) : Host.Outcome State Fault Refusal :=
  issue (.waitb k a) s fun r t tid s =>
    let m := min (sget r a).toNat (t.batchNext - 1)
    if m ≤ batchDone s tid t then .go (modTeam s tid fun t => raiseFloor t (batchFloor t m))
    else .wait s (.waitb m)

/-- WAITB_COMPLETE. -/
def execWaitbComplete (core slot : Nat) (s : State) : Host.Outcome State Fault Refusal :=
  .next <| match teamAt s core slot with
  | none => s
  | some (tid, t) =>
    match t.wait with
    | .waitb m =>
      if running t && decide (m ≤ batchDone s tid t) then
        finish (completeBlocking (modTeam s tid fun t => raiseFloor t (batchFloor t m)) tid)
      else s
    | _ => s

/-! ### Chunk bitmaps (spec/09 R224) -/

/-- The checks of a chunk-bitmap address and the fill of its chunk, where the writes on their way are performed (spec/19 R374): its crew and
offset, or the fault in the lanes of a mask (spec/09 R224, spec/13 R273, spec/25 R452). -/
def bitmapAt (s : State) (t : Team) (tid : Nat) (a : W64) : State × Except Flt (Nat × Nat) :=
  match aperture s t a 8 with
  | some (.part cid off) =>
    match checkLane s t tid ⟨false, none, 8, false, false⟩ 0 a 8 with
    | (s, .error e) => (s, .error (fltAt e.code t.live e.addr e.phys))
    | (s, .ok ps) =>
      match fillPieces s ps with
      | (s, some e) => (s, .error (fltAt .dataUncorrectable t.live e.1 e.2))
      | (s, none) =>
        let s := settlePart (arrivePart s cid off 8) cid off 8
        if poisoned s (sectorOf (partKey cid off)) then
          (s, .error (fltAt .dataUncorrectable t.live a (partKey cid off)))
        else (s, .ok (cid, off))
  | _ => (s, .error (fltAt .apertureBounds t.live a 0))

/-- The bound recorded with a bitmap word (spec/15 R315). -/
def wordBound (s : State) (cid off : Nat) : W64 :=
  match tbGet s.crews cid with
  | none => 0
  | some c => smGet 0 c.bounds off

/-- The floor a successful CWAIT or CTEST raises: the word's bound, its floor tag, the stamp of the tracked version it read in a stash chunk
(spec/15 R315, spec/19 R387, R388). -/
def wordFloor (s : State) (cid off : Nat) : W64 :=
  maxW (wordBound s cid off) (maxW (tagRead s (partKey cid off) 8) (partStamp s cid off 8))

/-- The acquire side of a successful CWAIT or CTEST at an address: at cluster scope where it lies in the cluster window. -/
def bitmapAcquire (s : State) (tid : Nat) (t : Team) (a : W64) (cid off : Nat) : State :=
  let s := modTeam s tid fun t => raiseFloor t (wordFloor s cid off)
  if scratchBase ≤ a.toNat then s else dropL1 s t.home t.ctx

/-- What a CTEST that fails has read: as after a relaxed load the floor covers the version's stamp, and the word's tag counts for a later acquire
(spec/19 R387, R388). -/
def bitmapSeen (s : State) (tid cid off : Nat) : State :=
  modTeam s tid fun t => { raiseFloor t (partStamp s cid off 8) with tagSeen := maxW t.tagSeen (tagRead s (partKey cid off) 8) }

/-- Whether the word has every bit of the chunk-mask. -/
def bitsFound (s : State) (cid off : Nat) (m : W64) : Bool :=
  decide (BitVec.ofNat 64 (leNat (memRead s (partKey cid off) 8)) &&& m = m)

/-- The watchpoints a read of a bitmap word hits (spec/23 R448). -/
def bitmapWatch (s : State) (t : Team) (a : W64) (cid off : Nat) : List (Nat × W64 × Nat) :=
  watchLanes s t false [(0, a, [⟨a.toNat, 8, partKey cid off, .part cid off, none⟩])]

/-- Read a bitmap word: an act that ends the instruction where it faults or hits a watchpoint, or its crew and offset. -/
def bitmapRead (s : State) (t : Team) (tid : Nat) (a : W64) : State × Except Act (Nat × Nat) :=
  match bitmapAt s t tid a with
  | (s, .error f) => (s, .error (.fault s f))
  | (s, .ok (cid, off)) =>
    match watchAct s tid (some t.live) (bitmapWatch s t a cid off) with
    | some x => (s, .error x)
    | none => (s, .ok (cid, off))

/-- Whether a CWAIT on a word that arrived before `arrival` finds its bits and has not completed: waiters are served in the order of their
arrival (spec/03 R101, spec/09 R196). -/
def cwaitAhead (s : State) (cid off arrival : Nat) : Bool :=
  s.teams.any fun e => match e.2.wait with
    | .cwait a m n => decide (n < arrival) && running e.2 && !e.2.halted &&
        decide (aperture s e.2 a 8 = some (.part cid off)) && bitsFound s cid off m
    | _ => false

/-- CWAIT. -/
def execCwait (k a b : Nat) (s : State) : Host.Outcome State Fault Refusal :=
  issue (.cwait k a b) s fun r t tid s =>
    let addr := sget r a
    let m := sget r b
    match bitmapRead s t tid addr with
    | (_, .error x) => x
    | (s, .ok (cid, off)) =>
      if bitsFound s cid off m && !cwaitAhead s cid off s.nextId then .go (bitmapAcquire s tid t addr cid off)
      else .wait { s with nextId := s.nextId + 1 } (.cwait addr m s.nextId)

/-- CTEST. -/
def execCtest (k d a b : Nat) (s : State) : Host.Outcome State Fault Refusal :=
  issue (.ctest k d a b) s fun r t tid s =>
    match bitmapRead s t tid (sget r a) with
    | (_, .error x) => x
    | (s, .ok (cid, off)) =>
      if bitsFound s cid off (sget r b) then .go (writeRegs (bitmapAcquire s tid t (sget r a) cid off) tid [.c d true])
      else .go (writeRegs (bitmapSeen s tid cid off) tid [.c d false])

/-- CWAIT_COMPLETE; a word that can no longer be read is a fault of the waiting CWAIT. -/
def execCwaitComplete (core slot : Nat) (s : State) : Host.Outcome State Fault Refusal :=
  .next <| match teamAt s core slot with
  | none => s
  | some (tid, t) =>
    match t.wait with
    | .cwait a m n =>
      if running t && !t.halted then
        match bitmapRead s t tid a with
        | (s1, .ok (cid, off)) =>
          if bitsFound s1 cid off m && !cwaitAhead s1 cid off n then
            finish (completeBlocking (bitmapAcquire s1 tid t a cid off) tid)
          else s
        | (s1, .error x) => applyAct s1 tid 1 t x
      else s
    | _ => s

end Sys2Proof.Machine
end

