-- ==== Sys2Proof/Machine/Complete.lean ====
section
/-! DEFINITION. The completion of a team's long-latency operations and stores: late faults (spec/25 R486), loads, stores,
atomics and reductions (spec/13 R262-R265, R278, R281), long arithmetic (spec/11 R238), allowance counters (spec/13 R285,
spec/21 R422-R424), history instructions (spec/13 R294), the serialising requests of FENCER (R288). -/

namespace Sys2Proof.Machine

/-! ### What completions share -/

/-- Leave a late fault for the team's next instruction boundary (spec/25 R486). -/
def leaveLate (s : State) (o : Op) : State :=
  match o.late with
  | none => s
  | some l => modTeam s o.team fun t => { t with late := t.late ++ [l] }

/-- Complete an operation: the fills it waited for have arrived; destinations, exceptions, STAMPFLOOR, flags, the team's hold (spec/07 R147, R151). -/
def completeOp (s : State) (id : Nat) (o : Op) : State :=
  let s := settleDest ((o.ext.filterMap (·.fill)).foldl arriveFill s) id o o.dest
  let s := modTeam s o.team fun t => mergeFp t o.ex
  unhold (endOp (leaveLate (raiseBy s o) o) id o) o.team id

/-- Complete operation `id` where it is in flight and `due` says so. -/
def completeIf (s : State) (id : Nat) (due : Op → Bool) : State :=
  match tbGet s.ops id with
  | some o => if due o then completeOp s id o else s
  | none => s

/-- Append an operation's failures to its context's log (spec/17 R361, spec/25 R451). -/
def reportLogs (s : State) (id : Nat) (o : Op) : State :=
  { modOp s id (fun o => { o with logs := [] }) with logq := s.logq ++ o.logs.map fun e => (o.ctx, e) }

/-! ### Late faults (spec/25 R486) -/

/-- Whether a team is at an instruction boundary: nothing issued that holds or blocks it. -/
def atBoundary (t : Team) : Bool :=
  match t.wait with
  | .none | .drain | .arith | .engine _ | .flag _ | .cmds .. | .pages .. => true
  | _ => false

/-- The first issued of two late faults. -/
def earlier (a b : Late) : Late := if b.op < a.op then b else a

/-- The late fault a team takes next: the one issued first, in the handler only one met there. -/
def lateDue (t : Team) : Option Late :=
  if running t && t.parked.isNone && !t.halted && atBoundary t then
    match t.late.filter fun l => !t.priv || l.esc with
    | [] => none
    | l :: ls => some (ls.foldl earlier l)
  else none

/-- The fault a late fault is taken as. -/
def lateFlt (l : Late) : Flt := ⟨l.code, 0, l.mask, l.addrs, 1, l.phys / 64 * 64⟩

/-- The boundary a late fault is taken at: a clause step ends before the handler's first clause, a step of one instruction goes on to the
instruction the team issues next (spec/23 R447). -/
def lateBoundary (s : State) (tid : Nat) : State :=
  modTeam s tid fun t => match t.dbg with
    | .clause => dbgBoundary t
    | _ => t

/-- Take a late fault: one met while the privilege bit was set escalates, also where the team has left its handler since (spec/25 R486, spec/09
R204). -/
def takeLate (s : State) (tid : Nat) (l : Late) : State :=
  if l.esc then park (modTeam s tid fun t => setFaultRegs t (lateFlt l) l.pc true) tid 0
  else enterHandler s tid (lateFlt l) l.pc true

/-- LATE_FAULT_TAKEN. -/
def execLateFaultTaken (core slot : Nat) (s : State) : Host.Outcome State Fault Refusal :=
  .next <| match teamAt s core slot with
  | none => s
  | some (tid, t) =>
    match lateDue t with
    | none => s
    | some l =>
      let s := modTeam s tid fun t => { t with late := t.late.filter (· != l), faultStamp := l.stamp }
      finish (lateBoundary (takeLate s tid l) tid)

/-! ### Completions -/

/-- LOAD_COMPLETION (spec/13 R262, R265). -/
def execLoadCompletion (op : Nat) (s : State) : Host.Outcome State Fault Refusal :=
  .next (completeIf s op fun o => match o.kind with | .load => true | _ => false)

/-- STORE_ACKNOWLEDGEMENT: of a store, or of a reduction whose failures are logged; the failures it carries are logged
(spec/13 R265, spec/25 R451). -/
def execStoreAcknowledgement (op : Nat) (s : State) : Host.Outcome State Fault Refusal :=
  .next <| match tbGet s.ops op with
  | none => s
  | some o =>
    match o.kind with
    | .store => if o.homes = [] then finish (completeOp (reportLogs s op o) op o) else s
    | .reduction => if o.homes = [] ∧ o.logs = [] then completeOp s op o else s
    | _ => s

/-- ATOMIC_COMPLETION (spec/13 R278). -/
def execAtomicCompletion (op : Nat) (s : State) : Host.Outcome State Fault Refusal :=
  .next (completeIf s op fun o => match o.kind with | .atomic => decide (o.homes = []) | _ => false)

/-- REDUCTION_FAULT_LOGGED (spec/13 R281). -/
def execReductionFaultLogged (op : Nat) (s : State) : Host.Outcome State Fault Refusal :=
  .next <| match tbGet s.ops op with
  | none => s
  | some o =>
    match o.kind with
    | .reduction => if o.logs = [] then s else finish (reportLogs s op o)
    | _ => s

/-- LONG_ARITHMETIC_COMPLETION (spec/11 R238). -/
def execLongArithmeticCompletion (op : Nat) (s : State) : Host.Outcome State Fault Refusal :=
  .next (completeIf s op fun o => match o.kind with | .arith => true | _ => false)

/-- ALLOWANCE_COMPLETION (spec/13 R284); a queued ALDEC.wait that was served completes while its team is resident, or at its
restore (spec/03 R96). -/
def execAllowanceCompletion (op : Nat) (s : State) : Host.Outcome State Fault Refusal :=
  .next (completeIf s op fun o => match o.kind with
    | .allowance => true
    | .aldecWait _ _ _ _ _ _ served => served &&
        (match s.team o.team with | some t => running t | none => true)
    | _ => false)

/-- HISTORY_COMPLETION (spec/13 R294). -/
def execHistoryCompletion (op : Nat) (s : State) : Host.Outcome State Fault Refusal :=
  .next (completeIf s op fun o => match o.kind with | .history _ => true | _ => false)

/-! ### Allowance counters -/

/-- Note that a queued ALDEC.wait was served: its condition flag has its value, and an acquire takes the floor (spec/19 R381, R387). -/
def serveOp (fl : W64) (o : Op) : Op :=
  match o.kind with
  | .aldecWait a c n d acq wide _ =>
    { o with kind := .aldecWait a c n d acq wide true, dest := ⟨[], [], [(d, true)]⟩,
             floor := if acq then maxW o.floor fl else o.floor }
  | _ => o

/-- The acquire side of a served ALDEC.wait of a wide scope: its core's L1 lines of the context go (spec/13 R264, spec/19 R371). -/
def serveL1 (s : State) (op : Nat) : State :=
  match tbGet s.ops op with
  | some o =>
    match o.kind with
    | .aldecWait _ _ _ _ true true _ => dropL1 s (match s.team o.team with | some t => t.home | none => o.core) o.ctx
    | _ => s
  | none => s

/-- ALDEC_WAIT_SERVED: the head waiter, with V at least its count (spec/13 R285, spec/21 R422). -/
def execAldecWaitServed (counter : Nat) (s : State) : Host.Outcome State Fault Refusal :=
  .next <| match tbGet s.counters counter with
  | none => s
  | some c =>
    match c.queue with
    | [] => s
    | w :: ws =>
      if w.n ≤ counterValue c then
        let s := if c.shares = [] then s else recallShares s counter
        let fl := match tbGet s.counters counter with | some c => c.floor | none => 0
        let s := modCounter s counter fun c => { c with reserve := c.reserve - w.n, queue := ws }
        finish (modOp (serveL1 s w.op) w.op (serveOp fl))
      else s

/-- SHARE_EVICTION: of a core's entry, or with a number that is no core's, of the home's own state, which writes RESERVE; V does not change
(spec/21 R423, R424). -/
def execShareEviction (counter core : Nat) (s : State) : Host.Outcome State Fault Refusal :=
  .next <|
    if core < 256 then
      match (tbGet s.counters counter).bind fun c => tbGet c.shares core with
      | none => s
      | some _ => finish (atLimit (returnShare s counter core) counter)
    else
      match tbGet s.counters counter with
      | none => s
      | some c => finish (writeDesc s counter true c)

/-! ### FENCER -/

/-- What the last answer of a FENCER leaves: its own core's lines filled since are dropped, and STAMPFLOOR, which the team's later writes carry,
rises to the floors of the FENCEOs it is ordered after (spec/19 R380, R388; notes/assumptions/46.md). -/
def fencerDone (s : State) (o : Op) (fl : W64) : State :=
  modTeam (dropL1 s o.core o.ctx) o.team fun t => raiseFloor t fl

/-- SERIALISING_REQUEST: the core drops the context's L1 lines and answers once the stores it had issued are acknowledged; the last
answer completes the FENCER (spec/13 R288). -/
def execSerialisingRequest (core op : Nat) (s : State) : Host.Outcome State Fault Refusal :=
  .next <| match tbGet s.ops op with
  | none => s
  | some o =>
    match o.kind with
    | .fencer cs fl =>
      match cs.find? fun c => c.1 == core with
      | none => s
      | some (_, ids) =>
        if ids.any fun i => (tbGet s.ops i).isSome then s
        else
          let left := cs.filter fun c => c.1 != core
          let fl := maxW fl (smGet 0 (s.core core).ofloors o.ctx)
          let s := modOp (dropL1 s core o.ctx) op fun o => { o with kind := .fencer left fl }
          if left = [] then completeOp (fencerDone s o fl) op o else s
    | _ => s

end Sys2Proof.Machine
end

