-- ==== Sys2Proof/Machine/Place.lean ====
section
/-! DEFINITION. Placement and pre-emption: rows, slots and partitions (spec/03 R45, R80-R84), target quads (spec/23 R436), the
dispatcher (R438), spawned teams (spec/03 R76-R79), saves and restores (spec/23 R441, spec/03 R89-R98). -/

namespace Sys2Proof.Machine

/-! ### What a core holds -/

/-- Register-file rows of a team (spec/03 R44). -/
def rowsOf (nregs lanes : Nat) : Nat := nregs * lanes / 32

/-- The teams resident on a core. -/
def coreTeams (s : State) (core : Nat) : List (Nat × Team) :=
  s.teams.filter fun e => match e.2.place with | some p => p.1 == core | none => false

/-- Rows of a list of teams. -/
def rowSum (ts : List (Nat × Team)) : Nat := ts.foldl (fun n e => n + rowsOf e.2.nregs e.2.lanes) 0

/-- Free team slots of a core. -/
def freeSlots (s : State) (core : Nat) : List Nat := (List.range 32).filter fun i => (teamAt s core i).isNone

/-- Bytes of the partitions of the resident and retained crews of a core, without those `skip` selects (spec/03 R82, R98). -/
def partUsed (s : State) (core : Nat) (skip : Nat → Crew → Bool) : Nat :=
  s.crews.foldl (fun n e => if e.2.core = core ∧ e.2.residency ≠ .spilled ∧ !skip e.1 e.2 then n + e.2.partSize else n) 0

/-- Whether a crew keeps its core at a carve other than `carve`: a resident one that declares another, a retained one whose partition lies
on it (spec/03 R80, R98). Whether a retained crew with a partition of size 0 holds its carve is not stated: it holds none, a design choice
(notes/assumptions/43.md). -/
def keepsCarve (carve : Nat) (c : Crew) : Bool :=
  match c.residency with
  | .resident => c.carve.isSome && decide (c.carve ≠ some carve)
  | .retained => decide (0 < c.partSize) && decide (c.carve ≠ some carve)
  | .spilled | .freed => false

/-- Whether a core may take a crew of a carve; a spawned team's crew declares none (spec/03 R80). -/
def carveOk (s : State) (core : Nat) (carve : Option Nat) (skip : Nat → Crew → Bool) : Bool :=
  match carve with
  | none => true
  | some x => (s.core core).carve == x || !s.crews.any fun e => e.2.core == core && keepsCarve x e.2 && !skip e.1 e.2

/-- Whether a core reports ready (spec/01 R21). -/
def coreReady (s : State) (core : Nat) : Bool := s.readyCore.getLsbD core

/-- The cores of a quad (spec/01 R13). -/
def quadCores (q : Nat) : List Nat := (List.range 4).map fun i => 4 * q + i

/-! ### What a cluster needs -/

/-- What a crew asks of its core: rows, team slots, partition, carve. -/
structure Need where
  rows : Nat
  slots : Nat
  part : Nat
  carve : Option Nat
  deriving DecidableEq, Repr

/-- What the crews of a launch's next cluster ask. -/
def launchNeeds (l : Launch) : List Need :=
  List.replicate l.crews
    ⟨l.teams.foldl (fun n x => n + rowsOf x.nregs x.lanes) 0, l.teams.length, l.part, some l.carve⟩

/-- What a spawned team asks (spec/03 R78). -/
def binNeed (b : Bin) : Need := ⟨rowsOf b.nregs 32, 1, 0, none⟩

/-- The crews of a saved cluster that have teams to be restored. -/
def liveCrews (s : State) (k : Cluster) : List Nat := k.crews.filter fun c => !(crewTeams s c).isEmpty

/-- What a saved crew asks: room for the teams it has left, and for its partition. -/
def crewNeed (s : State) (cid : Nat) : Need :=
  ⟨rowSum (crewTeams s cid), (crewTeams s cid).length, partSizeOf s cid,
    match tbGet s.crews cid with | some c => c.carve | none => none⟩

/-- What the crews of a saved cluster ask. -/
def savedNeeds (s : State) (k : Cluster) : List Need := (liveCrews s k).map (crewNeed s)

/-- Whether a core's rows and slots take one crew beside those of its residents that `keep` selects (spec/03 R45). -/
def rowsFit (s : State) (n : Need) (keep : Team → Bool) (core : Nat) : Bool :=
  let ts := (coreTeams s core).filter fun e => keep e.2
  decide (rowSum ts + n.rows ≤ 8192) && decide (ts.length + n.slots ≤ 32)

/-- Whether a core's carve takes a crew's partition beside those of the crews that `skip` does not select (spec/03 R82). -/
def partFits (s : State) (n : Need) (skip : Nat → Crew → Bool) (core : Nat) : Bool :=
  n.part == 0 || decide (partUsed s core skip + n.part ≤ carveBytes (n.carve.getD 0))

/-- Whether a core fits one crew, as if the crews that `skip` selects did not hold their partitions there. -/
def coreFits (s : State) (n : Need) (skip : Nat → Crew → Bool) (core : Nat) : Bool :=
  coreReady s core && carveOk s core n.carve skip && partFits s n skip core && rowsFit s n (fun _ => true) core

/-- No crew. -/
def skipNone : Nat → Crew → Bool := fun _ _ => false

/-- The crews of a cluster: what they hold is no bar to the cluster's own placement. -/
def skipOwn (k : Cluster) : Nat → Crew → Bool := fun i _ => k.crews.contains i

/-- Whether a quad is reserved for another launch's cluster (spec/23 R436). -/
def reservedElsewhere (s : State) (lid q : Nat) : Bool := s.launches.any fun e => e.1 != lid && decide (e.2.reserved = some q)

/-- The ways to take one of each list, no two the same. -/
def distinct : List (List Nat) → List (List Nat)
  | [] => [[]]
  | cs :: rest => cs.flatMap fun c => ((distinct rest).filter fun r => !r.contains c).map (c :: ·)

/-- The ways to put crews on distinct cores of a quad that each fit, as the quad stands (spec/23 R438). -/
def fitPlaces (s : State) (ns : List Need) (skip : Nat → Crew → Bool) (q : Nat) : List (List Nat) :=
  distinct (ns.map fun n => (quadCores q).filter (coreFits s n skip))

/-- Whether a quad is free enough for a cluster (spec/23 R438). -/
def quadFits (s : State) (lid : Nat) (ns : List Need) (skip : Nat → Crew → Bool) (q : Nat) : Bool :=
  !reservedElsewhere s lid q && !(fitPlaces s ns skip q).isEmpty

/-- A free choice of the ways to put a cluster on a quad. -/
def pickPlace (s : State) (l : List (List Nat)) : List Nat := l.getD ((Config.freeWord s.free 16).toNat % max 1 l.length) []

/-! ### Save areas (spec/23 R430, R431; notes/assumptions/27.md) -/

/-- Bytes a full save of a team takes in the save area. -/
def fullSave (t : Team) : Nat := 4 * t.nregs * t.lanes + 16384

/-- Bytes a save of a cluster takes: full saves of its teams, and the spill of its partitions. -/
def saveNeed (s : State) (k : Cluster) : Nat :=
  (clusterTeams s k).foldl (fun n e => n + fullSave e.2) 0 + k.crews.foldl (fun n c => n + partSizeOf s c) 0

/-- Whether some team of a cluster has been asked to save, is saved or is being restored. -/
def saveBegun (s : State) (k : Cluster) : Bool := (clusterTeams s k).any fun e => decide (e.2.pre ≠ .run)

/-- Whether a cluster's pre-emption was decided, so that its room in the save area is taken (spec/23 R431, R441). -/
def saveDue (s : State) (k : Cluster) : Bool := k.asked || saveBegun s k

/-- The context of a launch. -/
def launchCtx (s : State) (lid : Nat) : Nat := match tbGet s.launches lid with | some l => l.ctx | none => 0

/-- Whether the save areas have room for clusters together with those whose saves are decided: each context's for its own (spec/23
R431). -/
def saveRoomAll (s : State) (ks : List Cluster) : Bool :=
  ks.all fun k =>
    let ctx := launchCtx s k.launch
    let sum (l : List Cluster) : Nat := l.foldl (fun n e => if launchCtx s e.launch = ctx then n + saveNeed s e else n) 0
    match tbGet s.contexts ctx with
    | none => false
    | some c => decide (sum ((s.clusters.map (·.2)).filter (saveDue s)) + sum ks ≤ c.savelen)

/-- Whether a context's save area has room for a cluster. -/
def saveRoom (s : State) (k : Cluster) : Bool := saveRoomAll s [k]

/-! ### Classes and target quads (spec/23 R435, R436) -/

/-- The service class of a launch: 0 IMMEDIATE to 3 BULK. -/
def launchClass (s : State) (lid : Nat) : Nat :=
  match tbGet s.launches lid with | some l => (s.queue l.queue).cls | none => 3

/-- The clusters with a crew resident on a quad. -/
def quadClusters (s : State) (q : Nat) : List (Nat × Cluster) :=
  s.clusters.filter fun e => e.2.crews.any fun c => (crewTeams s c).any fun t =>
    match t.2.place with | some p => p.1 / 4 == q | none => false

/-- The clusters a cluster of class `c` would pre-empt on a quad. -/
def victims (s : State) (c q : Nat) : List (Nat × Cluster) := (quadClusters s q).filter fun e => decide (c < launchClass s e.2.launch)

/-- What R436 asks of a quad as a whole: its cores ready, none reserved for another cluster, room for the saves of every victim. -/
def targetWhole (s : State) (lid c q : Nat) : Bool :=
  (quadCores q).all (coreReady s) && !reservedElsewhere s lid q &&
    saveRoomAll s (((victims s c q).filter fun e => !saveDue s e.2).map (·.2))

/-- The rows and slots of a core for a crew beside residents of class `c` or higher. -/
def targetRows (s : State) (c : Nat) (n : Need) (core : Nat) : Bool := rowsFit s n (fun t => decide (launchClass s t.launch ≤ c)) core

/-- What R436 asks of a core: its carve is the one asked for or it holds no partition, and the partition, rows and slots fit. -/
def targetCore (s : State) (c : Nat) (n : Need) (skip : Nat → Crew → Bool) (core : Nat) : Bool :=
  (decide (n.carve = none) || n.carve == some (s.core core).carve ||
    !s.crews.any fun e => e.2.core == core && decide (e.2.residency ≠ .spilled) && decide (0 < e.2.partSize) && !skip e.1 e.2) &&
    partFits s n skip core && targetRows s c n core

/-- A target quad for a cluster of class `c` (spec/23 R436). -/
def targetQuad (s : State) (lid c : Nat) (ns : List Need) (skip : Nat → Crew → Bool) (q : Nat) : Bool :=
  targetWhole s lid c q && !(distinct (ns.map fun n => (quadCores q).filter (targetCore s c n skip))).isEmpty

/-- The rank of a quad: the highest class it would pre-empt, 4 for none, and the rows it would save (spec/23 R438). -/
def quadRank (s : State) (c q : Nat) : Nat × Nat :=
  (victims s c q).foldl (fun r e => (min r.1 (launchClass s e.2.launch),
    r.2 + rowSum ((clusterTeams s e.2).filter fun t => t.2.place.isSome))) (4, 0)

/-- Whether the first rank is to be preferred: the lower class, then the fewer rows. -/
def rankBetter (a b : Nat × Nat) : Bool := decide (b.1 < a.1) || (a.1 == b.1 && decide (a.2 < b.2))

/-- Of some quads the one of best rank, then of the lowest number. -/
def bestOf (s : State) (c : Nat) (qs : List Nat) : Option Nat :=
  qs.foldl (fun m q => match m with
    | none => some q
    | some b => if rankBetter (quadRank s c q) (quadRank s c b) then some q else some b) none

/-- The target quads for a cluster. -/
def targetQuads (s : State) (lid c : Nat) (ns : List Need) (skip : Nat → Crew → Bool) : List Nat :=
  (List.range 64).filter (targetQuad s lid c ns skip)

/-- The target quad the dispatcher takes to pre-empt on: the best rank, then the lowest number (spec/23 R438). -/
def bestTarget (s : State) (lid c : Nat) (ns : List Need) (skip : Nat → Crew → Bool) : Option Nat :=
  bestOf s c (targetQuads s lid c ns skip)

/-- The target quad an admission reserves: one that is free enough as it stands, else the one to pre-empt on (spec/23 R436, R438). -/
def freeTarget (s : State) (lid c : Nat) (ns : List Need) (skip : Nat → Crew → Bool) : Option Nat :=
  match bestOf s c ((targetQuads s lid c ns skip).filter (quadFits s lid ns skip)) with
  | some q => some q
  | none => bestTarget s lid c ns skip

/-! ### Placing teams -/

/-- A team as it becomes resident (spec/03 R46, R49). -/
def newTeam (core slot launch ctx crew : Nat) (x : Shape) (floor : W64) (stackz : Nat) (hwin : Bool) : Team :=
  { place := some (core, slot), home := core, launch := launch, ctx := ctx, crew := crew, spawned := false,
    nregs := x.nregs, lanes := x.lanes, teamid := 0, crewid := 0, cx := 0, cy := 0, cz := 0, stage := x.stage,
    role := x.role, entry := x.entry, hwin := hwin, stackz := stackz, stk := 0, sptoff := x.sptoff, live := laneMask x.lanes, v := [], s := [],
    k := [], c := 0, f := [], q := [], pc := x.entry, clause := none, floor := floor, tagSeen := 0, fpmode := 0,
    fpflags := 0, batchNext := 1, batchBounds := [], priv := false, shadow := 0, faultcode := 0, faultpc := 0,
    faultmask := 0, faultaddr := [], resumepc := 0, resumeHdr := 0, faultLate := false, faultAtHeader := false,
    faultWords := 0, faultPhys := 0, faultStamp := none, late := [], wait := .none, parked := none, logHalt := false, halted := false,
    dbg := .none, w := 0, notNext := false, pre := .run, reqCycle := 0, slot := slot, parkCmd := 0, saveAt := [] }

/-- A ring of a crew before its first issue (spec/03 R70). -/
def newRing (d : QDecl) : Ring := ⟨d.depth, d.producer, d.consumer, d.off, 0, 0, [], [], []⟩

/-- A barrier before its first arrival. -/
def newBarrier : Barrier := ⟨0, [], 0⟩

/-- Apply the carve a crew declares to a core; a change drops its L1 (spec/03 R80, R81). -/
def setCarve (s : State) (core : Nat) (carve : Option Nat) : State :=
  match carve with
  | none => s
  | some x => if (s.core core).carve = x then s else modCore s core fun c => { c with carve := x, l1 := [] }

/-- The stacks that can hold a stack block: those that are ready (spec/17 R337, notes/assumptions/42.md). -/
def stackPlaces (s : State) : List Nat := (List.range 12).filter (stackReady s)

/-- Whether a team's stack block can be allotted. -/
def stackFits (s : State) (z : Nat) : Bool := z == 0 || !(stackPlaces s).isEmpty

/-- The stack a new team's block lies on, a free choice. -/
def stackPick (s : State) (tid z : Nat) : Nat := if z = 0 then 0 else (pickOne s (2 ^ 72 + tid) (stackPlaces s)).getD 0

/-- The writes of a crew's ring slots (spec/03 R70, R84). -/
def initRings (s : State) (cid : Nat) (ds : List QDecl) : State :=
  ds.foldl (fun s d => (List.range d.depth).foldl (fun s i =>
    memWrite s (partKey cid (d.off + 8 * i)) (leBytes 8 (2 ^ 32))) s) s

/-- The start floor of a launch's teams (spec/21 R393). -/
def startFloor (s : State) (l : Launch) : W64 := l.sl.getD (s.queue l.queue).floor

/-- Place the teams of one crew on its core. -/
def placeTeams (lid : Nat) (l : Launch) (cid core idx order : Nat) (floor : W64) (slots : List Nat) (s : State) : State :=
  (l.teams.zip slots).zipIdx.foldl (fun s ((x, slot), i) =>
    let t := newTeam core slot lid l.ctx cid x floor l.stackz l.hwin
    let t := { t with teamid := i, crewid := idx, cx := order % l.gx, cy := order / l.gx % l.gy,
                      cz := order / l.gx / l.gy, stk := stackPick s s.nextId l.stackz }
    { setTeam s s.nextId t with nextId := s.nextId + 1 }) s

/-- Place one crew of a cluster. Its teams begin after the write of the previous launch's STATUS, at .sys scope (spec/23 R434). -/
def placeCrew (lid : Nat) (l : Launch) (kid order idx core : Nat) (s : State) : State :=
  let cid := s.nextId
  let c : Crew := { launch := lid, ctx := l.ctx, cluster := kid, index := idx, core := core, partSize := l.part,
                    carve := some l.carve, residency := .resident,
                    rings := l.rings.foldl (fun m d => tbSet m d.num (newRing d)) [], bar := newBarrier, windows := [],
                    spilledWindows := [], bounds := [], saveAt := [] }
  let s := setCarve { s with crews := tbSet s.crews cid c, nextId := cid + 1 } core (some l.carve)
  let s := { s with clusters := tbMod s.clusters kid fun k => { k with crews := k.crews ++ [cid] } }
  dropL1 (placeTeams lid l cid core idx order (startFloor s l)
    (pickMany s (64 + 32 * idx) l.teams.length (freeSlots s core)) (initRings s cid l.rings)) core l.ctx

/-- Place the cluster at a place of a launch's grid on cores, whole (spec/03 R57, R58). -/
def placeNew (s : State) (lid : Nat) (l : Launch) (order : Nat) (cores : List Nat) : State :=
  let kid := s.nextId
  let k : Cluster := ⟨lid, order, [], .placed, false, newBarrier⟩
  let s := { s with clusters := tbSet s.clusters kid k, nextId := kid + 1 }
  let s := cores.zipIdx.foldl (fun s (core, i) => placeCrew lid l kid order i core s) s
  modLaunch s lid fun l => { l with placed := l.placed ++ [order], reserved := none }

/-- A place of the grid not yet placed: from a free one, the next that is left. -/
def nextOrder (s : State) (l : Launch) : Nat :=
  let n := gridSize l
  let start := if n = 1 then 0 else (Config.freeWord s.free 1).toNat % n
  (((List.range (l.placed.length + 1)).map fun i => (start + i) % n).find? fun x => !l.placed.contains x).getD start

/-- The start of a protected launch: the sweep, and the reserved pin held at S_L (spec/21 R416). -/
def protStart (s : State) (lid : Nat) (l : Launch) : State :=
  if l.prot && l.sl.isNone then
    let (s, st) := sweep s (s.queue l.queue).floor
    { modLaunch s lid (fun l => { l with sl := some st }) with lpins := s.lpins ++ [⟨l.pin, st, lid, s.boundary⟩] }
  else s

/-- The quads that a cluster may be placed on as they stand: the one reserved for its launch where that is free enough, else any that is
(spec/23 R436, R438). -/
def fitQuads (s : State) (lid : Nat) (ns : List Need) (skip : Nat → Crew → Bool) (reserved : Option Nat) : List Nat :=
  let all := (List.range 64).filter (quadFits s lid ns skip)
  match reserved with
  | some r => if all.contains r then [r] else all
  | none => all

/-- Whether a launch may place a cluster: some are left, its queue neither suspended nor torn down, no error to consume, its teams' stack
blocks can be allotted. -/
def mayPlace (s : State) (l : Launch) : Bool :=
  decide (l.placed.length < gridSize l) && l.doneCode.isNone && l.dying.isNone && !l.restoring &&
    !(s.queue l.queue).susp && stackFits s l.stackz

/-! ### Restoring a saved cluster (spec/03 R95, R97, R99) -/

/-- Whether the partition of every crew to be restored is still on its core. One of size 0 counts as being there, so that its cluster returns to
its own cores: no rule says so, a design choice (spec/03 R98, R99; notes/assumptions/43.md). -/
def allRetained (s : State) (k : Cluster) : Bool :=
  (liveCrews s k).all fun c => match tbGet s.crews c with | some w => decide (w.residency ≠ .spilled) | none => true

/-- What a crew asks of its own core, where its partition lies already. -/
def homeNeed (s : State) (cid : Nat) : Need := { crewNeed s cid with part := 0 }

/-- Whether the original cores of a cluster take its crews back (spec/03 R99). -/
def homesFit (s : State) (k : Cluster) : Bool :=
  (liveCrews s k).all fun c => match tbGet s.crews c with
    | some w => coreReady s w.core && carveOk s w.core w.carve (fun i _ => i == c) &&
        rowsFit s (homeNeed s c) (fun _ => true) w.core && !reservedElsewhere s k.launch (w.core / 4)
    | none => true

/-- The quad a cluster whose partitions are retained returns to. -/
def homeQuad (s : State) (k : Cluster) : Option Nat :=
  (liveCrews s k).findSome? fun c => (tbGet s.crews c).map fun w => w.core / 4

/-- The home quad of such a cluster, where it is a target quad for it (spec/23 R436, R438). -/
def homeTarget (s : State) (c : Nat) (k : Cluster) : Option Nat :=
  match homeQuad s k with
  | none => none
  | some q =>
    if targetWhole s k.launch c q && (liveCrews s k).all fun x => (match tbGet s.crews x with
        | some w => targetCore s c (homeNeed s x) (fun i _ => i == x) w.core
        | none => true) then some q
    else none

/-- Move the waiting places of teams from one core's matrix queue to another's, in their order. -/
def moveMxQueue (s : State) (src dst : Nat) (tids : List Nat) : State :=
  if src = dst then s
  else
    let a := s.core src
    let q := a.mxQueue.filter tids.contains
    let o := a.mxOver.filter tids.contains
    let s := modCore s src fun c => { c with mxQueue := c.mxQueue.filter (!tids.contains ·),
                                             mxOver := c.mxOver.filter (!tids.contains ·) }
    modCore (modCore s src refillMx) dst fun c => { c with mxQueue := c.mxQueue ++ q, mxOver := c.mxOver ++ o }

/-- Give a crew's saved teams their places on a core. -/
def restoreCrew (s : State) (cid core idx : Nat) : State :=
  match tbGet s.crews cid with
  | none => s
  | some c =>
    let ts := (crewTeams s cid).map (·.1)
    let s := moveMxQueue (setCarve s core c.carve) c.core core ts
    let s := modCrew s cid fun c => { c with core := core, residency := .resident }
    (ts.zip (pickMany s (64 + 32 * idx) ts.length (freeSlots s core))).foldl (fun s (tid, slot) =>
      modTeam s tid fun t => { t with place := some (core, slot), home := core, slot := slot, pre := .restore }) s

/-- Begin the restore of a cluster, its crews that have teams on the cores given. -/
def restoreOn (s : State) (kid : Nat) (k : Cluster) (cores : List Nat) : State :=
  let s := ((liveCrews s k).zip cores).zipIdx.foldl (fun s ((c, core), i) => restoreCrew s c core i) s
  let s := { s with clusters := tbMod s.clusters kid fun k => { k with state := .restoring, asked := false } }
  modLaunch s k.launch fun l => { l with reserved := none }

/-- Whether a saved cluster can be restored as the quads stand: on its own cores while its partitions are there, else on any quad
(spec/03 R99). -/
def savedFits (s : State) (k : Cluster) (reserved : Option Nat) : Bool :=
  if allRetained s k then homesFit s k else !(fitQuads s k.launch (savedNeeds s k) (skipOwn k) reserved).isEmpty

/-- The quad a saved cluster may pre-empt on. -/
def savedTarget (s : State) (k : Cluster) : Option Nat :=
  let c := launchClass s k.launch
  if allRetained s k then homeTarget s c k else bestTarget s k.launch c (savedNeeds s k) (skipOwn k)

/-! ### Reservations (spec/23 R435, R436, R438, R441) -/

/-- Whether a launched bin's team may be placed: its queue not suspended, no error to consume, its stack block can be allotted. -/
def binMay (s : State) (b : Bin) : Bool :=
  match tbGet s.launches b.launch with
  | some l => !(s.queue l.queue).susp && l.dying.isNone && l.doneCode.isNone && stackFits s l.stackz
  | none => false

/-- Whether a launched bin's team has its rows and slot on the core. -/
def binFits (s : State) (core : Nat) (b : Bin) : Bool :=
  binMay s b && coreReady s core && !reservedElsewhere s b.launch (core / 4) && rowsFit s (binNeed b) (fun _ => true) core

/-- Whether the quad of a core is a target quad for a launched bin's team: as for a cluster of one crew under the class of its launch's queue
(spec/03 R79, spec/23 R436). -/
def binCould (s : State) (core : Nat) (b : Bin) : Bool :=
  let c := launchClass s b.launch
  binMay s b && targetWhole s b.launch c (core / 4) && targetRows s c (binNeed b) core

/-- Whether something that waits of a launch, a cluster, a saved cluster or a spawned team, fits the quad reserved for it as that stands, or
the quad is still a target quad for it. -/
def reservationGood (s : State) (lid : Nat) (l : Launch) (q : Nat) : Bool :=
  let c := launchClass s lid
  let ns := launchNeeds l
  (decide (l.placed.length < gridSize l) && (quadFits s lid ns skipNone q || targetQuad s lid c ns skipNone q)) ||
    (s.clusters.any fun e => e.2.launch == lid && decide (e.2.state = .saved) &&
      (if allRetained s e.2 then homeQuad s e.2 == some q && (homesFit s e.2 || (homeTarget s c e.2).isSome)
       else quadFits s lid (savedNeeds s e.2) (skipOwn e.2) q || targetQuad s lid c (savedNeeds s e.2) (skipOwn e.2) q)) ||
    (quadCores q).any fun core => (s.core core).launched.any fun b => b.launch == lid && (binFits s core b || binCould s core b)

/-- The quad reserved for a launch, while that serves it; one that no longer does is given up for another. -/
def liveReservation (s : State) (lid : Nat) (l : Launch) : Option Nat := l.reserved.filter (reservationGood s lid l)

/-- Ask for the pre-emption of every cluster of a class lower than `c` that has a crew on a quad (spec/23 R441). -/
def askVictims (s : State) (c q : Nat) : State :=
  let vs := (victims s c q).map (·.1)
  { s with clusters := s.clusters.map fun e => if vs.contains e.1 then (e.1, { e.2 with asked := true }) else e }

/-- Whether some cluster that a cluster of class `c` would pre-empt on a quad has not been asked to leave. -/
def unasked (s : State) (c q : Nat) : Bool := (victims s c q).any fun e => !e.2.asked

/-- The quad on which something that waits would pre-empt: the one reserved for its launch while that is a target quad for it, else the best
(spec/23 R436, R438). -/
def heldTarget (reserved : Option Nat) (isTarget : Nat → Bool) (best : Option Nat) : Option Nat :=
  match reserved with
  | some q => if isTarget q then some q else none
  | none => best

/-- The target quad of a launch's next cluster. -/
def newTarget (s : State) (lid : Nat) (l : Launch) : Option Nat :=
  let c := launchClass s lid
  heldTarget (liveReservation s lid l) (targetQuad s lid c (launchNeeds l) skipNone) (bestTarget s lid c (launchNeeds l) skipNone)

/-- The target quad of a saved cluster of a launch. -/
def savedWant (s : State) (k : Cluster) (l : Launch) : Option Nat :=
  let c := launchClass s k.launch
  heldTarget (liveReservation s k.launch l)
    (fun q => if allRetained s k then homeTarget s c k == some q else targetQuad s k.launch c (savedNeeds s k) (skipOwn k) q) (savedTarget s k)

/-- Whether pre-empting for a launch would do something: a quad is to be reserved, or given up, or the one reserved at admission, where its first
cluster then fitted another quad, still has clusters to ask (spec/23 R435, R436, R438). -/
def mayReserve (s : State) (lid c : Nat) (l : Launch) (target : Option Nat) : Bool :=
  decide (c ≤ 1) && (match liveReservation s lid l with
    | none => l.reserved.isSome || target.isSome
    | some q => target == some q && unasked s c q)

/-- Reserve a target quad for a launch that may pre-empt, and pre-empt there (spec/23 R435, R438, R441). -/
def reserveTarget (s : State) (lid c : Nat) (target : Option Nat) : State :=
  match tbGet s.launches lid with
  | none => s
  | some l =>
    if mayReserve s lid c l target then
      let s := modLaunch s lid fun l => { l with reserved := target }
      match target with
      | some q => askVictims s c q
      | none => s
    else s

/-- Place the next cluster of a launch, or reserve a quad to pre-empt on. -/
def placeNext (s : State) (lid : Nat) (l : Launch) : State :=
  let ns := launchNeeds l
  match pickOne s 2 (fitQuads s lid ns skipNone (liveReservation s lid l)) with
  | some q =>
    let s := protStart s lid l
    match tbGet s.launches lid with
    | some l => placeNew s lid l (nextOrder s l) (pickPlace s (fitPlaces s ns skipNone q))
    | none => s
  | none => reserveTarget s lid (launchClass s lid) (newTarget s lid l)

/-- Restore a saved cluster, or reserve a quad to pre-empt on. -/
def placeSaved (s : State) (kid : Nat) (k : Cluster) (l : Launch) : State :=
  let ns := savedNeeds s k
  let r := liveReservation s k.launch l
  if savedFits s k r then
    restoreOn s kid k (if allRetained s k then (liveCrews s k).filterMap fun c => (tbGet s.crews c).map (·.core)
      else match pickOne s 2 (fitQuads s k.launch ns (skipOwn k) r) with
        | some q => pickPlace s (fitPlaces s ns (skipOwn k) q)
        | none => [])
  else reserveTarget s k.launch (launchClass s k.launch) (savedWant s k l)

/-- CLUSTER_PLACEMENT: of a saved cluster, or of the next cluster of a launch, named by its id. The CP places and pre-empts, and so nothing is
placed while it is not ready (spec/23 R438, R441; spec/01 R20; notes/assumptions/44.md). -/
def execClusterPlacement (cluster : Nat) (s : State) : Host.Outcome State Fault Refusal :=
  .next <| if !cpReady s then s else match tbGet s.clusters cluster with
  | some k =>
    match tbGet s.launches k.launch with
    | some l => if decide (k.state = .saved) && !(s.queue l.queue).susp && l.dying.isNone then placeSaved s cluster k l
                else s
    | none => s
  | none =>
    match tbGet s.launches cluster with
    | some l => if mayPlace s l then finish (placeNext s cluster l) else s
    | none => s

/-! ### Spawned teams (spec/03 R77-R79, spec/09 R221) -/

/-- The first `n` records of a bin as vector registers: record word j in vj, below N (spec/03 R78). -/
def binRegs (b : Bin) (nregs : Nat) : Tab W32 :=
  b.records.zipIdx.foldl (fun m (r, l) => (List.range (min 16 nregs)).foldl (fun m j =>
    smSet 0 m (vkey j l) (r.getD j 0)) m) []

/-- SPAWN_BIN_TIMER: T cycles after the first record (spec/03 R77). -/
def execSpawnBinTimer (core bin : Nat) (s : State) : Host.Outcome State Fault Refusal :=
  .next <| match tbGet (s.core core).bins bin with
  | none => s
  | some b =>
    match tbGet s.launches b.launch with
    | some l => if b.born + l.spawnT ≤ s.cycle then launchBin s core bin else s
    | none => s

/-- Whether a spawned team that does not fit may pre-empt on its core's quad. -/
def binTarget (s : State) (core : Nat) (b : Bin) : Bool :=
  decide (launchClass s b.launch ≤ 1) && binCould s core b &&
    (match tbGet s.launches b.launch with | some l => (liveReservation s b.launch l).isNone | none => false)

/-- The first of a core's launched bins of the highest class among those `p` selects. -/
def firstBin (s : State) (core : Nat) (p : Bin → Bool) : Option Bin :=
  ((s.core core).launched.filter p).foldl (fun m b => match m with
    | none => some b
    | some a => if launchClass s b.launch < launchClass s a.launch then some b else some a) none

/-- The launched bin a core places next: the highest class, then the first launched. -/
def nextBin (s : State) (core : Nat) : Option Bin := firstBin s core (binFits s core)

/-- The launched bin a core may reserve its quad for. -/
def wantBin (s : State) (core : Nat) : Option Bin := firstBin s core (binTarget s core)

/-- Place a bin's team: a cluster and crew of one, with no partition and no rings (spec/03 R78, R79). Which carve such a crew has is not
stated: it declares none, and keeps no core at its carve, a design choice (spec/03 R80; notes/assumptions/43.md). -/
def placeBin (s : State) (core : Nat) (b : Bin) (l : Launch) : State :=
  let kid := s.nextId
  let k : Cluster := ⟨b.launch, 0, [kid + 1], .placed, false, newBarrier⟩
  let c : Crew := { launch := b.launch, ctx := l.ctx, cluster := kid, index := 0, core := core, partSize := 0,
                    carve := none, residency := .resident, rings := [], bar := newBarrier, windows := [],
                    spilledWindows := [], bounds := [], saveAt := [] }
  let slot := (pickOne s 64 (freeSlots s core)).getD 0
  let t := newTeam core slot b.launch l.ctx (kid + 1) ⟨b.entry, b.sptoff, 0, roleGeneral, b.nregs, 32⟩ b.floor l.stackz
    (l.hwin && decide (32 ≤ b.nregs))
  let t := { t with spawned := true, live := laneMask b.records.length, v := binRegs b b.nregs,
                    stk := stackPick s (kid + 2) l.stackz }
  let s := modCore s core fun c => { c with launched := c.launched.erase b }
  let s := modLaunch s b.launch fun l => { l with reserved := if l.reserved = some (core / 4) then none else l.reserved }
  dropL1 { s with clusters := tbSet s.clusters kid k, crews := tbSet s.crews (kid + 1) c,
                  teams := tbSet s.teams (kid + 2) t, nextId := kid + 3 } core l.ctx

/-- SPAWNED_TEAM_PLACEMENT; where none fits, the quad is reserved for one that may pre-empt there (spec/03 R79, spec/23 R438). A spawned team is
placed as a cluster of one crew, and so by the CP, once that is ready (spec/01 R20; notes/assumptions/44.md). -/
def execSpawnedTeamPlacement (core : Nat) (s : State) : Host.Outcome State Fault Refusal :=
  .next <| if !cpReady s then s else match nextBin s core with
  | none =>
    match wantBin s core with
    | some b => reserveTarget s b.launch (launchClass s b.launch) (some (core / 4))
    | none => s
  | some b =>
    match tbGet s.launches b.launch with
    | some l => placeBin s core b l
    | none => s

/-! ### Pre-emption (spec/23 R441, spec/03 R92) -/

/-- Blocked in a blocking instruction (spec/09 R196). -/
def blockedWait (t : Team) : Bool :=
  match t.wait with
  | .push .. | .pop .. | .bar _ | .mxacq | .waitb _ | .cwait .. => true
  | _ => false

/-- Blocked in the wait form of ALDEC: at a clause entry for a flag that a queued waiter counts (spec/03 R96). -/
def aldecBlocked (s : State) (tid : Nat) (t : Team) : Bool :=
  match t.clause with
  | none => false
  | some c => c.waiting && anyOp s tid fun o => match o.kind with
      | .aldecWait .. => o.flags.any fun f => c.h.wait.getLsbD f
      | _ => false

/-- Halted by the debugger or with its context (spec/23 R447, spec/25 R459). -/
def isHalted (s : State) (t : Team) : Bool :=
  t.halted || (match tbGet s.contexts t.ctx with | some c => c.halted.isSome | none => false)

/-- A team back at the header it waits at. -/
def toHeader (t : Team) : Team :=
  match t.clause with
  | some c => if c.waiting then { t with pc := c.addr, clause := none } else t
  | none => t

/-- Whether a team waits at the entry of a clause that is a safe point. -/
def atSafeHeader (t : Team) : Bool := match t.clause with | some c => c.waiting && c.h.safe.isSome | none => false

/-- The state a team of a requested cluster takes. -/
def requestTeam (s : State) (tid : Nat) (t : Team) : Team :=
  if decide (t.pre = .run) || decide (t.pre = .drain) then
    if blockedWait t || isHalted s t || t.parked.isSome || aldecBlocked s tid t then
      { toHeader t with pre := .quiesce true }
    else if atSafeHeader t then { toHeader t with pre := .quiesce false }
    else if t.pre = .run then { t with pre := .drain, reqCycle := s.cycle }
    else t
  else t

/-- Whether a cluster of a suspended launch that was not yet asked for is the next to be pre-empted: of those with room, in ascending order
(spec/23 R431). -/
def suspNext (s : State) (k : Cluster) : Bool :=
  (match tbGet s.launches k.launch with | some l => (s.queue l.queue).susp | none => false) && saveRoom s k &&
    !s.clusters.any fun e => e.2.launch == k.launch && decide (e.2.order < k.order) && decide (e.2.state = .placed) &&
      !saveDue s e.2 && saveRoom s e.2

/-- Ask for the pre-emption of the running clusters of a queue's launch that have room, in ascending order: what a write of SUSP from 0 to 1
does, whatever SUSP reads later (spec/23 R431, R441, R444). -/
def askSuspended (s : State) (q : Nat) : State :=
  let mine := s.clusters.filter fun e => decide (e.2.state ≠ .saved) &&
    (match tbGet s.launches e.2.launch with | some l => l.queue == q | none => false)
  (List.range (mine.foldl (fun n e => max n (e.2.order + 1)) 0)).foldl (fun s i =>
    (mine.filter fun e => e.2.order == i).foldl (fun s e =>
      if saveDue s e.2 || saveRoom s e.2 then
        { s with clusters := tbMod s.clusters e.1 fun k => { k with asked := true } }
      else s) s) s

/-- Whether a cluster's pre-emption is to be carried on or begun: its saves have begun, it was asked for, or room has been freed for it
(spec/23 R431, R441). -/
def preemptWanted (s : State) (k : Cluster) : Bool := saveDue s k || suspNext s k

/-- PREEMPTION_REQUEST; it reaches a draining team again once that is blocked or halted. -/
def execPreemptionRequest (cluster : Nat) (s : State) : Host.Outcome State Fault Refusal :=
  .next <| match tbGet s.clusters cluster with
  | none => s
  | some k =>
    if decide (k.state = .placed) && preemptWanted s k then
      (clusterTeams s k).foldl (fun s e => setTeam s e.1 (requestTeam s e.1 e.2)) s
    else s

/-- PREEMPTION_DEADLINE: 40,000 cycles after the request, at an instruction boundary. -/
def execPreemptionDeadline (core slot : Nat) (s : State) : Host.Outcome State Fault Refusal :=
  .next <| match teamAt s core slot with
  | none => s
  | some (tid, t) =>
    if decide (t.pre = .drain) && decide (t.reqCycle + 40000 ≤ s.cycle) then
      modTeam s tid fun t => { toHeader t with pre := .quiesce true }
    else s

/-- The counts of the flags that queued waiters hold. -/
def waiterFlags (s : State) (tid f : Nat) : Nat :=
  (opsOf s tid).foldl (fun n e => match e.2.kind with | .aldecWait .. => n + e.2.flags.count f | _ => n) 0

/-- Whether a quiescing team may be saved: its quantising commands have completed, their writes performed (spec/03 R93, R96; spec/05
R127). -/
def mayStream (s : State) (tid : Nat) (t : Team) : Bool :=
  (opsOf s tid).all (fun e => match e.2.kind with | .aldecWait .. => true | _ => false) &&
    ((List.range 12).all fun f => fget t f == waiterFlags s tid f) &&
    !(s.cmds.any fun e => e.2.team == tid && isQuant e.2)

/-- A run of live registers: file, first register, count. -/
abbrev Run := Nat × Nat × Nat

/-- The run words of an entry of the safe-point table, from `va`; none where they cannot be read or break R89
(spec/03 R89, R90). -/
def readRuns (ctx hub : Nat) : Nat → Nat → State → State × Option (List Run)
  | 0, _, s => (s, none)
  | fuel + 1, va, s =>
    match readVirt s ctx hub va 4 with
    | (s, .error _) => (s, none)
    | (s, .ok bs) =>
      let w := leNat bs
      let r : Run := (bitsOf w 29 2, bitsOf w 18 11, bitsOf w 7 11 + 1)
      if bitsOf w 0 7 ≠ 0 then (s, none)
      else if bitsOf w 31 1 = 1 then (s, some [r])
      else match readRuns ctx hub fuel (va + 4) s with
        | (s, some rs) => (s, some (r :: rs))
        | (s, none) => (s, none)

/-- The live registers at a team's safe point, by the table its kernel descriptor named when it was read; none makes the save a full one
(spec/03 R88, R90). -/
def safeRuns (s : State) (t : Team) : State × Option (List Run) :=
  let hub := teamHub t
  match fetchWord s t t.pc with
  | (s, .error _) => (s, none)
  | (s, .ok w) =>
    match decodeHeader w with
    | .error _ => (s, none)
    | .ok h =>
      match h.safe with
      | none => (s, none)
      | some i =>
        let table := t.entry.toNat + t.sptoff
        if t.sptoff = 0 then (s, none)
        else
          match readVirt s t.ctx hub (table + 4 * i) 4 with
          | (s, .error _) => (s, none)
          | (s, .ok o) => if leNat o = 0 then (s, none) else readRuns t.ctx hub (globEnd / 4) (table + leNat o) s

/-- Whether runs name register `n` of a file. -/
def named (rs : List Run) (file n : Nat) : Bool := rs.any fun r => r.1 == file && decide (r.2.1 ≤ n ∧ n < r.2.1 + r.2.2)

/-- The team with only the named registers kept: the others read as zero after resumption (spec/03 R90). -/
def keepLive (rs : List Run) (t : Team) : Team :=
  { t with v := t.v.filter fun e => named rs 0 (e.1 / 1024), s := t.s.filter fun e => named rs 1 e.1,
           k := t.k.filter fun e => named rs 2 e.1, q := t.q.filter fun e => named rs 3 (e.1 / 48) }

/-- TEAM_SAVE: the save begins once what R93 names is complete. -/
def execTeamSave (core slot : Nat) (s : State) : Host.Outcome State Fault Refusal :=
  .next <| match teamAt s core slot with
  | none => s
  | some (tid, t) =>
    match t.pre with
    | .quiesce full =>
      if mayStream s tid t then
        if full then modTeam s tid fun t => { t with pre := .save true }
        else
          match safeRuns s t with
          | (s, some rs) => finish (modTeam s tid fun t => { keepLive rs t with pre := .save false })
          | (s, none) => finish (modTeam s tid fun t => { t with pre := .save true })
      else s
    | _ => s

/-- Pass on the matrix engine of a saved owner, which keeps the head of the waiting queue (spec/03 R95). -/
def passMx (s : State) (tid core : Nat) : State :=
  modCore s core fun c =>
    let c := match c.latch with | some h => if h.team = tid then { c with latch := none } else c | none => c
    if c.mxOwner = some tid then { c with mxOwner := none, mxQueue := tid :: c.mxQueue } else c

/-- The units of 1 KiB of a context's save area that saves and spills take. -/
def unitsUsed (s : State) (ctx : Nat) : List Nat :=
  (s.teams.filter fun e => e.2.ctx == ctx).flatMap (·.2.saveAt) ++ (s.crews.filter fun e => e.2.ctx == ctx).flatMap (·.2.saveAt)

/-- The first `n` units from `u` that are not used; `fuel` bounds the units looked at. -/
def freeUnits (used : List Nat) : Nat → Nat → Nat → List Nat
  | 0, _, _ => []
  | fuel + 1, u, n =>
    if n = 0 then []
    else if u ∈ used then freeUnits used fuel (u + 1) n
    else u :: freeUnits used fuel (u + 1) (n - 1)

/-- The units a save or spill of `n` bytes takes. -/
def takeUnits (s : State) (ctx n : Nat) : List Nat :=
  freeUnits (unitsUsed s ctx) ((unitsUsed s ctx).length + n / 1024) 0 (n / 1024)

/-- The physical address of a unit. -/
def unitPa (s : State) (ctx u : Nat) : Nat := (match tbGet s.contexts ctx with | some c => c.savebase | none => 0) + 1024 * u

/-- Write units of a save area: the layout is the device's own, and the bytes are free values (spec/23 R430). -/
def writeUnits (s : State) (ctx : Nat) (us : List Nat) : State :=
  us.foldl (fun s u =>
    let pa := unitPa s ctx u
    (devicePut s pa ((List.range 1024).map fun i => (Config.freeWord s.free (2 ^ 73 + pa + i)).setWidth 8)).getD s) s

/-- Read units of a save area: the key of the first sector that cannot be read (spec/25 R452, R457). -/
def readUnits (ctx : Nat) : List Nat → State → State × Option Nat
  | [], s => (s, none)
  | u :: us, s =>
    match readPa s (unitPa s ctx u) 1024 0 with
    | (s, some _) => readUnits ctx us s
    | (s, none) =>
      let bad := (spans (unitPa s ctx u) 1024 18).filterMap fun x => (keyOfPa s x.1).filter fun k => readFails s (sectorOf k)
      (s, some (bad.headD 0))

/-- SAVE_STREAM_DONE: rows and slot freed; the crew is retained with its last team, the cluster saved with its last crew. -/
def execSaveStreamDone (core slot : Nat) (s : State) : Host.Outcome State Fault Refusal :=
  .next <| match teamAt s core slot with
  | none => s
  | some (tid, t) =>
    match t.pre with
    | .save _ =>
      let us := takeUnits s t.ctx (fullSave t)
      let s := writeUnits s t.ctx us
      let s := passMx (modTeam s tid fun t => { t with pre := .saved, place := none, saveAt := us }) tid core
      finish (leaveCrew s t.crew (match tbGet s.crews t.crew with | some c => c.cluster | none => 0))
    | _ => s

/-- Serve PARKCMD operations that waited for the restore; 4 is the resumption of the team whose fence raised a reduction-log halt
(spec/25 R459, R462). -/
def parkPending (s : State) (tid : Nat) : State :=
  match s.team tid with
  | none => s
  | some t =>
    let s := modTeam s tid fun t => { t with parkCmd := 0 }
    if t.parkCmd = 1 then leaveHandler s tid false
    else if t.parkCmd = 2 then leaveHandler s tid true
    else if t.parkCmd = 3 then killTeam s tid
    else if t.parkCmd = 4 then modTeam (leaveHandler s tid false) tid fun t => { t with logHalt := true }
    else s

/-- Complete the waiters of a team that were served while it was saved (spec/03 R96). -/
def servedWaiters (s : State) (tid : Nat) : State :=
  (opsOf s tid).foldl (fun s e => match e.2.kind with
    | .aldecWait _ _ _ _ _ _ true => completeOp s e.1 e.2
    | _ => s) s

/-- A former owner of the matrix engine is at the head of its core's queue (spec/03 R95). -/
def headMx (s : State) (tid : Nat) : State :=
  match s.team tid with
  | none => s
  | some t =>
    modCore s t.home fun c =>
      if c.mxQueue.contains tid && decide (t.wait ≠ .mxacq) then { c with mxQueue := tid :: c.mxQueue.filter (· != tid) }
      else c

/-- Take a team whose blocking instruction is not entered again out of its waiting queues. -/
def unblock (s : State) (tid : Nat) (t : Team) : State :=
  let s := modCrew s t.crew fun c => { c with rings := c.rings.map fun e =>
    (e.1, { e.2 with pushers := e.2.pushers.filter (· != tid), poppers := e.2.poppers.filter (· != tid) }) }
  let s := if t.wait = .mxacq then
      modCore s t.home fun c => refillMx { c with mxQueue := c.mxQueue.filter (· != tid), mxOver := c.mxOver.filter (· != tid) }
    else s
  modTeam s tid fun t => { t with wait := .none }

/-- A team that was saved inside a clause: the clause's header is read again, and may fault or end the clause (spec/07 R145). -/
def reenter (s : State) (tid : Nat) : State :=
  match s.team tid with
  | none => s
  | some t =>
    match (if t.parked.isSome then none else t.clause) with
    | none => s
    | some c =>
      let s := resumeInside s tid c.addr t.pc false
      if (match s.team tid with | some u => u.clause.isSome && u.parked.isNone | none => false) then s else unblock s tid t

/-- Resume one restored team. -/
def resumeTeam (s : State) (e : Nat × Team) : State :=
  let s := dropL1 s e.2.home e.2.ctx
  let s := modTeam s e.1 fun t => { t with pre := .run, saveAt := [] }
  parkPending (headMx (servedWaiters (reenter s e.1) e.1) e.1) e.1

/-- Register the stash windows of a refilled partition again (spec/03 R97). -/
def refillCrew (s : State) (cid : Nat) : State :=
  modCrew s cid fun w => { w with saveAt := [], windows := w.windows ++ w.spilledWindows, spilledWindows := [] }

/-- The record of a sector of the save area that cannot be read at a restore: structure 10 of R452 (spec/25 R466). -/
def saveAreaRec (s : State) (t : Team) (key : Nat) : ErrRec :=
  ⟨0x04, 2, 0x10, 2, if isHbm key then homeOf s key else 0, recAddr s key / 64 * 64, teamOwner s t, 10, 0⟩

/-- Read back the saves of a cluster's teams and the spills of its crews: a sector that cannot be read is consumed by the launch (spec/25
R452, R457). -/
def readSaves (s : State) (k : Cluster) : State :=
  match clusterTeams s k with
  | [] => s
  | (_, t) :: _ =>
    let us := (clusterTeams s k).flatMap (·.2.saveAt) ++ k.crews.flatMap fun c =>
      match tbGet s.crews c with | some w => w.saveAt | none => []
    let s' := k.crews.foldl refillCrew s
    match readUnits t.ctx us s' with
    | (s, none) => s
    | (s, some key) => modLaunch s k.launch fun l => if l.dying.isSome then l else { l with dying := some (saveAreaRec s t key) }

/-- CLUSTER_RESTORE_DONE. -/
def execClusterRestoreDone (cluster : Nat) (s : State) : Host.Outcome State Fault Refusal :=
  .next <| match tbGet s.clusters cluster with
  | none => s
  | some k =>
    if k.state = .restoring then
      let s := readSaves { s with clusters := tbMod s.clusters cluster fun k => { k with state := .placed } } k
      finish ((clusterTeams s k).foldl resumeTeam s)
    else s

/-! ### Partitions -/

/-- PARTITION_RELEASE (spec/03 R86). -/
def execPartitionRelease (crew : Nat) (s : State) : Host.Outcome State Fault Refusal :=
  .next (if crewDone s crew then finish (freeCrew s crew) else s)

/-- Whether a crew is saved with its partition on its core and no command writes into it any more. Whether it may be spilled while a sibling crew
still drains, and reaches it through the cluster window, is not stated (spec/03 R97): it may, and the sibling meets plain bytes where stash
windows were, a design choice (notes/assumptions/43.md). -/
def spillable (s : State) (cid : Nat) (c : Crew) : Bool :=
  decide (c.residency = .retained) && !(crewTeams s cid).isEmpty && decide (0 < c.partSize) &&
    !cmdsTouch s cid 0 (2 ^ 20) false

/-- Whether a waiting cluster that fits no quad can pre-empt on a target quad. -/
def mayPreempt (s : State) (lid : Nat) (ns : List Need) (skip : Nat → Crew → Bool) : Bool :=
  decide (launchClass s lid ≤ 1) && !(targetQuads s lid (launchClass s lid) ns skip).isEmpty

/-- Whether a waiting cluster that fits no quad needs the space of a partition on a core: it would fit the core's quad but for the partitions
that can be spilled there, with a crew on this core, which the core does not fit as it stands (spec/03 R97). One that pre-empts on a target
quad needs no spill (spec/23 R443). -/
def wantsSpace (s : State) (lid : Nat) (ns : List Need) (skip : Nat → Crew → Bool) (core : Nat) : Bool :=
  (fitQuads s lid ns skip none).isEmpty && !mayPreempt s lid ns skip && !reservedElsewhere s lid (core / 4) &&
    ((fitPlaces s ns (fun i c => skip i c || spillable s i c) (core / 4)).any fun p =>
      (p.zip ns).any fun x => x.1 == core && !coreFits s x.2 skip core)

/-- Whether a waiting cluster needs the space of a partition on a core (spec/03 R97). -/
def spillNeeded (s : State) (own core : Nat) : Bool :=
  (s.launches.any fun e => mayPlace s e.2 &&
    wantsSpace s e.1 (launchNeeds e.2) skipNone core) ||
    (s.clusters.any fun e => e.1 != own && decide (e.2.state = .saved) && !allRetained s e.2 &&
      (match tbGet s.launches e.2.launch with
       | some l => !(s.queue l.queue).susp &&
           wantsSpace s e.2.launch (savedNeeds s e.2) (skipOwn e.2) core
       | none => false))

/-- PARTITION_SPILL: the stash windows are written back and unregistered; the partition's bytes go to the save area, and with the crew
(spec/03 R97, spec/23 R430). R97 waits for the commands that write the partition only: what a command that still reads it reads after the spill
is not stated, and is the bytes as they were, a design choice (notes/assumptions/43.md). -/
def execPartitionSpill (crew : Nat) (s : State) : Host.Outcome State Fault Refusal :=
  .next <| match tbGet s.crews crew with
  | none => s
  | some c =>
    if spillable s crew c && spillNeeded s c.cluster c.core then
      let us := takeUnits s c.ctx c.partSize
      let s := writeUnits (cleanChunks s crew 0 fun _ _ => true) c.ctx us
      finish (modCrew s crew fun c =>
        { c with residency := .spilled, saveAt := us, windows := [],
                 spilledWindows := c.windows.map fun w => { w with chunks := [] } })
    else s

end Sys2Proof.Machine
end

