-- ==== Sys2Proof/Machine/Queue.lean ====
section
/-! DEFINITION. Hardware queues, contexts and launches (spec/23 R426-R434), consumption, rollback and teardown (spec/25
R457-R460, spec/21 R416-R419). -/

namespace Sys2Proof.Machine

/-! ### Status words (spec/23 R434) -/

/-- Record i of a queue's ring, BASE + 512·(i mod 2^LOG2N) as its last accepted enable found them (spec/23 R428). -/
def recordPa (s : State) (q i : Nat) : Nat := (s.queue q).ring + 512 * (i % 2 ^ (s.queue q).ringLog)

/-- The STATUS word of an outcome. -/
def statusWord (code detail : Nat) : Nat := 2 ^ 63 + code * 2 ^ 48 + detail % 2 ^ 48

/-- Write the STATUS of the record at a physical address; a write that cannot be made is lost (spec/23 R428). -/
def putStatus (s : State) (pa code detail : Nat) : State :=
  (devicePut s pa (leBytes 8 (statusWord code detail))).getD s

/-- Write a record's STATUS and advance HEAD past it (spec/23 R428). -/
def completeRecord (s : State) (q code detail : Nat) : State :=
  modQueue (putStatus s (recordPa s q (s.queue q).head) code detail) q fun r => { r with head := (r.head + 1) % 65536 }

/-- Complete a launch's record: at HEAD, or where its queue was enabled again since, in the ring it came from, with that ring's later
records (spec/23 R432, R434). -/
def completeLaunch (s : State) (l : Launch) (code detail : Nat) : State :=
  if l.detached then l.trail.foldl (fun s x => putStatus s x.1 x.2 0) (putStatus s l.status code detail)
  else completeRecord s l.queue code detail

/-- Set TORN of a queue and signal the host (spec/25 R458, spec/27 R475). -/
def setTorn (s : State) (q : Nat) : State := signal (modQueue s q fun r => { r with torn := true }) 3

/-- The QUEUE_TORN record: why, and the fault code (spec/25 R466). -/
def tornRec (s : State) (q why code owner : Nat) : State :=
  pushErr s ⟨0x0D, 3, code, 3, 0, 0, if owner = 0 then q * 256 + 32768 else owner, why, 0⟩

/-! ### Launch records (spec/23 R433) -/

/-- A number of `n` bytes at an offset of a record. -/
def recNum (d : List Byte) (off n : Nat) : Nat := leNat ((d.drop off).take n)

/-- Whether bytes of a record are zero. -/
def recZero (d : List Byte) (off n : Nat) : Bool := ((d.drop off).take n).all (· == 0)

/-- The ring declaration n of a record, where V is set. -/
def recRing (d : List Byte) (n : Nat) : Option QDecl :=
  let w := recNum d (128 + 8 * n) 8
  if bitsOf w 63 1 = 1 then some ⟨n, bitsOf w 48 6 + 1, bitsOf w 45 3, bitsOf w 42 3, bitsOf w 0 32⟩ else none

/-- The rings declared below number `n`. -/
def recRings (d : List Byte) (n : Nat) : List QDecl := (List.range n).filterMap (recRing d)

/-- The shape of team i of a record. -/
def recTeam (d : List Byte) (i : Nat) : Shape :=
  let w := recNum d (256 + 16 * i + 8) 8
  ⟨BitVec.ofNat 64 (recNum d (256 + 16 * i) 8), 0, bitsOf w 20 3, bitsOf w 17 3, 8 * bitsOf w 8 9, 32 * (bitsOf w 0 5 + 1)⟩

/-- Whether two rings share bytes. -/
def ringsMeet (a b : QDecl) : Bool := decide (a.off < b.off + 8 * b.depth ∧ b.off < a.off + 8 * a.depth)

/-- Whether declaration n is legal (spec/03 R69). -/
def ringOk (d : List Byte) (n : Nat) : Bool :=
  let w := recNum d (128 + 8 * n) 8
  match recRing d n with
  | none => w == 0
  | some r => bitsOf w 54 9 == 0 && bitsOf w 32 10 == 0 && r.off % 8 == 0 &&
      decide (r.off + 8 * r.depth ≤ recNum d 16 4) && !(recRings d n).any (ringsMeet r)

/-- Rows of the first `n` teams of a record. -/
def recRows (d : List Byte) (n : Nat) : Nat :=
  (List.range n).foldl (fun a i => a + rowsOf (recTeam d i).nregs (recTeam d i).lanes) 0

/-- The SHAPE of team i is legal: reserved bits, role, N, the handler window, and the rows of the crew up to it
(spec/03 R44, R45, R61; spec/17 R355). -/
def shapeOk (d : List Byte) (i : Nat) : Bool :=
  let w := recNum d (256 + 16 * i + 8) 8
  let x := recTeam d i
  bitsOf w 23 41 == 0 && bitsOf w 5 3 == 0 && decide (x.role ≤ 4) && nregsOk x.nregs &&
    (bitsOf (recNum d 21 1) 0 1 == 0 || decide (32 ≤ x.nregs)) && decide (recRows d (i + 1) ≤ 8192)

/-- The checks of a record's fields before its TEAM entries, by offset (spec/23 R433). -/
def headChecks (d : List Byte) : List (Nat × Bool) :=
  let n (off k : Nat) : Nat := recNum d off k
  let zk := n 24 2
  [(8, n 8 2 != 0), (10, n 10 2 != 0), (12, n 12 2 != 0), (14, n 14 1 == 1 || n 14 1 == 2 || n 14 1 == 4),
   (15, decide (1 ≤ n 15 1 ∧ n 15 1 ≤ 16)), (16, n 16 4 % 4096 == 0 && decide (n 16 4 ≤ carveBytes (min (n 20 1) 3))),
   (20, decide (n 20 1 ≤ 3)), (21, n 21 1 / 32 == 0), (22, n 22 2 == 0 || decide (16 ≤ n 22 2 ∧ n 22 2 ≤ 1024)),
   (24, zk == 0 || (zk % 4 == 0 && decide (zk ≤ 64))), (26, recZero d 26 2),
   (28, n 28 4 == 0 || decide (256 ≤ n 28 4 ∧ n 28 4 ≤ 65536)), (32, recZero d 32 96)] ++
    (List.range 16).map fun i => (128 + 8 * i, ringOk d i)

/-- SPTOFF of the kernel descriptor of an entry, where it can be read and is valid (spec/03 R88). The CTU the CP reads through is not stated:
it is that of hub 0, a design choice (notes/assumptions/43.md). -/
def entryOk (s : State) (ctx : Nat) (e : W64) : State × Option Nat :=
  if e.toNat % 64 ≠ 0 then (s, none)
  else
    match readVirt s ctx 0 (e - 64).toNat 64 with
    | (s, .ok k) => (s, if descOk k then some (descSptoff k) else none)
    | (s, .error _) => (s, none)

/-- The SPTOFF of each team of a record, or the offset of the first offending field of its TEAM entries. -/
def teamCheck (d : List Byte) (ctx : Nat) : List Nat → State → State × Except Nat (List Nat)
  | [], s => (s, .ok [])
  | i :: is, s =>
    let at' := 256 + 16 * i
    if recNum d 15 1 ≤ i then
      (if !recZero d at' 8 then (s, .error at') else if !recZero d (at' + 8) 8 then (s, .error (at' + 8))
       else teamCheck d ctx is s)
    else
      match entryOk s ctx (recTeam d i).entry with
      | (s, none) => (s, .error at')
      | (s, some x) =>
        if shapeOk d i then
          match teamCheck d ctx is s with
          | (s, .ok xs) => (s, .ok (x :: xs))
          | r => r
        else (s, .error (at' + 8))

/-- The SPTOFF of each team of a record, or the offset of the first offending field of the record (spec/23 R434). -/
def recordCheck (s : State) (ctx : Nat) (d : List Byte) : State × Except Nat (List Nat) :=
  match (headChecks d).find? fun c => !c.2 with
  | some c => (s, .error c.1)
  | none => teamCheck d ctx (List.range 16) s

/-- A writer tag that no other launch holds (spec/21 R400). -/
def freeTag (s : State) : Nat :=
  let start := (Config.freeWord s.free 3).toNat % 65535
  let used (x : Nat) : Bool := s.launches.any fun e => e.2.tag == x
  (((List.range (s.launches.length + 1)).map fun i => (start + i) % 65535 + 1).find? fun x => !used x).getD (start + 1)

/-- The launch of a record; `spt` holds the SPTOFF of each team's kernel. -/
def launchOf (s : State) (q ctx : Nat) (d : List Byte) (spt : List Nat) : Launch :=
  let n (off k : Nat) : Nat := recNum d off k
  let prot := bitsOf (n 21 1) 1 1 == 1
  { queue := q, index := (s.queue q).head, status := recordPa s q (s.queue q).head, detached := false, trail := [],
    code := s.mem, ctx := ctx, gx := n 8 2, gy := n 10 2, gz := n 12 2, crews := n 14 1,
    teams := (List.range (n 15 1)).map fun i => { recTeam d i with sptoff := spt.getD i 0 }, rings := recRings d 16, part := n 16 4, carve := n 20 1,
    hwin := bitsOf (n 21 1) 0 1 == 1, prot := prot, retry := bitsOf (n 21 1) 2 2, replays := 0,
    age := if n 22 2 = 0 then 64 else n 22 2, stackz := 1024 * n 24 2,
    spawnT := if n 28 4 = 0 then 4096 else n 28 4, tag := freeTag s, floor := 0, sl := none,
    pin := if prot then freePinId s else 0, placed := [], reserved := none, dying := none, restoring := false,
    discarded := 0, doneCode := none, wsectors := [], wblocks := [] }

/-- Admit a record whose fields are legal, or refuse it with code 0x03 or 0x02 (spec/23 R434, R436). -/
def admitRecord (s : State) (q ctx : Nat) (d : List Byte) (spt : List Nat) : State :=
  let l := launchOf s q ctx d spt
  let lid := s.nextId
  if (l.prot && (!leesOn s || decide (256 ≤ pinsHeld s))) || (bitsOf (recNum d 21 1) 4 1 == 1 && !leesOn s) then
    completeRecord s q 0x03 0
  else if (s.queue q).cls = 0 then
    let ns := launchNeeds l
    match freeTarget s lid 0 ns skipNone with
    | some t =>
      let s := { s with launches := tbSet s.launches lid { l with reserved := some t }, nextId := lid + 1 }
      if (fitQuads s lid ns skipNone none).isEmpty then askVictims s 0 t else s
    | none => completeRecord s q 0x02 0
  else { s with launches := tbSet s.launches lid l, nextId := lid + 1 }

/-- Whether a record of a queue is eligible: announced, its predecessor's STATUS in place (spec/23 R434); on a queue torn down and not enabled
since, it is to be completed too (R432). -/
def eligible (s : State) (q : Nat) : Bool :=
  let r := s.queue q
  cpReady s && (r.en || r.torn || r.dead) && r.head != r.tail && !s.launches.any fun e => e.2.queue == q

/-- The code with which the records of a queue that is torn down complete: 0x06 after a context kill (spec/23 R432; spec/25 R458, R460). -/
def deadCode (r : Queue) : Option Nat :=
  if r.killed then some 0x06 else if r.torn || r.dead || !r.en then some 0x05 else none

/-- LAUNCH_ADMISSION (spec/23 R428, R434, spec/25 R458). -/
def execLaunchAdmission (q : Nat) (s : State) : Host.Outcome State Fault Refusal :=
  .next <|
    if !eligible s q then s
    else
      let r := s.queue q
      match deadCode r with
      | some code => finish (completeRecord s q code 0)
      | none =>
        let pa := recordPa s q r.head
        match (if paUsable s pa 512 then readPa s pa 512 0 else (s, none)) with
        | (s, none) => finish (tornRec (completeRecord (setTorn s q) q 0x05 0x10) q 2 0x10 0)
        | (s, some d) =>
          match recordCheck s r.ctxidx d with
          | (s, .error off) => finish (completeRecord s q 0x01 off)
          | (s, .ok spt) => finish (admitRecord s q r.ctxidx d spt)

/-! ### The end of a launch -/

/-- Whether every write of a launch and of its engine agents is acknowledged or stopped. -/
def writesSettled (s : State) (lid : Nat) : Bool :=
  !(s.ops.any fun e => e.2.launch == lid) && !(s.cmds.any fun e => e.2.launch == lid) &&
    !(s.homeq.any fun w => w.launch == lid) && !(s.crews.any fun e => e.2.launch == lid)

/-- Release the pin of a launch and forget it (spec/21 R416, R393). -/
def endLaunch (s : State) (lid : Nat) (l : Launch) : State :=
  let s := { s with lpins := s.lpins.filter fun p => p.launch != lid }
  let s := modQueue s l.queue fun r => { r with floor := maxW r.floor l.floor }
  { s with launches := tbDel s.launches lid }

/-- Whether an enabled queue names a context. -/
def contextUsed (s : State) (ctx : Nat) : Bool := s.queues.any fun e => e.2.en && e.2.ctxidx == ctx

/-- The RECORD of a context that has ended. -/
def endedRecord : Nat := 2 ^ 64

/-- Whether any context exists (spec/23 R429). -/
def anyContext (s : State) : Bool := s.contexts.any fun e => e.2.record != endedRecord

/-- Forget an ended context once no launch of it is left. -/
def forgetContext (s : State) (ctx : Nat) : State :=
  match tbGet s.contexts ctx with
  | none => s
  | some c =>
    if c.record ≠ endedRecord || s.launches.any fun e => e.2.ctx == ctx then s else { s with contexts := tbDel s.contexts ctx }

/-- What the cores and CTUs keep of a context goes with it: L1 lines, translations, the floors of its fences (spec/17 R339, R348). -/
def dropContext (s : State) (ctx : Nat) : State :=
  let s := shootDown s fun e => e.ctx == ctx
  { s with cores := s.cores.foldl (fun m (e : Nat × Core) => smSet Core.zero m e.1
      { e.2 with l1 := e.2.l1.filter fun x => x.ctx != ctx, ofloors := tbDel e.2.ofloors ctx,
                 rfloors := tbDel e.2.rfloors ctx }) s.cores }

/-- Give what is left of an ended context the key `new`, so that its index is free: an index names a context only while that exists
(spec/23 R427, R429). -/
def rekey (s : State) (old new : Nat) : State :=
  let f (c : Nat) : Nat := if c = old then new else c
  { s with contexts := match tbGet s.contexts old with
             | some c => tbSet (tbDel s.contexts old) new c
             | none => s.contexts,
           launches := s.launches.map fun e => (e.1, { e.2 with ctx := f e.2.ctx }),
           ops := s.ops.map fun e => (e.1, { e.2 with ctx := f e.2.ctx }),
           cmds := s.cmds.map fun e => (e.1, { e.2 with ctx := f e.2.ctx }),
           crews := s.crews.map fun e => (e.1, { e.2 with ctx := f e.2.ctx }),
           counters := s.counters.map fun e => (e.1, { e.2 with ctx := f e.2.ctx }),
           groups := s.groups.map fun e => (e.1, { e.2 with members := e.2.members.map fun m => (f m.1, m.2) }),
           homeq := s.homeq.map fun w => { w with log := w.log.map fun x => (f x.1, x.2) },
           logq := s.logq.map fun e => (f e.1, e.2) }

/-- Whether the CP may complete a launch: its last team retired, every write of it acknowledged or stopped, no error to consume. -/
def completable (s : State) (lid : Nat) (l : Launch) : Bool :=
  cpReady s && launchEmpty s lid && writesSettled s lid && l.dying.isNone && !l.restoring

/-- LAUNCH_COMPLETION: by the CP (spec/23 R434, spec/01 R20). -/
def execLaunchCompletion (launch : Nat) (s : State) : Host.Outcome State Fault Refusal :=
  .next <| match tbGet s.launches launch with
  | none => s
  | some l =>
    if completable s launch l then
      let (code, detail) := l.doneCode.getD (0, 0)
      finish (forgetContext (completeLaunch (endLaunch s launch l) l code detail) l.ctx)
    else s

/-! ### Kills (spec/23 R432, spec/25 R457) -/

/-- Discard the bins of a launch on every core, and count their records. -/
def discardBins (s : State) (lid : Nat) : State × Nat :=
  let mine (b : Bin) : Bool := b.launch == lid
  let count (c : Core) : Nat := ((c.bins.filter fun e => mine e.2).map fun e => e.2.records.length).sum +
    ((c.launched.filter mine).map fun b => b.records.length).sum
  ({ s with cores := s.cores.foldl (fun m (e : Nat × Core) => smSet Core.zero m e.1
      { e.2 with bins := e.2.bins.filter (fun x => !mine x.2), launched := e.2.launched.filter (fun x => !mine x) }) s.cores },
   s.cores.foldl (fun n e => n + count e.2) 0)

/-- Kill every team of a launch: resident, saved, parked or halted; its bins are discarded, and what it has queued at counters, a team that
has retired included, goes (spec/25 R457; spec/03 R79, R96). -/
def killLaunch (s : State) (lid : Nat) : State :=
  let (s, n) := discardBins s lid
  let s := dropWaiters (modLaunch s lid fun l => { l with discarded := l.discarded + n, reserved := none }) fun o =>
    o.launch == lid
  dropPins ((s.teams.filter fun e => e.2.launch == lid).foldl (fun s e => killTeam s e.1) s) lid

/-- Complete the running launches of a queue with a code; DETAIL may count the records discarded. A launch killed before keeps its code; a
consumption whose writes were still awaited is recorded (spec/25 R457). -/
def killRunning (s : State) (q : Nat) (code : Nat) (counted : Bool) : State :=
  (s.launches.filter fun e => e.2.queue == q && e.2.doneCode.isNone).foldl (fun s e =>
    let s := match e.2.dying with | some r => if e.2.restoring then pushErr s r else s | none => s
    modLaunch (killLaunch s e.1) e.1 fun l =>
      { l with doneCode := some (code, if counted then l.discarded else 0), dying := none, restoring := false }) s

/-- End a context where no enabled queue names it: its shares return to their homes (spec/21 R424). -/
def endContext (s : State) (ctx : Nat) : State :=
  if contextUsed s ctx then s
  else
    let mine := (s.counters.filter fun e => e.2.ctx == ctx && e.2.shares != []).map (·.1)
    let s := dropContext (modCtx (mine.foldl recallShares s) ctx fun c => { c with record := endedRecord }) ctx
    let new := ctx + 128 * s.nextId
    forgetContext (rekey { s with nextId := s.nextId + 1 } ctx new) new

/-- Tear down a queue as a write of EN to 0 does; `kill` gives the codes of a context kill (spec/23 R432, spec/25 R460). -/
def teardown (s : State) (q : Nat) (kill : Bool) : State :=
  let ctx := (s.queue q).ctxidx
  let s := setTorn (modQueue s q fun r => { r with en := false, dead := true, killed := kill }) q
  let last := kill || !contextUsed s ctx
  endContext (killRunning s q (if last then 0x06 else 0x07) last) ctx

/-! ### QCTL (spec/23 R426, R427) -/

/-- Whether `n` bytes at a physical address lie on untracked device HBM. -/
def untrackedHbm (s : State) (pa n : Nat) : Bool :=
  (match windowOf s pa with | some w => w != 13 | none => false) && inOneWindow s pa n &&
    !(s.tracked.any fun g => decide (g < pa + n ∧ pa < g + 65536))

/-- The context a record of 128 bytes describes, where it keeps R429. -/
def contextOf (s : State) (addr : Nat) (d : List Byte) : Option Context :=
  let pt := recNum d 0 8
  let sb := recNum d 32 8
  let sl := recNum d 40 8
  if recZero d 48 80 && pt % 4096 == 0 && inOneWindow s pt 4096 && sb % 4096 == 0 && decide (2 ^ 29 ≤ sl) &&
      untrackedHbm s sb sl then
    some { record := addr, ptroot := pt, handlerbase := BitVec.ofNat 64 (recNum d 8 8),
           poolcounter := BitVec.ofNat 64 (recNum d 16 8), redlogbase := BitVec.ofNat 64 (recNum d 24 8),
           savebase := sb, savelen := sl, armed := false, halted := none, haltCycle := 0, locked := [] }
  else none

/-- The context an enable names: the existing one of its record, or a new one under a free index (spec/23 R429). -/
def enableContext (s : State) (addr : Nat) : State × Option Nat :=
  match s.contexts.find? fun e => e.2.record == addr with
  | some e => (s, some e.1)
  | none =>
    match readPa s addr 128 0 with
    | (s, none) => (s, none)
    | (s, some d) =>
      match contextOf s addr d, pickOne s 4 ((List.range 128).filter fun i => (tbGet s.contexts i).isNone) with
      | some c, some i => ({ s with contexts := tbSet s.contexts i c }, some i)
      | _, _ => (s, none)

/-- Every stamp 0.0, the writer tags kept. -/
def zeroStamps (m : Tab (W64 × Nat)) : Tab (W64 × Nat) :=
  (m.filter fun e => e.2.2 != 0).map fun e => (e.1, (0, e.2.2))

/-- Complete a rebase that was accepted (spec/21 R395). -/
def rebaseDone (s : State) : State :=
  if s.rebasing then
    { s with clocks := [], sectors := zeroStamps s.sectors, scFloor := 0, lees := [], leesHead := [], press := 0, horizon := 0,
             host := { s.host with floors := [] }, stampLow := false, rbDone := true, rebasing := false,
             cores := s.cores.foldl (fun m (e : Nat × Core) => smSet Core.zero m e.1 { e.2 with hcache := 0 }) s.cores }
  else s

/-- The records announced on a ring and not reached when its queue is enabled again, with the code a teardown gave them. -/
def trailOf (s : State) (q : Nat) (first : Nat) : List (Nat × Nat) :=
  let r := s.queue q
  if !r.dead then []
  else (List.range ((r.tail + 65536 - r.head) % 65536)).filterMap fun i =>
    if first ≤ i then some (recordPa s q (r.head + i), if r.killed then 0x06 else 0x05) else none

/-- Before HEAD and TAIL start anew: a launch killed and not yet settled takes the rest of its ring with it; with none, the records left
complete at once (spec/23 R432). -/
def detach (s : State) (q : Nat) : State :=
  match s.launches.find? fun e => e.2.queue == q with
  | none => (trailOf s q 0).foldl (fun s x => putStatus s x.1 x.2 0) s
  | some e =>
    let more := trailOf s q (if e.2.detached then 0 else 1)
    modLaunch s e.1 fun l => { l with detached := true, trail := l.trail ++ more }

/-- An enable: accepted, or refused with BAD (spec/23 R427). A rebase that was accepted runs while no context exists, and so before the
enable creates one (spec/21 R401). -/
def enableQueue (s : State) (q : Nat) : State :=
  let s := rebaseDone s
  let r := s.queue q
  let bad (s : State) : State := modQueue s q fun r => { r with bad := true }
  let n := 2 ^ (r.log2n + 9)
  if r.log2n < 4 || decide (12 < r.log2n) || r.base % n != 0 || !inOneWindow s r.base n then bad s
  else
    match enableContext s r.ctxAddr with
    | (s, none) => bad s
    | (s, some i) => modQueue (detach s q) q fun r =>
        { r with en := true, head := 0, tail := 0, ctxidx := i, dead := false, killed := false, ring := r.base, ringLog := r.log2n }

/-- A write of QCTL: the W1C bits, then CLASS and LOG2N where EN reads 0, SUSP, and what the change of EN does. -/
def writeQctl (s : State) (q : Nat) (v : W64) : State :=
  let r := s.queue q
  let x := v.toNat
  let suspends := !r.susp && bitsOf x 62 1 == 1
  let s := modQueue s q fun r =>
    { r with susp := bitsOf x 62 1 == 1, torn := r.torn && bitsOf x 61 1 == 0, bad := r.bad && bitsOf x 60 1 == 0,
             cls := if r.en then r.cls else bitsOf x 8 2, log2n := if r.en then r.log2n else bitsOf x 0 4 }
  let s := if suspends then askSuspended s q else s
  if bitsOf x 63 1 = 1 then (if r.en then s else enableQueue s q)
  else if r.en then teardown s q false
  else s

/-- Whether the device has a queue (spec/23 R426). -/
def isQueue (q : Nat) : Bool := decide (q < 128)

/-- QUEUE_ENABLE: a write of QCTL that takes EN from 0 to 1. -/
def execQueueEnable (q : Nat) (v : W64) (s : State) : Host.Outcome State Fault Refusal :=
  .next (if isQueue q && !(s.queue q).en && bitsOf v.toNat 63 1 == 1 then finish (writeQctl s q v) else s)

/-- QUEUE_TEARDOWN: a write of QCTL that takes EN from 1 to 0. -/
def execQueueTeardown (q : Nat) (v : W64) (s : State) : Host.Outcome State Fault Refusal :=
  .next (if isQueue q && (s.queue q).en && bitsOf v.toNat 63 1 == 0 then finish (writeQctl s q v) else s)

/-- QUEUE_SUSPEND: a write of QCTL that takes SUSP from 0 to 1. -/
def execQueueSuspend (q : Nat) (v : W64) (s : State) : Host.Outcome State Fault Refusal :=
  .next (if isQueue q && !(s.queue q).susp && bitsOf v.toNat 62 1 == 1 then finish (writeQctl s q v) else s)

/-- QUEUE_UNSUSPEND: a write of QCTL that takes SUSP to 0. -/
def execQueueUnsuspend (q : Nat) (v : W64) (s : State) : Host.Outcome State Fault Refusal :=
  .next (if isQueue q && (s.queue q).susp && bitsOf v.toNat 62 1 == 0 then finish (writeQctl s q v) else s)

/-- TORN_CLEAR: a write of 1 to TORN (spec/25 R458). -/
def execTornClear (q : Nat) (v : W64) (s : State) : Host.Outcome State Fault Refusal :=
  .next (if isQueue q && (s.queue q).torn && bitsOf v.toNat 61 1 == 1 then finish (writeQctl s q v) else s)

/-- A write of QDOOR (spec/23 R428). -/
def writeQdoor (s : State) (q : Nat) (v : W64) : State :=
  let r := s.queue q
  let t := v.toNat % 65536
  if !cpReady s then s
  else if 2 ^ r.log2n < (t + 65536 - r.head) % 65536 then modQueue s q fun r => { r with bad := true }
  else modQueue s q fun r => { r with tail := t }

/-- DOORBELL. -/
def execDoorbell (q : Nat) (v : W64) (s : State) : Host.Outcome State Fault Refusal := .next (if isQueue q then writeQdoor s q v else s)

/-! ### Consumption (spec/25 R457, R458) -/

/-- CONSUME: kill every team; the record of the class that caused it is written once the launch's writes are acknowledged or stopped, at
ROLLBACK_RESTORE (spec/25 R457). -/
def execConsume (launch code : Nat) (s : State) : Host.Outcome State Fault Refusal :=
  .next <| match tbGet s.launches launch with
  | none => s
  | some l =>
    match l.dying with
    | some r =>
      if r.code = code && !l.restoring then
        finish (modLaunch (killLaunch s launch) launch fun l => { l with restoring := true })
      else s
    | none => s

/-- The versions of a sector above a stamp, with the current one, all carry a tag (spec/21 R418). -/
def sectorRestorable (s : State) (st : W64) (tag sec : Nat) : Bool :=
  (decide ((stampAt s sec).1.toNat ≤ st.toNat) || (stampAt s sec).2 == tag) &&
    (leesOf s (stackOf (sec * 64))).all fun r => match r with
      | .version x _ t _ g _ => x != sec || decide (t.toNat ≤ st.toNat) || g == tag
      | _ => true

/-- The copy record of a block for a stamp (spec/21 R418). -/
def copyFor (blk : Nat) (boundary : Nat) : List Lees → Option (List Host.Cell × Bool × List Nat)
  | [] => none
  | .copy x d p b _ _ m po :: rs => if x = blk ∧ p < boundary ∧ boundary ≤ b then some (d, m, po) else copyFor blk boundary rs
  | _ :: rs => copyFor blk boundary rs

/-- Restorable(X) (spec/21 R418). -/
def restorable (s : State) (lid : Nat) (l : Launch) : Bool :=
  l.prot && (match l.sl, protPin s lid with
    | some st, some p =>
      l.wsectors.all (sectorRestorable s st l.tag) &&
        l.wblocks.all fun b => match copyFor b p.boundary (leesOf s (stackOf (b * 4096))) with
          | some (_, mixed, _) => !mixed
          | none => false
    | none, _ => true
    | _, none => false)

/-- Rewrite one sector with its content at S_L, as a tracked write with tag 0 that carries the version's poison. -/
def rewriteSector (st : W64) (s : State) (sec : Nat) : State :=
  let s := correctLees (drainSector s sec) (stackOf (sec * 64)) 0 (ofSector sec)
  let (d, po) := asOfSector s sec st
  if reachable s (sec * 64) then forwardStash (stampAssign s (sec * 64) d (mkStamp (maxClock s) 0) 0 0 po).1 sec else s

/-- Copy one block back from its copy record, with its poison; its bytes carry the floor of the write, the largest home clock (spec/21
R393, spec/19 R387). -/
def rewriteBlock (boundary : Nat) (s : State) (blk : Nat) : State :=
  let s := correctLees s (stackOf (blk * 4096)) 0 (ofSector (blk * 64))
  match copyFor blk boundary (leesOf s (stackOf (blk * 4096))) with
  | none => s
  | some (d, _, po) =>
    let secs := (List.range 64).map fun i => blk * 64 + i
    let s := secs.foldl (fun s x => settle s x 0) s
    let s := beforeUntracked s (blk * 4096) 0 0
    let s := tagWrite s (blk * 4096) (deviceWriter s).floor 4096
    let s := { s with mem := d.foldl (fun m c => smSet 0 m c.1 c.2) (smClear s.mem (blk * 4096) (blk * 4096 + 4096)),
                      flips := smClear s.flips (blk * 4096) (blk * 4096 + 4096),
                      poison := (s.poison.filter fun x => x / 64 != blk) ++ po }
    secs.foldl (fun s x => forwardStash (addDirty s x) x) s

/-- Undo the writes of a launch; every core drops the context's L1 lines (spec/21 R418). -/
def rollBack (s : State) (lid : Nat) (l : Launch) : State :=
  let s := match l.sl, protPin s lid with
    | some st, some p => l.wblocks.foldl (rewriteBlock p.boundary) (l.wsectors.foldl (rewriteSector st) s)
    | _, _ => s
  { s with cores := s.cores.foldl (fun m (e : Nat × Core) =>
    smSet Core.zero m e.1 { e.2 with l1 := e.2.l1.filter fun x => x.ctx != l.ctx }) s.cores }

/-- The index slots of a launch whose pin is released are held for no launch any more (spec/21 R417). -/
def freeSlotsOf (s : State) (lid : Nat) : State :=
  { s with lees := s.lees.map fun e => (e.1, e.2.map fun r => match r with
      | .index l u => .index (if l = lid then 0 else l) u
      | r => r) }

/-- Replay a restored launch from its queue entry, with a new pin (spec/21 R419). -/
def replay (s : State) (lid : Nat) : State :=
  let s := freeSlotsOf { s with lpins := s.lpins.filter fun p => p.launch != lid } lid
  modLaunch s lid fun l =>
    { l with replays := l.replays + 1, retry := l.retry - 1, sl := none, pin := freePinId s, placed := [], dying := none,
             restoring := false, wsectors := [], wblocks := [], discarded := 0 }

/-- Whether the CP may decide what becomes of a launch that consumed an error: its writes are acknowledged or stopped (spec/21 R418). -/
def restoreDue (s : State) (lid : Nat) (l : Launch) : Bool := cpReady s && l.restoring && writesSettled s lid

/-- ROLLBACK_RESTORE: restore and replay, complete as rolled back, or tear the queue down (spec/21 R418, R419; spec/25 R457,
R458). -/
def execRollbackRestore (launch : Nat) (s : State) : Host.Outcome State Fault Refusal :=
  .next <| match tbGet s.launches launch with
  | none => s
  | some l =>
    if restoreDue s launch l then
      let s := match l.dying with | some r => pushErr s r | none => s
      let code := match l.dying with | some r => r.code | none => 0
      if restorable s launch l then
        let more := decide (0 < l.retry)
        let s := pushErr (rollBack s launch l)
          ⟨0x0C, 3, code, 3, 0, 0, ownerOf s launch, l.replays, (l.sl.getD 0).toNat⟩
        finish (if more then replay s launch
          else modLaunch s launch fun l => { l with doneCode := some (0x04, l.replays), dying := none, restoring := false })
      else
        let s := tornRec (setTorn s l.queue) l.queue (if l.prot then 1 else 0) code (ownerOf s launch)
        finish (modLaunch s launch fun l => { l with doneCode := some (0x05, code), dying := none, restoring := false })
    else s

/-! ### Context kill (spec/25 R460) -/

/-- Kill a context: every queue torn down, every bin discarded, a record; `why` is AUX0. -/
def killContext (s : State) (ctx why : Nat) : State :=
  match tbGet s.contexts ctx with
  | none => s
  | some c =>
    if c.record = endedRecord then s
    else
      let s := ((s.queues.filter fun e => e.2.en && e.2.ctxidx == ctx).map (·.1)).foldl (fun s q => teardown s q true) s
      pushErr s ⟨0x0E, 3, 0, 3, 0, 0, ctx + 128, why, 0⟩

/-- PARKCMD after an operation on a context: CTX as written, CORE and SLOT as they were, REF (spec/25 R463). -/
def parkCtx (s : State) (ctx : Nat) (ref : Bool) : State :=
  modErr s fun e => { e with park := BitVec.ofNat 64 (e.park.toNat / 2 ^ 40 * 2 ^ 40 + ctx % 128 * 2 ^ 32), parkRef := ref }

/-- PARKCMD operation 5; a command that names no context sets REF (spec/25 R462). While RELENG is not ready CTX is stored and the operation
is not started (notes/assumptions/44.md). -/
def contextKill (s : State) (ctx : Nat) : State :=
  if !relengReady s then parkCtx s ctx s.err.parkRef
  else
  let known := match tbGet s.contexts ctx with | some c => c.record != endedRecord | none => false
  let s := parkCtx s ctx (!known)
  if known then killContext s ctx 0 else s

/-- CONTEXT_KILL: by the host; the device's own kills follow SRAM_ERROR (spec/25 R452). -/
def execContextKill (ctx : Nat) (s : State) : Host.Outcome State Fault Refusal := .next (finish (contextKill s ctx))

end Sys2Proof.Machine
end

