-- ==== Sys2Proof/Machine/Stacks.lean ====
section
/-! DEFINITION. The homes and the lees (spec/21 R392, R401, R403), pseudo-channel arbitration (spec/17 R363), the quiesce of a stack
(spec/01 R36-R42), its data rate (R43), scrub, SRAM and HBM errors (spec/25 R452-R456). -/

namespace Sys2Proof.Machine

/-! ### Homes and lees -/

/-- TRACKED_WRITE_AT_HOME: the next write queued at a home (spec/21 R392). -/
def execTrackedWriteAtHome (home : Nat) (s : State) : Host.Outcome State Fault Refusal :=
  .next (if s.homeq.any fun w => w.home == home then finish (homeStep s home) else s)

/-- One round of R403 on a stack; the pressure ends once 1/32 of the slots are free. -/
def relieve (s : State) (n : Nat) : State :=
  let s := reclaim n ((slotsAll s + 31) / 32) ((livePins s).length + 1) s
  { s with press := setBit s.press n (decide ((slotsAll s - slotsUsed s n) * 32 < slotsAll s)) }

/-- LEES_RECLAIM: under pressure (spec/21 R403, R404). -/
def execLeesReclaim (stack : Nat) (s : State) : Host.Outcome State Fault Refusal :=
  .next (if s.press.getLsbD stack then finish (relieve s stack) else s)

/-- HORIZON_PROPAGATION (spec/21 R401). -/
def execHorizonPropagation (core : Nat) (s : State) : Host.Outcome State Fault Refusal :=
  .next (if (s.core core).hcache = s.horizon then s else modCore s core fun c => { c with hcache := s.horizon })

/-! ### Arbitration (spec/17 R363) -/

/-- The request at the head of a class of a home. -/
def classHead (s : State) (home cls : Nat) : Option PcReq := s.pcq.find? fun r => r.home == home && r.cls == cls

/-- Whether a class may be granted: no request that waits at the head of a lower class has been passed by it. -/
def mayGrant (s : State) (home cls : Nat) : Bool :=
  (List.range 8).all fun c => decide (c ≤ cls) ||
    (match classHead s home c with | some r => !r.passed.contains cls | none => true)

/-- The class a home's arbiter grants next: the highest that has a request and may be granted. -/
def grantClass (s : State) (home : Nat) : Option Nat :=
  (List.range 8).find? fun c => (classHead s home c).isSome && mayGrant s home c

/-- Note a grant of a class at the heads of the classes below it; `seen` are the classes whose head has been met. -/
def notePassed (home cls : Nat) : List Nat → List PcReq → List PcReq
  | _, [] => []
  | seen, r :: rs =>
    if r.home = home ∧ cls < r.cls ∧ r.cls ∉ seen then
      { r with passed := insertNew r.passed cls } :: notePassed home cls (r.cls :: seen) rs
    else r :: notePassed home cls seen rs

/-- Remove the head of a class. -/
def dropHead (home cls : Nat) : List PcReq → List PcReq
  | [] => []
  | r :: rs => if r.home = home ∧ r.cls = cls then rs else r :: dropHead home cls rs

/-- PC_GRANT: a refresh where the arbiter may grant one, a free choice, or the transfer of the highest class it may grant
(notes/assumptions/5.md). -/
def execPcGrant (home : Nat) (s : State) : Host.Outcome State Fault Refusal :=
  .next <|
    if Config.freeBit s.free 8 && mayGrant s home 1 then { s with pcq := notePassed home 1 [] s.pcq }
    else match grantClass s home with
      | none => s
      | some c => { s with pcq := notePassed home c [] (dropHead home c s.pcq) }

/-! ### Quiesce (spec/01 R37-R42) -/

/-- Whether a key lies on a stack. -/
def onStack (n k : Nat) : Bool := isHbm k && stackOf k == n

/-- Whether bytes of a frame lie on a stack: an interleaved frame lies on all (spec/01 R29). -/
def frameOnStack (s : State) (n pa : Nat) : Bool :=
  match windowOf s pa with
  | some w => w == 0 || w == n + 1
  | none => false

/-- The sectors of a stack that some stash chunk holds dirty: a chunk of an ended context that a command still uses may (spec/01 R40). -/
def chunksDirty (s : State) (n : Nat) : List Nat := (stashDirty s).filter fun x => onStack n (x * 64)

/-- Complete the requests a stack has accepted: the writes queued at its homes, the reductions held for its sectors, the shares of near-memory
commands its PCs have not finished; and write back what stash chunks hold dirty of it (spec/01 R37, R40). -/
def drainStack (s : State) (n : Nat) : State :=
  let s := (s.homeq.filter fun w => onStack n w.key).foldl (fun s w => homeStep s w.home) s
  let s := (s.groups.filter fun g => onStack n (g.1 * 64)).foldl (fun s g => combineGroup s g.1) s
  let s := (sharesOn s n).foldl (fun s p => nmcShare s p.1 p.2) s
  (chunksDirty s n).foldl recallStash s

/-- Drop the stash chunks that hold sectors of a stack: their next access fills them again. -/
def dropChunks (s : State) (n : Nat) : State :=
  let keep (w : Window) : Window := { w with chunks := w.chunks.filter fun x => !x.2.keys.any fun k => onStack n (k * 64) }
  { s with crews := s.crews.map fun e =>
      (e.1, { e.2 with windows := e.2.windows.map keep, spilledWindows := e.2.spilledWindows.map keep }) }

/-- Set or clear the STACK and GROUP bits of a stack (spec/01 R22). -/
def setStackBits (s : State) (n : Nat) (b : Bool) : State :=
  { s with readyStack := setBit s.readyStack n b,
           readyGroup := (List.range 4).foldl (fun x g => setBit x (4 * n + g) b) s.readyGroup }

/-- A write of 1 to QREQ that reads 0: refused, or the quiesce begins. -/
def quiesceRequest (s : State) (n : Nat) : State :=
  if anyContext s || s.gpins != [] then s.modStack n fun x => { x with qrefuse := true }
  else setStackBits (drainStack (s.modStack n fun x => { x with qreq := true, quiescing := true }) n) n false

/-- STACK_QUIESCE_REQUEST. -/
def execStackQuiesceRequest (n : Nat) (s : State) : Host.Outcome State Fault Refusal :=
  .next (if n < 12 ∧ (s.stack n).qreq = false ∧ (s.stack n).qack = false then finish (quiesceRequest s n) else s)

/-- Write back and drop every cached copy of a stack (spec/01 R40); what the host wrote back meanwhile has been taken by HOST_MEM_WRITE. -/
def purgeStack (s : State) (n : Nat) : State :=
  let gone (sec : Nat) : Bool := onStack n (sec * 64)
  let s := dropChunks ((s.dirty.filter gone).foldl writeBack s) n
  { s with
    hostHeld := s.hostHeld.filter fun x => !gone x, owners := s.owners.filter fun e => !gone e.1,
    ctu := (List.range 4).foldl (fun m h =>
      smSet [] m h ((smGet [] m h).filter fun e => !frameOnStack s n (pteFrame e.pte))) s.ctu,
    cores := s.cores.foldl (fun m (e : Nat × Core) =>
      smSet Core.zero m e.1 { e.2 with l1 := e.2.l1.filter fun x => !frameOnStack s n x.pa }) s.cores }

/-- The exclusive-or of the masks that the bits of `i` select, restricted to bits [35:8]. -/
def maskXor (masks : List W64) (i : Nat) : Nat :=
  (List.range 5).foldl (fun x j => if i / 2 ^ j % 2 = 1 then x ^^^ bitsOf (masks.getD j 0).toNat 8 28 else x) 0

/-- Whether the five masks are linearly independent over GF(2) (spec/01 R39). -/
def masksIndependent (masks : List W64) : Bool := (List.range 31).all fun i => maskXor masks (i + 1) != 0

/-- Re-initialise a stack: zero bytes, no poison, no lees, every granule with bytes on it untracked; the horizon rises to the
largest clock (spec/01 R39, R41; spec/17 R349). Whether the home state of a live allowance counter on the stack outlasts it is not stated: it
does, a design choice (notes/assumptions/43.md). -/
def initStack (s : State) (n : Nat) : State :=
  let lo := hbmKey n 0
  let hi := hbmKey (n + 1) 0
  let out (sec : Nat) : Bool := !onStack n (sec * 64)
  { s with
    mem := smClear s.mem lo hi, tags := smClear s.tags lo hi, flips := smClear s.flips lo hi,
    sectors := s.sectors.filter fun e => out e.1,
    poison := s.poison.filter out,
    blocks := s.blocks.filter fun e => !onStack n (e.1 * 4096),
    lees := smSet [] s.lees n [], leesHead := smSet 0 s.leesHead n 0,
    press := setBit s.press n false,
    tracked := s.tracked.filter fun g => !frameOnStack s n g,
    horizon := maxW s.horizon (mkStamp (maxClock s) 767) }

/-- Whether the device runs its firmware, out of reset (spec/27 R481, R483). -/
def booted (s : State) : Bool := s.host.fwok && s.host.resetN && s.host.pwrgd && !s.host.thermtrip

/-- The return to service of a quiesced stack (spec/01 R39). Before the firmware runs and RELENG is ready no bit rises (spec/27 R481, R484):
the stack's then rise later, with FUNCTION_READY. -/
def stackReturn (s : State) (n : Nat) : State :=
  if masksIndependent (s.stack n).masks then
    let s := (initStack s n).modStack n fun x => { x with qack := false, qreq := false }
    if booted s && relengReady s then setStackBits s n true else s
  else s.modStack n fun x => { x with hbad := true, qreq := true }

/-- STACK_QUIESCE_COMPLETE; where QREQ has been written to 0 meanwhile the return follows at once (spec/01 R37, R40). -/
def execStackQuiesceComplete (n : Nat) (s : State) : Host.Outcome State Fault Refusal :=
  .next <|
    if n < 12 ∧ (s.stack n).quiescing = true then
      let s := (purgeStack (drainStack s n) n).modStack n fun x => { x with qack := true, quiescing := false }
      finish (if (s.stack n).qreq then s else stackReturn s n)
    else s

/-- A write of 0 to QREQ that reads 1. -/
def returnRequest (s : State) (n : Nat) : State :=
  let s := s.modStack n fun x => { x with qreq := false }
  if (s.stack n).qack then stackReturn s n else s

/-- STACK_RETURN_TO_SERVICE. -/
def execStackReturnToService (n : Nat) (s : State) : Host.Outcome State Fault Refusal :=
  .next (if n < 12 ∧ (s.stack n).qreq = true then finish (returnRequest s n) else s)

/-- A write of HASHMASKj (spec/01 R36, R37). What the stack still holds of requests it accepted ends before the mapping changes (R42). -/
def writeMask (s : State) (n j : Nat) (v : W64) : State :=
  if (s.stack n).qack then
    (drainStack s n).modStack n fun x => { x with masks := x.masks.set j (BitVec.ofNat 64 (v.toNat / 256 * 256)) }
  else s.modStack n fun x => { x with wdrop := true }

/-- HASHMASK_WRITE. -/
def execHashmaskWrite (n j : Nat) (v : W64) (s : State) : Host.Outcome State Fault Refusal :=
  .next (if n < 12 ∧ j < 5 then finish (writeMask s n j v) else s)

/-! ### Data rate (spec/01 R43) -/

/-- Whether some channel group of a stack made more than 4,096 stage-2 corrections within the last second. -/
def manyCorrections (s : State) (n : Nat) : Bool :=
  (List.range 4).any fun g =>
    decide (4096 < ((smGet [] s.corr (4 * n + g)).filter fun c => decide (s.cycle < c + secondCycles)).length)

/-- Whether the reliability engine, once it is ready, requests a lower rate for a stack (spec/01 R20, R43). -/
def rateWanted (s : State) (n : Nat) : Bool :=
  let x := s.stack n
  s.readyIo.getLsbD 20 && decide (x.rate < 2) && !x.degr && x.rateReq.isNone && !x.retraining && manyCorrections s n

/-- RATE_CHANGE_REQUEST. Whether the corrections that led to it count for a later request is not stated: they do not, a design choice (spec/01
R43; notes/assumptions/43.md). -/
def execRateChangeRequest (n : Nat) (s : State) : Host.Outcome State Fault Refusal :=
  .next <|
    if n < 12 ∧ rateWanted s n = true then
      let s := s.modStack n fun x => { x with rateReq := some s.cycle }
      { s with corr := (List.range 4).foldl (fun m g => smSet [] m (4 * n + g) []) s.corr }
    else s

/-- Whether a save streams to a stack: a team in SAVE whose save area has bytes there (spec/23 R444). -/
def saveStreams (s : State) (n : Nat) : Bool :=
  s.teams.any fun e => (match e.2.pre with | .save _ => true | _ => false) &&
    (match tbGet s.contexts e.2.ctx with | some c => frameOnStack s n c.savebase | none => false)

/-- Cycles of the 2 ms a request may wait. -/
def rateWait : Nat := 5000000

/-- Whether a stack's retraining may start: requested, not waiting for 2 ms already, and no save streams to the stack. -/
def mayRetrain (s : State) (n : Nat) : Bool :=
  match (s.stack n).rateReq with
  | some c => decide (s.cycle < c + rateWait) && !saveStreams s n
  | none => false

/-- RETRAINING_START. -/
def execRetrainingStart (n : Nat) (s : State) : Host.Outcome State Fault Refusal :=
  .next (if mayRetrain s n then s.modStack n fun x => { x with rateReq := none, retraining := true } else s)

/-- RETRAINING_COMPLETE. -/
def execRetrainingComplete (n : Nat) (s : State) : Host.Outcome State Fault Refusal :=
  .next (if (s.stack n).retraining then s.modStack n fun x => { x with retraining := false, rate := x.rate + 1 } else s)

/-- A data rate in Mb/s per pin. -/
def rateMb (r : Nat) : Nat := 10000 - 1000 * r

/-- RATE_CHANGE_ABANDON (spec/25 R466). -/
def execRateChangeAbandon (n : Nat) (s : State) : Host.Outcome State Fault Refusal :=
  .next <| match (s.stack n).rateReq with
  | none => s
  | some c =>
    if c + rateWait ≤ s.cycle then
      finish (pushErr (s.modStack n fun x => { x with rateReq := none, degr := true })
        ⟨0x07, 3, 0, 2, 64 * n, 0, 0, n, rateMb (s.stack n).rate⟩)
    else s

/-! ### Errors of HBM (spec/25 R453, R455) -/

/-- One past the last stack-local address (spec/01 R27). -/
def slaEnd : Nat := 48000000000

/-- Whether a location lies on HBM: an addressable byte, one of a lees, or one of a stack block (spec/01 R27, spec/17 R337). -/
def onHbm (k : Nat) : Bool := (isHbm k && decide (slaOf k < slaEnd)) || isStk k

/-- Read the sector of a location of HBM through the correction stages; a sector of a lees spoils the records it holds bytes of
(spec/25 R453-R455). -/
def scrub (s : State) (loc finder : Nat) : State :=
  if isHbm loc && decide (csOf s.leesMode ≤ slaOf loc) then correctSlot (stackOf loc) finder s (sectorOf loc)
  else correctSector s (sectorOf loc) finder

/-- PATROL_SCRUB: the sector of a location is read, a transfer of class 7 (spec/17 R363), and corrected, or poisoned and reported. -/
def execPatrolScrub (loc : Nat) (s : State) : Host.Outcome State Fault Refusal :=
  .next (if onHbm loc && reachable s loc then finish (scrub (pcAsk s (homeOf s loc) 7) loc 1) else s)

/-- Flip bits of a stored byte; a bit that flips again is right again. -/
def flipBits (s : State) (k : Nat) (b : Byte) : State := { s with flips := smSet 0 s.flips k (smGet 0 s.flips k ^^^ b) }

/-- HBM_DATA_ERROR: bits of stored data flip. -/
def execHbmDataError (loc : Nat) (bits : List Nat) (s : State) : Host.Outcome State Fault Refusal :=
  .next <| bits.foldl (fun s b =>
    if onHbm (loc + b / 8) then flipBits s (loc + b / 8) (BitVec.ofNat 8 (2 ^ (b % 8))) else s) s

/-- A sector of HBM that no stage corrects: two words of it with two wrong bits each, read (spec/25 R453, R456). -/
def loseSector (s : State) (sec : Nat) : State :=
  let k := sec * 64
  scrub { s with flips := smSet 0 (smSet 0 (smClear s.flips k (k + 64)) k 3) (k + 8) 3 } k 0

/-! ### Errors of SRAM (spec/25 R452) -/

/-- UNIT and INDEX of a structure's records: the unit number the event names is of the kind the structure lies in; of structure 6, slot 1
is the share table and slot 0 the home state (spec/25 R466). -/
def sramUnit (structure_ unit slot loc : Nat) : Nat × Nat :=
  if structure_ = 10 then (2, unit)
  else if structure_ = 3 ∨ structure_ = 4 then (1, unit)
  else if structure_ = 5 then (1, unit / 64 * 64)
  else if structure_ = 6 ∧ slot ≠ 1 ∧ loc < 2 ^ 64 then (1, unit)
  else (0, unit)

/-- Whether a launch consumes an error already. -/
def isDying (s : State) (lid : Nat) : Bool := match tbGet s.launches lid with | some l => l.dying.isSome | none => true

/-- A launch consumes an error unless it already does (spec/25 R457, R467). -/
def consumeBy (s : State) (lid : Nat) (r : ErrRec) : State :=
  modLaunch s lid fun l => if l.dying.isSome then l else { l with dying := some r }

/-- The sector of an address poisoned in memory, its dirty copy lost. -/
def poisonDirty (s : State) (sec : Nat) : State :=
  let s := setPoison { s with dirty := s.dirty.filter (· != sec) } sec true
  { s with cxl := s.cxl.map fun l => if l.key = sec then { l with dirty := false } else l }

/-- Whether an untracked sector is dirty in the LLC. -/
def sectorDirty (s : State) (sec : Nat) : Bool :=
  s.dirty.contains sec || s.cxl.any fun l => l.key == sec && l.dirty

/-- The four sectors of the 256-byte line of a sector (spec/17 R357). -/
def lineSectors (sec : Nat) : List Nat := (List.range 4).map (sec / 4 * 4 + ·)

/-- Drop a line's copies from the L1 of a core. -/
def dropL1Line (s : State) (core sec : Nat) : State :=
  modCore s core fun c => { c with l1 := c.l1.filter fun x => x.phys / 4 != sec / 4 }

/-- An uncorrectable error of a directory line, for one of its sectors: its private holders are recalled; a dirty one that cannot be
recovered, a free choice, is poisoned (spec/25 R452). -/
def loseEntry (s : State) (sec : Nat) : State :=
  let lost := (sectorDirty s sec || dirState s sec = .m || dirState s sec = .u) && Config.freeBit s.free (2 ^ 75 + sec)
  let s := if lost then { s with groups := tbDel s.groups sec } else combineGroup s sec
  let s := backInvalidate (recallStash s sec) sec
  if lost then poisonDirty s sec else s

/-- The context of the counter at a location, or of the bin of a core. -/
def binCtx (s : State) (core bin : Nat) : Option Nat :=
  (tbGet (s.core core).bins bin).bind fun b => (tbGet s.launches b.launch).map (·.ctx)

/-- Stop an engine command with DATA_UNCORRECTABLE: what it has not done it does not do (spec/15 R316). -/
def stopCmd (s : State) (id : Nat) (c : Cmd) : State :=
  let s := if c.accepted then s else modTeam s c.team fun t => decFlags t c.flags
  let kind := match c.kind with
    | .nmc n => .nmc { n with ready := true, homes := [] }
    | k => k
  modCmd s id fun c => { c with accepted := true, executed := true, err := some (c.err.getD (0x10, 0)), kind := kind }

/-- ADDR of a record about a structure: the physical address concerned, 0 where it has none, as a virtual address or a command (spec/25
R465). -/
def sramAddr (s : State) (structure_ loc : Nat) : Nat :=
  if (1 ≤ structure_ ∧ structure_ ≤ 4) ∨ structure_ = 6 then recAddr s loc else 0

/-- What an uncorrectable error of a structure does. `unit` numbers the core, slice or home; `slot` is the team slot of 0 and 9, the
bin of 7, the context of 5, 1 for the share table and 0 for the home state of 6, the id of the saved team of 10; `loc` is the location concerned: a partition byte for 1, a memory byte
for 2 to 4, a virtual address for 5, a descriptor for 6, a command's id for 8. -/
def sramUe (s : State) (structure_ unit slot loc : Nat) : State :=
  let sec := sectorOf loc
  let u := sramUnit structure_ unit slot loc
  let contained (s : State) : State := pushErr s ⟨0x04, 1, 0, u.1, u.2, sramAddr s structure_ loc, 0, structure_, 0⟩
  let consumed (s : State) (t : Team) : State :=
    consumeBy s t.launch ⟨0x04, 2, 0x10, u.1, u.2, 0, teamOwner s t, structure_, 0⟩
  match structure_ with
  | 0 | 9 => (match teamAt s unit slot with | some (_, t) => consumed s t | none => contained s)
  | 10 => (match s.team slot with | some t => consumed s t | none => contained s)
  | 1 => if 2 ^ 64 ≤ loc ∧ loc < 2 ^ 128 then contained (setPoison s sec true) else contained s
  | 2 => contained (dropL1Line s unit sec)
  | 3 => contained (if sectorDirty s sec then poisonDirty s sec else s)
  | 4 => contained ((lineSectors sec).foldl loseEntry s)
  | 5 =>
    contained { s with ctu := smSet [] s.ctu (unit / 64) ((ctuOf s (unit / 64)).filter fun e =>
      !(e.ctx == slot && decide (e.va ≤ loc ∧ loc < e.va + e.size))) }
  | 6 =>
    match tbGet s.counters loc with
    | none => contained s
    | some c =>
      -- a share lost is taken as 0; a reserve lost has no value
      let lose (c : Counter) : Counter :=
        if slot = 1 then { c with shares := tbDel c.shares unit }
        else { c with reserve := (Config.freeWord s.free (2 ^ 76)).toNat % 2 ^ 48 }
      killContext (contained (modCounter s loc lose)) c.ctx 1
  | 7 => (match binCtx s unit slot with | some ctx => killContext (contained s) ctx 2 | none => contained s)
  | 8 =>
    match tbGet s.cmds loc with
    | none => contained s
    | some c => contained (stopCmd s loc c)
  | _ => s

/-- SRAM_ERROR. -/
def execSramError (structureCode unit slot loc : Nat) (correctable : Bool) (s : State) : Host.Outcome State Fault Refusal :=
  .next <|
    if 10 < structureCode then s
    else if correctable then
      let u := sramUnit structureCode unit slot loc
      finish (pushErr (modErr s fun e => { e with sramce := satInc e.sramce })
        ⟨0x03, 0, 0, u.1, u.2, sramAddr s structureCode loc, 0, structureCode, 0⟩)
    else finish (sramUe s structureCode unit slot loc)

/-! ### Timing (spec/25 R456) -/

/-- The launches with a team resident on a core. -/
def launchesOn (s : State) (core : Nat) : List Nat :=
  ((coreTeams s core).map fun e => e.2.launch).foldl insertNew []

/-- The READY bit of a core falls, with its record (spec/01 R26, spec/25 R466). -/
def coreFalls (s : State) (core : Nat) : State :=
  if coreReady s core then
    pushErr { s with readyCore := setBit s.readyCore core false }
      ⟨0x06, 1, 0, 0, core, 0, 0, 0x100 + 8 * (core / 64), core % 64⟩
  else s

/-- A sector that a double detection outside a core concerns, which no rule names: of HBM, or one the LLC holds or tracks. -/
def anySector (s : State) (cached : Bool) : Nat :=
  let x := (Config.freeWord s.free (2 ^ 77)).toNat
  let any := sectorOf (hbmKey (x % 12) (x / 12 % slaEnd))
  if cached then (pickOne s (2 ^ 78) (any :: s.dirty ++ s.cxl.map (·.key) ++ s.groups.map (·.1))).getD any else any

/-- TIMING_DETECTION: a replay. With `again` the launches on the core consume; where none can, because none is there or each consumes an error
already, the reliability engine writes the record at once. Outside a core, which
a number of 256 or more tells, an SRAM error of structure 3 or 4 at a slice or an uncorrectable HBM sector at a base die, a free choice
among them. -/
def execTimingDetection (core : Nat) (again : Bool) (s : State) : Host.Outcome State Fault Refusal :=
  .next <|
    let s := modErr s fun e => { e with treplay := satInc e.treplay }
    if !again then s
    else if core < 256 then
      let r (lid : Nat) : ErrRec := ⟨0x05, 2, 0x10, 0, core, 0, ownerOf s lid, 0, 0⟩
      let ls := launchesOn s core
      let s := if ls.all (isDying s) then pushErr s (r (ls.headD 0)) else ls.foldl (fun s lid => consumeBy s lid (r lid)) s
      finish (coreFalls (modCore s core fun c => { c with failed := true }) core)
    else if Config.freeBit s.free (2 ^ 79) then finish (loseSector s (anySector s false))
    else
      finish (sramUe s (if Config.freeBit s.free (2 ^ 79 + 1) then 3 else 4) ((core - 256) % 256) 0 (64 * anySector s true))

end Sys2Proof.Machine
end

