-- ==== Sys2Proof/Machine/Kiln.lean ====
section
/-! DEFINITION. The frame table (spec/17 R349, spec/27 R476, R477), rebases (spec/21 R395), and the kiln (spec/21 R408-R415): its
command record, the image of a generation, drain, commit, restore, release and abort. -/

namespace Sys2Proof.Machine

/-! ### The frame table -/

/-- Change the host link's registers. -/
def modHost (s : State) (f : HostLink → HostLink) : State := { s with host := f s.host }

/-- Whether a granule lies wholly in the populated part of a window of R29. -/
def granuleOk (s : State) (g : Nat) : Bool :=
  inOneWindow s g 65536 && (match windowOf s g with | some w => w != 13 | none => false)

/-- A write of FRAMECMD: REF is W1C, GRAN and T are replaced (spec/00 R8); with GO a change begins, or is refused, which sets REF and changes no
granule (spec/27 R477; notes/assumptions/34.md). -/
def writeFramecmd (s : State) (v : W64) : State :=
  let x := v.toNat
  let gran := bitsOf x 16 36 * 65536
  let t := bitsOf x 1 1 == 1
  let s := if bitsOf x 62 1 = 1 then modHost s fun h => { h with frameRef := false } else s
  let s := modHost s fun h => { h with frameGran := gran, frameT := t }
  if bitsOf x 0 1 = 0 then s
  else if s.host.frameRun.isSome || s.gpins != [] || !granuleOk s gran then modHost s fun h => { h with frameRef := true }
  else modHost s fun h => { h with frameRun := some (gran, t) }

/-- FRAMECMD_GO (spec/27 R477). -/
def execFramecmdGo (v : W64) (s : State) : Host.Outcome State Fault Refusal :=
  .next (if bitsOf v.toNat 0 1 = 1 then writeFramecmd s v else s)

/-- The sectors of a granule. -/
def granuleSectors (s : State) (g : Nat) : List Nat :=
  (List.range 1024).filterMap fun i => (keyOfPa s (g + 64 * i)).map sectorOf

/-- Whether an accepted near-memory command has translated a page of a granule (spec/13 R293, spec/27 R477). -/
def nmcOnGranule (s : State) (g : Nat) : Bool :=
  s.cmds.any fun e =>
    match e.2.kind with
    | .nmc n => n.ready && !n.homes.isEmpty && n.pages.any fun p => decide (p.2.2.1 < g + 65536 ∧ g < p.2.2.1 + p.2.1)
    | _ => false

/-- Whether the change of a granule that runs can end: no access that translated the granule is left. -/
def frameDue (s : State) : Bool :=
  match s.host.frameRun with
  | some (g, _) => cpReady s && !nmcOnGranule s g
  | none => false

/-- Unfill the stash chunks that hold one of some sectors: their next access fills them again. -/
def unfillChunks (s : State) (secs : List Nat) : State :=
  let keep (w : Window) : Window := { w with chunks := w.chunks.filter fun x => !x.2.keys.any secs.contains }
  { s with crews := s.crews.map fun e =>
      (e.1, { e.2 with windows := e.2.windows.map keep, spilledWindows := e.2.spilledWindows.map keep }) }

/-- Change the bit of a granule: its translations shot down, its sectors written back (spec/17 R349). A chunk filled from it recorded the
old bit; it is unfilled, so that the frame is only written as the kind its table records (R350): no rule says how, a design choice
(notes/assumptions/43.md). -/
def changeFrame (s : State) (g : Nat) (t : Bool) : State :=
  let s := shootDown s fun e => decide (pteFrame e.pte < g + 65536 ∧ g < pteFrame e.pte + e.size)
  let secs := granuleSectors s g
  let s := secs.foldl (fun s x => writeBack (settle s x 0) x) s
  let s := unfillChunks s secs
  { s with tracked := if t then insertNew s.tracked g else s.tracked.filter (· != g) }

/-- FRAME_CHANGE_COMPLETE. -/
def execFrameChangeComplete (s : State) : Host.Outcome State Fault Refusal :=
  .next <| match s.host.frameRun with
  | none => s
  | some (g, t) =>
    if frameDue s then finish (modHost (changeFrame s g t) fun h => { h with frameRun := none }) else s

/-! ### Rebase -/

/-- A write of 1 to REBASE that reads 0 (spec/21 R395). -/
def rebaseRequest (s : State) : State :=
  if s.rebasing then s
  else if anyContext s || livePins s != [] then { s with rbRefuse := true }
  else { s with rebasing := true }

/-- REBASE. -/
def execRebase (s : State) : Host.Outcome State Fault Refusal := .next (rebaseRequest s)

/-- REBASE_COMPLETE. -/
def execRebaseComplete (s : State) : Host.Outcome State Fault Refusal :=
  .next (rebaseDone s)

/-! ### The command record (spec/21 R409, R411) -/

/-- The physical address of a host address (spec/27 R472). -/
def hostPa (h : Nat) : Nat := cxlBase + h

/-- End a kiln command with a status, and signal the host (spec/21 R410, spec/27 R475). -/
def kilnEnd (s : State) (status : Nat) : State := signal { s with kilnStatus := status, kiln := none } 2

/-- A command record. -/
structure KilnRec where
  gen : Nat
  dest : Nat
  len : Nat
  commit : Nat
  seq : Nat
  deriving DecidableEq, Repr

/-- Read a command record; none where it cannot be read or a reserved byte is not zero. -/
def kilnRecord (s : State) (addr : Nat) : State × Option KilnRec :=
  let pa := hostPa addr
  if !paUsable s pa 64 then (s, none)
  else
    match readPa s pa 64 4 with
    | (s, some d) =>
      let n (off : Nat) : Nat := recNum d off 8
      if recZero d 40 24 && n 8 % 4096 == 0 && n 24 % 256 == 0 then (s, some ⟨n 0, n 8, n 16, n 24, n 32⟩)
      else (s, none)
    | (s, none) => (s, none)

/-- Note the command word. -/
def setKilncmd (s : State) (op addr : Nat) : State :=
  { s with kilncmd := BitVec.ofNat 64 (addr % 2 ^ 52 / 64 * 64 + op) }

/-- Start a kiln command, BYTES at 0: ignored while the kiln is not ready, status 8 while it is busy. -/
def kilnStart (s : State) (op addr : Nat) (f : State → State) : State :=
  let s := setKilncmd s op addr
  if !kilnReady s then s
  else if s.kiln.isSome then { s with kilnStatus := 8 }
  else finish (f { s with kilnBytes := 0 })

/-! ### The image of a generation (spec/21 R407, R412) -/

/-- The generation content of a sector: its bytes and whether they are uncorrectable. -/
def imageSector (s : State) (p : Pin) (sec : Nat) : List Byte × Bool :=
  if trackedKey s (sec * 64) then asOfSector s sec p.stamp else generationSector s sec p.boundary

/-- The sectors of a stack that may hold a byte other than zero, or be poisoned, now or in a record. -/
def imageSectors (s : State) (n : Nat) : List Nat :=
  let now := (s.mem.map fun c => c.1 / 64) ++ s.poison
  let old := (leesOf s n).flatMap fun r => match r with
    | .version sec _ _ _ _ _ => [sec]
    | .copy blk _ _ _ _ _ _ _ => (List.range 64).map fun i => blk * 64 + i
    | .index _ _ => []
  ((now ++ old).filter fun x => onStack n (x * 64) && decide (slaOf (x * 64) < csOf s.leesMode)).foldl insertNew []

/-- The bytes other than zero of a stack's image, by stack-local address. -/
def stackImage (s : State) (p : Pin) (n : Nat) : List Host.Cell :=
  (imageSectors s n).foldl (fun m sec =>
    (imageSector s p sec).1.zipIdx.foldl (fun m (b, i) => smSet 0 m (slaOf (sec * 64) + i) b) m) []

/-- Whether a stack's image holds an uncorrectable sector. -/
def imageBad (s : State) (p : Pin) (n : Nat) : Bool := (imageSectors s n).any fun sec => (imageSector s p sec).2

/-- Granules of the interleaved window, or of a stack window, in part or whole. -/
def granules (bytes : Nat) : Nat := (bytes + 65535) / 65536

/-- Bits of the frame table of the device: the interleaved window's granules, then each stack window's. -/
def frameBits (s : State) : Nat := granules (12 * csOf s.leesMode) + 12 * granules (csOf s.leesMode)

/-- The granule of a bit of the frame table. -/
def granuleOf (s : State) (i : Nat) : Nat :=
  let a := granules (12 * csOf s.leesMode)
  let b := granules (csOf s.leesMode)
  if i < a then i * 65536 else hbmKey ((i - a) / b) ((i - a) % b * 65536)

/-- The bit of a granule in the frame table. -/
def frameIndex (s : State) (g : Nat) : Nat :=
  let b := granules (csOf s.leesMode)
  if g < stackBase then g / 65536
  else granules (12 * csOf s.leesMode) + stackOf g * b + slaOf g / 65536

/-- Data bytes of the frame-table extent. -/
def frameLen (s : State) : Nat := (frameBits s + 7) / 8

/-- The bytes other than zero of the frame table's extent. -/
def frameImage (s : State) : List Host.Cell :=
  s.tracked.foldl (fun m g =>
    let i := frameIndex s g
    smSet 0 m (i / 8) (smGet 0 m (i / 8) ||| BitVec.ofNat 8 (2 ^ (i % 8)))) []

/-- The first byte of extent `n` of the area: 0 to 11 the stacks, 12 the frame table (notes/assumptions/26.md). -/
def extentAt (s : State) (n : Nat) : Nat := n * (64 + csOf s.leesMode)

/-- Bytes of the extent area. -/
def imageLen (s : State) : Nat := extentAt s 12 + 64 + frameLen s

/-- The header of an extent. -/
def extentHeader (kind stack start len : Nat) : List Byte :=
  leBytes 2 kind ++ leBytes 6 stack ++ leBytes 8 start ++ leBytes 8 len ++ List.replicate 40 0

/-- Put bytes at an offset of the area. -/
def putCells (m : List Host.Cell) (off : Nat) (data : List Byte) : List Host.Cell :=
  data.zipIdx.foldl (fun m (b, i) => smSet 0 m (off + i) b) m

/-- The extent area of a generation, its bytes other than zero by offset. -/
def imageArea (s : State) (p : Pin) : List Host.Cell :=
  let m := (List.range 12).foldl (fun m n =>
    let m := putCells m (extentAt s n) (extentHeader 1 n 0 (csOf s.leesMode))
    (stackImage s p n).foldl (fun m c => smSet 0 m (extentAt s n + 64 + c.1) c.2) m) []
  let m := putCells m (extentAt s 12) (extentHeader 2 0 0 (frameLen s))
  (frameImage s).foldl (fun m c => smSet 0 m (extentAt s 12 + 64 + c.1) c.2) m

/-- The bytes of an area in address order. -/
def areaBytes (m : List Host.Cell) (n : Nat) : List Byte := (List.range n).map (smGet 0 m)

/-- The digest of an area (spec/21 R413). -/
def areaDigest (m : List Host.Cell) (n : Nat) : List Byte := sha512 (areaBytes m n)

/-- The digest of the 60 mask values (spec/21 R413). R413 gives neither their order nor their width in the string that is digested: the
model takes them stack by stack, mask 0 to 4, 8 bytes each, the low byte first, a design choice (notes/assumptions/43.md). -/
def masksDigest (s : State) : List Byte :=
  sha512 ((List.range 60).flatMap fun i => leBytes 8 ((s.stack (i / 5)).masks.getD (i % 5) 0).toNat)

/-- SHAPE: SIZEM1 and the peer id of HUANENID (spec/21 R413). -/
def shapeWord (s : State) : Nat := bitsOf s.host.huanenid.toNat 16 9 + bitsOf s.host.huanenid.toNat 0 9 * 65536

/-- MAGIC of a commit record. -/
def kilnMagic : Nat := 0x4B494C4E00000001

/-- Bytes 8 to 255 of the commit record of a drain. -/
def commitBytes (s : State) (p : Pin) (k : Drain) (digest : List Byte) : List Byte :=
  leBytes 8 k.seq ++ leBytes 8 p.stamp.toNat ++ leBytes 8 k.gen ++ leBytes 8 13 ++ leBytes 8 (imageLen s) ++
    leBytes 8 (shapeWord s) ++ leBytes 8 s.leesMode ++ digest ++ masksDigest s ++ List.replicate 64 0

/-! ### Memory of the host -/

/-- Whether `n` bytes of host memory can be reached: below HOSTLIM, a port up. -/
def hostUsable (s : State) (h n : Nat) : Bool := decide (h + n ≤ s.host.hostlim) && portUp s

/-- The sectors that stash chunks hold with bytes in [lo, hi). -/
def stashedIn (s : State) (lo hi : Nat) : List Nat :=
  ((s.crews.flatMap fun e => e.2.windows.flatMap fun w => w.chunks.flatMap fun c => c.2.keys).filter fun x =>
    decide (lo < x * 64 + 64 ∧ x * 64 < hi)).foldl insertNew []

/-- Write an area of `n` bytes to host memory: stash chunks that hold sectors of it are recalled before and get the new bytes (spec/17
R358); a byte other than zero carries the kiln's floor, the largest home clock (spec/21 R393, spec/19 R387), one that is 0 none
(notes/assumptions/26.md). -/
def putArea (s : State) (h n : Nat) (m : List Host.Cell) : State :=
  let lo := hostPa h
  let held := stashedIn s lo (lo + n)
  let s := held.foldl (fun s x => settle s x 4) s
  let s := { s with mem := m.foldl (fun a c => smSet 0 a (lo + c.1) c.2) (smClear s.mem lo (lo + n)),
                    tags := m.foldl (fun a c => smSet 0 a (lo + c.1) (deviceWriter s).floor) (smClear s.tags lo (lo + n)),
                    poison := s.poison.filter fun x => !decide (lo ≤ x * 64 ∧ x * 64 + 64 ≤ lo + n),
                    cxl := s.cxl.filter fun l => !decide (lo ≤ l.key * 64 ∧ l.key * 64 < lo + n) }
  held.foldl forwardStash s

/-- Bytes of an area of `n` before its first poisoned sector. -/
def areaGood (s : State) (h n : Nat) : Nat :=
  let lo := hostPa h
  (s.poison.filter fun x => decide (lo < x * 64 + 64 ∧ x * 64 < lo + n)).foldl (fun a x => min a (x * 64 - lo)) n

/-- An area of `n` bytes of host memory; none where it holds a poisoned sector. -/
def getArea (s : State) (h n : Nat) : Option (List Host.Cell) :=
  let lo := hostPa h
  if s.poison.any fun x => decide (lo < x * 64 + 64 ∧ x * 64 < lo + n) then none
  else some ((s.mem.filter fun c => decide (lo ≤ c.1 ∧ c.1 < lo + n)).map fun c => (c.1 - lo, c.2))

/-! ### Drain and commit (spec/21 R412, R414) -/

/-- Let every write on its way to a tracked sector reach its home, and combine every reduction group. -/
def settleAll (s : State) : State :=
  let s := drainAll s
  s.groups.foldl (fun s g => combineGroup s g.1) s

/-- Read every sector of HBM with flipped bits through the correction stages, the lees included (spec/25 R453). -/
def correctAll (s : State) (finder : Nat) : State :=
  s.flips.foldl (fun s e => if onHbm e.1 && reachable s e.1 then scrub s e.1 finder else s) s

/-- The reads of a drain at the pseudo-channels, of class 6: those of one home are entered as one (spec/17 R363;
notes/assumptions/5.md). -/
def drainReads (s : State) : State := (List.range 768).foldl (fun s h => pcAsk s h 6) s

/-- The drain of a live generation into the extent area. -/
def drainTo (s : State) (p : Pin) (k : KilnRec) : State :=
  if k.seq = 0 || decide (k.len < imageLen s) || !hostUsable s k.dest (imageLen s) || !hostUsable s k.commit 256 then
    kilnEnd s 2
  else
    let s := correctAll (drainReads (settleAll s)) 4
    if (List.range 12).any fun n => !stackReady s n || imageBad s p n then kilnEnd s 3
    else
      { putArea s k.dest (imageLen s) (imageArea s p) with
        kiln := some (.drain ⟨k.gen, k.dest, k.commit, k.seq⟩), kilnBytes := imageLen s }

/-- The live generation pin with an id. -/
def genPin (s : State) (gen : Nat) : Option Pin := s.gpins.find? fun p => p.id == gen

/-- KILNCMD operation 1. -/
def drainCmd (addr : Nat) (s : State) : State :=
  kilnStart s 1 addr fun s =>
    match kilnRecord s addr with
    | (s, none) => kilnEnd s 2
    | (s, some k) =>
      match genPin s k.gen with
      | none => kilnEnd s 1
      | some p => drainTo s p k

/-- KILN_DRAIN. -/
def execKilnDrain (addr : Nat) (s : State) : Host.Outcome State Fault Refusal := .next (drainCmd addr s)

/-- The end of a drain: the commit record, MAGIC last; the pin is released. A pin released meanwhile, or a slot that cannot be reached, ends
the drain without one. -/
def drainEnd (s : State) (k : Drain) : State :=
  match genPin s k.gen with
  | none => kilnEnd s 1
  | some p =>
    if !hostUsable s k.commit 256 then kilnEnd s 2
    else
      match getArea s k.dest (imageLen s) with
      | none => kilnEnd s 2
      | some m =>
        let w := deviceWriter s
        let s := writePa s (hostPa k.commit + 8) (commitBytes s p k (areaDigest m (imageLen s))) w
        let s := writePa s (hostPa k.commit) (leBytes 8 kilnMagic) w
        kilnEnd { s with gpins := s.gpins.filter fun q => q.id != k.gen } 0

/-! ### Restore (spec/21 R415) -/

/-- The tracked sectors of a stack in `len` bytes from `lo`. -/
def trackedIn (s : State) (lo len : Nat) : List Nat :=
  (s.tracked.flatMap (granuleSectors s)).filter fun x => decide (lo ≤ x * 64 ∧ x * 64 < lo + len)

/-- Write one tracked sector of a data extent back: a tracked write with tag 0 and the largest home clock for its floor (spec/21 R393,
R415). -/
def restoreSector (m : List Host.Cell) (base : Nat) (s : State) (sec : Nat) : State :=
  (stampAssign s (sec * 64) ((List.range 64).map fun i => smGet 0 m (sec * 64 + i - base)) (deviceWriter s).floor 0 0 false).1

/-- Write a data extent back to its stack; the bytes other than zero carry the floor of the write (spec/19 R387). -/
def restoreStack (s : State) (m : List Host.Cell) (off n start len : Nat) : State :=
  let lo := hbmKey n start
  let s := (trackedIn s lo len).foldl (restoreSector m (lo - off)) s
  let cells := (m.filter fun c => decide (off ≤ c.1 ∧ c.1 < off + len)).map fun c => (lo + (c.1 - off), c.2)
  { s with mem := cells.foldl (fun a c => smSet 0 a c.1 c.2) (smClear s.mem lo (lo + len)),
           tags := cells.foldl (fun a c => smSet 0 a c.1 (deviceWriter s).floor) (smClear s.tags lo (lo + len)),
           flips := smClear s.flips lo (lo + len),
           poison := s.poison.filter fun x => !decide (lo ≤ x * 64 ∧ x * 64 < lo + len),
           sectors := s.sectors.filter fun e => trackedKey s (e.1 * 64) || !decide (lo ≤ e.1 * 64 ∧ e.1 * 64 < lo + len) }

/-- The tracked granules of a frame-table extent. -/
def restoreFrames (s : State) (m : List Host.Cell) (off : Nat) : State :=
  let cells := m.filter fun c => decide (off ≤ c.1 ∧ c.1 < off + frameLen s)
  { s with tracked := cells.flatMap fun c =>
      ((List.range 8).filter fun j => c.2.getLsbD j).map fun j => granuleOf s (8 * (c.1 - off) + j) }

/-- The extents of an area: kind, stack, first address, and where its data lie; `fuel` of them, from an offset (spec/21 R412). -/
def extentsOf (m : List Host.Cell) : Nat → Nat → List (Nat × Nat × Nat × Nat × Nat)
  | 0, _ => []
  | fuel + 1, off =>
    let n (o k : Nat) : Nat := leNat ((List.range k).map fun i => smGet 0 m (off + o + i))
    (n 0 2, n 2 1, n 8 8, off + 64, n 16 8) :: extentsOf m fuel (off + 64 + n 16 8)

/-- Write the extents of an area back, the frame table first, so that each sector is written as the kind it records (notes/assumptions/26.md). -/
def restoreExtents (s : State) (m : List Host.Cell) (count : Nat) : State :=
  let es := extentsOf m count 0
  let s := (es.filter fun e => e.1 == 2).foldl (fun s e => restoreFrames s m e.2.2.2.1) s
  (es.filter fun e => e.1 == 1).foldl (fun s e => restoreStack s m e.2.2.2.1 e.2.1 e.2.2.1 e.2.2.2.2) s

/-- After the extents: every clock at the generation's, no lees, the horizon raised (spec/21 R394, R415). -/
def restoreEnd (s : State) (stamp : W64) : State :=
  let s := (List.range 768).foldl (fun s h => setClock s h (logical stamp)) s
  { s with lees := [], leesHead := [], press := 0, horizon := maxW s.horizon stamp, ctu := [],
           cores := s.cores.foldl (fun m (e : Nat × Core) => smSet Core.zero m e.1 { e.2 with l1 := [] }) s.cores,
           dirty := [], hostHeld := [], owners := [], blocks := [] }

/-- Whether every home can stamp what a restore writes at it (spec/21 R394). -/
def restoreStamps (s : State) : Bool := decide (maxClock s + 12 * csOf s.leesMode / 64 < 2 ^ 54)

/-- A free byte for a location of this step. -/
def freeByte (s : State) (k : Nat) : Byte := (Config.freeWord s.free (2 ^ 100 + k)).setWidth 8

/-- What a restore that stops part-way leaves: the contents of HBM are undefined, each byte a free value, and so is what the frame tables record
of each granule (spec/21 R415; notes/assumptions/26.md). -/
def undefineHbm (s : State) : State :=
  let byte (n : Nat) (m : List Host.Cell) (a : Nat) : List Host.Cell := smSet 0 m (hbmKey n a) (freeByte s (hbmKey n a))
  { s with mem := (List.range 12).foldl (fun m n => (List.range (csOf s.leesMode)).foldl (byte n) m) s.mem,
           tracked := ((List.range (frameBits s)).filter fun i => Config.freeBit s.free (2 ^ 100 + i)).map (granuleOf s) }

/-- End a restore part-way with a status. -/
def restoreStop (s : State) (status : Nat) : State := kilnEnd (undefineHbm s) status

/-- The write-back of a restore that runs: whole, or where a link, a stack or the area fails meanwhile it stops part-way. -/
def restoreRun (s : State) (r : Restore) : State :=
  if !hostUsable s r.dest r.image || !restoreStamps s || (List.range 12).any fun i => !stackReady s i then restoreStop s 2
  else
    match getArea s r.dest r.image with
    | none => restoreStop s 3
    | some m => kilnEnd (restoreEnd (restoreExtents (settleAll s) m r.count) r.stamp) 0

/-- KILN_COMMIT: the kiln's own next step. A drain whose extents are written commits (spec/21 R412); a restore, for whose end the list of steps
has no row, writes its extents back (R415; notes/assumptions/26.md). A kiln whose READY bit fell does nothing until it is usable again
(spec/01 R20). -/
def execKilnCommit (s : State) : Host.Outcome State Fault Refusal :=
  .next <| match (if kilnReady s then s.kiln else none) with
  | none => s
  | some (.drain k) => finish (drainEnd s k)
  | some (.restore r) => finish (restoreRun s r)

/-- End a restore that has read `n` image bytes (spec/21 R410). -/
def kilnReadEnd (s : State) (status n : Nat) : State := kilnEnd { s with kilnBytes := n } status

/-- Restore from a commit record `d`: it is valid with MAGIC and the digest of the extents (spec/21 R413). The extents are written back by a later
step of the kiln: until then the restore runs, and can be stopped. -/
def restoreFrom (s : State) (k : KilnRec) (d : List Byte) : State :=
  let n (off : Nat) : Nat := recNum d off 8
  if n 0 ≠ kilnMagic ∨ k.len < n 40 then kilnEnd s 5
  else if !hostUsable s k.dest (n 40) then kilnEnd s 2
  else
    match getArea s k.dest (n 40) with
    | none => kilnReadEnd s 3 (areaGood s k.dest (n 40))
    | some m =>
      if (d.drop 64).take 64 != areaDigest m (n 40) then kilnReadEnd s 5 (n 40)
      else if n 48 ≠ shapeWord s || n 56 ≠ s.leesMode || (d.drop 128).take 64 != masksDigest s then kilnReadEnd s 4 (n 40)
      else if !restoreStamps s || (List.range 12).any fun i => !stackReady s i then kilnReadEnd s 2 (n 40)
      else { s with kiln := some (.restore ⟨k.dest, n 40, n 32, BitVec.ofNat 64 (n 16)⟩), kilnBytes := n 40 }

/-- KILNCMD operation 2. -/
def restoreCmd (addr : Nat) (s : State) : State :=
  kilnStart s 2 addr fun s =>
    match kilnRecord s addr with
    | (s, none) => kilnEnd s 2
    | (s, some k) =>
      if anyContext s || livePins s != [] then kilnEnd s 6
      else if !hostUsable s k.commit 256 then kilnEnd s 2
      else
        match readPa s (hostPa k.commit) 256 4 with
        | (s, none) => kilnEnd s 3
        | (s, some d) => restoreFrom s k d

/-- KILN_RESTORE. -/
def execKilnRestore (addr : Nat) (s : State) : Host.Outcome State Fault Refusal := .next (restoreCmd addr s)

/-! ### Release and abort -/

/-- KILNCMD operation 3 (spec/21 R408). -/
def releaseCmd (addr : Nat) (s : State) : State :=
  kilnStart s 3 addr fun s =>
    match kilnRecord s addr with
    | (s, none) => kilnEnd s 2
    | (s, some k) =>
      match genPin s k.gen with
      | none => kilnEnd s 1
      | some _ => kilnEnd { s with gpins := s.gpins.filter fun q => q.id != k.gen } 0

/-- KILN_RELEASE_GENERATION. -/
def execKilnReleaseGeneration (addr : Nat) (s : State) : Host.Outcome State Fault Refusal := .next (releaseCmd addr s)

/-- KILNCMD operation 0: a drain that runs ends without a commit record, a restore part-way; without a running command, or while the kiln is not
ready, nothing is aborted (spec/21 R414, R415, spec/01 R20). -/
def abortCmd (s : State) : State :=
  let s := { s with kilncmd := 0 }
  match (if kilnReady s then s.kiln else none) with
  | none => s
  | some (.drain _) => finish (kilnEnd s 7)
  | some (.restore _) => finish (restoreStop s 7)

/-- KILN_ABORT. -/
def execKilnAbort (s : State) : Host.Outcome State Fault Refusal := .next (abortCmd s)

end Sys2Proof.Machine
end

