-- ==== Sys2Proof/Machine/Service.lean ====
section
/-! DEFINITION. The host's service of parked teams and halted contexts (spec/25 R459, R462), the error ring's registers (R463, R464),
and the debugger (spec/23 R446, R447). -/

namespace Sys2Proof.Machine

/-! ### Parked teams (spec/25 R462) -/

/-- PARKCMD after an operation on a team: CORE, SLOT and CTX as written, OP reads 0, REF. -/
def parkTeam (s : State) (core slot ctx : Nat) (ref : Bool) : State :=
  modErr s fun e => { e with
    park := BitVec.ofNat 64 (core % 256 * 2 ^ 48 + slot % 32 * 2 ^ 40 + ctx % 128 * 2 ^ 32), parkRef := ref }

/-- The parked team a command names: the one resident at the slot, or the one saved from there; none where its launch consumes an
error (spec/25 R467). -/
def parkedAt (s : State) (core slot ctx : Nat) : Option (Nat × Team) :=
  let here (e : Nat × Team) : Bool := e.2.home == core && e.2.slot == slot && e.2.ctx == ctx && e.2.parked.isSome
  match (match s.teams.find? fun e => here e && e.2.place.isSome with
    | some e => some e
    | none => s.teams.find? here) with
  | none => none
  | some e => if (match tbGet s.launches e.2.launch with | some l => l.dying.isSome || l.restoring | none => false) then none
              else some e

/-- Carry out an operation on a parked team now, or at the restore of a saved one. While RELENG is not ready the fields are stored and the
operation is not started (spec/00 R8, spec/01 R20; notes/assumptions/44.md). -/
def parkCommand (s : State) (core slot ctx op : Nat) : State :=
  if !relengReady s then parkTeam s core slot ctx s.err.parkRef
  else
  match parkedAt s core slot ctx with
  | none => parkTeam s core slot ctx true
  | some (tid, t) =>
    let s := parkTeam s core slot ctx false
    let s := modTeam s tid fun t => { t with parkCmd := op }
    if running t then parkPending s tid else s

/-- PARK_RESUME: PARKCMD operation 1. -/
def execParkResume (core slot ctx : Nat) (s : State) : Host.Outcome State Fault Refusal :=
  .next (finish (parkCommand s core slot ctx 1))

/-- PARK_RESUME_SKIP: PARKCMD operation 2. -/
def execParkResumeSkip (core slot ctx : Nat) (s : State) : Host.Outcome State Fault Refusal :=
  .next (finish (parkCommand s core slot ctx 2))

/-- PARK_KILL_TEAM: PARKCMD operation 3. -/
def execParkKillTeam (core slot ctx : Nat) (s : State) : Host.Outcome State Fault Refusal :=
  .next (finish (parkCommand s core slot ctx 3))

/-- Resume a halted context: the teams whose fence raised the halt go back to it, at once or at their restore (spec/25 R459). -/
def resumeContext (s : State) (ctx : Nat) : State :=
  let mine := s.teams.filter fun e => e.2.ctx == ctx && e.2.logHalt && e.2.parked.isSome
  mine.foldl (fun s e =>
    let s := modTeam s e.1 fun t => { t with parkCmd := 4 }
    if running e.2 then parkPending s e.1 else s) (modCtx s ctx fun c => { c with halted := none })

/-- PARKCMD operation 4; while RELENG is not ready CTX is stored and the operation is not started (notes/assumptions/44.md). -/
def contextResume (s : State) (ctx : Nat) : State :=
  if !relengReady s then parkCtx s ctx s.err.parkRef
  else
  let halted := match tbGet s.contexts ctx with | some c => c.halted.isSome | none => false
  let s := parkCtx s ctx (!halted)
  if halted then resumeContext s ctx else s

/-- CONTEXT_RESUME. -/
def execContextResume (ctx : Nat) (s : State) : Host.Outcome State Fault Refusal := .next (finish (contextResume s ctx))

/-! ### The error ring (spec/25 R464) -/

/-- A write of ERRCTL. R463 gives LOG2N from 6 to 20: another value is stored and read back, and the ring's formulas hold with it, a design
choice (notes/assumptions/34.md). -/
def writeErrctl (s : State) (v : W64) : State :=
  let x := v.toNat
  let en := bitsOf x 63 1 == 1
  let n := bitsOf x 0 5
  modErr s fun e =>
    let start := en && !e.en
    { e with en := en, ie := bitsOf x 62 1 == 1, log2n := if e.en then e.log2n else n,
             head := if start then 0 else e.head, tail := if start then 0 else e.tail }

/-- ERRCTL_WRITE. -/
def execErrctlWrite (v : W64) (s : State) : Host.Outcome State Fault Refusal := .next (writeErrctl s v)

/-- A write of ERRHEAD. -/
def writeErrhead (s : State) (v : W64) : State :=
  let h := v.toNat % 2 ^ 32
  modErr s fun e =>
    if 2 ^ e.log2n < (e.tail + 2 ^ 32 - h) % 2 ^ 32 then { e with headbad := true } else { e with head := h }

/-- ERRHEAD_WRITE. -/
def execErrheadWrite (v : W64) (s : State) : Host.Outcome State Fault Refusal := .next (writeErrhead s v)

/-! ### The debugger (spec/23 R446, R447) -/

/-- The team a core's debug block addresses: the team of the attached context at SLOT. -/
def dbgTeam (s : State) (core : Nat) : Option (Nat × Team) :=
  let c := s.core core
  match teamAt s core c.dslot with
  | some (tid, t) => if c.attach && t.ctx == c.dctx then some (tid, t) else none
  | none => none

/-- Whether a team is inside an instruction that holds or blocks it at its own address. -/
def midInstruction (s : State) (t : Team) : Bool :=
  blockedWait t || (match t.wait with
    | .hold op => (match tbGet s.ops op with | some o => decide (o.pc = t.pc) | none => false)
    | _ => false)

/-- Halt a team at its next instruction boundary. -/
def haltTeam (s : State) (tid : Nat) (t : Team) : State :=
  modTeam s tid fun x => if midInstruction s t then { x with dbg := .instruction } else { x with halted := true, dbg := .none }

/-- DBGCMD 1. -/
def dbgHalt (s : State) (core : Nat) : State :=
  match dbgTeam s core with
  | none => s
  | some (tid, t) => if t.halted then s else haltTeam s tid t

/-- DBG_HALT. -/
def execDbgHalt (core : Nat) (s : State) : Host.Outcome State Fault Refusal := .next (dbgHalt s core)

/-- DBGCMD 2. -/
def dbgResume (s : State) (core : Nat) : State :=
  match dbgTeam s core with
  | none => s
  | some (tid, _) => modTeam s tid fun t => { t with halted := false, dbg := .none }

/-- DBG_RESUME. -/
def execDbgResume (core : Nat) (s : State) : Host.Outcome State Fault Refusal := .next (dbgResume s core)

/-- Let a halted team run to the end of a step. -/
def dbgStep (s : State) (core : Nat) (d : DbgStep) : State :=
  match dbgTeam s core with
  | none => s
  | some (tid, t) => if t.halted then modTeam s tid fun t => { t with halted := false, dbg := d } else s

/-- DBG_STEP_INSTRUCTION. -/
def execDbgStepInstruction (core : Nat) (s : State) : Host.Outcome State Fault Refusal :=
  .next (dbgStep s core .instruction)

/-- DBG_STEP_CLAUSE. -/
def execDbgStepClause (core : Nat) (s : State) : Host.Outcome State Fault Refusal :=
  .next (dbgStep s core .clause)

/-- MBPOP_READ: the host takes the head entry; an empty mailbox reads 0. -/
def execMbpopRead (core : Nat) (s : State) : Host.Outcome State Fault Refusal :=
  .next <|
    let x : W64 := match (s.core core).mail with | m :: _ => m.data | [] => 0
    let s := modCore s core fun c => { c with mail := c.mail.drop 1 }
    modHost s fun h => { h with lastRead := leBytes 8 x.toNat, lastPoison := false }

end Sys2Proof.Machine
end

