-- ==== Sys2Proof/Machine/Link.lean ====
section
/-! DEFINITION. What the outside does to the device: host CXL.mem access (spec/27 R471), links (R469, R473, R480), peer access
(R479), SPDM (R482), and the READY bits, pins, boot and reset (spec/01 R20-R28; spec/27 R481-R484). -/

namespace Sys2Proof.Machine

/-! ### Host access to HBM (spec/27 R471) -/

/-- Bytes of the interleaved window. -/
def interleavedEnd (s : State) : Nat := 12 * csOf s.leesMode

/-- Whether all twelve STACK bits read 1. -/
def allStacksReady (s : State) : Bool := (List.range 12).all (stackReady s)

/-- The sectors of `n` bytes at a physical address. -/
def paSectors (s : State) (pa n : Nat) : List Nat :=
  (spans pa n (n / 64 + 2)).filterMap fun (a, _) => (keyOfPa s a).map sectorOf

/-- Record sectors the host holds, at most 8 Mi of them, the oldest going first (spec/17 R362). That a repeated read makes a sector the
newest is stated by no rule: a design choice (notes/assumptions/43.md). -/
def holdSectors (s : State) (secs : List Nat) : State :=
  let l := secs.foldl (fun l x => l.filter (· != x) ++ [x]) s.hostHeld
  let s := secs.foldl (noteReader .host) { s with hostHeld := s.hostHeld.filter fun x => !secs.contains x }
  { s with hostHeld := l.drop (l.length - 2 ^ 23) }

/-- Raise a port's host floor to the floor tags of the tracked sectors a read returns (spec/21 R393). -/
def raiseHostFloor (s : State) (port : Nat) (secs : List Nat) : State :=
  let f := secs.foldl (fun f x =>
    if trackedKey s (x * 64) then maxW f (tagRead s (x * 64) 64) else f) (smGet 0 s.host.floors port)
  modHost s fun h => { h with floors := smSet 0 h.floors port f }

/-- What the host reads: the bytes, or poisoned data, of which no byte has a value. -/
def answerHost (s : State) (n : Nat) (r : Option (List Byte)) : State :=
  modHost s fun h => match r with
    | some d => { h with lastRead := d, lastPoison := false, lastRefused := none }
    | none => { h with lastRead := List.replicate n 0, lastPoison := true, lastRefused := none }

/-- HOST_MEM_READ: through a port that is up, of at most one 64-byte sector; whether the host keeps the sector is a free choice. -/
def execHostMemRead (port addr n : Nat) (s : State) : Host.Outcome State Fault Refusal :=
  .next <|
    if !(decide (port < 2) && s.readyIo.getLsbD port && decide (addr % 64 + n ≤ 64 ∧ addr + n ≤ interleavedEnd s)) then s
    else if !allStacksReady s then answerHost s n none
    else
      match readPa s addr n 5 with
      | (s, none) => finish (answerHost s n none)
      | (s, some d) =>
        let secs := paSectors s addr n
        let s := raiseHostFloor s port secs
        let s := if Config.freeBit s.free 10 then holdSectors s secs else s
        finish (answerHost s n (some d))

/-- The record of poisoned data that came from the host, unit 4, or a peer, unit 5 (spec/25 R466). -/
def poisonIn (s : State) (unit port key : Nat) (data : List Byte) : State :=
  pushErr s ⟨0x10, 1, 0, unit, port, recAddr s key, 0, leNat (data.take 8), 0⟩

/-- Whether a host write is the write-back of a line that the quiesce of its stack back-invalidates (spec/01 R40). -/
def quiesceBack (s : State) (k : Nat) : Bool :=
  isHbm k && (s.stack (stackOf k)).quiescing && s.hostHeld.contains (sectorOf k)

/-- Take the write-back of a line from the host while its stack quiesces: it is performed, whatever the STACK bit (spec/01 R40). -/
def takeBack (s : State) (port k : Nat) (data : List Byte) (tracked poison : Bool) : State :=
  let s := backInvalidate s (sectorOf k)
  if tracked then
    let (s, st) := stampAssign s k data (smGet 0 s.host.floors port) 0 0 poison
    modHost s fun h => { h with floors := smSet 0 h.floors port (maxW (smGet 0 h.floors port) (st.getD 0)) }
  else
    let s := putUntracked s k data (smGet 0 s.host.floors port) 0 0
    if poison then setPoison s (sectorOf k) true else s

/-- One host write within a sector (spec/21 R393, R400; spec/01 R25). -/
def hostWrite (s : State) (port addr : Nat) (data : List Byte) (poison : Bool) : State :=
  match keyOfPa s addr with
  | none => s
  | some k =>
    let s := if poison then poisonIn s 4 port k data else s
    if quiesceBack s k then takeBack s port k data (trackedPa s addr) poison
    else if !reachable s k then s
    else
      let sec := sectorOf k
      let s := settle s sec 5
      if trackedPa s addr then
        queueHome s k data { tag := 0, launch := 0, floor := smGet 0 s.host.floors port, op := none, cmd := none,
                             port := some port, line := none, chunk := none, log := none } poison
      else
        let s := putUntracked s k data (smGet 0 s.host.floors port) 0 0
        forwardStash (if poison then setPoison s sec true else s) sec

/-- HOST_MEM_WRITE. -/
def execHostMemWrite (port addr : Nat) (data : List Byte) (poison : Bool) (s : State) :
    Host.Outcome State Fault Refusal :=
  .next <|
    if decide (port < 2) && s.readyIo.getLsbD port &&
        decide (addr % 64 + data.length ≤ 64 ∧ addr + data.length ≤ interleavedEnd s) then
      finish (hostWrite s port addr data poison)
    else s

/-! ### Links -/

/-- Set or clear a bit of READYIO. -/
def setIo (s : State) (i : Nat) (b : Bool) : State := { s with readyIo := setBit s.readyIo i b }

/-- A record of a READY bit's fall (spec/25 R466). -/
def readyFallRec (s : State) (unit idx off bit : Nat) : State := pushErr s ⟨0x06, 1, 0, unit, idx, 0, 0, off, bit⟩

/-- The links of a port: one, or with its strap two (spec/27 R470). -/
def linksOf (s : State) (port : Nat) : List Nat :=
  if (if port = 0 then s.host.bifur0 else s.host.bifur1) then [2 * port, 2 * port + 1] else [2 * port]

/-- Whether every link of a port is up. -/
def linksUp (s : State) (port : Nat) : Bool := (linksOf s port).all fun i => s.host.links.getLsbD i

/-- Note that a link is up or down. -/
def setLink (s : State) (i : Nat) (b : Bool) : State := modHost s fun h => { h with links := setBit h.links i b }

/-- CXL_LINK_UP: a link of a port, numbered as `linksOf` does, trains in 256-byte flits; with the last of its links the port's bit rises
(spec/27 R469, R470). -/
def execCxlLinkUp (link : Nat) (s : State) : Host.Outcome State Fault Refusal :=
  .next <|
    if link < 4 ∧ link ∈ linksOf s (link / 2) ∧ booted s = true ∧ relengReady s = true then
      let s := setLink s link true
      if linksUp s (link / 2) then setIo s (link / 2) true else s
    else s

/-! ### A port that goes down (spec/27 R473) -/

/-- Whether an atomic's request is the one whose uncached write is on its way: of the lanes at one key the last (spec/17 R343). -/
def writeFlying (s : State) (id : Nat) (o : Op) (r : ExtReq) : Bool :=
  (s.homeq.any fun w => w.op == some id && w.key == r.key) && (o.ext.filter fun x => x.key == r.key).getLast? == some r

/-- The requests of a load, store, atomic or reduction that are still in flight on a port, a free choice for each sector; an atomic's or
reduction's only while the line it wrote is there to be lost, and an atomic's for sure while its write is on its way
(notes/assumptions/45.md). A reduction's write on its way reports its own failure. -/
def flying (s : State) (port : Nat) (e : Nat × Op) : List ExtReq :=
  let o := e.2
  let on (r : ExtReq) : Bool := r.link / 2 == port
  let out (r : ExtReq) : Bool := Config.freeBit s.free (2 ^ 97 + sectorOf r.key)
  let line (r : ExtReq) : Bool := s.cxl.any fun l => l.key == sectorOf r.key && l.dirty && l.port == (port == 1)
  o.ext.filter fun r => on r && (match o.kind with
    | .load => out r
    | .store => r.fill.isSome && out r
    | .atomic => writeFlying s e.1 o r || (out r && (r.fill.isSome || line r))
    | .reduction => out r && (r.fill.isSome || line r)
    | _ => false)

/-- A lost request leaves the stash chunk it was to fill unfilled. -/
def dropFill (s : State) (r : ExtReq) : State :=
  match r.fill with
  | some (cid, woff, i) => modCrew s cid fun c => { c with windows := c.windows.map fun w =>
      if w.off = woff then { w with chunks := tbDel w.chunks i } else w }
  | none => s

/-- A late fault with the lane of a lost request added: it carries the key of its lowest lane (spec/25 R457, R486). -/
def lateLane (l : Late) (r : ExtReq) : Late :=
  let lower := !(List.range (r.lane + 1)).any fun j => l.mask.getLsbD j
  { l with mask := l.mask ||| maskOf [r.lane], phys := if lower then r.key else l.phys,
           addrs := if (tbGet l.addrs r.lane).isSome then l.addrs else tbSet l.addrs r.lane r.addr }

/-- The late fault of an operation with the lanes of lost requests added (spec/25 R486). -/
def addLate (o : Op) (id : Nat) (priv : Bool) (bad : List ExtReq) : Option Late :=
  match bad with
  | [] => o.late
  | r :: _ =>
    let l := o.late.getD ⟨id, .dataUncorrectable, o.pc, 0, [], r.key, none, priv⟩
    some { bad.foldl lateLane l with esc := l.esc || priv }

/-- What an operation is left with when requests of it are lost: a reduction's lanes are logged, in another's no destination is written and
the fault is late (spec/27 R473, spec/13 R281, spec/25 R486). -/
def loseOp (o : Op) (id : Nat) (priv : Bool) (bad : List ExtReq) : Op :=
  let gone (l : Nat) : Bool := bad.any fun r => r.lane == l
  match o.kind with
  | .reduction => { o with logs := o.logs ++ (bad.filterMap (·.log)).foldl insertNew [] }
  | _ => { o with late := addLate o id priv bad,
                  dest := { o.dest with v := o.dest.v.filter fun e => !gone (e.1 % 1024), s := [] } }

/-- Requests of an operation complete as uncorrectable errors (spec/27 R473). -/
def loseReqs (s : State) (id : Nat) (o : Op) (bad : List ExtReq) : State :=
  if bad = [] then s
  else
    let priv := match s.team o.team with | some t => t.priv | none => false
    modOp (bad.foldl dropFill s) id fun o => loseOp o id priv bad

/-- The elements of a running copy that wait for a request on a port: their addresses. -/
def copyFlying (s : State) (port : Nat) (c : Cmd) (k : Copy) : List W64 :=
  let n := 2 ^ k.esize
  ((List.range (copyBytes k / n)).filter fun i => !k.done.contains (i * n / 512)).filterMap fun i =>
    let g := elemAddr k (boxIndex k i)
    if k.dir = 2 || !inBounds k (boxIndex k i) then none
    else
      match memElem s c k g (k.dir == 1) with
      | (_, .ok (key, _, _)) =>
        if isCxl key && !cxlHeld s (sectorOf key) && linkOf s key / 2 == port then some g else none
      | (_, .error _) => none

/-- A copy with a request in flight on the port, a free choice, stops with DATA_UNCORRECTABLE at one of them (spec/15 R323). -/
def loseCopy (s : State) (port : Nat) (e : Nat × Cmd) : Nat × Cmd :=
  match e.2.kind with
  | .copy k =>
    if e.2.accepted && e.2.err.isNone && Config.freeBit s.free (2 ^ 98 + e.1) then
      match pickOne s (2 ^ 99 + e.1) ((copyFlying s port e.2 k).map (·.toNat)) with
      | some g => (e.1, { e.2 with err := some (0x10, BitVec.ofNat 64 g) })
      | none => e
    else e
  | _ => e

/-- The requests of the device that are in flight on a port complete as uncorrectable errors. -/
def losePort (s : State) (port : Nat) : State :=
  let s1 := s.ops.foldl (fun u e => loseReqs u e.1 e.2 (flying s port e)) s
  { s1 with cmds := s1.cmds.map (loseCopy s port),
            ops := s1.ops.map fun e => (e.1, { e.2 with ext := e.2.ext.filter fun r => r.link / 2 != port }) }

/-- An uncached write on its way over a link of a port fails (spec/27 R473, spec/25 R451). -/
def loseWrites (s : State) (port : Nat) : State :=
  let mine (w : HomeWrite) : Bool := w.home == linkQueue (2 * port) || w.home == linkQueue (2 * port + 1)
  (s.homeq.filter mine).foldl (fun s w => returnStamp s w none) { s with homeq := s.homeq.filter fun w => !mine w }

/-- A port goes down: its bit falls, its lines are dropped, a dirty one leaves its sector poisoned, its requests and the
writes on their way over it are lost (spec/27 R473). -/
def portDown (s : State) (port : Nat) : State :=
  if s.readyIo.getLsbD port then
    let mine (l : CxlLine) : Bool := l.port == (port == 1)
    let s := loseWrites (losePort s port) port
    let lost := s.cxl.filter fun l => mine l && l.dirty
    let s := { setIo s port false with cxl := s.cxl.filter fun l => !mine l }
    readyFallRec (lost.foldl (fun s l => setPoison s l.key true) s) 4 port 0x128 port
  else s

/-- CXL_LINK_DOWN: with any of its links the port goes down (spec/27 R470, R473). -/
def execCxlLinkDown (link : Nat) (s : State) : Host.Outcome State Fault Refusal :=
  .next <|
    if link < 4 ∧ s.host.links.getLsbD link = true then finish (portDown (setLink s link false) (link / 2)) else s

/-- A Huanen port's bit falls; traffic goes over the ports that remain (spec/27 R480). -/
def huanenDown (s : State) (port : Nat) : State :=
  if s.readyIo.getLsbD (2 + port) then readyFallRec (setIo s (2 + port) false) 5 port 0x128 (2 + port) else s

/-- HUANEN_PORT_FAIL. -/
def execHuanenPortFail (port : Nat) (s : State) : Host.Outcome State Fault Refusal :=
  .next (if port < 16 then finish (huanenDown s port) else s)

/-! ### Peers (spec/27 R479) -/

/-- The physical address of `n` bytes at an offset of the exported window: untracked device HBM below EXPLEN. -/
def exportedPa (s : State) (off n : Nat) : Option Nat :=
  let pa := s.host.expbase + off
  if off + n ≤ s.host.explen && untrackedHbm s pa n then some pa else none

/-- Note the fault code of a refused peer access. -/
def refusePeer (s : State) (code : Nat) : State := modHost s fun h => { h with lastRefused := some code }

/-- Bytes a peer's access touches. -/
def peerBytes (data : List Byte) : PeerOp → Nat
  | .read n => n
  | .write _ => data.length
  | .atomic ty _ | .cas ty _ | .reduction ty _ => atBytes ty

/-- The Huanen port that carries a peer's access at an offset: the ready ports in turn by bits [11:8] of the address (spec/27 R480). -/
def huanenPort (s : State) (off : Nat) : Nat :=
  let up := (List.range 16).filter fun p => s.readyIo.getLsbD (2 + p)
  up.getD (off / 256 % 16 % max 1 up.length) 0

/-- The writer of a peer: tag 0 and no stamp (spec/27 R479). -/
def peerWriter (s : State) (floor : W64) : Writer := { deviceWriter s with floor := floor }

/-- A peer's write of exported bytes; poisoned data poisons the sectors and is recorded (spec/25 R454, R466). -/
def peerWrite (s : State) (off pa : Nat) (data : List Byte) (poison : Bool) : State :=
  let s := writePa s pa data (peerWriter s 0)
  if poison then
    let secs := paSectors s pa data.length
    let s := secs.foldl (fun s x => forwardStash (setPoison s x true) x) s
    poisonIn s 5 (huanenPort s off) ((keyOfPa s pa).getD 0) data
  else s

/-- A peer's read-modify-write of exported bytes, at this device's atomic point (spec/13 R280): the bytes before, or none where they are
uncorrectable. Its tag is the one it read (spec/19 R387). -/
def peerUpdate (s : State) (pa n : Nat) (f : Nat → Option Nat) : State × Option (List Byte) :=
  match readPa s pa n 0 with
  | (s, none) => (s, none)
  | (s, some d) =>
    let tag := match keyOfPa s pa with | some k => tagRead s k n | none => 0
    match f (leNat d) with
    | some x => (writePa s pa (leBytes n x) (peerWriter s tag), some d)
    | none => (s, some d)

/-- What a peer's access answers: the bytes it read or those before its update, none where they are uncorrectable. -/
def peerDo (s : State) (off pa : Nat) (op : PeerOp) (data : List Byte) : State × Option (List Byte) :=
  match op with
  | .read n => readPa s pa n 0
  | .write poison => (peerWrite s off pa data poison, some [])
  | .atomic ty op => peerUpdate s pa (atBytes ty) fun old => some (atomicF ty op old (leNat data))
  | .cas ty expected => peerUpdate s pa (atBytes ty) fun old => if old = expected then some (leNat data) else none
  | .reduction ty op =>
    match peerUpdate s pa (atBytes ty) fun old => some (atomicF ty op old (leNat data)) with
    | (s, some _) => (s, some [])
    | r => r

/-- PEER_ACCESS: a read, write, atomic or reduction of exported bytes; `data` is what the request carries, the bytes to write or the operand
of an update (spec/27 R479, spec/13 R280). -/
def execPeerAccess (off : Nat) (op : PeerOp) (data : List Byte) (s : State) : Host.Outcome State Fault Refusal :=
  .next <|
    if !(List.range 16).any fun p => s.readyIo.getLsbD (2 + p) then s
    else
      match exportedPa s off (peerBytes data op) with
      | none => refusePeer s 0x05
      | some pa =>
        if !paUsable s pa (peerBytes data op) then refusePeer s 0x10
        else
          match peerDo s off pa op data with
          | (s, none) => finish (refusePeer s 0x10)
          | (s, some d) => finish (answerHost s d.length (some d))

/-! ### SPDM (spec/27 R482) -/

/-- The answer to an SPDM request: the chain and the measurements are those of this device and its image, a challenge is answered by a
signature of its own (notes/assumptions/9.md). -/
def spdmAnswer (s : State) : Spdm → List Byte
  | .certificates => Config.spdmChain
  | .challenge => Config.spdmSignature s.free
  | .measurements => Config.spdmMeasurements (match s.host.image with | some i => i.id | none => 0)

/-- SPDM_REQUEST: the answer is appended to those given. -/
def execSpdmRequest (what : Spdm) (s : State) : Host.Outcome State Fault Refusal :=
  .next (if s.host.pwrgd && s.host.resetN then
      modHost s fun h => { h with spdm := h.spdm ++ [spdmAnswer s what] } else s)

/-! ### Boot and pins (spec/27 R481, R483) -/

/-- Whether the device is held in reset: RESET_N low, no power, or after a thermal trip (spec/27 R483). -/
def inReset (s : State) : Bool := !s.host.resetN || s.host.thermtrip || !s.host.pwrgd

/-- Whether the boot ROM accepts an image: signed with the key whose hash the fuses hold, its security version not below the fused
minimum (spec/27 R481). -/
def imageGood (i : Image) : Bool := i.signed && i.keyHash == Config.fuseKeyHash && decide (Config.fuseMinSvn ≤ i.svn)

/-- Memory that is not the device's: the host's and the peers'. -/
def outsideMem (m : List Host.Cell) : List Host.Cell :=
  m.filter fun c => isCxl c.1 || decide (2 ^ 60 ≤ c.1 ∧ c.1 < 2 ^ 64)

/-- The device after a reset: everything at its reset value but LEESCFG, the sequence of generation ids (spec/13 R296), the pins, and
memory outside the device. -/
def resetState (s : State) : State :=
  { State.reset with
    mem := outsideMem s.mem, leesNext := s.leesNext, leesMode := s.leesMode, nextGen := s.nextGen,
    host := { HostLink.zero with pwrgd := s.host.pwrgd, thermtrip := s.host.thermtrip },
    agenda := s.agenda, cycle := s.cycle, free := s.free, nextId := s.nextId }

/-- RESET_RELEASE: the device leaves reset, straps are sampled, the image found is verified, and with FWOK it runs and the lees mode is
applied (spec/27 R470, R481, R483; spec/01 R28). -/
def execResetRelease (bifur0 bifur1 : Bool) (image : Image) (s : State) : Host.Outcome State Fault Refusal :=
  .next <|
    if s.host.pwrgd && !s.host.resetN && !s.host.thermtrip then
      let ok := imageGood image
      let s := modHost (resetState s) fun h => { h with
        resetN := true, bifur0 := bifur0, bifur1 := bifur1, image := some image, fwok := ok, fwbad := !ok,
        svn := if ok then image.svn % 2 ^ 16 else 0, fwver := if ok then image.fwver % 2 ^ 32 else 0 }
      if ok then { s with leesMode := s.leesNext.toNat } else s
    else s

/-- RESET_N_ASSERTION: without PWRGD the pin has no effect. -/
def execResetNAssertion (s : State) : Host.Outcome State Fault Refusal :=
  .next (if s.host.pwrgd then resetState s else s)

/-- POWER_GOOD. -/
def execPowerGood (s : State) : Host.Outcome State Fault Refusal := .next (modHost s fun h => { h with pwrgd := true })

/-- LOSS_OF_POWER: LEESCFG survives (spec/01 R28). -/
def execLossOfPower (s : State) : Host.Outcome State Fault Refusal :=
  .next (modHost (resetState s) fun h => { h with pwrgd := false, thermtrip := false })

/-- THERMAL_TRIP: THERMTRIP_N is driven low and the device holds itself in reset. -/
def execThermalTrip (s : State) : Host.Outcome State Fault Refusal :=
  .next (modHost (resetState s) fun h => { h with thermtrip := true })

/-! ### READY bits (spec/01 R20-R26, spec/27 R484) -/

/-- Whether a stack is neither quiesced nor asked to quiesce. -/
def inService (s : State) (n : Nat) : Bool := !(s.stack n).qreq && !(s.stack n).quiescing && !(s.stack n).qack

/-- Whether a function's bit may rise now. -/
def mayRise (s : State) (f : Ready) : Bool :=
  booted s && (match f with
    | .releng => true
    | .core n => relengReady s && decide (n < 256) && !(s.core n).failed
    | .group n g => relengReady s && decide (n < 12 ∧ g < 4) && inService s n
    | .stack n => relengReady s && decide (n < 12) && inService s n && (List.range 4).all fun g => s.readyGroup.getLsbD (4 * n + g)
    | .kiln => relengReady s
    | .cp => relengReady s && portUp s
    | .huanen p => relengReady s && decide (p < 16)
    | .cxl x => relengReady s && decide (x < 2) && linksUp s x)

/-- Set or clear a function's bit. -/
def setReady (s : State) (f : Ready) (b : Bool) : State :=
  match f with
  | .releng => setIo s 20 b
  | .core n => { s with readyCore := setBit s.readyCore n b }
  | .group n g => { s with readyGroup := setBit s.readyGroup (4 * n + g) b }
  | .stack n => { s with readyStack := setBit s.readyStack n b }
  | .kiln => setIo s 19 b
  | .cp => setIo s 18 b
  | .huanen p => setIo s (2 + p) b
  | .cxl x => setIo s x b

/-- FUNCTION_READY. -/
def execFunctionReady (f : Ready) (s : State) : Host.Outcome State Fault Refusal :=
  .next (if mayRise s f then setReady s f true else s)

/-- A stack's bit falls, with its record. -/
def stackFalls (s : State) (n : Nat) : State :=
  if stackReady s n then readyFallRec (setReady s (.stack n) false) 2 (64 * n) 0x120 n else s

/-- A bit of an I/O-die function falls. -/
def ioFalls (s : State) (i : Nat) : State :=
  if s.readyIo.getLsbD i then readyFallRec (setIo s i false) 3 0 0x128 i else s

/-- RELENG's bit falls: its own record is written first, since without the engine none is (spec/01 R26, spec/25 R466). -/
def relengFalls (s : State) : State :=
  if relengReady s then setIo (finish (readyFallRec s 3 0 0x128 20)) 20 false else s

/-- A CXL port's bit falls: its links are down (spec/27 R470, R473). -/
def cxlFalls (s : State) (port : Nat) : State := portDown (setLink (setLink s (2 * port) false) (2 * port + 1) false) port

/-- READY_FALL outside a quiesce; a stack's bit falls with any of its groups' (spec/01 R23, R26). -/
def execReadyFall (f : Ready) (s : State) : Host.Outcome State Fault Refusal :=
  .next <| finish <| match f with
    | .releng => relengFalls s
    | .kiln => ioFalls s 19
    | .cp => ioFalls s 18
    | .core n => if n < 256 then coreFalls s n else s
    | .group n g =>
      if n < 12 ∧ g < 4 ∧ s.readyGroup.getLsbD (4 * n + g) = true then
        stackFalls (readyFallRec (setReady s (.group n g) false) 2 (64 * n) 0x120 (12 + 4 * n + g)) n
      else s
    | .stack n => if n < 12 then stackFalls s n else s
    | .huanen p => if p < 16 then huanenDown s p else s
    | .cxl x => if x < 2 then cxlFalls s x else s

end Sys2Proof.Machine
end

