-- ==== Sys2Proof/Machine/Bar.lean ====
section
/-! DEFINITION. The management register block (spec/01 R19, spec/27 R475): the write of any register, and what each reads. -/

namespace Sys2Proof.Machine

/-! ### Writes -/

/-- A write of LEESCFG; 5 to 7 are ignored (spec/01 R28). -/
def writeLeescfg (s : State) (v : W64) : State :=
  if v.toNat % 8 ≤ 4 then { s with leesNext := BitVec.ofNat 3 v.toNat } else s

/-- LEESCFG_WRITE. -/
def execLeescfgWrite (v : W64) (s : State) : Host.Outcome State Fault Refusal := .next (writeLeescfg s v)

/-- A write of KILNCMD starts its operation (spec/21 R409). -/
def writeKilncmd (s : State) (v : W64) : State :=
  let addr := bitsOf v.toNat 6 46 * 64
  let s := match bitsOf v.toNat 0 2 with
    | 0 => abortCmd s
    | 1 => drainCmd addr s
    | 2 => restoreCmd addr s
    | _ => releaseCmd addr s
  { s with kilncmd := BitVec.ofNat 64 (addr + bitsOf v.toNat 0 2) }

/-- A write of STAMPCTL (spec/21 R395). -/
def writeStampctl (s : State) (v : W64) : State :=
  let x := v.toNat
  let s := { s with rbRefuse := s.rbRefuse && bitsOf x 2 1 == 0, rbDone := s.rbDone && bitsOf x 1 1 == 0 }
  if bitsOf x 0 1 = 1 then rebaseRequest s else s

/-- A write of PARKCMD (spec/25 R462, R463): CORE, SLOT and CTX are replaced, whatever becomes of the operation (spec/00 R8); an OP that names no
operation starts none. -/
def writeParkcmd (s : State) (v : W64) : State :=
  let x := v.toNat
  let core := bitsOf x 48 8
  let slot := bitsOf x 40 5
  let ctx := bitsOf x 32 7
  let s := parkTeam s core slot ctx s.err.parkRef
  match bitsOf x 0 3 with
  | 1 => parkCommand s core slot ctx 1
  | 2 => parkCommand s core slot ctx 2
  | 3 => parkCommand s core slot ctx 3
  | 4 => contextResume s ctx
  | 5 => contextKill s ctx
  | _ => s

/-- A write of the error engine's registers (spec/25 R463, R464). -/
def writeErrReg (s : State) (off : Nat) (v : W64) : State :=
  let x := v.toNat
  match off with
  | 0x300 => if s.err.en then s else modErr s fun e => { e with base := bitsOf x 12 40 * 4096 }
  | 0x308 => writeErrctl s v
  | 0x310 => writeErrhead s v
  | 0x320 => modErr s fun e => { e with overflow := e.overflow && bitsOf x 63 1 == 0, headbad := e.headbad && bitsOf x 62 1 == 0 }
  | 0x340 => writeParkcmd s v
  | _ => s

/-- A write of the host's registers; all but FRAMECMD ignore it while a context exists (spec/27 R476). -/
def writeHostReg (s : State) (off : Nat) (v : W64) : State :=
  let x := v.toNat
  if off = 0x408 then writeFramecmd s v
  else if anyContext s then s
  else if off = 0x400 then modHost s fun h => { h with hostlim := bitsOf x 16 34 * 65536 }
  else if off = 0x410 then modHost s fun h => { h with expbase := bitsOf x 16 36 * 65536 }
  else if off = 0x418 then modHost s fun h => { h with explen := bitsOf x 16 31 * 65536 }
  else if off = 0x420 then
    modHost s fun h => { h with huanenid := BitVec.ofNat 64 (bitsOf x 16 9 * 65536 + bitsOf x 0 9) }
  else if 0x440 ≤ off ∧ off < 0x480 then
    let lo := 2 ^ ((off - 0x440) * 8)
    let old := s.host.peermap.toNat
    let m := BitVec.ofNat 512 (old / (lo * 2 ^ 64) * (lo * 2 ^ 64) + x * lo + old % lo)
    modHost s fun h => { h with peermap := m }
  else s

/-- A write of a stack's registers (spec/01 R36, R37). QREQ written to 1 again after it was withdrawn and before QACK is taken as a new
request, which cancels the return; R37 says only that the device then returns to service, so this is a design choice
(notes/assumptions/43.md). -/
def writeStackReg (s : State) (n r : Nat) (v : W64) : State :=
  let x := v.toNat
  let k := s.stack n
  if r = 0 then
    (if bitsOf x 0 1 = 1 then (if k.qreq || k.qack then s else quiesceRequest s n)
     else if k.qreq then returnRequest s n else s)
  else if r = 1 then
    s.modStack n fun k => { k with qrefuse := k.qrefuse && bitsOf x 3 1 == 0, hbad := k.hbad && bitsOf x 2 1 == 0,
                                   wdrop := k.wdrop && bitsOf x 1 1 == 0 }
  else if r ≤ 6 then writeMask s n (r - 2) v
  else s

/-- A write of a queue's registers (spec/23 R426, R427). -/
def writeQueueReg (s : State) (q r : Nat) (v : W64) : State :=
  let x := v.toNat
  match r with
  | 0 => if (s.queue q).en then s else modQueue s q fun k => { k with base := bitsOf x 8 44 * 256 }
  | 1 => writeQctl s q v
  | 2 => if (s.queue q).en then s else modQueue s q fun k => { k with ctxAddr := bitsOf x 7 45 * 128 }
  | _ => writeQdoor s q v

/-- The watchpoint a WATCH value names (spec/23 R446). -/
def watchOf (x : Nat) : Watch :=
  ⟨bitsOf x 63 1 == 1, bitsOf x 62 1 == 1, bitsOf x 61 1 == 1, bitsOf x 48 8, bitsOf x 40 5, bitsOf x 0 20⟩

/-- A write of DBGCMD: other values are ignored. -/
def writeDbgcmd (s : State) (core : Nat) (v : W64) : State :=
  match bitsOf v.toNat 0 3 with
  | 1 => dbgHalt s core
  | 2 => dbgResume s core
  | 3 => dbgStep s core .instruction
  | 4 => dbgStep s core .clause
  | _ => s

/-- A write of a debug block's registers (spec/23 R446). -/
def writeDbgReg (s : State) (core r : Nat) (v : W64) : State :=
  let x := v.toNat
  if r = 0 then
    modCore s core fun c => { c with attach := bitsOf x 63 1 == 1, haltbrk := bitsOf x 62 1 == 1, dctx := bitsOf x 16 7,
                                     dslot := bitsOf x 0 5 }
  else if r = 1 then writeDbgcmd s core v
  else if r = 2 then modCore s core fun c => { c with ovr := c.ovr && bitsOf x 62 1 == 0 }
  else if 4 ≤ r ∧ r < 8 then modCore s core fun c => { c with watches := tbSet c.watches (r - 4) (watchOf x) }
  else if r = 10 then
    modCore s core fun c => { c with rsel := BitVec.ofNat 64 (bitsOf x 61 2 * 2 ^ 61 + bitsOf x 48 11 * 2 ^ 48 + bitsOf x 0 15) }
  else s

/-- A 64-bit write at an aligned offset of the block; a write of a read-only register, or where no register lies, changes nothing. -/
def writeReg (s : State) (off : Nat) (v : W64) : State :=
  if off = 0x200 then writeKilncmd s v
  else if off = 0x210 then writeStampctl s v
  else if off = 0x218 then writeLeescfg s v
  else if 0x300 ≤ off ∧ off < 0x400 then writeErrReg s off v
  else if 0x400 ≤ off ∧ off < 0x1000 then writeHostReg s off v
  else if 0x1000 ≤ off ∧ off < 0x1300 then writeStackReg s ((off - 0x1000) / 0x40) ((off - 0x1000) % 0x40 / 8) v
  else if 0x4000 ≤ off ∧ off < 0x5000 then writeQueueReg s ((off - 0x4000) / 0x20) ((off - 0x4000) % 0x20 / 8) v
  else if 0x8000 ≤ off ∧ off < 0x10000 then writeDbgReg s ((off - 0x8000) / 0x80) ((off - 0x8000) % 0x80 / 8) v
  else s

/-- REGISTER_WRITE: an access of another width, or one not aligned, writes nothing (spec/01 R19), and before the release of RESET_N the
block is not brought up (spec/27 R481). -/
def execRegisterWrite (off bits : Nat) (v : W64) (s : State) : Host.Outcome State Fault Refusal :=
  .next (if inReset s = false ∧ bits = 64 ∧ off % 8 = 0 then finish (writeReg s off v) else s)

/-! ### Reads -/

/-- A flag at a bit. -/
def flagAt (b : Bool) (i : Nat) : Nat := if b then 2 ^ i else 0

/-- KILNSTAT (spec/21 R410). -/
def readKilnstat (s : State) : Nat := flagAt s.kiln.isSome 63 + s.kilnStatus * 2 ^ 48 + s.kilnBytes % 2 ^ 48

/-- The error engine's registers. -/
def readErrReg (s : State) (off : Nat) : Nat :=
  let e := s.err
  match off with
  | 0x300 => e.base
  | 0x308 => flagAt e.en 63 + flagAt e.ie 62 + e.log2n
  | 0x310 => e.head
  | 0x318 => e.tail
  | 0x320 => flagAt e.overflow 63 + flagAt e.headbad 62 + e.dropped
  | 0x328 => e.treplay
  | 0x330 => e.hbmce
  | 0x338 => e.sramce
  | 0x340 => flagAt e.parkRef 63 + e.park.toNat
  | _ => 0

/-- The host's registers; SVN and FWVER are those of the image that runs (spec/27 R481). -/
def readHostReg (s : State) (off : Nat) : Nat :=
  let h := s.host
  if off = 0x400 then h.hostlim
  else if off = 0x408 then flagAt h.frameRun.isSome 63 + flagAt h.frameRef 62 + h.frameGran + flagAt h.frameT 1
  else if off = 0x410 then h.expbase
  else if off = 0x418 then h.explen
  else if off = 0x420 then h.huanenid.toNat
  else if 0x440 ≤ off ∧ off < 0x480 then bitsOf h.peermap.toNat ((off - 0x440) * 8) 64
  else if off = 0x480 then
    flagAt h.fwok 63 + flagAt h.fwbad 62 + h.svn * 2 ^ 32 + h.fwver
  else 0

/-- A stack's registers. -/
def readStackReg (s : State) (n r : Nat) : Nat :=
  let k := s.stack n
  if r = 0 then flagAt k.qreq 0
  else if r = 1 then
    k.rate * 2 ^ 8 + flagAt k.degr 7 + s.leesMode * 2 ^ 4 + flagAt k.qrefuse 3 + flagAt k.hbad 2 + flagAt k.wdrop 1 +
      flagAt k.qack 0
  else if r ≤ 6 then (k.masks.getD (r - 2) 0).toNat
  else 0

/-- A queue's registers. -/
def readQueueReg (s : State) (q r : Nat) : Nat :=
  let k := s.queue q
  match r with
  | 0 => k.base
  | 1 => flagAt k.en 63 + flagAt k.susp 62 + flagAt k.torn 61 + flagAt k.bad 60 + k.ctxidx * 2 ^ 16 + k.cls * 2 ^ 8 + k.log2n
  | 2 => k.ctxAddr
  | _ => k.head * 2 ^ 32 + k.tail

/-- The halted team at SLOT (spec/23 R446). -/
def haltedTeam (s : State) (core : Nat) : Option Team :=
  match teamAt s core (s.core core).dslot with
  | some (_, t) => if isHalted s t then some t else none
  | none => none

/-- The team DBGRDATA reads: the halted team at SLOT, or a parked one of the attached context (spec/23 R446, spec/25 R462). -/
def readableTeam (s : State) (core : Nat) : Option Team :=
  match haltedTeam s core, dbgTeam s core with
  | some t, _ => some t
  | none, some (_, t) => if t.parked.isSome then some t else none
  | none, none => none

/-- DBGRDATA. -/
def readDbgData (s : State) (core : Nat) : Nat :=
  match readableTeam s core with
  | none => 0
  | some t =>
    let x := (s.core core).rsel.toNat
    let r := bitsOf x 48 11
    let i := bitsOf x 0 15
    match bitsOf x 61 2 with
    | 0 => if r < t.nregs ∧ i < t.lanes then (vget t r i).toNat else 0
    | 1 => if r < 128 then (sget t r).toNat else 0
    | 2 => if r < 16 then (kget t r).toNat / 2 ^ (32 * (i % 32)) % 2 ^ 32 else 0
    | _ => if r < 8 ∧ i < 48 then (smGet 0 t.q (r * 48 + i)).toNat else 0

/-- A debug block's registers. -/
def readDbgReg (s : State) (core r : Nat) : Nat :=
  let c := s.core core
  let halted := haltedTeam s core
  if r = 0 then flagAt c.attach 63 + flagAt c.haltbrk 62 + c.dctx * 2 ^ 16 + c.dslot
  else if r = 2 then
    flagAt halted.isSome 63 + flagAt c.ovr 62 +
      flagAt (match teamAt s core c.dslot with | some (_, t) => t.ctx == c.dctx | none => false) 61 + c.mail.length * 2 ^ 48
  else if r = 3 then (match halted with | some t => t.pc.toNat | none => 0)
  else if 4 ≤ r ∧ r < 8 then
    (match tbGet c.watches (r - 4) with
     | some w => flagAt w.en 63 + flagAt w.rd 62 + flagAt w.wr 61 + w.lenm1 * 2 ^ 48 + w.tslot * 2 ^ 40 + w.offset
     | none => 0)
  else if r = 8 then (match c.mail with | m :: _ => m.tag * 2 ^ 56 + m.ctx * 2 ^ 16 + m.slot | [] => 0)
  else if r = 9 then (match c.mail with | m :: _ => m.data.toNat | [] => 0)
  else if r = 10 then c.rsel.toNat
  else if r = 11 then readDbgData s core
  else 0

/-- What a register of the block holds; a read of MBPOP also takes the entry it returns, which is MBPOP_READ. -/
def regRead (s : State) (off : Nat) : W64 :=
  BitVec.ofNat 64 <|
    if 0x100 ≤ off ∧ off < 0x120 then bitsOf s.readyCore.toNat ((off - 0x100) * 8) 64
    else if off = 0x120 then s.readyStack.toNat + s.readyGroup.toNat * 2 ^ 12
    else if off = 0x128 then s.readyIo.toNat
    else if off = 0x200 then s.kilncmd.toNat
    else if off = 0x208 then readKilnstat s
    else if off = 0x210 then flagAt s.stampLow 63 + flagAt s.rbRefuse 2 + flagAt s.rbDone 1 + flagAt s.rebasing 0
    else if off = 0x218 then s.leesNext.toNat
    else if 0x300 ≤ off ∧ off < 0x400 then readErrReg s off
    else if 0x400 ≤ off ∧ off < 0x1000 then readHostReg s off
    else if 0x1000 ≤ off ∧ off < 0x1300 then readStackReg s ((off - 0x1000) / 0x40) ((off - 0x1000) % 0x40 / 8)
    else if 0x4000 ≤ off ∧ off < 0x5000 then readQueueReg s ((off - 0x4000) / 0x20) ((off - 0x4000) % 0x20 / 8)
    else if 0x8000 ≤ off ∧ off < 0x10000 then readDbgReg s ((off - 0x8000) / 0x80) ((off - 0x8000) % 0x80 / 8)
    else 0

/-- What a read of the block returns: 0 for one of another width than 64 bits, or not aligned (spec/01 R19). -/
def busRead (s : State) (off bits : Nat) : W64 := if bits = 64 ∧ off % 8 = 0 then regRead s off else 0

end Sys2Proof.Machine
end

