-- ==== Sys2Proof/Machine/VecFloat.lean ====
section
/-! DEFINITION. The vector floating-point instructions (spec/11 R237-R246). -/

namespace Sys2Proof.Machine

open Fp (Res Fmt)

/-- A value and the exceptions it raised. -/
abbrev FVal := Nat × BitVec 5

/-- A result as a value with its exceptions. -/
def ofRes (r : Res) : FVal := (r.bits, r.ex)

/-- Apply f to the value of a type, or to each half of a packed one (spec/11 R237). -/
def perHalf (ty : Ty) (f : Nat → Nat → FVal) (x y : Nat) : FVal :=
  if ty.isPacked then
    let lo := f (x % 65536) (y % 65536)
    let hi := f (x / 65536 % 65536) (y / 65536 % 65536)
    (lo.1 + 65536 * hi.1, lo.2 ||| hi.2)
  else f x y

/-- The writes and exceptions of an instruction's active lanes, each giving a value of type `ty` to V[D]. -/
def fpWrites (r : Team) (k d : Nat) (ty : Ty) (f : Nat → FVal) : List Wr × BitVec 5 :=
  let vs := (active r k).map fun l => (l, f l)
  (vs.flatMap fun v => wrT ty d v.1 v.2.1, unionEx (vs.map fun v => v.2.2))

/-- A short-latency floating-point instruction: V[D] in the active lanes, FPFLAGS merged (spec/11 R231, spec/05 R112). -/
def fpOp (i : Instr) (k d : Nat) (ty : Ty) (f : Team → Nat → FVal) (s : State) : Host.Outcome State Fault Refusal :=
  issue i s fun r _ tid s =>
    let w := fpWrites r k d ty (f r)
    .go (modTeam (writeRegs s tid w.1) tid fun t => mergeFp t w.2)

/-- f(x, y) of two operands of the type. -/
def fpBin (o : VBin) (f : Fmt → Nat → Nat → FVal) (r : Team) (l : Nat) : FVal :=
  perHalf o.ty (f (Fp.fmtOf o.ty)) (vgetT r o.ty o.a l) (vectorY r o.ty l o.b)

/-- f(x) of one operand of the type. -/
def fpUn (o : VUn) (f : Fmt → Nat → FVal) (r : Team) (l : Nat) : FVal :=
  perHalf o.ty (fun x _ => f (Fp.fmtOf o.ty) x) (vgetT r o.ty o.a l) 0

/-- VFADD (spec/11 R238). -/
def execVfadd (o : VBin) (rm : Rm) (s : State) : Host.Outcome State Fault Refusal :=
  fpOp (.vfadd o rm) o.k o.d o.ty (fpBin o fun F x y => ofRes (Fp.fAdd F rm x y)) s

/-- VFSUB (spec/11 R238). -/
def execVfsub (o : VBin) (rm : Rm) (s : State) : Host.Outcome State Fault Refusal :=
  fpOp (.vfsub o rm) o.k o.d o.ty (fpBin o fun F x y => ofRes (Fp.fSub F rm x y)) s

/-- VFMUL (spec/11 R238). -/
def execVfmul (o : VBin) (rm : Rm) (s : State) : Host.Outcome State Fault Refusal :=
  fpOp (.vfmul o rm) o.k o.d o.ty (fpBin o fun F x y => ofRes (Fp.fMul F rm x y)) s

/-- The fused multiply-add of one element, by halves of a packed type. -/
def fmaElem (ty : Ty) (rm : Rm) (x y z : Nat) : FVal :=
  let f (x y z : Nat) : FVal := ofRes (Fp.fFma (Fp.fmtOf ty) rm x y z)
  if ty.isPacked then
    let lo := f (x % 65536) (y % 65536) (z % 65536)
    let hi := f (x / 65536 % 65536) (y / 65536 % 65536) (z / 65536 % 65536)
    (lo.1 + 65536 * hi.1, lo.2 ||| hi.2)
  else f x y z

/-- VFMA (spec/11 R238), rounded by FPMODE. -/
def execVfma (o : V3) (s : State) : Host.Outcome State Fault Refusal :=
  fpOp (.vfma o) o.k o.d o.ty (fun r l =>
    fmaElem o.ty (rmOf r.fpmode) (vgetT r o.ty o.a l) (vgetT r o.ty o.b l) (vgetT r o.ty o.c l)) s

/-- The destination of a long-latency operation that writes these elements of V. -/
def vDest (ws : List Wr) : Dest :=
  { v := ws.foldl (fun m w => match w with | .v r l x => tbSet m (vkey r l) x | _ => m) [], s := [], c := [] }

/-- VFDIV and VFSQRT: a long-latency operation that writes its destination and merges its flags at completion; with a zero
mask it completes at once (spec/11 R238, spec/07 R147). -/
def longArith (i : Instr) (k d : Nat) (ty : Ty) (f : Team → Nat → FVal) (s : State) :
    Host.Outcome State Fault Refusal :=
  issue i s fun r t tid s =>
    if active r k = [] then .go s
    else
      let w := fpWrites r k d ty (f r)
      .go (launchOp s tid { newOp t tid i (vDest w.1) .arith with ex := w.2 })

/-- VFDIV (spec/11 R238). -/
def execVfdiv (o : VBin) (fs : Nat) (rm : Rm) (s : State) : Host.Outcome State Fault Refusal :=
  longArith (.vfdiv o fs rm) o.k o.d o.ty (fpBin o fun F x y => ofRes (Fp.fDiv F rm x y)) s

/-- VFSQRT (spec/11 R238). -/
def execVfsqrt (o : VUn) (fs : Nat) (rm : Rm) (s : State) : Host.Outcome State Fault Refusal :=
  longArith (.vfsqrt o fs rm) o.k o.d o.ty (fpUn o fun F x => ofRes (Fp.fSqrt F rm x)) s

/-- VFRSQS (spec/11 R246, spec/05 R136). -/
def execVfrsqs (o : VUn) (s : State) : Host.Outcome State Fault Refusal :=
  fpOp (.vfrsqs o) o.k o.d o.ty (fpUn o fun F x => ofRes (Fp.rsqSeed F x)) s

/-- VFRCPS (spec/11 R246, spec/05 R137). -/
def execVfrcps (o : VUn) (s : State) : Host.Outcome State Fault Refusal :=
  fpOp (.vfrcps o) o.k o.d o.ty (fpUn o fun F x => ofRes (Fp.rcpSeed F x)) s

/-- VFMIN (spec/11 R239). -/
def execVfmin (o : VBin) (num : Bool) (s : State) : Host.Outcome State Fault Refusal :=
  fpOp (.vfmin o num) o.k o.d o.ty (fpBin o fun F x y => ofRes (Fp.fMinMax F false num x y)) s

/-- VFMAX (spec/11 R239). -/
def execVfmax (o : VBin) (num : Bool) (s : State) : Host.Outcome State Fault Refusal :=
  fpOp (.vfmax o num) o.k o.d o.ty (fpBin o fun F x y => ofRes (Fp.fMinMax F true num x y)) s

/-- VFABS (spec/11 R245). -/
def execVfabs (o : VUn) (s : State) : Host.Outcome State Fault Refusal :=
  fpOp (.vfabs o) o.k o.d o.ty (fpUn o fun F x => (Fp.fAbs F x, 0)) s

/-- VFNEG (spec/11 R245). -/
def execVfneg (o : VUn) (s : State) : Host.Outcome State Fault Refusal :=
  fpOp (.vfneg o) o.k o.d o.ty (fpUn o fun F x => (Fp.fNeg F x, 0)) s

/-- VFCMP (spec/11 R240). -/
def execVfcmp (o : VBin) (rel : Rel) (u sig half : Bool) (s : State) : Host.Outcome State Fault Refusal :=
  issue (.vfcmp o rel u sig half) s fun r _ tid s =>
    let act := active r o.k
    if act = [] then .go s
    else
      let pick (x : Nat) : Nat := if o.ty.isPacked then (if half then x / 65536 % 65536 else x % 65536) else x
      let vs := act.map fun l =>
        (l, Fp.fCmp (Fp.fmtOf o.ty) rel u sig (pick (vgetT r o.ty o.a l)) (pick (vectorY r o.ty l o.b)))
      let hit := (vs.filter fun v => v.2.1).map (·.1)
      let s := writeRegs s tid [.k o.d (maskInto (kget r o.d) act hit)]
      .go (modTeam s tid fun t => mergeFp t (unionEx (vs.map fun v => v.2.2)))

/-- VFCLASS (spec/11 R241). -/
def execVfclass (o : VUn) (s : State) : Host.Outcome State Fault Refusal :=
  fpOp (.vfclass o) o.k o.d .b32 (fpUn o fun F x => (Fp.fClass F x, 0)) s

/-- VFRND (spec/11 R242). -/
def execVfrnd (o : VUn) (rm : Rm) (exact : Bool) (s : State) : Host.Outcome State Fault Refusal :=
  fpOp (.vfrnd o rm exact) o.k o.d o.ty (fpUn o fun F x => ofRes (Fp.fRnd F rm exact x)) s

/-- VFSCALE (spec/11 R226, R242). -/
def execVfscale (o : VBin) (rm : Rm) (s : State) : Host.Outcome State Fault Refusal :=
  fpOp (.vfscale o rm) o.k o.d o.ty (fun r l =>
    let n := toSigned 32 (vectorY1 r l o.b)
    perHalf o.ty (fun x _ => ofRes (Fp.fScale (Fp.fmtOf o.ty) rm x n)) (vgetT r o.ty o.a l) 0) s

/-- VFEXP2 (spec/11 R243). -/
def execVfexp2 (o : VUn) (s : State) : Host.Outcome State Fault Refusal :=
  fpOp (.vfexp2 o) o.k o.d o.ty (fpUn o fun F x => ofRes (Fp.fExp2 F x)) s

/-- VFLOG2 (spec/11 R243). -/
def execVflog2 (o : VUn) (s : State) : Host.Outcome State Fault Refusal :=
  fpOp (.vflog2 o) o.k o.d o.ty (fpUn o fun F x => ofRes (Fp.fLog2 F x)) s

/-- VFGETEXP (spec/11 R244). -/
def execVfgetexp (o : VUn) (s : State) : Host.Outcome State Fault Refusal :=
  fpOp (.vfgetexp o) o.k o.d o.ty (fpUn o fun F x => ofRes (Fp.fGetExp F x)) s

/-- VFGETMAN (spec/11 R244). -/
def execVfgetman (o : VUn) (s : State) : Host.Outcome State Fault Refusal :=
  fpOp (.vfgetman o) o.k o.d o.ty (fpUn o fun F x => ofRes (Fp.fGetMan F x)) s

/-- VFCOPYSIGN (spec/11 R245). -/
def execVfcopysign (o : VBin) (mode : CsMode) (s : State) : Host.Outcome State Fault Refusal :=
  fpOp (.vfcopysign o mode) o.k o.d o.ty (fpBin o fun F x y => (Fp.fCopySign F mode x y, 0)) s

end Sys2Proof.Machine
end

