-- ==== Sys2Proof/Machine/Convert.lean ====
section
/-! DEFINITION. Conversion (spec/11 R247-R249) and permute and prefix instructions but VAPND (R250-R255). -/

namespace Sys2Proof.Machine

/-- VCVT of one source pattern (spec/11 R247; spec/05 R115, R116). -/
def cvtElem (dst src : Ty) (rm : Rm) (v : Nat) : FVal :=
  match src.isFloat, dst.isFloat with
  | true, true => ofRes (Fp.cvtFF (Fp.fmtOf src) (Fp.fmtOf dst) rm v)
  | true, false =>
    let (n, ex) := Fp.cvtFI (Fp.fmtOf src) dst.isSigned (tyWidth dst) rm v
    (ofInt (tyWidth dst) n, ex)
  | false, _ => ofRes (Fp.cvtIF (Fp.fmtOf dst) rm (toVal src.isSigned (tyWidth src) v))

/-- VCVT (spec/11 R247): a packed source is read in bits [15:0], a packed result fills them. -/
def execVcvt (k d a : Nat) (dst src : Ty) (rm : Rm) (s : State) : Host.Outcome State Fault Refusal :=
  fpOp (.vcvt k d a dst src rm) k d dst (fun r l => cvtElem dst src rm (vecX r src a l)) s

/-- VPACK of one lane (spec/11 R248). -/
def packElem (ty : Ty) (rm : Rm) (x y : Nat) : FVal :=
  if ty.isFloat then
    let a := Fp.cvtFF Fp.f32 (Fp.fmtOf ty) rm x
    let b := Fp.cvtFF Fp.f32 (Fp.fmtOf ty) rm y
    (a.bits + 65536 * b.bits, a.ex ||| b.ex)
  else
    let sg := ty.isSigned
    (clampW sg 16 (toVal sg 32 x) + 65536 * clampW sg 16 (toVal sg 32 y), 0)

/-- VPACK (spec/11 R248). -/
def execVpack (o : VBin) (rm : Rm) (s : State) : Host.Outcome State Fault Refusal :=
  fpOp (.vpack o rm) o.k o.d .b32 (fun r l => packElem o.ty rm (vget r o.a l).toNat (vectorY1 r l o.b)) s

/-- VUNPK of one element (spec/11 R248). -/
def unpkElem (ty : Ty) (half : Bool) (x : Nat) : FVal :=
  let h := if half then x / 65536 % 65536 else x % 65536
  if ty.isFloat then ofRes (Fp.cvtFF (Fp.fmtOf ty) Fp.f32 .rne h)
  else (ofInt 32 (toVal ty.isSigned 16 h), 0)

/-- VUNPK (spec/11 R248). -/
def execVunpk (o : VUn) (half : Bool) (s : State) : Host.Outcome State Fault Refusal :=
  fpOp (.vunpk o half) o.k o.d .b32 (fun r l => unpkElem o.ty half (vget r o.a l).toNat) s

/-- The code VQNT gives (spec/11 R249). -/
def qntCode (ty : Ty) (c x : Nat) : Nat :=
  if c = 255 then Fp.naR ty else Fp.encodeT ty (Fp.scaleNum (127 - (c : Int)) (Fp.toNum Fp.f32 x))

/-- VQNT (spec/11 R249). -/
def execVqnt (o : VBin) (byte : Nat) (s : State) : Host.Outcome State Fault Refusal :=
  vecOp (.vqnt o byte) o.k o.d .b32 (fun r l =>
    let q := qntCode o.ty (vectorY1 r l o.b % 256) (vget r o.a l).toNat
    if o.ty = .t8 then
      let old := (vget r o.d l).toNat
      old - old / 256 ^ byte % 256 * 256 ^ byte + q * 256 ^ byte
    else q) s

/-- The FP32 value VDQNT gives (spec/11 R249). -/
def dqntVal (ty : Ty) (c q : Nat) : Nat :=
  if q = Fp.naR ty ∨ c = 255 then Fp.defaultNaN Fp.f32
  else (Fp.roundNum Fp.f32 .rne (Fp.scaleNum ((c : Int) - 127) (Fp.decodeT ty q))).bits

/-- VDQNT (spec/11 R249). -/
def execVdqnt (o : VBin) (byte : Nat) (s : State) : Host.Outcome State Fault Refusal :=
  vecOp (.vdqnt o byte) o.k o.d .b32 (fun r l =>
    let x := (vget r o.a l).toNat
    dqntVal o.ty (vectorY1 r l o.b % 256) (if o.ty = .t8 then x / 256 ^ byte % 256 else x % 64)) s

/-! ### Permute and prefix -/

/-- The source position of VSHFL within its lane-word; none keeps the lane's own value (spec/11 R251). -/
def shflPos (mode : ShMode) (j t : Nat) : Option Nat :=
  match mode with
  | .index => some t
  | .xor => some (j ^^^ t)
  | .up => if t ≤ j then some (j - t) else none
  | .down => if j + t < 32 then some (j + t) else none

/-- VSHFL (spec/11 R251). -/
def execVshfl (o : VBin) (mode : ShMode) (s : State) : Host.Outcome State Fault Refusal :=
  vecOp (.vshfl o mode) o.k o.d o.ty (fun r l =>
    match shflPos mode (l % 32) (vectorY1 r l o.b % 32) with
    | some p => vgetT r o.ty o.a (l / 32 * 32 + p)
    | none => vgetT r o.ty o.a l) s

/-- VXCH (spec/11 R251). -/
def execVxch (o : VBin) (s : State) : Host.Outcome State Fault Refusal :=
  vecOp (.vxch o) o.k o.d o.ty (fun r l =>
    let i := vectorY1 r l o.b
    if i < r.lanes then vgetT r o.ty o.a i else 0) s

/-- The operation of a fold or scan step (spec/11 R252). -/
def foldStep (ty : Ty) (op : FOp) (num : Bool) (p q : Nat) : FVal :=
  let w := tyWidth ty
  let sg := ty.isSigned
  if ty.isFloat then
    match op with
    | .min => ofRes (Fp.fMinMax (Fp.fmtOf ty) false num p q)
    | .max => ofRes (Fp.fMinMax (Fp.fmtOf ty) true num p q)
    | _ => ofRes (Fp.fAdd (Fp.fmtOf ty) .rne p q)
  else
    (match op with
     | .add => addW w p q
     | .min => minW sg w p q
     | .max => maxWd sg w p q
     | .and => p &&& q
     | .or => p ||| q
     | .xor => p ^^^ q, 0)

/-- Combine (spec/11 R252), gathering the exceptions. -/
def combineNode (ty : Ty) (op : FOp) (num : Bool) : Option FVal → Option FVal → Option FVal
  | some p, some q =>
    let r := foldStep ty op num p.1 q.1
    some (r.1, p.2 ||| q.2 ||| r.2)
  | some p, none => some p
  | none, q => q

/-- One level of the tree: neighbours combined. -/
def foldLevel (ty : Ty) (op : FOp) (num : Bool) : List (Option FVal) → List (Option FVal)
  | p :: q :: r => combineNode ty op num p q :: foldLevel ty op num r
  | l => l

/-- WordFold (spec/11 R252). -/
def wordFold (ty : Ty) (op : FOp) (num : Bool) (nodes : List (Option FVal)) : Option FVal :=
  let f := foldLevel ty op num
  (f (f (f (f (f nodes)))))[0]?.getD none

/-- VFOLD of the active lanes of a team (spec/11 R252). -/
def foldTeam (r : Team) (k a : Nat) (ty : Ty) (op : FOp) (num : Bool) : Option FVal :=
  (List.range (r.lanes / 32)).foldl (fun acc w =>
    let nodes := (List.range 32).map fun i =>
      if (kget r k).getLsbD (32 * w + i) then some (vgetT r ty a (32 * w + i), (0 : BitVec 5)) else none
    combineNode ty op num acc (wordFold ty op num nodes)) none

/-- What S[D] receives (spec/11 R252). -/
def foldScalar (ty : Ty) (x : Nat) : W64 := scalarResult (if ty = .f then .n32 else ty) x

/-- VFOLD (spec/11 R252). -/
def execVfold (o : VUn) (op : FOp) (num : Bool) (s : State) : Host.Outcome State Fault Refusal :=
  issue (.vfold o op num) s fun r _ tid s =>
    match foldTeam r o.k o.a o.ty op num with
    | none => .go s
    | some v => .go (modTeam (writeRegs s tid [.s o.d (foldScalar o.ty v.1)]) tid fun t => mergeFp t v.2)

/-- The identities of VSCAN (spec/11 R253). -/
def scanIdentity (ty : Ty) (op : FOp) : Nat :=
  let w := tyWidth ty
  match op with
  | .min => if ty.isFloat then Fp.infBits (Fp.fmtOf ty) false else ofInt w (Fp.intMax ty.isSigned w)
  | .max => if ty.isFloat then Fp.infBits (Fp.fmtOf ty) true else ofInt w (Fp.intMin ty.isSigned w)
  | .and => 2 ^ w - 1
  | _ => 0

/-- VSCAN over the active lanes: the value each receives, and the exceptions (spec/11 R253). -/
def scanLanes (r : Team) (a : Nat) (ty : Ty) (op : FOp) (num excl : Bool) :
    List Nat → Option FVal → List (Nat × Nat) × BitVec 5
  | [], acc => ([], match acc with | some v => v.2 | none => 0)
  | l :: ls, acc =>
    let now := combineNode ty op num acc (some (vgetT r ty a l, 0))
    let out := if excl then (match acc with | some v => v.1 | none => scanIdentity ty op)
               else (match now with | some v => v.1 | none => 0)
    let rest := scanLanes r a ty op num excl ls now
    ((l, out) :: rest.1, rest.2)

/-- VSCAN (spec/11 R253). -/
def execVscan (o : VUn) (op : FOp) (num excl : Bool) (s : State) : Host.Outcome State Fault Refusal :=
  issue (.vscan o op num excl) s fun r _ tid s =>
    let x := scanLanes r o.a o.ty op num excl (active r o.k) none
    let s := writeRegs s tid (x.1.flatMap fun v => wrT o.ty o.d v.1 v.2)
    .go (modTeam s tid fun t => mergeFp t x.2)

/-- VREADL (spec/11 R255). -/
def execVreadl (k d a : Nat) (ty : Ty) (b : LSrc) (s : State) : Host.Outcome State Fault Refusal :=
  issue (.vreadl k d a ty b) s fun r _ tid s =>
    if active r k = [] then .go s
    else
      let i := indexVal r ty b
      .go (writeRegs s tid [.s d (BitVec.ofNat 64 (if i < r.lanes then vgetT r ty a i else 0))])

/-- VWRITEL (spec/11 R255). -/
def execVwritel (k d a : Nat) (ty : Ty) (b : LSrc) (s : State) : Host.Outcome State Fault Refusal :=
  issue (.vwritel k d a ty b) s fun r _ tid s =>
    let i := indexVal r ty b
    .go (if decide (i < r.lanes) && (kget r k).getLsbD i then
      writeRegs s tid (wrT ty d i (sget r a).toNat) else s)

end Sys2Proof.Machine
end

