-- ==== Sys2Proof/Machine/Scalar.lean ====
section
/-! DEFINITION. The scalar instructions (spec/09 R210-R212) and the mask instructions (spec/09 R213-R215). -/

namespace Sys2Proof.Machine

/-- A scalar instruction that writes r = f(W, x, y) to S[D] (spec/09 R210). -/
def scalarOp (i : Instr) (o : SBin) (f : Nat → Nat → Nat → Nat) (s : State) : Host.Outcome State Fault Refusal :=
  issue i s fun r _ tid s =>
    let w := tyWidth o.ty
    .go (writeRegs s tid [.s o.d (scalarResult o.ty (f w (scalarX r o) (scalarY r w o.b)))])

/-- SADD (spec/09 R211). -/
def execSadd (o : SBin) (s : State) : Host.Outcome State Fault Refusal := scalarOp (.sadd o) o addW s

/-- SSUB (spec/09 R211). -/
def execSsub (o : SBin) (s : State) : Host.Outcome State Fault Refusal := scalarOp (.ssub o) o subW s

/-- SMUL (spec/09 R211). -/
def execSmul (o : SBin) (s : State) : Host.Outcome State Fault Refusal := scalarOp (.smul o) o mulW s

/-- SMULH (spec/09 R211). -/
def execSmulh (o : SBin) (s : State) : Host.Outcome State Fault Refusal :=
  scalarOp (.smulh o) o (mulHigh o.ty.isSigned) s

/-- SDIV (spec/09 R211, spec/05 R105). -/
def execSdiv (o : SBin) (s : State) : Host.Outcome State Fault Refusal := scalarOp (.sdiv o) o (divW o.ty.isSigned) s

/-- SREM (spec/09 R211, spec/05 R105). -/
def execSrem (o : SBin) (s : State) : Host.Outcome State Fault Refusal := scalarOp (.srem o) o (remW o.ty.isSigned) s

/-- SAND (spec/09 R211). -/
def execSand (o : SBin) (s : State) : Host.Outcome State Fault Refusal := scalarOp (.sand o) o (fun _ x y => x &&& y) s

/-- SOR (spec/09 R211). -/
def execSor (o : SBin) (s : State) : Host.Outcome State Fault Refusal := scalarOp (.sor o) o (fun _ x y => x ||| y) s

/-- SXOR (spec/09 R211). -/
def execSxor (o : SBin) (s : State) : Host.Outcome State Fault Refusal := scalarOp (.sxor o) o (fun _ x y => x ^^^ y) s

/-- SSHL (spec/09 R211). -/
def execSshl (o : SBin) (s : State) : Host.Outcome State Fault Refusal := scalarOp (.sshl o) o shlW s

/-- SSHR (spec/09 R211). -/
def execSshr (o : SBin) (s : State) : Host.Outcome State Fault Refusal := scalarOp (.sshr o) o (shrW o.ty.isSigned) s

/-- SCMP (spec/09 R211, R212). -/
def execScmp (o : SBin) (rel : Rel) (s : State) : Host.Outcome State Fault Refusal :=
  issue (.scmp o rel) s fun r _ tid s =>
    let w := tyWidth o.ty
    .go (writeRegs s tid [.c o.d (relW rel o.ty.isSigned w (scalarX r o) (scalarY r w o.b))])

/-- SMOV (spec/09 R211, R212): x without I or L, y with one of them. -/
def execSmov (o : SBin) (s : State) : Host.Outcome State Fault Refusal :=
  scalarOp (.smov o) o (fun _ x y => match o.b with | .reg _ => x | _ => y) s

/-- SSEL (spec/09 R211, R212). -/
def execSsel (o : SBin) (c : Nat) (s : State) : Host.Outcome State Fault Refusal :=
  issue (.ssel o c) s fun r _ tid s =>
    let w := tyWidth o.ty
    .go (writeRegs s tid [.s o.d (scalarResult o.ty (if cget r c then scalarX r o else scalarY r w o.b))])

/-- SMIN (spec/09 R211). -/
def execSmin (o : SBin) (s : State) : Host.Outcome State Fault Refusal := scalarOp (.smin o) o (minW o.ty.isSigned) s

/-- SMAX (spec/09 R211). -/
def execSmax (o : SBin) (s : State) : Host.Outcome State Fault Refusal := scalarOp (.smax o) o (maxWd o.ty.isSigned) s

/-! ### Masks -/

/-- A mask instruction that writes a mask computed from the team as read (spec/09 R213). -/
def maskOp (i : Instr) (d : Nat) (f : Team → Mask) (s : State) : Host.Outcome State Fault Refusal :=
  issue i s fun r _ tid s => .go (writeRegs s tid [.k d (f r)])

/-- KAND (spec/09 R213). -/
def execKand (k d a b : Nat) (s : State) : Host.Outcome State Fault Refusal :=
  maskOp (.kand k d a b) d (fun r => kget r a &&& kget r b) s

/-- KOR (spec/09 R213). -/
def execKor (k d a b : Nat) (s : State) : Host.Outcome State Fault Refusal :=
  maskOp (.kor k d a b) d (fun r => kget r a ||| kget r b) s

/-- KXOR (spec/09 R213). -/
def execKxor (k d a b : Nat) (s : State) : Host.Outcome State Fault Refusal :=
  maskOp (.kxor k d a b) d (fun r => kget r a ^^^ kget r b) s

/-- KANDN (spec/09 R213). -/
def execKandn (k d a b : Nat) (s : State) : Host.Outcome State Fault Refusal :=
  maskOp (.kandn k d a b) d (fun r => kget r a &&& ~~~ kget r b) s

/-- KNOT (spec/09 R213). -/
def execKnot (k d a : Nat) (s : State) : Host.Outcome State Fault Refusal :=
  maskOp (.knot k d a) d (fun r => knotOf r (kget r a)) s

/-- KMOV (spec/09 R213). -/
def execKmov (k d a : Nat) (s : State) : Host.Outcome State Fault Refusal :=
  maskOp (.kmov k d a) d (fun r => kget r a) s

/-- KCNT (spec/09 R213). -/
def execKcnt (k d a : Nat) (s : State) : Host.Outcome State Fault Refusal :=
  issue (.kcnt k d a) s fun r _ tid s =>
    .go (writeRegs s tid [.s d (BitVec.ofNat 64 (popcount (kget r a).toNat 1024))])

/-- KFIRST (spec/09 R213). -/
def execKfirst (k d a : Nat) (s : State) : Host.Outcome State Fault Refusal :=
  issue (.kfirst k d a) s fun r _ tid s => .go (writeRegs s tid [.s d (kfirstOf (kget r a))])

/-- KTEST (spec/09 R214). -/
def execKtest (k d a : Nat) (mode : KMode) (s : State) : Host.Outcome State Fault Refusal :=
  issue (.ktest k d a mode) s fun r _ tid s => .go (writeRegs s tid [.c d (ktestHolds r mode (kget r a))])

/-- KFROMV (spec/09 R213, R215). -/
def execKfromv (k d a : Nat) (s : State) : Host.Outcome State Fault Refusal :=
  maskOp (.kfromv k d a) d (fun r => maskOf ((List.range r.lanes).filter fun l => (vget r a l).getLsbD 0)) s

/-- KTOV (spec/09 R213, R215). -/
def execKtov (k d a : Nat) (s : State) : Host.Outcome State Fault Refusal :=
  issue (.ktov k d a) s fun r _ tid s =>
    .go (writeRegs s tid ((List.range r.lanes).map fun l => .v d l (if (kget r a).getLsbD l then 1 else 0)))

/-- KSETW (spec/09 R213, R215). -/
def execKsetw (k d a : Nat) (b : SSrc) (s : State) : Host.Outcome State Fault Refusal :=
  issue (.ksetw k d a b) s fun r _ tid s =>
    let y := scalarY r 64 b % 32
    .go (if y < r.lanes / 32 then
      writeRegs s tid [.k d (setMaskWord (kget r d) y ((sget r a).toNat % 2 ^ 32))] else s)

/-- KGETW (spec/09 R213, R215). -/
def execKgetw (k d a : Nat) (b : SSrc) (s : State) : Host.Outcome State Fault Refusal :=
  issue (.kgetw k d a b) s fun r _ tid s =>
    .go (writeRegs s tid [.s d (BitVec.ofNat 64 (maskWord (kget r a) (scalarY r 64 b % 32)))])

end Sys2Proof.Machine
end

