-- ==== Sys2Proof/Machine/Dual.lean ====
section
/-! DEFINITION. The dual word (spec/07 R160-R164) and the entry of a clause (spec/07 R142-R146). -/

namespace Sys2Proof.Machine

/-! ### The dual word -/

/-- The scalar operands of a slot: A := D and B := S (spec/07 R163). -/
def slotS (x : Slot) : SBin := ⟨x.k, x.d, x.d, x.ty, .reg x.s⟩

/-- The vector operands of a slot: A := D and B := S (spec/07 R163). -/
def slotV (x : Slot) : VBin := ⟨x.k, x.d, x.d, x.ty, .reg x.s⟩

/-- The operand of a slot with A := S (spec/07 R163). -/
def slotU (x : Slot) : VUn := ⟨x.k, x.d, x.s, x.ty⟩

/-- The write of a scalar slot. -/
def slotScalarW (r : Team) (x : Slot) (f : Nat → Nat → Nat → Nat) : List Wr × BitVec 5 :=
  let w := tyWidth x.ty
  ([.s x.d (scalarResult x.ty (f w (scalarX r (slotS x)) (scalarY r w (.reg x.s))))], 0)

/-- The writes of an integer vector slot. -/
def slotIntW (r : Team) (x : Slot) (f : Nat → Nat → Nat → Nat) : List Wr × BitVec 5 :=
  ((active r x.k).flatMap fun l =>
    wrT x.ty x.d l (f (tyWidth x.ty) (vecX r x.ty x.d l) (vecY r x.ty (.reg x.s) l)), 0)

/-- The writes and exceptions of a floating-point slot with two operands. -/
def slotFpW (r : Team) (x : Slot) (f : Fp.Fmt → Nat → Nat → FVal) : List Wr × BitVec 5 :=
  fpWrites r x.k x.d x.ty (fpBin (slotV x) f r)

/-- The writes and exceptions of a floating-point slot with one operand. -/
def slotFpU (r : Team) (x : Slot) (f : Fp.Fmt → Nat → FVal) : List Wr × BitVec 5 :=
  fpWrites r x.k x.d x.ty (fpUn (slotU x) f r)

/-- What a slot writes, of the team as read before either slot writes (spec/07 R163). -/
def slotWrites (r : Team) (x : Slot) : List Wr × BitVec 5 :=
  let sg := x.ty.isSigned
  match x.op with
  | .nop => ([], 0)
  | .sadd => slotScalarW r x addW
  | .ssub => slotScalarW r x subW
  | .sand => slotScalarW r x fun _ a b => a &&& b
  | .sor => slotScalarW r x fun _ a b => a ||| b
  | .sxor => slotScalarW r x fun _ a b => a ^^^ b
  | .sshl => slotScalarW r x shlW
  | .sshr => slotScalarW r x (shrW sg)
  | .smov => slotScalarW r x fun _ _ b => b
  | .vadd => slotIntW r x addW
  | .vsub => slotIntW r x subW
  | .vand => slotIntW r x fun _ a b => a &&& b
  | .vor => slotIntW r x fun _ a b => a ||| b
  | .vxor => slotIntW r x fun _ a b => a ^^^ b
  | .vshl => slotIntW r x shlW
  | .vshr => slotIntW r x (shrW sg)
  | .vmov => slotIntW r x fun _ _ b => b
  | .vmin => slotIntW r x (minW sg)
  | .vmax => slotIntW r x (maxWd sg)
  | .vfadd => slotFpW r x fun F a b => ofRes (Fp.fAdd F .rne a b)
  | .vfsub => slotFpW r x fun F a b => ofRes (Fp.fSub F .rne a b)
  | .vfmul => slotFpW r x fun F a b => ofRes (Fp.fMul F .rne a b)
  | .vfmin => slotFpW r x fun F a b => ofRes (Fp.fMinMax F false false a b)
  | .vfmax => slotFpW r x fun F a b => ofRes (Fp.fMinMax F true false a b)
  | .vfabs => slotFpU r x fun F a => (Fp.fAbs F a, 0)
  | .vfneg => slotFpU r x fun F a => (Fp.fNeg F a, 0)

/-- The dual word: both slots read before either writes (spec/07 R163). -/
def execDualWord (x y : Slot) (s : State) : Host.Outcome State Fault Refusal :=
  issue (.dualWord x y) s fun r _ tid s =>
    let wx := slotWrites r x
    let wy := slotWrites r y
    .go (modTeam (writeRegs s tid (wx.1 ++ wy.1)) tid fun t => mergeFp t (wx.2 ||| wy.2))

/-! ### Clause entry -/

/-- Whether every flag a wait mask names is clear (spec/07 R144). -/
def waitClear (t : Team) (m : BitVec 12) : Bool := (List.range 12).all fun i => !m.getLsbD i || fget t i == 0

/-- The team past a legal header: in the clause, at its first word. -/
def enterClause (h : Header) (t : Team) : Team :=
  { t with clause := some ⟨t.pc, h, !waitClear t h.wait⟩, pc := t.pc + 8 }

/-- CLAUSE_ENTRY: an illegal header faults at its own address; a team that drains stops at a safe point before the clause issues
(spec/07 R143, R144; spec/03 R92; spec/23 R441). -/
def execClauseEntry (h : Header) (s : State) : Host.Outcome State Fault Refusal :=
  match s.curTeam with
  | none => .fault .noCurrentTeam
  | some (tid, t) =>
    .next <|
      if t.clause.isSome then s
      else if !(Instr.clauseEntry h).wf then
        finish (boundary (enterHandler s tid (fltTeam t .illegalEncoding) t.pc false) tid)
      else if decide (t.pre = .drain) && h.safe.isSome then
        modTeam s tid fun t => { t with pre := .quiesce false }
      else modTeam s tid (enterClause h)

end Sys2Proof.Machine
end

