-- ==== Sys2Proof/Machine/Matrix.lean ====
section
/-! DEFINITION. The matrix engine: spec/15 R300-R313, with the arithmetic of spec/05 R129-R135. -/

namespace Sys2Proof.Machine

/-! ### Shapes (spec/15 R303) -/

/-- Bits of one operand element; an operand row or column is a string of such elements, element 0 lowest. -/
def elemBits : Ty → Nat
  | .t6 => 6
  | .bf | .h => 16
  | .f => 32
  | .d => 64
  | _ => 8

/-- K. -/
def kOf : Ty → Nat
  | .t8 | .t6 => 48
  | .bf | .h => 16
  | .i8 => 64
  | _ => 8

/-- N. -/
def nOf : Ty → Nat
  | .d => 16
  | _ => 32

/-- Column pitch of B in bytes. -/
def pitchOf (ty : Ty) : Nat := kOf ty * elemBits ty / 8

/-- Bytes of B. -/
def bBytes (ty : Ty) : Nat := pitchOf ty * nOf ty

/-- Registers of a row as one bit string. -/
def rowBits (row : List W32) : Nat := row.foldr (fun x n => x.toNat + 2 ^ 32 * n) 0

/-- Element `k` of a bit string. -/
def elemAt (ty : Ty) (x k : Nat) : Nat := x / 2 ^ (elemBits ty * k) % 2 ^ elemBits ty

/-- The exact value of an operand element (spec/05 R119, R129). -/
def elemNum (ty : Ty) (e : Nat) : Fp.Num :=
  match ty with
  | .t8 | .t6 => Fp.decodeT ty e
  | _ => Fp.toNum (Fp.fmtOf ty) e

/-- Whether block (kb, nb) of B is marked (spec/15 R306). -/
def marked (ty : Ty) (sparse : Bool) (bitmap kb nb : Nat) : Bool :=
  sparse && bitmap / 2 ^ (kb * (nOf ty / 8) + nb) % 2 == 1

/-! ### Arithmetic (spec/05 R130-R135) -/

/-- One element of MXMMA: row bits, column bits, the old C. -/
def mmaElem (ty : Ty) (skip : Nat → Bool) (a b c : Nat) : Nat :=
  match ty with
  | .t8 | .t6 | .bf | .h =>
    (List.range (kOf ty / 8)).foldl (fun c g =>
      if skip g then c
      else Fp.accumulate Fp.f32 c (Fp.groupSum ((List.range 8).map fun i =>
        Fp.mul (elemNum ty (elemAt ty a (8 * g + i))) (elemNum ty (elemAt ty b (8 * g + i)))))) c
  | .i8 =>
    (List.range (kOf ty)).foldl (fun c k =>
      if skip (k / 8) then c
      else ofInt 32 ((c : Int) + toSigned 8 (elemAt ty a k) * toSigned 8 (elemAt ty b k))) c
  | _ =>
    (List.range (kOf ty)).foldl (fun c k =>
      if skip (k / 8) then c else (Fp.fFma (Fp.fmtOf ty) .rne (elemAt ty a k) (elemAt ty b k) c).bits) c

/-- A row of C of MXMMA. -/
def mmaRow (ty : Ty) (sparse : Bool) (bitmap : Nat) (cols : List Nat) (a : Nat) (c : List W32) : List W32 :=
  (List.range (nOf ty)).flatMap fun j =>
    let b := cols.getD j 0
    let f := mmaElem ty (fun kb => marked ty sparse bitmap kb (j / 8)) a b
    if ty = .d then
      let r := f ((c.getD (2 * j) 0).toNat + 2 ^ 32 * (c.getD (2 * j + 1) 0).toNat)
      [BitVec.ofNat 32 r, BitVec.ofNat 32 (r / 2 ^ 32)]
    else [BitVec.ofNat 32 (f (c.getD j 0).toNat)]

/-- Scale-and-accumulate (spec/05 R135). -/
def scaElem (ea eb c p : Nat) : Nat :=
  if ea = 255 ∨ eb = 255 then Fp.defaultNaN Fp.f32
  else
    match Fp.nanResult Fp.f32 [c, p] with
    | some r => r.bits
    | none =>
      (Fp.roundNum Fp.f32 .rne (Fp.add .rne (Fp.toNum Fp.f32 c)
        (Fp.scaleNum ((ea : Int) + eb - 254) (Fp.toNum Fp.f32 p)))).bits

/-- A row of C of MXSCA. -/
def scaRow (eb : List Byte) (ea : Nat) (c p : List W32) : List W32 :=
  (List.range 32).map fun j =>
    BitVec.ofNat 32 (scaElem ea (eb.getD j 0).toNat (c.getD j 0).toNat (p.getD j 0).toNat)

/-- A row of C of MXTRN (spec/15 R311). -/
def trnRow (ty : Ty) (a : List (List W32)) (i : Nat) : List W32 :=
  (List.range 32).map fun q =>
    if ty.is64 then (a.getD (i / 16 * 16 + q / 2) []).getD (2 * (i % 16) + q % 2) 0
    else (a.getD q []).getD i 0

/-- The result of MXRSUM for a row (spec/15 R312, spec/05 R134). -/
def rsumRow (ty : Ty) (a : Nat) (c : List W32) : List W32 :=
  let c0 := rowBits c
  match ty with
  | .t8 | .t6 | .bf | .h =>
    [BitVec.ofNat 32 ((List.range (kOf ty / 8)).foldl (fun c g =>
      Fp.accumulate Fp.f32 c (Fp.groupSum ((List.range 8).map fun i => elemNum ty (elemAt ty a (8 * g + i))))) c0)]
  | .i8 =>
    [BitVec.ofNat 32 ((List.range (kOf ty)).foldl (fun c k => ofInt 32 ((c : Int) + toSigned 8 (elemAt ty a k))) c0)]
  | _ =>
    let F := Fp.fmtOf ty
    let one := Fp.bias F * 2 ^ F.fb
    let r := (List.range (kOf ty)).foldl (fun c k => (Fp.fFma F .rne (elemAt ty a k) one.toNat c).bits) c0
    if ty = .d then [BitVec.ofNat 32 r, BitVec.ofNat 32 (r / 2 ^ 32)] else [BitVec.ofNat 32 r]

/-- Row `i` of the result of a tile. -/
def tileRow (m : Mx) (brd : List Byte) (cols : List Nat) (t : MxTile) (i : Nat) : List W32 :=
  match m.kind with
  | .mma sparse bitmap => mmaRow m.ty sparse bitmap cols (rowBits (t.a.getD i [])) (t.c.getD i [])
  | .sca => scaRow brd ((t.x.getD i 0).toNat % 256) (t.c.getD i []) (t.a.getD i [])
  | .perm => t.a.getD ((t.x.getD i 0).toNat % 32) []
  | .trn => trnRow m.ty t.a i
  | .rsum => rsumRow m.ty (rowBits (t.a.getD i [])) (t.c.getD i [])

/-- The elements a matrix instruction writes (spec/15 R300). -/
def mxDest (m : Mx) (brd : List Byte) : Dest :=
  let cols := (List.range (nOf m.ty)).map fun j => leNat ((brd.drop (pitchOf m.ty * j)).take (pitchOf m.ty))
  { v := m.tiles.flatMap fun t =>
      ((List.range 32).filter fun i => t.act / 2 ^ i % 2 == 1).flatMap fun i =>
        (tileRow m brd cols t i).zipIdx.map fun (x, j) => (vkey (m.c + j) (32 * t.word + i), x),
    s := [], c := [] }

/-! ### Issue -/

/-- The tiles of a mask, with the registers they read (spec/15 R300). -/
def mxTiles (r : Team) (k a na c nc : Nat) (x : Option Nat) : List MxTile :=
  let m := kget r k
  ((List.range (r.lanes / 32)).filter fun w => maskWord m w != 0).map fun w =>
    let rows (b n : Nat) : List (List W32) :=
      (List.range 32).map fun i => (List.range n).map fun j => vget r (b + j) (32 * w + i)
    { word := w, act := maskWord m w, a := rows a na, c := rows c nc,
      x := match x with | some b => (List.range 32).map fun i => vget r b (32 * w + i) | none => [] }

/-- Whether the reuse latch of a core holds A of a team's instruction, with its type and lane-words (spec/15 R307). -/
def latchHolds (c : Core) (tid a : Nat) (ty : Ty) (words : List Nat) : Bool :=
  match c.latch with
  | some h => h.team == tid && h.a == a && decide (h.ty = ty) && words.all h.words.contains
  | none => false

/-- The reuse latch after an MX instruction (spec/15 R307): one that holds the instruction's A stays, one that does not is loaded. Which 4
lane-words it keeps of an instruction that runs more is not stated: the first 4, a design choice (notes/assumptions/43.md). -/
def latchAfter (s : State) (tid : Nat) (t : Team) (fs : Nat) (reuse : Option (Nat × Ty)) (words : List Nat) : State :=
  if fs = 0 then modCore s t.home fun c => { c with latch := none }
  else
    match reuse with
    | some (a, ty) =>
      if words.isEmpty || latchHolds (s.core t.home) tid a ty words then s
      else modCore s t.home fun c => { c with latch := some ⟨tid, a, ty, words.take 4⟩ }
    | none => s

/-- Issue a matrix instruction; `opnd` is the address of its memory operand, its length and alignment (spec/15 R300, R304,
R308, R309). -/
def mxAct (i : Instr) (s : State) (t : Team) (tid : Nat) (mask : Mask) (m : Mx) (reuse : Option (Nat × Ty))
    (opnd : Option (W64 × Nat × Nat)) : Act :=
  let s1 := latchAfter s tid t (fsOf i) reuse (m.tiles.map (·.word))
  if m.tiles = [] then .go s1
  else
    match opnd with
    | none => .go (launchOp s1 tid (newOp t tid i ⟨[], [], []⟩ (.mx m)))
    | some (addr, n, align) =>
      match aperture s t addr n with
      | some (.part cid off) =>
        if addr.toNat % align ≠ 0 then .fault s (fltAt .misaligned mask addr 0)
        else
          let gated := inWindow s cid off n
          if !gated && partPoisoned s cid off n then .fault s (fltAt .dataUncorrectable mask addr (partKey cid off))
          else
            let m := { m with bcrew := cid, boff := off, blen := n, bva := addr, gated := gated }
            let id := s1.nextId
            let s2 := launchOp s1 tid (newOp t tid i ⟨[], [], []⟩ (.mx m))
            if gated then .wait s2 (.hold id) else .go s2
      | _ => .fault s (fltAt .apertureBounds mask addr 0)

/-- MXMMA (spec/15 R301-R307). -/
def execMxmma (k fs d a b : Nat) (ty : Ty) (reuse sparse : Bool) (sm : Nat) (s : State) :
    Host.Outcome State Fault Refusal :=
  issue (.mxmma k fs d a b ty reuse sparse sm) s fun r t tid s =>
    let i : Instr := .mxmma k fs d a b ty reuse sparse sm
    mxAct i s t tid (maskOf (active r k))
      ⟨.mma sparse (sget r sm).toNat, ty, d, kget r k, mxTiles r k a (Wf.nA ty) d 32 none, 0, 0, 0, 0, false, none⟩
      (if reuse then some (a, ty) else none)
      (some (sget r b, bBytes ty, if ty = .d ∨ ty = .i8 then 8 else 4))

/-- MXSCA (spec/15 R309). -/
def execMxsca (k fs d a b e : Nat) (s : State) : Host.Outcome State Fault Refusal :=
  issue (.mxsca k fs d a b e) s fun r t tid s =>
    mxAct (.mxsca k fs d a b e) s t tid (maskOf (active r k))
      ⟨.sca, .f, d, kget r k, mxTiles r k a 32 d 32 (some b), 0, 0, 0, 0, false, none⟩ none (some (sget r e, 32, 1))

/-- MXPERM (spec/15 R310). -/
def execMxperm (k fs d a b : Nat) (ty : Ty) (s : State) : Host.Outcome State Fault Refusal :=
  issue (.mxperm k fs d a b ty) s fun r t tid s =>
    mxAct (.mxperm k fs d a b ty) s t tid (maskOf (active r k))
      ⟨.perm, ty, d, kget r k, mxTiles r k a 32 d 0 (some b), 0, 0, 0, 0, false, none⟩ none none

/-- MXTRN (spec/15 R311). -/
def execMxtrn (k fs d a : Nat) (ty : Ty) (s : State) : Host.Outcome State Fault Refusal :=
  issue (.mxtrn k fs d a ty) s fun r t tid s =>
    mxAct (.mxtrn k fs d a ty) s t tid (maskOf (active r k))
      ⟨.trn, ty, d, kget r k, mxTiles r k a 32 d 0 none, 0, 0, 0, 0, false, none⟩ none none

/-- MXRSUM (spec/15 R312). -/
def execMxrsum (k fs d a : Nat) (ty : Ty) (s : State) : Host.Outcome State Fault Refusal :=
  issue (.mxrsum k fs d a ty) s fun r t tid s =>
    mxAct (.mxrsum k fs d a ty) s t tid (maskOf (active r k))
      ⟨.rsum, ty, d, kget r k, mxTiles r k a (Wf.nA ty) d (tyRegs ty) none, 0, 0, 0, 0, false, none⟩ none none

/-! ### The engine -/

/-- Whether an operation is the oldest matrix instruction of its core (spec/15 R313). -/
def mxOldest (s : State) (id : Nat) (o : Op) : Bool :=
  s.ops.all fun e => (match e.2.kind with | .mx _ => e.2.core != o.core || decide (id ≤ e.1) | _ => true)

/-- The outcome of the range read of a gated instruction whose turn it is. -/
def gatedRead (s : State) (id : Nat) : Option (Op × Mx × State × Except (FCode × W64 × Nat) (List Byte)) :=
  match tbGet s.ops id with
  | none => none
  | some o =>
    match o.kind with
    | .mx m =>
      if m.gated && m.brd.isNone && mxOldest s id o then
        let (s', r) := engineRead s o.ctx (hubOf o.core) m.bcrew m.boff m.blen
        some (o, m, s', r)
      else none
    | _ => none

/-- GATED_RANGE_READ (spec/15 R308): the team's hold ends; the operation has read the versions its chunks hold (spec/19 R388). -/
def execGatedRangeRead (op : Nat) (s : State) : Host.Outcome State Fault Refusal :=
  .next <| match gatedRead s op with
  | some (o, m, s', .ok bs) =>
    let s' := modOp s' op fun o => { o with kind := .mx { m with brd := some bs },
                                            floor := maxW o.floor (partStamp s' m.bcrew m.boff m.blen) }
    match s'.team o.team with
    | some t => if t.wait = .hold op then finish (advance s' o.team 1) else finish s'
    | none => finish s'
  | _ => s

/-- MX_GATED_ABORT (spec/15 R308). -/
def execMxGatedAbort (op : Nat) (s : State) : Host.Outcome State Fault Refusal :=
  .next <| match gatedRead s op with
  | some (o, m, s', .error (c, a, phys)) =>
    let s' := endOp s' op o
    finish (boundary (enterHandler s' o.team (fltAt c (maskOf (activeOf m.mask 1024)) a phys) o.pc false) o.team)
  | _ => s

/-- MX_COMPLETION (spec/15 R300, R305, R313); the team's floor covers what the instruction read (spec/19 R388). -/
def execMxCompletion (op : Nat) (s : State) : Host.Outcome State Fault Refusal :=
  .next <| match tbGet s.ops op with
  | none => s
  | some o =>
    match o.kind with
    | .mx m =>
      if !mxOldest s op o || (m.gated && m.brd.isNone) then s
      else
        let bs := m.brd.getD (memRead s (partKey m.bcrew m.boff) m.blen)
        endOp (raiseBy (settleDest s op o (mxDest m bs)) o) op o
    | _ => s

end Sys2Proof.Machine
end

