-- ==== Sys2Proof/Machine/Stash.lean ====
section
/-! DEFINITION. STASHMAP and STASHDROP (spec/13 R271-R275). -/

namespace Sys2Proof.Machine

/-- The windows of a crew. -/
def windowsOf (s : State) (cid : Nat) : List Window := match tbGet s.crews cid with | some c => c.windows | none => []

/-- The checks of STASHMAP, in order: the offset in the partition, or the code and the address it names. The address of a
MISALIGNED is the first of the two that is no multiple of 512, else the scratchpad address (R260). -/
def stashCheck (s : State) (t : Team) (d a : W64) (len : Nat) : Except (FCode × W64) Nat :=
  let off := d.toNat - scratchBase
  let size := partSizeOf s t.crew
  if d.toNat < scratchBase ∨ size < off + len then .error (.apertureBounds, d)
  else if globEnd < a.toNat + len then .error (.apertureBounds, a)
  else if d.toNat % 512 ≠ 0 then .error (.misaligned, d)
  else if a.toNat % 512 ≠ 0 then .error (.misaligned, a)
  else if len % 512 ≠ 0 ∨ len < 512 then .error (.misaligned, d)
  else if inRing s t.crew off len then .error (.queueMisuse, d)
  else if ((windowsOf s t.crew).any fun w => decide (w.off < off + len ∧ off < w.off + w.len)) ||
      decide (8 ≤ (windowsOf s t.crew).length) then .error (.engineDescriptor, d)
  else .ok off

/-- STASHMAP (spec/13 R272). -/
def execStashmap (k d a b : Nat) (s : State) : Host.Outcome State Fault Refusal :=
  issue (.stashmap k d a b) s fun r t tid s =>
    let act := active r k
    let len := (sget r b).toNat
    if act = [] then .go s
    else
      match stashCheck s t (sget r d) (sget r a) len with
      | .error (c, x) => .fault s (fltAt c (maskOf act) x 0)
      | .ok off =>
        if mustDrain s tid then .wait s .drain
        else if cmdsTouch s t.crew off (off + len) false then .wait s (.cmds off (off + len) false)
        else .go (modCrew s t.crew fun c => { c with windows := c.windows ++ [⟨off, len, sget r a, []⟩] })

/-- STASHDROP (spec/13 R275). -/
def execStashdrop (k d : Nat) (discard : Bool) (s : State) : Host.Outcome State Fault Refusal :=
  issue (.stashdrop k d discard) s fun r t tid s =>
    let act := active r k
    let x := sget r d
    let named (w : Window) : Bool := decide (x = 0) || decide (x.toNat = scratchBase + w.off)
    let ws := (windowsOf s t.crew).filter named
    if act = [] then .go s
    else if decide (x ≠ 0) && ws.isEmpty then .fault s (fltAt .engineDescriptor (maskOf act) x 0)
    else if mustDrain s tid then .wait s .drain
    else
      match ws.find? fun w => cmdsTouch s t.crew w.off (w.off + w.len) true with
      | some w => .wait s (.cmds w.off (w.off + w.len) true)
      | none => .go (dropWindows s t.crew discard t.pc named)

end Sys2Proof.Machine
end

