-- ==== Sys2Proof/Machine/Dispatch.lean ====
section
/-! DEFINITION. The meaning of each constructor of Instr. -/

namespace Sys2Proof.Machine

/-- The effect of an instruction of the current team, or of a step of another agent. -/
def exec (i : Instr) (s : State) : Host.Outcome State Fault Refusal :=
  match i with
  | .nop k => Sys2Proof.Machine.execNop k s
  | .br off => Sys2Proof.Machine.execBr off s
  | .brc c sns off => Sys2Proof.Machine.execBrc c sns off s
  | .brz m sns off => Sys2Proof.Machine.execBrz m sns off s
  | .call lnk off => Sys2Proof.Machine.execCall lnk off s
  | .jmp k a => Sys2Proof.Machine.execJmp k a s
  | .loop lnk off => Sys2Proof.Machine.execLoop lnk off s
  | .exit k => Sys2Proof.Machine.execExit k s
  | .trap k code => Sys2Proof.Machine.execTrap k code s
  | .rtt k skip => Sys2Proof.Machine.execRtt k skip s
  | .yield k => Sys2Proof.Machine.execYield k s
  | .getsys k d sel => Sys2Proof.Machine.execGetsys k d sel s
  | .setsys k a sel => Sys2Proof.Machine.execSetsys k a sel s
  | .brkpt k => Sys2Proof.Machine.execBrkpt k s
  | .mbox k a tag => Sys2Proof.Machine.execMbox k a tag s
  | .escalate k a => Sys2Proof.Machine.execEscalate k a s
  | .sadd o => Sys2Proof.Machine.execSadd o s
  | .ssub o => Sys2Proof.Machine.execSsub o s
  | .smul o => Sys2Proof.Machine.execSmul o s
  | .smulh o => Sys2Proof.Machine.execSmulh o s
  | .sdiv o => Sys2Proof.Machine.execSdiv o s
  | .srem o => Sys2Proof.Machine.execSrem o s
  | .sand o => Sys2Proof.Machine.execSand o s
  | .sor o => Sys2Proof.Machine.execSor o s
  | .sxor o => Sys2Proof.Machine.execSxor o s
  | .sshl o => Sys2Proof.Machine.execSshl o s
  | .sshr o => Sys2Proof.Machine.execSshr o s
  | .scmp o rel => Sys2Proof.Machine.execScmp o rel s
  | .smov o => Sys2Proof.Machine.execSmov o s
  | .ssel o c => Sys2Proof.Machine.execSsel o c s
  | .smin o => Sys2Proof.Machine.execSmin o s
  | .smax o => Sys2Proof.Machine.execSmax o s
  | .kand k d a b => Sys2Proof.Machine.execKand k d a b s
  | .kor k d a b => Sys2Proof.Machine.execKor k d a b s
  | .kxor k d a b => Sys2Proof.Machine.execKxor k d a b s
  | .kandn k d a b => Sys2Proof.Machine.execKandn k d a b s
  | .knot k d a => Sys2Proof.Machine.execKnot k d a s
  | .kmov k d a => Sys2Proof.Machine.execKmov k d a s
  | .kcnt k d a => Sys2Proof.Machine.execKcnt k d a s
  | .kfirst k d a => Sys2Proof.Machine.execKfirst k d a s
  | .ktest k d a mode => Sys2Proof.Machine.execKtest k d a mode s
  | .kfromv k d a => Sys2Proof.Machine.execKfromv k d a s
  | .ktov k d a => Sys2Proof.Machine.execKtov k d a s
  | .ksetw k d a b => Sys2Proof.Machine.execKsetw k d a b s
  | .kgetw k d a b => Sys2Proof.Machine.execKgetw k d a b s
  | .qpush k a q => Sys2Proof.Machine.execQpush k a q s
  | .qpop k d q => Sys2Proof.Machine.execQpop k d q s
  | .qtry k n op q => Sys2Proof.Machine.execQtry k n op q s
  | .bar k cluster => Sys2Proof.Machine.execBar k cluster s
  | .mxacq k => Sys2Proof.Machine.execMxacq k s
  | .mxrel k => Sys2Proof.Machine.execMxrel k s
  | .spawn k a b => Sys2Proof.Machine.execSpawn k a b s
  | .batch k d => Sys2Proof.Machine.execBatch k d s
  | .waitb k a => Sys2Proof.Machine.execWaitb k a s
  | .cwait k a b => Sys2Proof.Machine.execCwait k a b s
  | .ctest k d a b => Sys2Proof.Machine.execCtest k d a b s
  | .vadd o => Sys2Proof.Machine.execVadd o s
  | .vsub o => Sys2Proof.Machine.execVsub o s
  | .vmul o => Sys2Proof.Machine.execVmul o s
  | .vmulh o => Sys2Proof.Machine.execVmulh o s
  | .vmad o => Sys2Proof.Machine.execVmad o s
  | .vdiv o => Sys2Proof.Machine.execVdiv o s
  | .vrem o => Sys2Proof.Machine.execVrem o s
  | .vmin o => Sys2Proof.Machine.execVmin o s
  | .vmax o => Sys2Proof.Machine.execVmax o s
  | .vabs o => Sys2Proof.Machine.execVabs o s
  | .vneg o => Sys2Proof.Machine.execVneg o s
  | .vand o => Sys2Proof.Machine.execVand o s
  | .vor o => Sys2Proof.Machine.execVor o s
  | .vxor o => Sys2Proof.Machine.execVxor o s
  | .vnot o => Sys2Proof.Machine.execVnot o s
  | .vshl o => Sys2Proof.Machine.execVshl o s
  | .vshr o => Sys2Proof.Machine.execVshr o s
  | .vrot o => Sys2Proof.Machine.execVrot o s
  | .vcmp o rel => Sys2Proof.Machine.execVcmp o rel s
  | .vsel o ks => Sys2Proof.Machine.execVsel o ks s
  | .vmov o => Sys2Proof.Machine.execVmov o s
  | .vbfe o => Sys2Proof.Machine.execVbfe o s
  | .vbfi o => Sys2Proof.Machine.execVbfi o s
  | .vpopc o => Sys2Proof.Machine.execVpopc o s
  | .vclz o => Sys2Proof.Machine.execVclz o s
  | .vaddc o kc => Sys2Proof.Machine.execVaddc o kc s
  | .vadds o sub => Sys2Proof.Machine.execVadds o sub s
  | .vlane k d a wordwise => Sys2Proof.Machine.execVlane k d a wordwise s
  | .vmulw o => Sys2Proof.Machine.execVmulw o s
  | .vfadd o rm => Sys2Proof.Machine.execVfadd o rm s
  | .vfsub o rm => Sys2Proof.Machine.execVfsub o rm s
  | .vfmul o rm => Sys2Proof.Machine.execVfmul o rm s
  | .vfma o => Sys2Proof.Machine.execVfma o s
  | .vfdiv o fs rm => Sys2Proof.Machine.execVfdiv o fs rm s
  | .vfsqrt o fs rm => Sys2Proof.Machine.execVfsqrt o fs rm s
  | .vfrsqs o => Sys2Proof.Machine.execVfrsqs o s
  | .vfrcps o => Sys2Proof.Machine.execVfrcps o s
  | .vfmin o num => Sys2Proof.Machine.execVfmin o num s
  | .vfmax o num => Sys2Proof.Machine.execVfmax o num s
  | .vfabs o => Sys2Proof.Machine.execVfabs o s
  | .vfneg o => Sys2Proof.Machine.execVfneg o s
  | .vfcmp o rel u sig half => Sys2Proof.Machine.execVfcmp o rel u sig half s
  | .vfclass o => Sys2Proof.Machine.execVfclass o s
  | .vfrnd o rm exact => Sys2Proof.Machine.execVfrnd o rm exact s
  | .vfscale o rm => Sys2Proof.Machine.execVfscale o rm s
  | .vfexp2 o => Sys2Proof.Machine.execVfexp2 o s
  | .vflog2 o => Sys2Proof.Machine.execVflog2 o s
  | .vfgetexp o => Sys2Proof.Machine.execVfgetexp o s
  | .vfgetman o => Sys2Proof.Machine.execVfgetman o s
  | .vfcopysign o mode => Sys2Proof.Machine.execVfcopysign o mode s
  | .vcvt k d a dst src rm => Sys2Proof.Machine.execVcvt k d a dst src rm s
  | .vpack o rm => Sys2Proof.Machine.execVpack o rm s
  | .vunpk o half => Sys2Proof.Machine.execVunpk o half s
  | .vqnt o byte => Sys2Proof.Machine.execVqnt o byte s
  | .vdqnt o byte => Sys2Proof.Machine.execVdqnt o byte s
  | .vshfl o mode => Sys2Proof.Machine.execVshfl o mode s
  | .vxch o => Sys2Proof.Machine.execVxch o s
  | .vfold o op num => Sys2Proof.Machine.execVfold o op num s
  | .vscan o op num excl => Sys2Proof.Machine.execVscan o op num excl s
  | .vapnd k d a => Sys2Proof.Machine.execVapnd k d a s
  | .vreadl k d a ty b => Sys2Proof.Machine.execVreadl k d a ty b s
  | .vwritel k d a ty b => Sys2Proof.Machine.execVwritel k d a ty b s
  | .ld o => Sys2Proof.Machine.execLd o s
  | .st o => Sys2Proof.Machine.execSt o s
  | .lds o => Sys2Proof.Machine.execLds o s
  | .sts o => Sys2Proof.Machine.execSts o s
  | .ldasof o => Sys2Proof.Machine.execLdasof o s
  | .ldasofs o => Sys2Proof.Machine.execLdasofs o s
  | .ldpk k fs d a b nv u t6 => Sys2Proof.Machine.execLdpk k fs d a b nv u t6 s
  | .pref k a b nv u llc => Sys2Proof.Machine.execPref k a b nv u llc s
  | .stashmap k d a b => Sys2Proof.Machine.execStashmap k d a b s
  | .stashdrop k d discard => Sys2Proof.Machine.execStashdrop k d discard s
  | .atom o op => Sys2Proof.Machine.execAtom o op s
  | .atcas o => Sys2Proof.Machine.execAtcas o s
  | .red o op => Sys2Proof.Machine.execRed o op s
  | .vatom o op => Sys2Proof.Machine.execVatom o op s
  | .vred o op => Sys2Proof.Machine.execVred o op s
  | .alinit k a b => Sys2Proof.Machine.execAlinit k a b s
  | .aldec k fs d a b acq scope wait => Sys2Proof.Machine.execAldec k fs d a b acq scope wait s
  | .alinc k a b rel scope => Sys2Proof.Machine.execAlinc k a b rel scope s
  | .alrd k fs d a acq scope => Sys2Proof.Machine.execAlrd k fs d a acq scope s
  | .alfree k a => Sys2Proof.Machine.execAlfree k a s
  | .fence k order scope => Sys2Proof.Machine.execFence k order scope s
  | .fenceo k scope => Sys2Proof.Machine.execFenceo k scope s
  | .fencer k scope => Sys2Proof.Machine.execFencer k scope s
  | .cmaint k a b op level => Sys2Proof.Machine.execCmaint k a b op level s
  | .tlblock k a b => Sys2Proof.Machine.execTlblock k a b s
  | .tlbunlock k a b => Sys2Proof.Machine.execTlbunlock k a b s
  | .pgmap k d a b => Sys2Proof.Machine.execPgmap k d a b s
  | .pgunmap k a b => Sys2Proof.Machine.execPgunmap k a b s
  | .stampget k fs d => Sys2Proof.Machine.execStampget k fs d s
  | .snap k fs d => Sys2Proof.Machine.execSnap k fs d s
  | .pin k fs d a => Sys2Proof.Machine.execPin k fs d a s
  | .unpin k a => Sys2Proof.Machine.execUnpin k a s
  | .horizon k fs d => Sys2Proof.Machine.execHorizon k fs d s
  | .mxmma k fs d a b ty reuse sparse sm => Sys2Proof.Machine.execMxmma k fs d a b ty reuse sparse sm s
  | .mxsca k fs d a b e => Sys2Proof.Machine.execMxsca k fs d a b e s
  | .mxperm k fs d a b ty => Sys2Proof.Machine.execMxperm k fs d a b ty s
  | .mxtrn k fs d a ty => Sys2Proof.Machine.execMxtrn k fs d a ty s
  | .mxrsum k fs d a ty => Sys2Proof.Machine.execMxrsum k fs d a ty s
  | .cpin o frame => Sys2Proof.Machine.execCpin o frame s
  | .cpout o => Sys2Proof.Machine.execCpout o s
  | .cppeer o => Sys2Proof.Machine.execCppeer o s
  | .qst k fs d a ty q col reset => Sys2Proof.Machine.execQst k fs d a ty q col reset s
  | .qstd k fs d a ty qa qb reset => Sys2Proof.Machine.execQstd k fs d a ty qa qb reset s
  | .qload k fs a q => Sys2Proof.Machine.execQload k fs a q s
  | .qsave k fs a q => Sys2Proof.Machine.execQsave k fs a q s
  | .nmc k fs d a => Sys2Proof.Machine.execNmc k fs d a s
  | .dualWord x y => Sys2Proof.Machine.execDualWord x y s
  | .clauseEntry h => Sys2Proof.Machine.execClauseEntry h s
  | .lateFaultTaken core slot => Sys2Proof.Machine.execLateFaultTaken core slot s
  | .loadCompletion op => Sys2Proof.Machine.execLoadCompletion op s
  | .storeAcknowledgement op => Sys2Proof.Machine.execStoreAcknowledgement op s
  | .atomicCompletion op => Sys2Proof.Machine.execAtomicCompletion op s
  | .reductionFaultLogged op => Sys2Proof.Machine.execReductionFaultLogged op s
  | .longArithmeticCompletion op => Sys2Proof.Machine.execLongArithmeticCompletion op s
  | .mxCompletion op => Sys2Proof.Machine.execMxCompletion op s
  | .mxGatedAbort op => Sys2Proof.Machine.execMxGatedAbort op s
  | .serialisingRequest core op => Sys2Proof.Machine.execSerialisingRequest core op s
  | .gatedRangeRead op => Sys2Proof.Machine.execGatedRangeRead op s
  | .allowanceCompletion op => Sys2Proof.Machine.execAllowanceCompletion op s
  | .aldecWaitServed counter => Sys2Proof.Machine.execAldecWaitServed counter s
  | .shareEviction counter core => Sys2Proof.Machine.execShareEviction counter core s
  | .historyCompletion op => Sys2Proof.Machine.execHistoryCompletion op s
  | .queuePushDone crew q => Sys2Proof.Machine.execQueuePushDone crew q s
  | .queuePopDone crew q => Sys2Proof.Machine.execQueuePopDone crew q s
  | .barrierRelease cluster id => Sys2Proof.Machine.execBarrierRelease cluster id s
  | .matrixOwnershipGrant core => Sys2Proof.Machine.execMatrixOwnershipGrant core s
  | .waitbComplete core slot => Sys2Proof.Machine.execWaitbComplete core slot s
  | .cwaitComplete core slot => Sys2Proof.Machine.execCwaitComplete core slot s
  | .engineAcceptance core slot => Sys2Proof.Machine.execEngineAcceptance core slot s
  | .copyChunkDone op n => Sys2Proof.Machine.execCopyChunkDone op n s
  | .copyStop op => Sys2Proof.Machine.execCopyStop op s
  | .engineCompletionRecord op => Sys2Proof.Machine.execEngineCompletionRecord op s
  | .quantCommandExecute core => Sys2Proof.Machine.execQuantCommandExecute core s
  | .nmcPcShare op home => Sys2Proof.Machine.execNmcPcShare op home s
  | .trackedWriteAtHome home => Sys2Proof.Machine.execTrackedWriteAtHome home s
  | .leesReclaim stack => Sys2Proof.Machine.execLeesReclaim stack s
  | .horizonPropagation core => Sys2Proof.Machine.execHorizonPropagation core s
  | .spawnBinTimer core bin => Sys2Proof.Machine.execSpawnBinTimer core bin s
  | .spawnedTeamPlacement core => Sys2Proof.Machine.execSpawnedTeamPlacement core s
  | .partitionRelease crew => Sys2Proof.Machine.execPartitionRelease crew s
  | .partitionSpill crew => Sys2Proof.Machine.execPartitionSpill crew s
  | .preemptionRequest cluster => Sys2Proof.Machine.execPreemptionRequest cluster s
  | .preemptionDeadline core slot => Sys2Proof.Machine.execPreemptionDeadline core slot s
  | .teamSave core slot => Sys2Proof.Machine.execTeamSave core slot s
  | .saveStreamDone core slot => Sys2Proof.Machine.execSaveStreamDone core slot s
  | .clusterRestoreDone cluster => Sys2Proof.Machine.execClusterRestoreDone cluster s
  | .launchAdmission q => Sys2Proof.Machine.execLaunchAdmission q s
  | .clusterPlacement cluster => Sys2Proof.Machine.execClusterPlacement cluster s
  | .launchCompletion launch => Sys2Proof.Machine.execLaunchCompletion launch s
  | .queueEnable q v => Sys2Proof.Machine.execQueueEnable q v s
  | .queueTeardown q v => Sys2Proof.Machine.execQueueTeardown q v s
  | .queueSuspend q v => Sys2Proof.Machine.execQueueSuspend q v s
  | .queueUnsuspend q v => Sys2Proof.Machine.execQueueUnsuspend q v s
  | .doorbell q v => Sys2Proof.Machine.execDoorbell q v s
  | .tornClear q v => Sys2Proof.Machine.execTornClear q v s
  | .registerWrite off bits v => Sys2Proof.Machine.execRegisterWrite off bits v s
  | .leescfgWrite v => Sys2Proof.Machine.execLeescfgWrite v s
  | .stackQuiesceRequest n => Sys2Proof.Machine.execStackQuiesceRequest n s
  | .stackQuiesceComplete n => Sys2Proof.Machine.execStackQuiesceComplete n s
  | .stackReturnToService n => Sys2Proof.Machine.execStackReturnToService n s
  | .hashmaskWrite n j v => Sys2Proof.Machine.execHashmaskWrite n j v s
  | .rateChangeRequest n => Sys2Proof.Machine.execRateChangeRequest n s
  | .retrainingStart n => Sys2Proof.Machine.execRetrainingStart n s
  | .retrainingComplete n => Sys2Proof.Machine.execRetrainingComplete n s
  | .rateChangeAbandon n => Sys2Proof.Machine.execRateChangeAbandon n s
  | .pcGrant home => Sys2Proof.Machine.execPcGrant home s
  | .patrolScrub loc => Sys2Proof.Machine.execPatrolScrub loc s
  | .sramError structureCode unit slot loc correctable => Sys2Proof.Machine.execSramError structureCode unit slot loc correctable s
  | .timingDetection core again => Sys2Proof.Machine.execTimingDetection core again s
  | .consume launch code => Sys2Proof.Machine.execConsume launch code s
  | .rollbackRestore launch => Sys2Proof.Machine.execRollbackRestore launch s
  | .parkResume core slot ctx => Sys2Proof.Machine.execParkResume core slot ctx s
  | .parkResumeSkip core slot ctx => Sys2Proof.Machine.execParkResumeSkip core slot ctx s
  | .parkKillTeam core slot ctx => Sys2Proof.Machine.execParkKillTeam core slot ctx s
  | .contextResume ctx => Sys2Proof.Machine.execContextResume ctx s
  | .contextKill ctx => Sys2Proof.Machine.execContextKill ctx s
  | .errctlWrite v => Sys2Proof.Machine.execErrctlWrite v s
  | .errheadWrite v => Sys2Proof.Machine.execErrheadWrite v s
  | .rebase => Sys2Proof.Machine.execRebase s
  | .rebaseComplete => Sys2Proof.Machine.execRebaseComplete s
  | .kilnDrain addr => Sys2Proof.Machine.execKilnDrain addr s
  | .kilnCommit => Sys2Proof.Machine.execKilnCommit s
  | .kilnRestore addr => Sys2Proof.Machine.execKilnRestore addr s
  | .kilnReleaseGeneration addr => Sys2Proof.Machine.execKilnReleaseGeneration addr s
  | .kilnAbort => Sys2Proof.Machine.execKilnAbort s
  | .framecmdGo v => Sys2Proof.Machine.execFramecmdGo v s
  | .frameChangeComplete => Sys2Proof.Machine.execFrameChangeComplete s
  | .dbgHalt core => Sys2Proof.Machine.execDbgHalt core s
  | .dbgResume core => Sys2Proof.Machine.execDbgResume core s
  | .dbgStepInstruction core => Sys2Proof.Machine.execDbgStepInstruction core s
  | .dbgStepClause core => Sys2Proof.Machine.execDbgStepClause core s
  | .mbpopRead core => Sys2Proof.Machine.execMbpopRead core s
  | .hostMemRead port addr n => Sys2Proof.Machine.execHostMemRead port addr n s
  | .hostMemWrite port addr data poison => Sys2Proof.Machine.execHostMemWrite port addr data poison s
  | .cxlLinkUp link => Sys2Proof.Machine.execCxlLinkUp link s
  | .cxlLinkDown link => Sys2Proof.Machine.execCxlLinkDown link s
  | .huanenPortFail port => Sys2Proof.Machine.execHuanenPortFail port s
  | .peerAccess off op data => Sys2Proof.Machine.execPeerAccess off op data s
  | .spdmRequest what => Sys2Proof.Machine.execSpdmRequest what s
  | .resetRelease bifur0 bifur1 image => Sys2Proof.Machine.execResetRelease bifur0 bifur1 image s
  | .powerGood => Sys2Proof.Machine.execPowerGood s
  | .thermalTrip => Sys2Proof.Machine.execThermalTrip s
  | .functionReady f => Sys2Proof.Machine.execFunctionReady f s
  | .readyFall f => Sys2Proof.Machine.execReadyFall f s
  | .resetNAssertion => Sys2Proof.Machine.execResetNAssertion s
  | .lossOfPower => Sys2Proof.Machine.execLossOfPower s
  | .hbmDataError loc bits => Sys2Proof.Machine.execHbmDataError loc bits s

end Sys2Proof.Machine
end

