-- ==== Sys2Proof/Machine/Agenda.lean ====
section
/-! DEFINITION. Which step comes next (notes/assumptions/2.md): the ready teams and the issue selection (spec/03 R65-R68, spec/23
R439), the steps of the other agents that are due, and the end of a cycle. -/

namespace Sys2Proof.Machine

/-! ### Ready teams (spec/03 R66) -/

/-- Whether what a team waits for still holds it. -/
def lockHolds (s : State) (tid : Nat) (t : Team) : Bool :=
  match t.wait with
  | .none => false
  | .drain => mustDrain s tid
  | .arith => flagsPending s tid
  | .engine e => decide (engineCap e ≤ engineLoad s t.home e)
  | .flag f => decide (63 ≤ fget t f)
  | .cmds lo hi reads => cmdsTouch s t.crew lo hi reads
  | .pages base size => nmcUses s t.ctx base (base + size)
  | .hold _ | .push .. | .pop .. | .bar _ | .mxacq | .waitb _ | .cwait .. => true

/-- Whether the wait mask of the clause a team enters is not yet satisfied (spec/07 R144). -/
def clauseHolds (t : Team) : Bool :=
  match t.clause with
  | some c => c.waiting && !waitClear t c.h.wait
  | none => false

/-- Whether a restored owner of the matrix engine waits for it (spec/03 R95). -/
def mxHolds (s : State) (tid : Nat) (t : Team) : Bool :=
  (s.core t.home).mxQueue.contains tid || (s.core t.home).mxOver.contains tid

/-- Whether a team is ready but for its next instruction (spec/03 R66, R68; spec/25 R486). -/
def readyTeam (s : State) (tid : Nat) (t : Team) : Bool :=
  running t && coreReady s t.home && !isHalted s t && t.parked.isNone && !t.notNext && !lockHolds s tid t &&
    !clauseHolds t && !mxHolds s tid t && (lateDue t).isNone

/-! ### The issue selection (spec/03 R67, spec/23 R439) -/

/-- The issue class of a role (spec/03 R61). -/
def roleClass (r : Nat) : Nat := min r 2

/-- The ageing constant of a team's launch. -/
def ageOf (s : State) (t : Team) : Nat := match tbGet s.launches t.launch with | some l => l.age | none => 64

/-- The effective class. -/
def effClass (s : State) (t : Team) : Nat := if ageOf s t ≤ t.w then 0 else roleClass t.role

/-- Whether a team comes before another on its core: the lower class, then the larger W, then the lower slot. -/
def issuesBefore (s : State) (a b : Team) : Bool :=
  let x := effClass s a
  let y := effClass s b
  decide (x < y) || (x == y && (decide (b.w < a.w) || (a.w == b.w && decide (slotNum a < slotNum b))))

/-- Teams of a core that have issued in this cycle, those it has ended included. -/
def issuedOn (s : State) (core : Nat) : Nat := (s.chosen.filter fun e => e.2 == core).length

/-- Whether a team has issued in this cycle. -/
def hasIssued (s : State) (tid : Nat) : Bool := s.chosen.any fun e => e.1 == tid

/-- Whether a team is halted in this cycle: a fence that halts its context does not bar the issues of its own cycle (spec/25 R459, R467). -/
def issueBarred (s : State) (t : Team) : Bool :=
  t.halted || (match tbGet s.contexts t.ctx with
    | some c => c.halted.isSome && decide (c.haltCycle < s.cycle)
    | none => false)

/-- Whether a team that was ready can still issue: nothing has stopped it since. -/
def canIssue (s : State) (t : Team) : Bool :=
  running t && coreReady s t.home && !issueBarred s t && t.parked.isNone && (lateDue t).isNone

/-- Whether a team is a candidate for a port: ready in this cycle, not chosen, a port of its core left (spec/23 R439). -/
def mayIssue (s : State) (e : Nat × Team) : Bool :=
  (s.ready.getD []).contains e.1 && canIssue s e.2 && !hasIssued s e.1 && decide (issuedOn s e.2.home < 2)

/-- The better of two candidates: the lower core, then the selection of R439. -/
def betterTeam (s : State) (a b : Nat × Team) : Nat × Team :=
  if b.2.home < a.2.home ∨ (b.2.home = a.2.home ∧ issuesBefore s b.2 a.2 = true) then b else a

/-- The team that issues next. -/
def pickTeam (s : State) : Option (Nat × Team) :=
  (s.teams.filter (mayIssue s)).foldl (fun m e => match m with
    | none => some e
    | some a => some (betterTeam s a e)) none

/-! ### What a team issues -/

/-- Put a fault of the fetch or the decoding of a team's next word. -/
def fetchFault (s : State) (tid : Nat) (t : Team) (f : Flt) : State :=
  finish (boundary (enterHandler s tid f t.pc false) tid)

/-- What a team's next word is: an instruction, or the fault it meets. -/
inductive Fetched where
  | instr (i : Instr)
  | fault (f : Flt)
  deriving DecidableEq, Repr

/-- The literal word of an instruction of `n` words at the team's PC, where the clause counts it; 0 otherwise. -/
def fetchLit (s : State) (t : Team) (n : Nat) : State × Except (FCode × Nat) Nat :=
  match t.clause with
  | some c => if n = 2 ∧ (t.pc.toNat - c.addr.toNat) / 8 < c.h.len then fetchWord s t (t.pc + 8) else (s, .ok 0)
  | none => (s, .ok 0)

/-- What the words `w` and `lit` are inside a clause (spec/07 R168, spec/09 R206). -/
def decoded (t : Team) (w lit : Nat) : Fetched :=
  match decodeInstr w (BitVec.ofNat 64 lit) with
  | .ok i => .instr i
  | .error _ => .fault { fltTeam t .illegalEncoding with words := wordCount w }

/-- Fetch and decode the next header or instruction of a team (spec/07 R140-R144, spec/17 R354). Where an illegal first word has L set and
its counted literal cannot be fetched, the fault of that fetch comes first: R64 lists no fetch and R354 charges the literal to its
instruction, so this is a design choice (spec/07 R168; notes/assumptions/43.md). -/
def fetch (s : State) (t : Team) : State × Fetched :=
  match fetchWord s t t.pc with
  | (s, .error e) => (s, .fault (fltFetch t e t.pc 1))
  | (s, .ok w) =>
    if t.clause.isNone then
      match decodeHeader w with
      | .ok h => (s, .instr (.clauseEntry h))
      | .error _ => (s, .fault (fltTeam t .illegalEncoding))
    else
      match fetchLit s t (wordCount w) with
      | (s, .error e) => (s, .fault (fltFetch t e (t.pc + 8) (wordCount w)))
      | (s, .ok lit) => (s, decoded t w lit)

/-- The team before it issues: the wait mask of its clause was satisfied (spec/07 R144). -/
def startIssue (s : State) (tid : Nat) : State :=
  modTeam { s with xlFloor := 0, xlSince := 0 } tid fun t => { t with clause := t.clause.map fun c => { c with waiting := false } }

/-! ### The vector datapaths (spec/03 R50, spec/23 R439) -/

/-- Passes a mask takes: one for each lane-word that is not zero. -/
def maskPasses (m : Mask) : Nat := ((List.range 32).filter fun w => m.toNat / 2 ^ (32 * w) % 2 ^ 32 != 0).length

/-- Whether a slot holds a vector operation. -/
def vectorSlot (x : Slot) : Bool := decide (x.op ≠ .nop) && !Wf.slotScalar x.op

/-- The passes of a vector word: of the instructions of spec/11, or of a dual word the larger of its vector slots'; none for another
word (notes/assumptions/5.md). -/
def vectorPasses (t : Team) (i : Instr) : Option Nat :=
  match i with
  | .dualWord x y =>
    match [x, y].filter vectorSlot with
    | [] => none
    | l => some (l.foldl (fun n z => max n (maskPasses (kget t z.k))) 0)
  | i =>
    match encode i with
    | some w =>
      let op := w.first / 2 ^ 54 % 256
      if 0x40 ≤ op ∧ op ≤ 0x96 then some (maskPasses (kget t (w.first / 2 ^ 50 % 16))) else none
    | none => none

/-- The passes that occupy a core's two datapaths in this cycle. -/
def busyPaths (s : State) (core : Nat) : List Nat := (s.core core).passes.filter fun c => decide (s.cycle ≤ c)

/-- Whether no datapath of its core can accept a team's word. -/
def noDatapath (s : State) (t : Team) (i : Instr) : Bool :=
  (vectorPasses t i).isSome && decide (2 ≤ (busyPaths s t.home).length)

/-- Occupy a datapath with the passes of a word that issues. -/
def takePath (s : State) (t : Team) (i : Instr) : State :=
  match vectorPasses t i with
  | some n => modCore s t.home fun c => { c with passes := busyPaths s t.home ++ [s.cycle + max 1 n - 1] }
  | none => s

/-! ### Readiness in a cycle (spec/03 R66, spec/23 R439) -/

/-- What a step does: run an instruction or a step of another agent on a state, or only go to a state. -/
inductive Choice where
  | run (i : Instr) (s : State)
  | done (s : State)
  deriving DecidableEq, Repr

/-- A team is not ready in this cycle after all. -/
def unready (s : State) (tid : Nat) : State := { s with ready := s.ready.map fun l => l.filter (· != tid) }

/-- What a team's issue runs. Entering a clause takes no issue port (spec/03 R65). -/
def issueChoice (s : State) (tid : Nat) : Choice :=
  let s := { startIssue s tid with cur := some tid }
  match s.team tid with
  | none => .done s
  | some t =>
    match fetch s t with
    | (s, .instr (.clauseEntry h)) => .run (.clauseEntry h) s
    | (s, .instr i) =>
      if noDatapath s t i then .done (unready s tid)
      else .run i (takePath { s with chosen := s.chosen ++ [(tid, t.home)] } t i)
    | (s, .fault f) => .done { fetchFault s tid t f with chosen := s.chosen ++ [(tid, t.home)] }

/-- Whether an interlock holds a team that was to issue: it has not issued, and its port stays free (spec/03 R66). -/
def interlocked (t : Team) : Bool :=
  match t.wait with
  | .drain | .arith | .engine _ | .flag _ | .cmds .. | .pages .. => true
  | _ => false

/-- Whether the hardware interlocks allow a team's next word, and no flag it names would pass 63: found by what its issue would do. -/
def allowsNext (s : State) (tid : Nat) : Bool :=
  match issueChoice s tid with
  | .done u => hasIssued u tid
  | .run i u =>
    match exec i u with
    | .next u => (match u.team tid with | some t => !interlocked t | none => true)
    | _ => true

/-- The ready teams of a cycle, found once (spec/23 R439). -/
def sampleReady (s : State) : State :=
  { s with ready := some ((s.teams.filter fun e =>
      readyTeam s e.1 e.2 && !hasIssued s e.1 && allowsNext s e.1).map (·.1)) }

/-- Whether a ready team stands before a clause that it enters without a port. -/
def beforeClause (s : State) (e : Nat × Team) : Bool :=
  e.2.clause.isNone && readyTeam s e.1 e.2 && !hasIssued s e.1

/-! ### Steps that are due -/

/-- A step where a condition holds. -/
def dueIf (b : Bool) (i : Instr) : List Instr := if b then [i] else []

/-- Whether a waiting CWAIT can end: its word can no longer be read, or its bits are found and no earlier waiter's are. -/
def cwaitDue (s : State) (tid : Nat) (t : Team) (a m : W64) (n : Nat) : Bool :=
  running t && !t.halted && (match bitmapRead s t tid a with
    | (u, .ok (cid, off)) => bitsFound u cid off m && !cwaitAhead u cid off n
    | (_, .error _) => true)

/-- The steps due for a team. -/
def teamSteps (s : State) (e : Nat × Team) : List Instr :=
  let t := e.2
  match t.place with
  | none => []
  | some (core, slot) =>
    dueIf (lateDue t).isSome (.lateFaultTaken core slot) ++
    (match t.wait with
     | .waitb m => dueIf (running t && decide (m ≤ batchDone s e.1 t)) (.waitbComplete core slot)
     | .cwait a m n => dueIf (cwaitDue s e.1 t a m n) (.cwaitComplete core slot)
     | _ => []) ++
    (match acceptNext s core slot with
     | some (id, c) => dueIf (acceptable s id c) (.engineAcceptance core slot)
     | none => []) ++
    (match t.pre with
     | .drain => dueIf (decide (t.reqCycle + 40000 ≤ s.cycle)) (.preemptionDeadline core slot)
     | .quiesce _ => dueIf (mayStream s e.1 t) (.teamSave core slot)
     | .save _ => [.saveStreamDone core slot]
     | _ => [])

/-- The steps due for an operation in flight. -/
def opSteps (s : State) (e : Nat × Op) : List Instr :=
  let id := e.1
  let o := e.2
  match o.kind with
  | .load => [.loadCompletion id]
  | .store => dueIf (decide (o.homes = [])) (.storeAcknowledgement id)
  | .reduction =>
    dueIf (decide (o.logs ≠ [])) (.reductionFaultLogged id) ++
      dueIf (decide (o.homes = []) && decide (o.logs = [])) (.storeAcknowledgement id)
  | .atomic => dueIf (decide (o.homes = [])) (.atomicCompletion id)
  | .arith => [.longArithmeticCompletion id]
  | .mx m =>
    dueIf (mxOldest s id o && !(m.gated && m.brd.isNone)) (.mxCompletion id) ++
      (match gatedRead s id with
       | some (_, _, _, .ok _) => [.gatedRangeRead id]
       | some (_, _, _, .error _) => [.mxGatedAbort id]
       | none => [])
  | .allowance => [.allowanceCompletion id]
  | .aldecWait _ _ _ _ _ _ served =>
    dueIf (served && (match s.team o.team with | some t => running t | none => true)) (.allowanceCompletion id)
  | .history _ => [.historyCompletion id]
  | .fencer cs _ =>
    (cs.filter fun c => !c.2.any fun i => (tbGet s.ops i).isSome).map fun c => .serialisingRequest c.1 id

/-- The steps due for an engine command. -/
def cmdSteps (s : State) (e : Nat × Cmd) : List Instr :=
  let id := e.1
  let c := e.2
  dueIf (cmdDone c) (.engineCompletionRecord id) ++
    dueIf (decide ((acceptNext s c.core 32).map (·.1) = some id) && acceptable s id c) (.engineAcceptance c.core 32) ++
    (match c.kind with
     | .copy k => if c.accepted && c.err.isNone then
         ((List.range k.chunks).filter fun n => !k.done.contains n).map (.copyChunkDone id ·) ++ [.copyStop id] else []
     | .nmc n => if c.accepted then n.homes.map (.nmcPcShare id ·) else []
     | _ => dueIf (decide (quantNext s c.core = some id)) (.quantCommandExecute c.core))

/-- The steps due at the homes and the pseudo-channels. -/
def homeSteps (s : State) : List Instr :=
  ((s.homeq.map (·.home)).foldl insertNew []).map .trackedWriteAtHome ++
    ((s.pcq.map (·.home)).foldl insertNew []).map .pcGrant ++
    ((List.range 12).filter fun n => s.press.getLsbD n).map .leesReclaim ++
    ((List.range 256).filter fun c => decide ((s.core c).hcache ≠ s.horizon)).map .horizonPropagation

/-- The steps due on a core: its bins, the ownership of its matrix engine. -/
def coreSteps (s : State) (e : Nat × Core) : List Instr :=
  ((e.2.bins.filter fun b => match tbGet s.launches b.2.launch with
      | some l => decide (b.2.born + l.spawnT ≤ s.cycle)
      | none => false).map fun b => .spawnBinTimer e.1 b.1) ++
    dueIf (mxFree s e.2 && (nextMx s e.2).isSome) (.matrixOwnershipGrant e.1)

/-- The steps due for a crew: its rings, its barrier, its partition. -/
def crewSteps (s : State) (e : Nat × Crew) : List Instr :=
  (e.2.rings.flatMap fun r =>
    dueIf (decide (r.2.pushers ≠ []) && decide (0 < allowance r.2)) (.queuePushDone e.1 r.1) ++
      dueIf (decide (r.2.poppers ≠ []) && slotFull s e.1 r.2) (.queuePopDone e.1 r.1)) ++
    dueIf (barrierDue s false e.1) (.barrierRelease false e.1) ++
    dueIf (crewDone s e.1) (.partitionRelease e.1) ++
    dueIf (spillable s e.1 e.2 && spillNeeded s e.2.cluster e.2.core) (.partitionSpill e.1)

/-- What waits for a place: its class, 0 for a saved cluster, its launch, and its step. -/
abbrev Waiting := Nat × Nat × Nat × Instr

/-- Whether a placement can do something now: it fits, or its launch may pre-empt, or gives up a quad that serves it no more (spec/23 R438). -/
def canPlace (s : State) (lid : Nat) (l : Launch) (fits : Bool) (target : Option Nat) : Bool :=
  fits || mayReserve s lid (launchClass s lid) l target

/-- A saved cluster that waits and can be placed. -/
def waitingSaved (s : State) (e : Nat × Cluster) : Option Waiting :=
  match tbGet s.launches e.2.launch with
  | some l =>
    if decide (e.2.state = .saved) && !(s.queue l.queue).susp && l.dying.isNone &&
        canPlace s e.2.launch l (savedFits s e.2 (liveReservation s e.2.launch l)) (savedWant s e.2 l) then
      some (launchClass s e.2.launch, 0, e.2.launch, .clusterPlacement e.1)
    else none
  | none => none

/-- A launch whose next cluster waits and can be placed. -/
def waitingNew (s : State) (e : Nat × Launch) : Option Waiting :=
  let ns := launchNeeds e.2
  if mayPlace s e.2 && canPlace s e.1 e.2 (!(fitQuads s e.1 ns skipNone (liveReservation s e.1 e.2)).isEmpty) (newTarget s e.1 e.2) then
    some (launchClass s e.1, 1, e.1, .clusterPlacement e.1)
  else none

/-- A core with a spawned team that waits and can be placed: it takes the order of a cluster of its launch (spec/03 R79). -/
def waitingBin (s : State) (core : Nat) : Option Waiting :=
  (match nextBin s core with | some b => some b | none => wantBin s core).map fun (b : Bin) =>
    (launchClass s b.launch, 1, b.launch, .spawnedTeamPlacement core)

/-- All that waits and can be placed. -/
def waiting (s : State) : List Waiting :=
  s.clusters.filterMap (waitingSaved s) ++ s.launches.filterMap (waitingNew s) ++ (s.cores.map (·.1)).filterMap (waitingBin s)

/-- The first of two that wait (spec/23 R438). -/
def placedFirst (a b : Waiting) : Waiting :=
  if b.1 < a.1 ∨ (b.1 = a.1 ∧ (b.2.1 < a.2.1 ∨ (b.2.1 = a.2.1 ∧ b.2.2.1 < a.2.2.1))) then b else a

/-- The placement that is due: the first in the order of R438. -/
def placeSteps (s : State) : List Instr :=
  match (if cpReady s then waiting s else []) with
  | [] => []
  | a :: as => [(as.foldl placedFirst a).2.2.2]

/-- The steps due for clusters, launches and queues. -/
def launchSteps (s : State) : List Instr :=
  (s.clusters.flatMap fun e =>
    dueIf (barrierDue s true e.1) (.barrierRelease true e.1) ++
      dueIf (decide (e.2.state = .restoring)) (.clusterRestoreDone e.1) ++
      dueIf (decide (e.2.state = .placed) && preemptWanted s e.2) (.preemptionRequest e.1)) ++
  (s.launches.flatMap fun e =>
    (match e.2.dying with
     | some r => dueIf (!e.2.restoring) (.consume e.1 r.code)
     | none => []) ++
      dueIf (restoreDue s e.1 e.2) (.rollbackRestore e.1) ++
      dueIf (completable s e.1 e.2) (.launchCompletion e.1)) ++
  ((s.queues.filter fun e => eligible s e.1).map fun e => .launchAdmission e.1) ++ placeSteps s

/-- The steps due for the counters. -/
def counterSteps (s : State) : List Instr :=
  s.counters.flatMap fun e => match e.2.queue with
    | w :: _ => dueIf (decide (w.n ≤ counterValue e.2)) (.aldecWaitServed e.1)
    | [] => []

/-- The steps due for the stacks, a rebase, the kiln and the frame table. -/
def deviceSteps (s : State) : List Instr :=
  (s.stk.flatMap fun e =>
    dueIf e.2.quiescing (.stackQuiesceComplete e.1) ++
      dueIf (mayRetrain s e.1) (.retrainingStart e.1) ++
      dueIf e.2.retraining (.retrainingComplete e.1) ++
      (match e.2.rateReq with | some c => dueIf (decide (c + rateWait ≤ s.cycle)) (.rateChangeAbandon e.1) | none => [])) ++
  (((List.range 12).filter (rateWanted s)).map .rateChangeRequest) ++
  dueIf s.rebasing .rebaseComplete ++ dueIf (kilnReady s && s.kiln.isSome) .kilnCommit ++ dueIf (frameDue s) .frameChangeComplete

/-- Every step that is due. -/
def dueSteps (s : State) : List Instr :=
  s.teams.flatMap (teamSteps s) ++ s.ops.flatMap (opSteps s) ++ s.cmds.flatMap (cmdSteps s) ++ homeSteps s ++
    s.cores.flatMap (coreSteps s) ++ s.crews.flatMap (crewSteps s) ++ launchSteps s ++ counterSteps s ++ deviceSteps s

/-- The step the other agents take next: a free choice among those due and the end of the cycle, which is `none`. -/
def nextDue (s : State) : Option Instr :=
  match dueSteps s with
  | [] => none
  | l => l[(Config.freeWord s.free 4096).toNat % (l.length + 1)]?

/-! ### The end of a cycle -/

/-- W of a team and the not-ready cycle of a YIELD, at the end of a cycle (spec/03 R67, R68, spec/23 R439). -/
def tickTeam (s : State) (e : Nat × Team) : Nat × Team :=
  let issued := hasIssued s e.1
  (e.1, { e.2 with w := if issued || !(s.ready.getD []).contains e.1 then 0 else e.2.w + 1, notNext := e.2.notNext && issued })

/-- Evict ordinary translations, a free choice for each (spec/17 R346). -/
def evictCtu (s : State) : State :=
  let keep (h : Nat) (e : Ctu) : Bool := e.locked || !Config.freeBit s.free (2 ^ 80 + h * 2 ^ 70 + e.ctx * 2 ^ 60 + e.va)
  { s with ctu := (List.range 4).foldl (fun m h => smSet [] m h ((smGet [] m h).filter (keep h))) s.ctu }

/-- Write dirty LLC sectors of HBM back, a free choice for each (spec/17 R351). -/
def evictDirty (s : State) : State :=
  (s.dirty.filter fun x => Config.freeBit s.free (2 ^ 93 + x)).foldl writeBack s

/-- Fetch a launch's code again, a free choice (spec/07 R170). -/
def refetch (s : State) (e : Nat × Launch) : Nat × Launch :=
  if Config.freeBit s.free (2 ^ 94 + e.1) then (e.1, { e.2 with code := s.mem }) else e

/-- The end of a cycle. -/
def tick (s : State) : State :=
  { evictDirty (evictCtu s) with teams := s.teams.map (tickTeam s), launches := s.launches.map (refetch s), cycle := s.cycle + 1, chosen := [],
                                 ready := none }

/-! ### The choice of a step -/

/-- An issue, a step that is due, or the end of the cycle. -/
def issueOrDue (s : State) : Choice :=
  match pickTeam s with
  | some (tid, _) => issueChoice s tid
  | none =>
    match nextDue s with
    | some i => .run i s
    | none => .done (tick s)

/-- What happens when nothing of the agenda is due: the ready teams before a clause enter it, the ready teams of the cycle are found, and
then the issues and the other steps of the cycle. -/
def innerChoice (s : State) : Choice :=
  match s.ready with
  | some _ => issueOrDue s
  | none =>
    match s.teams.find? (beforeClause s) with
    | some (tid, _) => issueChoice s tid
    | none => issueOrDue (sampleReady s)

/-- The events that reach a device held in reset: those of its pins (spec/27 R483). -/
def isPin : Instr → Bool
  | .resetRelease .. | .resetNAssertion | .powerGood | .lossOfPower | .thermalTrip => true
  | _ => false

/-- The choice of a step: what the agenda has due comes first; a device held in reset takes nothing but its pins. -/
def chooseStep (s : State) : Choice :=
  match s.agenda with
  | (c, i) :: rest =>
    if s.cycle < c then innerChoice s
    else if inReset s && !isPin i then .done { s with agenda := rest }
    else .run i { s with agenda := rest }
  | [] => innerChoice s

/-- The team that an interlock kept from issuing has not taken its port. -/
def dropHeld (s : State) (tid : Nat) : State :=
  match s.team tid with
  | some t => if interlocked t then { unready s tid with chosen := s.chosen.filter fun e => e.1 != tid } else s
  | none => s

/-- The end of a step: no current team, the next free values. -/
def afterStep (s : State) : State :=
  let s := match s.cur with | some tid => dropHeld s tid | none => s
  { s with cur := none, xlFloor := 0, xlSince := 0, free := s.free + 1 }

/-- A state after an outcome. -/
def onNext (f : State → State) : Host.Outcome State Fault Refusal → Host.Outcome State Fault Refusal
  | .next s => .next (f s)
  | .fault r => .fault r
  | .refused r => .refused r

/-! ### A machine that fetches a given instruction next (notes/assumptions/3.md) -/

/-- First virtual address of the clause. -/
def probeVa : Nat := 2 ^ 30

/-- The table bytes: three levels of page table on stack 0 and one leaf of 1 GiB that maps `probeVa` to the stack's first byte. -/
def probeTables (m : List Host.Cell) : List Host.Cell :=
  let put (m : List Host.Cell) (k v : Nat) : List Host.Cell := putCells m k (leBytes 8 v)
  let t := stackBase + 2 ^ 30
  put (put (put m t (2 ^ 63 + (t + 4096))) (t + 4096) (2 ^ 63 + (t + 8192))) (t + 8192 + 8)
    (2 ^ 63 + 2 ^ 62 + 3 * 2 ^ 59 + stackBase)

/-- The header of the clause: both flag slots, the length of the instruction. -/
def probeHeader (w : Nat) : Header := ⟨0, some 0, some 1, wordCount w, none, false⟩

/-- A team on core 0 about to issue the instruction with bits `w`. -/
def probeTeam (w : Nat) : Team :=
  let t := newTeam 0 0 0 0 0 ⟨BitVec.ofNat 64 probeVa, 0, 0, roleGeneral, 256, 32⟩ 0 0 false
  if form (w % 2 ^ 64) = 2 then { t with pc := BitVec.ofNat 64 (probeVa + 8) }
  else
    { t with pc := BitVec.ofNat 64 (probeVa + 8),
             clause := some ⟨BitVec.ofNat 64 probeVa, probeHeader (w % 2 ^ 64), false⟩ }

/-- The context of that team. -/
def probeContext : Context :=
  { record := 0, ptroot := stackBase + 2 ^ 30, handlerbase := 0, poolcounter := 0, redlogbase := 0, savebase := 0,
    savelen := 0, armed := false, halted := none, haltCycle := 0, locked := [] }

/-- The state whose next step fetches the instruction with bits `w`: one team, inside a clause at that instruction and ready in this cycle, its
context and page table, core 0 and stack 0 ready, no vector word in core 0. -/
def withProbe (s : State) (nbits w : Nat) : State :=
  let m := putCells (putCells s.mem stackBase (leBytes 8 (packHeader (probeHeader (w % 2 ^ 64))))) (stackBase + 8)
    (tableBytes nbits w)
  { modCore s 0 fun c => { c with passes := [] } with
    mem := probeTables m, teams := [(0, probeTeam w)], contexts := tbSet s.contexts 0 probeContext, ctu := [],
    readyCore := setBit s.readyCore 0 true, readyStack := setBit s.readyStack 0 true, agenda := [], chosen := [], ready := some [0],
    nextId := max s.nextId 1 }

end Sys2Proof.Machine
end

