-- ==== Sys2Proof/Machine/Step.lean ====
section
/-! DEFINITION. One step of the device: the step chosen (Machine/Agenda.lean) is carried out. -/

namespace Sys2Proof.Machine

/-- One step. -/
def step (s : State) : Host.Outcome State Fault Refusal :=
  match chooseStep s with
  | .run i s' => onNext afterStep (exec i s')
  | .done s' => .next (afterStep s')

/-- `s` with the instruction whose bits are `w` where the next step fetches (notes/assumptions/3.md). -/
def State.withFetchWord (s : State) (nbits w : Nat) : State := withProbe s nbits w

end Sys2Proof.Machine
end

