-- ==== Sys2Proof/Safety.lean ====
section
/-! DEFINITION. What a safe run of the device is: it goes on, and memory keeps its canonical form. Every fault the spec describes is
taken by the team (spec/25 R449) and is no stop. -/

namespace Sys2Proof.Safety

open Sys2Proof.Machine

/-- Whether a constructor is a step of another agent: it has no instruction word. -/
def isEvent (i : Instr) : Bool := (encode i).isNone

/-- A step goes on. -/
def Goes (s : State) : Prop := ∃ t, step s = .next t

/-- A run of `n` steps goes on. -/
def Runs (n : Nat) (s : State) : Prop := ∃ t, Host.Core.run Sys2Proof.core n s = .next t

/-- A team's register files and flag counts are in canonical form: keys strictly rising, no entry equal to what an unlisted register
reads as; and no mask register has a bit of a lane at or above L (spec/03 R48). -/
def TeamOk (t : Team) : Prop :=
  smWf 0 t.v = true ∧ smWf 0 t.s = true ∧ smWf 0 t.k = true ∧ smWf 0 t.f = true ∧ smWf 0 t.q = true ∧
    ∀ e ∈ t.k, e.2 &&& laneMask t.lanes = e.2

/-- An allowance counter lists each core's share once, in the order of the cores. -/
def CounterOk (c : Counter) : Prop := (c.shares.map (·.1)).Pairwise (· < ·)

/-- Memory, every team's registers and every counter's shares are in canonical form. -/
def Canonical (s : State) : Prop :=
  Memory.wf s.mem = true ∧ (∀ e ∈ s.teams, TeamOk e.2) ∧ ∀ e ∈ s.counters, CounterOk e.2

/-- What holds between steps: the canonical forms, no instruction half done, and no floor of a translation left over. -/
def Inv (s : State) : Prop := Canonical s ∧ s.cur = none ∧ s.xlFloor = 0

end Sys2Proof.Safety
end

