-- ==== Sys2Proof/Certificates/Slice0/Obligations.lean ====
section
/-! DEFINITION. The statements for the provers, and the words they are written in. -/

namespace Sys2Proof.Spec

open Sys2Proof.Machine

/-! ### The words the statements use -/

/-- Team `tid`, as `t`, issues `i` in `s`: steps 1 to 4 of spec/03 R64 pass, and no flag it would count holds 63 (spec/07 R147). -/
abbrev CanIssue (s : State) (tid : Nat) (t : Team) (i : Instr) : Prop :=
  s.curTeam = some (tid, t) ∧ encodingOk i t = true ∧ (privileged i = true → t.priv = true) ∧
    (t.priv = true ∨ roleOk i t.role = true) ∧ (needsMx i = true → (s.core t.home).mxOwner = some tid) ∧
    flagFull t (fsOf i) = none

/-- `i` completes: its own effect leaves `s1`, the team goes on with the next word (spec/07 R140, R146), and what the step queued
for the logs is written. -/
abbrev Completes (i : Instr) (s : State) (tid : Nat) (s1 : State) : Prop :=
  exec i s = .next (finish (advance s1 tid (wordsOf i)))

/-- `i` transfers to the header at `a` (spec/07 R144, R146). -/
abbrev Jumps (i : Instr) (s : State) (tid : Nat) (s1 : State) (a : W64) : Prop :=
  exec i s = .next (finish (transfer s1 tid a))

/-- `i` is issued and holds the team until operation `op` releases it. -/
abbrev Holds (i : Instr) (s : State) (tid : Nat) (s1 : State) (op : Nat) : Prop :=
  exec i s = .next (finish (modTeam (advance s1 tid (wordsOf i)) tid fun t => { t with wait := .hold op }))

/-- `i` is issued and blocks the team at its own word with the wait `w` (spec/09 R196); the team has acquired from what it translated through
(spec/19 R371). -/
abbrev Blocks (i : Instr) (s : State) (tid : Nat) (s1 : State) (w : Wait) : Prop :=
  exec i s = .next (finish (modTeam (acquireXl s1 tid) tid fun t => { t with wait := w }))

/-- `i` completes and has placed the team itself. -/
abbrev Places (i : Instr) (s : State) (tid : Nat) (s1 : State) : Prop := exec i s = .next (finish (boundary s1 tid))

/-- `i` takes a precise fault at its own address (spec/09 R204). -/
abbrev Faults (i : Instr) (s : State) (tid : Nat) (t : Team) (s1 : State) (f : Flt) : Prop :=
  exec i s = .next (finish (boundary (enterHandler s1 tid { f with words := wordsOf i } t.pc false) tid))

/-- Operand x of a scalar instruction on `w` bits: the low bits of S[A] (spec/09 R210). -/
def sx (r : Team) (w a : Nat) : BitVec w := (sget r a).setWidth w

/-- Operand y: a register's low bits, the immediate sign-extended, or the literal (spec/09 R194, R210). -/
def sy (r : Team) (w : Nat) : SSrc → BitVec w
  | .reg n => (sget r n).setWidth w
  | .imm v => v.signExtend w
  | .lit v => v.setWidth w

/-- A result in a 64-bit scalar: sign-extended for .i32, zero-extended else (spec/09 R210). -/
def to64 {w : Nat} (ty : Ty) (z : BitVec w) : W64 := if ty = .i32 then z.signExtend 64 else z.setWidth 64

/-- Operand x of a vector instruction in lane `l` (spec/11 R225). -/
def vx (r : Team) (ty : Ty) (w a l : Nat) : BitVec w := BitVec.ofNat w (vgetT r ty a l)

/-- Operand y of a vector instruction in lane `l` (spec/11 R225). -/
def vy (r : Team) (ty : Ty) (w : Nat) (b : VSrc) (l : Nat) : BitVec w := BitVec.ofNat w (vectorY r ty l b)

/-- High half of a product. -/
def mulHi {w : Nat} (sg : Bool) (x y : BitVec w) : BitVec w :=
  if sg then BitVec.ofInt w (x.toInt * y.toInt / 2 ^ w) else BitVec.ofNat w (x.toNat * y.toNat / 2 ^ w)

/-- Quotient: all ones for a zero divisor, the most negative number for it by -1 (spec/05 R105). -/
def quot {w : Nat} (sg : Bool) (x y : BitVec w) : BitVec w :=
  if y = 0 then BitVec.allOnes w else if sg then x.sdiv y else x / y

/-- Remainder: the dividend for a zero divisor (spec/05 R105). -/
def remd {w : Nat} (sg : Bool) (x y : BitVec w) : BitVec w := if y = 0 then x else if sg then x.srem y else x % y

/-- Shift right by y mod w. -/
def shr {w : Nat} (sg : Bool) (x y : BitVec w) : BitVec w :=
  if sg then x.sshiftRight (y.toNat % w) else x >>> (y.toNat % w)

/-- x < y, signed or not. -/
def less {w : Nat} (sg : Bool) (x y : BitVec w) : Bool := if sg then x.slt y else x.ult y

/-- The relation REL (spec/09 R212). -/
def holds {w : Nat} (rel : Rel) (sg : Bool) (x y : BitVec w) : Bool :=
  match rel with
  | .eq => x == y
  | .ne => x != y
  | .lt => less sg x y
  | .le => !less sg y x
  | .gt => less sg y x
  | .ge => !less sg x y

/-- The value of a pattern, signed or not. -/
def valOf {w : Nat} (sg : Bool) (x : BitVec w) : Int := if sg then x.toInt else x.toNat

/-- The nearest value of `w` bits to an integer (spec/05 R105). -/
def saturate (sg : Bool) (w : Nat) (v : Int) : BitVec w :=
  let lo : Int := if sg then -(2 ^ (w - 1)) else 0
  let hi : Int := if sg then 2 ^ (w - 1) - 1 else 2 ^ w - 1
  BitVec.ofInt w (if v < lo then lo else if hi < v then hi else v)

/-- The writes that give lane l of V[d] the value `f l` of a type, in the active lanes (spec/11 R227). -/
def laneWrites (r : Team) (k d : Nat) (ty : Ty) {w : Nat} (f : Nat → BitVec w) : List Wr :=
  (active r k).flatMap fun l => wrT ty d l (f l).toNat

end Sys2Proof.Spec

open Sys2Proof Sys2Proof.Machine Sys2Proof.Spec

/-! ### Scalar, mask and system instructions -/

/-- Arithmetic of the scalar instructions in terms of bit vectors of W bits (spec/09 R210, R211; spec/05 R105). -/
def Sys2Proof.Spec.ScalarArithmetic : Prop :=
  ∀ (s : State) (tid : Nat) (t : Team) (o : SBin),
    let r := viewOf s tid t
    let w := tyWidth o.ty
    let sg := o.ty.isSigned
    let x := sx r w o.a
    let y := sy r w o.b
    let wr (z : BitVec w) : State := writeRegs s tid [.s o.d (to64 o.ty z)]
    (CanIssue s tid t (.sadd o) → Completes (.sadd o) s tid (wr (x + y))) ∧
    (CanIssue s tid t (.ssub o) → Completes (.ssub o) s tid (wr (x - y))) ∧
    (CanIssue s tid t (.smul o) → Completes (.smul o) s tid (wr (x * y))) ∧
    (CanIssue s tid t (.smulh o) → Completes (.smulh o) s tid (wr (mulHi sg x y))) ∧
    (CanIssue s tid t (.sdiv o) → Completes (.sdiv o) s tid (wr (quot sg x y))) ∧
    (CanIssue s tid t (.srem o) → Completes (.srem o) s tid (wr (remd sg x y))) ∧
    (CanIssue s tid t (.sand o) → Completes (.sand o) s tid (wr (x &&& y))) ∧
    (CanIssue s tid t (.sor o) → Completes (.sor o) s tid (wr (x ||| y))) ∧
    (CanIssue s tid t (.sxor o) → Completes (.sxor o) s tid (wr (x ^^^ y))) ∧
    (CanIssue s tid t (.sshl o) → Completes (.sshl o) s tid (wr (x <<< (y.toNat % w)))) ∧
    (CanIssue s tid t (.sshr o) → Completes (.sshr o) s tid (wr (shr sg x y))) ∧
    (CanIssue s tid t (.smin o) → Completes (.smin o) s tid (wr (if less sg y x then y else x))) ∧
    (CanIssue s tid t (.smax o) → Completes (.smax o) s tid (wr (if less sg x y then y else x)))

/-- SMOV, SSEL and SCMP (spec/09 R211, R212). -/
def Sys2Proof.Spec.ScalarMoveSelectCompare : Prop :=
  ∀ (s : State) (tid : Nat) (t : Team) (o : SBin),
    let r := viewOf s tid t
    let w := tyWidth o.ty
    let x := sx r w o.a
    let y := sy r w o.b
    (CanIssue s tid t (.smov o) → Completes (.smov o) s tid
      (writeRegs s tid [.s o.d (to64 o.ty (match o.b with | .reg _ => x | .imm _ | .lit _ => y))])) ∧
    (∀ c, CanIssue s tid t (.ssel o c) → Completes (.ssel o c) s tid
      (writeRegs s tid [.s o.d (to64 o.ty (if cget r c then x else y))])) ∧
    (∀ rel, CanIssue s tid t (.scmp o rel) → Completes (.scmp o rel) s tid
      (writeRegs s tid [.c o.d (holds rel o.ty.isSigned x y)]))

/-- The scalar instructions (spec/09 R210-R212). -/
def Obligations.ScalarInstructions : Prop := Spec.ScalarArithmetic ∧ Spec.ScalarMoveSelectCompare

/-- The mask instructions with a mask destination, bit by bit (spec/09 R213, R215; spec/03 R48). -/
def Sys2Proof.Spec.MaskLogic : Prop :=
  ∀ (s : State) (tid : Nat) (t : Team) (k d a : Nat),
    let r := viewOf s tid t
    let done (i : Instr) (f : Nat → Bool) : Prop := CanIssue s tid t i →
      ∃ m : Mask, Completes i s tid (writeRegs s tid [.k d m]) ∧ ∀ l, l < r.lanes → l < 1024 → m.getLsbD l = f l
    (∀ b, done (.kand k d a b) fun l => (kget r a).getLsbD l && (kget r b).getLsbD l) ∧
    (∀ b, done (.kor k d a b) fun l => (kget r a).getLsbD l || (kget r b).getLsbD l) ∧
    (∀ b, done (.kxor k d a b) fun l => (kget r a).getLsbD l != (kget r b).getLsbD l) ∧
    (∀ b, done (.kandn k d a b) fun l => (kget r a).getLsbD l && !(kget r b).getLsbD l) ∧
    done (.knot k d a) (fun l => !(kget r a).getLsbD l) ∧
    done (.kmov k d a) (fun l => (kget r a).getLsbD l) ∧
    done (.kfromv k d a) (fun l => (vget r a l).getLsbD 0)

/-- The mask instructions with another destination, and KSETW (spec/09 R213-R215). -/
def Sys2Proof.Spec.MaskMoves : Prop :=
  ∀ (s : State) (tid : Nat) (t : Team) (k d a : Nat),
    let r := viewOf s tid t
    let m := kget r a
    (CanIssue s tid t (.kcnt k d a) → Completes (.kcnt k d a) s tid
      (writeRegs s tid [.s d (BitVec.ofNat 64 ((List.range 1024).filter fun l => m.getLsbD l).length)])) ∧
    (CanIssue s tid t (.kfirst k d a) → ∃ x : W64, Completes (.kfirst k d a) s tid (writeRegs s tid [.s d x]) ∧
      ((m = 0 ∧ x = BitVec.allOnes 64) ∨
        (m.getLsbD x.toNat = true ∧ ∀ l, l < x.toNat → m.getLsbD l = false))) ∧
    (∀ md, CanIssue s tid t (.ktest k d a md) → ∃ b : Bool, Completes (.ktest k d a md) s tid (writeRegs s tid [.c d b]) ∧
      (b = true ↔ match md with
        | .any => ∃ l, m.getLsbD l = true
        | .all => ∀ l, r.live.getLsbD l = true → m.getLsbD l = true
        | .none => ∀ l, m.getLsbD l = false)) ∧
    (CanIssue s tid t (.ktov k d a) → Completes (.ktov k d a) s tid
      (writeRegs s tid ((List.range r.lanes).map fun l => .v d l (if m.getLsbD l then 1 else 0)))) ∧
    (∀ b, CanIssue s tid t (.kgetw k d a b) → Completes (.kgetw k d a b) s tid
      (writeRegs s tid [.s d ((m >>> (32 * ((sy r 64 b).toNat % 32))).setWidth 32 |>.setWidth 64)])) ∧
    (∀ b, CanIssue s tid t (.ksetw k d a b) →
      let i := (sy r 64 b).toNat % 32
      (r.lanes / 32 ≤ i → Completes (.ksetw k d a b) s tid s) ∧
      (i < r.lanes / 32 → ∃ n : Mask, Completes (.ksetw k d a b) s tid (writeRegs s tid [.k d n]) ∧
        ∀ l, l < 1024 → n.getLsbD l = if l / 32 = i then (sget r a).getLsbD (l % 32) else (kget r d).getLsbD l))

/-- The mask instructions (spec/09 R213-R215; spec/03 R48). -/
def Obligations.MaskInstructions : Prop := Spec.MaskLogic ∧ Spec.MaskMoves

/-- What GETSYS gives of each selector (spec/07 R165, R166; spec/09 R204, R208). -/
def Sys2Proof.Spec.SystemRegisterReads : Prop :=
  ∀ (s : State) (tid : Nat) (t : Team) (k d : Nat),
    let done (sel : Sel) (ws : List Wr) : Prop := CanIssue s tid t (.getsys k d sel) →
      (sel = .fpflags → flagsPending s tid = false) → Completes (.getsys k d sel) s tid (writeRegs s tid ws)
    let nat (n : Nat) : List Wr := [.s d (BitVec.ofNat 64 n)]
    done .teamid (nat t.teamid) ∧ done .crewid (nat t.crewid) ∧ done .clusteridx (nat t.cx) ∧
    done .clusteridy (nat t.cy) ∧ done .clusteridz (nat t.cz) ∧ done .stage (nat t.stage) ∧ done .role (nat t.role) ∧
    done .lanes (nat t.lanes) ∧ done .nregs (nat t.nregs) ∧ done .fpmode (nat t.fpmode.toNat) ∧
    done .fpflags (nat t.fpflags.toNat) ∧ done .stampfloor [.s d (relFloor s t)] ∧ done .batchnext (nat t.batchNext) ∧
    done .faultcode [.s d t.faultcode] ∧ done .faultpc [.s d t.faultpc] ∧ done .resumepc [.s d t.resumepc] ∧
    done .faultmask [.k d t.faultmask] ∧
    done .laneid ((List.range t.lanes).map fun l => .v d l (BitVec.ofNat 32 l)) ∧
    done .faultaddr ((List.range t.lanes).flatMap fun l =>
      [.v d l ((smGet 0 t.faultaddr l).setWidth 32), .v (d + 1) l ((smGet 0 t.faultaddr l >>> 32).setWidth 32)]) ∧
    done .horizoncache [.s d (s.core t.home).hcache] ∧
    (∀ c, tbGet s.contexts t.ctx = some c →
      done .handlerbase [.s d c.handlerbase] ∧ done .poolcounter [.s d c.poolcounter] ∧
      done .redlogbase [.s d c.redlogbase]) ∧
    (CanIssue s tid t (.getsys k d .batchdone) → ∃ n : Nat,
      Completes (.getsys k d .batchdone) s tid (writeRegs s tid (nat n)) ∧ n ≤ t.batchNext - 1 ∧
      (∀ c ∈ s.cmds, ∀ b, c.2.team = tid → c.2.batch = some b → n ≤ b - 1) ∧
      (n = t.batchNext - 1 ∨ ∃ c ∈ s.cmds, ∃ b, c.2.team = tid ∧ c.2.batch = some b ∧ n = b - 1))

/-- What SETSYS writes (spec/07 R165, R166; spec/09 R208; spec/21 R394). -/
def Sys2Proof.Spec.SystemRegisterWrites : Prop :=
  ∀ (s : State) (tid : Nat) (t : Team) (k a : Nat),
    let v := sget (viewOf s tid t) a
    let done (sel : Sel) (s1 : State) : Prop := CanIssue s tid t (.setsys k a sel) →
      (sel = .fpflags ∨ sel = .fpmode → flagsPending s tid = false) → Completes (.setsys k a sel) s tid s1
    done .fpmode (modTeam s tid fun t => { t with fpmode := v.setWidth 2 }) ∧
    done .fpflags (modTeam s tid fun t => { t with fpflags := v.setWidth 5 }) ∧
    done .handlerbase (modCtx s t.ctx fun c => { c with handlerbase := v }) ∧
    done .poolcounter (modCtx s t.ctx fun c => { c with poolcounter := v }) ∧
    done .redlogbase (modCtx s t.ctx fun c => { c with redlogbase := v }) ∧
    (v.toNat / 1024 ≤ 2 ^ 53 → done .stampfloor (modTeam s tid fun t =>
      { t with floor := if t.floor.toNat < v.toNat then v else t.floor })) ∧
    (2 ^ 53 < v.toNat / 1024 → done .stampfloor (modTeam s tid fun t => raiseFloor t (BitVec.ofNat 64 (2 ^ 63))))

/-- GETSYS and SETSYS (spec/07 R165, R166). -/
def Obligations.SystemRegisters : Prop := Spec.SystemRegisterReads ∧ Spec.SystemRegisterWrites

/-! ### Control -/

/-- Where branches, calls and jumps go, and the fault of a target that is no multiple of 8 (spec/09 R197, R198; spec/07 R141, R144). That
this fault, which names no address, leaves 0 in FAULTADDR is deduced (spec/09 R204; notes/assumptions/16). -/
def Obligations.BranchesAndCalls : Prop :=
  ∀ (s : State) (tid : Nat) (t : Team) (off : Int),
    let r := viewOf s tid t
    let target := t.pc + BitVec.ofInt 64 (8 * off)
    let reach (i : Instr) (a : W64) (s1 : State) : Prop :=
      CanIssue s tid t i → (a.toNat % 8 = 0 → Jumps i s tid s1 a) ∧
        (a.toNat % 8 ≠ 0 → Faults i s tid t s ⟨.misaligned, 0, t.live, [], 1, 0⟩)
    reach (.br off) target s ∧
    (∀ c sns, (cget r c ≠ sns → reach (.brc c sns off) target s) ∧
      (cget r c = sns → CanIssue s tid t (.brc c sns off) → Completes (.brc c sns off) s tid s)) ∧
    (∀ m sns, (decide (kget r m = 0) ≠ sns → reach (.brz m sns off) target s) ∧
      (decide (kget r m = 0) = sns → CanIssue s tid t (.brz m sns off) → Completes (.brz m sns off) s tid s)) ∧
    (∀ lnk, reach (.call lnk off) target (writeRegs s tid [.s lnk (t.pc + 8)])) ∧
    (∀ k a, reach (.jmp k a) (sget r a) s) ∧
    (∀ lnk, (sget r lnk ≠ 1 → reach (.loop lnk off) target (writeRegs s tid [.s lnk (sget r lnk - 1)])) ∧
      (sget r lnk = 1 → CanIssue s tid t (.loop lnk off) →
        Completes (.loop lnk off) s tid (writeRegs s tid [.s lnk 0])))

/-- NOP, YIELD, EXIT, MBOX and RTT (spec/09 R200, R201, R206, R209; spec/03 R68). -/
def Obligations.ControlEffects : Prop :=
  ∀ (s : State) (tid : Nat) (t : Team) (k : Nat),
    let r := viewOf s tid t
    (CanIssue s tid t (.nop k) → Completes (.nop k) s tid s) ∧
    (CanIssue s tid t (.yield k) →
      Completes (.yield k) s tid (modTeam s tid fun t => { t with notNext := true })) ∧
    (∀ u, u.notNext = true → readyTeam s tid u = false) ∧
    (CanIssue s tid t (.exit k) → Places (.exit k) s tid (retire s tid)) ∧
    (∀ skip, CanIssue s tid t (.rtt k skip) → Places (.rtt k skip) s tid (leaveHandler s tid skip)) ∧
    (∀ a, CanIssue s tid t (.escalate k a) → Places (.escalate k a) s tid (park s tid (sget r a))) ∧
    (∀ a tag, CanIssue s tid t (.mbox k a tag) →
      let c := s.core t.home
      let e : Mail := ⟨sget r a, tag, t.ctx, slotNum t⟩
      let on := c.attach = true ∧ c.dctx = t.ctx
      (¬on → Completes (.mbox k a tag) s tid s) ∧
      (on → c.mail.length < 16 →
        Completes (.mbox k a tag) s tid (modCore s t.home fun c => { c with mail := c.mail ++ [e] })) ∧
      (on → 16 ≤ c.mail.length → Completes (.mbox k a tag) s tid
        (modCore s t.home fun c => { c with mail := c.mail.drop 1 ++ [e], ovr := true })))

/-- TRAP and BRKPT raise their faults, with TRAP's code in TCODE; BRKPT halts under a debugger with HALTBRK (spec/09 R203,
R204). -/
def Obligations.TrapAndBreakpoint : Prop :=
  ∀ (s : State) (tid : Nat) (t : Team) (k : Nat),
    (∀ code, CanIssue s tid t (.trap k code) →
      Faults (.trap k code) s tid t s ⟨.softwareTrap, code, t.live, [], 1, 0⟩) ∧
    (CanIssue s tid t (.brkpt k) →
      let c := s.core t.home
      (c.attach = true ∧ c.dctx = t.ctx ∧ c.haltbrk = true →
        Places (.brkpt k) s tid (modTeam s tid fun t => { t with halted := true })) ∧
      (¬(c.attach = true ∧ c.dctx = t.ctx ∧ c.haltbrk = true) →
        Faults (.brkpt k) s tid t s ⟨.breakpoint, 0, t.live, [], 1, 0⟩))

/-! ### Vector integer instructions -/

/-- The vector integer instructions of two operands, lane by lane in terms of bit vectors of W bits (spec/11 R225, R227, R232;
spec/05 R105). -/
def Obligations.VectorIntegerArithmetic : Prop :=
  ∀ (s : State) (tid : Nat) (t : Team) (o : VBin),
    let r := viewOf s tid t
    let w := tyWidth o.ty
    let sg := o.ty.isSigned
    let x (l : Nat) := vx r o.ty w o.a l
    let y (l : Nat) := vy r o.ty w o.b l
    let wr (z : Nat → BitVec w) : State := writeRegs s tid (laneWrites r o.k o.d o.ty z)
    (CanIssue s tid t (.vadd o) → Completes (.vadd o) s tid (wr fun l => x l + y l)) ∧
    (CanIssue s tid t (.vsub o) → Completes (.vsub o) s tid (wr fun l => x l - y l)) ∧
    (CanIssue s tid t (.vmul o) → Completes (.vmul o) s tid (wr fun l => x l * y l)) ∧
    (CanIssue s tid t (.vmulh o) → Completes (.vmulh o) s tid (wr fun l => mulHi sg (x l) (y l))) ∧
    (CanIssue s tid t (.vdiv o) → Completes (.vdiv o) s tid (wr fun l => quot sg (x l) (y l))) ∧
    (CanIssue s tid t (.vrem o) → Completes (.vrem o) s tid (wr fun l => remd sg (x l) (y l))) ∧
    (CanIssue s tid t (.vmin o) → Completes (.vmin o) s tid (wr fun l => if less sg (y l) (x l) then y l else x l)) ∧
    (CanIssue s tid t (.vmax o) → Completes (.vmax o) s tid (wr fun l => if less sg (x l) (y l) then y l else x l)) ∧
    (CanIssue s tid t (.vand o) → Completes (.vand o) s tid (wr fun l => x l &&& y l)) ∧
    (CanIssue s tid t (.vor o) → Completes (.vor o) s tid (wr fun l => x l ||| y l)) ∧
    (CanIssue s tid t (.vxor o) → Completes (.vxor o) s tid (wr fun l => x l ^^^ y l)) ∧
    (CanIssue s tid t (.vshl o) → Completes (.vshl o) s tid (wr fun l => x l <<< ((y l).toNat % w))) ∧
    (CanIssue s tid t (.vshr o) → Completes (.vshr o) s tid (wr fun l => shr sg (x l) (y l))) ∧
    (CanIssue s tid t (.vrot o) → Completes (.vrot o) s tid (wr fun l => (x l).rotateLeft ((y l).toNat % w))) ∧
    (∀ sub, CanIssue s tid t (.vadds o sub) → Completes (.vadds o sub) s tid (wr fun l =>
      saturate sg w (if sub then valOf sg (x l) - valOf sg (y l) else valOf sg (x l) + valOf sg (y l))))

/-- The vector integer instructions with other operand forms (spec/11 R232-R236). -/
def Sys2Proof.Spec.VectorIntegerForms : Prop :=
  ∀ (s : State) (tid : Nat) (t : Team),
    let r := viewOf s tid t
    (∀ o : V3,
      let w := tyWidth o.ty
      let x (a l : Nat) := vx r o.ty w a l
      (CanIssue s tid t (.vmad o) → Completes (.vmad o) s tid (writeRegs s tid
        (laneWrites r o.k o.d o.ty fun l => x o.a l * x o.b l + x o.c l))) ∧
      (CanIssue s tid t (.vbfi o) → ∃ z : Nat → BitVec w, Completes (.vbfi o) s tid (writeRegs s tid
        (laneWrites r o.k o.d o.ty z)) ∧ ∀ l i, i < w →
          let pos := (x o.b l).toNat % 64
          let len := min ((x o.b l).toNat / 256 % 128) w
          (z l).getLsbD i = if pos ≤ i ∧ i < pos + len then (x o.a l).getLsbD (i - pos) else (x o.c l).getLsbD i)) ∧
    (∀ o : VUn,
      let w := tyWidth o.ty
      let x (l : Nat) := vx r o.ty w o.a l
      let wr (z : Nat → BitVec w) : State := writeRegs s tid (laneWrites r o.k o.d o.ty z)
      (CanIssue s tid t (.vabs o) → Completes (.vabs o) s tid (wr fun l => if (x l).toInt < 0 then -(x l) else x l)) ∧
      (CanIssue s tid t (.vneg o) → Completes (.vneg o) s tid (wr fun l => -(x l))) ∧
      (CanIssue s tid t (.vnot o) → Completes (.vnot o) s tid (wr fun l => ~~~(x l))) ∧
      (CanIssue s tid t (.vpopc o) → Completes (.vpopc o) s tid (wr fun l =>
        BitVec.ofNat w ((List.range w).filter fun i => (x l).getLsbD i).length)) ∧
      (CanIssue s tid t (.vclz o) → ∃ n : Nat → Nat, Completes (.vclz o) s tid (wr fun l => BitVec.ofNat w (n l)) ∧
        ∀ l, n l ≤ w ∧ (∀ i, i < n l → (x l).getMsbD i = false) ∧ (n l < w → (x l).getMsbD (n l) = true))) ∧
    (∀ o : VBin,
      let w := tyWidth o.ty
      let x (l : Nat) := vx r o.ty w o.a l
      let y (l : Nat) := vy r o.ty w o.b l
      let wr (z : Nat → BitVec w) : State := writeRegs s tid (laneWrites r o.k o.d o.ty z)
      (∀ ks, CanIssue s tid t (.vsel o ks) → Completes (.vsel o ks) s tid
        (wr fun l => if (kget r ks).getLsbD l then x l else y l)) ∧
      (CanIssue s tid t (.vmov o) → Completes (.vmov o) s tid
        (wr fun l => match o.b with | .reg _ => x l | .sb _ | .lit _ => y l)) ∧
      (CanIssue s tid t (.vmulw o) → Completes (.vmulw o) s tid (writeRegs s tid
        (laneWrites r o.k o.d .b64 fun l => BitVec.ofInt 64 (valOf o.ty.isSigned (vget r o.a l) *
          valOf o.ty.isSigned (BitVec.ofNat 32 (vectorY1 r l o.b)))))) ∧
      (CanIssue s tid t (.vbfe o) → ∃ z : Nat → BitVec w, Completes (.vbfe o) s tid (wr z) ∧ ∀ l i, i < w →
          let pos := (y l).toNat % 64
          let len := min ((y l).toNat / 256 % 128) w
          (z l).getLsbD i = if i < len then (x l).getLsbD (pos + i)
            else o.ty.isSigned && decide (0 < len) && (x l).getLsbD (pos + len - 1))) ∧
    (∀ k d a ww, CanIssue s tid t (.vlane k d a ww) → Completes (.vlane k d a ww) s tid (writeRegs s tid
      (laneWrites r k d .b32 fun l => BitVec.ofNat 32 (if ww then l % 32 else l) + (sget r a).setWidth 32)))

/-- VCMP and VADDC write a mask in the active lanes; with none active they change nothing (spec/11 R227, R234, R235). -/
def Sys2Proof.Spec.VectorCompareAndCarry : Prop :=
  ∀ (s : State) (tid : Nat) (t : Team) (o : VBin),
    let r := viewOf s tid t
    let w := tyWidth o.ty
    let x (l : Nat) := vx r o.ty w o.a l
    let y (l : Nat) := vy r o.ty w o.b l
    let on (l : Nat) : Bool := decide (l < r.lanes) && (kget r o.k).getLsbD l
    (∀ rel, CanIssue s tid t (.vcmp o rel) →
      (active r o.k = [] → Completes (.vcmp o rel) s tid s) ∧
      (active r o.k ≠ [] → ∃ m : Mask, Completes (.vcmp o rel) s tid (writeRegs s tid [.k o.d m]) ∧
        ∀ l, l < 1024 → m.getLsbD l = if on l then holds rel o.ty.isSigned (x l) (y l) else (kget r o.d).getLsbD l)) ∧
    (∀ kc, CanIssue s tid t (.vaddc o kc) →
      let c (l : Nat) : Nat := if (kget r kc).getLsbD l then 1 else 0
      (active r o.k = [] → Completes (.vaddc o kc) s tid s) ∧
      (active r o.k ≠ [] → ∃ m : Mask, Completes (.vaddc o kc) s tid (writeRegs s tid
          (laneWrites r o.k o.d o.ty (fun l => x l + y l + BitVec.ofNat w (c l)) ++ [.k kc m])) ∧
        ∀ l, l < 1024 → m.getLsbD l =
          if on l then decide (2 ^ w ≤ (x l).toNat + (y l).toNat + c l) else (kget r kc).getLsbD l))

/-- The vector integer instructions of other operand forms (spec/11 R232-R236). -/
def Obligations.VectorIntegerOtherForms : Prop := Spec.VectorIntegerForms ∧ Spec.VectorCompareAndCarry

/-! ### Vector floating-point instructions -/

/-- The floating-point instructions of two operands and of one: each lane's result, and the exceptions of all lanes in FPFLAGS
(spec/11 R231, R237-R246; spec/05 R112). -/
def Sys2Proof.Spec.VectorFloatResults : Prop :=
  ∀ (s : State) (tid : Nat) (t : Team),
    let r := viewOf s tid t
    let fp (i : Instr) (k d : Nat) (ty : Ty) (f : Nat → FVal) : Prop := CanIssue s tid t i →
      Completes i s tid (modTeam (writeRegs s tid ((active r k).flatMap fun l => wrT ty d l (f l).1)) tid
        fun t => { t with fpflags := t.fpflags ||| ((active r k).map fun l => (f l).2).foldl (· ||| ·) 0 })
    (∀ o : VBin,
      let two (i : Instr) (f : Fp.Fmt → Nat → Nat → Fp.Res) : Prop := fp i o.k o.d o.ty fun l =>
        perHalf o.ty (fun x y => ((f (Fp.fmtOf o.ty) x y).bits, (f (Fp.fmtOf o.ty) x y).ex))
          (vgetT r o.ty o.a l) (vectorY r o.ty l o.b)
      (∀ rm, two (.vfadd o rm) (Fp.fAdd · rm)) ∧ (∀ rm, two (.vfsub o rm) (Fp.fSub · rm)) ∧
      (∀ rm, two (.vfmul o rm) (Fp.fMul · rm)) ∧ (∀ num, two (.vfmin o num) (Fp.fMinMax · false num)) ∧
      (∀ num, two (.vfmax o num) (Fp.fMinMax · true num)) ∧
      (∀ md, two (.vfcopysign o md) fun F x y => ⟨Fp.fCopySign F md x y, 0⟩) ∧
      (∀ rm, fp (.vfscale o rm) o.k o.d o.ty fun l => perHalf o.ty (fun x _ =>
        ofRes (Fp.fScale (Fp.fmtOf o.ty) rm x (BitVec.ofNat 32 (vectorY1 r l o.b)).toInt)) (vgetT r o.ty o.a l) 0)) ∧
    (∀ o : VUn,
      let one (i : Instr) (dt : Ty) (f : Fp.Fmt → Nat → Fp.Res) : Prop := fp i o.k o.d dt fun l =>
        perHalf o.ty (fun x _ => ((f (Fp.fmtOf o.ty) x).bits, (f (Fp.fmtOf o.ty) x).ex)) (vgetT r o.ty o.a l) 0
      one (.vfrsqs o) o.ty Fp.rsqSeed ∧ one (.vfrcps o) o.ty Fp.rcpSeed ∧
      one (.vfabs o) o.ty (fun F x => ⟨Fp.fAbs F x, 0⟩) ∧ one (.vfneg o) o.ty (fun F x => ⟨Fp.fNeg F x, 0⟩) ∧
      one (.vfclass o) .b32 (fun F x => ⟨Fp.fClass F x, 0⟩) ∧
      (∀ rm exact, one (.vfrnd o rm exact) o.ty (Fp.fRnd · rm exact)) ∧ one (.vfexp2 o) o.ty Fp.fExp2 ∧
      one (.vflog2 o) o.ty Fp.fLog2 ∧ one (.vfgetexp o) o.ty Fp.fGetExp ∧ one (.vfgetman o) o.ty Fp.fGetMan) ∧
    (∀ o : V3, fp (.vfma o) o.k o.d o.ty fun l =>
      fmaElem o.ty (Rm.ofCode r.fpmode.toNat) (vgetT r o.ty o.a l) (vgetT r o.ty o.b l) (vgetT r o.ty o.c l))

/-- VFCMP writes a mask in the active lanes, of the chosen half of a packed type (spec/11 R227, R240). -/
def Sys2Proof.Spec.VectorFloatCompare : Prop :=
  ∀ (s : State) (tid : Nat) (t : Team) (o : VBin) (rel : Rel) (u sig half : Bool),
    let i : Instr := .vfcmp o rel u sig half
    let r := viewOf s tid t
    let pick (x : Nat) : Nat := if o.ty.isPacked then (if half then x / 65536 % 65536 else x % 65536) else x
    let c (l : Nat) : Bool × BitVec 5 :=
      Fp.fCmp (Fp.fmtOf o.ty) rel u sig (pick (vgetT r o.ty o.a l)) (pick (vectorY r o.ty l o.b))
    CanIssue s tid t i →
      (active r o.k = [] → Completes i s tid s) ∧
      (active r o.k ≠ [] → ∃ m : Mask, Completes i s tid (modTeam (writeRegs s tid [.k o.d m]) tid
          fun t => { t with fpflags := t.fpflags ||| ((active r o.k).map fun l => (c l).2).foldl (· ||| ·) 0 }) ∧
        ∀ l, l < 1024 → m.getLsbD l =
          if decide (l < r.lanes) && (kget r o.k).getLsbD l then (c l).1 else (kget r o.d).getLsbD l)

/-- The vector floating-point instructions that complete at issue (spec/11 R237-R246). -/
def Obligations.VectorFloat : Prop := Spec.VectorFloatResults ∧ Spec.VectorFloatCompare

/-- VFDIV and VFSQRT are issued as long-latency operations that count their flags and that will write every active lane's result, in one
register or, for .d, in two, and nothing else; with no active lane they complete at once (spec/11 R238; spec/07 R147, R148). -/
def Obligations.LongArithmeticIssue : Prop :=
  ∀ (s : State) (tid : Nat) (t : Team),
    let r := viewOf s tid t
    let long (i : Instr) (k v0 : Nat) (ty : Ty) (f : Nat → FVal) : Prop := CanIssue s tid t i →
      (active r k = [] → Completes i s tid s) ∧
      (active r k ≠ [] → ∃ dest : Tab W32,
        Completes i s tid (launchOp s tid { newOp t tid i ⟨dest, [], []⟩ .arith with
          ex := ((active r k).map fun l => (f l).2).foldl (· ||| ·) 0 }) ∧
        (∀ l ∈ active r k, ∀ e x, Wr.v e l x ∈ wrT ty v0 l (f l).1 → tbGet dest (vkey e l) = some x) ∧
        (∀ key x, tbGet dest key = some x → ∃ l ∈ active r k, ∃ e, key = vkey e l ∧ Wr.v e l x ∈ wrT ty v0 l (f l).1) ∧
        (∀ l z, (ty = .d → wrT ty v0 l z = [.v v0 l (BitVec.ofNat 32 z), .v (v0 + 1) l (BitVec.ofNat 32 (z / 2 ^ 32))]) ∧
          (ty = .f ∨ ty.isPacked = true → wrT ty v0 l z = [.v v0 l (BitVec.ofNat 32 z)])))
    (∀ o fs rm, long (.vfdiv o fs rm) o.k o.d o.ty fun l => perHalf o.ty
      (fun x y => ofRes (Fp.fDiv (Fp.fmtOf o.ty) rm x y)) (vgetT r o.ty o.a l) (vectorY r o.ty l o.b)) ∧
    (∀ o fs rm, long (.vfsqrt o fs rm) o.k o.d o.ty fun l => perHalf o.ty
      (fun x _ => ofRes (Fp.fSqrt (Fp.fmtOf o.ty) rm x)) (vgetT r o.ty o.a l) 0)

/-! ### Conversion, permute and prefix instructions -/

/-- The conversions and the permutes, lane by lane (spec/11 R247-R251). -/
def Obligations.ConversionsAndPermutes : Prop :=
  ∀ (s : State) (tid : Nat) (t : Team),
    let r := viewOf s tid t
    let fp (i : Instr) (k d : Nat) (ty : Ty) (f : Nat → FVal) : Prop := CanIssue s tid t i →
      Completes i s tid (modTeam (writeRegs s tid ((active r k).flatMap fun l => wrT ty d l (f l).1)) tid
        fun t => { t with fpflags := t.fpflags ||| ((active r k).map fun l => (f l).2).foldl (· ||| ·) 0 })
    let put (i : Instr) (k d : Nat) (ty : Ty) (f : Nat → Nat) : Prop := CanIssue s tid t i →
      Completes i s tid (writeRegs s tid ((active r k).flatMap fun l => wrT ty d l (f l)))
    (∀ k d a dst src rm, fp (.vcvt k d a dst src rm) k d dst fun l =>
      cvtElem dst src rm (vgetT r src a l % 2 ^ tyWidth src)) ∧
    (∀ o rm, fp (.vpack o rm) o.k o.d .b32 fun l => packElem o.ty rm (vget r o.a l).toNat (vectorY1 r l o.b)) ∧
    (∀ o half, fp (.vunpk o half) o.k o.d .b32 fun l => unpkElem o.ty half (vget r o.a l).toNat) ∧
    (∀ o byte, put (.vqnt o byte) o.k o.d .b32 fun l =>
      let q := qntCode o.ty (vectorY1 r l o.b % 256) (vget r o.a l).toNat
      let old := (vget r o.d l).toNat
      if o.ty = .t8 then old - old / 256 ^ byte % 256 * 256 ^ byte + q * 256 ^ byte else q) ∧
    (∀ o byte, put (.vdqnt o byte) o.k o.d .b32 fun l =>
      let x := (vget r o.a l).toNat
      dqntVal o.ty (vectorY1 r l o.b % 256) (if o.ty = .t8 then x / 256 ^ byte % 256 else x % 64)) ∧
    (∀ o md, put (.vshfl o md) o.k o.d o.ty fun l =>
      let j := l % 32
      let p := vectorY1 r l o.b % 32
      vgetT r o.ty o.a (l / 32 * 32 + match md with
        | .index => p
        | .xor => j ^^^ p
        | .up => if p ≤ j then j - p else j
        | .down => if j + p < 32 then j + p else j)) ∧
    (∀ o, put (.vxch o) o.k o.d o.ty fun l =>
      let i := vectorY1 r l o.b
      if i < r.lanes then vgetT r o.ty o.a i else 0)

/-- Folds, scans and the moves between a lane and a scalar (spec/11 R252, R253, R255). -/
def Sys2Proof.Spec.FoldsScansAndLaneMoves : Prop :=
  ∀ (s : State) (tid : Nat) (t : Team),
    let r := viewOf s tid t
    (∀ o op num, CanIssue s tid t (.vfold o op num) →
      (active r o.k = [] → Completes (.vfold o op num) s tid s) ∧
      (∀ v, foldTeam r o.k o.a o.ty op num = some v → Completes (.vfold o op num) s tid
        (modTeam (writeRegs s tid [.s o.d (foldScalar o.ty v.1)]) tid fun t => { t with fpflags := t.fpflags ||| v.2 }))) ∧
    (∀ o op num excl, CanIssue s tid t (.vscan o op num excl) →
      let x := scanLanes r o.a o.ty op num excl (active r o.k) none
      Completes (.vscan o op num excl) s tid (modTeam (writeRegs s tid
        (x.1.flatMap fun v => wrT o.ty o.d v.1 v.2)) tid fun t => { t with fpflags := t.fpflags ||| x.2 }) ∧
      x.1.map (·.1) = active r o.k) ∧
    (∀ k d a ty b, CanIssue s tid t (.vreadl k d a ty b) →
      let i := indexVal r ty b
      (active r k = [] → Completes (.vreadl k d a ty b) s tid s) ∧
      (active r k ≠ [] → Completes (.vreadl k d a ty b) s tid (writeRegs s tid
        [.s d (if i < r.lanes then BitVec.ofNat 64 (vgetT r ty a i) else 0)]))) ∧
    (∀ k d a ty b, CanIssue s tid t (.vwritel k d a ty b) →
      let i := indexVal r ty b
      (i < r.lanes ∧ (kget r k).getLsbD i = true → Completes (.vwritel k d a ty b) s tid
        (writeRegs s tid (wrT ty d i (sget r a).toNat))) ∧
      (¬(i < r.lanes ∧ (kget r k).getLsbD i = true) → Completes (.vwritel k d a ty b) s tid s))

/-- The operation of a fold or scan, with its exceptions: exact modulo 2^W on integers, rounded to nearest, or a minimum or maximum, on
floating-point values (spec/11 R252, R239). -/
def Sys2Proof.Spec.foldOp (ty : Ty) (op : FOp) (num : Bool) (p q : Nat) : Nat × BitVec 5 :=
  let F := Fp.fmtOf ty
  let x : BitVec (tyWidth ty) := BitVec.ofNat _ p
  let y : BitVec (tyWidth ty) := BitVec.ofNat _ q
  let sg := ty.isSigned
  if ty.isFloat then
    let z := match op with
      | .min => Fp.fMinMax F false num p q
      | .max => Fp.fMinMax F true num p q
      | _ => Fp.fAdd F .rne p q
    (z.bits, z.ex)
  else ((match op with
    | .add => x + y
    | .min => if less sg y x then y else x
    | .max => if less sg x y then y else x
    | .and => x &&& y
    | .or => x ||| y
    | .xor => x ^^^ y).toNat, 0)

/-- Combine: both present, the lower lanes' is the first operand; one present, it is unchanged (spec/11 R252). -/
def Sys2Proof.Spec.joined (f : Nat → Nat → Nat × BitVec 5) : Option (Nat × BitVec 5) → Option (Nat × BitVec 5) → Option (Nat × BitVec 5)
  | some p, some q => some ((f p.1 q.1).1, p.2 ||| q.2 ||| (f p.1 q.1).2)
  | some p, none => some p
  | none, q => q

/-- Node i of a word's fold after a number of levels: node i of level n + 1 joins nodes 2i and 2i + 1 of level n (spec/11 R252). -/
def Sys2Proof.Spec.foldNode (f : Nat → Nat → Nat × BitVec 5) (x : Nat → Option (Nat × BitVec 5)) : Nat → Nat → Option (Nat × BitVec 5)
  | 0, i => x i
  | n + 1, i => joined f (foldNode f x n (2 * i)) (foldNode f x n (2 * i + 1))

/-- VSCAN's identity of an operation: 0; the largest value or +∞ for .min; the smallest or -∞ for .max; all ones for .and (spec/11 R253). -/
def Sys2Proof.Spec.scanStart (ty : Ty) (op : FOp) : Nat :=
  match op, ty with
  | .min, .i32 => 2 ^ 31 - 1
  | .min, .n32 => 2 ^ 32 - 1
  | .min, .i64 => 2 ^ 63 - 1
  | .min, .n64 => 2 ^ 64 - 1
  | .min, .f => 0x7F800000
  | .min, .d => 0x7FF0000000000000
  | .max, .i32 => 2 ^ 31
  | .max, .i64 => 2 ^ 63
  | .max, .f => 0xFF800000
  | .max, .d => 0xFFF0000000000000
  | .and, .i32 => 2 ^ 32 - 1
  | .and, .n32 => 2 ^ 32 - 1
  | .and, .i64 => 2 ^ 64 - 1
  | .and, .n64 => 2 ^ 64 - 1
  | _, _ => 0

/-- The order of a fold and of a scan, of each type they have: a fold takes a word's lanes through five levels of pairs, an inactive lane empty, and
the words in ascending order; a scan takes the active lanes in ascending order, inclusive or exclusive, the first exclusive value being the
identity. S[D] receives .i32 sign-extended, .n32 and .f zero-extended, 64-bit types whole (spec/11 R252, R253). -/
def Sys2Proof.Spec.FoldAndScanOrder : Prop :=
  ∀ (r : Team) (k a : Nat) (ty : Ty) (op : FOp) (num : Bool), ty ∈ [Ty.i32, .n32, .i64, .n64, .f, .d] →
    let f := foldOp ty op num
    let x (l : Nat) : Nat × BitVec 5 := (vgetT r ty a l, 0)
    (foldTeam r k a ty op num = (List.range (r.lanes / 32)).foldl (fun acc w => joined f acc
      (foldNode f (fun i => if (kget r k).getLsbD (32 * w + i) then some (x (32 * w + i)) else none) 5 0)) none) ∧
    (∀ v : Nat, foldScalar ty v = if ty = .i32 then (BitVec.ofNat 32 v).signExtend 64
      else if ty = .n32 ∨ ty = .f then (BitVec.ofNat 32 v).setWidth 64 else BitVec.ofNat 64 v) ∧
    ((ty.isFloat = true → op = .add ∨ op = .min ∨ op = .max) → ∀ (excl : Bool) (ls : List Nat),
      let upTo (n : Nat) : Option (Nat × BitVec 5) := (ls.take n).foldl (fun acc l => joined f acc (some (x l))) none
      let y := scanLanes r a ty op num excl ls none
      y.2 = ((upTo ls.length).map (·.2)).getD 0 ∧
      ∀ n l, ls[n]? = some l → ∃ v, y.1[n]? = some (l, v) ∧
        (excl = true → v = ((upTo n).map (·.1)).getD (scanStart ty op)) ∧
        (excl = false → (upTo (n + 1)).map (·.1) = some v))

/-- Integer folds are the plain sum, the logic operations those of all active lanes, the least and the greatest of their values (spec/11 R252). -/
def Sys2Proof.Spec.IntegerFoldsGatherTheActiveLanes : Prop :=
  ∀ (r : Team) (k a : Nat) (ty : Ty) (op : FOp), ty.isFloat = false → r.lanes ≤ 1024 → r.lanes % 32 = 0 →
    let vs := (active r k).map fun l => vgetT r ty a l
    let num (u : Nat) : Int := valOf ty.isSigned (BitVec.ofNat (tyWidth ty) u)
    (vs = [] → foldTeam r k a ty op false = none) ∧
    (∀ v rest, vs = v :: rest → ∃ x, foldTeam r k a ty op false = some (x, 0) ∧
      (rest ≠ [] ∧ op = .add → x = (vs.foldl (· + ·) 0) % 2 ^ tyWidth ty) ∧
      (op = .and → x = rest.foldl (· &&& ·) v) ∧ (op = .or → x = rest.foldl (· ||| ·) v) ∧
      (op = .xor → x = rest.foldl (· ^^^ ·) v) ∧
      (ty ∈ [Ty.i32, .n32, .i64, .n64] →
        (op = .min → x ∈ vs ∧ ∀ u ∈ vs, num x ≤ num u) ∧ (op = .max → x ∈ vs ∧ ∀ u ∈ vs, num u ≤ num x)))

/-- Folds, scans and lane moves (spec/11 R252, R253, R255). -/
def Obligations.FoldsAndScans : Prop :=
  Spec.FoldsScansAndLaneMoves ∧ Spec.FoldAndScanOrder ∧ Spec.IntegerFoldsGatherTheActiveLanes

/-! ### The dual word and the clause -/

/-- A dual word completes wherever it can issue; both slots read the team as it was before either writes (spec/07 R160, R163). -/
def Sys2Proof.Spec.DualWordReadsBeforeWrites : Prop :=
  ∀ (s : State) (tid : Nat) (t : Team) (x y : Slot), CanIssue s tid t (.dualWord x y) →
    let r := viewOf s tid t
    let wx := slotWrites r x
    let wy := slotWrites r y
    exec (.dualWord x y) s = .next (finish (advance (modTeam (writeRegs s tid (wx.1 ++ wy.1)) tid
      fun t => { t with fpflags := t.fpflags ||| (wx.2 ||| wy.2) }) tid 1))

/-- Each slot of a dual word writes what the full form writes with A := D (for .vfabs, .vfneg and the moves A := S) and B := S, the
floating-point ones rounding to nearest, and gives the exceptions the full form records (spec/07 R161, R163). -/
def Sys2Proof.Spec.DualSlotsActAsFullForms : Prop :=
  ∀ (r : Team) (x : Slot),
    let w := tyWidth x.ty
    let sg := x.ty.isSigned
    let sc (z : BitVec w) : Prop := slotWrites r x = ([.s x.d (to64 x.ty z)], 0)
    let ve (z : Nat → BitVec w) : Prop := slotWrites r x = (laneWrites r x.k x.d x.ty z, 0)
    let a := sx r w x.d
    let b := sx r w x.s
    let va (l : Nat) := vx r x.ty w x.d l
    let vb (l : Nat) := vx r x.ty w x.s l
    let fp (f : Nat → FVal) : Prop := slotWrites r x = ((active r x.k).flatMap fun l => wrT x.ty x.d l (f l).1,
      ((active r x.k).map fun l => (f l).2).foldl (· ||| ·) 0)
    let F := Fp.fmtOf x.ty
    let two (g : Nat → Nat → Fp.Res) : Prop := fp fun l =>
      perHalf x.ty (fun a b => ((g a b).bits, (g a b).ex)) (vgetT r x.ty x.d l) (vgetT r x.ty x.s l)
    let one (g : Nat → Nat) : Prop := fp fun l => perHalf x.ty (fun a _ => (g a, 0)) (vgetT r x.ty x.s l) 0
    (x.op = .vfadd → two (Fp.fAdd F .rne)) ∧ (x.op = .vfsub → two (Fp.fSub F .rne)) ∧ (x.op = .vfmul → two (Fp.fMul F .rne)) ∧
    (x.op = .vfmin → two (Fp.fMinMax F false false)) ∧ (x.op = .vfmax → two (Fp.fMinMax F true false)) ∧
    (x.op = .vfabs → one (Fp.fAbs F)) ∧ (x.op = .vfneg → one (Fp.fNeg F)) ∧
    (x.op = .nop → slotWrites r x = ([], 0)) ∧
    (x.op = .sadd → sc (a + b)) ∧ (x.op = .ssub → sc (a - b)) ∧ (x.op = .sand → sc (a &&& b)) ∧
    (x.op = .sor → sc (a ||| b)) ∧ (x.op = .sxor → sc (a ^^^ b)) ∧ (x.op = .sshl → sc (a <<< (b.toNat % w))) ∧
    (x.op = .sshr → sc (shr sg a b)) ∧ (x.op = .smov → sc b) ∧
    (x.op = .vadd → ve fun l => va l + vb l) ∧ (x.op = .vsub → ve fun l => va l - vb l) ∧
    (x.op = .vand → ve fun l => va l &&& vb l) ∧ (x.op = .vor → ve fun l => va l ||| vb l) ∧
    (x.op = .vxor → ve fun l => va l ^^^ vb l) ∧ (x.op = .vshl → ve fun l => va l <<< ((vb l).toNat % w)) ∧
    (x.op = .vshr → ve fun l => shr sg (va l) (vb l)) ∧ (x.op = .vmov → ve vb) ∧
    (x.op = .vmin → ve fun l => if less sg (vb l) (va l) then vb l else va l) ∧
    (x.op = .vmax → ve fun l => if less sg (va l) (vb l) then vb l else va l)

/-- The dual word (spec/07 R160-R163). -/
def Obligations.DualWord : Prop := Spec.DualWordReadsBeforeWrites ∧ Spec.DualSlotsActAsFullForms

/-- A legal header enters its clause at the word after it, waiting where its mask names a flag that is not clear; an illegal one
faults; a team that drains stops at a safe point (spec/07 R142-R144; spec/03 R92; spec/23 R441). -/
def Obligations.ClauseEntry : Prop :=
  ∀ (s : State) (tid : Nat) (t : Team) (h : Header), s.curTeam = some (tid, t) → t.clause = none →
    ((Instr.clauseEntry h).wf = true → ¬(t.pre = .drain ∧ h.safe.isSome = true) →
      ∃ wait : Bool, exec (.clauseEntry h) s = .next (modTeam s tid fun t =>
          { t with clause := some ⟨t.pc, h, wait⟩, pc := t.pc + 8 }) ∧
        (wait = true ↔ ∃ f, f < 12 ∧ h.wait.getLsbD f = true ∧ fget t f ≠ 0)) ∧
    ((Instr.clauseEntry h).wf = true → t.pre = .drain → h.safe.isSome = true →
      exec (.clauseEntry h) s = .next (modTeam s tid fun t => { t with pre := .quiesce false })) ∧
    ((Instr.clauseEntry h).wf = false →
      exec (.clauseEntry h) s = .next (finish (boundary
        (enterHandler s tid ⟨.illegalEncoding, 0, t.live, [], 1, 0⟩ t.pc false) tid)))

/-- The next word: eight bytes on inside the clause, and after its last word no clause is left, with the hold of its Y bit;
STAMPFLOOR covers the floors of the page-table entries the instruction translated through, and of the core's L1 lines of the context
those filled before these entries were installed are dropped (spec/07 R140, R142, R146; spec/19 R371, R387). That these lines are dropped is
deduced from R264, R371 and R376 (notes/assumptions/10). -/
def Obligations.NextWordOrNextClause : Prop :=
  ∀ (s : State) (tid n : Nat) (t : Team), s.team tid = some t →
    (∀ u, u ≠ tid → (advance s tid n).team u = s.team u) ∧
    (advance s tid n) = { s with teams := (advance s tid n).teams, cores := (advance s tid n).cores, xlFloor := 0, xlSince := 0 } ∧
    (s.xlSince = 0 → (advance s tid n).cores = s.cores) ∧
    (s.xlSince ≠ 0 → (advance s tid n).cores = (modCore s t.home fun c =>
      { c with l1 := c.l1.filter fun x => !(x.ctx == t.ctx && decide (x.born < s.xlSince)) }).cores) ∧
    ∃ t', (advance s tid n).team tid = some t' ∧ t'.pc = t.pc + BitVec.ofNat 64 (8 * n) ∧ t'.wait = .none ∧
      t' = { t with pc := t'.pc, wait := .none, clause := t'.clause, notNext := t'.notNext, dbg := t'.dbg,
                    halted := t'.halted, floor := maxW t.floor s.xlFloor } ∧
      (t.dbg = .none → t'.dbg = .none ∧ t'.halted = t.halted) ∧
      (t.dbg = .instruction → t'.dbg = .none ∧ t'.halted = true) ∧
      (t.clause = none → t'.clause = none ∧ t'.notNext = t.notNext) ∧
      (∀ c, t.clause = some c →
        ((t.pc.toNat - c.addr.toNat) / 8 + n ≤ c.h.len → t'.clause = some c ∧ t'.notNext = t.notNext) ∧
        (c.h.len < (t.pc.toNat - c.addr.toNat) / 8 + n →
          t'.clause = none ∧ t'.notNext = (t.notNext || c.h.yh) ∧ (t.dbg = .clause → t'.halted = true)))

/-! ### Faults -/

/-- The checks before an instruction, in order: encoding, privilege, role, engine ownership; the first that fails gives the fault
(spec/03 R63, R64). -/
def Obligations.ChecksBeforeAnInstruction : Prop :=
  ∀ (s : State) (tid : Nat) (t : Team) (i : Instr), s.curTeam = some (tid, t) → (encode i).isSome = true →
    (∀ h, i ≠ .clauseEntry h) →
    let faults (c : FCode) : Prop := Faults i s tid t s ⟨c, 0, t.live, [], 1, 0⟩
    (encodingOk i t = false → faults .illegalEncoding) ∧
    (encodingOk i t = true → privileged i = true → t.priv = false → faults .privileged) ∧
    (encodingOk i t = true → privileged i = false → t.priv = false → roleOk i t.role = false →
      faults .roleViolation) ∧
    (encodingOk i t = true → (privileged i = true → t.priv = true) → (t.priv = true ∨ roleOk i t.role = true) →
      needsMx i = true → (s.core t.home).mxOwner ≠ some tid → faults .matrixNotOwned)

/-- EnterHandler: what a precise fault of a team that runs no handler saves, and where the team goes (spec/09 R204, R205). -/
def Obligations.FaultEntersHandler : Prop :=
  ∀ (s : State) (tid : Nat) (t : Team) (f : Flt) (c : Context),
    s.team tid = some t → tbGet s.contexts t.ctx = some c → t.priv = false → t.hwin = true → c.handlerbase ≠ 0 →
    f.code ≠ .reductionLogHalt → f.mask &&& laneMask t.lanes = f.mask → Safety.TeamOk t →
    ∃ t', enterHandler s tid f t.pc false = setTeam s tid t' ∧
      t'.faultcode = BitVec.ofNat 64 (f.code.num + 256 * f.tcode) ∧ t'.faultpc = t.pc ∧ t'.faultmask = f.mask ∧
      (∀ l, smGet 0 t'.faultaddr l = if f.mask.getLsbD l then smGet 0 f.addrs l else 0) ∧
      t'.resumepc = t.pc ∧ t'.shadow = kget t 15 ∧ kget t' 15 = f.mask ∧ t'.priv = true ∧
      t'.pc = c.handlerbase ∧ t'.clause = none ∧ t'.wait = .none ∧
      (∀ n, sget t' n = sget t n) ∧ (∀ r l, vget t' r l = vget t r l) ∧ (∀ n, n ≠ 15 → kget t' n = kget t n) ∧
      (∀ n, cget t' n = cget t n) ∧ (∀ n, fget t' n = fget t n) ∧ t'.fpflags = t.fpflags ∧ t'.fpmode = t.fpmode ∧
      t'.floor = t.floor ∧ t'.live = t.live ∧ t'.q = t.q ∧ t'.batchNext = t.batchNext

/-- A fault in the handler, without a handler window, or with HANDLERBASE 0 parks the team with reason 0 and its record, or for an
uncorrectable error has its launch consume it (spec/09 R204, R207; spec/25 R457, R466). -/
def Obligations.FaultWithoutHandlerParks : Prop :=
  ∀ (s : State) (tid : Nat) (t : Team) (f : Flt) (c : Context),
    s.team tid = some t → tbGet s.contexts t.ctx = some c → f.code ≠ .reductionLogHalt → f.tcode < 256 →
    t.priv = true ∨ t.hwin = false ∨ c.handlerbase = 0 →
    ∃ t', (enterHandler s tid f t.pc false).team tid = some t' ∧ t'.parked = some 0 ∧ t'.priv = t.priv ∧ t'.pc = t.pc ∧
      t'.faultcode = BitVec.ofNat 64 (f.code.num + 256 * f.tcode) ∧ t'.faultpc = t.pc ∧
      (f.code ≠ .dataUncorrectable → (enterHandler s tid f t.pc false).errq = s.errq ++
        [⟨0x0A, 3, f.code.num, 0, t.home, 0, teamOwner s t, t.pc.toNat, 0⟩]) ∧
      (f.code = .dataUncorrectable → (enterHandler s tid f t.pc false).errq = s.errq ∧
        ∀ l, tbGet s.launches t.launch = some l → ∃ l' r, tbGet (enterHandler s tid f t.pc false).launches t.launch = some l' ∧
          l'.dying = some r)

/-- RTT restores k15 and leaves PRIV; without SKIP the team goes on at RESUMEPC, with it past the fault's words, inside the clause it was
in where there are words of it left; where a changed header leaves none, a skip goes on after the clause and a plain return raises
ILLEGAL_ENCODING there (spec/09 R206; spec/07 R168, R170). -/
def Obligations.ReturnFromHandler : Prop :=
  ∀ (s : State) (tid : Nat) (t : Team) (skip : Bool), s.team tid = some t → t.priv = true → Safety.TeamOk t →
    let past := skip && !t.faultLate
    let go := if past then t.faultpc + BitVec.ofNat 64 (8 * (if t.faultAtHeader then 1 else t.faultWords)) else t.resumepc
    let back : Team := { kput t 15 t.shadow with priv := false, parked := none, logHalt := false, wait := .none }
    (kget back 15 = t.shadow &&& laneMask t.lanes ∧ (∀ n, n ≠ 15 → kget back n = kget t n) ∧
      (∀ n, sget back n = sget t n) ∧ (∀ r l, vget back r l = vget t r l) ∧ ∀ n, cget back n = cget t n) ∧
    ((if past then t.faultAtHeader = true else t.resumeHdr = t.resumepc) →
      leaveHandler s tid skip = modTeam s tid fun _ => { back with pc := go, clause := none }) ∧
    (¬(if past then t.faultAtHeader = true else t.resumeHdr = t.resumepc) →
      ∀ s2 w h, fetchWord (modTeam s tid fun _ => back) back t.resumeHdr = (s2, .ok w) → decodeHeader w = .ok h →
        ((go.toNat - t.resumeHdr.toNat) / 8 ≤ h.len → leaveHandler s tid skip =
          modTeam s2 tid fun t => { t with pc := go, clause := some ⟨t.resumeHdr, h, false⟩ }) ∧
        (h.len < (go.toNat - t.resumeHdr.toNat) / 8 → past = true → leaveHandler s tid skip =
          modTeam s2 tid fun t => { t with pc := t.resumeHdr + BitVec.ofNat 64 (8 * (h.len + 1)), clause := none }) ∧
        (h.len < (go.toNat - t.resumeHdr.toNat) / 8 → past = false → leaveHandler s tid skip = enterHandler
          (modTeam s2 tid fun t => { t with pc := go, clause := some ⟨t.resumeHdr, h, false⟩ }) tid
          ⟨.illegalEncoding, 0, back.live, [], 1, 0⟩ go false))

/-! ### Registers -/

/-- s0 reads 0, k0 is the live-lane mask and c0 reads true, whatever is written; every other register reads back what was written, in the
lanes the team has (spec/03 R48, R49; spec/07 R172, R174). -/
def Obligations.RegistersReadBack : Prop :=
  ∀ (t : Team), Safety.TeamOk t →
    (∀ n m x, sget (applyWr t (.s n x)) m = if m = n ∧ n ≠ 0 then x else sget t m) ∧ sget t 0 = 0 ∧
    (∀ n m x, kget (applyWr t (.k n x)) m = if m = n ∧ n ≠ 0 then x &&& laneMask t.lanes else kget t m) ∧
    kget t 0 = t.live ∧
    (∀ n m b, n < 8 → m < 8 → cget (applyWr t (.c n b)) m = if m = n ∧ n ≠ 0 then b else cget t m) ∧ cget t 0 = true ∧
    (∀ r l q m x, l < 1024 → m < 1024 → vget (applyWr t (.v r l x)) q m = if q = r ∧ m = l then x else vget t q m)

/-- The registers an instruction may write, of those that write registers only, as its entry in spec/09, spec/11 and spec/07 names them. -/
def Sys2Proof.Spec.writes (i : Instr) : Option (List Wr → Prop) :=
  let vec (d n : Nat) : Option (List Wr → Prop) := some fun ws => ∀ w ∈ ws, ∃ j l x, j < n ∧ w = .v (d + j) l x
  let sca (d : Nat) : Option (List Wr → Prop) := some fun ws => ∀ w ∈ ws, ∃ x, w = .s d x
  let msk (d : Nat) : Option (List Wr → Prop) := some fun ws => ∀ w ∈ ws, ∃ x, w = .k d x
  let cnd (d : Nat) : Option (List Wr → Prop) := some fun ws => ∀ w ∈ ws, ∃ x, w = .c d x
  match i with
  | .nop _ => some fun ws => ws = []
  | .sadd o | .ssub o | .smul o | .smulh o | .sdiv o | .srem o | .sand o | .sor o | .sxor o | .sshl o | .sshr o
  | .smov o | .ssel o _ | .smin o | .smax o => sca o.d
  | .scmp o _ => cnd o.d
  | .kand _ d _ _ | .kor _ d _ _ | .kxor _ d _ _ | .kandn _ d _ _ | .knot _ d _ | .kmov _ d _ | .kfromv _ d _
  | .ksetw _ d _ _ => msk d
  | .kcnt _ d _ | .kfirst _ d _ | .kgetw _ d _ _ => sca d
  | .ktest _ d _ _ => cnd d
  | .ktov _ d _ => vec d 1
  | .vadd o | .vsub o | .vmul o | .vmulh o | .vdiv o | .vrem o | .vmin o | .vmax o | .vand o | .vor o | .vxor o
  | .vshl o | .vshr o | .vrot o | .vadds o _ | .vsel o _ | .vmov o | .vbfe o => vec o.d (tyRegs o.ty)
  | .vmad o | .vbfi o => vec o.d (tyRegs o.ty)
  | .vabs o | .vneg o | .vnot o | .vpopc o | .vclz o => vec o.d (tyRegs o.ty)
  | .vcmp o _ => msk o.d
  | .vmulw o => vec o.d 2
  | .vlane _ d _ _ => vec d 1
  | .vqnt o _ | .vdqnt o _ => vec o.d 1
  | .vshfl o _ | .vxch o => vec o.d (tyRegs o.ty)
  | .vreadl _ d _ _ _ => sca d
  | .vwritel _ d _ ty _ => vec d (tyRegs ty)
  | _ => none

/-- An instruction that only writes registers writes only its destination: every other register, flag, special register, the other
teams, all memory and every other piece of state stay as they were, but for the marks on pending destinations and the reuse latch
(spec/09 R210-R215; spec/11 R227; spec/07 R151; spec/15 R307). -/
def Obligations.RegisterInstructionFrame : Prop :=
  ∀ (s : State) (tid : Nat) (t : Team) (i : Instr) (p : List Wr → Prop),
    Spec.writes i = some p → CanIssue s tid t i →
    ∃ ws s1, p ws ∧ Completes i s tid s1 ∧
      s1 = { s with teams := s1.teams, ops := s1.ops, cores := s1.cores } ∧
      s1.teams = tbMod s.teams tid (fun t => applyWrs t ws) ∧
      s1.ops.map (fun e => (e.1, { e.2 with rewritten := [] })) = s.ops.map (fun e => (e.1, { e.2 with rewritten := [] })) ∧
      (s1.cores = s.cores ∨ s1.cores = smSet Core.zero s.cores t.home { s.core t.home with latch := none }) ∧
      (∀ k n, memRead s1 k n = memRead s k n)

/-! ### Loads and stores -/

/-- What a load does whose checks all pass and whose lanes meet no watchpoint: the lanes are read, an operation that will write the
destination is put in flight and its flags are counted; an acquire holds the team; one with .sc takes its place in S (spec/13 R262-R265;
spec/07 R147; spec/19 R379). -/
def Sys2Proof.Spec.LoadIssues (i : Instr) (s : State) (tid : Nat) (t : Team) (lanes : List (Nat × W64)) (n : Nat) (acc : Acc)
    (once : Option Mask) (order : Order) (scope : Scope) (page : Bool) (dest : List (Nat × List Byte) → Dest) : Prop :=
  CanIssue s tid t i →
    (lanes = [] → Completes i s tid s) ∧
    (lanes ≠ [] → isRel order = true → mustDrain s tid = true → Blocks i s tid s .drain) ∧
    (lanes ≠ [] → (isRel order = true → mustDrain s tid = false) →
      let s1 := (checkLanes s t tid acc n lanes).1
      let cs := (checkLanes s t tid acc n lanes).2
      (∀ f, checkFault once (failures cs) = some f → Faults i s tid t s1 f) ∧
      (failures cs = [] → watchLanes s1 t false (passed cs) = [] →
        let acq := isAcq order
        let x := readLanes (dropMixed (scState order s1 tid) t (passed cs)) t acq page (passed cs)
        let s' := if order = .sc then noteScRead x.1 x.2.stamp else x.1
        let s2 := if acq && wideScope scope then dropL1 s' t.home t.ctx else s'
        let op := { newOp t tid i (dest x.2.got) .load with
          floor := if acq then maxW x.2.stamp x.2.tag else x.2.stamp, late := lateOf s2.nextId t once x.2.bad,
          ext := extReqs s1 once false page (fun _ _ => none) (passed cs),
          reads := if page then blocksRead s2 (passed cs) x.2 else [] }
        (acq = false → Completes i s tid
          (modTeam (launchOp s2 tid op) tid fun t => { t with tagSeen := maxW t.tagSeen x.2.tag })) ∧
        (acq = true → Holds i s tid (launchOp s2 tid op) s2.nextId)))

/-- LD, LDS and LDPK (spec/13 R257-R266, R269). -/
def Sys2Proof.Spec.LoadsReadAndHold : Prop :=
  ∀ (s : State) (tid : Nat) (t : Team),
    let r := viewOf s tid t
    (∀ o, Spec.LoadIssues (.ld o) s tid t (memLanes r o.k o.a o.b o.nv o.u) (widthBytes o.width)
      ⟨false, some 0, widthBytes o.width, false, false⟩ none o.order o.scope false (vLoadDest o.d)) ∧
    (∀ o, Spec.LoadIssues (.lds o) s tid t (onceLanes s r o.k o.a) (widthBytes o.width)
      ⟨false, some 0, widthBytes o.width, false, false⟩ (some (maskOf (active r o.k))) o.order o.scope false (sLoadDest o.d)) ∧
    (∀ k fs d a b nv u t6, Spec.LoadIssues (.ldpk k fs d a b nv u t6) s tid t (memLanes r k a b nv u)
      (if t6 then 36 else 48) ⟨false, some 0, 4, true, false⟩ none .relaxed .team true (vLoadDest d))

/-- What a store does whose checks all pass and whose lanes meet no watchpoint: the bytes of every lane are written in ascending order
of lanes, and an unacknowledged store is in flight; one whose order includes .acq at a wide scope drops the core's L1 lines of the context;
one with .sc takes its place in S (spec/13 R261-R265; spec/19 R379). -/
def Sys2Proof.Spec.StoreIssues (i : Instr) (s : State) (tid : Nat) (t : Team) (lanes : List (Nat × W64)) (n : Nat)
    (once : Option Mask) (order : Order) (scope : Scope) (data : Nat → List Byte) : Prop :=
  CanIssue s tid t i →
    (lanes = [] → Completes i s tid s) ∧
    (lanes ≠ [] → isRel order = true → mustDrain s tid = true → Blocks i s tid s .drain) ∧
    (lanes ≠ [] → (isRel order = true → mustDrain s tid = false) →
      let s1 := (checkLanes s t tid ⟨true, some 1, n, false, false⟩ n lanes).1
      let cs := (checkLanes s t tid ⟨true, some 1, n, false, false⟩ n lanes).2
      (∀ f, checkFault once (failures cs) = some f → Faults i s tid t s1 f) ∧
      (failures cs = [] → watchLanes s1 t true (passed cs) = [] →
        let x := writeLanes i s1.nextId (scTeam order s1 t) data (passed cs) (launchOp (scState order s1 tid) tid
          { newOp t tid i ⟨[], [], []⟩ .store with
            sc := decide (order = .sc), ext := extReqs s1 once true false (fun _ _ => none) (passed cs) })
        let s2 := if isAcq order && wideScope scope then dropL1 x.1 t.home t.ctx else x.1
        Completes i s tid (modOp s2 s1.nextId fun op => { op with late := lateOf s1.nextId t once x.2 })))

/-- ST and STS (spec/13 R257-R265). -/
def Sys2Proof.Spec.StoresWriteAtIssue : Prop :=
  ∀ (s : State) (tid : Nat) (t : Team),
    let r := viewOf s tid t
    (∀ o, Spec.StoreIssues (.st o) s tid t (memLanes r o.k o.a o.b o.nv o.u) (widthBytes o.width) none o.order o.scope
      fun l => (((List.range 4).flatMap fun j => leBytes 4 (vget r (o.d + j) l).toNat)).take (widthBytes o.width)) ∧
    (∀ o, Spec.StoreIssues (.sts o) s tid t (onceLanes s r o.k o.a) (widthBytes o.width)
      (some (maskOf (active r o.k))) o.order o.scope fun _ => leBytes (widthBytes o.width) (sget r o.d).toNat)

/-- Loads and stores at issue (spec/13 R257-R266, R269). -/
def Obligations.LoadsAndStoresIssue : Prop := Spec.LoadsReadAndHold ∧ Spec.StoresWriteAtIssue

/-- Where the lanes of an access lie in the team's own partition: lane `l` at offset `off l`, inside it, aligned, outside every ring, every
live descriptor and every stash window, with no debugger attached (spec/03 R73, R83; spec/13 R272, R283; spec/17 R335; spec/23
R448). -/
def Sys2Proof.Spec.InScratchpad (s : State) (t : Team) (lanes : List (Nat × W64)) (n : Nat) (off : Nat → Nat) : Prop :=
  ∃ c, tbGet s.crews t.crew = some c ∧ c.windows = [] ∧ (s.core c.core).attach = false ∧
    ∀ x ∈ lanes, x.2 = BitVec.ofNat 64 (scratchBase + off x.1) ∧ off x.1 % n = 0 ∧ off x.1 + n ≤ c.partSize ∧
      c.partSize ≤ 2 ^ 20 ∧ inRing s t.crew (off x.1) n = false ∧ touchesCounter s (partKey t.crew (off x.1)) n = false

/-- A store to the scratchpad: afterwards a byte of memory is that of the highest lane that stores to it, and every other byte is as it
was (spec/13 R258, R261, R262; spec/03 R83). -/
def Obligations.ScratchpadStoreWritesItsBytes : Prop :=
  ∀ (s : State) (tid : Nat) (t : Team) (o : MemOp) (off : Nat → Nat),
    let r := viewOf s tid t
    let n := widthBytes o.width
    let lanes := memLanes r o.k o.a o.b o.nv o.u
    CanIssue s tid t (.st o) → Memory.wf s.mem = true → (isRel o.order = true → mustDrain s tid = false) → lanes ≠ [] →
    Spec.InScratchpad s t lanes n off →
    ∃ s1, Completes (.st o) s tid s1 ∧ ∀ k : Nat,
      let hit := (lanes.filter fun x => decide (partKey t.crew (off x.1) ≤ k ∧ k < partKey t.crew (off x.1) + n)).getLast?
      memGet s1 k = match hit with
        | none => memGet s k
        | some x =>
          let b := k - partKey t.crew (off x.1)
          BitVec.ofNat 8 ((vget r (o.d + b / 4) x.1).toNat / 256 ^ (b % 4))

/-- A load from the scratchpad, not poisoned: the operation in flight will write each lane's bytes, low first and zero-extended, and
memory is as it was (spec/13 R258, R262). -/
def Obligations.ScratchpadLoadReadsItsBytes : Prop :=
  ∀ (s : State) (tid : Nat) (t : Team) (o : MemOp) (off : Nat → Nat),
    let r := viewOf s tid t
    let n := widthBytes o.width
    let lanes := memLanes r o.k o.a o.b o.nv o.u
    CanIssue s tid t (.ld o) → (isRel o.order = true → mustDrain s tid = false) → lanes ≠ [] →
    Spec.InScratchpad s t lanes n off → (∀ x ∈ lanes, poisoned s (sectorOf (partKey t.crew (off x.1))) = false) →
    ∃ s1 op, (if isAcq o.order then Holds (.ld o) s tid s1 s.nextId else Completes (.ld o) s tid s1) ∧
      tbGet s1.ops s.nextId = some op ∧ op.kind = .load ∧ op.team = tid ∧ op.late = none ∧ s1.mem = s.mem ∧
      ∀ x ∈ lanes, ∀ j, j < widthRegs o.width → tbGet op.dest.v (vkey (o.d + j) x.1) =
        some (BitVec.ofNat 32 (leNat (memRead s (partKey t.crew (off x.1) + 4 * j) (min 4 (n - 4 * j)))))

/-- As-of loads: they raise no floor, and a late fault keeps the stamp of the version read (spec/13 R267, R268; spec/25 R466). -/
def Sys2Proof.Spec.AsOfLoads : Prop :=
  ∀ (s : State) (tid : Nat) (t : Team),
    let r := viewOf s tid t
    let done (i : Instr) (lanes : List (Nat × W64)) (w : Width) (once : Option Mask) (st : W64)
        (dest : List (Nat × List Byte) → Dest) : Prop := CanIssue s tid t i →
      (lanes = [] → Completes i s tid s) ∧
      (lanes ≠ [] →
        let s1 := { (checkLanes s t tid ⟨false, some 0, widthBytes w, false, true⟩ (widthBytes w) lanes).1 with xlFloor := s.xlFloor }
        let cs := asofChecks s1 st (checkLanes s t tid ⟨false, some 0, widthBytes w, false, true⟩ (widthBytes w) lanes).2
        (∀ f, checkFault once (failures cs) = some f → Faults i s tid t s1 f) ∧
        (failures cs = [] →
          let x := asofLanes st (passed cs) s1
          Completes i s tid (launchOp x.1 tid { newOp t tid i (dest x.2.got) .load with
            late := (lateOf x.1.nextId t once x.2.bad).map fun f => { f with stamp := some (asofStamp x.1 st f.phys) } })))
    (∀ o, done (.ldasof o) (memLanes r o.k o.a o.b o.nv false) o.width none (sget r o.st) (vLoadDest o.d)) ∧
    (∀ o, done (.ldasofs o) (onceLanes s r o.k o.a) o.width (some (maskOf (active r o.k))) (sget r o.st) (sLoadDest o.d))

/-- AsOf of a tracked sector: the version with the largest stamp at or below the time asked for, zero before its first version
(spec/21 R396). -/
def Sys2Proof.Spec.AsOfIsTheLatestVersionNotAfter : Prop :=
  ∀ (s : State) (sec : Nat) (st : W64),
    let recs := leesOf s (stackOf (sec * 64))
    let have' (d : List Byte) (x : W64) (p : Bool) : Prop := ∃ l g, Lees.version sec d x l g p ∈ recs
    ((stampAt s sec).1.toNat ≤ st.toNat → asOfSector s sec st = (memRead s (sec * 64) 64, poisoned s sec)) ∧
    (st.toNat < (stampAt s sec).1.toNat →
      ((∃ d x p, have' d x p ∧ x.toNat ≤ st.toNat ∧ (∀ e y q, have' e y q → y.toNat ≤ st.toNat → y.toNat ≤ x.toNat) ∧
          asOfSector s sec st = (d, p)) ∨
        ((∀ d x p, have' d x p → st.toNat < x.toNat) ∧ asOfSector s sec st = (List.replicate 64 0, false))))

/-- As-of loads (spec/13 R267, R268; spec/21 R396). -/
def Obligations.AsOf : Prop := Spec.AsOfLoads ∧ Spec.AsOfIsTheLatestVersionNotAfter

/-- PREF, STASHMAP, STASHDROP and VAPND where their checks pass; the fault addresses are those of R260 (spec/13 R260, R270-R275;
spec/11 R254). -/
def Obligations.PrefetchStashAndAppend : Prop :=
  ∀ (s : State) (tid : Nat) (t : Team) (k : Nat),
    let r := viewOf s tid t
    (∀ a b nv u llc, CanIssue s tid t (.pref k a b nv u llc) →
      (t.priv = true ∨ t.role = 0 ∨ t.role = 4 ∨
        ∀ x ∈ memLanes r k a b nv u, ∀ loc, aperture s t x.2 1 = some loc → loc.isPart = true) →
      Completes (.pref k a b nv u llc) s tid
        { (memLanes r k a b nv u).foldl (fun s x => prefLane t tid llc s x.2) s with xlFloor := s.xlFloor }) ∧
    (∀ d a b, CanIssue s tid t (.stashmap k d a b) →
      (active r k = [] → Completes (.stashmap k d a b) s tid s) ∧
      (∀ off, active r k ≠ [] → stashCheck s t (sget r d) (sget r a) (sget r b).toNat = .ok off → mustDrain s tid = false →
        cmdsTouch s t.crew off (off + (sget r b).toNat) false = false →
        Completes (.stashmap k d a b) s tid (modCrew s t.crew fun c =>
          { c with windows := c.windows ++ [⟨off, (sget r b).toNat, sget r a, []⟩] })) ∧
      (∀ c x, active r k ≠ [] → stashCheck s t (sget r d) (sget r a) (sget r b).toNat = .error (c, x) →
        Faults (.stashmap k d a b) s tid t s (fltAt c (maskOf (active r k)) x 0))) ∧
    (∀ d discard, CanIssue s tid t (.stashdrop k d discard) →
      let x := sget r d
      let named (w : Window) : Bool := decide (x = 0) || decide (x.toNat = scratchBase + w.off)
      (active r k = [] → Completes (.stashdrop k d discard) s tid s) ∧
      (active r k ≠ [] → x ≠ 0 → (∀ w ∈ windowsOf s t.crew, named w = false) →
        Faults (.stashdrop k d discard) s tid t s (fltAt .engineDescriptor (maskOf (active r k)) x 0)) ∧
      (active r k ≠ [] → (x = 0 ∨ ∃ w ∈ windowsOf s t.crew, named w = true) → mustDrain s tid = false →
        (∀ w ∈ windowsOf s t.crew, named w = true → cmdsTouch s t.crew w.off (w.off + w.len) true = false) →
        Completes (.stashdrop k d discard) s tid (dropWindows s t.crew discard t.pc named))) ∧
    (∀ d a, CanIssue s tid t (.vapnd k d a) →
      let act := active r k
      let addr := sget r a
      (act = [] → Completes (.vapnd k d a) s tid s) ∧
      (∀ c off, act ≠ [] → tbGet s.crews t.crew = some c → c.windows = [] → (s.core c.core).attach = false →
        addr = BitVec.ofNat 64 (scratchBase + off) → off % 4 = 0 → off + 4 ≤ c.partSize → c.partSize ≤ 2 ^ 20 →
        inRing s t.crew off 4 = false → touchesCounter s (partKey t.crew off) 4 = false →
        poisoned s (sectorOf (partKey t.crew off)) = false → Memory.wf s.mem = true →
        let b := leNat (memRead s (partKey t.crew off) 4)
        ∃ s1, Completes (.vapnd k d a) s tid (writeRegs s1 tid (act.map fun l =>
            .v d l (BitVec.ofNat 32 (b + (act.filter fun j => decide (j < l)).length)))) ∧
          memRead s1 (partKey t.crew off) 4 = leBytes 4 (b + act.length) ∧
          s1.teams = tbMod s.teams tid (fun u => { u with
            tagSeen := maxW u.tagSeen (tagRead s (partKey t.crew off) 4) }) ∧
          ∀ key, (key < partKey t.crew off ∨ partKey t.crew off + 4 ≤ key) → memGet s1 key = memGet s key))

/-! ### Atomics and reductions -/

/-- ATOM, ATCAS and VATOM: each active lane in ascending order replaces its element by f(old, y), and the operation in flight will write
the old values; one with .sc takes its place in S (spec/13 R276-R280, R282; spec/19 R379). -/
def Sys2Proof.Spec.AtomicsReturnOldValues : Prop :=
  ∀ (s : State) (tid : Nat) (t : Team) (o : AtOp),
    let r := viewOf s tid t
    let lanes := (active r o.k).map fun l => (l, laneAddr r o.a o.b false o.u l)
    let done (i : Instr) (n : Nat) (f : Nat → Nat → Option Nat) : Prop := CanIssue s tid t i →
      (lanes = [] → Completes i s tid s) ∧
      (lanes ≠ [] → (isRel o.order = true → mustDrain s tid = false) →
        let s1 := (checkLanes s t tid ⟨true, none, n, false, false⟩ n lanes).1
        let cs := (checkLanes s t tid ⟨true, none, n, false, false⟩ n lanes).2
        (∀ fl, checkFault none (failures cs) = some fl → Faults i s tid t s1 fl) ∧
        (failures cs = [] → watchLanes s1 t true (passed cs) = [] →
          let id := s1.nextId
          let x := atomLanes id (scTeam o.order s1 t) f (passed cs) (launchOp (scState o.order s1 tid) tid
            { newOp t tid i ⟨[], [], []⟩ .atomic with
              sc := decide (o.order = .sc), ext := extReqs s1 none false false (fun _ _ => none) (passed cs) })
          let s' := if o.order = .sc then noteScRead x.1 x.2.stamp else x.1
          let s2 := if isAcq o.order && wideScope o.scope then dropL1 s' t.home t.ctx else s'
          let fl := if isAcq o.order then maxW x.2.stamp x.2.tag else x.2.stamp
          let got := vLoadDest o.d x.2.got
          let late := lateOf id t none x.2.bad
          let s3 := modOp s2 id fun op => { op with dest := got, late := late, floor := maxW op.floor fl }
          (isAcq o.order = true → Holds i s tid s3 id) ∧
          (isAcq o.order = false →
            Completes i s tid (modTeam s3 tid fun t => { t with tagSeen := maxW t.tagSeen x.2.tag }))))
    let num (d l n : Nat) : Nat := leNat (vData r d l n)
    let b := if o.ty.is64 then 8 else 4
    (∀ op, done (.atom o op) b fun l old => some (atomicF o.ty op old (num o.d l b))) ∧
    done (.atcas o) b (fun l old => if old = num o.d l b then some (num (o.d + b / 4) l b) else none) ∧
    (∀ op, done (.vatom o op) 32 fun l old => some (eachElem o.ty op old (num o.d l 32) 32))

/-- RED and VRED: a failed check of steps 5, 6 or 7a, or a ring slot, is a precise fault; every other failure is left for the log, and
the lanes that pass are reduced; the tags their reads get are seen (spec/13 R281, R282; spec/19 R379, R387). -/
def Sys2Proof.Spec.ReductionsIssue : Prop :=
  ∀ (s : State) (tid : Nat) (t : Team) (o : AtOp) (op : AOp),
    let r := viewOf s tid t
    let lanes := (active r o.k).map fun l => (l, laneAddr r o.a o.b false o.u l)
    let done (i : Instr) (n : Nat) : Prop := CanIssue s tid t i →
      (lanes = [] → Completes i s tid s) ∧
      (lanes ≠ [] → (isRel o.order = true → mustDrain s tid = false) →
        let s1 := (checkLanes s t tid ⟨true, none, n, false, false⟩ n lanes).1
        let cs := (checkLanes s t tid ⟨true, none, n, false, false⟩ n lanes).2
        (∀ fl, pickFault ((failures cs).filter redPrecise) = some fl → Faults i s tid t s1 fl) ∧
        (pickFault ((failures cs).filter redPrecise) = none → watchLanes s1 t true (passed cs) = [] →
          let y (l : Nat) : Nat := leNat (vData r o.d l n)
          let lost (l : Nat) (a : W64) : LogEntry := ⟨a, BitVec.ofNat 64 (y l), 0x10, opcOf i, o.ty.code, op.code, l, t.pc⟩
          let x := redLanes i s1.nextId (scTeam o.order s1 t) o.ty op n y cs
            (launchOp (scState o.order s1 tid) tid { newOp t tid i ⟨[], [], []⟩ .reduction with
              sc := decide (o.order = .sc), ext := extReqs s1 none false false (fun l a => some (lost l a)) (passed cs) })
          Completes i s tid (modTeam x.1 tid fun t => { t with tagSeen := maxW t.tagSeen x.2 })))
    done (.red o op) (if o.ty.is64 then 8 else 4) ∧ done (.vred o op) 32

/-- Atomics and reductions at issue (spec/13 R276-R282). -/
def Obligations.AtomicsAndReductions : Prop := Spec.AtomicsReturnOldValues ∧ Spec.ReductionsIssue

/-- f of the integer atomics, by width and sign (spec/13 R277). -/
def Obligations.AtomicFunctions : Prop :=
  ∀ (ty : Ty) (w : Nat) (x y : BitVec w), w = tyWidth ty → w = 32 ∨ w = 64 →
    let sg := ty.isSigned
    let f (op : AOp) : Nat := atomicF ty op x.toNat y.toNat
    f .add = (x + y).toNat ∧ f .and = (x &&& y).toNat ∧ f .or = (x ||| y).toNat ∧ f .xor = (x ^^^ y).toNat ∧
    f .swap = y.toNat ∧ f .min = (if less sg y x then y else x).toNat ∧ f .max = (if less sg x y then y else x).toNat ∧
    f .inc = (if y ≤ x then 0 else x + 1#w).toNat

/-! ### Allowance counters -/

/-- The allowance instructions where the checks of their address pass, the descriptor is at `key`, no watchpoint is hit and the mask is not
empty; with an empty mask they change nothing. A request that needs a home whose stack is down changes nothing: a write is logged, a read fails
(spec/13 R284, R285; spec/23 R448; spec/01 R25; the fault's timing and the entry's lane and operand are the model's choice,
notes/assumptions/43). -/
def Obligations.AllowanceInstructions : Prop :=
  ∀ (s : State) (tid : Nat) (t : Team) (k a : Nat),
    let r := viewOf s tid t
    let addr := sget r a
    let m := maskOf (active r k)
    let none' (i : Instr) : Prop := CanIssue s tid t i → active r k = [] → Completes i s tid s
    let at' (i : Instr) (write role : Bool) (n : Nat) (f : Nat → State → Prop) : Prop :=
      ∀ key s1, CanIssue s tid t i → active r k ≠ [] → counterCheck s t addr write role n = (s1, .ok key) →
        allowWatch s1 t write addr = [] → f key s1
    let dead (i : Instr) (s1 : State) : Prop := Faults i s tid t s1 (fltAt .allowanceInvalid m addr 0)
    let lost (i : Instr) (n : Nat) (s1 : State) : Prop := Completes i s tid { s1 with logq := s1.logq ++
      [(t.ctx, ⟨addr, BitVec.ofNat 64 n, 0x10, opcOf i, 0, 0, (active r k).headD 0, t.pc⟩)] }
    let fails (i : Instr) (key : Nat) (s1 : State) : Prop := Faults i s tid t s1 (fltAt .dataUncorrectable m addr key)
    (∀ b,
      let i : Instr := .alinit k a b
      let n := countVal r b
      none' i ∧ at' i true false n fun key s1 =>
        ((tbGet s1.counters key).isSome = true → dead i s1) ∧
        ((tbGet s1.counters key).isNone = true → (∀ cid off, aperture s1 t addr 64 = some (.part cid off) →
            inRing s1 cid off 64 = false) →
          let c : Counter := ⟨t.ctx, n, false, n, [], [], 0, descUnc s1 t addr⟩
          (reachable s1 key = true →
            Completes i s tid (writeDesc { s1 with counters := tbSet s1.counters key c } key true c)) ∧
          (reachable s1 key = false → lost i n s1))) ∧
    (∀ fs d b acq scope wait,
      let i : Instr := .aldec k fs d a b acq scope wait
      let n := countVal r b
      none' i ∧ at' i true true n fun key s1 =>
        (tbGet s1.counters key = none → dead i s1) ∧
        ((tbGet s1.counters key).isSome = true → reachable s1 key = false → aldecLocal s1 key t.home n = false → fails i key s1) ∧
        ((tbGet s1.counters key).isSome = true → reachable s1 key = true ∨ aldecLocal s1 key t.home n = true →
          let x := aldecAt s1 key t.home n wait
          let s2 := if acq && wideScope scope then dropL1 x.1 t.home t.ctx else x.1
          let go (s3 : State) : Prop := if acq then Holds i s tid s3 s1.nextId else Completes i s tid s3
          (∀ fl, x.2 = .ok fl → go (launchOp s2 tid { newOp t tid i ⟨[], [], [(d, true)]⟩ .allowance with
            floor := if acq then fl else 0 })) ∧
          (x.2 = .fail → go (launchOp s2 tid (newOp t tid i ⟨[], [], [(d, false)]⟩ .allowance))) ∧
          (x.2 = .queue → s2.nextId = s1.nextId → go (modCounter
            (launchOp s2 tid (newOp t tid i ⟨[], [], []⟩ (.aldecWait addr key n d acq (wideScope scope) false))) key
            fun c => { c with queue := c.queue ++ [⟨s1.nextId, n⟩] })))) ∧
    (∀ b rel scope,
      let i : Instr := .alinc k a b rel scope
      let n := countVal r b
      (rel = false ∨ mustDrain s tid = false) →
      none' i ∧ at' i true true n fun key s1 =>
        (tbGet s1.counters key = none → dead i s1) ∧
        ((tbGet s1.counters key).isSome = true → reachable s1 key = false → alincLocal s1 key t.home n = false → lost i n s1) ∧
        ((tbGet s1.counters key).isSome = true → reachable s1 key = true ∨ alincLocal s1 key t.home n = true →
          Completes i s tid (alincAt s1 key t.home n (if rel then relFloor s1 t else 0)))) ∧
    (∀ fs d acq scope,
      let i : Instr := .alrd k fs d a acq scope
      none' i ∧ at' i false false 0 fun key s1 =>
        (tbGet s1.counters key = none → dead i s1) ∧
        ((tbGet s1.counters key).isSome = true → reachable s1 key = false → fails i key s1) ∧
        (∀ c, tbGet s1.counters key = some c → reachable s1 key = true → ∃ fl s3, s3.nextId = (recallShares s1 key).nextId ∧
          (if acq then Holds i s tid
              (launchOp s3 tid { newOp t tid i ⟨[], [(d, BitVec.ofNat 64 (counterValue c))], []⟩ .allowance with floor := fl })
              s3.nextId
           else Completes i s tid
              (launchOp s3 tid { newOp t tid i ⟨[], [(d, BitVec.ofNat 64 (counterValue c))], []⟩ .allowance with floor := fl })))) ∧
    (
      let i : Instr := .alfree k a
      none' i ∧ at' i true false 0 fun key s1 =>
        (tbGet s1.counters key = none → dead i s1) ∧
        ((tbGet s1.counters key).isSome = true → reachable s1 key = false → lost i 0 s1) ∧
        (∀ c, reachable s1 key = true → tbGet (recallShares s1 key).counters key = some c → Completes i s tid (c.queue.foldl freedLate
          (writeDesc { recallShares s1 key with counters := tbDel (recallShares s1 key).counters key } key false c))))

/-- ALDEC takes exactly its count from V, and takes nothing where it is not satisfied (spec/13 R283, R285; spec/21 R421, R422). -/
def Sys2Proof.Spec.AldecTakesExactlyItsCount : Prop :=
  ∀ (s : State) (key core n : Nat) (wait : Bool) (c : Counter), tbGet s.counters key = some c →
    (c.shares.map (·.1)).Pairwise (· < ·) →
    ∃ c', tbGet (aldecAt s key core n wait).1.counters key = some c' ∧
      (∀ fl, (aldecAt s key core n wait).2 = .ok fl → counterValue c' + n = counterValue c) ∧
      ((aldecAt s key core n wait).2 = .fail → wait = false ∧ counterValue c' = counterValue c) ∧
      ((aldecAt s key core n wait).2 = .queue → wait = true ∧ counterValue c' = counterValue c) ∧
      (c.queue = [] → n ≤ counterValue c → ∃ fl, (aldecAt s key core n wait).2 = .ok fl)

/-- ALINC adds its count to V, up to 2^48 - 1, and sets the overflow bit exactly where the exact sum passes it (spec/13 R283, R285;
spec/21 R423). -/
def Sys2Proof.Spec.AlincAddsAndSaturates : Prop :=
  ∀ (s : State) (key core n : Nat) (fl : W64) (c : Counter), tbGet s.counters key = some c →
    (c.shares.map (·.1)).Pairwise (· < ·) → counterValue c < 2 ^ 48 → n < 2 ^ 48 →
    ∃ c', tbGet (alincAt s key core n fl).counters key = some c' ∧
      counterValue c' = min (counterValue c + n) (2 ^ 48 - 1) ∧
      c'.ovf = (c.ovf || decide (2 ^ 48 - 1 < counterValue c + n))

/-- The value of a counter (spec/13 R283, R285). -/
def Obligations.AllowanceCountsAreExact : Prop := Spec.AldecTakesExactlyItsCount ∧ Spec.AlincAddsAndSaturates

/-! ### Fences, maintenance, translation and history -/

/-- The fences: with a log entry not yet reported they raise REDUCTION_LOG_HALT, but not where a team resumes at the fence that raised it; a
release waits for the team's stores, an acquire of a wide scope for its loads; FENCEO has the team's tracked writes performed; FENCER reaches every core of the scope and holds the team for their
answers; a .sc fence and FENCER take their place in S (spec/13 R286-R289, R299; spec/19 R379, R380, R387). That an acquire fence, FENCEO and
FENCER raise STAMPFLOOR itself by what they order is deduced (notes/assumptions/46). -/
def Obligations.Fences : Prop :=
  ∀ (s : State) (tid : Nat) (t : Team) (k : Nat) (scope : Scope),
    let armed := haltsAt s t
    let halt (i : Instr) : Prop := armed = true → Faults i s tid t s ⟨.reductionLogHalt, 0, t.live, [], 1, 0⟩
    let acqState : State :=
      let s1 := modTeam s tid fun t => { t with floor := maxW t.floor (maxW t.tagSeen (opFloors s tid)) }
      if wideScope scope then dropL1 s1 t.home t.ctx else s1
    let blocks (order : Order) : Prop := isRel order = true ∧ mustDrain s tid = true ∨
      isAcq order = true ∧ wideScope scope = true ∧ loadsPending s tid = true
    (∀ order, CanIssue s tid t (.fence k order scope) →
      halt (.fence k order scope) ∧
      (armed = false → blocks order → Blocks (.fence k order scope) s tid s .drain) ∧
      (armed = false → ¬blocks order → Completes (.fence k order scope) s tid
        (passFence (scState order (if isAcq order then acqState else s) tid) tid))) ∧
    (CanIssue s tid t (.fenceo k scope) → halt (.fenceo k scope) ∧
      (armed = false → Completes (.fenceo k scope) s tid (passFence (orderTeam s t tid) tid))) ∧
    (CanIssue s tid t (.fencer k scope) → halt (.fencer k scope) ∧
      (armed = false → mustDrain s tid = false →
        let cores := scopeCores s t scope
        let s1 := passFence (cores.foldl (serialise t.ctx (maxW (maxW (relFloor s t) t.tagSeen) s.scFloor)) (enterS acqState tid)) tid
        Holds (.fencer k scope) s tid (launchOp s1 tid (newOp t tid (.fencer k scope) ⟨[], [], []⟩
          (.fencer (cores.map fun c => (c, coreWrites s1 t.ctx c)) 0))) s1.nextId))

/-- CMAINT, TLBLOCK, TLBUNLOCK, PGMAP and PGUNMAP where their checks pass; with an empty mask they change nothing. An entry that cannot be
written is logged (spec/13 R290-R293; spec/25 R451). A walk of PGUNMAP that ends at no leaf completes without a fault, its waits of step 5
come before step 1, and a page whose entry could not be written stays mapped: the model's choice (notes/assumptions/43). -/
def Obligations.MaintenanceAndMapping : Prop :=
  ∀ (s : State) (tid : Nat) (t : Team) (k a b : Nat),
    let r := viewOf s tid t
    let addr := sget r a
    let len := (sget r b).toNat
    let m := maskOf (active r k)
    let none' (i : Instr) : Prop := CanIssue s tid t i → active r k = [] → Completes i s tid s
    (∀ op level,
      let i : Instr := .cmaint k a b op level
      none' i ∧ (CanIssue s tid t i → active r k ≠ [] → mustDrain s tid = false →
        (len = 0 → Completes i s tid s) ∧
        (len ≠ 0 → globEnd < addr.toNat + len → Faults i s tid t s (fltAt .apertureBounds m addr 0)) ∧
        (len ≠ 0 → addr.toNat + len ≤ globEnd →
          Completes i s tid (cmaintState s t op level addr.toNat (addr.toNat + len))))) ∧
    (
      let i : Instr := .tlblock k a b
      none' i ∧ (CanIssue s tid t i → active r k ≠ [] → mustDrain s tid = false → rangeCheck addr len = none →
        let x := lockPages t.ctx (addr.toNat + len) (lockedCount s t.ctx + 4098) addr.toNat s
        x.2 = none → len ≠ 0 → Completes i s tid
          (modCtx x.1 t.ctx fun c => { c with locked := insertNew c.locked (addr.toNat, len) }))) ∧
    (
      let i : Instr := .tlbunlock k a b
      none' i ∧ (CanIssue s tid t i → active r k ≠ [] → mustDrain s tid = false → rangeCheck addr len = none → ∃ s1, Completes i s tid s1 ∧
        s1.mem = s.mem ∧ s1.teams = s.teams ∧
        (∀ c, tbGet s.contexts t.ctx = some c → ∃ c', tbGet s1.contexts t.ctx = some c' ∧ ∀ x,
          (∃ g ∈ c'.locked, g.1 ≤ x ∧ x < g.1 + g.2) ↔
            ((∃ g ∈ c.locked, g.1 ≤ x ∧ x < g.1 + g.2) ∧ ¬(addr.toNat ≤ x ∧ x < addr.toNat + len))))) ∧
    (∀ d,
      let i : Instr := .pgmap k d a b
      none' i ∧ (CanIssue s tid t i → active r k ≠ [] → mustDrain s tid = false → addr.toNat < globEnd →
        pteP (sget r b).toNat = true → pteSize (sget r b).toNat ≠ 0 →
        addr.toNat % sizeBytes (pteSize (sget r b).toNat) = 0 →
        let level := pteSize (sget r b).toNat - 1
        (∀ s1 l pa e, walk s t.ctx addr.toNat level = (s1, .leaf l pa e) →
          Completes i s tid (writeRegs s1 tid [.c d false])) ∧
        (∀ s1 l pa, walk s t.ctx addr.toNat level = (s1, .pointer l pa) →
          Completes i s tid (writeRegs s1 tid [.c d false])) ∧
        (∀ s1 l pa e, walk s t.ctx addr.toNat level = (s1, .absent l pa e) → l ≠ level →
          Faults i s tid t s1 (fltAt .pageNotPresent m addr 0)) ∧
        (∀ s1 pa e, walk s t.ctx addr.toNat level = (s1, .absent level pa e) →
          let s2 := drainPte s1 pa
          let s2' := writePte s2 t tid pa (sget r b)
          let s3 := notePgmap s2' pa (some ((sget r b).toNat, pgFloor s2' tid, s2'.free))
          (pteWritable s2 t pa = true → inLocked s3 t.ctx addr.toNat = false →
            Completes i s tid (writeRegs s3 tid [.c d true])) ∧
          (pteWritable s2 t pa = false → Completes i s tid (writeRegs
            (pteLost i s2 t ((active r k).headD 0) addr (sget r b)) tid [.c d false]))))) ∧
    (
      let i : Instr := .pgunmap k a b
      none' i ∧ (CanIssue s tid t i → active r k ≠ [] → mustDrain s tid = false → addr.toNat < globEnd →
        pteP (sget r b).toNat = false →
        (∀ s1 x, walk s t.ctx addr.toNat 0 = (s1, x) → (∀ l pa e, x ≠ .leaf l pa e) → Completes i s tid s1) ∧
        (∀ s1 l pa e, walk s t.ctx addr.toNat 0 = (s1, .leaf l pa e) →
          let size := sizeBytes (l + 1)
          let base := addr.toNat / size * size
          (nmcUses s1 t.ctx base (base + size) = true → Blocks i s tid s1 (.pages base size)) ∧
          (nmcUses s1 t.ctx base (base + size) = false → pteWritable (drainPte s1 pa) t pa = false →
            Completes i s tid (pteLost i (drainPte s1 pa) t ((active r k).headD 0) addr (sget r b))) ∧
          (nmcUses s1 t.ctx base (base + size) = false → pteWritable (drainPte s1 pa) t pa = true →
          let s2 := shootDown (notePgmap (writePte (drainPte s1 pa) t tid pa (sget r b)) pa none) fun e =>
            e.ctx == t.ctx && decide (e.va < base + size ∧ base < e.va + e.size)
          let s3 := { s2 with cores := s2.cores.foldl (fun m (e : Nat × Core) => smSet Core.zero m e.1 { e.2 with
            l1 := e.2.l1.filter fun x => !(x.ctx == t.ctx && decide (base ≤ x.va * 64 ∧ x.va * 64 < base + size)) }) s2.cores }
          let s4 := unfillPage s3 t.ctx base size
          Completes i s tid (drainAll s4)))))

/-- The history instructions put in flight an operation that will write their values: STAMPGET the STAMPFLOOR, HORIZON the horizon, PIN
the new pin's id or 0, SNAP the stamp and id of a new generation pin or zeros; UNPIN releases a pin of the launch, but not the one that protects
the launch (spec/13 R294-R298; spec/21 R402, R405). That exemption, the instant at which HORIZON reads the horizon and that SNAP raises no
REDUCTION_LOG_HALT are the model's choices (notes/assumptions/43). -/
def Obligations.HistoryInstructions : Prop :=
  ∀ (s : State) (tid : Nat) (t : Team) (k fs d a : Nat),
    let r := viewOf s tid t
    let issued (i : Instr) (s1 : State) (dest : Tab W64) (fl : W64) (h : Hist) : Prop :=
      Completes i s tid (launchOp s1 tid { newOp t tid i ⟨[], dest, []⟩ (.history h) with floor := fl })
    (CanIssue s tid t (.stampget k fs d) →
      (mustDrain s tid = true → Blocks (.stampget k fs d) s tid s .drain) ∧
      (mustDrain s tid = false → issued (.stampget k fs d) s [(d, relFloor s t)] 0 (.stampget d))) ∧
    (CanIssue s tid t (.horizon k fs d) → issued (.horizon k fs d)
      (modCore s t.home fun c => { c with hcache := maxW c.hcache s.horizon }) [(d, s.horizon)] 0 (.horizon d)) ∧
    (CanIssue s tid t (.pin k fs d a) →
      let x := sget r a
      let i : Instr := .pin k fs d a
      (leesOn s = false ∨ x.toNat < s.horizon.toNat ∨ 256 ≤ pinsHeld s → issued i s [(d, 0)] 0 (.pin d x)) ∧
      (leesOn s = true → s.horizon.toNat ≤ x.toNat → pinsHeld s < 256 →
        let id := freePinId s
        issued i { s with lpins := s.lpins ++ [⟨id, x, t.launch, 0⟩] } [(d, BitVec.ofNat 64 id)] 0 (.pin d x))) ∧
    (CanIssue s tid t (.unpin k a) → ∃ s1, Completes (.unpin k a) s tid s1 ∧ s1 = { s with lpins := s1.lpins } ∧
      ∀ p, p ∈ s1.lpins ↔ p ∈ s.lpins ∧ ¬(p.id = (sget r a).toNat ∧ p.launch = t.launch ∧
        ∀ l, tbGet s.launches t.launch = some l → l.pin ≠ p.id)) ∧
    (CanIssue s tid t (.snap k fs d) →
      let i : Instr := .snap k fs d
      (mustDrain s tid = true → Blocks i s tid s .drain) ∧
      (mustDrain s tid = false → leesOn s = false ∨ 8 ≤ s.gpins.length →
        issued i s [(d, 0), (d + 1, 0)] 0 (.snap d)) ∧
      (mustDrain s tid = false → leesOn s = true → s.gpins.length < 8 →
        let x := sweep s (relFloor s t)
        let y := pinGeneration x.1 x.2 x.1.boundary
        issued i y.1 [(d, x.2), (d + 1, BitVec.ofNat 64 y.2)] x.2 (.snap d)))

/-! ### Rings, barriers, the matrix engine's ownership, spawning, batches -/

/-- QPUSH, QPOP and QTRY (spec/03 R69-R73; spec/09 R217; spec/19 R387). -/
def Sys2Proof.Spec.StageRings : Prop :=
  ∀ (s : State) (tid : Nat) (t : Team) (k q : Nat),
    let r := viewOf s tid t
    let push (i : Instr) (f : Ring → Prop) : Prop := CanIssue s tid t i →
      (ringFor s t q true = none → Faults i s tid t s ⟨.queueMisuse, 0, t.live, [], 1, 0⟩) ∧
      (∀ g, ringFor s t q true = some g → mustDrain s tid = false → f g)
    let pop (i : Instr) (f : Ring → Prop) : Prop := CanIssue s tid t i →
      (ringFor s t q false = none → Faults i s tid t s ⟨.queueMisuse, 0, t.live, [], 1, 0⟩) ∧
      (∀ g, ringFor s t q false = some g →
        (popPoisoned s t.crew g = true → Faults i s tid t s
          ⟨.dataUncorrectable, 0, t.live, [], 1, slotKey t.crew g (g.q % g.depth)⟩) ∧
        (popPoisoned s t.crew g = false → f g))
    let room (g : Ring) : Prop := g.pushers = [] ∧ g.p - g.q < g.depth
    let full (g : Ring) : Prop := g.poppers = [] ∧ slotFull s t.crew g = true
    (∀ a, push (.qpush k a q) fun g =>
      let h := (sget r a).setWidth 32
      (room g → Completes (.qpush k a q) s tid (pushSlot s t.crew q g h (relFloor s t))) ∧
      (¬room g → Blocks (.qpush k a q) s tid (modRing s t.crew q fun g => { g with pushers := g.pushers ++ [tid] }) (.push q h))) ∧
    (∀ d, pop (.qpop k d q) fun g =>
      (full g → Completes (.qpop k d q) s tid (popTake s tid t.crew q d g)) ∧
      (¬full g → Blocks (.qpop k d q) s tid (modRing s t.crew q fun g => { g with poppers := g.poppers ++ [tid] }) (.pop q d))) ∧
    (∀ n a, let i : Instr := .qtry k n (.push a) q
      CanIssue s tid t i →
      (ringFor s t q true = none → Faults i s tid t s ⟨.queueMisuse, 0, t.live, [], 1, 0⟩) ∧
      (∀ g, ringFor s t q true = some g →
        (room g → mustDrain s tid = true → Blocks i s tid s .drain) ∧
        (room g → mustDrain s tid = false → Completes i s tid
          (writeRegs (pushSlot s t.crew q g ((sget r a).setWidth 32) (relFloor s t)) tid [.c n true])) ∧
        (¬room g → Completes i s tid (writeRegs s tid [.c n false])))) ∧
    (∀ n d, pop (.qtry k n (.pop d) q) fun g =>
      (full g → Completes (.qtry k n (.pop d) q) s tid (writeRegs (popTake s tid t.crew q d g) tid [.c n true])) ∧
      (¬full g → Completes (.qtry k n (.pop d) q) s tid (writeRegs s tid [.c n false])))

/-- What is pushed is popped: with memory canonical and the ring empty, the slot a push fills is full for the next pop, which takes that
handle (spec/03 R70, R71). -/
def Sys2Proof.Spec.PushedHandleIsPopped : Prop :=
  ∀ (s : State) (cid q : Nat) (c : Crew) (g : Ring) (h : W32) (fl : W64), tbGet s.crews cid = some c →
    tbGet c.rings q = some g → g.p = g.q → 0 < g.depth → Memory.wf s.mem = true →
    ∃ c' g', tbGet (pushSlot s cid q g h fl).crews cid = some c' ∧ tbGet c'.rings q = some g' ∧ g'.p = g.p + 1 ∧
      g'.q = g.q ∧ slotFull (pushSlot s cid q g h fl) cid g' = true ∧
      popSlot (pushSlot s cid q g h fl) cid g' % 2 ^ 32 = h.toNat

/-- The stage rings (spec/03 R69-R73; spec/09 R217); the block of a poisoned slot fails its reader (spec/25 R452). That a QTRY which could
push waits while its team's accesses are in flight, and reports at once where it could not push, is the model's choice
(notes/assumptions/43). -/
def Obligations.QueueInstructions : Prop := Spec.StageRings ∧ Spec.PushedHandleIsPopped

/-- BAR arrives and blocks; MXACQ takes a free engine or joins the queue; MXREL frees it (spec/09 R218, R219; spec/03 R74, R75). -/
def Obligations.BarriersAndOwnership : Prop :=
  ∀ (s : State) (tid : Nat) (t : Team) (k : Nat),
    let c := s.core t.home
    let arrive (b : Barrier) : Barrier := { b with arrived := insertNew b.arrived tid, floor := maxW b.floor (relFloor s t) }
    (CanIssue s tid t (.bar k false) → mustDrain s tid = false → Blocks (.bar k false) s tid
      (modCrew s t.crew fun c => { c with bar := arrive c.bar }) (.bar false)) ∧
    (∀ w, CanIssue s tid t (.bar k true) → mustDrain s tid = false → tbGet s.crews t.crew = some w →
      Blocks (.bar k true) s tid { s with clusters := tbMod s.clusters w.cluster fun k => { k with bar := arrive k.bar } }
        (.bar true)) ∧
    (CanIssue s tid t (.mxacq k) →
      (c.mxOwner = some tid → Completes (.mxacq k) s tid s) ∧
      (c.mxOwner = none → c.mxQueue = [] → c.mxOver = [] →
        Completes (.mxacq k) s tid (modCore s t.home fun c => { c with mxOwner := some tid })) ∧
      (c.mxOwner ≠ some tid → ¬(c.mxOwner = none ∧ c.mxQueue = [] ∧ c.mxOver = []) →
        ∃ s1, Blocks (.mxacq k) s tid s1 .mxacq ∧ ((s1.core t.home).mxQueue ++ (s1.core t.home).mxOver =
          c.mxQueue ++ c.mxOver ++ [tid]))) ∧
    (CanIssue s tid t (.mxrel k) → Completes (.mxrel k) s tid (modCore s t.home fun c => { c with mxOwner := none }))

/-- SPAWN, BATCH and WAITB (spec/09 R220, R222; spec/03 R76, R88; spec/15 R315). -/
def Sys2Proof.Spec.SpawnAndBatches : Prop :=
  ∀ (s : State) (tid : Nat) (t : Team) (k : Nat),
    let r := viewOf s tid t
    (∀ a b, CanIssue s tid t (.spawn k a b) →
      let e := sget r b
      (active r k = [] → Completes (.spawn k a b) s tid s) ∧
      (active r k ≠ [] → e.toNat % 8 ≠ 0 → Faults (.spawn k a b) s tid t s (fltAt .misaligned (maskOf (active r k)) e 0)) ∧
      (∀ s1 d, active r k ≠ [] → e.toNat % 64 = 0 → readVirt s t.ctx (teamHub t) (e - 64).toNat 64 = (s1, .ok d) →
        descOk d = true → nregsOk (descNregs d) = true → mustDrain s1 tid = false →
        Completes (.spawn k a b) s tid ((active r k).foldl (fun s l => placeRecord s t.home t.launch d e (relFloor s1 t)
          ((List.range 16).map fun j => vget r (a + j) l)) s1))) ∧
    (∀ d, CanIssue s tid t (.batch k d) → ∃ s1, Completes (.batch k d) s tid (writeRegs s1 tid
        [.s d (BitVec.ofNat 64 t.batchNext)]) ∧
      s1.cmds = s.cmds.map (fun e => (e.1, if e.2.team = tid ∧ e.2.batch = none then { e.2 with batch := some t.batchNext }
        else e.2)) ∧
      (∀ t1, s.team tid = some t1 → ∃ t2, s1.team tid = some t2 ∧ t2.batchNext = t.batchNext + 1)) ∧
    (∀ a, CanIssue s tid t (.waitb k a) →
      let m := min (sget r a).toNat (t.batchNext - 1)
      (m ≤ batchDone s tid t → Completes (.waitb k a) s tid (modTeam s tid fun t => raiseFloor t (batchFloor t m))) ∧
      (batchDone s tid t < m → Blocks (.waitb k a) s tid s (.waitb m)))

/-- CWAIT and CTEST over the word of a chunk bitmap, where the read hits no watchpoint; a CWAIT behind an earlier one that finds its bits waits
for its turn (spec/09 R196, R224; spec/03 R101; spec/15 R315). -/
def Sys2Proof.Spec.ChunkBitmapWaits : Prop :=
  ∀ (s : State) (tid : Nat) (t : Team) (k a b : Nat),
    let r := viewOf s tid t
    let m := sget r b
    let cw : Instr := .cwait k a b
    (CanIssue s tid t cw →
      (∀ s1 f, bitmapAt s t tid (sget r a) = (s1, .error f) → Faults cw s tid t s1 f) ∧
      (∀ s1 cid off, bitmapAt s t tid (sget r a) = (s1, .ok (cid, off)) → bitmapWatch s1 t (sget r a) cid off = [] →
        let word := BitVec.ofNat 64 (leNat (memRead s1 (partKey cid off) 8))
        let ahead := cwaitAhead s1 cid off s1.nextId
        (word &&& m = m → ahead = false → Completes cw s tid (bitmapAcquire s1 tid t (sget r a) cid off)) ∧
        (word &&& m ≠ m ∨ ahead = true →
          Blocks cw s tid { s1 with nextId := s1.nextId + 1 } (.cwait (sget r a) m s1.nextId)))) ∧
    (∀ d, let ct : Instr := .ctest k d a b
      CanIssue s tid t ct →
      (∀ s1 f, bitmapAt s t tid (sget r a) = (s1, .error f) → Faults ct s tid t s1 f) ∧
      (∀ s1 cid off, bitmapAt s t tid (sget r a) = (s1, .ok (cid, off)) → bitmapWatch s1 t (sget r a) cid off = [] →
        let word := BitVec.ofNat 64 (leNat (memRead s1 (partKey cid off) 8))
        (word &&& m = m → Completes ct s tid (writeRegs (bitmapAcquire s1 tid t (sget r a) cid off) tid [.c d true])) ∧
        (word &&& m ≠ m → Completes ct s tid (writeRegs (bitmapSeen s1 tid cid off) tid [.c d false]))))

/-- SPAWN, batches and chunk bitmaps (spec/09 R220, R222-R224). That SPAWN's MISALIGNED reports e in every active lane is the model's choice
(notes/assumptions/43). -/
def Obligations.SpawnBatchesAndChunkWaits : Prop := Spec.SpawnAndBatches ∧ Spec.ChunkBitmapWaits

/-! ### Matrix instructions and engine commands -/

/-- The matrix instructions at issue: with no tile they change the reuse latch only; else the tiles' rows are read and an operation is put
in flight, its memory operand where it has one at its place in the partition, and the team is held where that lies in a stash window
(spec/15 R300-R312). -/
def Sys2Proof.Spec.MatrixIssues : Prop :=
  ∀ (s : State) (tid : Nat) (t : Team) (k fs d a b : Nat),
    let r := viewOf s tid t
    let plain (i : Instr) (m : Mx) : Prop := CanIssue s tid t i →
      let s1 := latchAfter s tid t (fsOf i) none (m.tiles.map (·.word))
      (m.tiles = [] → Completes i s tid s1) ∧
      (m.tiles ≠ [] → Completes i s tid (launchOp s1 tid (newOp t tid i ⟨[], [], []⟩ (.mx m))))
    let opnd (i : Instr) (m : Mx) (reuse : Option (Nat × Ty)) (addr : W64) (n align : Nat) : Prop := CanIssue s tid t i →
      let s1 := latchAfter s tid t (fsOf i) reuse (m.tiles.map (·.word))
      let mask := maskOf (active r k)
      (m.tiles = [] → Completes i s tid s1) ∧
      (m.tiles ≠ [] →
        ((∀ cid off, aperture s t addr n ≠ some (.part cid off)) →
          Faults i s tid t s (fltAt .apertureBounds mask addr 0)) ∧
        (∀ cid off, aperture s t addr n = some (.part cid off) →
          let gated := inWindow s cid off n
          let m1 := { m with bcrew := cid, boff := off, blen := n, bva := addr, gated := gated }
          let s2 := launchOp s1 tid (newOp t tid i ⟨[], [], []⟩ (.mx m1))
          (addr.toNat % align ≠ 0 → Faults i s tid t s (fltAt .misaligned mask addr 0)) ∧
          (addr.toNat % align = 0 → gated = true → Blocks i s tid s2 (.hold s1.nextId)) ∧
          (addr.toNat % align = 0 → gated = false →
            (partPoisoned s cid off n = true →
              Faults i s tid t s (fltAt .dataUncorrectable mask addr (partKey cid off))) ∧
            (partPoisoned s cid off n = false → Completes i s tid s2))))
    let mx (kind : MxKind) (ty : Ty) (na nc : Nat) (x : Option Nat) : Mx :=
      ⟨kind, ty, d, kget r k, mxTiles r k a na d nc x, 0, 0, 0, 0, false, none⟩
    (∀ ty reuse sparse sm, opnd (.mxmma k fs d a b ty reuse sparse sm)
      (mx (.mma sparse (sget r sm).toNat) ty (Wf.nA ty) 32 none) (if reuse then some (a, ty) else none) (sget r b)
      (bBytes ty) (if ty = .d ∨ ty = .i8 then 8 else 4)) ∧
    (∀ e, opnd (.mxsca k fs d a b e) (mx .sca .f 32 32 (some b)) none (sget r e) 32 1) ∧
    (∀ ty, plain (.mxperm k fs d a b ty) (mx .perm ty 32 0 (some b))) ∧
    (∀ ty, plain (.mxtrn k fs d a ty) (mx .trn ty 32 0 none)) ∧
    (∀ ty, plain (.mxrsum k fs d a ty) (mx .rsum ty (Wf.nA ty) (tyRegs ty) none))

/-- What the engine computes for a row of a tile, where no rounding enters: the permutation, the transpositions, and the products and sums
of .i8 modulo 2^32, to which the rows of a marked block of B add nothing (spec/15 R303, R306, R310-R312; spec/05 R132, R133). -/
def Sys2Proof.Spec.MatrixExactRows : Prop :=
  ∀ (m : Mx) (brd : List Byte) (cols : List Nat) (t : MxTile) (i : Nat),
    let row := tileRow m brd cols t i
    let byte (x k : Nat) : BitVec 32 := (BitVec.ofNat 8 (x / 2 ^ (8 * k))).signExtend 32
    let abits := rowBits (t.a.getD i [])
    (m.kind = .perm → row = t.a.getD ((t.x.getD i 0).toNat % 32) []) ∧
    (m.kind = .trn → m.ty.is64 = false → ∀ j, j < 32 → row.getD j 0 = (t.a.getD j []).getD i 0) ∧
    (m.kind = .trn → m.ty.is64 = true → ∀ j h, j < 16 → h < 2 →
      (i < 16 → row.getD (2 * j + h) 0 = (t.a.getD j []).getD (2 * i + h) 0) ∧
      (16 ≤ i → i < 32 → row.getD (2 * j + h) 0 = (t.a.getD (16 + j) []).getD (2 * (i - 16) + h) 0)) ∧
    (∀ sparse bm, m.kind = .mma sparse bm → m.ty = .i8 → ∀ j, j < 32 → row.getD j 0 = (List.range 64).foldl (fun c k =>
      if sparse = true ∧ bm.testBit (k / 8 * 4 + j / 8) = true then c
      else c + byte abits k * byte (cols.getD j 0) k) ((t.c.getD i []).getD j 0)) ∧
    (m.kind = .rsum → m.ty = .i8 → ∀ x, t.c.getD i [] = [x] →
      row = [(List.range 64).foldl (fun c k => c + byte abits k) x])

/-- What the engine computes for a row of a tile in the types that round: groups of eight exact products, or of eight elements, each added
with one rounding (.t8, .t6, .bf, .h); fused chains over ascending k (.f, .d); scale-and-accumulate. A marked block of B contributes no step
(spec/05 R130, R131, R133-R135; spec/15 R303, R306, R309, R312). -/
def Sys2Proof.Spec.MatrixRoundedRows : Prop :=
  ∀ (m : Mx) (brd : List Byte) (cols : List Nat) (t : MxTile) (i : Nat),
    let row := tileRow m brd cols t i
    let a := rowBits (t.a.getD i [])
    let b (j : Nat) : Nat := cols.getD j 0
    let c (j : Nat) : Nat := ((t.c.getD i []).getD j 0).toNat
    let el (w x k : Nat) : Nat := x / 2 ^ (w * k) % 2 ^ w
    let narrow (ty : Ty) (bits depth : Nat) (num : Nat → Fp.Num) : Prop := m.ty = ty →
      let groups (skip : Nat → Prop) [DecidablePred skip] (f : Nat → Fp.Num) (c : Nat) : Nat :=
        (List.range (depth / 8)).foldl (fun c g => if skip g then c
          else Fp.accumulate Fp.f32 c (Fp.groupSum ((List.range 8).map fun e => f (8 * g + e)))) c
      (∀ sparse bm, m.kind = .mma sparse bm → ∀ j, j < 32 → row.getD j 0 = BitVec.ofNat 32
        (groups (fun g => sparse = true ∧ bm.testBit (g * 4 + j / 8) = true)
          (fun k => Fp.mul (num (el bits a k)) (num (el bits (b j) k))) (c j))) ∧
      (m.kind = .rsum → ∀ x, t.c.getD i [] = [x] →
        row = [BitVec.ofNat 32 (groups (fun _ => False) (fun k => num (el bits a k)) x.toNat)])
    let chain (F : Fp.Fmt) (w : Nat) (skip : Bool) (y : Nat → Nat) (c : Nat) : Nat :=
      (List.range 8).foldl (fun c k => if skip then c else (Fp.fFma F .rne (el w a k) (y k) c).bits) c
    let halves (z : Nat) : List W32 := [BitVec.ofNat 32 z, BitVec.ofNat 32 (z / 2 ^ 32)]
    narrow .t8 8 48 (Fp.decodeT .t8) ∧ narrow .t6 6 48 (Fp.decodeT .t6) ∧ narrow .bf 16 16 (Fp.toNum (Fp.fmtOf .bf)) ∧
    narrow .h 16 16 (Fp.toNum (Fp.fmtOf .h)) ∧
    (∀ sparse bm, m.kind = .mma sparse bm → m.ty = .f → ∀ j, j < 32 → row.getD j 0 = BitVec.ofNat 32
      (chain (Fp.fmtOf .f) 32 (sparse && bm.testBit (j / 8)) (el 32 (b j)) (c j))) ∧
    (∀ sparse bm, m.kind = .mma sparse bm → m.ty = .d → ∀ j, j < 16 →
      [row.getD (2 * j) 0, row.getD (2 * j + 1) 0] = halves
        (chain (Fp.fmtOf .d) 64 (sparse && bm.testBit (j / 8)) (el 64 (b j)) (c (2 * j) + 2 ^ 32 * c (2 * j + 1)))) ∧
    (m.kind = .rsum → m.ty = .f → ∀ x, t.c.getD i [] = [x] →
      row = [BitVec.ofNat 32 (chain (Fp.fmtOf .f) 32 false (fun _ => 0x3F800000) x.toNat)]) ∧
    (m.kind = .rsum → m.ty = .d → ∀ x y, t.c.getD i [] = [x, y] →
      row = halves (chain (Fp.fmtOf .d) 64 false (fun _ => 0x3FF0000000000000) (x.toNat + 2 ^ 32 * y.toNat))) ∧
    (m.kind = .sca → ∀ j, j < 32 →
      let ea := (t.x.getD i 0).toNat % 256
      let eb := (brd.getD j 0).toNat
      let p := ((t.a.getD i []).getD j 0).toNat
      (ea = 255 ∨ eb = 255 → row.getD j 0 = 0x7FC00000) ∧
      (ea ≠ 255 → eb ≠ 255 →
        (∀ z, Fp.nanResult Fp.f32 [c j, p] = some z → row.getD j 0 = BitVec.ofNat 32 z.bits) ∧
        (Fp.nanResult Fp.f32 [c j, p] = none → row.getD j 0 = BitVec.ofNat 32 (Fp.roundNum Fp.f32 .rne
          (Fp.add .rne (Fp.toNum Fp.f32 (c j)) (Fp.scaleNum ((ea : Int) + eb - 254) (Fp.toNum Fp.f32 p)))).bits)))

/-- The elements a matrix instruction writes: those of the rows of its mask, all of them and no other, B's column j being the bytes from its
pitch times j on (spec/15 R300, R303). -/
def Sys2Proof.Spec.MatrixWritesItsRows : Prop :=
  ∀ (m : Mx) (brd : List Byte),
    let pitch := match m.ty with
      | .t8 => 48
      | .t6 => 36
      | .i8 | .d => 64
      | .bf | .h | .f => 32
      | _ => pitchOf m.ty
    let cols := (List.range (if m.ty = .d then 16 else 32)).map fun j => leNat ((brd.drop (pitch * j)).take pitch)
    ∀ key x, (key, x) ∈ (mxDest m brd).v ↔ ∃ u ∈ m.tiles, ∃ l j, l < 32 ∧ u.act / 2 ^ l % 2 = 1 ∧
      key = vkey (m.c + j) (32 * u.word + l) ∧ (tileRow m brd cols u l)[j]? = some x

/-- The matrix instructions (spec/15 R300-R312). -/
def Obligations.MatrixInstructions : Prop :=
  Spec.MatrixIssues ∧ Spec.MatrixExactRows ∧ Spec.MatrixRoundedRows ∧ Spec.MatrixWritesItsRows

/-- An engine command whose checks have passed, leaving `s1`, joins its engine's queue, or waits while that is full; `seen` is the stamp of the
tracked version its descriptor was read from (spec/15 R314; spec/19 R388). -/
def Sys2Proof.Spec.EngineQueues (i : Instr) (s s1 : State) (tid : Nat) (t : Team) (kind : CmdKind) (record : Option W64)
    (seen : W64) : Prop :=
  let e := engineOf kind
  let flags := (slotFlags t (fsOf i)).getD []
  let floor := maxW (maxW (relFloor s1 t) seen) (match e with | .nmc => opFloors s1 tid | .copy | .quant => 0)
  let c : Cmd := ⟨tid, t.home, t.ctx, t.launch, t.crew, opcOf i, t.pc, flags, floor, seen, none, false, false, false, none, [], record, [], kind⟩
  (engineCap e ≤ engineLoad s1 t.home e → Blocks i s tid s1 (.engine e)) ∧
  (engineLoad s1 t.home e < engineCap e → Completes i s tid
    { modTeam s1 tid (fun t => incFlags t flags) with cmds := tbSet s1.cmds s1.nextId c, nextId := s1.nextId + 1 })

/-- CPIN, CPOUT and CPPEER whose checks pass (spec/15 R317-R321). -/
def Sys2Proof.Spec.CopiesIssue : Prop :=
  ∀ (s : State) (tid : Nat) (t : Team) (o : CpOp),
    let r := viewOf s tid t
    let dva := sget r o.d
    let tva := sget r o.a
    let bva := sget r o.b
    let copy (i : Instr) (dir : Nat) (frame : Bool) : Prop := CanIssue s tid t i →
      (partRange s t dva 128 = none → Faults i s tid t s (fltAt .apertureBounds t.live dva 0)) ∧
      ∀ dc doff s1 desc, partRange s t dva 128 = some (dc, doff) →
        engineRead s t.ctx (teamHub t) dc doff 128 = (s1, .ok desc) →
        let T := descT desc
        let span := bitmapSpan T
        let phys := decide (leNat ((desc.drop 8).take 8) / 256 % 2 = 1)
        ∀ bc boff, partRange s1 t bva span = some (bc, boff) → dva.toNat % 8 = 0 → tva.toNat % 64 = 0 →
          bva.toNat % 16 = 0 → copyDescOk desc o.swap = true → (frame = true ∨ phys = true → t.priv = true) →
          inRing s1 bc boff (bitmapLen T) = false → inRing s1 bc (boff + (span - 16)) 16 = false →
          wordsTouch s1 bc boff (bitmapLen T / 8) = false → partTouches s1 bc (boff + (span - 16)) 16 = false →
          let queued (key : Nat) : Prop := Spec.EngineQueues i s s1 tid t (.copy (copyOf desc dir frame o.swap key bc
            (partKey bc boff) (partKey bc boff + (span - 16)))) none (partStamp s1 dc doff 128)
          (frame = false → ∀ tc toff, partRange s1 t tva T = some (tc, toff) →
            ¬(tc = bc ∧ toff < boff + span ∧ boff < toff + T) →
            (dir = 0 → inRing s1 tc toff T = false ∧ inWindow s1 tc toff T = false ∧
              touchesCounter s1 (partKey tc toff) T = false) → queued (partKey tc toff)) ∧
          (frame = true → ∀ w, windowOf s1 tva.toNat = some w → windowOf s1 (tva.toNat + T - 1) = some w → w ≠ 13 →
            (dir = 0 → paTouchesCounter s1 tva.toNat T = false) → queued tva.toNat)
    (∀ frame, copy (.cpin o frame) 0 frame) ∧ copy (.cpout o) 1 false ∧ copy (.cppeer o) 2 false

/-- The quantising commands and NMC whose checks pass (spec/15 R326, R328, R330, R331, R333). -/
def Sys2Proof.Spec.QuantAndNmcIssue : Prop :=
  ∀ (s : State) (tid : Nat) (t : Team) (k fs d a : Nat),
    let r := viewOf s tid t
    let x (j : Nat) : W64 := sget r (d + j)
    let quant (i : Instr) (ty : Ty) (ds dests : List (Option W64)) (row col : Option Nat) (reset : Bool) : Prop :=
      CanIssue s tid t i →
      let c := quantCheck s t (sget r a) ((ds.filterMap fun y => y).zipIdx.map fun (y, j) =>
        (y, if j % 2 = 1 then 48 else codesLen ty))
      (∀ f, c = .error f → Faults i s tid t s f) ∧
      (∀ cid off, c = .ok (cid, off) →
        Spec.EngineQueues i s s tid t (.quant ⟨ty, partKey cid off, dests, row, col, reset⟩) none 0)
    let move (i : Instr) (kind : Nat → CmdKind) : Prop := CanIssue s tid t i →
      (∀ f, qmoveCheck s t (sget r a) = .error f → Faults i s tid t s f) ∧
      (∀ key, qmoveCheck s t (sget r a) = .ok key → Spec.EngineQueues i s s tid t (kind key) none 0)
    (∀ ty q reset, quant (.qst k fs d a ty q false reset) ty [some (x 0), some (x 1)] [some (x 0), some (x 1), none, none]
      (some q) none reset) ∧
    (∀ ty q reset, quant (.qst k fs d a ty q true reset) ty [some (x 0), some (x 1)] [none, none, some (x 0), some (x 1)]
      none (some q) reset) ∧
    (∀ ty qa qb reset, quant (.qstd k fs d a ty qa qb reset) ty [some (x 0), some (x 1), some (x 2), some (x 3)]
      [some (x 0), some (x 1), some (x 2), some (x 3)] (some qa) (some qb) reset) ∧
    (∀ q, move (.qload k fs a q) (.qload q)) ∧ (∀ q, move (.qsave k fs a q) (.qsave q)) ∧
    (CanIssue s tid t (.nmc k fs d a) →
      let w := (sget r a).toNat
      let xw := sget r (a + 1)
      let yg := sget r (a + 2)
      let record := sget r d
      let op := w % 256
      let ty := w / 256 % 16
      let n := w / 65536 * (if ty = 9 then 8 else 4)
      let two := decide (op = 2 ∨ op = 3)
      op ≤ 3 → (ty = 8 ∨ ty = 9) → w / 4096 % 16 = 0 → xw.toNat % 64 = 0 → yg.toNat % 64 = 0 → record.toNat % 16 = 0 →
      xw.toNat + n ≤ globEnd → xw.toNat < globEnd → (two = true → yg.toNat + n ≤ globEnd ∧ yg.toNat < globEnd ∧
        (xw = yg ∨ yg.toNat + n ≤ xw.toNat ∨ xw.toNat + n ≤ yg.toNat)) → (two = false → yg = 0) →
      ((∃ va, aperture s t record 16 = some (.glob va)) ∨ ∃ cid off, aperture s t record 16 = some (.part cid off) ∧
        inRing s cid off 16 = false ∧ partTouches s cid off 16 = false) →
      Spec.EngineQueues (.nmc k fs d a) s s tid t (.nmc ⟨op, if ty = 9 then .d else .f, w / 65536, xw, yg, sget r (a + 3), [], false,
        [], 0, none⟩) (some record) 0)

/-- The engine commands at issue (spec/15 R314-R333). -/
def Obligations.EngineCommandsIssue : Prop := Spec.CopiesIssue ∧ Spec.QuantAndNmcIssue

/-! ### The steps of the other agents -/

/-- A step of another agent that is due leaves `s1`. -/
abbrev Sys2Proof.Spec.Does (i : Instr) (s s1 : State) : Prop := exec i s = .next s1

/-- The operations of teams: each completes where its own condition holds (spec/07 R147, R151; spec/11 R238; spec/13 R262-R265, R278, R281,
R284, R288, R294; spec/15 R300, R308, R313). That FENCER's answers raise STAMPFLOOR is deduced (notes/assumptions/46). -/
def Obligations.OperationsComplete : Prop :=
  ∀ (s : State) (id : Nat) (o : Op), tbGet s.ops id = some o →
    let done (i : Instr) : Prop := Does i s (completeOp s id o)
    (o.kind = .load → done (.loadCompletion id)) ∧
    (o.kind = .atomic → o.homes = [] → done (.atomicCompletion id)) ∧
    (o.kind = .arith → done (.longArithmeticCompletion id)) ∧
    (o.kind = .allowance → done (.allowanceCompletion id)) ∧
    (∀ a c n d q w, o.kind = .aldecWait a c n d q w true → (∀ t, s.team o.team = some t → running t = true) →
      done (.allowanceCompletion id)) ∧
    (∀ h, o.kind = .history h → done (.historyCompletion id)) ∧
    (o.kind = .reduction → o.homes = [] → o.logs = [] → done (.storeAcknowledgement id)) ∧
    (o.kind = .store → o.homes = [] →
      Does (.storeAcknowledgement id) s (finish (completeOp (reportLogs s id o) id o))) ∧
    (o.kind = .reduction → o.logs ≠ [] → Does (.reductionFaultLogged id) s (finish (reportLogs s id o))) ∧
    (∀ cs fl core x ids, o.kind = .fencer cs fl → cs.find? (fun c => c.1 == core) = some (x, ids) →
      (∀ i ∈ ids, tbGet s.ops i = none) →
      let left := cs.filter fun c => c.1 != core
      let learnt := maxW fl (smGet 0 (s.core core).ofloors o.ctx)
      let s1 := modOp (dropL1 s core o.ctx) id fun o => { o with kind := .fencer left learnt }
      (left ≠ [] → Does (.serialisingRequest core id) s s1) ∧
      (left = [] → Does (.serialisingRequest core id) s (completeOp
        (modTeam (dropL1 s1 o.core o.ctx) o.team fun t => raiseFloor t learnt) id o))) ∧
    (∀ m, o.kind = .mx m → mxOldest s id o = true →
      (m.gated = false ∨ m.brd.isSome = true →
        let bs := m.brd.getD (memRead s (partKey m.bcrew m.boff) m.blen)
        Does (.mxCompletion id) s (endOp (raiseBy (settleDest s id o (mxDest m bs)) o) id o)) ∧
      (m.gated = true → m.brd = none →
        (∀ s1 bs t, engineRead s o.ctx (hubOf o.core) m.bcrew m.boff m.blen = (s1, .ok bs) →
          let s2 := modOp s1 id fun o =>
            { o with kind := .mx { m with brd := some bs }, floor := maxW o.floor (partStamp s1 m.bcrew m.boff m.blen) }
          s2.team o.team = some t → t.wait = .hold id → Does (.gatedRangeRead id) s (finish (advance s2 o.team 1))) ∧
        (∀ s1 c a phys, engineRead s o.ctx (hubOf o.core) m.bcrew m.boff m.blen = (s1, .error (c, a, phys)) →
          Does (.mxGatedAbort id) s (finish (boundary (enterHandler (endOp s1 id o) o.team
            (fltAt c (maskOf (activeOf m.mask 1024)) a phys) o.pc false) o.team)))))

/-- What the completion of an operation does to its team: its destinations hold its values, its flags count one less, its exceptions and its
STAMPFLOOR are merged, and the hold ends; nothing else of the team, of another team, of another operation but the marks on its destinations
and its requests for a stash chunk that this operation's have filled, or of memory changes (spec/07 R147, R151; spec/13 R265, R273). That such a
request stays in flight until an operation that waits for the chunk completes is the model's choice (notes/assumptions/45). -/
def Obligations.CompletionWritesDestinations : Prop :=
  ∀ (s : State) (id : Nat) (o : Op) (t : Team), tbGet s.ops id = some o → s.team o.team = some t → Safety.TeamOk t →
    o.rewritten = [] → o.late = none → (o.dest.v.map (·.1)).Nodup → (o.dest.s.map (·.1)).Nodup →
    (o.dest.c.map (·.1)).Nodup →
    let s1 := completeOp s id o
    tbGet s1.ops id = none ∧
    (∀ j, j ≠ id → tbGet s.ops j = none → tbGet s1.ops j = none) ∧
    (∀ j p, j ≠ id → tbGet s.ops j = some p → ∃ p', tbGet s1.ops j = some p' ∧
      p' = { p with rewritten := p'.rewritten, ext := p'.ext } ∧
      ∀ r, r ∈ p'.ext ↔ r ∈ p.ext ∧ (r.fill = none ∨ ∀ q ∈ o.ext, q.fill ≠ r.fill)) ∧ s1.mem = s.mem ∧
    (∀ u, u ≠ o.team → s1.team u = s.team u) ∧
    ∃ t1, s1.team o.team = some t1 ∧
      (∀ x ∈ o.dest.v, smGet 0 t1.v x.1 = x.2) ∧
      (∀ key, key ∉ o.dest.v.map (·.1) → smGet 0 t1.v key = smGet 0 t.v key) ∧
      (∀ x ∈ o.dest.s, x.1 ≠ 0 → sget t1 x.1 = x.2) ∧ (∀ n, n ∉ o.dest.s.map (·.1) → sget t1 n = sget t n) ∧
      (∀ x ∈ o.dest.c, x.1 ≠ 0 → x.1 < 8 → cget t1 x.1 = x.2) ∧
      (∀ n, n < 8 → n ∉ o.dest.c.map (·.1) → cget t1 n = cget t n) ∧
      (∀ f, fget t1 f = fget t f - o.flags.count f) ∧ t1.floor = maxW t.floor o.floor ∧
      t1.fpflags = t.fpflags ||| o.ex ∧ t1.wait = (if t.wait = .hold id then .none else t.wait) ∧ t1.k = t.k ∧
      t1.pc = t.pc ∧ t1.clause = t.clause ∧ t1.q = t.q ∧ t1.priv = t.priv

/-- Late faults and allowance counters: a running team takes its due late fault at its boundary, with LATE set; the head waiter is served once
V reaches its count, and V falls by it; an evicted share goes to the reserve and V stays, with every share recalled while the reserve is at the
limit; the home's own state is written to the descriptor when it is evicted. A late fault met with the privilege bit set parks the team instead.
A debugger's step of one clause ends before the handler, one of one instruction goes on (spec/25 R486; spec/13 R285; spec/21 R422-R424;
spec/09 R204; spec/23 R447). -/
def Obligations.LateFaultsAndCounters : Prop :=
  (∀ (s : State) (core slot tid : Nat) (t : Team) (l : Late), teamAt s core slot = some (tid, t) → lateDue t = some l →
    let s0 := modTeam s tid fun t => { t with late := t.late.filter (· != l), faultStamp := l.stamp }
    let f : Flt := ⟨l.code, 0, l.mask, l.addrs, 1, l.phys / 64 * 64⟩
    let s1 := if l.esc = true then park (modTeam s0 tid fun t => setFaultRegs t f l.pc true) tid 0 else enterHandler s0 tid f l.pc true
    (t.dbg ≠ .clause → Does (.lateFaultTaken core slot) s (finish s1)) ∧
    (t.dbg = .clause → ∀ t1, s1.team tid = some t1 →
      (t1.clause = none →
        Does (.lateFaultTaken core slot) s (finish (modTeam s1 tid fun t => { t with dbg := .none, halted := true }))) ∧
      (t1.clause.isSome = true → Does (.lateFaultTaken core slot) s (finish s1)))) ∧
  (∀ (s : State) (key : Nat) (c : Counter) (w : Waiter) (ws : List Waiter), tbGet s.counters key = some c →
    c.queue = w :: ws → w.n ≤ counterValue c →
    ∃ s1 c1, Does (.aldecWaitServed key) s (finish s1) ∧ tbGet s1.counters key = some c1 ∧ c1.queue = ws ∧
      counterValue c1 + w.n = counterValue c ∧ c1.shares = [] ∧ s1.teams = s.teams) ∧
  (∀ (s : State) (key core x : Nat) (fl : W64) (c : Counter), tbGet s.counters key = some c →
    (c.shares.map (·.1)).Pairwise (· < ·) → tbGet c.shares core = some (x, fl) →
    core < 256 → ∃ s1 c1, Does (.shareEviction key core) s (finish s1) ∧ tbGet s1.counters key = some c1 ∧
      tbGet c1.shares core = none ∧ counterValue c1 = counterValue c ∧
      (c.reserve + x < 2 ^ 48 - 2 ^ 46 → c1.reserve = c.reserve + x ∧ s1 = { s with counters := s1.counters }) ∧
      (2 ^ 48 - 2 ^ 46 ≤ c.reserve + x → c1.shares = [])) ∧
  (∀ (s : State) (key unit : Nat) (c : Counter), tbGet s.counters key = some c → 256 ≤ unit →
    Does (.shareEviction key unit) s (finish (writeDesc s key true c)))

/-- Blocked teams go on once what they wait for is there (spec/03 R71, R74, R75; spec/09 R218, R222, R224; spec/19 R371, R387). -/
def Obligations.BlockedTeamsGoOn : Prop :=
  ∀ (s : State),
    (∀ cid q c g tid rest t r h, tbGet s.crews cid = some c → tbGet c.rings q = some g → g.pushers = tid :: rest →
      s.team tid = some t → t.wait = .push r h → running t = true → 0 < allowance g →
      Does (.queuePushDone cid q) s (finish (advance
        (pushSlot (modRing s cid q fun g => { g with pushers := rest }) cid q g h t.floor) tid 1))) ∧
    (∀ cid q c g tid rest t r d, tbGet s.crews cid = some c → tbGet c.rings q = some g → g.poppers = tid :: rest →
      s.team tid = some t → t.wait = .pop r d → running t = true → slotFull s cid g = true →
      let s1 := modRing s cid q fun g => { g with poppers := rest }
      (popPoisoned s1 cid g = false → Does (.queuePopDone cid q) s (finish (advance (popTake s1 tid cid q d g) tid 1))) ∧
      (popPoisoned s1 cid g = true → Does (.queuePopDone cid q) s (finish (boundary
        (enterHandler s1 tid ⟨.dataUncorrectable, 0, t.live, [], 1, slotKey t.crew g (g.q % g.depth)⟩ t.pc false) tid)))) ∧
    (∀ cluster id b, barrierOf s cluster id = some b → barrierDue s cluster id = true → s.xlFloor = 0 →
      ∃ s1, Does (.barrierRelease cluster id) s (finish s1) ∧ barrierOf s1 cluster id = some ⟨b.gen + 1, [], 0⟩ ∧
        (∀ tid t, s.team tid = some t → (tid, t) ∈ scopeTeams s cluster id →
          ∃ t1, s1.team tid = some t1 ∧ t1.wait = .none ∧ t1.floor = maxW t.floor b.floor ∧ t1.s = t.s ∧ t1.v = t.v) ∧
        (∀ tid t, s.team tid = some t → (∀ e ∈ scopeTeams s cluster id, e.1 ≠ tid) → s1.team tid = some t)) ∧
    (∀ core h t, let c := s.core core
      mxFree s c = true → firstRunning s (c.mxQueue ++ c.mxOver) = some h → s.team h = some t →
      let q := c.mxQueue.filter (· != h)
      let o := c.mxOver.filter (· != h)
      let s1 := modCore s core fun c => { c with
        mxOwner := some h, mxQueue := q ++ o.take (32 - q.length), mxOver := o.drop (32 - q.length) }
      (t.wait = .mxacq → Does (.matrixOwnershipGrant core) s (finish (advance s1 h 1))) ∧
      (t.wait ≠ .mxacq → Does (.matrixOwnershipGrant core) s s1)) ∧
    (∀ core slot tid t m, teamAt s core slot = some (tid, t) → t.wait = .waitb m → running t = true →
      m ≤ batchDone s tid t → Does (.waitbComplete core slot) s
        (finish (advance (modTeam s tid fun t => raiseFloor t (batchFloor t m)) tid 1))) ∧
    (∀ core slot tid t a m n, teamAt s core slot = some (tid, t) → t.wait = .cwait a m n → running t = true →
      t.halted = false →
      (∀ s1 cid off, bitmapAt s t tid a = (s1, .ok (cid, off)) → bitmapWatch s1 t a cid off = [] →
        BitVec.ofNat 64 (leNat (memRead s1 (partKey cid off) 8)) &&& m = m → cwaitAhead s1 cid off n = false →
        Does (.cwaitComplete core slot) s (finish (advance (bitmapAcquire s1 tid t a cid off) tid 1))) ∧
      (∀ s1 f, bitmapAt s t tid a = (s1, .error f) →
        Does (.cwaitComplete core slot) s (finish (boundary (enterHandler s1 tid { f with words := 1 } t.pc false) tid))))

/-- The engines: acceptance uncounts the command's flags; a copy moves its chunks and stops at the first that fails; a quantising command is
executed; a near-memory command does the shares of its channels; a command that is done writes its record, and leaves once that is performed
(spec/15 R314-R316, R322, R323, R327-R334). -/
def Obligations.EnginesWork : Prop :=
  ∀ (s : State) (id : Nat) (c : Cmd),
    (∀ core slot, acceptNext s core slot = some (id, c) →
      let s1 := modTeam (modCmd s id fun c => { c with accepted := true }) c.team fun t => decFlags t c.flags
      ((∀ n, c.kind ≠ .nmc n) → Does (.engineAcceptance core slot) s s1) ∧
      (∀ n, c.kind = .nmc n → (∀ e ∈ s.ops, e.2.team = c.team → e.1 < id →
          e.2.kind ≠ .store ∧ e.2.kind ≠ .atomic ∧ e.2.kind ≠ .reduction) →
        (n.count = 0 → Does (.engineAcceptance core slot) s (modCmd s1 id fun c => { c with kind := .nmc { n with ready := true } })) ∧
        (n.count ≠ 0 → Does (.engineAcceptance core slot) s (finish (nmcReady s1 id c n))))) ∧
    (∀ k n s1, tbGet s.cmds id = some c → c.kind = .copy k → c.accepted = true → c.err = none → n < k.chunks → n ∉ k.done →
      chunkStep s id c k n = (s1, none) → Does (.copyChunkDone id n) s (finish s1)) ∧
    (∀ k n s1 e, tbGet s.cmds id = some c → c.kind = .copy k → c.accepted = true → c.err = none → n < k.chunks →
      n ∉ k.done → (∀ m, m < n → m ∉ k.done → (chunkStep s id c k m).2 = none) → chunkStep s id c k n = (s1, some e) →
      Does (.copyStop id) s (finish (modCmd s1 id fun c => { c with err := some (e.1.num, e.2.1) }))) ∧
    (∀ core, quantNext s core = some id → Does (.quantCommandExecute core) s (finish (quantRun s id))) ∧
    (∀ n home, tbGet s.cmds id = some c → c.kind = .nmc n → c.accepted = true → home ∈ n.homes →
      ∃ s1, Does (.nmcPcShare id home) s (finish s1) ∧ ∀ c1 n1, tbGet s1.cmds id = some c1 → c1.kind = .nmc n1 →
        home ∉ n1.homes) ∧
    (tbGet s.cmds id = some c → cmdDone c = true →
      let s1 := if c.recorded then s else nmcStopRec (writeRecord s id c) c
      ∀ c1, tbGet s1.cmds id = some c1 →
        let s2 := modTeam s1 c1.team fun t =>
          { t with batchBounds := smSet 0 t.batchBounds (c1.batch.getD 0) (maxW (smGet 0 t.batchBounds (c1.batch.getD 0)) c1.bound) }
        (c1.homes ≠ [] → Does (.engineCompletionRecord id) s (finish s1)) ∧
        (c1.homes = [] → Does (.engineCompletionRecord id) s (finish (forgetFreed { s2 with
          cmds := tbDel s1.cmds id, logq := s1.logq ++ c1.fails.map fun e => (c1.ctx, e.2) }))))

/-- Homes, the lees, bins and partitions (spec/21 R392, R401, R403; spec/03 R77-R79, R86, R97). A spawned team starts at the kernel's entry
with record j in vector registers 0 to 15 of lane j, and that many live lanes. That none is placed while the CP is not ready is the model's choice
(notes/assumptions/44), and that what a command in flight still reads of a freed partition stays to it is deduced (notes/assumptions/43). -/
def Obligations.HomesBinsAndPartitions : Prop :=
  ∀ (s : State),
    (∀ home, (∃ w ∈ s.homeq, w.home = home) → Does (.trackedWriteAtHome home) s (finish (homeStep s home))) ∧
    (∀ n, s.press.getLsbD n = true → Does (.leesReclaim n) s (finish (relieve s n))) ∧
    (∀ core, (s.core core).hcache ≠ s.horizon →
      Does (.horizonPropagation core) s (modCore s core fun c => { c with hcache := s.horizon })) ∧
    (∀ core bin b l, tbGet (s.core core).bins bin = some b → tbGet s.launches b.launch = some l →
      b.born + l.spawnT ≤ s.cycle → Does (.spawnBinTimer core bin) s (modCore s core fun c =>
        match tbGet c.bins bin with
        | some b => { c with bins := tbDel c.bins bin, launched := c.launched ++ [b] }
        | none => c)) ∧
    (∀ core b l, nextBin s core = some b → tbGet s.launches b.launch = some l → b.records.length ≤ 32 →
      s.readyIo.getLsbD 18 = true →
      ∃ s1 t, Does (.spawnedTeamPlacement core) s s1 ∧ s1.team (s.nextId + 2) = some t ∧ t.spawned = true ∧
        t.pc = b.entry ∧ t.lanes = 32 ∧ t.nregs = b.nregs ∧ t.floor = b.floor ∧ t.launch = b.launch ∧ t.home = core ∧
        t.priv = false ∧ t.clause = none ∧ (∀ l, l < 1024 → t.live.getLsbD l = decide (l < b.records.length)) ∧
        (∀ l j rec, b.records[l]? = some rec → j < 16 → j < b.nregs → vget t j l = rec.getD j 0)) ∧
    (∀ cid, crewDone s cid = true → Does (.partitionRelease cid) s (finish (freeCrew s cid))) ∧
    (∀ cid c, tbGet s.crews cid = some c → spillable s cid c = true → spillNeeded s c.cluster c.core = true →
      let us := takeUnits s c.ctx c.partSize
      Does (.partitionSpill cid) s (finish (modCrew (writeUnits (cleanChunks s cid 0 fun _ _ => true) c.ctx us) cid fun c =>
        { c with residency := .spilled, saveAt := us, windows := [],
                 spilledWindows := c.windows.map fun w => { w with chunks := [] } })))

/-- Pre-emption, saves and restores (spec/23 R441; spec/03 R90, R92-R97). How many of the save area's units of 1 KiB a save takes, which ones, and
that the restore reads those same units back, is deduced and the model's choice (notes/assumptions/27). -/
def Obligations.PreemptionAndRestore : Prop :=
  ∀ (s : State),
    (∀ kid k, tbGet s.clusters kid = some k → k.state = .placed → preemptWanted s k = true →
      ∃ s1, Does (.preemptionRequest kid) s s1 ∧ s1 = { s with teams := s1.teams } ∧
        (∀ tid, (∀ e ∈ clusterTeams s k, e.1 ≠ tid) → s1.team tid = s.team tid) ∧
        ∀ tid t, (tid, t) ∈ clusterTeams s k → (∀ e ∈ clusterTeams s k, e.1 = tid → e = (tid, t)) →
          s1.team tid = some (requestTeam s tid t)) ∧
    (∀ core slot tid t, teamAt s core slot = some (tid, t) → t.pre = .drain → t.reqCycle + 40000 ≤ s.cycle →
      Does (.preemptionDeadline core slot) s (modTeam s tid fun t => { toHeader t with pre := .quiesce true })) ∧
    (∀ core slot tid t full, teamAt s core slot = some (tid, t) → t.pre = .quiesce full → mayStream s tid t = true →
      (full = true → Does (.teamSave core slot) s (modTeam s tid fun t => { t with pre := .save true })) ∧
      (∀ s1, full = false → safeRuns s t = (s1, none) →
        Does (.teamSave core slot) s (finish (modTeam s1 tid fun t => { t with pre := .save true }))) ∧
      (∀ s1 rs, full = false → safeRuns s t = (s1, some rs) →
        Does (.teamSave core slot) s (finish (modTeam s1 tid fun t => { keepLive rs t with pre := .save false })))) ∧
    (∀ core slot tid t full, teamAt s core slot = some (tid, t) → s.team tid = some t → t.pre = .save full →
      ∃ s1 t1, Does (.saveStreamDone core slot) s (finish s1) ∧ s1.team tid = some t1 ∧
        t1 = { t with pre := .saved, place := none, saveAt := takeUnits s t.ctx (fullSave t) } ∧
        (∀ u, u ≠ tid → s1.team u = s.team u)) ∧
    (∀ kid k, tbGet s.clusters kid = some k → k.state = .restoring →
      let s1 := readSaves { s with clusters := tbMod s.clusters kid fun k => { k with state := .placed } } k
      Does (.clusterRestoreDone kid) s (finish ((clusterTeams s1 k).foldl resumeTeam s1))) ∧
    (∀ rs t n l, vget (keepLive rs t) n l = (if l < 1024 ∧ named rs 0 n = true then vget t n l else 0) ∨ 1024 ≤ l)

/-- Queue control: enabling, teardown, suspension, which asks for the pre-emption of clusters of the queue alone, doorbells, TORN (spec/23
R426-R428, R431, R432; spec/25 R458). That an enable ends a rebase in progress first is deduced (notes/assumptions/30); that a doorbell is
ignored while the CP is not ready is the model's choice (notes/assumptions/44). -/
def Obligations.QueueControl : Prop :=
  ∀ (s : State) (q : Nat) (v : W64), q < 128 →
    let r := s.queue q
    let cp := s.readyIo.getLsbD 18
    let write (i : Instr) : Prop := Does i s (finish (writeQctl s q v))
    (r.en = false → v.getLsbD 63 = true → write (.queueEnable q v)) ∧
    (r.en = true → v.getLsbD 63 = false → write (.queueTeardown q v)) ∧
    (r.susp = false → v.getLsbD 62 = true → write (.queueSuspend q v)) ∧
    (r.susp = true → v.getLsbD 62 = false → write (.queueUnsuspend q v)) ∧
    (r.torn = true → v.getLsbD 61 = true → write (.tornClear q v)) ∧
    (let cleared (w : Queue) : Queue := { w with susp := v.getLsbD 62, torn := w.torn && !v.getLsbD 61, bad := w.bad && !v.getLsbD 60 }
     let asked (s1 : State) : State := if r.susp = false ∧ v.getLsbD 62 = true then askSuspended s1 q else s1
     (r.en = true → v.getLsbD 63 = true → writeQctl s q v = asked (modQueue s q cleared)) ∧
     (r.en = true → v.getLsbD 63 = false → writeQctl s q v = teardown (asked (modQueue s q cleared)) q false) ∧
     (r.en = false →
      let s1 := asked (modQueue s q fun w => { cleared w with cls := v.toNat / 256 % 4, log2n := v.toNat % 16 })
      (v.getLsbD 63 = false → writeQctl s q v = s1) ∧
      (v.getLsbD 63 = true → writeQctl s q v = enableQueue s1 q))) ∧
    (askSuspended s q = { s with clusters := (askSuspended s q).clusters } ∧
      ((s.clusters.map (·.1)).Nodup → ∀ kid k, tbGet s.clusters kid = some k → ∃ k',
        tbGet (askSuspended s q).clusters kid = some k' ∧ k' = { k with asked := k'.asked } ∧ (k.asked = true → k'.asked = true) ∧
        (k.state = .saved ∨ (∀ l, tbGet s.launches k.launch = some l → l.queue ≠ q) → k' = k))) ∧
    (s.rebasing = true → enableQueue s q = enableQueue (rebaseDone s) q ∧ (rebaseDone s).rebasing = false) ∧
    (let n := 2 ^ (r.log2n + 9)
     let legal : Prop := 4 ≤ r.log2n ∧ r.log2n ≤ 12 ∧ r.base % n = 0 ∧ inOneWindow s r.base n = true
     s.rebasing = false →
     (¬legal → enableQueue s q = modQueue s q fun w => { w with bad := true }) ∧
     (∀ s1, legal → enableContext s r.ctxAddr = (s1, none) → enableQueue s q = modQueue s1 q fun w => { w with bad := true }) ∧
     (∀ s1 i, legal → enableContext s r.ctxAddr = (s1, some i) → enableQueue s q =
       modQueue (detach s1 q) q fun w => { w with
         en := true, head := 0, tail := 0, ctxidx := i, dead := false, killed := false, ring := w.base, ringLog := w.log2n })) ∧
    (cp = false → Does (.doorbell q v) s s) ∧
    (let tail := v.toNat % 65536
     cp = true →
     ((tail + 65536 - r.head) % 65536 ≤ 2 ^ r.log2n → Does (.doorbell q v) s (modQueue s q fun w => { w with tail := tail })) ∧
     (2 ^ r.log2n < (tail + 65536 - r.head) % 65536 → Does (.doorbell q v) s (modQueue s q fun w => { w with bad := true })))

/-- Launches: admission with its refusals, placement, completion, consumption, rollback (spec/23 R428, R433, R434, R438; spec/25 R457,
R458, R460; spec/21 R418, R419). What the CP does waits until it is ready (spec/01 R20; notes/assumptions/44). -/
def Obligations.Launches : Prop :=
  ∀ (s : State),
    (∀ q, eligible s q = true →
      let r := s.queue q
      let pa := r.ring + 512 * (r.head % 2 ^ r.ringLog)
      let read := if paUsable s pa 512 = true then readPa s pa 512 0 else (s, none)
      (r.killed = true → Does (.launchAdmission q) s (finish (completeRecord s q 0x06 0))) ∧
      let ends := r.torn = true ∨ r.dead = true ∨ r.en = false
      (r.killed = false → ends → Does (.launchAdmission q) s (finish (completeRecord s q 0x05 0))) ∧
      (r.killed = false → ¬ends →
        (∀ s1, read = (s1, none) → Does (.launchAdmission q) s
          (finish (tornRec (completeRecord (setTorn s1 q) q 0x05 0x10) q 2 0x10 0))) ∧
        (∀ s1 d, read = (s1, some d) →
          (∀ s2 off, recordCheck s1 r.ctxidx d = (s2, .error off) →
            Does (.launchAdmission q) s (finish (completeRecord s2 q 0x01 off))) ∧
          (∀ s2 spt, recordCheck s1 r.ctxidx d = (s2, .ok spt) →
            Does (.launchAdmission q) s (finish (admitRecord s2 q r.ctxidx d spt)))))) ∧
    (∀ q code detail, paUsable s (recordPa s q (s.queue q).head) 8 = false →
      completeRecord s q code detail = modQueue s q fun r => { r with head := (r.head + 1) % 65536 }) ∧
    (s.readyIo.getLsbD 18 = false → ∀ c, Does (.clusterPlacement c) s s ∧ Does (.spawnedTeamPlacement c) s s) ∧
    (∀ kid k l, tbGet s.clusters kid = some k → tbGet s.launches k.launch = some l → k.state = .saved →
      (s.queue l.queue).susp = false → l.dying = none → s.readyIo.getLsbD 18 = true → Does (.clusterPlacement kid) s (placeSaved s kid k l)) ∧
    (∀ lid l, tbGet s.clusters lid = none → tbGet s.launches lid = some l → mayPlace s l = true → s.readyIo.getLsbD 18 = true →
      Does (.clusterPlacement lid) s (finish (placeNext s lid l))) ∧
    (∀ lid l, tbGet s.launches lid = some l → launchEmpty s lid = true → writesSettled s lid = true → l.dying = none →
      l.restoring = false → s.readyIo.getLsbD 18 = true →
      Does (.launchCompletion lid) s (finish (forgetContext (completeLaunch (endLaunch s lid l) l
        (l.doneCode.getD (0, 0)).1 (l.doneCode.getD (0, 0)).2) l.ctx))) ∧
    (∀ l code detail, l.detached = false → completeLaunch s l code detail = completeRecord s l.queue code detail) ∧
    (∀ lid l r, tbGet s.launches lid = some l → l.dying = some r → l.restoring = false →
      Does (.consume lid r.code) s (finish (modLaunch (killLaunch s lid) lid fun l => { l with restoring := true }))) ∧
    (∀ lid l, tbGet s.launches lid = some l → l.restoring = true → writesSettled s lid = true → s.readyIo.getLsbD 18 = true →
      let code := match l.dying with | some r => r.code | none => 0
      let s0 := match l.dying with | some r => pushErr s r | none => s
      let s1 := pushErr (rollBack s0 lid l) ⟨0x0C, 3, code, 3, 0, 0, ownerOf s lid, l.replays, (l.sl.getD 0).toNat⟩
      let stop (c d : Nat) (s : State) : State :=
        modLaunch s lid fun l => { l with doneCode := some (c, d), dying := none, restoring := false }
      (restorable s lid l = true → 0 < l.retry → Does (.rollbackRestore lid) s (finish (replay s1 lid))) ∧
      (restorable s lid l = true → l.retry = 0 → Does (.rollbackRestore lid) s (finish (stop 0x04 l.replays s1))) ∧
      (restorable s lid l = false → Does (.rollbackRestore lid) s (finish (stop 0x05 code
        (tornRec (setTorn s0 l.queue) l.queue (if l.prot then 1 else 0) code (ownerOf s lid))))))

/-- The register block: a 64-bit write at an aligned offset reaches its register, any other writes nothing, and none does while the device is
held in reset; what the host's own registers read back (spec/00 R8; spec/01 R19, R36; spec/27 R475-R478; spec/21 R395, R409; spec/25 R463, R464;
spec/23 R426, R446). That a write has no effect while RESET_N is low, without power or after a thermal trip is deduced (notes/assumptions/36). -/
def Obligations.RegisterBlock : Prop :=
  ∀ (s : State) (v : W64),
    let w (off : Nat) (s1 : State) : Prop := inReset s = false → Does (.registerWrite off 64 v) s (finish s1)
    (inReset s = true ↔ s.host.resetN = false ∨ s.host.thermtrip = true ∨ s.host.pwrgd = false) ∧
    (∀ off bits, inReset s = true ∨ bits ≠ 64 ∨ off % 8 ≠ 0 → Does (.registerWrite off bits v) s s) ∧
    (v.toNat % 8 ≤ 4 → w 0x218 { s with leesNext := v.setWidth 3 } ∧ Does (.leescfgWrite v) s { s with leesNext := v.setWidth 3 }) ∧
    (4 < v.toNat % 8 → w 0x218 s ∧ Does (.leescfgWrite v) s s) ∧
    w 0x308 (writeErrctl s v) ∧ w 0x310 (writeErrhead s v) ∧ w 0x340 (writeParkcmd s v) ∧ w 0x408 (writeFramecmd s v) ∧
    w 0x200 (writeKilncmd s v) ∧ w 0x210 (writeStampctl s v) ∧
    w 0x320 (modErr s fun e => { e with overflow := e.overflow && !v.getLsbD 63, headbad := e.headbad && !v.getLsbD 62 }) ∧
    (v.getLsbD 0 = false → writeFramecmd s v = modHost s fun h => { h with
      frameRef := h.frameRef && !v.getLsbD 62, frameGran := v.toNat % 2 ^ 52 / 65536 * 65536, frameT := v.getLsbD 1 }) ∧
    (∀ off, off ∈ [0x100, 0x108, 0x110, 0x118, 0x120, 0x128, 0x208, 0x318, 0x328, 0x330, 0x338, 0x480] → w off s) ∧
    (s.err.en = false → w 0x300 (modErr s fun e => { e with base := v.toNat % 2 ^ 52 / 4096 * 4096 })) ∧
    (s.err.en = true → w 0x300 s) ∧
    (anyContext s = true → (∀ off, off ∈ [0x400, 0x410, 0x418, 0x420] → w off s) ∧ ∀ i, i < 8 → w (0x440 + 8 * i) s) ∧
    (anyContext s = false →
      w 0x400 (modHost s fun h => { h with hostlim := v.toNat % 2 ^ 50 / 65536 * 65536 }) ∧
      w 0x410 (modHost s fun h => { h with expbase := v.toNat % 2 ^ 52 / 65536 * 65536 }) ∧
      w 0x418 (modHost s fun h => { h with explen := v.toNat % 2 ^ 47 / 65536 * 65536 }) ∧
      w 0x420 (modHost s fun h => { h with huanenid := BitVec.ofNat 64 (v.toNat / 65536 % 512 * 65536 + v.toNat % 512) }) ∧
      (∀ i, i < 8 → ∃ m : BitVec 512, w (0x440 + 8 * i) (modHost s fun h => { h with peermap := m }) ∧
        ∀ b, b < 512 → m.getLsbD b = if b / 64 = i then v.getLsbD (b % 64) else s.host.peermap.getLsbD b) ∧
      regRead (modHost s fun h => { h with hostlim := v.toNat % 2 ^ 50 / 65536 * 65536 }) 0x400 =
        BitVec.ofNat 64 (v.toNat % 2 ^ 50 / 65536 * 65536)) ∧
    (∀ q, q < 128 → w (0x4008 + 0x20 * q) (writeQctl s q v) ∧ w (0x4018 + 0x20 * q) (writeQdoor s q v) ∧
      ((s.queue q).en = false → w (0x4000 + 0x20 * q) (modQueue s q fun r => { r with base := v.toNat % 2 ^ 52 / 256 * 256 }) ∧
        w (0x4010 + 0x20 * q) (modQueue s q fun r => { r with ctxAddr := v.toNat % 2 ^ 52 / 128 * 128 })) ∧
      ((s.queue q).en = true → w (0x4000 + 0x20 * q) s ∧ w (0x4010 + 0x20 * q) s)) ∧
    (∀ n, n < 12 → (∀ j, j < 5 → w (0x1010 + 0x40 * n + 8 * j) (writeMask s n j v)) ∧
      (let k := s.stack n
       let ctl := 0x1000 + 0x40 * n
       (v.getLsbD 0 = true → k.qreq = false → k.qack = false → w ctl (quiesceRequest s n)) ∧
       (v.getLsbD 0 = true → k.qreq = true ∨ k.qack = true → w ctl s) ∧
       (v.getLsbD 0 = false → k.qreq = true → w ctl (returnRequest s n)) ∧ (v.getLsbD 0 = false → k.qreq = false → w ctl s) ∧
       w (ctl + 8) (s.modStack n fun k => { k with
         qrefuse := k.qrefuse && !v.getLsbD 3, hbad := k.hbad && !v.getLsbD 2, wdrop := k.wdrop && !v.getLsbD 1 })) ∧
      regRead s (0x1000 + 0x40 * n) = BitVec.ofNat 64 (if (s.stack n).qreq then 1 else 0)) ∧
    (∀ core, core < 256 → w (0x8008 + 0x80 * core) (writeDbgcmd s core v) ∧
      w (0x8000 + 0x80 * core) (modCore s core fun c => { c with
        attach := v.getLsbD 63, haltbrk := v.getLsbD 62, dctx := v.toNat / 65536 % 128, dslot := v.toNat % 32 }) ∧
      w (0x8010 + 0x80 * core) (modCore s core fun c => { c with ovr := c.ovr && !v.getLsbD 62 }) ∧
      (∀ j, j < 4 → w (0x8020 + 0x80 * core + 8 * j) (modCore s core fun c => { c with watches := tbSet c.watches j (Watch.mk
        (v.getLsbD 63) (v.getLsbD 62) (v.getLsbD 61) (v.toNat / 2 ^ 48 % 256) (v.toNat / 2 ^ 40 % 32) (v.toNat % 2 ^ 20)) })) ∧
      (∃ x : W64, w (0x8050 + 0x80 * core) (modCore s core fun c => { c with rsel := x }) ∧ ∀ b, b < 64 → x.getLsbD b =
        (v.getLsbD b && decide (b = 61 ∨ b = 62 ∨ 48 ≤ b ∧ b < 59 ∨ b < 15))) ∧
      ∀ r, r ∈ [0x18, 0x40, 0x48, 0x58] → w (0x8000 + 0x80 * core + r) s) ∧
    regRead s 0x218 = BitVec.ofNat 64 s.leesNext.toNat ∧ regRead s 0x128 = BitVec.ofNat 64 s.readyIo.toNat

/-- Quiescing a stack, its return to service, hash masks and data rates (spec/01 R36-R43; spec/25 R466; spec/27 R481, R484). That what a stack
still holds of accepted requests is drained at QACK and before a hash mask changes is deduced, and that a request made again after its withdrawal
and before QACK cancels the return, and that the corrections that led to a request for a lower rate count for no later one, are the model's
choices (notes/assumptions/43). -/
def Obligations.StackService : Prop :=
  ∀ (s : State) (n : Nat), n < 12 →
    let k := s.stack n
    (k.qreq = false → k.qack = false →
      (anyContext s = true ∨ s.gpins ≠ [] →
        Does (.stackQuiesceRequest n) s (finish (s.modStack n fun x => { x with qrefuse := true }))) ∧
      (anyContext s = false → s.gpins = [] → Does (.stackQuiesceRequest n) s (finish
        (setStackBits (drainStack (s.modStack n fun x => { x with qreq := true, quiescing := true }) n) n false)))) ∧
    (k.quiescing = true →
      let s1 := (purgeStack (drainStack s n) n).modStack n fun x => { x with qack := true, quiescing := false }
      ((s1.stack n).qreq = true → Does (.stackQuiesceComplete n) s (finish s1)) ∧
      ((s1.stack n).qreq = false → Does (.stackQuiesceComplete n) s (finish (stackReturn s1 n)))) ∧
    (k.qreq = true →
      let s1 := s.modStack n fun x => { x with qreq := false }
      ((s1.stack n).qack = true → Does (.stackReturnToService n) s (finish (stackReturn s1 n))) ∧
      ((s1.stack n).qack = false → Does (.stackReturnToService n) s (finish s1))) ∧
    (masksIndependent k.masks = true →
      let s1 := (initStack s n).modStack n fun x => { x with qack := false, qreq := false }
      (booted s = true → relengReady s = true → stackReturn s n = setStackBits s1 n true) ∧
      (booted s = false ∨ relengReady s = false → stackReturn s n = s1)) ∧
    (k.qreq = false → k.qack = false → k.quiescing = true → inReset s = false →
      Does (.registerWrite (0x1000 + 0x40 * n) 64 1) s (finish (quiesceRequest s n))) ∧
    (masksIndependent k.masks = false → stackReturn s n = s.modStack n fun x => { x with hbad := true, qreq := true }) ∧
    (masksIndependent hashReset = true) ∧
    (Memory.wf s.mem = true → ∀ a, memGet (initStack s n) a = if hbmKey n 0 ≤ a ∧ a < hbmKey (n + 1) 0 then 0 else memGet s a) ∧
    (∀ j v, j < 5 →
      (k.qack = true → Does (.hashmaskWrite n j v) s (finish ((drainStack s n).modStack n fun x =>
        { x with masks := x.masks.set j (BitVec.ofNat 64 (v.toNat / 256 * 256)) }))) ∧
      (k.qack = false → Does (.hashmaskWrite n j v) s (finish (s.modStack n fun x => { x with wdrop := true })))) ∧
    (rateWanted s n = true → Does (.rateChangeRequest n) s { s.modStack n (fun x => { x with rateReq := some s.cycle }) with
      corr := (List.range 4).foldl (fun m g => smSet [] m (4 * n + g) []) s.corr }) ∧
    (∀ c, k.rateReq = some c → s.cycle < c + 5000000 → saveStreams s n = false →
      Does (.retrainingStart n) s (s.modStack n fun x => { x with rateReq := none, retraining := true })) ∧
    (k.retraining = true → Does (.retrainingComplete n) s (s.modStack n fun x => { x with retraining := false, rate := x.rate + 1 })) ∧
    (∀ c, k.rateReq = some c → c + 5000000 ≤ s.cycle → Does (.rateChangeAbandon n) s
      (finish (pushErr (s.modStack n fun x => { x with rateReq := none, degr := true })
        ⟨0x07, 3, 0, 2, 64 * n, 0, 0, n, 10000 - 1000 * k.rate⟩)))

/-- Arbitration and errors: grants, scrubbing, flipped bits, SRAM and timing errors (spec/17 R363; spec/25 R452-R456, R466). CODE 0x10 of the
records of consumptions is deduced (notes/assumptions/17). That a refresh is granted by a free choice and that a scrub asks for one transfer
(notes/assumptions/5), what the scrub of a lees does (notes/assumptions/41), what the parameters of SRAM_ERROR name, and that a timing detection
numbered 256 or more is one outside a core, an error of structure 3 or 4 or an uncorrectable sector of HBM by a free choice
(notes/assumptions/31), are the model's choices. -/
def Obligations.ErrorsAndArbitration : Prop :=
  ∀ (s : State),
    (∀ home c, Config.freeBit s.free 8 = false → grantClass s home = some c →
      Does (.pcGrant home) s { s with pcq := notePassed home c [] (dropHead home c s.pcq) }) ∧
    (∀ home, Config.freeBit s.free 8 = true → mayGrant s home 1 = true →
      Does (.pcGrant home) s { s with pcq := notePassed home 1 [] s.pcq }) ∧
    (∀ loc, isHbm loc = true → slaOf loc < csOf s.leesMode → slaOf loc < 48000000000 → reachable s loc = true →
      Does (.patrolScrub loc) s (finish (correctSector { s with pcq := s.pcq ++ [⟨homeOf s loc, 7, []⟩] } (sectorOf loc) 1))) ∧
    (∀ loc, isHbm loc = true → csOf s.leesMode ≤ slaOf loc → slaOf loc < 48000000000 → reachable s loc = true →
      Does (.patrolScrub loc) s (finish (correctSlot (stackOf loc) 1 { s with pcq := s.pcq ++ [⟨homeOf s loc, 7, []⟩] }
        (sectorOf loc)))) ∧
    (∀ sec finder, poisoned s sec = true →
      (finder ≠ 1 → correctSector s sec finder = s) ∧
      (finder = 1 → correctSector s sec finder = pushErr s
        ⟨0x02, 1, 0x10, 2, homeOf s (sec * 64), recAddr s (sec * 64), 0, 1, (versionStamp s sec).toNat⟩)) ∧
    (∀ loc b, isHbm (loc + b / 8) = true → slaOf (loc + b / 8) < 48000000000 →
      Does (.hbmDataError loc [b]) s { s with
        flips := smSet 0 s.flips (loc + b / 8) (smGet 0 s.flips (loc + b / 8) ^^^ BitVec.ofNat 8 (2 ^ (b % 8))) }) ∧
    (∀ code unit slot loc, code ≤ 10 →
      let u := sramUnit code unit slot loc
      Does (.sramError code unit slot loc true) s (finish (pushErr
        (modErr s fun e => { e with sramce := min (e.sramce + 1) (2 ^ 64 - 1) })
        ⟨0x03, 0, 0, u.1, u.2, sramAddr s code loc, 0, code, 0⟩)) ∧
      Does (.sramError code unit slot loc false) s (finish (sramUe s code unit slot loc))) ∧
    (∀ unit slot loc tid t, teamAt s unit slot = some (tid, t) →
      sramUe s 0 unit slot loc = consumeBy s t.launch ⟨0x04, 2, 0x10, 0, unit, 0, teamOwner s t, 0, 0⟩) ∧
    (∀ core, Does (.timingDetection core false) s (modErr s fun e => { e with treplay := min (e.treplay + 1) (2 ^ 64 - 1) })) ∧
    (∀ core, core < 256 →
      let s1 := modErr s fun e => { e with treplay := min (e.treplay + 1) (2 ^ 64 - 1) }
      let r (lid : Nat) : ErrRec := ⟨0x05, 2, 0x10, 0, core, 0, ownerOf s1 lid, 0, 0⟩
      let failed (s : State) : State := finish (coreFalls (modCore s core fun c => { c with failed := true }) core)
      let dying : Prop := ∀ lid ∈ launchesOn s1 core, isDying s1 lid = true
      (dying → Does (.timingDetection core true) s (failed (pushErr s1 (r ((launchesOn s1 core).headD 0))))) ∧
      (¬dying → Does (.timingDetection core true) s
        (failed ((launchesOn s1 core).foldl (fun s lid => consumeBy s lid (r lid)) s1)))) ∧
    (∀ core, 256 ≤ core →
      let s1 := modErr s fun e => { e with treplay := min (e.treplay + 1) (2 ^ 64 - 1) }
      (∃ sec, Does (.timingDetection core true) s (finish (loseSector s1 sec))) ∨
        ∃ code sec, (code = 3 ∨ code = 4) ∧
          Does (.timingDetection core true) s (finish (sramUe s1 code ((core - 256) % 256) 0 (64 * sec))))

/-- The host's service: parked teams, halted contexts, the error ring's registers, rebases, the kiln, the frame table (spec/25 R459-R464;
spec/21 R395, R408-R415; spec/27 R477). -/
def Sys2Proof.Spec.HostService : Prop :=
  ∀ (s : State) (core slot ctx addr : Nat) (v : W64),
    (relengReady s = false →
      (∀ i ∈ [Instr.parkResume core slot ctx, .parkResumeSkip core slot ctx, .parkKillTeam core slot ctx],
        Does i s (finish (parkTeam s core slot ctx s.err.parkRef))) ∧
      ∀ i ∈ [Instr.contextResume ctx, .contextKill ctx], Does i s (finish (parkCtx s ctx s.err.parkRef))) ∧
    (relengReady s = true → parkedAt s core slot ctx = none → ∀ i ∈ [Instr.parkResume core slot ctx, .parkResumeSkip core slot ctx, .parkKillTeam core slot ctx],
      Does i s (finish (parkTeam s core slot ctx true))) ∧
    (∀ tid t, relengReady s = true → parkedAt s core slot ctx = some (tid, t) →
      let s1 (op : Nat) : State := modTeam (parkTeam s core slot ctx false) tid fun t => { t with parkCmd := op }
      let done (i : Instr) (op : Nat) : Prop :=
        (running t = true → Does i s (finish (parkPending (s1 op) tid))) ∧ (running t = false → Does i s (finish (s1 op)))
      done (.parkResume core slot ctx) 1 ∧ done (.parkResumeSkip core slot ctx) 2 ∧ done (.parkKillTeam core slot ctx) 3) ∧
    (∀ c, relengReady s = true → tbGet s.contexts ctx = some c →
      (c.halted.isSome = true → Does (.contextResume ctx) s (finish (resumeContext (parkCtx s ctx false) ctx))) ∧
      (c.halted = none → Does (.contextResume ctx) s (finish (parkCtx s ctx true))) ∧
      (c.record ≠ endedRecord → Does (.contextKill ctx) s (finish (killContext (parkCtx s ctx false) ctx 0)))) ∧
    (relengReady s = true → tbGet s.contexts ctx = none → Does (.contextKill ctx) s (finish (parkCtx s ctx true))) ∧
    (let en := v.getLsbD 63
     let start := en && !s.err.en
     let n := v.toNat % 32
     let log := if s.err.en = true then s.err.log2n else n
     let head := if start then 0 else s.err.head
     let tail := if start then 0 else s.err.tail
     Does (.errctlWrite v) s (modErr s fun e => { e with en := en, ie := v.getLsbD 62, log2n := log, head := head, tail := tail })) ∧
    (let h := v.toNat % 2 ^ 32
     ((s.err.tail + 2 ^ 32 - h) % 2 ^ 32 ≤ 2 ^ s.err.log2n → Does (.errheadWrite v) s (modErr s fun e => { e with head := h })) ∧
     (2 ^ s.err.log2n < (s.err.tail + 2 ^ 32 - h) % 2 ^ 32 → Does (.errheadWrite v) s (modErr s fun e => { e with headbad := true }))) ∧
    (s.rebasing = false → (anyContext s = true ∨ livePins s ≠ [] → Does .rebase s { s with rbRefuse := true }) ∧
      (anyContext s = false → livePins s = [] → Does .rebase s { s with rebasing := true })) ∧
    (s.rebasing = true → ∃ s1, Does .rebaseComplete s s1 ∧ s1.rebasing = false ∧ s1.rbDone = true ∧ s1.clocks = [] ∧
      s1.lees = [] ∧ s1.horizon = 0 ∧ s1.mem = s.mem ∧ s1.tags = s.tags ∧ ∀ e ∈ s1.sectors, e.2.1 = 0) ∧
    (let begun (op : Nat) (i : Instr) (f : State → State) : Prop :=
       let s1 := { s with kilncmd := BitVec.ofNat 64 (addr % 2 ^ 52 / 64 * 64 + op) }
       (s.readyIo.getLsbD 19 = false → Does i s s1) ∧
       (s.readyIo.getLsbD 19 = true → s.kiln.isSome = true → Does i s { s1 with kilnStatus := 8 }) ∧
       (s.readyIo.getLsbD 19 = true → s.kiln = none → Does i s (finish (f { s1 with kilnBytes := 0 })))
     begun 1 (.kilnDrain addr) (fun s => match kilnRecord s addr with
       | (s, none) => kilnEnd s 2
       | (s, some k) => match genPin s k.gen with | none => kilnEnd s 1 | some p => drainTo s p k) ∧
     begun 3 (.kilnReleaseGeneration addr) (fun s => match kilnRecord s addr with
       | (s, none) => kilnEnd s 2
       | (s, some k) => match genPin s k.gen with
         | none => kilnEnd s 1
         | some _ => kilnEnd { s with gpins := s.gpins.filter fun q => q.id != k.gen } 0) ∧
     begun 2 (.kilnRestore addr) (fun s => match kilnRecord s addr with
       | (s, none) => kilnEnd s 2
       | (s, some k) =>
         if anyContext s = true ∨ livePins s ≠ [] then kilnEnd s 6
         else if hostUsable s k.commit 256 = false then kilnEnd s 2
         else match readPa s (hostPa k.commit) 256 4 with
           | (s, none) => kilnEnd s 3
           | (s, some d) => restoreFrom s k d)) ∧
    (s.readyIo.getLsbD 19 = false → Does .kilnCommit s s ∧ Does .kilnAbort s { s with kilncmd := 0 }) ∧
    (∀ (k : KilnRec) (d : List Byte),
      let n (off : Nat) : Nat := leNat ((d.drop off).take 8)
      (n 0 ≠ 0x4B494C4E00000001 ∨ k.len < n 40 → restoreFrom s k d = kilnEnd s 5) ∧
      (n 0 = 0x4B494C4E00000001 → n 40 ≤ k.len →
        (hostUsable s k.dest (n 40) = false → restoreFrom s k d = kilnEnd s 2) ∧
        (hostUsable s k.dest (n 40) = true →
          (getArea s k.dest (n 40) = none → restoreFrom s k d = kilnEnd { s with kilnBytes := areaGood s k.dest (n 40) } 3) ∧
          ∀ m, getArea s k.dest (n 40) = some m →
            let read := { s with kilnBytes := n 40 }
            let whole : Prop := (d.drop 64).take 64 = areaDigest m (n 40)
            let fits : Prop := n 48 = shapeWord s ∧ n 56 = s.leesMode ∧ (d.drop 128).take 64 = masksDigest s
            let can : Prop := restoreStamps s = true ∧ ∀ i, i < 12 → stackReady s i = true
            (¬whole → restoreFrom s k d = kilnEnd read 5) ∧ (whole → ¬fits → restoreFrom s k d = kilnEnd read 4) ∧
            (whole → fits → ¬can → restoreFrom s k d = kilnEnd read 2) ∧
            (whole → fits → can → restoreFrom s k d =
              { read with kiln := some (.restore ⟨k.dest, n 40, n 32, BitVec.ofNat 64 (n 16)⟩) })))) ∧
    (∀ r : Restore, s.readyIo.getLsbD 19 = true → s.kiln = some (.restore r) →
      let can : Prop := hostUsable s r.dest r.image = true ∧ restoreStamps s = true ∧ ∀ i, i < 12 → stackReady s i = true
      Does .kilnAbort s (finish (kilnEnd (undefineHbm { s with kilncmd := 0 }) 7)) ∧
      (¬can → Does .kilnCommit s (finish (kilnEnd (undefineHbm s) 2))) ∧
      (can → getArea s r.dest r.image = none → Does .kilnCommit s (finish (kilnEnd (undefineHbm s) 3))) ∧
      (∀ m, can → getArea s r.dest r.image = some m → Does .kilnCommit s
        (finish (kilnEnd (restoreEnd (restoreExtents (settleAll s) m r.count) r.stamp) 0)))) ∧
    (undefineHbm s = { s with mem := (undefineHbm s).mem, tracked := (undefineHbm s).tracked } ∧
      ∀ a, isHbm a = false → memGet (undefineHbm s) a = memGet s a) ∧
    (∀ k : Drain, s.readyIo.getLsbD 19 = true → s.kiln = some (.drain k) →
      Does .kilnAbort s (finish (kilnEnd { s with kilncmd := 0 } 7)) ∧
      (∀ p m, genPin s k.gen = some p → hostUsable s k.commit 256 = true → getArea s k.dest (imageLen s) = some m →
        let w := deviceWriter s
        let s1 := writePa s (hostPa k.commit + 8) (commitBytes s p k (areaDigest m (imageLen s))) w
        let s2 := writePa s1 (hostPa k.commit) (leBytes 8 0x4B494C4E00000001) w
        Does .kilnCommit s (finish (kilnEnd { s2 with gpins := s2.gpins.filter fun q => q.id != k.gen } 0)))) ∧
    (v.getLsbD 0 = true →
      let g := v.toNat % 2 ^ 52 / 65536 * 65536
      let s1 := if v.getLsbD 62 then modHost s fun h => { h with frameRef := false } else s
      (s.host.frameRun.isSome = true ∨ s.gpins ≠ [] ∨ granuleOk s g = false →
        Does (.framecmdGo v) s (modHost s1 fun h => { h with frameGran := g, frameT := v.getLsbD 1, frameRef := true })) ∧
      (s.host.frameRun = none → s.gpins = [] → granuleOk s g = true →
        Does (.framecmdGo v) s (modHost s1 fun h =>
          { h with frameGran := g, frameT := v.getLsbD 1, frameRun := some (g, v.getLsbD 1) }))) ∧
    (∀ g t, s.host.frameRun = some (g, t) → frameDue s = true →
      ∃ s1, Does .frameChangeComplete s (finish s1) ∧ s1.host.frameRun = none ∧
        (t = true → g ∈ s1.tracked) ∧ (t = false → g ∉ s1.tracked) ∧
        ∀ h, h ≠ g → (h ∈ s1.tracked ↔ h ∈ s.tracked))

/-- The debugger (spec/23 R446, R447; spec/09 R209). -/
def Sys2Proof.Spec.Debugger : Prop :=
  ∀ (s : State) (core : Nat),
    (dbgTeam s core = none → ∀ i ∈ [Instr.dbgHalt core, .dbgResume core, .dbgStepInstruction core, .dbgStepClause core],
      Does i s s) ∧
    (∀ tid t, dbgTeam s core = some (tid, t) →
      (t.halted = true → Does (.dbgHalt core) s s) ∧
      (t.halted = false → midInstruction s t = true →
        Does (.dbgHalt core) s (modTeam s tid fun t => { t with dbg := .instruction })) ∧
      (t.halted = false → midInstruction s t = false →
        Does (.dbgHalt core) s (modTeam s tid fun t => { t with halted := true, dbg := .none })) ∧
      Does (.dbgResume core) s (modTeam s tid fun t => { t with halted := false, dbg := .none }) ∧
      (t.halted = true →
        Does (.dbgStepInstruction core) s (modTeam s tid fun t => { t with halted := false, dbg := .instruction }) ∧
        Does (.dbgStepClause core) s (modTeam s tid fun t => { t with halted := false, dbg := .clause }))) ∧
    (let x : W64 := match (s.core core).mail with | m :: _ => m.data | [] => 0
     Does (.mbpopRead core) s (modHost (modCore s core fun c => { c with mail := c.mail.drop 1 })
       fun h => { h with lastRead := leBytes 8 x.toNat, lastPoison := false }))

/-- The host's service and the debugger (spec/25 R459-R464; spec/23 R446, R447; spec/21 R395, R408-R415; spec/27 R477). The model's own in it:
writer tags survive a rebase (notes/assumptions/30), a debugger command without ATTACH or for another context changes nothing
(notes/assumptions/33), a LOG2N that R463 does not give is stored (notes/assumptions/34), a kiln command is only stored and a running one
stands still while KILN is not ready (notes/assumptions/26, 44), a restore's write-back is a step of its own, what one that stops part-way
leaves is a free value, and the frame table with it (notes/assumptions/26), and while RELENG is not ready PARKCMD stores its fields and starts no
operation (notes/assumptions/44). -/
def Obligations.HostServiceAndDebugger : Prop := Spec.HostService ∧ Spec.Debugger

/-- CXL links: a port's bit rises with the last of its links, one or, bifurcated, two, and falls with the first; then its lines are dropped,
dirty ones leave their sectors poisoned, and its requests complete as uncorrectable errors, as late faults or, of a reduction, in the log; a
chunk that a lost request was to fill stays unfilled (spec/27 R469, R470, R473; spec/25 R486; spec/13 R273, R281). Which requests are in flight is
a free choice of the model (notes/assumptions/45). -/
def Sys2Proof.Spec.LinksUpAndDown (s : State) (port : Nat) : Prop :=
  let link (half : Nat) (b : Bool) : State := modHost s fun h => { h with links := setBit h.links (2 * port + half) b }
  let bifur := if port = 0 then s.host.bifur0 else s.host.bifur1
  (∀ half, port < 2 → half = 0 ∨ half = 1 ∧ bifur = true → booted s = true → s.readyIo.getLsbD 20 = true →
    let up := half = 0 ∧ bifur = false ∨ bifur = true ∧ s.host.links.getLsbD (2 * port + (1 - half)) = true
    (up → Does (.cxlLinkUp (2 * port + half)) s { link half true with readyIo := setBit s.readyIo port true }) ∧
    (¬up → Does (.cxlLinkUp (2 * port + half)) s (link half true))) ∧
  (let fallen (s0 : State) : State :=
     let mine (l : CxlLine) : Bool := l.port == (port == 1)
     let s1 := loseWrites (losePort s0 port) port
     let s2 := { s1 with readyIo := setBit s.readyIo port false, cxl := s.cxl.filter fun l => !mine l }
     let s3 := (s.cxl.filter fun l => mine l && l.dirty).foldl (fun s l => setPoison s l.key true) s2
     pushErr s3 ⟨0x06, 1, 0, 4, port, 0, 0, 0x128, port⟩
   let dark : State := modHost s fun h => { h with links := setBit (setBit h.links (2 * port) false) (2 * port + 1) false }
   (∀ half, port < 2 → half < 2 → s.host.links.getLsbD (2 * port + half) = true →
     (s.readyIo.getLsbD port = false → Does (.cxlLinkDown (2 * port + half)) s (finish (link half false))) ∧
     (s.readyIo.getLsbD port = true → Does (.cxlLinkDown (2 * port + half)) s (finish (fallen (link half false))))) ∧
   (port < 2 → s.readyIo.getLsbD port = true → Does (.readyFall (.cxl port)) s (finish (fallen dark)))) ∧
  (let s1 := losePort s port
   s1 = { s with ops := s1.ops, cmds := s1.cmds, crews := s1.crews } ∧
   ((s.ops.map (·.1)).Nodup → ∀ id o, tbGet s.ops id = some o → ∃ o', tbGet s1.ops id = some o' ∧
     o'.ext = o.ext.filter (fun r => decide (r.link / 2 ≠ port)) ∧
     (flying s port (id, o) = [] → o' = { o with ext := o'.ext }) ∧
     (∀ r ∈ flying s port (id, o), r ∈ o.ext ∧ r.link / 2 = port ∧
       (o.kind ≠ .reduction → (∃ l, o'.late = some l ∧
           (o.late = none → l.code = .dataUncorrectable) ∧ (r.lane < 1024 → l.mask.getLsbD r.lane = true)) ∧
         ∀ e ∈ o'.dest.v, e.1 % 1024 ≠ r.lane) ∧
       (o.kind = .reduction → ∀ x, r.log = some x → x ∈ o'.logs))) ∧
   (∀ cid c, tbGet s.crews cid = some c → ∃ c', tbGet s1.crews cid = some c' ∧ c' = { c with windows := c'.windows } ∧
     ∀ e ∈ s.ops, ∀ r ∈ flying s port e, ∀ woff i, r.fill = some (cid, woff, i) → ∀ w ∈ c'.windows, w.off = woff →
       tbGet w.chunks i = none) ∧
   (∀ e ∈ s1.cmds, ∃ c ∈ s.cmds, c.1 = e.1 ∧ (e.2 = c.2 ∨
     c.2.err = none ∧ ∃ a, e.2 = { c.2 with err := some (0x10, a) })))

/-- What peers do to exported bytes: nothing outside them; reads, writes, poisoned ones with their record, and atomics and reductions at this
device's atomic point, which answer the bytes before (spec/27 R479, R480; spec/13 R280; spec/25 R454, R466). -/
def Sys2Proof.Spec.PeerAccesses (s : State) : Prop :=
  (List.range 16).any (fun p => s.readyIo.getLsbD (2 + p)) = true → ∀ (off : Nat) (op : PeerOp) (d : List Byte),
    let n := match op with
      | .read n => n
      | .write _ => d.length
      | .atomic ty _ | .cas ty _ | .reduction ty _ => if ty.is64 then 8 else 4
    let refused (s1 : State) (code : Nat) : State := modHost s1 fun h => { h with lastRefused := some code }
    let does (s1 : State) : Prop := Does (.peerAccess off op d) s s1
    let answered (s1 : State) (d : List Byte) : Prop := does (finish (modHost s1 fun h =>
      { h with lastRead := d, lastPoison := false, lastRefused := none }))
    (exportedPa s off n = none → does (refused s 0x05)) ∧
    (∀ pa, exportedPa s off n = some pa →
      (paUsable s pa n = false → does (refused s 0x10)) ∧
      (paUsable s pa n = true →
        (op = .write false → answered (writePa s pa d { deviceWriter s with floor := 0 }) []) ∧
        (op = .write true → ∃ s1 port, answered s1 [] ∧ s1.errq =
          (writePa s pa d { deviceWriter s with floor := 0 }).errq ++
            [⟨0x10, 1, 0, 5, port, recAddr s ((keyOfPa s pa).getD 0), 0, leNat (d.take 8), 0⟩]) ∧
        (∀ s1, readPa s pa n 0 = (s1, none) → (∀ p, op ≠ .write p) → does (finish (refused s1 0x10))) ∧
        (∀ s1 old, readPa s pa n 0 = (s1, some old) →
          let x := leNat d
          let w : Writer := { deviceWriter s1 with floor := match keyOfPa s1 pa with | some k => tagRead s1 k n | none => 0 }
          let put (x : Nat) : State := writePa s1 pa (leBytes n x) w
          (∀ m, op = .read m → answered s1 old) ∧
          (∀ ty f, op = .atomic ty f → answered (put (atomicF ty f (leNat old) x)) old) ∧
          (∀ ty e, op = .cas ty e → (leNat old = e → answered (put x) old) ∧ (leNat old ≠ e → answered s1 old)) ∧
          (∀ ty f, op = .reduction ty f → answered (put (atomicF ty f (leNat old) x)) []))))

/-- Where no agent holds a sector and nothing is on its way to it, a host write of it changes the bytes at its address to its data and no other: at
once, or of a tracked granule when the write that it queues reaches its home (spec/27 R471; spec/21 R392, R393). -/
def Sys2Proof.Spec.HostWriteLands (s : State) (port : Nat) : Prop :=
  ∀ (addr : Nat) (data : List Byte) (poison : Bool) (k : Nat), port < 2 → s.readyIo.getLsbD port = true →
    addr % 64 + data.length ≤ 64 → addr + data.length ≤ interleavedEnd s → keyOfPa s addr = some k → reachable s k = true →
    Memory.wf s.mem = true → quiesceBack s k = false → stashPlaces s (sectorOf k) = [] → (∀ w ∈ s.homeq, sectorOf w.key ≠ sectorOf k) →
    tbGet s.groups (sectorOf k) = none →
    (trackedPa s addr = false → ∃ s1, Does (.hostMemWrite port addr data poison) s (finish s1) ∧
      (∀ a, memGet s1 a = if k ≤ a ∧ a < k + data.length then data.getD (a - k) 0 else memGet s a) ∧
      (poison = true → poisoned s1 (sectorOf k) = true)) ∧
    (trackedPa s addr = true → ∃ s1 w, Does (.hostMemWrite port addr data poison) s (finish s1) ∧ s1.mem = s.mem ∧
      s1.homeq = s.homeq ++ [w] ∧ w.home = homeOf s k ∧ w.key = k ∧ w.data = data ∧ w.poison = poison ∧
      w.floor = smGet 0 s.host.floors port ∧ w.tag = 0)

/-- The fall of a READY bit outside a quiesce, with its record; a stack's bit falls with any of its groups'; RELENG's record is written before its
bit falls (spec/01 R20-R26; spec/25 R466). -/
def Sys2Proof.Spec.ReadyFalls (s : State) : Prop :=
  let r (unit index off bit : Nat) : ErrRec := ⟨0x06, 1, 0, unit, index, 0, 0, off, bit⟩
  (∀ n, n < 256 → s.readyCore.getLsbD n = true → Does (.readyFall (.core n)) s
    (finish (pushErr { s with readyCore := setBit s.readyCore n false } (r 0 n (0x100 + 8 * (n / 64)) (n % 64))))) ∧
  (∀ n, n < 12 →
    let down (s : State) : State := pushErr { s with readyStack := setBit s.readyStack n false } (r 2 (64 * n) 0x120 n)
    (s.readyStack.getLsbD n = true → Does (.readyFall (.stack n)) s (finish (down s))) ∧
    (∀ g, g < 4 → s.readyGroup.getLsbD (4 * n + g) = true →
      let s1 := pushErr { s with readyGroup := setBit s.readyGroup (4 * n + g) false } (r 2 (64 * n) 0x120 (12 + 4 * n + g))
      (s.readyStack.getLsbD n = true → Does (.readyFall (.group n g)) s (finish (down s1))) ∧
      (s.readyStack.getLsbD n = false → Does (.readyFall (.group n g)) s (finish s1)))) ∧
  (let io (b : Nat) (s : State) : State := { s with readyIo := setBit s.readyIo b false }
   (s.readyIo.getLsbD 18 = true → Does (.readyFall .cp) s (finish (pushErr (io 18 s) (r 3 0 0x128 18)))) ∧
   (s.readyIo.getLsbD 19 = true → Does (.readyFall .kiln) s (finish (pushErr (io 19 s) (r 3 0 0x128 19)))) ∧
   (s.readyIo.getLsbD 20 = true → Does (.readyFall .releng) s (finish (io 20 (finish (pushErr s (r 3 0 0x128 20)))))) ∧
   (∀ p, p < 16 → s.readyIo.getLsbD (2 + p) = true →
     Does (.readyFall (.huanen p)) s (finish (pushErr (io (2 + p) s) (r 5 p 0x128 (2 + p))))))

/-- Host memory access, links, peers, attestation, READY bits, boot and reset (spec/27 R469-R473, R479-R484; spec/01 R20-R28; spec/25
R466). That RESET_N keeps the mode in force and that whether the image is good is told by the fuses of Config is the model's choice
(notes/assumptions/36), how the answers of SPDM depend on the device too (notes/assumptions/9). That a record of poisoned data carries its low
64 bits (notes/assumptions/31) and that a peer's atomic or reduction is one step at this device's atomic point (notes/assumptions/40) are
deduced. -/
def Obligations.LinksPinsAndReady : Prop :=
  ∀ (s : State) (port : Nat),
    (∀ addr n, port < 2 → s.readyIo.getLsbD port = true → addr % 64 + n ≤ 64 → addr + n ≤ interleavedEnd s →
      (allStacksReady s = false → Does (.hostMemRead port addr n) s (answerHost s n none)) ∧
      (∀ s1, allStacksReady s = true → readPa s addr n 5 = (s1, none) →
        Does (.hostMemRead port addr n) s (finish (answerHost s1 n none))) ∧
      (∀ s1 d, allStacksReady s = true → readPa s addr n 5 = (s1, some d) →
        ∃ s2, Does (.hostMemRead port addr n) s (finish s2) ∧ s2.host.lastRead = d ∧ s2.host.lastPoison = false ∧
          s2.mem = s1.mem)) ∧
    (∀ addr data poison, port < 2 → s.readyIo.getLsbD port = true → addr % 64 + data.length ≤ 64 →
      addr + data.length ≤ interleavedEnd s →
      Does (.hostMemWrite port addr data poison) s (finish (hostWrite s port addr data poison))) ∧
    Spec.HostWriteLands s port ∧
    Spec.LinksUpAndDown s port ∧
    (port < 16 → s.readyIo.getLsbD (2 + port) = true → Does (.huanenPortFail port) s
      (finish (pushErr { s with readyIo := setBit s.readyIo (2 + port) false } ⟨0x06, 1, 0, 5, port, 0, 0, 0x128, 2 + port⟩))) ∧
    Spec.PeerAccesses s ∧
    (s.host.pwrgd = true → s.host.resetN = true →
      let answers (what : Spdm) (bytes : List Byte) : Prop :=
        Does (.spdmRequest what) s (modHost s fun h => { h with spdm := h.spdm ++ [bytes] })
      answers .certificates Config.spdmChain ∧ (∃ n, answers .challenge (Config.spdmSignature n)) ∧
      (∀ i, s.host.image = some i → answers .measurements (Config.spdmMeasurements i.id))) ∧
    (s.host.pwrgd = true → s.host.resetN = false → s.host.thermtrip = false → ∀ b0 b1 (i : Image),
      let left (ok : Bool) (svn fwver : Nat) : State := modHost (resetState s) fun h => { h with
        resetN := true, bifur0 := b0, bifur1 := b1, image := some i, fwok := ok, fwbad := !ok, svn := svn, fwver := fwver }
      let good : Prop := i.signed = true ∧ i.keyHash = Config.fuseKeyHash ∧ Config.fuseMinSvn ≤ i.svn
      (good → Does (.resetRelease b0 b1 i) s
        { left true (i.svn % 2 ^ 16) (i.fwver % 2 ^ 32) with leesMode := s.leesNext.toNat }) ∧
      (¬good → Does (.resetRelease b0 b1 i) s (left false 0 0))) ∧
    Does .powerGood s (modHost s fun h => { h with pwrgd := true }) ∧
    (∃ s1, Does .thermalTrip s s1 ∧ s1.host.thermtrip = true ∧ s1.teams = [] ∧ s1.leesNext = s.leesNext) ∧
    (∃ s1, Does .lossOfPower s s1 ∧ s1.host.pwrgd = false ∧ s1.teams = [] ∧ s1.queues = [] ∧ s1.leesNext = s.leesNext) ∧
    (s.host.pwrgd = true → ∃ s1, Does .resetNAssertion s s1 ∧ s1.teams = [] ∧ s1.launches = [] ∧ s1.contexts = [] ∧
      s1.queues = [] ∧ s1.counters = [] ∧ s1.readyIo = 0 ∧ s1.readyCore = 0 ∧ s1.readyStack = 0 ∧ s1.leesNext = s.leesNext ∧
      s1.leesMode = s.leesMode ∧ s1.nextGen = s.nextGen ∧ s1.host.pwrgd = true ∧ s1.host.resetN = false ∧ s1.host.links = 0) ∧
    (∀ f, mayRise s f = true → Does (.functionReady f) s (setReady s f true)) ∧
    Spec.ReadyFalls s

/-! ### Encoding -/

/-- The words the spec works through, and the instructions they stand for; a first word of form 0b11 and an unassigned opcode stand for none
(spec/07 R139, R164, R167). -/
def Obligations.DecodeWords : Prop :=
  decodeTableWord 64 0x8026355800C00000 = some (.clauseEntry ⟨0b1001#12, some 1, some 5, 5, some 12, false⟩) ∧
  decodeTableWord 64 0x18C40140080180A8 = some (.vfma ⟨1, 10, 2, 3, 10, .f⟩) ∧
  decodeTableWord 64 0x6002028062090603 = some (.dualWord ⟨.vadd, 4, 5, 0, .i32⟩ ⟨.vfmul, 9, 6, 0, .f⟩) ∧
  decodeTableWord 128 (0x64 * 2 ^ 64 + 0x1000008010000400) = some (.vadd ⟨0, 4, 4, .i32, .lit 0x64⟩) ∧
  decodeTableWord 64 0x0040FFFFFFFD8000 = some (.br (-5)) ∧
  decodeTableWord 64 0xC000000000000000 = none ∧ decodeTableWord 64 (0x2D * 2 ^ 54) = none

/-- Encode and decode agree: every well-formed instruction has words, and they decode to it, with every operand at every value its encoding
admits (spec/07 R139, R152-R168). -/
def Obligations.EncodeDecodeRoundTrip : Prop :=
  ∀ i : Instr, i.wf = true → Safety.isEvent i = false →
    ∃ w, encode i = some w ∧ w.first < 2 ^ 64 ∧ decodeWords w.first (w.lit.getD 0) = .ok i

/-- No two words are one instruction: words that decode are the words of what they decode to (spec/07 R168). -/
def Obligations.DecodedWordsEncodeBack : Prop :=
  ∀ (w : Nat) (lit : W64) (i : Instr), w < 2 ^ 64 → decodeWords w lit = .ok i →
    i.wf = true ∧ encode i = some ⟨w, if wordCount w = 2 then some lit else none⟩

/-! ### Steps, reset and the invariant -/

/-- The team `tid` is the one a step lets issue, on `s'`: the team picked among the ready ones, which the first step of a cycle finds, or
before that a team that enters a clause (spec/03 R65, R66; spec/23 R439). -/
def Sys2Proof.Spec.LetsIssue (s s' : State) (tid : Nat) : Prop :=
  (∀ e ∈ s.agenda, s.cycle < e.1) ∧
  ((s.ready.isSome = true ∧ s' = s ∧ ∃ u, pickTeam s' = some (tid, u)) ∨
   (s.ready = none ∧ s' = s ∧ ∃ u, s.teams.find? (beforeClause s) = some (tid, u)) ∨
   (s.ready = none ∧ s.teams.find? (beforeClause s) = none ∧ s' = sampleReady s ∧ ∃ u, pickTeam s' = some (tid, u)))

/-- A step with nothing due from outside, in which a team is let issue, runs the instruction its words decode to: the header at the PC where
the team is at a clause's end, else the word at the PC, with the literal after it; where no datapath of the core takes a vector word, the
team is not ready in that cycle (spec/07 R139-R144, R157; spec/03 R65, R66; spec/17 R354). -/
def Obligations.StepRunsDecodedInstruction : Prop :=
  ∀ (s s' : State) (tid : Nat) (t : Team), Spec.LetsIssue s s' tid →
    let s0 := { startIssue s' tid with cur := some tid }
    s0.team tid = some t →
    (∀ s1 w h, t.clause = none → fetchWord s0 t t.pc = (s1, .ok w) → decodeHeader w = .ok h →
      step s = onNext afterStep (exec (.clauseEntry h) s1)) ∧
    (∀ c s1 w i, t.clause = some c → fetchWord s0 t t.pc = (s1, .ok w) →
      let runs (s2 : State) : Prop :=
        (noDatapath s2 t i = false →
          step s = onNext afterStep (exec i (takePath { s2 with chosen := s2.chosen ++ [(tid, t.home)] } t i))) ∧
        (noDatapath s2 t i = true → step s = .next (afterStep (unready s2 tid)))
      (wordCount w ≠ 2 → decodeInstr w 0 = .ok i → runs s1) ∧
      (∀ s2 lit, wordCount w = 2 → (t.pc.toNat - c.addr.toNat) / 8 < c.h.len →
        fetchWord s1 t (t.pc + 8) = (s2, .ok lit) → decodeInstr w (BitVec.ofNat 64 lit) = .ok i → runs s2))

/-- The reset value of HASHMASKj of every stack has bits 8+j, 13+j, 18+j, 23+j, 28+j and 33+j set and no others, as the table gives it
(spec/01 R38). -/
def Obligations.HashMasksAfterReset : Prop :=
  ∀ n, n < 12 → (State.reset.stack n).masks = [0x0000000210842100, 0x0000000421084200, 0x0000000842108400, 0x0000001084210800,
      0x0000002108421000] ∧
    ∀ j, j < 5 → ∀ b, ((State.reset.stack n).masks.getD j 0).getLsbD b = true ↔
      b = 8 + j ∨ b = 13 + j ∨ b = 18 + j ∨ b = 23 + j ∨ b = 28 + j ∨ b = 33 + j

/-- What reset leaves (spec/01 R20, R36, R38; spec/23 R426, R429; spec/25 R463; spec/27 R484). That the stored LEESCFG is 2, as in a part
that is delivered, is deduced from R28 (notes/assumptions/12). -/
def Obligations.ResetState : Prop :=
  State.reset.readyCore = 0 ∧ State.reset.readyStack = 0 ∧ State.reset.readyGroup = 0 ∧ State.reset.readyIo = 0 ∧
  State.reset.leesNext = 2 ∧
  (∀ n, n < 12 → (State.reset.stack n).masks = [0x0000000210842100, 0x0000000421084200, 0x0000000842108400,
      0x0000001084210800, 0x0000002108421000] ∧
    (∀ j, j < 5 → ∀ b, b < 64 → ((State.reset.stack n).masks.getD j 0).getLsbD b =
      decide (b ∈ [8 + j, 13 + j, 18 + j, 23 + j, 28 + j, 33 + j])) ∧
    (State.reset.stack n).qreq = false ∧ (State.reset.stack n).qack = false) ∧
  State.reset.teams = [] ∧ State.reset.launches = [] ∧ State.reset.contexts = [] ∧
  (∀ q, (State.reset.queue q).en = false) ∧ State.reset.err.en = false

/-- Reset meets the invariant. -/
def Obligations.ResetMeetsInv : Prop := Safety.Inv State.reset

/-- Every step keeps the invariant: memory and every team's registers stay in canonical form, and no instruction is left half done
(the model's own form of State). -/
def Obligations.StepKeepsInv : Prop :=
  ∀ s s' : State, Safety.Inv s → step s = .next s' → Safety.Inv s'
end

