-- ==== Sys2Proof/Laws/Sparse.lean ====
section
/-! SUPPORT. What the sparse maps of Machine/Sparse.lean do: reads after writes, and the canonical form every write keeps. -/

namespace Sys2Proof.Laws

variable {α : Type}

/-! ### Tables -/

/-- The key entered reads back. -/
@[simp] theorem tbGet_tbSet_self (m : List (Nat × α)) (k : Nat) (v : α) : tbGet (tbSet m k v) k = some v := by
  induction m with
  | nil => simp [tbSet, tbGet]
  | cons e m ih =>
    obtain ⟨j, w⟩ := e
    simp only [tbSet]
    split
    · simp [tbGet]
    · split
      · simp [tbGet]
      · rename_i h1 h2
        simp only [tbGet, if_neg (Ne.symm h2), ih]

/-- Every other key reads as before. -/
theorem tbGet_tbSet_ne (m : List (Nat × α)) {k j : Nat} (v : α) (h : j ≠ k) : tbGet (tbSet m k v) j = tbGet m j := by
  induction m with
  | nil => simp [tbSet, tbGet, Ne.symm h]
  | cons e m ih =>
    obtain ⟨i, w⟩ := e
    simp only [tbSet]
    split
    · simp [tbGet, Ne.symm h]
    · split
      · rename_i h1 h2; subst h2; simp [tbGet, Ne.symm h]
      · simp [tbGet, ih]

/-- A changed key reads changed. -/
@[simp] theorem tbGet_tbMod_self (m : List (Nat × α)) (k : Nat) (f : α → α) :
    tbGet (tbMod m k f) k = (tbGet m k).map f := by
  induction m with
  | nil => rfl
  | cons e m ih =>
    obtain ⟨i, w⟩ := e
    by_cases h : i = k <;> simp [tbMod, tbGet, h, ih]

/-- Every other key reads as before a change. -/
theorem tbGet_tbMod_ne (m : List (Nat × α)) {k j : Nat} (f : α → α) (h : j ≠ k) :
    tbGet (tbMod m k f) j = tbGet m j := by
  induction m with
  | nil => rfl
  | cons e m ih =>
    obtain ⟨i, w⟩ := e
    by_cases h1 : i = k
    · subst h1; simp [tbMod, tbGet, Ne.symm h]
    · simp [tbMod, tbGet, h1, ih]

/-- A key removed is absent. -/
@[simp] theorem tbGet_tbDel_self (m : List (Nat × α)) (k : Nat) : tbGet (tbDel m k) k = none := by
  induction m with
  | nil => rfl
  | cons e m ih =>
    obtain ⟨i, w⟩ := e
    by_cases h : i = k
    · subst h; simpa [tbDel, List.filter_cons] using ih
    · simpa [tbDel, List.filter_cons, h, tbGet] using ih

/-- Every other key reads as before a removal. -/
theorem tbGet_tbDel_ne (m : List (Nat × α)) {k j : Nat} (h : j ≠ k) : tbGet (tbDel m k) j = tbGet m j := by
  induction m with
  | nil => rfl
  | cons e m ih =>
    obtain ⟨i, w⟩ := e
    by_cases h1 : i = k
    · subst h1; simpa [tbDel, List.filter_cons, tbGet, Ne.symm h] using ih
    · simp only [tbDel, List.filter_cons, bne_iff_ne, ne_eq, h1, not_false_iff, if_true, tbGet]
      simp only [tbDel] at ih
      rw [ih]

/-- What a key reads is an entry. -/
theorem mem_of_tbGet {m : List (Nat × α)} {k : Nat} {v : α} (h : tbGet m k = some v) : (k, v) ∈ m := by
  induction m with
  | nil => simp [tbGet] at h
  | cons e m ih =>
    obtain ⟨i, w⟩ := e
    by_cases h1 : i = k
    · subst h1; simp [tbGet] at h; subst h; simp
    · simp [tbGet, h1] at h; exact List.mem_cons_of_mem _ (ih h)

/-- Changing the entries keeps the keys. -/
theorem tbMod_keys (m : List (Nat × α)) (k : Nat) (f : α → α) : (tbMod m k f).map (·.1) = m.map (·.1) := by
  induction m with
  | nil => rfl
  | cons e m ih =>
    obtain ⟨i, w⟩ := e
    by_cases h : i = k <;> simp [tbMod, h, ih]

/-- An entry of a changed table is an old one, or the changed one. -/
theorem mem_tbMod {m : List (Nat × α)} {k : Nat} {f : α → α} {e : Nat × α} (h : e ∈ tbMod m k f) :
    e ∈ m ∨ ∃ w, (k, w) ∈ m ∧ e = (k, f w) := by
  induction m with
  | nil => simp [tbMod] at h
  | cons x m ih =>
    obtain ⟨i, w⟩ := x
    by_cases h1 : i = k
    · subst h1
      simp only [tbMod, if_true, List.mem_cons] at h
      rcases h with h | h
      · exact .inr ⟨w, by simp, h⟩
      · exact .inl (List.mem_cons_of_mem _ h)
    · simp only [tbMod, h1, if_false, List.mem_cons] at h
      rcases h with h | h
      · exact .inl (by simp [h])
      · rcases ih h with h | ⟨v, hv, he⟩
        · exact .inl (List.mem_cons_of_mem _ h)
        · exact .inr ⟨v, List.mem_cons_of_mem _ hv, he⟩

/-- An entry of a table after an entry is an old one, or the new one. -/
theorem mem_tbSet {m : List (Nat × α)} {k : Nat} {v : α} {e : Nat × α} (h : e ∈ tbSet m k v) : e ∈ m ∨ e = (k, v) := by
  induction m with
  | nil => simp [tbSet] at h; exact .inr h
  | cons x m ih =>
    obtain ⟨i, w⟩ := x
    simp only [tbSet] at h
    split at h
    · rcases List.mem_cons.1 h with h | h
      · exact .inr h
      · exact .inl h
    · split at h
      · rcases List.mem_cons.1 h with h | h
        · exact .inr h
        · exact .inl (List.mem_cons_of_mem _ h)
      · rcases List.mem_cons.1 h with h | h
        · exact .inl (by simp [h])
        · rcases ih h with h | h
          · exact .inl (List.mem_cons_of_mem _ h)
          · exact .inr h

/-- An entry of a table after a removal is an old one. -/
theorem mem_tbDel {m : List (Nat × α)} {k : Nat} {e : Nat × α} (h : e ∈ tbDel m k) : e ∈ m := List.mem_of_mem_filter h

/-! ### Maps with a default -/

/-- Every other key reads as before a write. -/
theorem smGet_smSet_ne [DecidableEq α] (d : α) (m : List (Nat × α)) {k j : Nat} (v : α) (h : j ≠ k) :
    smGet d (smSet d m k v) j = smGet d m j := by
  induction m with
  | nil => by_cases hv : v = d <;> simp [smSet, smGet, hv, Ne.symm h]
  | cons e m ih =>
    obtain ⟨i, w⟩ := e
    simp only [smSet]
    split
    · split
      · rfl
      · simp [smGet, Ne.symm h]
    · split
      · rename_i h1 h2
        subst h2
        split <;> simp [smGet, Ne.symm h]
      · simp [smGet, ih]

/-- The canonical form from a bound holds from a lower one. -/
theorem smWfFrom_mono [DecidableEq α] {d : α} {m : List (Nat × α)} {a b : Nat} (hab : a ≤ b)
    (h : smWfFrom d (some b) m = true) : smWfFrom d (some a) m = true := by
  cases m with
  | nil => rfl
  | cons e m =>
    obtain ⟨i, w⟩ := e
    simp only [smWfFrom, Bool.and_eq_true, decide_eq_true_eq] at h ⊢
    exact ⟨⟨by omega, h.1.2⟩, h.2⟩

/-- The canonical form from a bound is the canonical form. -/
theorem smWf_of_from [DecidableEq α] {d : α} {m : List (Nat × α)} {b : Option Nat} (h : smWfFrom d b m = true) :
    smWf d m = true := by
  cases m with
  | nil => rfl
  | cons e m =>
    obtain ⟨i, w⟩ := e
    cases b <;> simp_all [smWf, smWfFrom]

/-- Below the bound of a canonical map nothing is listed. -/
theorem smGet_below [DecidableEq α] {d : α} {m : List (Nat × α)} {b k : Nat} (h : smWfFrom d (some b) m = true)
    (hk : k ≤ b) : smGet d m k = d := by
  induction m generalizing b with
  | nil => rfl
  | cons e m ih =>
    obtain ⟨i, w⟩ := e
    simp only [smWfFrom, Bool.and_eq_true, decide_eq_true_eq] at h
    simp only [smGet]
    rw [if_neg (by omega)]
    exact ih h.2 (by omega)

/-- A write keeps the canonical form. -/
theorem smWfFrom_smSet [DecidableEq α] {d : α} {m : List (Nat × α)} {b : Option Nat} (k : Nat) (v : α)
    (h : smWfFrom d b m = true) (hb : ∀ x, b = some x → x < k) : smWfFrom d b (smSet d m k v) = true := by
  induction m generalizing b with
  | nil =>
    by_cases hv : v = d
    · simp [smSet, hv, smWfFrom]
    · cases b <;> simp_all [smSet, smWfFrom]
  | cons e m ih =>
    obtain ⟨i, w⟩ := e
    simp only [smSet]
    simp only [smWfFrom, Bool.and_eq_true] at h
    split
    · rename_i hk
      split
      · simp [smWfFrom, h]
      · rename_i hv
        simp only [smWfFrom, Bool.and_eq_true, decide_eq_true_eq]
        refine ⟨⟨?_, hv⟩, ⟨hk, by simpa using h.1.2⟩, h.2⟩
        cases b with
        | none => rfl
        | some x => simpa using hb x rfl
    · split
      · rename_i h1 h2
        subst h2
        split
        · cases m with
          | nil => rfl
          | cons e m =>
            obtain ⟨j, u⟩ := e
            have h3 := h.2
            simp only [smWfFrom, Bool.and_eq_true] at h3 ⊢
            refine ⟨⟨?_, h3.1.2⟩, h3.2⟩
            cases b with
            | none => rfl
            | some x =>
              have := hb x rfl
              have := h3.1.1
              simp only [decide_eq_true_eq] at this ⊢
              omega
        · rename_i hv
          simp only [smWfFrom, Bool.and_eq_true, decide_eq_true_eq]
          exact ⟨⟨h.1.1, hv⟩, h.2⟩
      · rename_i h1 h2
        simp only [smWfFrom, Bool.and_eq_true]
        exact ⟨h.1, ih h.2 (by rintro x ⟨⟩; omega)⟩

/-- A write keeps the canonical form. -/
theorem smWf_smSet [DecidableEq α] {d : α} {m : List (Nat × α)} (k : Nat) (v : α) (h : smWf d m = true) :
    smWf d (smSet d m k v) = true := smWfFrom_smSet k v h (by simp)

/-- In a canonical map the key written reads back. -/
theorem smGet_smSet_self [DecidableEq α] {d : α} {m : List (Nat × α)} (k : Nat) (v : α) (h : smWf d m = true) :
    smGet d (smSet d m k v) k = v := by
  induction m with
  | nil => by_cases hv : v = d <;> simp [smSet, smGet, hv]
  | cons e m ih =>
    obtain ⟨i, w⟩ := e
    simp only [smWf, smWfFrom, Bool.and_eq_true] at h
    simp only [smSet]
    split
    · rename_i hk
      split
      · rename_i hv
        simp only [smGet]
        rw [if_neg (by omega), smGet_below h.2 (by omega), hv]
      · simp [smGet]
    · split
      · rename_i h1 h2
        subst h2
        split
        · rename_i hv
          rw [smGet_below h.2 (Nat.le_refl _), hv]
        · simp [smGet]
      · rename_i h1 h2
        simp only [smGet]
        rw [if_neg (Ne.symm h2)]
        exact ih (smWf_of_from h.2)

/-- A read after a write, in a canonical map. -/
theorem smGet_smSet [DecidableEq α] {d : α} {m : List (Nat × α)} (k j : Nat) (v : α) (h : smWf d m = true) :
    smGet d (smSet d m k v) j = if j = k then v else smGet d m j := by
  split
  · rename_i hj; subst hj; exact smGet_smSet_self j v h
  · rename_i hj; exact smGet_smSet_ne d m v hj

/-- A filter keeps the canonical form. -/
theorem smWfFrom_filter [DecidableEq α] {d : α} {m : List (Nat × α)} {b : Option Nat} (p : Nat × α → Bool)
    (h : smWfFrom d b m = true) : smWfFrom d b (m.filter p) = true := by
  induction m generalizing b with
  | nil => rfl
  | cons e m ih =>
    obtain ⟨i, w⟩ := e
    simp only [smWfFrom, Bool.and_eq_true] at h
    simp only [List.filter_cons]
    split
    · simp only [smWfFrom, Bool.and_eq_true]; exact ⟨h.1, ih h.2⟩
    · refine ih ?_
      cases b with
      | none => exact smWf_of_from h.2
      | some x =>
        have := h.1.1
        simp only [decide_eq_true_eq] at this
        exact smWfFrom_mono (by omega) h.2

/-- A filter keeps the canonical form. -/
theorem smWf_filter [DecidableEq α] {d : α} {m : List (Nat × α)} (p : Nat × α → Bool) (h : smWf d m = true) :
    smWf d (m.filter p) = true := smWfFrom_filter p h

/-- Clearing a range keeps the canonical form. -/
theorem smWf_smClear [DecidableEq α] {d : α} {m : List (Nat × α)} (lo hi : Nat) (h : smWf d m = true) :
    smWf d (smClear m lo hi) = true := smWf_filter _ h

/-- A read of a map filtered by its keys. -/
theorem smGet_filter (d : α) (m : List (Nat × α)) (p : Nat → Bool) (k : Nat) :
    smGet d (m.filter fun e => p e.1) k = if p k then smGet d m k else d := by
  induction m with
  | nil => simp [smGet]
  | cons e m ih =>
    obtain ⟨i, w⟩ := e
    by_cases h : i = k
    · subst h
      by_cases hp : p i <;> simp [List.filter_cons, hp, smGet, ih]
    · by_cases hp : p i <;> simp [List.filter_cons, hp, smGet, ih, h]

/-- A read after a range is cleared. -/
theorem smGet_smClear (d : α) (m : List (Nat × α)) (lo hi k : Nat) :
    smGet d (smClear m lo hi) k = if lo ≤ k ∧ k < hi then d else smGet d m k := by
  rw [smClear, smGet_filter d m (fun x => decide (x < lo) || decide (hi ≤ x))]
  by_cases h : lo ≤ k ∧ k < hi
  · rw [if_neg (by simp; omega), if_pos h]
  · rw [if_pos (by simp; omega), if_neg h]

/-- Writing a list of pairs keeps the canonical form. -/
theorem smWf_smSetAll [DecidableEq α] {d : α} (ps : List (Nat × α)) {m : List (Nat × α)} (h : smWf d m = true) :
    smWf d (smSetAll d m ps) = true := by
  induction ps generalizing m with
  | nil => exact h
  | cons p ps ih => exact ih (smWf_smSet _ _ h)

/-! ### Stamps -/

/-- The larger of two stamps is at least each. -/
theorem maxW_toNat (a b : BitVec 64) : (maxW a b).toNat = max a.toNat b.toNat := by
  unfold maxW; split <;> omega

end Sys2Proof.Laws
end

