-- ==== Sys2Proof/Laws/Quiet.lean ====
section
/-! SUPPORT. What reading and writing memory, the logs and the error ring leave alone: `Quiet s s'` says that the teams, the allowance counters,
the clusters and the frame table are those of `s`, and that memory is in canonical form where it was. Each lemma adds one operation to a
chain of quiet operations. -/

namespace Sys2Proof.Laws

open Sys2Proof.Machine Sys2Proof.Safety

/-- What `s'` keeps of `s`. -/
structure Quiet (s s' : State) : Prop where
  teams : s'.teams = s.teams
  counters : s'.counters = s.counters
  clusters : s'.clusters = s.clusters
  tracked : s'.tracked = s.tracked
  cur : s'.cur = s.cur
  agenda : s'.agenda = s.agenda
  cycle : s'.cycle = s.cycle
  leesMode : s'.leesMode = s.leesMode
  wf : Memory.wf s.mem = true → Memory.wf s'.mem = true

namespace Quiet

variable {s0 s s' : State}

theorem refl (s : State) : Quiet s s := ⟨rfl, rfl, rfl, rfl, rfl, rfl, rfl, rfl, id⟩

theorem trans (h : Quiet s0 s) (g : Quiet s s') : Quiet s0 s' :=
  ⟨g.teams.trans h.teams, g.counters.trans h.counters, g.clusters.trans h.clusters, g.tracked.trans h.tracked, g.cur.trans h.cur,
    g.agenda.trans h.agenda, g.cycle.trans h.cycle, g.leesMode.trans h.leesMode, fun x => g.wf (h.wf x)⟩

/-- An update of other fields. -/
theorem upd (h : Quiet s0 s) (h1 : s'.teams = s.teams) (h2 : s'.counters = s.counters) (h3 : s'.clusters = s.clusters)
    (h4 : s'.tracked = s.tracked) (h5 : s'.cur = s.cur) (h6 : s'.agenda = s.agenda) (h7 : s'.cycle = s.cycle)
    (h8 : s'.leesMode = s.leesMode) (h9 : s'.mem = s.mem) : Quiet s0 s' :=
  h.trans ⟨h1, h2, h3, h4, h5, h6, h7, h8, fun x => h9 ▸ x⟩

theorem foldl {α : Type} {f : State → α → State} (l : List α) (h : Quiet s0 s)
    (hf : ∀ s x, Quiet s0 s → Quiet s0 (f s x)) : Quiet s0 (l.foldl f s) := by
  induction l generalizing s with
  | nil => exact h
  | cons a l ih => exact ih (hf _ _ h)

theorem foldl₂ {α β : Type} {f : State × β → α → State × β} (l : List α) {b : β} (h : Quiet s0 s)
    (hf : ∀ s b x, Quiet s0 s → Quiet s0 (f (s, b) x).1) : Quiet s0 (l.foldl f (s, b)).1 := by
  suffices ∀ p : State × β, Quiet s0 p.1 → Quiet s0 (l.foldl f p).1 from this (s, b) h
  induction l with
  | nil => exact fun p h => h
  | cons a l ih => exact fun p hp => ih (f p a) (hf p.1 p.2 a hp)

theorem ite₁ {c : Prop} [Decidable c] {a b : State} (ha : Quiet s0 a) (hb : Quiet s0 b) :
    Quiet s0 (if c then a else b) := by split <;> assumption

theorem ite₂ {β : Type} {c : Prop} [Decidable c] {a b : State × β} (ha : Quiet s0 a.1) (hb : Quiet s0 b.1) :
    Quiet s0 (if c then a else b).1 := by split <;> assumption

/-! ### Bytes -/

theorem memSet (k : Nat) (b : Byte) (h : Quiet s0 s) : Quiet s0 (memSet s k b) :=
  h.trans ⟨rfl, rfl, rfl, rfl, rfl, rfl, rfl, rfl, fun x => smWf_smSet k b x⟩

theorem memWrite (k : Nat) (bs : List Byte) (h : Quiet s0 s) : Quiet s0 (memWrite s k bs) := by
  induction bs generalizing s k with
  | nil => exact h
  | cons b bs ih => exact ih _ (h.memSet k b)

theorem tagWrite (k : Nat) (fl : W64) (n : Nat) (h : Quiet s0 s) : Quiet s0 (tagWrite s k fl n) := by
  induction n generalizing s k with
  | zero => exact h
  | succ n ih => exact ih _ (h.upd rfl rfl rfl rfl rfl rfl rfl rfl rfl)

theorem setPoison (sec : Nat) (b : Bool) (h : Quiet s0 s) : Quiet s0 (setPoison s sec b) :=
  h.upd rfl rfl rfl rfl rfl rfl rfl rfl rfl

theorem pushErr (r : ErrRec) (h : Quiet s0 s) : Quiet s0 (pushErr s r) := h.upd rfl rfl rfl rfl rfl rfl rfl rfl rfl

theorem setClock (a c : Nat) (h : Quiet s0 s) : Quiet s0 (setClock s a c) := by
  unfold Machine.setClock
  split <;> exact h.upd rfl rfl rfl rfl rfl rfl rfl rfl rfl

theorem pcAsk (home cls : Nat) (h : Quiet s0 s) : Quiet s0 (pcAsk s home cls) := h.upd rfl rfl rfl rfl rfl rfl rfl rfl rfl

theorem pcMiss (sec cls : Nat) (h : Quiet s0 s) : Quiet s0 (pcMiss s sec cls) := h.upd rfl rfl rfl rfl rfl rfl rfl rfl rfl

/-! ### The lees and the write index -/

theorem reclaimHead (n want fuel : Nat) (h : Quiet s0 s) : Quiet s0 (reclaimHead n want fuel s) := by
  induction fuel generalizing s with
  | zero => exact h
  | succ fuel ih =>
    simp only [Machine.reclaimHead]
    repeat' split
    all_goals first
      | exact h
      | exact ih (h.upd rfl rfl rfl rfl rfl rfl rfl rfl rfl)

theorem reclaimStep (n want : Nat) (h : Quiet s0 s) : Quiet s0 (reclaimStep s n want) := h.reclaimHead _ _ _

theorem releaseLaunchPin (h : Quiet s0 s) : Quiet s0 (releaseLaunchPin s) := by
  unfold Machine.releaseLaunchPin
  split
  · exact h.upd rfl rfl rfl rfl rfl rfl rfl rfl rfl
  · exact h

theorem releaseGenPin (h : Quiet s0 s) : Quiet s0 (releaseGenPin s) := by
  unfold Machine.releaseGenPin
  split
  · exact h.upd rfl rfl rfl rfl rfl rfl rfl rfl rfl
  · exact h

theorem reclaim (n want fuel : Nat) (h : Quiet s0 s) : Quiet s0 (reclaim n want fuel s) := by
  induction fuel generalizing s with
  | zero => exact h.reclaimStep _ _
  | succ fuel ih =>
    simp only [Machine.reclaim]
    have h1 := h.reclaimStep n want
    have h2 := h1.releaseLaunchPin.reclaimStep n want
    exact ite₁ h1 (ite₁ h2 (ih h2.releaseGenPin))

theorem writeSlots (n slot count : Nat) (h : Quiet s0 s) : Quiet s0 (writeSlots s n slot count) := by
  refine ite₁ h (foldl _ h fun s x hs => ?_)
  unfold Machine.writeSlot
  exact foldl _ (hs.upd rfl rfl rfl rfl rfl rfl rfl rfl rfl) fun _ _ hs => ite₁ hs (hs.setPoison _ _)

theorem appendLees (n : Nat) (r : Lees) (h : Quiet s0 s) : Quiet s0 (appendLees s n r) := by
  have h1 : Quiet s0 (if slotsUsed s n + slotsOf r ≤ slotsAll s then s
      else Machine.reclaim n (slotsOf r) ((livePins s).length + 1) s) := by
    split
    · exact h
    · exact h.reclaim _ _ _
  unfold Machine.appendLees
  generalize (if slotsUsed s n + slotsOf r ≤ slotsAll s then s
      else Machine.reclaim n (slotsOf r) ((livePins s).length + 1) s) = a at h1
  dsimp only
  have h2 := h1.writeSlots n (smGet 0 a.leesHead n + slotsUsed a n) (slotsOf r)
  split <;> exact h2.upd rfl rfl rfl rfl rfl rfl rfl rfl rfl

theorem noteIndex (n launch : Nat) (h : Quiet s0 s) : Quiet s0 (noteIndex s n launch) := by
  unfold Machine.noteIndex
  split
  · exact h.upd rfl rfl rfl rfl rfl rfl rfl rfl rfl
  · exact h.appendLees _ _

theorem indexSector (launch sec : Nat) (h : Quiet s0 s) : Quiet s0 (indexSector s launch sec) := by
  unfold Machine.indexSector
  repeat' split
  all_goals first
    | exact h
    | exact noteIndex _ _ (h.upd rfl rfl rfl rfl rfl rfl rfl rfl rfl)

theorem indexBlock (launch blk : Nat) (h : Quiet s0 s) : Quiet s0 (indexBlock s launch blk) := by
  unfold Machine.indexBlock
  repeat' split
  all_goals first
    | exact h
    | exact noteIndex _ _ (h.upd rfl rfl rfl rfl rfl rfl rfl rfl rfl)

/-! ### Writes at the home -/

theorem correctSector (sec finder : Nat) (h : Quiet s0 s) : Quiet s0 (correctSector s sec finder) := by
  unfold Machine.correctSector
  simp only
  repeat' split
  all_goals first
    | exact h
    | exact h.upd rfl rfl rfl rfl rfl rfl rfl rfl rfl

theorem stampAssign (k : Nat) (data : List Byte) (fl : W64) (tag launch : Nat) (po : Bool) (h : Quiet s0 s) :
    Quiet s0 (stampAssign s k data fl tag launch po).1 := by
  unfold Machine.stampAssign
  dsimp only
  refine ite₂ h ?_
  apply indexSector
  have hc := (h.correctSector (sectorOf k) 3).setClock (homeOf s k) (max (clockOf s (homeOf s k)) (logical fl) + 1)
  generalize Machine.setClock (Machine.correctSector s (sectorOf k) 3) (homeOf s k)
    (max (clockOf s (homeOf s k)) (logical fl) + 1) = a at hc
  have hl : ∀ r, Quiet s0 (if leesOn a = true then Machine.appendLees (Machine.pcAsk a (homeOf s k) 4) (stackOf k) r else
      { a with horizon := maxW a.horizon (mkStamp (max (clockOf s (homeOf s k)) (logical fl) + 1) (homeOf s k)) }) :=
    fun r => ite₁ ((hc.pcAsk _ _).appendLees _ _) (hc.upd rfl rfl rfl rfl rfl rfl rfl rfl rfl)
  have hw : ∀ b x y, Quiet s0 b →
      Quiet s0 (Machine.tagWrite (Machine.memWrite { b with sectors := x, flips := y } k data) k fl data.length) :=
    fun b x y hb => tagWrite _ _ _ (memWrite _ _ (hb.upd rfl rfl rfl rfl rfl rfl rfl rfl rfl))
  exact ite₁ (setPoison _ _ (hw _ _ _ (hl _))) (ite₁ (setPoison _ _ (hw _ _ _ (hl _))) (hw _ _ _ (hl _)))

theorem writeBack (sec : Nat) (h : Quiet s0 s) : Quiet s0 (writeBack s sec) :=
  ite₁ (h.upd rfl rfl rfl rfl rfl rfl rfl rfl rfl) h

theorem llcEvict (h : Quiet s0 s) : Quiet s0 (llcEvict s) := ite₁ h (h.writeBack _)

theorem addDirty (sec : Nat) (h : Quiet s0 s) : Quiet s0 (addDirty s sec) :=
  ite₁ h (h.llcEvict.upd rfl rfl rfl rfl rfl rfl rfl rfl rfl)

theorem uncache (sec : Nat) (h : Quiet s0 s) : Quiet s0 (uncache s sec) :=
  (h.writeBack _).upd rfl rfl rfl rfl rfl rfl rfl rfl rfl

theorem settleBlock (blk : Nat) (h : Quiet s0 s) : Quiet s0 (settleBlock s blk) :=
  foldl _ (foldl _ h fun _ _ hs => hs.writeBack _) fun _ _ hs => hs.correctSector _ _

theorem beforeUntracked (k tag launch : Nat) (h : Quiet s0 s) : Quiet s0 (beforeUntracked s k tag launch) := by
  unfold Machine.beforeUntracked
  dsimp only
  apply indexBlock
  have h1 : ∀ a, Quiet s0 a → Quiet s0 { a with blocks := smSet 0 a.blocks (k / 4096) a.boundary,
                                                lees := smSet [] a.lees (stackOf k) (markMixed (k / 4096) tag (leesOf a (stackOf k))) } :=
    fun a ha => ha.upd rfl rfl rfl rfl rfl rfl rfl rfl rfl
  apply h1
  split
  · exact h
  · exact ite₁ (((h.settleBlock _).pcAsk _ _).appendLees _ _) h

theorem modOps (f : Tab Op) (h : Quiet s0 s) : Quiet s0 { s with ops := f } := h.upd rfl rfl rfl rfl rfl rfl rfl rfl rfl
theorem modOp (o : Nat) (f : Op → Op) (h : Quiet s0 s) : Quiet s0 (modOp s o f) := h.upd rfl rfl rfl rfl rfl rfl rfl rfl rfl
theorem modCmd (o : Nat) (f : Cmd → Cmd) (h : Quiet s0 s) : Quiet s0 (modCmd s o f) := h.upd rfl rfl rfl rfl rfl rfl rfl rfl rfl
theorem modCrew (o : Nat) (f : Crew → Crew) (h : Quiet s0 s) : Quiet s0 (modCrew s o f) := h.upd rfl rfl rfl rfl rfl rfl rfl rfl rfl
theorem modCtx (o : Nat) (f : Context → Context) (h : Quiet s0 s) : Quiet s0 (modCtx s o f) :=
  h.upd rfl rfl rfl rfl rfl rfl rfl rfl rfl
theorem modCore (o : Nat) (f : Core → Core) (h : Quiet s0 s) : Quiet s0 (modCore s o f) :=
  h.upd rfl rfl rfl rfl rfl rfl rfl rfl rfl
theorem modLaunch (o : Nat) (f : Launch → Launch) (h : Quiet s0 s) : Quiet s0 (modLaunch s o f) :=
  h.upd rfl rfl rfl rfl rfl rfl rfl rfl rfl
theorem modQueue (o : Nat) (f : Queue → Queue) (h : Quiet s0 s) : Quiet s0 (modQueue s o f) :=
  h.upd rfl rfl rfl rfl rfl rfl rfl rfl rfl
theorem modErr (f : ErrRing → ErrRing) (h : Quiet s0 s) : Quiet s0 (modErr s f) := h.upd rfl rfl rfl rfl rfl rfl rfl rfl rfl
theorem modHost (f : HostLink → HostLink) (h : Quiet s0 s) : Quiet s0 (modHost s f) := h.upd rfl rfl rfl rfl rfl rfl rfl rfl rfl
theorem modStack (n : Nat) (f : Stack → Stack) (h : Quiet s0 s) : Quiet s0 (s.modStack n f) :=
  h.upd rfl rfl rfl rfl rfl rfl rfl rfl rfl

/-! ### Correction, stash sectors, homes, reduction groups -/

theorem touchCxl (sec : Nat) (d : Bool) (h : Quiet s0 s) : Quiet s0 (touchCxl s sec d) := by
  unfold Machine.touchCxl
  split
  · exact h.upd rfl rfl rfl rfl rfl rfl rfl rfl rfl
  · exact h.llcEvict.upd rfl rfl rfl rfl rfl rfl rfl rfl rfl

theorem backInvalidate (sec : Nat) (h : Quiet s0 s) : Quiet s0 (backInvalidate s sec) := h.upd rfl rfl rfl rfl rfl rfl rfl rfl rfl

theorem setChunkDirty (a b c d : Nat) (x : Bool) (h : Quiet s0 s) : Quiet s0 (setChunkDirty s a b c d x) := h.modCrew _ _

theorem copyTags (src dst n : Nat) (h : Quiet s0 s) : Quiet s0 (copyTags s src dst n) := by
  induction n generalizing s src dst with
  | zero => exact h
  | succ n ih => exact ih _ _ (h.upd rfl rfl rfl rfl rfl rfl rfl rfl rfl)

theorem putUntracked (k : Nat) (data : List Byte) (fl : W64) (tag launch : Nat) (h : Quiet s0 s) :
    Quiet s0 (putUntracked s k data fl tag launch) := by
  unfold Machine.putUntracked
  dsimp only
  have h1 := ite₁ (c := isHbm k = true) (h.beforeUntracked k tag launch) h
  generalize (if isHbm k = true then Machine.beforeUntracked s k tag launch else s) = a at h1
  have h2 := tagWrite k fl data.length
    (memWrite k data (s := { a with flips := smClear a.flips k (k + data.length) }) (h1.upd rfl rfl rfl rfl rfl rfl rfl rfl rfl))
  generalize Machine.tagWrite (Machine.memWrite { a with flips := smClear a.flips k (k + data.length) } k data) k fl
    data.length = b at h2
  have h3 := ite₁ (c := data.length = 64) (h2.setPoison (sectorOf k) false) h2
  generalize (if data.length = 64 then Machine.setPoison b (sectorOf k) false else b) = c at h3
  exact ite₁ (h3.addDirty _) (ite₁ (h3.touchCxl _ _) h3)

theorem forwardStash (sec : Nat) (h : Quiet s0 s) : Quiet s0 (forwardStash s sec) :=
  foldl _ h fun _ _ hs => ((hs.memWrite _ _).copyTags _ _ _).setPoison _ _

theorem keepQueued (sec : Nat) (h : Quiet s0 s) : Quiet s0 (keepQueued s sec) :=
  foldl _ h fun _ w hs => by
    cases w.chunk
    · exact hs
    · exact ite₁ ((hs.memWrite _ _).tagWrite _ _ _) hs

theorem writeChunkBack (sec key launch tag : Nat) (unc : Bool) (h : Quiet s0 s) :
    Quiet s0 (writeChunkBack s sec key launch tag unc) := by
  unfold Machine.writeChunkBack
  dsimp only
  have h1 := (h.putUntracked (sec * 64) (memRead s key 64) 0 tag launch).copyTags key (sec * 64) 64
  have h2 := forwardStash sec (ite₁ (c := poisoned s (sectorOf key) = true) (h1.setPoison sec true) h1)
  exact ite₁ (h2.uncache _) h2

theorem markShared (sec : Nat) (h : Quiet s0 s) : Quiet s0 (markShared s sec) := h.upd rfl rfl rfl rfl rfl rfl rfl rfl rfl

theorem noteReader (x : Holder) (sec : Nat) (h : Quiet s0 s) : Quiet s0 (noteReader x s sec) :=
  h.upd rfl rfl rfl rfl rfl rfl rfl rfl rfl

theorem noteOwned (sec : Nat) (h : Quiet s0 s) : Quiet s0 (noteOwned s sec) := h.upd rfl rfl rfl rfl rfl rfl rfl rfl rfl

theorem recallOne (sec : Nat) (pc : W64) (p : Nat × Nat × Nat × Nat × Nat) (h : Quiet s0 s) :
    Quiet s0 (recallOne sec pc s p) := by
  unfold Machine.recallOne
  dsimp only
  have h1 := h.setChunkDirty p.1 p.2.1 p.2.2.1 p.2.2.2.1 false
  exact ite₁ (ite₁ (h1.writeChunkBack _ _ _ _ _) (h1.upd rfl rfl rfl rfl rfl rfl rfl rfl rfl)) h

theorem recallStash (sec : Nat) (h : Quiet s0 s) : Quiet s0 (recallStash s sec) :=
  foldl _ h fun _ _ hs => hs.recallOne _ _ _

theorem failCmd (id : Nat) (e : Option (Nat × LogEntry)) (h : Quiet s0 s) : Quiet s0 (failCmd s id e) := by
  unfold Machine.failCmd
  split
  · exact h.modCmd _ _
  · exact h

theorem stampL1 (w : HomeWrite) (r : Option W64) (h : Quiet s0 s) : Quiet s0 (stampL1 s w r) := by
  unfold Machine.stampL1
  split
  · exact h
  · exact h.modCore _ _

theorem raiseLater (o : Nat) (x : W64) (h : Quiet s0 s) : Quiet s0 (raiseLater s o x) := by
  unfold Machine.raiseLater
  split
  · exact h
  · exact h.upd rfl rfl rfl rfl rfl rfl rfl rfl rfl

theorem returnOp (w : HomeWrite) (r : Option W64) (h : Quiet s0 s) : Quiet s0 (returnOp s w r) := by
  unfold Machine.returnOp
  split
  · exact (h.raiseLater _ _).modOp _ _
  · exact ite₁ (h.failCmd _ _) h
  · exact ite₁ (h.upd rfl rfl rfl rfl rfl rfl rfl rfl rfl) h

theorem returnOthers (w : HomeWrite) (fl : W64) (h : Quiet s0 s) : Quiet s0 (returnOthers s w fl) := by
  unfold Machine.returnOthers
  cases w.cmd <;> cases w.port
  · exact h
  · exact h.upd rfl rfl rfl rfl rfl rfl rfl rfl rfl
  · exact h.modCmd _ _
  · rename_i c _
    exact (h.modCmd c fun c => { c with homes := c.homes.filter (· != w.id), bound := maxW c.bound fl }).upd rfl rfl rfl rfl rfl rfl
      rfl rfl rfl

theorem returnStamp (w : HomeWrite) (r : Option W64) (h : Quiet s0 s) : Quiet s0 (returnStamp s w r) :=
  ((h.stampL1 _ _).returnOp _ _).returnOthers _ _

theorem noteSc (w : HomeWrite) (x : W64) (h : Quiet s0 s) : Quiet s0 (noteSc s w x) := h.upd rfl rfl rfl rfl rfl rfl rfl rfl rfl

theorem putThrough (w : HomeWrite) (h : Quiet s0 s) : Quiet s0 (putThrough s w) :=
  (((h.backInvalidate _).putUntracked _ _ _ _ _).forwardStash _).uncache _

theorem homeStep (home : Nat) (h : Quiet s0 s) : Quiet s0 (homeStep s home) := by
  unfold Machine.homeStep
  split
  · exact h
  · rename_i w rest _
    have h1 : Quiet s0 { s with homeq := rest } := h.upd rfl rfl rfl rfl rfl rfl rfl rfl rfl
    dsimp only
    have h2 := (h1.backInvalidate (sectorOf w.key)).stampAssign w.key w.data (homeFloor { s with homeq := rest } w) w.tag w.launch w.poison
    exact ite₁ (ite₁ ((h1.putThrough _).returnStamp _ _) (h1.returnStamp _ _))
      (ite₁ (((ite₁ ((h2.forwardStash _).keepQueued _) h2).noteSc _ _).returnStamp _ _) (h1.returnStamp _ _))

theorem drainWrites (p : HomeWrite → Bool) (fuel : Nat) (h : Quiet s0 s) : Quiet s0 (drainWrites p fuel s) := by
  induction fuel generalizing s with
  | zero => exact h
  | succ fuel ih =>
    simp only [Machine.drainWrites]
    split
    · exact ih (h.homeStep _)
    · exact h

theorem drainSector (sec : Nat) (h : Quiet s0 s) : Quiet s0 (drainSector s sec) := h.drainWrites _ _

theorem drainHome (k : Nat) (h : Quiet s0 s) : Quiet s0 (drainHome s k) := h.drainWrites _ _

theorem sense (sec finder : Nat) (h : Quiet s0 s) : Quiet s0 (sense s sec finder) := by
  unfold Machine.sense
  refine ite₁ (correctSector _ _ ?_) h
  split
  · exact h.pcMiss _ _
  · exact h

theorem combinePart (ty : Ty) (op : AOp) (fl : W64) (k : Nat) (p : Partial) (h : Quiet s0 s) :
    Quiet s0 (combinePart ty op fl k s p) :=
  foldl _ h fun _ _ hs => (hs.memWrite _ _).tagWrite _ _ _

theorem combineGroup (sec : Nat) (h : Quiet s0 s) : Quiet s0 (combineGroup s sec) := by
  unfold Machine.combineGroup
  split
  · exact h
  · rename_i g _
    have h1 := Quiet.sense sec 0 (s := { s with groups := tbDel s.groups sec }) (h.upd rfl rfl rfl rfl rfl rfl rfl rfl rfl)
    dsimp only
    generalize Machine.sense { s with groups := tbDel s.groups sec } sec 0 = a at h1
    refine ite₁ (forwardStash _ ?_) (h1.upd rfl rfl rfl rfl rfl rfl rfl rfl rfl)
    have h2 : ∀ b : Bool, Quiet s0 (g.parts.foldl (Machine.combinePart g.ty g.op g.floor (sec * 64)) (g.members.foldl
        (fun s m => if b = true then Machine.beforeUntracked s (sec * 64) m.2.2 m.2.1 else s) a)) := fun b =>
      foldl _ (foldl _ h1 fun _ _ hs => ite₁ (hs.beforeUntracked _ _ _) hs) fun _ _ hs => hs.combinePart _ _ _ _ _
    exact ite₁ ((h2 _).addDirty _) ((h2 _).touchCxl _ _)

theorem settle (sec finder : Nat) (h : Quiet s0 s) : Quiet s0 (settle s sec finder) :=
  markShared _ (backInvalidate _ (recallStash _ (combineGroup _ (ite₁ ((h.sense _ _).drainSector _) (h.sense _ _)))))

theorem settleChunk (a b c : Nat) (h : Quiet s0 s) : Quiet s0 (settleChunk s a b c) := by
  unfold Machine.settleChunk
  dsimp only
  have h1 := combineGroup c (ite₁ (c := (isHbm (c * 64) || isCxl (c * 64)) = true) (h.drainSector c) h)
  generalize Machine.combineGroup (if (isHbm (c * 64) || isCxl (c * 64)) = true then Machine.drainSector s c else s) c = a at h1
  have h2 : ∀ l, Quiet s0 (List.foldl (Machine.recallOne c 0) a l) := fun l => foldl l h1 fun _ _ hs => hs.recallOne _ _ _
  exact ite₁ (h2 _) ((h2 _).markShared _)

/-! ### Coherent access -/

theorem readSector (k n finder : Nat) (h : Quiet s0 s) : Quiet s0 (readSector s k n finder).1 := by
  unfold Machine.readSector
  dsimp only
  have h1 := h.settle (sectorOf k) finder
  have h2 := ite₁ (c := (isCxl k && reachable (Machine.settle s (sectorOf k) finder) k) = true) (h1.touchCxl (sectorOf k) false) h1
  exact ite₂ h2 h2

theorem queueWrite (home k : Nat) (data : List Byte) (w : Writer) (po : Bool) (h : Quiet s0 s) :
    Quiet s0 (queueWrite s home k data w po) := by
  unfold Machine.queueWrite
  simp only
  repeat' split
  all_goals exact h.upd rfl rfl rfl rfl rfl rfl rfl rfl rfl

theorem queueHome (k : Nat) (data : List Byte) (w : Writer) (po : Bool) (h : Quiet s0 s) : Quiet s0 (queueHome s k data w po) :=
  (h.pcAsk _ _).queueWrite _ _ _ _ _

theorem failWrite (w : Writer) (h : Quiet s0 s) : Quiet s0 (failWrite s w) := by
  unfold Machine.failWrite
  split
  · exact h.modOp _ _
  · exact h.failCmd _ _
  · exact h.upd rfl rfl rfl rfl rfl rfl rfl rfl rfl

theorem writeSector (k : Nat) (data : List Byte) (tr : Bool) (w : Writer) (h : Quiet s0 s) :
    Quiet s0 (writeSector s k data tr w) :=
  have h1 := h.settle (sectorOf k) 0
  ite₁ (h1.queueHome _ _ _ _) (ite₁ ((h1.putUntracked _ _ _ _ _).forwardStash _) (h1.failWrite _))

theorem writeUnc (k : Nat) (data : List Byte) (tr : Bool) (w : Writer) (h : Quiet s0 s) : Quiet s0 (writeUnc s k data tr w) :=
  ite₁ ((h.settle _ _).queueWrite _ _ _ _ _) ((h.writeSector _ _ _ _).uncache _)

/-- A write through a page that may be uncached at the LLC. -/
theorem putBy {c : Prop} [Decidable c] (k : Nat) (data : List Byte) (tr : Bool) (w : Writer) (h : Quiet s0 s) :
    Quiet s0 ((if c then Machine.writeUnc else Machine.writeSector) s k data tr w) := by
  split
  · exact h.writeUnc _ _ _ _
  · exact h.writeSector _ _ _ _

theorem drainPa (pa n : Nat) (h : Quiet s0 s) : Quiet s0 (drainPa s pa n) := by
  unfold Machine.drainPa
  refine foldl _ h fun s x hs => ?_
  dsimp only
  split
  · exact ite₁ (hs.drainHome _) hs
  · exact hs

theorem writePa (pa : Nat) (data : List Byte) (w : Writer) (h : Quiet s0 s) : Quiet s0 (writePa s pa data w) := by
  unfold Machine.writePa
  refine foldl _ h fun s x hs => ?_
  dsimp only
  split
  · exact hs.writeSector _ _ _ _
  · exact hs

theorem readPa (pa n finder : Nat) (h : Quiet s0 s) : Quiet s0 (readPa s pa n finder).1 := by
  unfold Machine.readPa
  refine foldl₂ _ h fun s b x hs => ?_
  dsimp only
  split
  · have h1 := hs.readSector (by assumption) x.2 finder
    split <;> simp_all
  · exact hs

end Quiet

end Sys2Proof.Laws
end

