-- ==== Sys2Proof/Laws/QuietAccess.lean ====
section
/-! SUPPORT. The chain of Laws/Quiet.lean for translation, the logs and the error ring, the accesses of a team, the engines' accesses, and the
home of an allowance counter. -/

namespace Sys2Proof.Laws

open Sys2Proof.Machine

namespace Quiet

variable {s0 s s' : State}

/-- The state of a pair. -/
theorem fst {β : Type} {p : State × β} {b : β} (h : Quiet s0 p.1) (e : p = (s', b)) : Quiet s0 s' := by subst e; exact h

/-! ### Translation -/

theorem walkFrom (va stop l table : Nat) (h : Quiet s0 s) : Quiet s0 (walkFrom va stop l table s).1 := by
  induction l generalizing s table with
  | zero =>
    unfold Machine.walkFrom
    dsimp only
    split
    · exact fst (h.readPa _ _ _) (by assumption)
    · have h1 := fst (h.readPa _ _ _) (by assumption)
      repeat' split
      all_goals exact h1
  | succ l ih =>
    unfold Machine.walkFrom
    dsimp only
    split
    · exact fst (h.readPa _ _ _) (by assumption)
    · have h1 := fst (h.readPa _ _ _) (by assumption)
      repeat' split
      all_goals first
        | exact h1
        | exact ih _ h1

theorem walk (ctx va stop : Nat) (h : Quiet s0 s) : Quiet s0 (walk s ctx va stop).1 := h.walkFrom _ _ _ _

theorem ctuFill (hub : Nat) (e : Ctu) (h : Quiet s0 s) : Quiet s0 (ctuFill s hub e) := h.upd rfl rfl rfl rfl rfl rfl rfl rfl rfl

theorem shootDown (p : Ctu → Bool) (h : Quiet s0 s) : Quiet s0 (shootDown s p) := h.upd rfl rfl rfl rfl rfl rfl rfl rfl rfl

theorem noteXl (x : W64) (t : Nat) (h : Quiet s0 s) : Quiet s0 (noteXl s x t) := h.upd rfl rfl rfl rfl rfl rfl rfl rfl rfl

theorem translate (ctx hub va : Nat) (w : Bool) (h : Quiet s0 s) : Quiet s0 (translate s ctx hub va w).1 := by
  unfold Machine.translate
  dsimp only
  split
  · split
    · exact h
    · exact h.noteXl _ _
  · split
    · exact h.noteXl _ _
    · split
      all_goals have h1 := fst (h.walk _ _ _) (by assumption)
      all_goals first
        | exact h1
        | (split
           · exact h1
           · exact (h1.noteXl _ _).ctuFill _ _)

/-! ### The logs and the error ring -/

theorem signal (v : Nat) (h : Quiet s0 s) : Quiet s0 (signal s v) := h.upd rfl rfl rfl rfl rfl rfl rfl rfl rfl

theorem logPa (ctx va n : Nat) (h : Quiet s0 s) : Quiet s0 (logPa s ctx va n).1 := by
  unfold Machine.logPa
  split
  · split <;> exact fst (h.translate _ _ _ _) (by assumption)
  · exact h

theorem devicePut (pa : Nat) (data : List Byte) (h : Quiet s0 s) (e : devicePut s pa data = some s') : Quiet s0 s' := by
  unfold Machine.devicePut at e
  dsimp only at e
  split at e
  · exact Option.some.inj e ▸ (h.drainPa _ _).writePa _ _ _
  · cases e

theorem eachSector {f : State → Nat → State} (pa n : Nat) (h : Quiet s0 s) (hf : ∀ s x, Quiet s0 s → Quiet s0 (f s x)) :
    Quiet s0 (eachSector f s pa n) := by
  refine foldl _ h fun s x hs => ?_
  dsimp only
  split
  · exact hf _ _ hs
  · exact hs

theorem uncachePa (pa : Nat × Bool) (n : Nat) (h : Quiet s0 s) : Quiet s0 (uncachePa s pa n) :=
  ite₁ (h.eachSector _ _ fun _ _ hs => hs.uncache _) h

theorem logPut (pa : Nat × Bool) (data : List Byte) (h : Quiet s0 s) (e : logPut s pa data = some s') : Quiet s0 s' := by
  obtain ⟨s1, h1, rfl⟩ := Option.map_eq_some_iff.mp e
  exact ((h.devicePut _ _ h1).eachSector _ _ fun _ _ hs => hs.drainSector _).uncachePa _ _

theorem logPutD (pa : Nat × Bool) (data : List Byte) (h : Quiet s0 s) : Quiet s0 ((Machine.logPut s pa data).getD s) := by
  cases e : Machine.logPut s pa data with
  | none => exact h
  | some s' => exact h.logPut _ _ e

theorem appendLog (ctx : Nat) (e : LogEntry) (h : Quiet s0 s) : Quiet s0 (appendLog s ctx e) := by
  unfold Machine.appendLog
  dsimp only
  have h1 := h.modCtx ctx fun c => { c with armed := true }
  split
  · exact h1
  · split
    · exact h1
    · split
      · exact fst (h1.logPa _ _ _) (by assumption)
      · have h2 := fst (h1.logPa _ _ _) (by assumption)
        split
        · exact fst (h2.readPa _ _ _) (by assumption)
        · have h3 := (fst (h2.readPa _ _ _) (by assumption)).uncachePa (by assumption) 16
          split
          · exact h3.logPutD _ _
          · split
            · exact fst (h3.logPa _ _ _) (by assumption)
            · have h4 := fst (h3.logPa _ _ _) (by assumption)
              split
              · exact h4
              · exact (h4.logPut _ _ (by assumption)).logPutD _ _

theorem appendLogs (l : List (Nat × LogEntry)) (h : Quiet s0 s) : Quiet s0 (appendLogs s l) :=
  foldl _ h fun _ _ hs => hs.appendLog _ _

theorem dropRec (h : Quiet s0 s) : Quiet s0 (dropRec s) := h.modErr _

theorem writeRec (r : ErrRec) (h : Quiet s0 s) : Quiet s0 (writeRec s r) := by
  unfold Machine.writeRec
  have h1 := ite₁ (c := r.cls = 0x0A) (h.signal 1) h
  generalize (if r.cls = 0x0A then Machine.signal s 1 else s) = a at h1
  dsimp only
  refine ite₁ h1 (ite₁ h1.dropRec (ite₁ h1 (ite₁ (h1.dropRec.modErr _) ?_)))
  split
  · exact h1.dropRec
  · have h2 := h1.devicePut _ _ (by assumption)
    exact ite₁ ((h2.modErr _).signal _) (h2.modErr _)

theorem flushRecs (fuel : Nat) (h : Quiet s0 s) : Quiet s0 (flushRecs fuel s) := by
  induction fuel generalizing s with
  | zero => exact h
  | succ fuel ih =>
    unfold Machine.flushRecs
    split
    · exact h
    · exact ih (foldl _ (h.upd rfl rfl rfl rfl rfl rfl rfl rfl rfl) fun _ _ hs => hs.writeRec _)

/-- The end of a step writes logs and records only. -/
theorem finish (h : Quiet s0 s) : Quiet s0 (finish s) := by
  unfold Machine.finish
  dsimp only
  have h1 : Quiet s0 (match s.logq with
      | [] => s
      | q => Machine.appendLogs { s with logq := [] } q) := by
    split
    · exact h
    · exact appendLogs _ (h.upd rfl rfl rfl rfl rfl rfl rfl rfl rfl)
  split
  · exact h1
  · exact h1.flushRecs _

/-! ### Accesses of a team -/

theorem fetchWord (t : Team) (va : W64) (h : Quiet s0 s) : Quiet s0 (fetchWord s t va).1 := by
  unfold Machine.fetchWord
  dsimp only
  split
  · exact h
  · split
    · exact h
    · split
      · exact fst (h.translate _ _ _ _) (by assumption)
      · have h1 := fst (h.translate _ _ _ _) (by assumption)
        split
        · exact fst (h1.readSector _ _ _) (by assumption)
        · exact fst (h1.readSector _ _ _) (by assumption)

theorem chunkSectors (key n : Nat) (h : Quiet s0 s) : Quiet s0 (chunkSectors s key n).1 := by
  induction n generalizing s key with
  | zero => exact h
  | succ n ih =>
    unfold Machine.chunkSectors
    split
    · exact fst (h.readSector _ _ _) (by assumption)
    · have h1 := fst (h.readSector _ _ _) (by assumption)
      split <;> exact fst (ih _ h1) (by assumption)

theorem putChunk (a b c : Nat) (ch : Chunk) (h : Quiet s0 s) : Quiet s0 (putChunk s a b c ch) := h.modCrew _ _

theorem fillChunk (cid : Nat) (w : Window) (i : Nat) (x : Xl) (h : Quiet s0 s) : Quiet s0 (fillChunk s cid w i x).1 := by
  unfold Machine.fillChunk
  split
  · exact fst (h.chunkSectors _ _) (by assumption)
  · have h1 := ((fst (h.chunkSectors _ _) (by assumption)).memWrite (partKey cid (w.off + 512 * i)) (by assumption)).copyTags x.key
      (partKey cid (w.off + 512 * i)) 512
    exact putChunk _ _ _ _ (foldl _ (ite₁ (foldl _ h1 fun _ _ hs => hs.uncache _) h1) fun _ _ hs => hs.noteReader _ _)

theorem chunkXl (ctx hub : Nat) (w : Window) (i : Nat) (wr : Bool) (h : Quiet s0 s) :
    Quiet s0 (chunkXl s ctx hub w i wr).1 := by
  unfold Machine.chunkXl
  split <;> exact fst (h.translate _ _ _ _) (by assumption)

theorem checkPiece (t : Team) (tid : Nat) (acc : Acc) (l : Nat) (lane : W64) (a n : Nat) (loc : Loc) (h : Quiet s0 s) :
    Quiet s0 (checkPiece s t tid acc l lane a n loc).1 := by
  unfold Machine.checkPiece
  split
  · dsimp only
    refine ite₂ h ?_
    split
    · exact ite₂ h (ite₂ h h)
    · split
      · exact ite₂ h (ite₂ h (ite₂ h h))
      · split
        · exact fst (h.chunkXl _ _ _ _ _) (by assumption)
        · have h1 := fst (h.chunkXl _ _ _ _ _) (by assumption)
          exact ite₂ h1 (ite₂ h1 h1)
  · exact ite₂ h h
  · split <;> exact h
  · split
    · exact fst (h.translate _ _ _ _) (by assumption)
    · have h1 := fst (h.translate _ _ _ _) (by assumption)
      split <;> exact h1

theorem checkLane (t : Team) (tid : Nat) (acc : Acc) (l : Nat) (a : W64) (n : Nat) (h : Quiet s0 s) :
    Quiet s0 (checkLane s t tid acc l a n).1 := by
  unfold Machine.checkLane
  split
  · exact h
  · refine ite₂ h (ite₂ h ?_)
    refine foldl₂ _ h fun s b x hs => ?_
    dsimp only
    split
    · exact hs
    · split
      · exact hs
      · split <;> exact fst (hs.checkPiece _ _ _ _ _ _ _ _) (by assumption)

theorem checkLanes (t : Team) (tid : Nat) (acc : Acc) (n : Nat) (ls : List (Nat × W64)) (h : Quiet s0 s) :
    Quiet s0 (checkLanes s t tid acc n ls).1 := by
  induction ls generalizing s with
  | nil => exact h
  | cons x ls ih => exact ih (h.checkLane _ _ _ _ _ _)

theorem fillPieces (ps : List Piece) (h : Quiet s0 s) : Quiet s0 (fillPieces s ps).1 := by
  induction ps generalizing s with
  | nil => exact h
  | cons p ps ih =>
    unfold Machine.fillPieces
    split
    · split
      · split
        · exact ih h
        · split
          · exact fst (h.fillChunk _ _ _ _) (by assumption)
          · exact ih (fst (h.fillChunk _ _ _ _) (by assumption))
      · exact ih h
    · exact ih h

theorem l1Put (core ctx sec : Nat) (c : Option L1Copy) (h : Quiet s0 s) : Quiet s0 (l1Put s core ctx sec c) := by
  unfold Machine.l1Put
  split
  · exact h
  · exact h.modCore _ _

theorem settleOwn (core ctx sec : Nat) (h : Quiet s0 s) : Quiet s0 (settleOwn s core ctx sec) := h.drainWrites _ _

theorem readGlobal (core ctx va key pa n cache : Nat) (acq : Bool) (h : Quiet s0 s) :
    Quiet s0 (readGlobal s core ctx va key pa n cache acq).1 := by
  unfold Machine.readGlobal
  dsimp only
  have h1 := ite₁ (c := (acq || cache != 0 || (l1Find s core ctx (va / 64)).isNone) = true) h
    (h.settleOwn core ctx (key / 64))
  generalize (if (acq || cache != 0 || (l1Find s core ctx (va / 64)).isNone) = true then s
    else Machine.settleOwn s core ctx (key / 64)) = a at h1
  split
  · exact h1
  · split
    · exact fst (h1.readSector _ _ _) (by assumption)
    · have h2 := fst (h1.readSector _ _ _) (by assumption)
      exact l1Put _ _ _ _ (ite₁ (h2.uncache _) h2)

theorem settlePart (cid off n : Nat) (h : Quiet s0 s) : Quiet s0 (settlePart s cid off n) := by
  unfold Machine.settlePart
  refine foldl _ h fun s x hs => ?_
  repeat' split
  all_goals first
    | exact hs
    | exact hs.settleChunk _ _ _

theorem arriveFill (f : Nat × Nat × Nat) (h : Quiet s0 s) : Quiet s0 (arriveFill s f) := ite₁ h (h.modOps _)

theorem arrivePart (cid off n : Nat) (h : Quiet s0 s) : Quiet s0 (arrivePart s cid off n) := by
  unfold Machine.arrivePart
  refine foldl _ h fun s x hs => ?_
  split
  · exact hs.arriveFill _
  · exact hs

theorem readStk (key n : Nat) (h : Quiet s0 s) : Quiet s0 (readStk s key n).1 := by
  unfold Machine.readStk
  dsimp only
  have h1 := foldl (spans key n (n / 64 + 2))
    (f := fun s x => Machine.correctSector (Machine.pcMiss s (sectorOf x.1) (curClass s)) (sectorOf x.1) 0) h
    fun _ _ hs => (hs.pcMiss _ _).correctSector _ _
  exact ite₂ h (ite₂ h1 h1)

theorem readPiece (t : Team) (p : Piece) (acq : Bool) (h : Quiet s0 s) : Quiet s0 (readPiece s t p acq).1 := by
  unfold Machine.readPiece
  split
  · exact ite₂ (h.settlePart _ _ _) (h.settlePart _ _ _)
  · split <;> exact fst (h.readStk _ _) (by assumption)
  · exact h
  · dsimp only
    refine foldl₂ _ h fun s b x hs => ?_
    dsimp only
    split
    · exact hs
    · split <;> exact fst (hs.readGlobal _ _ _ _ _ _ _ _) (by assumption)

theorem readLane (t : Team) (acq page : Bool) (a : W64) (ps : List Piece) (h : Quiet s0 s) :
    Quiet s0 (readLane s t acq page a ps).1 := by
  unfold Machine.readLane
  split
  · exact fst (h.fillPieces _) (by assumption)
  · refine foldl₂ _ (fst (h.fillPieces _) (by assumption)) fun s b x hs => ?_
    dsimp only
    split
    · exact hs
    · split <;> exact fst (hs.readPiece _ _ _) (by assumption)

theorem putPart (cid off : Nat) (data : List Byte) (w : Writer) (h : Quiet s0 s) : Quiet s0 (putPart s cid off data w) :=
  (h.memWrite _ _).tagWrite _ _ _

theorem writeChunk (cid off : Nat) (data : List Byte) (w : Writer) (win : Window) (i : Nat) (ch : Chunk) (h : Quiet s0 s) :
    Quiet s0 (writeChunk s cid off data w win i ch) := by
  unfold Machine.writeChunk
  dsimp only
  have hb := h.backInvalidate (ch.keys.getD ((off - win.off) % 512 / 64) 0)
  refine ite₁ ((hb.putPart _ _ _ _).queueHome _ _ _ _) ?_
  have h1 := hb.settleChunk cid win.off (ch.keys.getD ((off - win.off) % 512 / 64) 0)
  have h2 := (((h1.recallStash (ch.keys.getD ((off - win.off) % 512 / 64) 0)).putPart cid off data w).putUntracked
    (ch.keys.getD ((off - win.off) % 512 / 64) 0 * 64 + off % 64) data w.floor w.tag w.launch).forwardStash
    (ch.keys.getD ((off - win.off) % 512 / 64) 0)
  exact ite₁ (ite₁ (h2.uncache _) h2)
    (((h1.putPart _ _ _ _).noteOwned _).setChunkDirty _ _ _ _ _)

theorem writePart (cid off : Nat) (data : List Byte) (w : Writer) (h : Quiet s0 s) : Quiet s0 (writePart s cid off data w) := by
  unfold Machine.writePart
  repeat' split
  all_goals first
    | exact h.putPart _ _ _ _
    | exact h.writeChunk _ _ _ _ _ _ _

theorem writeStk (key : Nat) (data : List Byte) (w : Writer) (h : Quiet s0 s) : Quiet s0 (writeStk s key data w) := by
  unfold Machine.writeStk
  have h1 : Quiet s0 { Machine.memWrite (Machine.pcAsk s (homeOf s key) (curClass s)) key data with
      flips := smClear s.flips key (key + data.length) } :=
    ((h.pcAsk _ _).memWrite key data).upd rfl rfl rfl rfl rfl rfl rfl rfl rfl
  exact ite₁ (ite₁ (h1.setPoison _ _) h1) (h.failWrite _)

theorem storeL1 (t : Team) (p : Piece) (va : Nat) (data : List Byte) (tr : Bool) (fl : W64) (h : Quiet s0 s) :
    Quiet s0 (storeL1 s t p va data tr fl) := by
  unfold Machine.storeL1
  split
  · exact h
  · exact ite₁ (h.l1Put _ _ _ _) h

theorem writePiece (t : Team) (p : Piece) (data : List Byte) (w : Writer) (h : Quiet s0 s) :
    Quiet s0 (writePiece s t p data w) := by
  unfold Machine.writePiece
  split
  · exact h.writePart _ _ _ _
  · exact h.writeStk _ _ _
  · exact (h.memWrite _ _).tagWrite _ _ _
  · exact (h.putBy _ _ _ _).storeL1 _ _ _ _ _ _

theorem ownSector (p : Piece) (core : Nat) (h : Quiet s0 s) : Quiet s0 (ownSector s p core) := by
  unfold Machine.ownSector
  split
  · exact ite₁ (h.upd rfl rfl rfl rfl rfl rfl rfl rfl rfl) h
  · exact h

theorem rmw (t : Team) (p : Piece) (f : Nat → Option Nat) (w : Writer) (h : Quiet s0 s) : Quiet s0 (rmw s t p f w).1 := by
  unfold Machine.rmw
  split
  · exact fst (h.readPiece _ _ _) (by assumption)
  · have h1 := fst (h.readPiece _ _ _) (by assumption)
    dsimp only
    split
    · exact h1
    · split
      · split
        · exact h1.writePiece _ _ _ _
        · exact ite₂ (((h1.drainHome _).writePiece _ _ _ _).drainSector _) ((h1.drainHome _).putPart _ _ _ _)
      · have h2 := ite₁ (c := (match p.xl with | some x => x.tracked | none => false) = true) (h1.drainHome p.key) h1
        exact ite₂ h2 (ownSector _ _ (ite₁ ((h2.writePiece _ _ _ _).settle _ _) (h2.writePiece _ _ _ _)))

theorem cleanChunks (cid : Nat) (pc : W64) (p : Window → Nat → Bool) (h : Quiet s0 s) : Quiet s0 (cleanChunks s cid pc p) := by
  unfold Machine.cleanChunks
  split
  · exact h
  · refine foldl _ h fun s w hs => foldl _ hs fun s x hs => ?_
    dsimp only
    split
    · exact foldl _ hs fun _ _ hs => hs.recallOne _ _ _
    · exact hs

theorem dropWindows (cid : Nat) (d : Bool) (pc : W64) (p : Window → Bool) (h : Quiet s0 s) :
    Quiet s0 (dropWindows s cid d pc p) := by
  unfold Machine.dropWindows
  dsimp only
  split
  · exact h.modCrew _ _
  · exact (h.cleanChunks _ _ _).modCrew _ _

theorem drainAll (h : Quiet s0 s) : Quiet s0 (drainAll s) := h.drainWrites _ _

theorem dropL1 (core ctx : Nat) (h : Quiet s0 s) : Quiet s0 (dropL1 s core ctx) := h.modCore _ _

/-! ### The engines' accesses -/

theorem engineFill (ctx hub cid stop fuel off : Nat) (h : Quiet s0 s) : Quiet s0 (engineFill ctx hub cid stop fuel off s).1 := by
  induction fuel generalizing s off with
  | zero => exact h
  | succ fuel ih =>
    unfold Machine.engineFill
    split
    · exact h
    · split
      · exact ih _ h
      · split
        · exact ih _ h
        · split
          · exact fst (h.chunkXl _ _ _ _ _) (by assumption)
          · have h1 := fst (h.chunkXl _ _ _ _ _) (by assumption)
            split
            · exact fst (h1.fillChunk _ _ _ _) (by assumption)
            · exact ih _ (fst (h1.fillChunk _ _ _ _) (by assumption))

theorem engineRead (ctx hub cid off n : Nat) (h : Quiet s0 s) : Quiet s0 (engineRead s ctx hub cid off n).1 := by
  unfold Machine.engineRead
  split
  · exact fst (h.engineFill _ _ _ _ _ _) (by assumption)
  · have h1 := ((fst (h.engineFill _ _ _ _ _ _) (by assumption)).arrivePart cid off n).settlePart cid off n
    dsimp only
    split <;> exact h1

theorem enginePutPart (id : Nat) (c : Cmd) (va cid off : Nat) (data : List Byte) (h : Quiet s0 s) :
    Quiet s0 (enginePutPart s id c va cid off data).1 := by
  unfold Machine.enginePutPart
  split
  · exact h
  · split
    · exact fst (h.engineFill _ _ _ _ _ _) (by assumption)
    · have h1 := fst (h.engineFill _ _ _ _ _ _) (by assumption)
      split
      · exact h1
      · exact (h1.arrivePart _ _ _).writePart _ _ _ _

theorem dropPhys (core ctx sec : Nat) (h : Quiet s0 s) : Quiet s0 (dropPhys s core ctx sec) := ite₁ (h.modCore _ _) h

theorem enginePutKey (id : Nat) (c : Cmd) (va : W64) (key : Nat) (tr unc : Bool) (data : List Byte) (h : Quiet s0 s) :
    Quiet s0 (enginePutKey s id c va key tr unc data).1 := by
  unfold Machine.enginePutKey
  split
  · exact h
  · split
    · exact h
    · exact (h.putBy _ _ _ _).dropPhys _ _ _

theorem enginePut (id : Nat) (c : Cmd) (va : Nat) (data : List Byte) (h : Quiet s0 s) :
    Quiet s0 (enginePut s id c va data).1 := by
  unfold Machine.enginePut
  dsimp only
  split
  · split
    · exact h.enginePutPart _ _ _ _ _ _
    · exact h
  · split
    · exact h
    · split
      · exact fst (h.translate _ _ _ _) (by assumption)
      · exact (fst (h.translate _ _ _ _) (by assumption)).enginePutKey _ _ _ _ _ _ _

theorem enginePutAll (id : Nat) (c : Cmd) (va : Nat) (data : List Byte) (h : Quiet s0 s) :
    Quiet s0 (enginePutAll s id c va data).1 := by
  unfold Machine.enginePutAll
  refine foldl₂ _ h fun s b x hs => ?_
  dsimp only
  split <;> exact fst (hs.enginePut _ _ _ _) (by assumption)

/-! ### Allowance counters at their home -/

theorem writeDesc (key : Nat) (live : Bool) (c : Counter) (h : Quiet s0 s) : Quiet s0 (writeDesc s key live c) := by
  unfold Machine.writeDesc
  split
  · split
    · have h1 := ((h.settle (sectorOf key) 0).putUntracked key (descBytes live c) c.floor 0 0).forwardStash (sectorOf key)
      exact ite₁ (h1.uncache _) h1
    · exact h
  · exact h.memWrite _ _

end Quiet

end Sys2Proof.Laws
end

