-- ==== Sys2Proof/Laws/Allow.lean ====
section
/-! SUPPORT. The value of an allowance counter under the changes its home and its cores make. -/

namespace Sys2Proof.Laws

open Sys2Proof.Machine Sys2Proof.Safety

theorem shareSum_nil (c : Counter) (h : c.shares = []) : shareSum c = 0 := by simp [shareSum, h]

/-- The sum of a table's shares. -/
theorem foldl_shares (m : Tab (Nat × W64)) (n : Nat) :
    m.foldl (fun n e => n + e.2.1) n = n + m.foldl (fun n e => n + e.2.1) 0 := by
  induction m generalizing n with
  | nil => rfl
  | cons e m ih => simp only [List.foldl_cons]; rw [ih, ih (0 + e.2.1)]; omega

theorem sum_cons (e : Nat × Nat × W64) (m : Tab (Nat × W64)) :
    (e :: m).foldl (fun n e => n + e.2.1) 0 = e.2.1 + m.foldl (fun n e => n + e.2.1) 0 := by
  rw [List.foldl_cons, foldl_shares]; omega

theorem tbGet_none_of_lt {α : Type} {m : List (Nat × α)} {k : Nat} (h : ∀ e ∈ m, k < e.1) : tbGet m k = none := by
  induction m with
  | nil => rfl
  | cons p m ih =>
    obtain ⟨j, w⟩ := p
    have : j ≠ k := Nat.ne_of_gt (h (j, w) (by simp))
    simp only [tbGet, this, if_false]
    exact ih fun e he => h e (by simp [he])

theorem tbDel_of_not_mem {α : Type} {m : List (Nat × α)} {k : Nat} (h : ∀ e ∈ m, e.1 ≠ k) : tbDel m k = m := by
  unfold tbDel
  rw [List.filter_eq_self]
  intro e he; simpa using h e he

/-- Putting a share: the sum changes by the difference to the old one. -/
theorem sum_tbSet {m : Tab (Nat × W64)} (k : Nat) (v : Nat × W64) (h : (m.map (·.1)).Pairwise (· < ·)) :
    (tbSet m k v).foldl (fun n e => n + e.2.1) 0 + (match tbGet m k with | some x => x.1 | none => 0) =
      m.foldl (fun n e => n + e.2.1) 0 + v.1 := by
  induction m with
  | nil => simp [tbSet, tbGet]
  | cons p m ih =>
    obtain ⟨j, w⟩ := p
    rw [List.map_cons, List.pairwise_cons] at h
    obtain ⟨h1, h2⟩ := h
    have hlt : ∀ e ∈ m, j < e.1 := fun e he => h1 e.1 (List.mem_map_of_mem he)
    simp only [tbSet]
    split
    · rename_i hk
      have : tbGet ((j, w) :: m) k = none := tbGet_none_of_lt fun e he => by
        rcases List.mem_cons.mp he with rfl | he
        · exact hk
        · exact Nat.lt_trans hk (hlt e he)
      rw [this, sum_cons (k, v)]; simp only; omega
    · split
      · rename_i hk; subst hk
        simp only [tbGet, if_true, sum_cons]; omega
      · rename_i hne
        have : j ≠ k := fun e => hne e.symm
        simp only [tbGet, this, if_false, sum_cons]
        have := ih h2
        omega

/-- Removing a share. -/
theorem sum_tbDel {m : Tab (Nat × W64)} {k : Nat} {x : Nat × W64} (h : (m.map (·.1)).Pairwise (· < ·))
    (hk : tbGet m k = some x) :
    (tbDel m k).foldl (fun n e => n + e.2.1) 0 + x.1 = m.foldl (fun n e => n + e.2.1) 0 := by
  induction m with
  | nil => cases hk
  | cons p m ih =>
    obtain ⟨j, w⟩ := p
    rw [List.map_cons, List.pairwise_cons] at h
    obtain ⟨h1, h2⟩ := h
    have hlt : ∀ e ∈ m, j < e.1 := fun e he => h1 e.1 (List.mem_map_of_mem he)
    simp only [tbGet] at hk
    split at hk
    · rename_i hj; subst hj
      have : tbDel ((j, w) :: m) j = m := by
        simp only [tbDel, List.filter_cons, bne_self_eq_false, Bool.false_eq_true, if_false]
        exact tbDel_of_not_mem fun e he => Nat.ne_of_gt (hlt e he)
      rw [this, sum_cons, ← Option.some.inj hk]; simp only; omega
    · rename_i hj
      have : tbDel ((j, w) :: m) k = (j, w) :: tbDel m k := by
        simp only [tbDel, List.filter_cons]
        rw [if_pos]; simpa using hj
      rw [this, sum_cons, sum_cons]
      have := ih h2 hk
      omega

theorem writeDesc_counters (s : State) (key : Nat) (live : Bool) (c : Counter) : (writeDesc s key live c).counters = s.counters :=
  ((Quiet.refl s).writeDesc key live c).counters

/-- A recall gathers the value in the reserve and leaves every other counter. -/
theorem recallShares_get {s : State} {key : Nat} {c : Counter} (h : tbGet s.counters key = some c) :
    ∃ fl, tbGet (recallShares s key).counters key = some { c with reserve := counterValue c, shares := [], floor := fl } := by
  refine ⟨c.shares.foldl (fun m e => maxW m e.2.2) c.floor, ?_⟩
  unfold recallShares
  simp only [h, writeDesc_counters, tbGet_tbSet_self]

theorem recallShares_teams (s : State) (key : Nat) : (recallShares s key).teams = s.teams := by
  unfold recallShares
  split
  · rfl
  · exact ((Quiet.refl _).writeDesc _ _ _).teams

theorem recallShares_wf {s : State} {key : Nat} (h : Memory.wf s.mem = true) : Memory.wf (recallShares s key).mem = true := by
  unfold recallShares
  split
  · exact h
  · exact ((Quiet.refl _).writeDesc _ _ _).wf h

theorem modCounter_get {s : State} {key : Nat} {c : Counter} (f : Counter → Counter) (h : tbGet s.counters key = some c) :
    tbGet (modCounter s key f).counters key = some (f c) := by
  simp [modCounter, h]

end Sys2Proof.Laws
end

