-- ==== Sys2Proof/Laws/Arith.lean ====
section
/-! SUPPORT. The integer arithmetic of Machine/Arith.lean, which works on numbers, is that of bit vectors of the same width. -/

namespace Sys2Proof.Laws

open Sys2Proof.Machine Sys2Proof.Spec

/-- Half and half. -/
theorem two_pow_split {w} (hw : 0 < w) : 2 ^ w = 2 * 2 ^ (w - 1) := by
  obtain ⟨n, rfl⟩ : ∃ n, w = n + 1 := ⟨w - 1, by omega⟩
  simp [Nat.pow_succ]; omega

/-- A signed reading. -/
theorem toSigned_eq {w} (hw : 0 < w) (x : BitVec w) : toSigned w x.toNat = x.toInt := by
  unfold toSigned
  rw [Nat.mod_eq_of_lt x.isLt, BitVec.toInt_eq_toNat_cond]
  have h2 := two_pow_split hw
  have := x.isLt
  split <;> split <;> first | rfl | (push_cast; rfl) | omega

/-- A value of a pattern. -/
theorem toVal_eq {w} (hw : 0 < w) (sg : Bool) (x : BitVec w) : toVal sg w x.toNat = valOf sg x := by
  cases sg
  · simp only [toVal, valOf]; rw [Nat.mod_eq_of_lt x.isLt]; rfl
  · simpa [toVal, valOf] using toSigned_eq hw x

/-- An integer as a pattern. -/
theorem ofInt_eq (w : Nat) (v : Int) : ofInt w v = (BitVec.ofInt w v).toNat := by
  simp [ofInt, BitVec.toNat_ofInt]

/-- Addition. -/
theorem addW_eq {w} (x y : BitVec w) : addW w x.toNat y.toNat = (x + y).toNat := by simp [addW, BitVec.toNat_add]

/-- Subtraction. -/
theorem subW_eq {w} (x y : BitVec w) : subW w x.toNat y.toNat = (x - y).toNat := by
  have := y.isLt
  have := x.isLt
  simp only [subW, BitVec.toNat_sub, Nat.mod_eq_of_lt y.isLt]; congr 1; omega

/-- Multiplication. -/
theorem mulW_eq {w} (x y : BitVec w) : mulW w x.toNat y.toNat = (x * y).toNat := by simp [mulW, BitVec.toNat_mul]

/-- The high half of a product. -/
theorem mulHigh_eq {w} (hw : 0 < w) (sg : Bool) (x y : BitVec w) :
    mulHigh sg w x.toNat y.toNat = (mulHi sg x y).toNat := by
  simp only [mulHigh, toVal_eq hw, ofInt_eq, mulHi]
  cases sg
  · simp only [valOf, Bool.false_eq_true, if_false]
    congr 1
  · simp only [valOf, if_true]

/-- Division. -/
theorem divW_eq {w} (hw : 0 < w) (sg : Bool) (x y : BitVec w) :
    divW sg w x.toNat y.toNat = (quot sg x y).toNat := by
  simp only [divW, quot, toVal_eq hw, ofInt_eq, Nat.mod_eq_of_lt y.isLt]
  by_cases h : y = 0
  · subst h; simp
  · have : y.toNat ≠ 0 := fun h' => h (BitVec.eq_of_toNat_eq (by simpa using h'))
    simp only [this, if_false, h]
    cases sg
    · simp only [valOf, Bool.false_eq_true, if_false, BitVec.toNat_ofInt]
      rw [← Int.ofNat_tdiv]
      simp [BitVec.toNat_udiv]
      norm_cast
      apply Nat.mod_eq_of_lt
      exact Nat.lt_of_le_of_lt (Nat.div_le_self _ _) x.isLt
    · simp only [valOf, if_true]
      congr 1
      apply BitVec.eq_of_toInt_eq
      simp [BitVec.toInt_sdiv]

/-- Remainder. -/
theorem remW_eq {w} (hw : 0 < w) (sg : Bool) (x y : BitVec w) :
    remW sg w x.toNat y.toNat = (remd sg x y).toNat := by
  simp only [remW, remd, toVal_eq hw, ofInt_eq, Nat.mod_eq_of_lt y.isLt, Nat.mod_eq_of_lt x.isLt]
  by_cases h : y = 0
  · subst h; simp
  · have : y.toNat ≠ 0 := fun h' => h (BitVec.eq_of_toNat_eq (by simpa using h'))
    simp only [this, if_false, h]
    cases sg
    · simp only [valOf, Bool.false_eq_true, if_false, BitVec.toNat_ofInt]
      rw [← Int.ofNat_tmod]
      simp [BitVec.toNat_umod]
      norm_cast
      apply Nat.mod_eq_of_lt
      exact Nat.lt_of_le_of_lt (Nat.mod_le _ _) x.isLt
    · simp only [valOf, if_true]
      congr 1
      apply BitVec.eq_of_toInt_eq
      rw [BitVec.toInt_srem, BitVec.toInt_ofInt]
      have h1 := BitVec.toInt_lt (x := BitVec.srem x y)
      have h2 := BitVec.le_toInt (x := BitVec.srem x y)
      rw [BitVec.toInt_srem] at h1 h2
      have hs := two_pow_split hw
      have : (2:Int)^w = 2 * 2^(w-1) := by exact_mod_cast hs
      rw [Int.bmod_eq_of_le] <;> push_cast <;> omega

/-- Shift left. -/
theorem shlW_eq {w} (x y : BitVec w) : shlW w x.toNat y.toNat = (x <<< (y.toNat % w)).toNat := by
  simp [shlW, BitVec.toNat_shiftLeft, Nat.shiftLeft_eq]

/-- Shift right. -/
theorem shrW_eq {w} (hw : 0 < w) (sg : Bool) (x y : BitVec w) : shrW sg w x.toNat y.toNat = (shr sg x y).toNat := by
  simp only [shrW, shr, toVal_eq hw, ofInt_eq]
  cases sg
  · simp only [valOf, Bool.false_eq_true, if_false, BitVec.toNat_ofInt, BitVec.toNat_ushiftRight, Nat.shiftRight_eq_div_pow]
    norm_cast
    apply Nat.mod_eq_of_lt
    exact Nat.lt_of_le_of_lt (Nat.div_le_self _ _) x.isLt
  · simp only [valOf, if_true]
    congr 1
    apply BitVec.eq_of_toInt_eq
    rw [BitVec.toInt_sshiftRight, BitVec.toInt_ofInt, Int.shiftRight_eq_div_pow]
    have h1 := BitVec.toInt_lt (x := x.sshiftRight (y.toNat % w))
    have h2 := BitVec.le_toInt (x := x.sshiftRight (y.toNat % w))
    rw [BitVec.toInt_sshiftRight, Int.shiftRight_eq_div_pow] at h1 h2
    have hs := two_pow_split hw
    have : (2:Int)^w = 2 * 2^(w-1) := by exact_mod_cast hs
    rw [Int.bmod_eq_of_le]
    all_goals push_cast at *
    all_goals first | rfl | omega

/-- The order. -/
theorem less_eq {w} (hw : 0 < w) (sg : Bool) (x y : BitVec w) : less sg x y = decide (valOf sg x < valOf sg y) := by
  cases sg
  · simp [less, valOf, BitVec.ult]
  · simp [less, valOf, BitVec.slt]

/-- Minimum. -/
theorem minW_eq {w} (hw : 0 < w) (sg : Bool) (x y : BitVec w) :
    minW sg w x.toNat y.toNat = (if less sg y x then y else x).toNat := by
  simp only [minW, toVal_eq hw, less_eq hw, decide_eq_true_eq, Nat.mod_eq_of_lt x.isLt, Nat.mod_eq_of_lt y.isLt]
  split <;> rfl

/-- Maximum. -/
theorem maxWd_eq {w} (hw : 0 < w) (sg : Bool) (x y : BitVec w) :
    maxWd sg w x.toNat y.toNat = (if less sg x y then y else x).toNat := by
  simp only [maxWd, toVal_eq hw, less_eq hw, decide_eq_true_eq, Nat.mod_eq_of_lt x.isLt, Nat.mod_eq_of_lt y.isLt]
  split <;> rfl

/-- The relations. -/
theorem relW_eq {w} (hw : 0 < w) (r : Rel) (sg : Bool) (x y : BitVec w) :
    relW r sg w x.toNat y.toNat = holds r sg x y := by
  have hinj : valOf sg x = valOf sg y ↔ x = y := by
    constructor
    · cases sg
      · intro h; apply BitVec.eq_of_toNat_eq; simpa [valOf] using h
      · intro h; exact BitVec.eq_of_toInt_eq (by simpa [valOf] using h)
    · rintro rfl; rfl
  simp only [relW, toVal_eq hw, holds, less_eq hw]
  cases r <;> simp only [Fp.relInt] 
  · by_cases h : x = y <;> simp [h, hinj, beq_iff_eq] 
  all_goals try (by_cases h : x = y <;> simp [h, hinj]; done)
  all_goals first
    | rfl
    | (rw [← decide_not]; simp)

end Sys2Proof.Laws
end

