-- ==== Sys2Proof/Laws/Issue.lean ====
section
/-! SUPPORT. What issuing an instruction is once its checks pass: the premise CanIssue turns exec into one action, and each action into
one of the outcomes the statements name. -/

namespace Sys2Proof.Laws

open Sys2Proof.Machine Sys2Proof.Spec

/-- Where its checks pass, an instruction does what its body says. -/
theorem issue_go {s : State} {tid : Nat} {t : Team} {i : Instr} (h : CanIssue s tid t i)
    (body : Team → Team → Nat → State → Act) :
    issue i s body = .next (applyAct s tid (wordsOf i) t (body (viewOf s tid t) t tid s)) := by
  obtain ⟨h1, h2, h3, h4, h5, h6⟩ := h
  have hf : firstCheck s tid t i = none := by
    simp only [firstCheck, h2]
    cases hp : t.priv <;> cases hr : roleOk i t.role <;> cases hm : needsMx i <;> cases hq : privileged i <;> simp_all
  simp [issue, h1, issueAct, hf, h6]

section

variable {s s1 : State} {tid : Nat} {t : Team} {i : Instr} {body : Team → Team → Nat → State → Act}

/-- A body that goes on completes. -/
theorem go_of (h : CanIssue s tid t i) (hb : body (viewOf s tid t) t tid s = .go s1) :
    issue i s body = .next (finish (advance s1 tid (wordsOf i))) := by rw [issue_go h, hb]; rfl

/-- A body that jumps to an aligned address jumps. -/
theorem jump_of {a : W64} (h : CanIssue s tid t i) (hb : body (viewOf s tid t) t tid s = .jump s1 a)
    (ha : a.toNat % 8 = 0) : issue i s body = .next (finish (transfer s1 tid a)) := by
  rw [issue_go h, hb]; simp only [applyAct, ha, if_true]

/-- A body that jumps to an address that is not aligned faults. -/
theorem badJump_of {a : W64} (h : CanIssue s tid t i) (hb : body (viewOf s tid t) t tid s = .jump s1 a)
    (ha : a.toNat % 8 ≠ 0) : issue i s body = .next (finish (boundary
      (enterHandler s tid { fltTeam t .misaligned with words := wordsOf i } t.pc false) tid)) := by
  rw [issue_go h, hb]; simp only [applyAct, ha, if_false]

/-- A body that has placed the team. -/
theorem placed_of (h : CanIssue s tid t i) (hb : body (viewOf s tid t) t tid s = .placed s1) :
    issue i s body = .next (finish (boundary s1 tid)) := by rw [issue_go h, hb]; rfl

/-- A body that faults. -/
theorem fault_of {f : Flt} (h : CanIssue s tid t i) (hb : body (viewOf s tid t) t tid s = .fault s1 f) :
    issue i s body = .next (finish (boundary (enterHandler s1 tid { f with words := wordsOf i } t.pc false) tid)) := by
  rw [issue_go h, hb]; rfl

/-- A body that holds the team. -/
theorem hold_of {op : Nat} (h : CanIssue s tid t i) (hb : body (viewOf s tid t) t tid s = .hold s1 op) :
    issue i s body = .next (finish (modTeam (advance s1 tid (wordsOf i)) tid fun t => { t with wait := .hold op })) := by
  rw [issue_go h, hb]; rfl

/-- A body that blocks the team. -/
theorem wait_of {w : Wait} (h : CanIssue s tid t i) (hb : body (viewOf s tid t) t tid s = .wait s1 w) :
    issue i s body = .next (finish (modTeam (acquireXl s1 tid) tid fun t => { t with wait := w })) := by
  rw [issue_go h, hb]; rfl

end

/-- Where a first check fails, the instruction takes that fault. -/
theorem issue_fails {s : State} {tid : Nat} {t : Team} {i : Instr} {c : FCode} (hc : s.curTeam = some (tid, t))
    (hf : firstCheck s tid t i = some c) (body : Team → Team → Nat → State → Act) :
    issue i s body = .next (applyAct s tid (wordsOf i) t (.fault s (fltTeam t c))) := by
  simp [issue, hc, issueAct, hf]

/-- What a team's acquire from the entries it translated through leaves: all but its floor, its core's L1 lines and the notes of the translation. -/
theorem acquireXl_frame (s : State) (tid : Nat) : ∃ cs, acquireXl s tid =
    modTeam { s with cores := cs, xlFloor := 0, xlSince := 0 } tid fun t => raiseFloor t s.xlFloor := by
  unfold acquireXl dropOlder
  repeat' split
  all_goals exact ⟨_, rfl⟩

@[simp] theorem acquireXl_mem (s : State) (tid : Nat) : (acquireXl s tid).mem = s.mem := by
  obtain ⟨_, h⟩ := acquireXl_frame s tid; rw [h]; rfl

/-- After every step no team is current and no floor of a translation is pending. -/
theorem afterStep_ends (s : State) : (afterStep s).cur = none ∧ (afterStep s).xlFloor = 0 := ⟨rfl, rfl⟩

end Sys2Proof.Laws
end

