-- ==== Sys2Proof/Laws/Memory.lean ====
section
/-! SUPPORT. Memory: reading what was written, and that every memory operation keeps the canonical form. -/

namespace Sys2Proof.Laws

open Sys2Proof.Machine

theorem memSet_wf {s : State} (k : Nat) (b : Byte) (h : Memory.wf s.mem = true) : Memory.wf (memSet s k b).mem = true :=
  smWf_smSet k b h

theorem memWrite_wf {s : State} (k : Nat) (bs : List Byte) (h : Memory.wf s.mem = true) :
    Memory.wf (memWrite s k bs).mem = true := by
  induction bs generalizing s k with
  | nil => exact h
  | cons b bs ih => exact ih _ (memSet_wf k b h)

theorem smClear_wf {m : List Host.Cell} (lo hi : Nat) (h : Memory.wf m = true) : Memory.wf (smClear m lo hi) = true :=
  smWf_smClear lo hi h

theorem reset_wf : Memory.wf State.reset.mem = true := rfl

theorem memGet_memSet {s : State} (k a : Nat) (b : Byte) (h : Memory.wf s.mem = true) :
    memGet (memSet s k b) a = if a = k then b else memGet s a := smGet_smSet k a b h

/-- A byte after a write: a written one, or what it was. -/
theorem memGet_memWrite {s : State} (k a : Nat) (bs : List Byte) (h : Memory.wf s.mem = true) :
    memGet (memWrite s k bs) a = if k ≤ a ∧ a < k + bs.length then bs.getD (a - k) 0 else memGet s a := by
  induction bs generalizing s k with
  | nil =>
    have : ¬(k ≤ a ∧ a < k + ([] : List Byte).length) := by simp only [List.length_nil]; omega
    rw [if_neg this]; rfl
  | cons b bs ih =>
    rw [show memWrite s k (b :: bs) = memWrite (memSet s k b) (k + 1) bs from rfl, ih _ (memSet_wf k b h),
      memGet_memSet k a b h]
    simp only [List.length_cons]
    by_cases h1 : k + 1 ≤ a ∧ a < k + 1 + bs.length
    · rw [if_pos h1, if_pos (by omega)]
      have : a - k = (a - (k + 1)) + 1 := by omega
      rw [this, List.getD_cons_succ]
    · rw [if_neg h1]
      by_cases h2 : a = k
      · subst h2
        rw [if_pos rfl, if_pos (by omega)]; simp
      · rw [if_neg h2, if_neg (by omega)]

/-- A byte outside a write is as it was. -/
theorem memGet_memWrite_ne {s : State} (k a : Nat) (bs : List Byte) (h : a < k ∨ k + bs.length ≤ a) :
    memGet (memWrite s k bs) a = memGet s a := by
  induction bs generalizing s k with
  | nil => rfl
  | cons b bs ih =>
    simp only [List.length_cons] at h
    rw [show memWrite s k (b :: bs) = memWrite (memSet s k b) (k + 1) bs from rfl, ih _ (by omega)]
    exact smGet_smSet_ne 0 s.mem b (by omega)

@[simp] theorem memRead_length (s : State) (k n : Nat) : (memRead s k n).length = n := by
  induction n generalizing k with
  | zero => rfl
  | succ n ih => simp [memRead, ih]

theorem memRead_congr {s s' : State} (h : s'.mem = s.mem) (k n : Nat) : memRead s' k n = memRead s k n := by
  induction n generalizing k with
  | zero => rfl
  | succ n ih => simp [memRead, ih, memGet, h]

theorem memRead_ext {s s' : State} {k n : Nat} (h : ∀ a, k ≤ a → a < k + n → memGet s' a = memGet s a) :
    memRead s' k n = memRead s k n := by
  induction n generalizing k with
  | zero => rfl
  | succ n ih =>
    simp only [memRead]
    rw [h k (Nat.le_refl _) (by omega), ih fun a h1 h2 => h a (by omega) (by omega)]

/-- Reading back what was written. -/
theorem memRead_memWrite {s : State} (k : Nat) (bs : List Byte) (h : Memory.wf s.mem = true) :
    memRead (memWrite s k bs) k bs.length = bs := by
  induction bs generalizing s k with
  | nil => rfl
  | cons b bs ih =>
    rw [show memWrite s k (b :: bs) = memWrite (memSet s k b) (k + 1) bs from rfl]
    simp only [List.length_cons, memRead]
    rw [ih _ (memSet_wf k b h), memGet_memWrite_ne _ _ _ (Or.inl (by omega)), memGet_memSet _ _ _ h, if_pos rfl]

/-- Reading elsewhere is as it was. -/
theorem memRead_memWrite_ne {s : State} (k a n : Nat) (bs : List Byte) (h : a + n ≤ k ∨ k + bs.length ≤ a) :
    memRead (memWrite s k bs) a n = memRead s a n :=
  memRead_ext fun _ _ _ => memGet_memWrite_ne _ _ _ (by omega)

/-- Part of a read. -/
theorem memRead_drop_take (s : State) (k n i m : Nat) (h : i + m ≤ n) :
    ((memRead s k n).drop i).take m = memRead s (k + i) m := by
  induction i generalizing k n with
  | zero =>
    simp only [List.drop_zero, Nat.add_zero]
    induction m generalizing k n with
    | zero => rfl
    | succ m ih =>
      obtain ⟨n, rfl⟩ : ∃ j, n = j + 1 := ⟨n - 1, by omega⟩
      simp only [memRead, List.take_succ_cons]
      rw [ih (k + 1) n (by omega)]
  | succ i ih =>
    obtain ⟨n, rfl⟩ : ∃ j, n = j + 1 := ⟨n - 1, by omega⟩
    simp only [memRead, List.drop_succ_cons]
    rw [ih (k + 1) n (by omega), show k + 1 + i = k + (i + 1) by omega]

@[simp] theorem tagWrite_mem (s : State) (k : Nat) (fl : W64) (n : Nat) : (tagWrite s k fl n).mem = s.mem := by
  induction n generalizing s k with
  | zero => rfl
  | succ n ih => simp only [tagWrite]; rw [ih]

end Sys2Proof.Laws
end

