-- ==== Sys2Proof/Laws/PerInstr.lean ====
section
/-! SUPPORT. A statement about every instruction as syntax, constructor by constructor: it occupies one word of its clause, or two where it
has a literal (spec/07 R140, R152), and a step of another agent has none. -/

namespace Sys2Proof.Laws.WordCount

open Sys2Proof.Machine

/-- The words of an instruction. -/
def Statement (i : Instr) : Prop :=
  (wordsOf i = 1 ∨ wordsOf i = 2) ∧ (wordsOf i = 2 ↔ ∃ w l, encode i = some ⟨w, some l⟩) ∧
    (Safety.isEvent i = true → wordsOf i = 1)

/-- It holds whatever the encoding is. -/
theorem of_encode (i : Instr) : Statement i := by
  unfold Statement wordsOf Safety.isEvent
  rcases encode i with _ | ⟨w, _ | l⟩ <;> simp

theorem nop (k : Nat) : Statement (.nop k) := of_encode _
theorem br (off : Int) : Statement (.br off) := of_encode _
theorem brc (c : Nat) (sns : Bool) (off : Int) : Statement (.brc c sns off) := of_encode _
theorem brz (m : Nat) (sns : Bool) (off : Int) : Statement (.brz m sns off) := of_encode _
theorem call (lnk : Nat) (off : Int) : Statement (.call lnk off) := of_encode _
theorem jmp (k a : Nat) : Statement (.jmp k a) := of_encode _
theorem loop (lnk : Nat) (off : Int) : Statement (.loop lnk off) := of_encode _
theorem exit (k : Nat) : Statement (.exit k) := of_encode _
theorem trap (k code : Nat) : Statement (.trap k code) := of_encode _
theorem rtt (k : Nat) (skip : Bool) : Statement (.rtt k skip) := of_encode _
theorem yield (k : Nat) : Statement (.yield k) := of_encode _
theorem getsys (k d : Nat) (sel : Sel) : Statement (.getsys k d sel) := of_encode _
theorem setsys (k a : Nat) (sel : Sel) : Statement (.setsys k a sel) := of_encode _
theorem brkpt (k : Nat) : Statement (.brkpt k) := of_encode _
theorem mbox (k a tag : Nat) : Statement (.mbox k a tag) := of_encode _
theorem escalate (k a : Nat) : Statement (.escalate k a) := of_encode _
theorem sadd (o : SBin) : Statement (.sadd o) := of_encode _
theorem ssub (o : SBin) : Statement (.ssub o) := of_encode _
theorem smul (o : SBin) : Statement (.smul o) := of_encode _
theorem smulh (o : SBin) : Statement (.smulh o) := of_encode _
theorem sdiv (o : SBin) : Statement (.sdiv o) := of_encode _
theorem srem (o : SBin) : Statement (.srem o) := of_encode _
theorem sand (o : SBin) : Statement (.sand o) := of_encode _
theorem sor (o : SBin) : Statement (.sor o) := of_encode _
theorem sxor (o : SBin) : Statement (.sxor o) := of_encode _
theorem sshl (o : SBin) : Statement (.sshl o) := of_encode _
theorem sshr (o : SBin) : Statement (.sshr o) := of_encode _
theorem scmp (o : SBin) (rel : Rel) : Statement (.scmp o rel) := of_encode _
theorem smov (o : SBin) : Statement (.smov o) := of_encode _
theorem ssel (o : SBin) (c : Nat) : Statement (.ssel o c) := of_encode _
theorem smin (o : SBin) : Statement (.smin o) := of_encode _
theorem smax (o : SBin) : Statement (.smax o) := of_encode _
theorem kand (k d a b : Nat) : Statement (.kand k d a b) := of_encode _
theorem kor (k d a b : Nat) : Statement (.kor k d a b) := of_encode _
theorem kxor (k d a b : Nat) : Statement (.kxor k d a b) := of_encode _
theorem kandn (k d a b : Nat) : Statement (.kandn k d a b) := of_encode _
theorem knot (k d a : Nat) : Statement (.knot k d a) := of_encode _
theorem kmov (k d a : Nat) : Statement (.kmov k d a) := of_encode _
theorem kcnt (k d a : Nat) : Statement (.kcnt k d a) := of_encode _
theorem kfirst (k d a : Nat) : Statement (.kfirst k d a) := of_encode _
theorem ktest (k d a : Nat) (mode : KMode) : Statement (.ktest k d a mode) := of_encode _
theorem kfromv (k d a : Nat) : Statement (.kfromv k d a) := of_encode _
theorem ktov (k d a : Nat) : Statement (.ktov k d a) := of_encode _
theorem ksetw (k d a : Nat) (b : SSrc) : Statement (.ksetw k d a b) := of_encode _
theorem kgetw (k d a : Nat) (b : SSrc) : Statement (.kgetw k d a b) := of_encode _
theorem qpush (k a q : Nat) : Statement (.qpush k a q) := of_encode _
theorem qpop (k d q : Nat) : Statement (.qpop k d q) := of_encode _
theorem qtry (k n : Nat) (op : QtryOp) (q : Nat) : Statement (.qtry k n op q) := of_encode _
theorem bar (k : Nat) (cluster : Bool) : Statement (.bar k cluster) := of_encode _
theorem mxacq (k : Nat) : Statement (.mxacq k) := of_encode _
theorem mxrel (k : Nat) : Statement (.mxrel k) := of_encode _
theorem spawn (k a b : Nat) : Statement (.spawn k a b) := of_encode _
theorem batch (k d : Nat) : Statement (.batch k d) := of_encode _
theorem waitb (k a : Nat) : Statement (.waitb k a) := of_encode _
theorem cwait (k a b : Nat) : Statement (.cwait k a b) := of_encode _
theorem ctest (k d a b : Nat) : Statement (.ctest k d a b) := of_encode _
theorem vadd (o : VBin) : Statement (.vadd o) := of_encode _
theorem vsub (o : VBin) : Statement (.vsub o) := of_encode _
theorem vmul (o : VBin) : Statement (.vmul o) := of_encode _
theorem vmulh (o : VBin) : Statement (.vmulh o) := of_encode _
theorem vmad (o : V3) : Statement (.vmad o) := of_encode _
theorem vdiv (o : VBin) : Statement (.vdiv o) := of_encode _
theorem vrem (o : VBin) : Statement (.vrem o) := of_encode _
theorem vmin (o : VBin) : Statement (.vmin o) := of_encode _
theorem vmax (o : VBin) : Statement (.vmax o) := of_encode _
theorem vabs (o : VUn) : Statement (.vabs o) := of_encode _
theorem vneg (o : VUn) : Statement (.vneg o) := of_encode _
theorem vand (o : VBin) : Statement (.vand o) := of_encode _
theorem vor (o : VBin) : Statement (.vor o) := of_encode _
theorem vxor (o : VBin) : Statement (.vxor o) := of_encode _
theorem vnot (o : VUn) : Statement (.vnot o) := of_encode _
theorem vshl (o : VBin) : Statement (.vshl o) := of_encode _
theorem vshr (o : VBin) : Statement (.vshr o) := of_encode _
theorem vrot (o : VBin) : Statement (.vrot o) := of_encode _
theorem vcmp (o : VBin) (rel : Rel) : Statement (.vcmp o rel) := of_encode _
theorem vsel (o : VBin) (ks : Nat) : Statement (.vsel o ks) := of_encode _
theorem vmov (o : VBin) : Statement (.vmov o) := of_encode _
theorem vbfe (o : VBin) : Statement (.vbfe o) := of_encode _
theorem vbfi (o : V3) : Statement (.vbfi o) := of_encode _
theorem vpopc (o : VUn) : Statement (.vpopc o) := of_encode _
theorem vclz (o : VUn) : Statement (.vclz o) := of_encode _
theorem vaddc (o : VBin) (kc : Nat) : Statement (.vaddc o kc) := of_encode _
theorem vadds (o : VBin) (sub : Bool) : Statement (.vadds o sub) := of_encode _
theorem vlane (k d a : Nat) (wordwise : Bool) : Statement (.vlane k d a wordwise) := of_encode _
theorem vmulw (o : VBin) : Statement (.vmulw o) := of_encode _
theorem vfadd (o : VBin) (rm : Rm) : Statement (.vfadd o rm) := of_encode _
theorem vfsub (o : VBin) (rm : Rm) : Statement (.vfsub o rm) := of_encode _
theorem vfmul (o : VBin) (rm : Rm) : Statement (.vfmul o rm) := of_encode _
theorem vfma (o : V3) : Statement (.vfma o) := of_encode _
theorem vfdiv (o : VBin) (fs : Nat) (rm : Rm) : Statement (.vfdiv o fs rm) := of_encode _
theorem vfsqrt (o : VUn) (fs : Nat) (rm : Rm) : Statement (.vfsqrt o fs rm) := of_encode _
theorem vfrsqs (o : VUn) : Statement (.vfrsqs o) := of_encode _
theorem vfrcps (o : VUn) : Statement (.vfrcps o) := of_encode _
theorem vfmin (o : VBin) (num : Bool) : Statement (.vfmin o num) := of_encode _
theorem vfmax (o : VBin) (num : Bool) : Statement (.vfmax o num) := of_encode _
theorem vfabs (o : VUn) : Statement (.vfabs o) := of_encode _
theorem vfneg (o : VUn) : Statement (.vfneg o) := of_encode _
theorem vfcmp (o : VBin) (rel : Rel) (u sig half : Bool) : Statement (.vfcmp o rel u sig half) := of_encode _
theorem vfclass (o : VUn) : Statement (.vfclass o) := of_encode _
theorem vfrnd (o : VUn) (rm : Rm) (exact : Bool) : Statement (.vfrnd o rm exact) := of_encode _
theorem vfscale (o : VBin) (rm : Rm) : Statement (.vfscale o rm) := of_encode _
theorem vfexp2 (o : VUn) : Statement (.vfexp2 o) := of_encode _
theorem vflog2 (o : VUn) : Statement (.vflog2 o) := of_encode _
theorem vfgetexp (o : VUn) : Statement (.vfgetexp o) := of_encode _
theorem vfgetman (o : VUn) : Statement (.vfgetman o) := of_encode _
theorem vfcopysign (o : VBin) (mode : CsMode) : Statement (.vfcopysign o mode) := of_encode _
theorem vcvt (k d a : Nat) (dst src : Ty) (rm : Rm) : Statement (.vcvt k d a dst src rm) := of_encode _
theorem vpack (o : VBin) (rm : Rm) : Statement (.vpack o rm) := of_encode _
theorem vunpk (o : VUn) (half : Bool) : Statement (.vunpk o half) := of_encode _
theorem vqnt (o : VBin) (byte : Nat) : Statement (.vqnt o byte) := of_encode _
theorem vdqnt (o : VBin) (byte : Nat) : Statement (.vdqnt o byte) := of_encode _
theorem vshfl (o : VBin) (mode : ShMode) : Statement (.vshfl o mode) := of_encode _
theorem vxch (o : VBin) : Statement (.vxch o) := of_encode _
theorem vfold (o : VUn) (op : FOp) (num : Bool) : Statement (.vfold o op num) := of_encode _
theorem vscan (o : VUn) (op : FOp) (num excl : Bool) : Statement (.vscan o op num excl) := of_encode _
theorem vapnd (k d a : Nat) : Statement (.vapnd k d a) := of_encode _
theorem vreadl (k d a : Nat) (ty : Ty) (b : LSrc) : Statement (.vreadl k d a ty b) := of_encode _
theorem vwritel (k d a : Nat) (ty : Ty) (b : LSrc) : Statement (.vwritel k d a ty b) := of_encode _
theorem ld (o : MemOp) : Statement (.ld o) := of_encode _
theorem st (o : MemOp) : Statement (.st o) := of_encode _
theorem lds (o : MemOp) : Statement (.lds o) := of_encode _
theorem sts (o : MemOp) : Statement (.sts o) := of_encode _
theorem ldasof (o : AsofOp) : Statement (.ldasof o) := of_encode _
theorem ldasofs (o : AsofOp) : Statement (.ldasofs o) := of_encode _
theorem ldpk (k fs d a b : Nat) (nv u t6 : Bool) : Statement (.ldpk k fs d a b nv u t6) := of_encode _
theorem pref (k a b : Nat) (nv u llc : Bool) : Statement (.pref k a b nv u llc) := of_encode _
theorem stashmap (k d a b : Nat) : Statement (.stashmap k d a b) := of_encode _
theorem stashdrop (k d : Nat) (discard : Bool) : Statement (.stashdrop k d discard) := of_encode _
theorem atom (o : AtOp) (op : AOp) : Statement (.atom o op) := of_encode _
theorem atcas (o : AtOp) : Statement (.atcas o) := of_encode _
theorem red (o : AtOp) (op : AOp) : Statement (.red o op) := of_encode _
theorem vatom (o : AtOp) (op : AOp) : Statement (.vatom o op) := of_encode _
theorem vred (o : AtOp) (op : AOp) : Statement (.vred o op) := of_encode _
theorem alinit (k a : Nat) (b : LSrc) : Statement (.alinit k a b) := of_encode _
theorem aldec (k fs d a : Nat) (b : LSrc) (acq : Bool) (scope : Scope) (wait : Bool) : Statement (.aldec k fs d a b acq scope wait) := of_encode _
theorem alinc (k a : Nat) (b : LSrc) (rel : Bool) (scope : Scope) : Statement (.alinc k a b rel scope) := of_encode _
theorem alrd (k fs d a : Nat) (acq : Bool) (scope : Scope) : Statement (.alrd k fs d a acq scope) := of_encode _
theorem alfree (k a : Nat) : Statement (.alfree k a) := of_encode _
theorem fence (k : Nat) (order : Order) (scope : Scope) : Statement (.fence k order scope) := of_encode _
theorem fenceo (k : Nat) (scope : Scope) : Statement (.fenceo k scope) := of_encode _
theorem fencer (k : Nat) (scope : Scope) : Statement (.fencer k scope) := of_encode _
theorem cmaint (k a b : Nat) (op : CmOp) (level : CmLevel) : Statement (.cmaint k a b op level) := of_encode _
theorem tlblock (k a b : Nat) : Statement (.tlblock k a b) := of_encode _
theorem tlbunlock (k a b : Nat) : Statement (.tlbunlock k a b) := of_encode _
theorem pgmap (k d a b : Nat) : Statement (.pgmap k d a b) := of_encode _
theorem pgunmap (k a b : Nat) : Statement (.pgunmap k a b) := of_encode _
theorem stampget (k fs d : Nat) : Statement (.stampget k fs d) := of_encode _
theorem snap (k fs d : Nat) : Statement (.snap k fs d) := of_encode _
theorem pin (k fs d a : Nat) : Statement (.pin k fs d a) := of_encode _
theorem unpin (k a : Nat) : Statement (.unpin k a) := of_encode _
theorem horizon (k fs d : Nat) : Statement (.horizon k fs d) := of_encode _
theorem mxmma (k fs d a b : Nat) (ty : Ty) (reuse sparse : Bool) (sm : Nat) : Statement (.mxmma k fs d a b ty reuse sparse sm) := of_encode _
theorem mxsca (k fs d a b e : Nat) : Statement (.mxsca k fs d a b e) := of_encode _
theorem mxperm (k fs d a b : Nat) (ty : Ty) : Statement (.mxperm k fs d a b ty) := of_encode _
theorem mxtrn (k fs d a : Nat) (ty : Ty) : Statement (.mxtrn k fs d a ty) := of_encode _
theorem mxrsum (k fs d a : Nat) (ty : Ty) : Statement (.mxrsum k fs d a ty) := of_encode _
theorem cpin (o : CpOp) (frame : Bool) : Statement (.cpin o frame) := of_encode _
theorem cpout (o : CpOp) : Statement (.cpout o) := of_encode _
theorem cppeer (o : CpOp) : Statement (.cppeer o) := of_encode _
theorem qst (k fs d a : Nat) (ty : Ty) (q : Nat) (col reset : Bool) : Statement (.qst k fs d a ty q col reset) := of_encode _
theorem qstd (k fs d a : Nat) (ty : Ty) (qa qb : Nat) (reset : Bool) : Statement (.qstd k fs d a ty qa qb reset) := of_encode _
theorem qload (k fs a q : Nat) : Statement (.qload k fs a q) := of_encode _
theorem qsave (k fs a q : Nat) : Statement (.qsave k fs a q) := of_encode _
theorem nmc (k fs d a : Nat) : Statement (.nmc k fs d a) := of_encode _
theorem dualWord (x y : Slot) : Statement (.dualWord x y) := of_encode _
theorem clauseEntry (h : Header) : Statement (.clauseEntry h) := of_encode _
theorem lateFaultTaken (core slot : Nat) : Statement (.lateFaultTaken core slot) := of_encode _
theorem loadCompletion (op : Nat) : Statement (.loadCompletion op) := of_encode _
theorem storeAcknowledgement (op : Nat) : Statement (.storeAcknowledgement op) := of_encode _
theorem atomicCompletion (op : Nat) : Statement (.atomicCompletion op) := of_encode _
theorem reductionFaultLogged (op : Nat) : Statement (.reductionFaultLogged op) := of_encode _
theorem longArithmeticCompletion (op : Nat) : Statement (.longArithmeticCompletion op) := of_encode _
theorem mxCompletion (op : Nat) : Statement (.mxCompletion op) := of_encode _
theorem mxGatedAbort (op : Nat) : Statement (.mxGatedAbort op) := of_encode _
theorem serialisingRequest (core op : Nat) : Statement (.serialisingRequest core op) := of_encode _
theorem gatedRangeRead (op : Nat) : Statement (.gatedRangeRead op) := of_encode _
theorem allowanceCompletion (op : Nat) : Statement (.allowanceCompletion op) := of_encode _
theorem aldecWaitServed (counter : Nat) : Statement (.aldecWaitServed counter) := of_encode _
theorem shareEviction (counter core : Nat) : Statement (.shareEviction counter core) := of_encode _
theorem historyCompletion (op : Nat) : Statement (.historyCompletion op) := of_encode _
theorem queuePushDone (crew q : Nat) : Statement (.queuePushDone crew q) := of_encode _
theorem queuePopDone (crew q : Nat) : Statement (.queuePopDone crew q) := of_encode _
theorem barrierRelease (cluster : Bool) (id : Nat) : Statement (.barrierRelease cluster id) := of_encode _
theorem matrixOwnershipGrant (core : Nat) : Statement (.matrixOwnershipGrant core) := of_encode _
theorem waitbComplete (core slot : Nat) : Statement (.waitbComplete core slot) := of_encode _
theorem cwaitComplete (core slot : Nat) : Statement (.cwaitComplete core slot) := of_encode _
theorem engineAcceptance (core slot : Nat) : Statement (.engineAcceptance core slot) := of_encode _
theorem copyChunkDone (op n : Nat) : Statement (.copyChunkDone op n) := of_encode _
theorem copyStop (op : Nat) : Statement (.copyStop op) := of_encode _
theorem engineCompletionRecord (op : Nat) : Statement (.engineCompletionRecord op) := of_encode _
theorem quantCommandExecute (core : Nat) : Statement (.quantCommandExecute core) := of_encode _
theorem nmcPcShare (op home : Nat) : Statement (.nmcPcShare op home) := of_encode _
theorem trackedWriteAtHome (home : Nat) : Statement (.trackedWriteAtHome home) := of_encode _
theorem leesReclaim (stack : Nat) : Statement (.leesReclaim stack) := of_encode _
theorem horizonPropagation (core : Nat) : Statement (.horizonPropagation core) := of_encode _
theorem spawnBinTimer (core bin : Nat) : Statement (.spawnBinTimer core bin) := of_encode _
theorem spawnedTeamPlacement (core : Nat) : Statement (.spawnedTeamPlacement core) := of_encode _
theorem partitionRelease (crew : Nat) : Statement (.partitionRelease crew) := of_encode _
theorem partitionSpill (crew : Nat) : Statement (.partitionSpill crew) := of_encode _
theorem preemptionRequest (cluster : Nat) : Statement (.preemptionRequest cluster) := of_encode _
theorem preemptionDeadline (core slot : Nat) : Statement (.preemptionDeadline core slot) := of_encode _
theorem teamSave (core slot : Nat) : Statement (.teamSave core slot) := of_encode _
theorem saveStreamDone (core slot : Nat) : Statement (.saveStreamDone core slot) := of_encode _
theorem clusterRestoreDone (cluster : Nat) : Statement (.clusterRestoreDone cluster) := of_encode _
theorem launchAdmission (q : Nat) : Statement (.launchAdmission q) := of_encode _
theorem clusterPlacement (cluster : Nat) : Statement (.clusterPlacement cluster) := of_encode _
theorem launchCompletion (launch : Nat) : Statement (.launchCompletion launch) := of_encode _
theorem queueEnable (q : Nat) (v : BitVec 64) : Statement (.queueEnable q v) := of_encode _
theorem queueTeardown (q : Nat) (v : BitVec 64) : Statement (.queueTeardown q v) := of_encode _
theorem queueSuspend (q : Nat) (v : BitVec 64) : Statement (.queueSuspend q v) := of_encode _
theorem queueUnsuspend (q : Nat) (v : BitVec 64) : Statement (.queueUnsuspend q v) := of_encode _
theorem doorbell (q : Nat) (v : BitVec 64) : Statement (.doorbell q v) := of_encode _
theorem tornClear (q : Nat) (v : BitVec 64) : Statement (.tornClear q v) := of_encode _
theorem registerWrite (off bits : Nat) (v : BitVec 64) : Statement (.registerWrite off bits v) := of_encode _
theorem leescfgWrite (v : BitVec 64) : Statement (.leescfgWrite v) := of_encode _
theorem stackQuiesceRequest (n : Nat) : Statement (.stackQuiesceRequest n) := of_encode _
theorem stackQuiesceComplete (n : Nat) : Statement (.stackQuiesceComplete n) := of_encode _
theorem stackReturnToService (n : Nat) : Statement (.stackReturnToService n) := of_encode _
theorem hashmaskWrite (n j : Nat) (v : BitVec 64) : Statement (.hashmaskWrite n j v) := of_encode _
theorem rateChangeRequest (n : Nat) : Statement (.rateChangeRequest n) := of_encode _
theorem retrainingStart (n : Nat) : Statement (.retrainingStart n) := of_encode _
theorem retrainingComplete (n : Nat) : Statement (.retrainingComplete n) := of_encode _
theorem rateChangeAbandon (n : Nat) : Statement (.rateChangeAbandon n) := of_encode _
theorem pcGrant (home : Nat) : Statement (.pcGrant home) := of_encode _
theorem patrolScrub (loc : Nat) : Statement (.patrolScrub loc) := of_encode _
theorem sramError (structureCode unit slot : Nat) (loc : Nat) (correctable : Bool) : Statement (.sramError structureCode unit slot loc correctable) := of_encode _
theorem timingDetection (core : Nat) (again : Bool) : Statement (.timingDetection core again) := of_encode _
theorem consume (launch code : Nat) : Statement (.consume launch code) := of_encode _
theorem rollbackRestore (launch : Nat) : Statement (.rollbackRestore launch) := of_encode _
theorem parkResume (core slot ctx : Nat) : Statement (.parkResume core slot ctx) := of_encode _
theorem parkResumeSkip (core slot ctx : Nat) : Statement (.parkResumeSkip core slot ctx) := of_encode _
theorem parkKillTeam (core slot ctx : Nat) : Statement (.parkKillTeam core slot ctx) := of_encode _
theorem contextResume (ctx : Nat) : Statement (.contextResume ctx) := of_encode _
theorem contextKill (ctx : Nat) : Statement (.contextKill ctx) := of_encode _
theorem errctlWrite (v : BitVec 64) : Statement (.errctlWrite v) := of_encode _
theorem errheadWrite (v : BitVec 64) : Statement (.errheadWrite v) := of_encode _
theorem rebase : Statement (.rebase) := of_encode _
theorem rebaseComplete : Statement (.rebaseComplete) := of_encode _
theorem kilnDrain (addr : Nat) : Statement (.kilnDrain addr) := of_encode _
theorem kilnCommit : Statement (.kilnCommit) := of_encode _
theorem kilnRestore (addr : Nat) : Statement (.kilnRestore addr) := of_encode _
theorem kilnReleaseGeneration (addr : Nat) : Statement (.kilnReleaseGeneration addr) := of_encode _
theorem kilnAbort : Statement (.kilnAbort) := of_encode _
theorem framecmdGo (v : BitVec 64) : Statement (.framecmdGo v) := of_encode _
theorem frameChangeComplete : Statement (.frameChangeComplete) := of_encode _
theorem dbgHalt (core : Nat) : Statement (.dbgHalt core) := of_encode _
theorem dbgResume (core : Nat) : Statement (.dbgResume core) := of_encode _
theorem dbgStepInstruction (core : Nat) : Statement (.dbgStepInstruction core) := of_encode _
theorem dbgStepClause (core : Nat) : Statement (.dbgStepClause core) := of_encode _
theorem mbpopRead (core : Nat) : Statement (.mbpopRead core) := of_encode _
theorem hostMemRead (port addr n : Nat) : Statement (.hostMemRead port addr n) := of_encode _
theorem hostMemWrite (port addr : Nat) (data : List (BitVec 8)) (poison : Bool) : Statement (.hostMemWrite port addr data poison) := of_encode _
theorem cxlLinkUp (link : Nat) : Statement (.cxlLinkUp link) := of_encode _
theorem cxlLinkDown (link : Nat) : Statement (.cxlLinkDown link) := of_encode _
theorem huanenPortFail (port : Nat) : Statement (.huanenPortFail port) := of_encode _
theorem peerAccess (off : Nat) (op : PeerOp) (data : List (BitVec 8)) : Statement (.peerAccess off op data) := of_encode _
theorem spdmRequest (what : Spdm) : Statement (.spdmRequest what) := of_encode _
theorem resetRelease (bifur0 bifur1 : Bool) (image : Image) : Statement (.resetRelease bifur0 bifur1 image) := of_encode _
theorem powerGood : Statement (.powerGood) := of_encode _
theorem thermalTrip : Statement (.thermalTrip) := of_encode _
theorem functionReady (f : Ready) : Statement (.functionReady f) := of_encode _
theorem readyFall (f : Ready) : Statement (.readyFall f) := of_encode _
theorem resetNAssertion : Statement (.resetNAssertion) := of_encode _
theorem lossOfPower : Statement (.lossOfPower) := of_encode _
theorem hbmDataError (loc : Nat) (bits : List Nat) : Statement (.hbmDataError loc bits) := of_encode _

end Sys2Proof.Laws.WordCount
end

