-- ==== Sys2Proof/Laws/Regs.lean ====
section
/-! SUPPORT. What reading a register gives after a write, and that writes keep the canonical form of a team's registers. -/

namespace Sys2Proof.Laws

open Sys2Proof.Machine Sys2Proof.Safety

theorem vkey_inj {r l q m : Nat} (hl : l < 1024) (hm : m < 1024) : vkey q m = vkey r l ↔ q = r ∧ m = l := by
  unfold vkey; omega

@[simp] theorem sget_zero (t : Team) : sget t 0 = 0 := rfl
@[simp] theorem kget_zero (t : Team) : kget t 0 = t.live := rfl
@[simp] theorem cget_zero (t : Team) : cget t 0 = true := rfl

theorem sget_sput {t : Team} (n m : Nat) (x : W64) (h : smWf 0 t.s = true) :
    sget (sput t n x) m = if m = n ∧ n ≠ 0 then x else sget t m := by
  unfold sput sget
  by_cases hn : n = 0
  · subst hn; simp
  · by_cases hm : m = 0
    · subst hm
      rw [if_pos rfl, if_pos rfl, if_neg (by omega)]
    · rw [if_neg hm, if_neg hm, if_neg hn]
      simp only
      rw [smGet_smSet n m x h]
      simp only [hn, ne_eq, not_false_iff, and_true]

theorem kget_kput {t : Team} (n m : Nat) (x : Mask) (h : smWf 0 t.k = true) :
    kget (kput t n x) m = if m = n ∧ n ≠ 0 then x &&& laneMask t.lanes else kget t m := by
  unfold kput kget
  by_cases hn : n = 0
  · subst hn; simp
  · by_cases hm : m = 0
    · subst hm
      rw [if_neg hn, if_pos rfl, if_pos rfl, if_neg (by omega)]
    · rw [if_neg hm, if_neg hm, if_neg hn]
      simp only
      rw [smGet_smSet n m _ h]
      simp only [hn, ne_eq, not_false_iff, and_true]

theorem getLsbD_setBit {w : Nat} (x : BitVec w) (i j : Nat) (b : Bool) (_hi : i < w) (hj : j < w) :
    (setBit x i b).getLsbD j = if j = i then b else x.getLsbD j := by
  unfold setBit
  have h2 : (BitVec.ofNat w (2 ^ i)).getLsbD j = decide (j = i) := by
    rw [BitVec.getLsbD_ofNat, Nat.testBit_two_pow]
    simp only [hj, decide_true, Bool.true_and, decide_eq_decide]
    exact eq_comm
  cases b
  · simp only [Bool.false_eq_true, if_false, BitVec.getLsbD_and, BitVec.getLsbD_not, hj, decide_true, Bool.true_and, h2]
    by_cases h : j = i <;> simp [h]
  · simp only [if_true, BitVec.getLsbD_or, h2]
    by_cases h : j = i <;> simp [h]

theorem cget_cput (t : Team) (n m : Nat) (b : Bool) (hn : n < 8) (hm : m < 8) :
    cget (cput t n b) m = if m = n ∧ n ≠ 0 then b else cget t m := by
  unfold cput cget
  by_cases h0 : n = 0
  · subst h0; simp
  · have : ¬(n = 0 ∨ 8 ≤ n) := by omega
    by_cases hm0 : m = 0
    · subst hm0; simp; omega
    · rw [if_neg this, if_neg hm0, if_neg hm0]
      simp only [h0, ne_eq, not_false_iff, and_true]
      exact getLsbD_setBit _ _ _ _ hn hm

theorem vget_put {t : Team} (r l q m : Nat) (x : W32) (h : smWf 0 t.v = true) (hl : l < 1024) (hm : m < 1024) :
    vget { t with v := smSet 0 t.v (vkey r l) x } q m = if q = r ∧ m = l then x else vget t q m := by
  unfold vget
  simp only
  rw [smGet_smSet _ _ _ h]
  simp only [vkey_inj hl hm]

/-! ### A write of one kind leaves the others alone -/

@[simp] theorem sput_v (t : Team) (n : Nat) (x : W64) : (sput t n x).v = t.v := by unfold sput; split <;> rfl
@[simp] theorem sput_k (t : Team) (n : Nat) (x : W64) : (sput t n x).k = t.k := by unfold sput; split <;> rfl
@[simp] theorem sput_c (t : Team) (n : Nat) (x : W64) : (sput t n x).c = t.c := by unfold sput; split <;> rfl
@[simp] theorem sput_f (t : Team) (n : Nat) (x : W64) : (sput t n x).f = t.f := by unfold sput; split <;> rfl
@[simp] theorem sput_q (t : Team) (n : Nat) (x : W64) : (sput t n x).q = t.q := by unfold sput; split <;> rfl
@[simp] theorem sput_lanes (t : Team) (n : Nat) (x : W64) : (sput t n x).lanes = t.lanes := by unfold sput; split <;> rfl
@[simp] theorem sput_live (t : Team) (n : Nat) (x : W64) : (sput t n x).live = t.live := by unfold sput; split <;> rfl
@[simp] theorem kput_v (t : Team) (n : Nat) (x : Mask) : (kput t n x).v = t.v := by unfold kput; split <;> rfl
@[simp] theorem kput_s (t : Team) (n : Nat) (x : Mask) : (kput t n x).s = t.s := by unfold kput; split <;> rfl
@[simp] theorem kput_c (t : Team) (n : Nat) (x : Mask) : (kput t n x).c = t.c := by unfold kput; split <;> rfl
@[simp] theorem kput_f (t : Team) (n : Nat) (x : Mask) : (kput t n x).f = t.f := by unfold kput; split <;> rfl
@[simp] theorem kput_q (t : Team) (n : Nat) (x : Mask) : (kput t n x).q = t.q := by unfold kput; split <;> rfl
@[simp] theorem kput_lanes (t : Team) (n : Nat) (x : Mask) : (kput t n x).lanes = t.lanes := by unfold kput; split <;> rfl
@[simp] theorem kput_live (t : Team) (n : Nat) (x : Mask) : (kput t n x).live = t.live := by unfold kput; split <;> rfl
@[simp] theorem cput_v (t : Team) (n : Nat) (b : Bool) : (cput t n b).v = t.v := by unfold cput; split <;> rfl
@[simp] theorem cput_s (t : Team) (n : Nat) (b : Bool) : (cput t n b).s = t.s := by unfold cput; split <;> rfl
@[simp] theorem cput_k (t : Team) (n : Nat) (b : Bool) : (cput t n b).k = t.k := by unfold cput; split <;> rfl
@[simp] theorem cput_f (t : Team) (n : Nat) (b : Bool) : (cput t n b).f = t.f := by unfold cput; split <;> rfl
@[simp] theorem cput_q (t : Team) (n : Nat) (b : Bool) : (cput t n b).q = t.q := by unfold cput; split <;> rfl
@[simp] theorem cput_lanes (t : Team) (n : Nat) (b : Bool) : (cput t n b).lanes = t.lanes := by unfold cput; split <;> rfl
@[simp] theorem cput_live (t : Team) (n : Nat) (b : Bool) : (cput t n b).live = t.live := by unfold cput; split <;> rfl

/-! ### Writes keep the canonical form -/

/-- Writing a key of a sparse map leaves an old entry or the new one. -/
theorem mem_smSet {α : Type} [DecidableEq α] {d : α} {m : List (Nat × α)} {k : Nat} {v : α} {e : Nat × α}
    (h : e ∈ smSet d m k v) : e ∈ m ∨ e = (k, v) := by
  induction m with
  | nil => simp only [smSet] at h; split at h <;> simp_all
  | cons p m ih =>
    obtain ⟨j, w⟩ := p
    simp only [smSet] at h
    split at h
    · split at h
      · exact Or.inl h
      · rcases List.mem_cons.mp h with h | h
        · exact Or.inr h
        · exact Or.inl h
    · split at h
      · split at h
        · exact Or.inl (List.mem_cons_of_mem _ h)
        · rcases List.mem_cons.mp h with h | h
          · exact Or.inr h
          · exact Or.inl (List.mem_cons_of_mem _ h)
      · rcases List.mem_cons.mp h with h | h
        · simp [h]
        · rcases ih h with h | h <;> simp_all

theorem and_self_right {w : Nat} (x y : BitVec w) : x &&& y &&& y = x &&& y := by rw [BitVec.and_assoc, BitVec.and_self]

theorem teamOk_sput {t : Team} (n : Nat) (x : W64) (h : TeamOk t) : TeamOk (sput t n x) := by
  unfold sput; split
  · exact h
  · exact ⟨h.1, smWf_smSet _ _ h.2.1, h.2.2⟩

theorem teamOk_kput {t : Team} (n : Nat) (x : Mask) (h : TeamOk t) : TeamOk (kput t n x) := by
  unfold kput; split
  · exact h
  · refine ⟨h.1, h.2.1, smWf_smSet _ _ h.2.2.1, h.2.2.2.1, h.2.2.2.2.1, fun e he => ?_⟩
    rcases mem_smSet he with he | rfl
    · exact h.2.2.2.2.2 e he
    · exact and_self_right _ _

theorem teamOk_cput {t : Team} (n : Nat) (b : Bool) (h : TeamOk t) : TeamOk (cput t n b) := by
  unfold cput; split <;> exact h

theorem teamOk_vput {t : Team} (key : Nat) (x : W32) (h : TeamOk t) : TeamOk { t with v := smSet 0 t.v key x } :=
  ⟨smWf_smSet _ _ h.1, h.2⟩

theorem teamOk_applyWr {t : Team} (w : Wr) (h : TeamOk t) : TeamOk (applyWr t w) := by
  cases w with
  | v r l x => exact teamOk_vput _ _ h
  | s n x => exact teamOk_sput _ _ h
  | k n x => exact teamOk_kput _ _ h
  | c n b => exact teamOk_cput _ _ h

/-- The writes of an instruction keep the canonical form of the team's registers. -/
theorem teamOk_applyWrs {t : Team} (ws : List Wr) (h : TeamOk t) : TeamOk (applyWrs t ws) := by
  induction ws generalizing t with
  | nil => exact h
  | cons w ws ih => exact ih (teamOk_applyWr w h)

theorem teamOk_incFlags {t : Team} (fs : List Nat) (h : TeamOk t) : TeamOk (incFlags t fs) := by
  induction fs generalizing t with
  | nil => exact h
  | cons f fs ih => exact ih ⟨h.1, h.2.1, h.2.2.1, smWf_smSet _ _ h.2.2.2.1, h.2.2.2.2⟩

theorem teamOk_decFlags {t : Team} (fs : List Nat) (h : TeamOk t) : TeamOk (decFlags t fs) := by
  induction fs generalizing t with
  | nil => exact h
  | cons f fs ih => exact ih ⟨h.1, h.2.1, h.2.2.1, smWf_smSet _ _ h.2.2.2.1, h.2.2.2.2⟩

/-- Counting on flags changes each count by its number of mentions. -/
theorem fget_incFlags {t : Team} (fs : List Nat) (f : Nat) (h : smWf 0 t.f = true) :
    fget (incFlags t fs) f = fget t f + fs.count f := by
  induction fs generalizing t with
  | nil => simp [incFlags]
  | cons g fs ih =>
    have := ih (t := { t with f := smSet 0 t.f g (fget t g + 1) }) (smWf_smSet _ _ h)
    rw [show incFlags t (g :: fs) = incFlags { t with f := smSet 0 t.f g (fget t g + 1) } fs from rfl, this]
    simp only [fget, smGet_smSet _ _ _ h, List.count_cons]
    by_cases hg : g = f
    · subst hg; simp; omega
    · have : f ≠ g := Ne.symm hg
      simp [hg, this]

theorem fget_decFlags {t : Team} (fs : List Nat) (f : Nat) (h : smWf 0 t.f = true) :
    fget (decFlags t fs) f = fget t f - fs.count f := by
  induction fs generalizing t with
  | nil => simp [decFlags]
  | cons g fs ih =>
    have := ih (t := { t with f := smSet 0 t.f g (fget t g - 1) }) (smWf_smSet _ _ h)
    rw [show decFlags t (g :: fs) = decFlags { t with f := smSet 0 t.f g (fget t g - 1) } fs from rfl, this]
    simp only [fget, smGet_smSet _ _ _ h, List.count_cons]
    by_cases hg : g = f
    · subst hg; simp; omega
    · have : f ≠ g := Ne.symm hg
      simp [hg, this]

end Sys2Proof.Laws
end

