-- ==== Sys2Proof/Laws/State.lean ====
section
/-! SUPPORT. Every field of the state after each named update, so that no proof unfolds a record update. -/

namespace Sys2Proof.Laws

open Sys2Proof.Machine

/-! ### modTeam -/

section

variable (s : State) (n : Nat) (f : Team → Team)

@[simp] theorem modTeam_mem : (modTeam s n f).mem = s.mem := rfl
@[simp] theorem modTeam_tags : (modTeam s n f).tags = s.tags := rfl
@[simp] theorem modTeam_teams : (modTeam s n f).teams = tbMod s.teams n f := rfl
@[simp] theorem modTeam_crews : (modTeam s n f).crews = s.crews := rfl
@[simp] theorem modTeam_clusters : (modTeam s n f).clusters = s.clusters := rfl
@[simp] theorem modTeam_launches : (modTeam s n f).launches = s.launches := rfl
@[simp] theorem modTeam_contexts : (modTeam s n f).contexts = s.contexts := rfl
@[simp] theorem modTeam_queues : (modTeam s n f).queues = s.queues := rfl
@[simp] theorem modTeam_cores : (modTeam s n f).cores = s.cores := rfl
@[simp] theorem modTeam_ops : (modTeam s n f).ops = s.ops := rfl
@[simp] theorem modTeam_cmds : (modTeam s n f).cmds = s.cmds := rfl
@[simp] theorem modTeam_clocks : (modTeam s n f).clocks = s.clocks := rfl
@[simp] theorem modTeam_sectors : (modTeam s n f).sectors = s.sectors := rfl
@[simp] theorem modTeam_homeq : (modTeam s n f).homeq = s.homeq := rfl
@[simp] theorem modTeam_lees : (modTeam s n f).lees = s.lees := rfl
@[simp] theorem modTeam_leesHead : (modTeam s n f).leesHead = s.leesHead := rfl
@[simp] theorem modTeam_press : (modTeam s n f).press = s.press := rfl
@[simp] theorem modTeam_horizon : (modTeam s n f).horizon = s.horizon := rfl
@[simp] theorem modTeam_lpins : (modTeam s n f).lpins = s.lpins := rfl
@[simp] theorem modTeam_gpins : (modTeam s n f).gpins = s.gpins := rfl
@[simp] theorem modTeam_nextGen : (modTeam s n f).nextGen = s.nextGen := rfl
@[simp] theorem modTeam_boundary : (modTeam s n f).boundary = s.boundary := rfl
@[simp] theorem modTeam_blocks : (modTeam s n f).blocks = s.blocks := rfl
@[simp] theorem modTeam_tracked : (modTeam s n f).tracked = s.tracked := rfl
@[simp] theorem modTeam_counters : (modTeam s n f).counters = s.counters := rfl
@[simp] theorem modTeam_groups : (modTeam s n f).groups = s.groups := rfl
@[simp] theorem modTeam_ctu : (modTeam s n f).ctu = s.ctu := rfl
@[simp] theorem modTeam_pgmaps : (modTeam s n f).pgmaps = s.pgmaps := rfl
@[simp] theorem modTeam_scFloor : (modTeam s n f).scFloor = s.scFloor := rfl
@[simp] theorem modTeam_dirty : (modTeam s n f).dirty = s.dirty := rfl
@[simp] theorem modTeam_cxl : (modTeam s n f).cxl = s.cxl := rfl
@[simp] theorem modTeam_hostHeld : (modTeam s n f).hostHeld = s.hostHeld := rfl
@[simp] theorem modTeam_owners : (modTeam s n f).owners = s.owners := rfl
@[simp] theorem modTeam_reader : (modTeam s n f).reader = s.reader := rfl
@[simp] theorem modTeam_shared : (modTeam s n f).shared = s.shared := rfl
@[simp] theorem modTeam_flips : (modTeam s n f).flips = s.flips := rfl
@[simp] theorem modTeam_poison : (modTeam s n f).poison = s.poison := rfl
@[simp] theorem modTeam_pcq : (modTeam s n f).pcq = s.pcq := rfl
@[simp] theorem modTeam_corr : (modTeam s n f).corr = s.corr := rfl
@[simp] theorem modTeam_stk : (modTeam s n f).stk = s.stk := rfl
@[simp] theorem modTeam_readyCore : (modTeam s n f).readyCore = s.readyCore := rfl
@[simp] theorem modTeam_readyStack : (modTeam s n f).readyStack = s.readyStack := rfl
@[simp] theorem modTeam_readyGroup : (modTeam s n f).readyGroup = s.readyGroup := rfl
@[simp] theorem modTeam_readyIo : (modTeam s n f).readyIo = s.readyIo := rfl
@[simp] theorem modTeam_leesNext : (modTeam s n f).leesNext = s.leesNext := rfl
@[simp] theorem modTeam_leesMode : (modTeam s n f).leesMode = s.leesMode := rfl
@[simp] theorem modTeam_stampLow : (modTeam s n f).stampLow = s.stampLow := rfl
@[simp] theorem modTeam_rbRefuse : (modTeam s n f).rbRefuse = s.rbRefuse := rfl
@[simp] theorem modTeam_rbDone : (modTeam s n f).rbDone = s.rbDone := rfl
@[simp] theorem modTeam_rebasing : (modTeam s n f).rebasing = s.rebasing := rfl
@[simp] theorem modTeam_kilncmd : (modTeam s n f).kilncmd = s.kilncmd := rfl
@[simp] theorem modTeam_kilnStatus : (modTeam s n f).kilnStatus = s.kilnStatus := rfl
@[simp] theorem modTeam_kilnBytes : (modTeam s n f).kilnBytes = s.kilnBytes := rfl
@[simp] theorem modTeam_kiln : (modTeam s n f).kiln = s.kiln := rfl
@[simp] theorem modTeam_err : (modTeam s n f).err = s.err := rfl
@[simp] theorem modTeam_errq : (modTeam s n f).errq = s.errq := rfl
@[simp] theorem modTeam_logq : (modTeam s n f).logq = s.logq := rfl
@[simp] theorem modTeam_host : (modTeam s n f).host = s.host := rfl
@[simp] theorem modTeam_cur : (modTeam s n f).cur = s.cur := rfl
@[simp] theorem modTeam_agenda : (modTeam s n f).agenda = s.agenda := rfl
@[simp] theorem modTeam_xlFloor : (modTeam s n f).xlFloor = s.xlFloor := rfl
@[simp] theorem modTeam_xlSince : (modTeam s n f).xlSince = s.xlSince := rfl
@[simp] theorem modTeam_cycle : (modTeam s n f).cycle = s.cycle := rfl
@[simp] theorem modTeam_chosen : (modTeam s n f).chosen = s.chosen := rfl
@[simp] theorem modTeam_ready : (modTeam s n f).ready = s.ready := rfl
@[simp] theorem modTeam_free : (modTeam s n f).free = s.free := rfl
@[simp] theorem modTeam_nextId : (modTeam s n f).nextId = s.nextId := rfl
@[simp] theorem modTeam_get_core (u : Nat) : (modTeam s n f).core u = s.core u := rfl
@[simp] theorem modTeam_get_queue (u : Nat) : (modTeam s n f).queue u = s.queue u := rfl
@[simp] theorem modTeam_get_stack (u : Nat) : (modTeam s n f).stack u = s.stack u := rfl

end

/-! ### setTeam -/

section

variable (s : State) (n : Nat) (t : Team)

@[simp] theorem setTeam_mem : (setTeam s n t).mem = s.mem := rfl
@[simp] theorem setTeam_tags : (setTeam s n t).tags = s.tags := rfl
@[simp] theorem setTeam_teams : (setTeam s n t).teams = tbSet s.teams n t := rfl
@[simp] theorem setTeam_crews : (setTeam s n t).crews = s.crews := rfl
@[simp] theorem setTeam_clusters : (setTeam s n t).clusters = s.clusters := rfl
@[simp] theorem setTeam_launches : (setTeam s n t).launches = s.launches := rfl
@[simp] theorem setTeam_contexts : (setTeam s n t).contexts = s.contexts := rfl
@[simp] theorem setTeam_queues : (setTeam s n t).queues = s.queues := rfl
@[simp] theorem setTeam_cores : (setTeam s n t).cores = s.cores := rfl
@[simp] theorem setTeam_ops : (setTeam s n t).ops = s.ops := rfl
@[simp] theorem setTeam_cmds : (setTeam s n t).cmds = s.cmds := rfl
@[simp] theorem setTeam_clocks : (setTeam s n t).clocks = s.clocks := rfl
@[simp] theorem setTeam_sectors : (setTeam s n t).sectors = s.sectors := rfl
@[simp] theorem setTeam_homeq : (setTeam s n t).homeq = s.homeq := rfl
@[simp] theorem setTeam_lees : (setTeam s n t).lees = s.lees := rfl
@[simp] theorem setTeam_leesHead : (setTeam s n t).leesHead = s.leesHead := rfl
@[simp] theorem setTeam_press : (setTeam s n t).press = s.press := rfl
@[simp] theorem setTeam_horizon : (setTeam s n t).horizon = s.horizon := rfl
@[simp] theorem setTeam_lpins : (setTeam s n t).lpins = s.lpins := rfl
@[simp] theorem setTeam_gpins : (setTeam s n t).gpins = s.gpins := rfl
@[simp] theorem setTeam_nextGen : (setTeam s n t).nextGen = s.nextGen := rfl
@[simp] theorem setTeam_boundary : (setTeam s n t).boundary = s.boundary := rfl
@[simp] theorem setTeam_blocks : (setTeam s n t).blocks = s.blocks := rfl
@[simp] theorem setTeam_tracked : (setTeam s n t).tracked = s.tracked := rfl
@[simp] theorem setTeam_counters : (setTeam s n t).counters = s.counters := rfl
@[simp] theorem setTeam_groups : (setTeam s n t).groups = s.groups := rfl
@[simp] theorem setTeam_ctu : (setTeam s n t).ctu = s.ctu := rfl
@[simp] theorem setTeam_pgmaps : (setTeam s n t).pgmaps = s.pgmaps := rfl
@[simp] theorem setTeam_scFloor : (setTeam s n t).scFloor = s.scFloor := rfl
@[simp] theorem setTeam_dirty : (setTeam s n t).dirty = s.dirty := rfl
@[simp] theorem setTeam_cxl : (setTeam s n t).cxl = s.cxl := rfl
@[simp] theorem setTeam_hostHeld : (setTeam s n t).hostHeld = s.hostHeld := rfl
@[simp] theorem setTeam_owners : (setTeam s n t).owners = s.owners := rfl
@[simp] theorem setTeam_reader : (setTeam s n t).reader = s.reader := rfl
@[simp] theorem setTeam_shared : (setTeam s n t).shared = s.shared := rfl
@[simp] theorem setTeam_flips : (setTeam s n t).flips = s.flips := rfl
@[simp] theorem setTeam_poison : (setTeam s n t).poison = s.poison := rfl
@[simp] theorem setTeam_pcq : (setTeam s n t).pcq = s.pcq := rfl
@[simp] theorem setTeam_corr : (setTeam s n t).corr = s.corr := rfl
@[simp] theorem setTeam_stk : (setTeam s n t).stk = s.stk := rfl
@[simp] theorem setTeam_readyCore : (setTeam s n t).readyCore = s.readyCore := rfl
@[simp] theorem setTeam_readyStack : (setTeam s n t).readyStack = s.readyStack := rfl
@[simp] theorem setTeam_readyGroup : (setTeam s n t).readyGroup = s.readyGroup := rfl
@[simp] theorem setTeam_readyIo : (setTeam s n t).readyIo = s.readyIo := rfl
@[simp] theorem setTeam_leesNext : (setTeam s n t).leesNext = s.leesNext := rfl
@[simp] theorem setTeam_leesMode : (setTeam s n t).leesMode = s.leesMode := rfl
@[simp] theorem setTeam_stampLow : (setTeam s n t).stampLow = s.stampLow := rfl
@[simp] theorem setTeam_rbRefuse : (setTeam s n t).rbRefuse = s.rbRefuse := rfl
@[simp] theorem setTeam_rbDone : (setTeam s n t).rbDone = s.rbDone := rfl
@[simp] theorem setTeam_rebasing : (setTeam s n t).rebasing = s.rebasing := rfl
@[simp] theorem setTeam_kilncmd : (setTeam s n t).kilncmd = s.kilncmd := rfl
@[simp] theorem setTeam_kilnStatus : (setTeam s n t).kilnStatus = s.kilnStatus := rfl
@[simp] theorem setTeam_kilnBytes : (setTeam s n t).kilnBytes = s.kilnBytes := rfl
@[simp] theorem setTeam_kiln : (setTeam s n t).kiln = s.kiln := rfl
@[simp] theorem setTeam_err : (setTeam s n t).err = s.err := rfl
@[simp] theorem setTeam_errq : (setTeam s n t).errq = s.errq := rfl
@[simp] theorem setTeam_logq : (setTeam s n t).logq = s.logq := rfl
@[simp] theorem setTeam_host : (setTeam s n t).host = s.host := rfl
@[simp] theorem setTeam_cur : (setTeam s n t).cur = s.cur := rfl
@[simp] theorem setTeam_agenda : (setTeam s n t).agenda = s.agenda := rfl
@[simp] theorem setTeam_xlFloor : (setTeam s n t).xlFloor = s.xlFloor := rfl
@[simp] theorem setTeam_xlSince : (setTeam s n t).xlSince = s.xlSince := rfl
@[simp] theorem setTeam_cycle : (setTeam s n t).cycle = s.cycle := rfl
@[simp] theorem setTeam_chosen : (setTeam s n t).chosen = s.chosen := rfl
@[simp] theorem setTeam_ready : (setTeam s n t).ready = s.ready := rfl
@[simp] theorem setTeam_free : (setTeam s n t).free = s.free := rfl
@[simp] theorem setTeam_nextId : (setTeam s n t).nextId = s.nextId := rfl
@[simp] theorem setTeam_get_core (u : Nat) : (setTeam s n t).core u = s.core u := rfl
@[simp] theorem setTeam_get_queue (u : Nat) : (setTeam s n t).queue u = s.queue u := rfl
@[simp] theorem setTeam_get_stack (u : Nat) : (setTeam s n t).stack u = s.stack u := rfl

end

/-! ### modCore -/

section

variable (s : State) (n : Nat) (f : Core → Core)

@[simp] theorem modCore_mem : (modCore s n f).mem = s.mem := rfl
@[simp] theorem modCore_tags : (modCore s n f).tags = s.tags := rfl
@[simp] theorem modCore_teams : (modCore s n f).teams = s.teams := rfl
@[simp] theorem modCore_crews : (modCore s n f).crews = s.crews := rfl
@[simp] theorem modCore_clusters : (modCore s n f).clusters = s.clusters := rfl
@[simp] theorem modCore_launches : (modCore s n f).launches = s.launches := rfl
@[simp] theorem modCore_contexts : (modCore s n f).contexts = s.contexts := rfl
@[simp] theorem modCore_queues : (modCore s n f).queues = s.queues := rfl
@[simp] theorem modCore_cores : (modCore s n f).cores = smSet Core.zero s.cores n (f (s.core n)) := rfl
@[simp] theorem modCore_ops : (modCore s n f).ops = s.ops := rfl
@[simp] theorem modCore_cmds : (modCore s n f).cmds = s.cmds := rfl
@[simp] theorem modCore_clocks : (modCore s n f).clocks = s.clocks := rfl
@[simp] theorem modCore_sectors : (modCore s n f).sectors = s.sectors := rfl
@[simp] theorem modCore_homeq : (modCore s n f).homeq = s.homeq := rfl
@[simp] theorem modCore_lees : (modCore s n f).lees = s.lees := rfl
@[simp] theorem modCore_leesHead : (modCore s n f).leesHead = s.leesHead := rfl
@[simp] theorem modCore_press : (modCore s n f).press = s.press := rfl
@[simp] theorem modCore_horizon : (modCore s n f).horizon = s.horizon := rfl
@[simp] theorem modCore_lpins : (modCore s n f).lpins = s.lpins := rfl
@[simp] theorem modCore_gpins : (modCore s n f).gpins = s.gpins := rfl
@[simp] theorem modCore_nextGen : (modCore s n f).nextGen = s.nextGen := rfl
@[simp] theorem modCore_boundary : (modCore s n f).boundary = s.boundary := rfl
@[simp] theorem modCore_blocks : (modCore s n f).blocks = s.blocks := rfl
@[simp] theorem modCore_tracked : (modCore s n f).tracked = s.tracked := rfl
@[simp] theorem modCore_counters : (modCore s n f).counters = s.counters := rfl
@[simp] theorem modCore_groups : (modCore s n f).groups = s.groups := rfl
@[simp] theorem modCore_ctu : (modCore s n f).ctu = s.ctu := rfl
@[simp] theorem modCore_pgmaps : (modCore s n f).pgmaps = s.pgmaps := rfl
@[simp] theorem modCore_scFloor : (modCore s n f).scFloor = s.scFloor := rfl
@[simp] theorem modCore_dirty : (modCore s n f).dirty = s.dirty := rfl
@[simp] theorem modCore_cxl : (modCore s n f).cxl = s.cxl := rfl
@[simp] theorem modCore_hostHeld : (modCore s n f).hostHeld = s.hostHeld := rfl
@[simp] theorem modCore_owners : (modCore s n f).owners = s.owners := rfl
@[simp] theorem modCore_reader : (modCore s n f).reader = s.reader := rfl
@[simp] theorem modCore_shared : (modCore s n f).shared = s.shared := rfl
@[simp] theorem modCore_flips : (modCore s n f).flips = s.flips := rfl
@[simp] theorem modCore_poison : (modCore s n f).poison = s.poison := rfl
@[simp] theorem modCore_pcq : (modCore s n f).pcq = s.pcq := rfl
@[simp] theorem modCore_corr : (modCore s n f).corr = s.corr := rfl
@[simp] theorem modCore_stk : (modCore s n f).stk = s.stk := rfl
@[simp] theorem modCore_readyCore : (modCore s n f).readyCore = s.readyCore := rfl
@[simp] theorem modCore_readyStack : (modCore s n f).readyStack = s.readyStack := rfl
@[simp] theorem modCore_readyGroup : (modCore s n f).readyGroup = s.readyGroup := rfl
@[simp] theorem modCore_readyIo : (modCore s n f).readyIo = s.readyIo := rfl
@[simp] theorem modCore_leesNext : (modCore s n f).leesNext = s.leesNext := rfl
@[simp] theorem modCore_leesMode : (modCore s n f).leesMode = s.leesMode := rfl
@[simp] theorem modCore_stampLow : (modCore s n f).stampLow = s.stampLow := rfl
@[simp] theorem modCore_rbRefuse : (modCore s n f).rbRefuse = s.rbRefuse := rfl
@[simp] theorem modCore_rbDone : (modCore s n f).rbDone = s.rbDone := rfl
@[simp] theorem modCore_rebasing : (modCore s n f).rebasing = s.rebasing := rfl
@[simp] theorem modCore_kilncmd : (modCore s n f).kilncmd = s.kilncmd := rfl
@[simp] theorem modCore_kilnStatus : (modCore s n f).kilnStatus = s.kilnStatus := rfl
@[simp] theorem modCore_kilnBytes : (modCore s n f).kilnBytes = s.kilnBytes := rfl
@[simp] theorem modCore_kiln : (modCore s n f).kiln = s.kiln := rfl
@[simp] theorem modCore_err : (modCore s n f).err = s.err := rfl
@[simp] theorem modCore_errq : (modCore s n f).errq = s.errq := rfl
@[simp] theorem modCore_logq : (modCore s n f).logq = s.logq := rfl
@[simp] theorem modCore_host : (modCore s n f).host = s.host := rfl
@[simp] theorem modCore_cur : (modCore s n f).cur = s.cur := rfl
@[simp] theorem modCore_agenda : (modCore s n f).agenda = s.agenda := rfl
@[simp] theorem modCore_xlFloor : (modCore s n f).xlFloor = s.xlFloor := rfl
@[simp] theorem modCore_xlSince : (modCore s n f).xlSince = s.xlSince := rfl
@[simp] theorem modCore_cycle : (modCore s n f).cycle = s.cycle := rfl
@[simp] theorem modCore_chosen : (modCore s n f).chosen = s.chosen := rfl
@[simp] theorem modCore_ready : (modCore s n f).ready = s.ready := rfl
@[simp] theorem modCore_free : (modCore s n f).free = s.free := rfl
@[simp] theorem modCore_nextId : (modCore s n f).nextId = s.nextId := rfl
@[simp] theorem modCore_get_team (u : Nat) : (modCore s n f).team u = s.team u := rfl
@[simp] theorem modCore_get_queue (u : Nat) : (modCore s n f).queue u = s.queue u := rfl
@[simp] theorem modCore_get_stack (u : Nat) : (modCore s n f).stack u = s.stack u := rfl

end

/-! ### modCtx -/

section

variable (s : State) (n : Nat) (f : Context → Context)

@[simp] theorem modCtx_mem : (modCtx s n f).mem = s.mem := rfl
@[simp] theorem modCtx_tags : (modCtx s n f).tags = s.tags := rfl
@[simp] theorem modCtx_teams : (modCtx s n f).teams = s.teams := rfl
@[simp] theorem modCtx_crews : (modCtx s n f).crews = s.crews := rfl
@[simp] theorem modCtx_clusters : (modCtx s n f).clusters = s.clusters := rfl
@[simp] theorem modCtx_launches : (modCtx s n f).launches = s.launches := rfl
@[simp] theorem modCtx_contexts : (modCtx s n f).contexts = tbMod s.contexts n f := rfl
@[simp] theorem modCtx_queues : (modCtx s n f).queues = s.queues := rfl
@[simp] theorem modCtx_cores : (modCtx s n f).cores = s.cores := rfl
@[simp] theorem modCtx_ops : (modCtx s n f).ops = s.ops := rfl
@[simp] theorem modCtx_cmds : (modCtx s n f).cmds = s.cmds := rfl
@[simp] theorem modCtx_clocks : (modCtx s n f).clocks = s.clocks := rfl
@[simp] theorem modCtx_sectors : (modCtx s n f).sectors = s.sectors := rfl
@[simp] theorem modCtx_homeq : (modCtx s n f).homeq = s.homeq := rfl
@[simp] theorem modCtx_lees : (modCtx s n f).lees = s.lees := rfl
@[simp] theorem modCtx_leesHead : (modCtx s n f).leesHead = s.leesHead := rfl
@[simp] theorem modCtx_press : (modCtx s n f).press = s.press := rfl
@[simp] theorem modCtx_horizon : (modCtx s n f).horizon = s.horizon := rfl
@[simp] theorem modCtx_lpins : (modCtx s n f).lpins = s.lpins := rfl
@[simp] theorem modCtx_gpins : (modCtx s n f).gpins = s.gpins := rfl
@[simp] theorem modCtx_nextGen : (modCtx s n f).nextGen = s.nextGen := rfl
@[simp] theorem modCtx_boundary : (modCtx s n f).boundary = s.boundary := rfl
@[simp] theorem modCtx_blocks : (modCtx s n f).blocks = s.blocks := rfl
@[simp] theorem modCtx_tracked : (modCtx s n f).tracked = s.tracked := rfl
@[simp] theorem modCtx_counters : (modCtx s n f).counters = s.counters := rfl
@[simp] theorem modCtx_groups : (modCtx s n f).groups = s.groups := rfl
@[simp] theorem modCtx_ctu : (modCtx s n f).ctu = s.ctu := rfl
@[simp] theorem modCtx_pgmaps : (modCtx s n f).pgmaps = s.pgmaps := rfl
@[simp] theorem modCtx_scFloor : (modCtx s n f).scFloor = s.scFloor := rfl
@[simp] theorem modCtx_dirty : (modCtx s n f).dirty = s.dirty := rfl
@[simp] theorem modCtx_cxl : (modCtx s n f).cxl = s.cxl := rfl
@[simp] theorem modCtx_hostHeld : (modCtx s n f).hostHeld = s.hostHeld := rfl
@[simp] theorem modCtx_owners : (modCtx s n f).owners = s.owners := rfl
@[simp] theorem modCtx_reader : (modCtx s n f).reader = s.reader := rfl
@[simp] theorem modCtx_shared : (modCtx s n f).shared = s.shared := rfl
@[simp] theorem modCtx_flips : (modCtx s n f).flips = s.flips := rfl
@[simp] theorem modCtx_poison : (modCtx s n f).poison = s.poison := rfl
@[simp] theorem modCtx_pcq : (modCtx s n f).pcq = s.pcq := rfl
@[simp] theorem modCtx_corr : (modCtx s n f).corr = s.corr := rfl
@[simp] theorem modCtx_stk : (modCtx s n f).stk = s.stk := rfl
@[simp] theorem modCtx_readyCore : (modCtx s n f).readyCore = s.readyCore := rfl
@[simp] theorem modCtx_readyStack : (modCtx s n f).readyStack = s.readyStack := rfl
@[simp] theorem modCtx_readyGroup : (modCtx s n f).readyGroup = s.readyGroup := rfl
@[simp] theorem modCtx_readyIo : (modCtx s n f).readyIo = s.readyIo := rfl
@[simp] theorem modCtx_leesNext : (modCtx s n f).leesNext = s.leesNext := rfl
@[simp] theorem modCtx_leesMode : (modCtx s n f).leesMode = s.leesMode := rfl
@[simp] theorem modCtx_stampLow : (modCtx s n f).stampLow = s.stampLow := rfl
@[simp] theorem modCtx_rbRefuse : (modCtx s n f).rbRefuse = s.rbRefuse := rfl
@[simp] theorem modCtx_rbDone : (modCtx s n f).rbDone = s.rbDone := rfl
@[simp] theorem modCtx_rebasing : (modCtx s n f).rebasing = s.rebasing := rfl
@[simp] theorem modCtx_kilncmd : (modCtx s n f).kilncmd = s.kilncmd := rfl
@[simp] theorem modCtx_kilnStatus : (modCtx s n f).kilnStatus = s.kilnStatus := rfl
@[simp] theorem modCtx_kilnBytes : (modCtx s n f).kilnBytes = s.kilnBytes := rfl
@[simp] theorem modCtx_kiln : (modCtx s n f).kiln = s.kiln := rfl
@[simp] theorem modCtx_err : (modCtx s n f).err = s.err := rfl
@[simp] theorem modCtx_errq : (modCtx s n f).errq = s.errq := rfl
@[simp] theorem modCtx_logq : (modCtx s n f).logq = s.logq := rfl
@[simp] theorem modCtx_host : (modCtx s n f).host = s.host := rfl
@[simp] theorem modCtx_cur : (modCtx s n f).cur = s.cur := rfl
@[simp] theorem modCtx_agenda : (modCtx s n f).agenda = s.agenda := rfl
@[simp] theorem modCtx_xlFloor : (modCtx s n f).xlFloor = s.xlFloor := rfl
@[simp] theorem modCtx_xlSince : (modCtx s n f).xlSince = s.xlSince := rfl
@[simp] theorem modCtx_cycle : (modCtx s n f).cycle = s.cycle := rfl
@[simp] theorem modCtx_chosen : (modCtx s n f).chosen = s.chosen := rfl
@[simp] theorem modCtx_ready : (modCtx s n f).ready = s.ready := rfl
@[simp] theorem modCtx_free : (modCtx s n f).free = s.free := rfl
@[simp] theorem modCtx_nextId : (modCtx s n f).nextId = s.nextId := rfl
@[simp] theorem modCtx_get_team (u : Nat) : (modCtx s n f).team u = s.team u := rfl
@[simp] theorem modCtx_get_core (u : Nat) : (modCtx s n f).core u = s.core u := rfl
@[simp] theorem modCtx_get_queue (u : Nat) : (modCtx s n f).queue u = s.queue u := rfl
@[simp] theorem modCtx_get_stack (u : Nat) : (modCtx s n f).stack u = s.stack u := rfl

end

/-! ### modLaunch -/

section

variable (s : State) (n : Nat) (f : Launch → Launch)

@[simp] theorem modLaunch_mem : (modLaunch s n f).mem = s.mem := rfl
@[simp] theorem modLaunch_tags : (modLaunch s n f).tags = s.tags := rfl
@[simp] theorem modLaunch_teams : (modLaunch s n f).teams = s.teams := rfl
@[simp] theorem modLaunch_crews : (modLaunch s n f).crews = s.crews := rfl
@[simp] theorem modLaunch_clusters : (modLaunch s n f).clusters = s.clusters := rfl
@[simp] theorem modLaunch_launches : (modLaunch s n f).launches = tbMod s.launches n f := rfl
@[simp] theorem modLaunch_contexts : (modLaunch s n f).contexts = s.contexts := rfl
@[simp] theorem modLaunch_queues : (modLaunch s n f).queues = s.queues := rfl
@[simp] theorem modLaunch_cores : (modLaunch s n f).cores = s.cores := rfl
@[simp] theorem modLaunch_ops : (modLaunch s n f).ops = s.ops := rfl
@[simp] theorem modLaunch_cmds : (modLaunch s n f).cmds = s.cmds := rfl
@[simp] theorem modLaunch_clocks : (modLaunch s n f).clocks = s.clocks := rfl
@[simp] theorem modLaunch_sectors : (modLaunch s n f).sectors = s.sectors := rfl
@[simp] theorem modLaunch_homeq : (modLaunch s n f).homeq = s.homeq := rfl
@[simp] theorem modLaunch_lees : (modLaunch s n f).lees = s.lees := rfl
@[simp] theorem modLaunch_leesHead : (modLaunch s n f).leesHead = s.leesHead := rfl
@[simp] theorem modLaunch_press : (modLaunch s n f).press = s.press := rfl
@[simp] theorem modLaunch_horizon : (modLaunch s n f).horizon = s.horizon := rfl
@[simp] theorem modLaunch_lpins : (modLaunch s n f).lpins = s.lpins := rfl
@[simp] theorem modLaunch_gpins : (modLaunch s n f).gpins = s.gpins := rfl
@[simp] theorem modLaunch_nextGen : (modLaunch s n f).nextGen = s.nextGen := rfl
@[simp] theorem modLaunch_boundary : (modLaunch s n f).boundary = s.boundary := rfl
@[simp] theorem modLaunch_blocks : (modLaunch s n f).blocks = s.blocks := rfl
@[simp] theorem modLaunch_tracked : (modLaunch s n f).tracked = s.tracked := rfl
@[simp] theorem modLaunch_counters : (modLaunch s n f).counters = s.counters := rfl
@[simp] theorem modLaunch_groups : (modLaunch s n f).groups = s.groups := rfl
@[simp] theorem modLaunch_ctu : (modLaunch s n f).ctu = s.ctu := rfl
@[simp] theorem modLaunch_pgmaps : (modLaunch s n f).pgmaps = s.pgmaps := rfl
@[simp] theorem modLaunch_scFloor : (modLaunch s n f).scFloor = s.scFloor := rfl
@[simp] theorem modLaunch_dirty : (modLaunch s n f).dirty = s.dirty := rfl
@[simp] theorem modLaunch_cxl : (modLaunch s n f).cxl = s.cxl := rfl
@[simp] theorem modLaunch_hostHeld : (modLaunch s n f).hostHeld = s.hostHeld := rfl
@[simp] theorem modLaunch_owners : (modLaunch s n f).owners = s.owners := rfl
@[simp] theorem modLaunch_reader : (modLaunch s n f).reader = s.reader := rfl
@[simp] theorem modLaunch_shared : (modLaunch s n f).shared = s.shared := rfl
@[simp] theorem modLaunch_flips : (modLaunch s n f).flips = s.flips := rfl
@[simp] theorem modLaunch_poison : (modLaunch s n f).poison = s.poison := rfl
@[simp] theorem modLaunch_pcq : (modLaunch s n f).pcq = s.pcq := rfl
@[simp] theorem modLaunch_corr : (modLaunch s n f).corr = s.corr := rfl
@[simp] theorem modLaunch_stk : (modLaunch s n f).stk = s.stk := rfl
@[simp] theorem modLaunch_readyCore : (modLaunch s n f).readyCore = s.readyCore := rfl
@[simp] theorem modLaunch_readyStack : (modLaunch s n f).readyStack = s.readyStack := rfl
@[simp] theorem modLaunch_readyGroup : (modLaunch s n f).readyGroup = s.readyGroup := rfl
@[simp] theorem modLaunch_readyIo : (modLaunch s n f).readyIo = s.readyIo := rfl
@[simp] theorem modLaunch_leesNext : (modLaunch s n f).leesNext = s.leesNext := rfl
@[simp] theorem modLaunch_leesMode : (modLaunch s n f).leesMode = s.leesMode := rfl
@[simp] theorem modLaunch_stampLow : (modLaunch s n f).stampLow = s.stampLow := rfl
@[simp] theorem modLaunch_rbRefuse : (modLaunch s n f).rbRefuse = s.rbRefuse := rfl
@[simp] theorem modLaunch_rbDone : (modLaunch s n f).rbDone = s.rbDone := rfl
@[simp] theorem modLaunch_rebasing : (modLaunch s n f).rebasing = s.rebasing := rfl
@[simp] theorem modLaunch_kilncmd : (modLaunch s n f).kilncmd = s.kilncmd := rfl
@[simp] theorem modLaunch_kilnStatus : (modLaunch s n f).kilnStatus = s.kilnStatus := rfl
@[simp] theorem modLaunch_kilnBytes : (modLaunch s n f).kilnBytes = s.kilnBytes := rfl
@[simp] theorem modLaunch_kiln : (modLaunch s n f).kiln = s.kiln := rfl
@[simp] theorem modLaunch_err : (modLaunch s n f).err = s.err := rfl
@[simp] theorem modLaunch_errq : (modLaunch s n f).errq = s.errq := rfl
@[simp] theorem modLaunch_logq : (modLaunch s n f).logq = s.logq := rfl
@[simp] theorem modLaunch_host : (modLaunch s n f).host = s.host := rfl
@[simp] theorem modLaunch_cur : (modLaunch s n f).cur = s.cur := rfl
@[simp] theorem modLaunch_agenda : (modLaunch s n f).agenda = s.agenda := rfl
@[simp] theorem modLaunch_xlFloor : (modLaunch s n f).xlFloor = s.xlFloor := rfl
@[simp] theorem modLaunch_xlSince : (modLaunch s n f).xlSince = s.xlSince := rfl
@[simp] theorem modLaunch_cycle : (modLaunch s n f).cycle = s.cycle := rfl
@[simp] theorem modLaunch_chosen : (modLaunch s n f).chosen = s.chosen := rfl
@[simp] theorem modLaunch_ready : (modLaunch s n f).ready = s.ready := rfl
@[simp] theorem modLaunch_free : (modLaunch s n f).free = s.free := rfl
@[simp] theorem modLaunch_nextId : (modLaunch s n f).nextId = s.nextId := rfl
@[simp] theorem modLaunch_get_team (u : Nat) : (modLaunch s n f).team u = s.team u := rfl
@[simp] theorem modLaunch_get_core (u : Nat) : (modLaunch s n f).core u = s.core u := rfl
@[simp] theorem modLaunch_get_queue (u : Nat) : (modLaunch s n f).queue u = s.queue u := rfl
@[simp] theorem modLaunch_get_stack (u : Nat) : (modLaunch s n f).stack u = s.stack u := rfl

end

/-! ### modQueue -/

section

variable (s : State) (n : Nat) (f : Queue → Queue)

@[simp] theorem modQueue_mem : (modQueue s n f).mem = s.mem := rfl
@[simp] theorem modQueue_tags : (modQueue s n f).tags = s.tags := rfl
@[simp] theorem modQueue_teams : (modQueue s n f).teams = s.teams := rfl
@[simp] theorem modQueue_crews : (modQueue s n f).crews = s.crews := rfl
@[simp] theorem modQueue_clusters : (modQueue s n f).clusters = s.clusters := rfl
@[simp] theorem modQueue_launches : (modQueue s n f).launches = s.launches := rfl
@[simp] theorem modQueue_contexts : (modQueue s n f).contexts = s.contexts := rfl
@[simp] theorem modQueue_queues : (modQueue s n f).queues = smSet Queue.zero s.queues n (f (s.queue n)) := rfl
@[simp] theorem modQueue_cores : (modQueue s n f).cores = s.cores := rfl
@[simp] theorem modQueue_ops : (modQueue s n f).ops = s.ops := rfl
@[simp] theorem modQueue_cmds : (modQueue s n f).cmds = s.cmds := rfl
@[simp] theorem modQueue_clocks : (modQueue s n f).clocks = s.clocks := rfl
@[simp] theorem modQueue_sectors : (modQueue s n f).sectors = s.sectors := rfl
@[simp] theorem modQueue_homeq : (modQueue s n f).homeq = s.homeq := rfl
@[simp] theorem modQueue_lees : (modQueue s n f).lees = s.lees := rfl
@[simp] theorem modQueue_leesHead : (modQueue s n f).leesHead = s.leesHead := rfl
@[simp] theorem modQueue_press : (modQueue s n f).press = s.press := rfl
@[simp] theorem modQueue_horizon : (modQueue s n f).horizon = s.horizon := rfl
@[simp] theorem modQueue_lpins : (modQueue s n f).lpins = s.lpins := rfl
@[simp] theorem modQueue_gpins : (modQueue s n f).gpins = s.gpins := rfl
@[simp] theorem modQueue_nextGen : (modQueue s n f).nextGen = s.nextGen := rfl
@[simp] theorem modQueue_boundary : (modQueue s n f).boundary = s.boundary := rfl
@[simp] theorem modQueue_blocks : (modQueue s n f).blocks = s.blocks := rfl
@[simp] theorem modQueue_tracked : (modQueue s n f).tracked = s.tracked := rfl
@[simp] theorem modQueue_counters : (modQueue s n f).counters = s.counters := rfl
@[simp] theorem modQueue_groups : (modQueue s n f).groups = s.groups := rfl
@[simp] theorem modQueue_ctu : (modQueue s n f).ctu = s.ctu := rfl
@[simp] theorem modQueue_pgmaps : (modQueue s n f).pgmaps = s.pgmaps := rfl
@[simp] theorem modQueue_scFloor : (modQueue s n f).scFloor = s.scFloor := rfl
@[simp] theorem modQueue_dirty : (modQueue s n f).dirty = s.dirty := rfl
@[simp] theorem modQueue_cxl : (modQueue s n f).cxl = s.cxl := rfl
@[simp] theorem modQueue_hostHeld : (modQueue s n f).hostHeld = s.hostHeld := rfl
@[simp] theorem modQueue_owners : (modQueue s n f).owners = s.owners := rfl
@[simp] theorem modQueue_reader : (modQueue s n f).reader = s.reader := rfl
@[simp] theorem modQueue_shared : (modQueue s n f).shared = s.shared := rfl
@[simp] theorem modQueue_flips : (modQueue s n f).flips = s.flips := rfl
@[simp] theorem modQueue_poison : (modQueue s n f).poison = s.poison := rfl
@[simp] theorem modQueue_pcq : (modQueue s n f).pcq = s.pcq := rfl
@[simp] theorem modQueue_corr : (modQueue s n f).corr = s.corr := rfl
@[simp] theorem modQueue_stk : (modQueue s n f).stk = s.stk := rfl
@[simp] theorem modQueue_readyCore : (modQueue s n f).readyCore = s.readyCore := rfl
@[simp] theorem modQueue_readyStack : (modQueue s n f).readyStack = s.readyStack := rfl
@[simp] theorem modQueue_readyGroup : (modQueue s n f).readyGroup = s.readyGroup := rfl
@[simp] theorem modQueue_readyIo : (modQueue s n f).readyIo = s.readyIo := rfl
@[simp] theorem modQueue_leesNext : (modQueue s n f).leesNext = s.leesNext := rfl
@[simp] theorem modQueue_leesMode : (modQueue s n f).leesMode = s.leesMode := rfl
@[simp] theorem modQueue_stampLow : (modQueue s n f).stampLow = s.stampLow := rfl
@[simp] theorem modQueue_rbRefuse : (modQueue s n f).rbRefuse = s.rbRefuse := rfl
@[simp] theorem modQueue_rbDone : (modQueue s n f).rbDone = s.rbDone := rfl
@[simp] theorem modQueue_rebasing : (modQueue s n f).rebasing = s.rebasing := rfl
@[simp] theorem modQueue_kilncmd : (modQueue s n f).kilncmd = s.kilncmd := rfl
@[simp] theorem modQueue_kilnStatus : (modQueue s n f).kilnStatus = s.kilnStatus := rfl
@[simp] theorem modQueue_kilnBytes : (modQueue s n f).kilnBytes = s.kilnBytes := rfl
@[simp] theorem modQueue_kiln : (modQueue s n f).kiln = s.kiln := rfl
@[simp] theorem modQueue_err : (modQueue s n f).err = s.err := rfl
@[simp] theorem modQueue_errq : (modQueue s n f).errq = s.errq := rfl
@[simp] theorem modQueue_logq : (modQueue s n f).logq = s.logq := rfl
@[simp] theorem modQueue_host : (modQueue s n f).host = s.host := rfl
@[simp] theorem modQueue_cur : (modQueue s n f).cur = s.cur := rfl
@[simp] theorem modQueue_agenda : (modQueue s n f).agenda = s.agenda := rfl
@[simp] theorem modQueue_xlFloor : (modQueue s n f).xlFloor = s.xlFloor := rfl
@[simp] theorem modQueue_xlSince : (modQueue s n f).xlSince = s.xlSince := rfl
@[simp] theorem modQueue_cycle : (modQueue s n f).cycle = s.cycle := rfl
@[simp] theorem modQueue_chosen : (modQueue s n f).chosen = s.chosen := rfl
@[simp] theorem modQueue_ready : (modQueue s n f).ready = s.ready := rfl
@[simp] theorem modQueue_free : (modQueue s n f).free = s.free := rfl
@[simp] theorem modQueue_nextId : (modQueue s n f).nextId = s.nextId := rfl
@[simp] theorem modQueue_get_team (u : Nat) : (modQueue s n f).team u = s.team u := rfl
@[simp] theorem modQueue_get_core (u : Nat) : (modQueue s n f).core u = s.core u := rfl
@[simp] theorem modQueue_get_stack (u : Nat) : (modQueue s n f).stack u = s.stack u := rfl

end

/-! ### modStack -/

section

variable (s : State) (n : Nat) (f : Stack → Stack)

@[simp] theorem modStack_mem : (s.modStack n f).mem = s.mem := rfl
@[simp] theorem modStack_tags : (s.modStack n f).tags = s.tags := rfl
@[simp] theorem modStack_teams : (s.modStack n f).teams = s.teams := rfl
@[simp] theorem modStack_crews : (s.modStack n f).crews = s.crews := rfl
@[simp] theorem modStack_clusters : (s.modStack n f).clusters = s.clusters := rfl
@[simp] theorem modStack_launches : (s.modStack n f).launches = s.launches := rfl
@[simp] theorem modStack_contexts : (s.modStack n f).contexts = s.contexts := rfl
@[simp] theorem modStack_queues : (s.modStack n f).queues = s.queues := rfl
@[simp] theorem modStack_cores : (s.modStack n f).cores = s.cores := rfl
@[simp] theorem modStack_ops : (s.modStack n f).ops = s.ops := rfl
@[simp] theorem modStack_cmds : (s.modStack n f).cmds = s.cmds := rfl
@[simp] theorem modStack_clocks : (s.modStack n f).clocks = s.clocks := rfl
@[simp] theorem modStack_sectors : (s.modStack n f).sectors = s.sectors := rfl
@[simp] theorem modStack_homeq : (s.modStack n f).homeq = s.homeq := rfl
@[simp] theorem modStack_lees : (s.modStack n f).lees = s.lees := rfl
@[simp] theorem modStack_leesHead : (s.modStack n f).leesHead = s.leesHead := rfl
@[simp] theorem modStack_press : (s.modStack n f).press = s.press := rfl
@[simp] theorem modStack_horizon : (s.modStack n f).horizon = s.horizon := rfl
@[simp] theorem modStack_lpins : (s.modStack n f).lpins = s.lpins := rfl
@[simp] theorem modStack_gpins : (s.modStack n f).gpins = s.gpins := rfl
@[simp] theorem modStack_nextGen : (s.modStack n f).nextGen = s.nextGen := rfl
@[simp] theorem modStack_boundary : (s.modStack n f).boundary = s.boundary := rfl
@[simp] theorem modStack_blocks : (s.modStack n f).blocks = s.blocks := rfl
@[simp] theorem modStack_tracked : (s.modStack n f).tracked = s.tracked := rfl
@[simp] theorem modStack_counters : (s.modStack n f).counters = s.counters := rfl
@[simp] theorem modStack_groups : (s.modStack n f).groups = s.groups := rfl
@[simp] theorem modStack_ctu : (s.modStack n f).ctu = s.ctu := rfl
@[simp] theorem modStack_pgmaps : (s.modStack n f).pgmaps = s.pgmaps := rfl
@[simp] theorem modStack_scFloor : (s.modStack n f).scFloor = s.scFloor := rfl
@[simp] theorem modStack_dirty : (s.modStack n f).dirty = s.dirty := rfl
@[simp] theorem modStack_cxl : (s.modStack n f).cxl = s.cxl := rfl
@[simp] theorem modStack_hostHeld : (s.modStack n f).hostHeld = s.hostHeld := rfl
@[simp] theorem modStack_owners : (s.modStack n f).owners = s.owners := rfl
@[simp] theorem modStack_reader : (s.modStack n f).reader = s.reader := rfl
@[simp] theorem modStack_shared : (s.modStack n f).shared = s.shared := rfl
@[simp] theorem modStack_flips : (s.modStack n f).flips = s.flips := rfl
@[simp] theorem modStack_poison : (s.modStack n f).poison = s.poison := rfl
@[simp] theorem modStack_pcq : (s.modStack n f).pcq = s.pcq := rfl
@[simp] theorem modStack_corr : (s.modStack n f).corr = s.corr := rfl
@[simp] theorem modStack_stk : (s.modStack n f).stk = smSet Stack.zero s.stk n (f (s.stack n)) := rfl
@[simp] theorem modStack_readyCore : (s.modStack n f).readyCore = s.readyCore := rfl
@[simp] theorem modStack_readyStack : (s.modStack n f).readyStack = s.readyStack := rfl
@[simp] theorem modStack_readyGroup : (s.modStack n f).readyGroup = s.readyGroup := rfl
@[simp] theorem modStack_readyIo : (s.modStack n f).readyIo = s.readyIo := rfl
@[simp] theorem modStack_leesNext : (s.modStack n f).leesNext = s.leesNext := rfl
@[simp] theorem modStack_leesMode : (s.modStack n f).leesMode = s.leesMode := rfl
@[simp] theorem modStack_stampLow : (s.modStack n f).stampLow = s.stampLow := rfl
@[simp] theorem modStack_rbRefuse : (s.modStack n f).rbRefuse = s.rbRefuse := rfl
@[simp] theorem modStack_rbDone : (s.modStack n f).rbDone = s.rbDone := rfl
@[simp] theorem modStack_rebasing : (s.modStack n f).rebasing = s.rebasing := rfl
@[simp] theorem modStack_kilncmd : (s.modStack n f).kilncmd = s.kilncmd := rfl
@[simp] theorem modStack_kilnStatus : (s.modStack n f).kilnStatus = s.kilnStatus := rfl
@[simp] theorem modStack_kilnBytes : (s.modStack n f).kilnBytes = s.kilnBytes := rfl
@[simp] theorem modStack_kiln : (s.modStack n f).kiln = s.kiln := rfl
@[simp] theorem modStack_err : (s.modStack n f).err = s.err := rfl
@[simp] theorem modStack_errq : (s.modStack n f).errq = s.errq := rfl
@[simp] theorem modStack_logq : (s.modStack n f).logq = s.logq := rfl
@[simp] theorem modStack_host : (s.modStack n f).host = s.host := rfl
@[simp] theorem modStack_cur : (s.modStack n f).cur = s.cur := rfl
@[simp] theorem modStack_agenda : (s.modStack n f).agenda = s.agenda := rfl
@[simp] theorem modStack_xlFloor : (s.modStack n f).xlFloor = s.xlFloor := rfl
@[simp] theorem modStack_xlSince : (s.modStack n f).xlSince = s.xlSince := rfl
@[simp] theorem modStack_cycle : (s.modStack n f).cycle = s.cycle := rfl
@[simp] theorem modStack_chosen : (s.modStack n f).chosen = s.chosen := rfl
@[simp] theorem modStack_ready : (s.modStack n f).ready = s.ready := rfl
@[simp] theorem modStack_free : (s.modStack n f).free = s.free := rfl
@[simp] theorem modStack_nextId : (s.modStack n f).nextId = s.nextId := rfl
@[simp] theorem modStack_get_team (u : Nat) : (s.modStack n f).team u = s.team u := rfl
@[simp] theorem modStack_get_core (u : Nat) : (s.modStack n f).core u = s.core u := rfl
@[simp] theorem modStack_get_queue (u : Nat) : (s.modStack n f).queue u = s.queue u := rfl

end

/-! ### modOp -/

section

variable (s : State) (n : Nat) (f : Op → Op)

@[simp] theorem modOp_mem : (modOp s n f).mem = s.mem := rfl
@[simp] theorem modOp_tags : (modOp s n f).tags = s.tags := rfl
@[simp] theorem modOp_teams : (modOp s n f).teams = s.teams := rfl
@[simp] theorem modOp_crews : (modOp s n f).crews = s.crews := rfl
@[simp] theorem modOp_clusters : (modOp s n f).clusters = s.clusters := rfl
@[simp] theorem modOp_launches : (modOp s n f).launches = s.launches := rfl
@[simp] theorem modOp_contexts : (modOp s n f).contexts = s.contexts := rfl
@[simp] theorem modOp_queues : (modOp s n f).queues = s.queues := rfl
@[simp] theorem modOp_cores : (modOp s n f).cores = s.cores := rfl
@[simp] theorem modOp_ops : (modOp s n f).ops = tbMod s.ops n f := rfl
@[simp] theorem modOp_cmds : (modOp s n f).cmds = s.cmds := rfl
@[simp] theorem modOp_clocks : (modOp s n f).clocks = s.clocks := rfl
@[simp] theorem modOp_sectors : (modOp s n f).sectors = s.sectors := rfl
@[simp] theorem modOp_homeq : (modOp s n f).homeq = s.homeq := rfl
@[simp] theorem modOp_lees : (modOp s n f).lees = s.lees := rfl
@[simp] theorem modOp_leesHead : (modOp s n f).leesHead = s.leesHead := rfl
@[simp] theorem modOp_press : (modOp s n f).press = s.press := rfl
@[simp] theorem modOp_horizon : (modOp s n f).horizon = s.horizon := rfl
@[simp] theorem modOp_lpins : (modOp s n f).lpins = s.lpins := rfl
@[simp] theorem modOp_gpins : (modOp s n f).gpins = s.gpins := rfl
@[simp] theorem modOp_nextGen : (modOp s n f).nextGen = s.nextGen := rfl
@[simp] theorem modOp_boundary : (modOp s n f).boundary = s.boundary := rfl
@[simp] theorem modOp_blocks : (modOp s n f).blocks = s.blocks := rfl
@[simp] theorem modOp_tracked : (modOp s n f).tracked = s.tracked := rfl
@[simp] theorem modOp_counters : (modOp s n f).counters = s.counters := rfl
@[simp] theorem modOp_groups : (modOp s n f).groups = s.groups := rfl
@[simp] theorem modOp_ctu : (modOp s n f).ctu = s.ctu := rfl
@[simp] theorem modOp_pgmaps : (modOp s n f).pgmaps = s.pgmaps := rfl
@[simp] theorem modOp_scFloor : (modOp s n f).scFloor = s.scFloor := rfl
@[simp] theorem modOp_dirty : (modOp s n f).dirty = s.dirty := rfl
@[simp] theorem modOp_cxl : (modOp s n f).cxl = s.cxl := rfl
@[simp] theorem modOp_hostHeld : (modOp s n f).hostHeld = s.hostHeld := rfl
@[simp] theorem modOp_owners : (modOp s n f).owners = s.owners := rfl
@[simp] theorem modOp_reader : (modOp s n f).reader = s.reader := rfl
@[simp] theorem modOp_shared : (modOp s n f).shared = s.shared := rfl
@[simp] theorem modOp_flips : (modOp s n f).flips = s.flips := rfl
@[simp] theorem modOp_poison : (modOp s n f).poison = s.poison := rfl
@[simp] theorem modOp_pcq : (modOp s n f).pcq = s.pcq := rfl
@[simp] theorem modOp_corr : (modOp s n f).corr = s.corr := rfl
@[simp] theorem modOp_stk : (modOp s n f).stk = s.stk := rfl
@[simp] theorem modOp_readyCore : (modOp s n f).readyCore = s.readyCore := rfl
@[simp] theorem modOp_readyStack : (modOp s n f).readyStack = s.readyStack := rfl
@[simp] theorem modOp_readyGroup : (modOp s n f).readyGroup = s.readyGroup := rfl
@[simp] theorem modOp_readyIo : (modOp s n f).readyIo = s.readyIo := rfl
@[simp] theorem modOp_leesNext : (modOp s n f).leesNext = s.leesNext := rfl
@[simp] theorem modOp_leesMode : (modOp s n f).leesMode = s.leesMode := rfl
@[simp] theorem modOp_stampLow : (modOp s n f).stampLow = s.stampLow := rfl
@[simp] theorem modOp_rbRefuse : (modOp s n f).rbRefuse = s.rbRefuse := rfl
@[simp] theorem modOp_rbDone : (modOp s n f).rbDone = s.rbDone := rfl
@[simp] theorem modOp_rebasing : (modOp s n f).rebasing = s.rebasing := rfl
@[simp] theorem modOp_kilncmd : (modOp s n f).kilncmd = s.kilncmd := rfl
@[simp] theorem modOp_kilnStatus : (modOp s n f).kilnStatus = s.kilnStatus := rfl
@[simp] theorem modOp_kilnBytes : (modOp s n f).kilnBytes = s.kilnBytes := rfl
@[simp] theorem modOp_kiln : (modOp s n f).kiln = s.kiln := rfl
@[simp] theorem modOp_err : (modOp s n f).err = s.err := rfl
@[simp] theorem modOp_errq : (modOp s n f).errq = s.errq := rfl
@[simp] theorem modOp_logq : (modOp s n f).logq = s.logq := rfl
@[simp] theorem modOp_host : (modOp s n f).host = s.host := rfl
@[simp] theorem modOp_cur : (modOp s n f).cur = s.cur := rfl
@[simp] theorem modOp_agenda : (modOp s n f).agenda = s.agenda := rfl
@[simp] theorem modOp_xlFloor : (modOp s n f).xlFloor = s.xlFloor := rfl
@[simp] theorem modOp_xlSince : (modOp s n f).xlSince = s.xlSince := rfl
@[simp] theorem modOp_cycle : (modOp s n f).cycle = s.cycle := rfl
@[simp] theorem modOp_chosen : (modOp s n f).chosen = s.chosen := rfl
@[simp] theorem modOp_ready : (modOp s n f).ready = s.ready := rfl
@[simp] theorem modOp_free : (modOp s n f).free = s.free := rfl
@[simp] theorem modOp_nextId : (modOp s n f).nextId = s.nextId := rfl
@[simp] theorem modOp_get_team (u : Nat) : (modOp s n f).team u = s.team u := rfl
@[simp] theorem modOp_get_core (u : Nat) : (modOp s n f).core u = s.core u := rfl
@[simp] theorem modOp_get_queue (u : Nat) : (modOp s n f).queue u = s.queue u := rfl
@[simp] theorem modOp_get_stack (u : Nat) : (modOp s n f).stack u = s.stack u := rfl

end

/-! ### modCmd -/

section

variable (s : State) (n : Nat) (f : Cmd → Cmd)

@[simp] theorem modCmd_mem : (modCmd s n f).mem = s.mem := rfl
@[simp] theorem modCmd_tags : (modCmd s n f).tags = s.tags := rfl
@[simp] theorem modCmd_teams : (modCmd s n f).teams = s.teams := rfl
@[simp] theorem modCmd_crews : (modCmd s n f).crews = s.crews := rfl
@[simp] theorem modCmd_clusters : (modCmd s n f).clusters = s.clusters := rfl
@[simp] theorem modCmd_launches : (modCmd s n f).launches = s.launches := rfl
@[simp] theorem modCmd_contexts : (modCmd s n f).contexts = s.contexts := rfl
@[simp] theorem modCmd_queues : (modCmd s n f).queues = s.queues := rfl
@[simp] theorem modCmd_cores : (modCmd s n f).cores = s.cores := rfl
@[simp] theorem modCmd_ops : (modCmd s n f).ops = s.ops := rfl
@[simp] theorem modCmd_cmds : (modCmd s n f).cmds = tbMod s.cmds n f := rfl
@[simp] theorem modCmd_clocks : (modCmd s n f).clocks = s.clocks := rfl
@[simp] theorem modCmd_sectors : (modCmd s n f).sectors = s.sectors := rfl
@[simp] theorem modCmd_homeq : (modCmd s n f).homeq = s.homeq := rfl
@[simp] theorem modCmd_lees : (modCmd s n f).lees = s.lees := rfl
@[simp] theorem modCmd_leesHead : (modCmd s n f).leesHead = s.leesHead := rfl
@[simp] theorem modCmd_press : (modCmd s n f).press = s.press := rfl
@[simp] theorem modCmd_horizon : (modCmd s n f).horizon = s.horizon := rfl
@[simp] theorem modCmd_lpins : (modCmd s n f).lpins = s.lpins := rfl
@[simp] theorem modCmd_gpins : (modCmd s n f).gpins = s.gpins := rfl
@[simp] theorem modCmd_nextGen : (modCmd s n f).nextGen = s.nextGen := rfl
@[simp] theorem modCmd_boundary : (modCmd s n f).boundary = s.boundary := rfl
@[simp] theorem modCmd_blocks : (modCmd s n f).blocks = s.blocks := rfl
@[simp] theorem modCmd_tracked : (modCmd s n f).tracked = s.tracked := rfl
@[simp] theorem modCmd_counters : (modCmd s n f).counters = s.counters := rfl
@[simp] theorem modCmd_groups : (modCmd s n f).groups = s.groups := rfl
@[simp] theorem modCmd_ctu : (modCmd s n f).ctu = s.ctu := rfl
@[simp] theorem modCmd_pgmaps : (modCmd s n f).pgmaps = s.pgmaps := rfl
@[simp] theorem modCmd_scFloor : (modCmd s n f).scFloor = s.scFloor := rfl
@[simp] theorem modCmd_dirty : (modCmd s n f).dirty = s.dirty := rfl
@[simp] theorem modCmd_cxl : (modCmd s n f).cxl = s.cxl := rfl
@[simp] theorem modCmd_hostHeld : (modCmd s n f).hostHeld = s.hostHeld := rfl
@[simp] theorem modCmd_owners : (modCmd s n f).owners = s.owners := rfl
@[simp] theorem modCmd_reader : (modCmd s n f).reader = s.reader := rfl
@[simp] theorem modCmd_shared : (modCmd s n f).shared = s.shared := rfl
@[simp] theorem modCmd_flips : (modCmd s n f).flips = s.flips := rfl
@[simp] theorem modCmd_poison : (modCmd s n f).poison = s.poison := rfl
@[simp] theorem modCmd_pcq : (modCmd s n f).pcq = s.pcq := rfl
@[simp] theorem modCmd_corr : (modCmd s n f).corr = s.corr := rfl
@[simp] theorem modCmd_stk : (modCmd s n f).stk = s.stk := rfl
@[simp] theorem modCmd_readyCore : (modCmd s n f).readyCore = s.readyCore := rfl
@[simp] theorem modCmd_readyStack : (modCmd s n f).readyStack = s.readyStack := rfl
@[simp] theorem modCmd_readyGroup : (modCmd s n f).readyGroup = s.readyGroup := rfl
@[simp] theorem modCmd_readyIo : (modCmd s n f).readyIo = s.readyIo := rfl
@[simp] theorem modCmd_leesNext : (modCmd s n f).leesNext = s.leesNext := rfl
@[simp] theorem modCmd_leesMode : (modCmd s n f).leesMode = s.leesMode := rfl
@[simp] theorem modCmd_stampLow : (modCmd s n f).stampLow = s.stampLow := rfl
@[simp] theorem modCmd_rbRefuse : (modCmd s n f).rbRefuse = s.rbRefuse := rfl
@[simp] theorem modCmd_rbDone : (modCmd s n f).rbDone = s.rbDone := rfl
@[simp] theorem modCmd_rebasing : (modCmd s n f).rebasing = s.rebasing := rfl
@[simp] theorem modCmd_kilncmd : (modCmd s n f).kilncmd = s.kilncmd := rfl
@[simp] theorem modCmd_kilnStatus : (modCmd s n f).kilnStatus = s.kilnStatus := rfl
@[simp] theorem modCmd_kilnBytes : (modCmd s n f).kilnBytes = s.kilnBytes := rfl
@[simp] theorem modCmd_kiln : (modCmd s n f).kiln = s.kiln := rfl
@[simp] theorem modCmd_err : (modCmd s n f).err = s.err := rfl
@[simp] theorem modCmd_errq : (modCmd s n f).errq = s.errq := rfl
@[simp] theorem modCmd_logq : (modCmd s n f).logq = s.logq := rfl
@[simp] theorem modCmd_host : (modCmd s n f).host = s.host := rfl
@[simp] theorem modCmd_cur : (modCmd s n f).cur = s.cur := rfl
@[simp] theorem modCmd_agenda : (modCmd s n f).agenda = s.agenda := rfl
@[simp] theorem modCmd_xlFloor : (modCmd s n f).xlFloor = s.xlFloor := rfl
@[simp] theorem modCmd_xlSince : (modCmd s n f).xlSince = s.xlSince := rfl
@[simp] theorem modCmd_cycle : (modCmd s n f).cycle = s.cycle := rfl
@[simp] theorem modCmd_chosen : (modCmd s n f).chosen = s.chosen := rfl
@[simp] theorem modCmd_ready : (modCmd s n f).ready = s.ready := rfl
@[simp] theorem modCmd_free : (modCmd s n f).free = s.free := rfl
@[simp] theorem modCmd_nextId : (modCmd s n f).nextId = s.nextId := rfl
@[simp] theorem modCmd_get_team (u : Nat) : (modCmd s n f).team u = s.team u := rfl
@[simp] theorem modCmd_get_core (u : Nat) : (modCmd s n f).core u = s.core u := rfl
@[simp] theorem modCmd_get_queue (u : Nat) : (modCmd s n f).queue u = s.queue u := rfl
@[simp] theorem modCmd_get_stack (u : Nat) : (modCmd s n f).stack u = s.stack u := rfl

end

/-! ### modCrew -/

section

variable (s : State) (n : Nat) (f : Crew → Crew)

@[simp] theorem modCrew_mem : (modCrew s n f).mem = s.mem := rfl
@[simp] theorem modCrew_tags : (modCrew s n f).tags = s.tags := rfl
@[simp] theorem modCrew_teams : (modCrew s n f).teams = s.teams := rfl
@[simp] theorem modCrew_crews : (modCrew s n f).crews = tbMod s.crews n f := rfl
@[simp] theorem modCrew_clusters : (modCrew s n f).clusters = s.clusters := rfl
@[simp] theorem modCrew_launches : (modCrew s n f).launches = s.launches := rfl
@[simp] theorem modCrew_contexts : (modCrew s n f).contexts = s.contexts := rfl
@[simp] theorem modCrew_queues : (modCrew s n f).queues = s.queues := rfl
@[simp] theorem modCrew_cores : (modCrew s n f).cores = s.cores := rfl
@[simp] theorem modCrew_ops : (modCrew s n f).ops = s.ops := rfl
@[simp] theorem modCrew_cmds : (modCrew s n f).cmds = s.cmds := rfl
@[simp] theorem modCrew_clocks : (modCrew s n f).clocks = s.clocks := rfl
@[simp] theorem modCrew_sectors : (modCrew s n f).sectors = s.sectors := rfl
@[simp] theorem modCrew_homeq : (modCrew s n f).homeq = s.homeq := rfl
@[simp] theorem modCrew_lees : (modCrew s n f).lees = s.lees := rfl
@[simp] theorem modCrew_leesHead : (modCrew s n f).leesHead = s.leesHead := rfl
@[simp] theorem modCrew_press : (modCrew s n f).press = s.press := rfl
@[simp] theorem modCrew_horizon : (modCrew s n f).horizon = s.horizon := rfl
@[simp] theorem modCrew_lpins : (modCrew s n f).lpins = s.lpins := rfl
@[simp] theorem modCrew_gpins : (modCrew s n f).gpins = s.gpins := rfl
@[simp] theorem modCrew_nextGen : (modCrew s n f).nextGen = s.nextGen := rfl
@[simp] theorem modCrew_boundary : (modCrew s n f).boundary = s.boundary := rfl
@[simp] theorem modCrew_blocks : (modCrew s n f).blocks = s.blocks := rfl
@[simp] theorem modCrew_tracked : (modCrew s n f).tracked = s.tracked := rfl
@[simp] theorem modCrew_counters : (modCrew s n f).counters = s.counters := rfl
@[simp] theorem modCrew_groups : (modCrew s n f).groups = s.groups := rfl
@[simp] theorem modCrew_ctu : (modCrew s n f).ctu = s.ctu := rfl
@[simp] theorem modCrew_pgmaps : (modCrew s n f).pgmaps = s.pgmaps := rfl
@[simp] theorem modCrew_scFloor : (modCrew s n f).scFloor = s.scFloor := rfl
@[simp] theorem modCrew_dirty : (modCrew s n f).dirty = s.dirty := rfl
@[simp] theorem modCrew_cxl : (modCrew s n f).cxl = s.cxl := rfl
@[simp] theorem modCrew_hostHeld : (modCrew s n f).hostHeld = s.hostHeld := rfl
@[simp] theorem modCrew_owners : (modCrew s n f).owners = s.owners := rfl
@[simp] theorem modCrew_reader : (modCrew s n f).reader = s.reader := rfl
@[simp] theorem modCrew_shared : (modCrew s n f).shared = s.shared := rfl
@[simp] theorem modCrew_flips : (modCrew s n f).flips = s.flips := rfl
@[simp] theorem modCrew_poison : (modCrew s n f).poison = s.poison := rfl
@[simp] theorem modCrew_pcq : (modCrew s n f).pcq = s.pcq := rfl
@[simp] theorem modCrew_corr : (modCrew s n f).corr = s.corr := rfl
@[simp] theorem modCrew_stk : (modCrew s n f).stk = s.stk := rfl
@[simp] theorem modCrew_readyCore : (modCrew s n f).readyCore = s.readyCore := rfl
@[simp] theorem modCrew_readyStack : (modCrew s n f).readyStack = s.readyStack := rfl
@[simp] theorem modCrew_readyGroup : (modCrew s n f).readyGroup = s.readyGroup := rfl
@[simp] theorem modCrew_readyIo : (modCrew s n f).readyIo = s.readyIo := rfl
@[simp] theorem modCrew_leesNext : (modCrew s n f).leesNext = s.leesNext := rfl
@[simp] theorem modCrew_leesMode : (modCrew s n f).leesMode = s.leesMode := rfl
@[simp] theorem modCrew_stampLow : (modCrew s n f).stampLow = s.stampLow := rfl
@[simp] theorem modCrew_rbRefuse : (modCrew s n f).rbRefuse = s.rbRefuse := rfl
@[simp] theorem modCrew_rbDone : (modCrew s n f).rbDone = s.rbDone := rfl
@[simp] theorem modCrew_rebasing : (modCrew s n f).rebasing = s.rebasing := rfl
@[simp] theorem modCrew_kilncmd : (modCrew s n f).kilncmd = s.kilncmd := rfl
@[simp] theorem modCrew_kilnStatus : (modCrew s n f).kilnStatus = s.kilnStatus := rfl
@[simp] theorem modCrew_kilnBytes : (modCrew s n f).kilnBytes = s.kilnBytes := rfl
@[simp] theorem modCrew_kiln : (modCrew s n f).kiln = s.kiln := rfl
@[simp] theorem modCrew_err : (modCrew s n f).err = s.err := rfl
@[simp] theorem modCrew_errq : (modCrew s n f).errq = s.errq := rfl
@[simp] theorem modCrew_logq : (modCrew s n f).logq = s.logq := rfl
@[simp] theorem modCrew_host : (modCrew s n f).host = s.host := rfl
@[simp] theorem modCrew_cur : (modCrew s n f).cur = s.cur := rfl
@[simp] theorem modCrew_agenda : (modCrew s n f).agenda = s.agenda := rfl
@[simp] theorem modCrew_xlFloor : (modCrew s n f).xlFloor = s.xlFloor := rfl
@[simp] theorem modCrew_xlSince : (modCrew s n f).xlSince = s.xlSince := rfl
@[simp] theorem modCrew_cycle : (modCrew s n f).cycle = s.cycle := rfl
@[simp] theorem modCrew_chosen : (modCrew s n f).chosen = s.chosen := rfl
@[simp] theorem modCrew_ready : (modCrew s n f).ready = s.ready := rfl
@[simp] theorem modCrew_free : (modCrew s n f).free = s.free := rfl
@[simp] theorem modCrew_nextId : (modCrew s n f).nextId = s.nextId := rfl
@[simp] theorem modCrew_get_team (u : Nat) : (modCrew s n f).team u = s.team u := rfl
@[simp] theorem modCrew_get_core (u : Nat) : (modCrew s n f).core u = s.core u := rfl
@[simp] theorem modCrew_get_queue (u : Nat) : (modCrew s n f).queue u = s.queue u := rfl
@[simp] theorem modCrew_get_stack (u : Nat) : (modCrew s n f).stack u = s.stack u := rfl

end

/-! ### modCounter -/

section

variable (s : State) (n : Nat) (f : Counter → Counter)

@[simp] theorem modCounter_mem : (modCounter s n f).mem = s.mem := rfl
@[simp] theorem modCounter_tags : (modCounter s n f).tags = s.tags := rfl
@[simp] theorem modCounter_teams : (modCounter s n f).teams = s.teams := rfl
@[simp] theorem modCounter_crews : (modCounter s n f).crews = s.crews := rfl
@[simp] theorem modCounter_clusters : (modCounter s n f).clusters = s.clusters := rfl
@[simp] theorem modCounter_launches : (modCounter s n f).launches = s.launches := rfl
@[simp] theorem modCounter_contexts : (modCounter s n f).contexts = s.contexts := rfl
@[simp] theorem modCounter_queues : (modCounter s n f).queues = s.queues := rfl
@[simp] theorem modCounter_cores : (modCounter s n f).cores = s.cores := rfl
@[simp] theorem modCounter_ops : (modCounter s n f).ops = s.ops := rfl
@[simp] theorem modCounter_cmds : (modCounter s n f).cmds = s.cmds := rfl
@[simp] theorem modCounter_clocks : (modCounter s n f).clocks = s.clocks := rfl
@[simp] theorem modCounter_sectors : (modCounter s n f).sectors = s.sectors := rfl
@[simp] theorem modCounter_homeq : (modCounter s n f).homeq = s.homeq := rfl
@[simp] theorem modCounter_lees : (modCounter s n f).lees = s.lees := rfl
@[simp] theorem modCounter_leesHead : (modCounter s n f).leesHead = s.leesHead := rfl
@[simp] theorem modCounter_press : (modCounter s n f).press = s.press := rfl
@[simp] theorem modCounter_horizon : (modCounter s n f).horizon = s.horizon := rfl
@[simp] theorem modCounter_lpins : (modCounter s n f).lpins = s.lpins := rfl
@[simp] theorem modCounter_gpins : (modCounter s n f).gpins = s.gpins := rfl
@[simp] theorem modCounter_nextGen : (modCounter s n f).nextGen = s.nextGen := rfl
@[simp] theorem modCounter_boundary : (modCounter s n f).boundary = s.boundary := rfl
@[simp] theorem modCounter_blocks : (modCounter s n f).blocks = s.blocks := rfl
@[simp] theorem modCounter_tracked : (modCounter s n f).tracked = s.tracked := rfl
@[simp] theorem modCounter_counters : (modCounter s n f).counters = tbMod s.counters n f := rfl
@[simp] theorem modCounter_groups : (modCounter s n f).groups = s.groups := rfl
@[simp] theorem modCounter_ctu : (modCounter s n f).ctu = s.ctu := rfl
@[simp] theorem modCounter_pgmaps : (modCounter s n f).pgmaps = s.pgmaps := rfl
@[simp] theorem modCounter_scFloor : (modCounter s n f).scFloor = s.scFloor := rfl
@[simp] theorem modCounter_dirty : (modCounter s n f).dirty = s.dirty := rfl
@[simp] theorem modCounter_cxl : (modCounter s n f).cxl = s.cxl := rfl
@[simp] theorem modCounter_hostHeld : (modCounter s n f).hostHeld = s.hostHeld := rfl
@[simp] theorem modCounter_owners : (modCounter s n f).owners = s.owners := rfl
@[simp] theorem modCounter_reader : (modCounter s n f).reader = s.reader := rfl
@[simp] theorem modCounter_shared : (modCounter s n f).shared = s.shared := rfl
@[simp] theorem modCounter_flips : (modCounter s n f).flips = s.flips := rfl
@[simp] theorem modCounter_poison : (modCounter s n f).poison = s.poison := rfl
@[simp] theorem modCounter_pcq : (modCounter s n f).pcq = s.pcq := rfl
@[simp] theorem modCounter_corr : (modCounter s n f).corr = s.corr := rfl
@[simp] theorem modCounter_stk : (modCounter s n f).stk = s.stk := rfl
@[simp] theorem modCounter_readyCore : (modCounter s n f).readyCore = s.readyCore := rfl
@[simp] theorem modCounter_readyStack : (modCounter s n f).readyStack = s.readyStack := rfl
@[simp] theorem modCounter_readyGroup : (modCounter s n f).readyGroup = s.readyGroup := rfl
@[simp] theorem modCounter_readyIo : (modCounter s n f).readyIo = s.readyIo := rfl
@[simp] theorem modCounter_leesNext : (modCounter s n f).leesNext = s.leesNext := rfl
@[simp] theorem modCounter_leesMode : (modCounter s n f).leesMode = s.leesMode := rfl
@[simp] theorem modCounter_stampLow : (modCounter s n f).stampLow = s.stampLow := rfl
@[simp] theorem modCounter_rbRefuse : (modCounter s n f).rbRefuse = s.rbRefuse := rfl
@[simp] theorem modCounter_rbDone : (modCounter s n f).rbDone = s.rbDone := rfl
@[simp] theorem modCounter_rebasing : (modCounter s n f).rebasing = s.rebasing := rfl
@[simp] theorem modCounter_kilncmd : (modCounter s n f).kilncmd = s.kilncmd := rfl
@[simp] theorem modCounter_kilnStatus : (modCounter s n f).kilnStatus = s.kilnStatus := rfl
@[simp] theorem modCounter_kilnBytes : (modCounter s n f).kilnBytes = s.kilnBytes := rfl
@[simp] theorem modCounter_kiln : (modCounter s n f).kiln = s.kiln := rfl
@[simp] theorem modCounter_err : (modCounter s n f).err = s.err := rfl
@[simp] theorem modCounter_errq : (modCounter s n f).errq = s.errq := rfl
@[simp] theorem modCounter_logq : (modCounter s n f).logq = s.logq := rfl
@[simp] theorem modCounter_host : (modCounter s n f).host = s.host := rfl
@[simp] theorem modCounter_cur : (modCounter s n f).cur = s.cur := rfl
@[simp] theorem modCounter_agenda : (modCounter s n f).agenda = s.agenda := rfl
@[simp] theorem modCounter_xlFloor : (modCounter s n f).xlFloor = s.xlFloor := rfl
@[simp] theorem modCounter_xlSince : (modCounter s n f).xlSince = s.xlSince := rfl
@[simp] theorem modCounter_cycle : (modCounter s n f).cycle = s.cycle := rfl
@[simp] theorem modCounter_chosen : (modCounter s n f).chosen = s.chosen := rfl
@[simp] theorem modCounter_ready : (modCounter s n f).ready = s.ready := rfl
@[simp] theorem modCounter_free : (modCounter s n f).free = s.free := rfl
@[simp] theorem modCounter_nextId : (modCounter s n f).nextId = s.nextId := rfl
@[simp] theorem modCounter_get_team (u : Nat) : (modCounter s n f).team u = s.team u := rfl
@[simp] theorem modCounter_get_core (u : Nat) : (modCounter s n f).core u = s.core u := rfl
@[simp] theorem modCounter_get_queue (u : Nat) : (modCounter s n f).queue u = s.queue u := rfl
@[simp] theorem modCounter_get_stack (u : Nat) : (modCounter s n f).stack u = s.stack u := rfl

end

/-! ### modErr -/

section

variable (s : State) (f : ErrRing → ErrRing)

@[simp] theorem modErr_mem : (modErr s f).mem = s.mem := rfl
@[simp] theorem modErr_tags : (modErr s f).tags = s.tags := rfl
@[simp] theorem modErr_teams : (modErr s f).teams = s.teams := rfl
@[simp] theorem modErr_crews : (modErr s f).crews = s.crews := rfl
@[simp] theorem modErr_clusters : (modErr s f).clusters = s.clusters := rfl
@[simp] theorem modErr_launches : (modErr s f).launches = s.launches := rfl
@[simp] theorem modErr_contexts : (modErr s f).contexts = s.contexts := rfl
@[simp] theorem modErr_queues : (modErr s f).queues = s.queues := rfl
@[simp] theorem modErr_cores : (modErr s f).cores = s.cores := rfl
@[simp] theorem modErr_ops : (modErr s f).ops = s.ops := rfl
@[simp] theorem modErr_cmds : (modErr s f).cmds = s.cmds := rfl
@[simp] theorem modErr_clocks : (modErr s f).clocks = s.clocks := rfl
@[simp] theorem modErr_sectors : (modErr s f).sectors = s.sectors := rfl
@[simp] theorem modErr_homeq : (modErr s f).homeq = s.homeq := rfl
@[simp] theorem modErr_lees : (modErr s f).lees = s.lees := rfl
@[simp] theorem modErr_leesHead : (modErr s f).leesHead = s.leesHead := rfl
@[simp] theorem modErr_press : (modErr s f).press = s.press := rfl
@[simp] theorem modErr_horizon : (modErr s f).horizon = s.horizon := rfl
@[simp] theorem modErr_lpins : (modErr s f).lpins = s.lpins := rfl
@[simp] theorem modErr_gpins : (modErr s f).gpins = s.gpins := rfl
@[simp] theorem modErr_nextGen : (modErr s f).nextGen = s.nextGen := rfl
@[simp] theorem modErr_boundary : (modErr s f).boundary = s.boundary := rfl
@[simp] theorem modErr_blocks : (modErr s f).blocks = s.blocks := rfl
@[simp] theorem modErr_tracked : (modErr s f).tracked = s.tracked := rfl
@[simp] theorem modErr_counters : (modErr s f).counters = s.counters := rfl
@[simp] theorem modErr_groups : (modErr s f).groups = s.groups := rfl
@[simp] theorem modErr_ctu : (modErr s f).ctu = s.ctu := rfl
@[simp] theorem modErr_pgmaps : (modErr s f).pgmaps = s.pgmaps := rfl
@[simp] theorem modErr_scFloor : (modErr s f).scFloor = s.scFloor := rfl
@[simp] theorem modErr_dirty : (modErr s f).dirty = s.dirty := rfl
@[simp] theorem modErr_cxl : (modErr s f).cxl = s.cxl := rfl
@[simp] theorem modErr_hostHeld : (modErr s f).hostHeld = s.hostHeld := rfl
@[simp] theorem modErr_owners : (modErr s f).owners = s.owners := rfl
@[simp] theorem modErr_reader : (modErr s f).reader = s.reader := rfl
@[simp] theorem modErr_shared : (modErr s f).shared = s.shared := rfl
@[simp] theorem modErr_flips : (modErr s f).flips = s.flips := rfl
@[simp] theorem modErr_poison : (modErr s f).poison = s.poison := rfl
@[simp] theorem modErr_pcq : (modErr s f).pcq = s.pcq := rfl
@[simp] theorem modErr_corr : (modErr s f).corr = s.corr := rfl
@[simp] theorem modErr_stk : (modErr s f).stk = s.stk := rfl
@[simp] theorem modErr_readyCore : (modErr s f).readyCore = s.readyCore := rfl
@[simp] theorem modErr_readyStack : (modErr s f).readyStack = s.readyStack := rfl
@[simp] theorem modErr_readyGroup : (modErr s f).readyGroup = s.readyGroup := rfl
@[simp] theorem modErr_readyIo : (modErr s f).readyIo = s.readyIo := rfl
@[simp] theorem modErr_leesNext : (modErr s f).leesNext = s.leesNext := rfl
@[simp] theorem modErr_leesMode : (modErr s f).leesMode = s.leesMode := rfl
@[simp] theorem modErr_stampLow : (modErr s f).stampLow = s.stampLow := rfl
@[simp] theorem modErr_rbRefuse : (modErr s f).rbRefuse = s.rbRefuse := rfl
@[simp] theorem modErr_rbDone : (modErr s f).rbDone = s.rbDone := rfl
@[simp] theorem modErr_rebasing : (modErr s f).rebasing = s.rebasing := rfl
@[simp] theorem modErr_kilncmd : (modErr s f).kilncmd = s.kilncmd := rfl
@[simp] theorem modErr_kilnStatus : (modErr s f).kilnStatus = s.kilnStatus := rfl
@[simp] theorem modErr_kilnBytes : (modErr s f).kilnBytes = s.kilnBytes := rfl
@[simp] theorem modErr_kiln : (modErr s f).kiln = s.kiln := rfl
@[simp] theorem modErr_err : (modErr s f).err = f s.err := rfl
@[simp] theorem modErr_errq : (modErr s f).errq = s.errq := rfl
@[simp] theorem modErr_logq : (modErr s f).logq = s.logq := rfl
@[simp] theorem modErr_host : (modErr s f).host = s.host := rfl
@[simp] theorem modErr_cur : (modErr s f).cur = s.cur := rfl
@[simp] theorem modErr_agenda : (modErr s f).agenda = s.agenda := rfl
@[simp] theorem modErr_xlFloor : (modErr s f).xlFloor = s.xlFloor := rfl
@[simp] theorem modErr_xlSince : (modErr s f).xlSince = s.xlSince := rfl
@[simp] theorem modErr_cycle : (modErr s f).cycle = s.cycle := rfl
@[simp] theorem modErr_chosen : (modErr s f).chosen = s.chosen := rfl
@[simp] theorem modErr_ready : (modErr s f).ready = s.ready := rfl
@[simp] theorem modErr_free : (modErr s f).free = s.free := rfl
@[simp] theorem modErr_nextId : (modErr s f).nextId = s.nextId := rfl
@[simp] theorem modErr_get_team (u : Nat) : (modErr s f).team u = s.team u := rfl
@[simp] theorem modErr_get_core (u : Nat) : (modErr s f).core u = s.core u := rfl
@[simp] theorem modErr_get_queue (u : Nat) : (modErr s f).queue u = s.queue u := rfl
@[simp] theorem modErr_get_stack (u : Nat) : (modErr s f).stack u = s.stack u := rfl

end

/-! ### modHost -/

section

variable (s : State) (f : HostLink → HostLink)

@[simp] theorem modHost_mem : (modHost s f).mem = s.mem := rfl
@[simp] theorem modHost_tags : (modHost s f).tags = s.tags := rfl
@[simp] theorem modHost_teams : (modHost s f).teams = s.teams := rfl
@[simp] theorem modHost_crews : (modHost s f).crews = s.crews := rfl
@[simp] theorem modHost_clusters : (modHost s f).clusters = s.clusters := rfl
@[simp] theorem modHost_launches : (modHost s f).launches = s.launches := rfl
@[simp] theorem modHost_contexts : (modHost s f).contexts = s.contexts := rfl
@[simp] theorem modHost_queues : (modHost s f).queues = s.queues := rfl
@[simp] theorem modHost_cores : (modHost s f).cores = s.cores := rfl
@[simp] theorem modHost_ops : (modHost s f).ops = s.ops := rfl
@[simp] theorem modHost_cmds : (modHost s f).cmds = s.cmds := rfl
@[simp] theorem modHost_clocks : (modHost s f).clocks = s.clocks := rfl
@[simp] theorem modHost_sectors : (modHost s f).sectors = s.sectors := rfl
@[simp] theorem modHost_homeq : (modHost s f).homeq = s.homeq := rfl
@[simp] theorem modHost_lees : (modHost s f).lees = s.lees := rfl
@[simp] theorem modHost_leesHead : (modHost s f).leesHead = s.leesHead := rfl
@[simp] theorem modHost_press : (modHost s f).press = s.press := rfl
@[simp] theorem modHost_horizon : (modHost s f).horizon = s.horizon := rfl
@[simp] theorem modHost_lpins : (modHost s f).lpins = s.lpins := rfl
@[simp] theorem modHost_gpins : (modHost s f).gpins = s.gpins := rfl
@[simp] theorem modHost_nextGen : (modHost s f).nextGen = s.nextGen := rfl
@[simp] theorem modHost_boundary : (modHost s f).boundary = s.boundary := rfl
@[simp] theorem modHost_blocks : (modHost s f).blocks = s.blocks := rfl
@[simp] theorem modHost_tracked : (modHost s f).tracked = s.tracked := rfl
@[simp] theorem modHost_counters : (modHost s f).counters = s.counters := rfl
@[simp] theorem modHost_groups : (modHost s f).groups = s.groups := rfl
@[simp] theorem modHost_ctu : (modHost s f).ctu = s.ctu := rfl
@[simp] theorem modHost_pgmaps : (modHost s f).pgmaps = s.pgmaps := rfl
@[simp] theorem modHost_scFloor : (modHost s f).scFloor = s.scFloor := rfl
@[simp] theorem modHost_dirty : (modHost s f).dirty = s.dirty := rfl
@[simp] theorem modHost_cxl : (modHost s f).cxl = s.cxl := rfl
@[simp] theorem modHost_hostHeld : (modHost s f).hostHeld = s.hostHeld := rfl
@[simp] theorem modHost_owners : (modHost s f).owners = s.owners := rfl
@[simp] theorem modHost_reader : (modHost s f).reader = s.reader := rfl
@[simp] theorem modHost_shared : (modHost s f).shared = s.shared := rfl
@[simp] theorem modHost_flips : (modHost s f).flips = s.flips := rfl
@[simp] theorem modHost_poison : (modHost s f).poison = s.poison := rfl
@[simp] theorem modHost_pcq : (modHost s f).pcq = s.pcq := rfl
@[simp] theorem modHost_corr : (modHost s f).corr = s.corr := rfl
@[simp] theorem modHost_stk : (modHost s f).stk = s.stk := rfl
@[simp] theorem modHost_readyCore : (modHost s f).readyCore = s.readyCore := rfl
@[simp] theorem modHost_readyStack : (modHost s f).readyStack = s.readyStack := rfl
@[simp] theorem modHost_readyGroup : (modHost s f).readyGroup = s.readyGroup := rfl
@[simp] theorem modHost_readyIo : (modHost s f).readyIo = s.readyIo := rfl
@[simp] theorem modHost_leesNext : (modHost s f).leesNext = s.leesNext := rfl
@[simp] theorem modHost_leesMode : (modHost s f).leesMode = s.leesMode := rfl
@[simp] theorem modHost_stampLow : (modHost s f).stampLow = s.stampLow := rfl
@[simp] theorem modHost_rbRefuse : (modHost s f).rbRefuse = s.rbRefuse := rfl
@[simp] theorem modHost_rbDone : (modHost s f).rbDone = s.rbDone := rfl
@[simp] theorem modHost_rebasing : (modHost s f).rebasing = s.rebasing := rfl
@[simp] theorem modHost_kilncmd : (modHost s f).kilncmd = s.kilncmd := rfl
@[simp] theorem modHost_kilnStatus : (modHost s f).kilnStatus = s.kilnStatus := rfl
@[simp] theorem modHost_kilnBytes : (modHost s f).kilnBytes = s.kilnBytes := rfl
@[simp] theorem modHost_kiln : (modHost s f).kiln = s.kiln := rfl
@[simp] theorem modHost_err : (modHost s f).err = s.err := rfl
@[simp] theorem modHost_errq : (modHost s f).errq = s.errq := rfl
@[simp] theorem modHost_logq : (modHost s f).logq = s.logq := rfl
@[simp] theorem modHost_host : (modHost s f).host = f s.host := rfl
@[simp] theorem modHost_cur : (modHost s f).cur = s.cur := rfl
@[simp] theorem modHost_agenda : (modHost s f).agenda = s.agenda := rfl
@[simp] theorem modHost_xlFloor : (modHost s f).xlFloor = s.xlFloor := rfl
@[simp] theorem modHost_xlSince : (modHost s f).xlSince = s.xlSince := rfl
@[simp] theorem modHost_cycle : (modHost s f).cycle = s.cycle := rfl
@[simp] theorem modHost_chosen : (modHost s f).chosen = s.chosen := rfl
@[simp] theorem modHost_ready : (modHost s f).ready = s.ready := rfl
@[simp] theorem modHost_free : (modHost s f).free = s.free := rfl
@[simp] theorem modHost_nextId : (modHost s f).nextId = s.nextId := rfl
@[simp] theorem modHost_get_team (u : Nat) : (modHost s f).team u = s.team u := rfl
@[simp] theorem modHost_get_core (u : Nat) : (modHost s f).core u = s.core u := rfl
@[simp] theorem modHost_get_queue (u : Nat) : (modHost s f).queue u = s.queue u := rfl
@[simp] theorem modHost_get_stack (u : Nat) : (modHost s f).stack u = s.stack u := rfl

end

/-! ### memSet -/

section

variable (s : State) (k : Nat) (b : Byte)

@[simp] theorem memSet_mem : (memSet s k b).mem = smSet 0 s.mem k b := rfl
@[simp] theorem memSet_tags : (memSet s k b).tags = s.tags := rfl
@[simp] theorem memSet_teams : (memSet s k b).teams = s.teams := rfl
@[simp] theorem memSet_crews : (memSet s k b).crews = s.crews := rfl
@[simp] theorem memSet_clusters : (memSet s k b).clusters = s.clusters := rfl
@[simp] theorem memSet_launches : (memSet s k b).launches = s.launches := rfl
@[simp] theorem memSet_contexts : (memSet s k b).contexts = s.contexts := rfl
@[simp] theorem memSet_queues : (memSet s k b).queues = s.queues := rfl
@[simp] theorem memSet_cores : (memSet s k b).cores = s.cores := rfl
@[simp] theorem memSet_ops : (memSet s k b).ops = s.ops := rfl
@[simp] theorem memSet_cmds : (memSet s k b).cmds = s.cmds := rfl
@[simp] theorem memSet_clocks : (memSet s k b).clocks = s.clocks := rfl
@[simp] theorem memSet_sectors : (memSet s k b).sectors = s.sectors := rfl
@[simp] theorem memSet_homeq : (memSet s k b).homeq = s.homeq := rfl
@[simp] theorem memSet_lees : (memSet s k b).lees = s.lees := rfl
@[simp] theorem memSet_leesHead : (memSet s k b).leesHead = s.leesHead := rfl
@[simp] theorem memSet_press : (memSet s k b).press = s.press := rfl
@[simp] theorem memSet_horizon : (memSet s k b).horizon = s.horizon := rfl
@[simp] theorem memSet_lpins : (memSet s k b).lpins = s.lpins := rfl
@[simp] theorem memSet_gpins : (memSet s k b).gpins = s.gpins := rfl
@[simp] theorem memSet_nextGen : (memSet s k b).nextGen = s.nextGen := rfl
@[simp] theorem memSet_boundary : (memSet s k b).boundary = s.boundary := rfl
@[simp] theorem memSet_blocks : (memSet s k b).blocks = s.blocks := rfl
@[simp] theorem memSet_tracked : (memSet s k b).tracked = s.tracked := rfl
@[simp] theorem memSet_counters : (memSet s k b).counters = s.counters := rfl
@[simp] theorem memSet_groups : (memSet s k b).groups = s.groups := rfl
@[simp] theorem memSet_ctu : (memSet s k b).ctu = s.ctu := rfl
@[simp] theorem memSet_pgmaps : (memSet s k b).pgmaps = s.pgmaps := rfl
@[simp] theorem memSet_scFloor : (memSet s k b).scFloor = s.scFloor := rfl
@[simp] theorem memSet_dirty : (memSet s k b).dirty = s.dirty := rfl
@[simp] theorem memSet_cxl : (memSet s k b).cxl = s.cxl := rfl
@[simp] theorem memSet_hostHeld : (memSet s k b).hostHeld = s.hostHeld := rfl
@[simp] theorem memSet_owners : (memSet s k b).owners = s.owners := rfl
@[simp] theorem memSet_reader : (memSet s k b).reader = s.reader := rfl
@[simp] theorem memSet_shared : (memSet s k b).shared = s.shared := rfl
@[simp] theorem memSet_flips : (memSet s k b).flips = s.flips := rfl
@[simp] theorem memSet_poison : (memSet s k b).poison = s.poison := rfl
@[simp] theorem memSet_pcq : (memSet s k b).pcq = s.pcq := rfl
@[simp] theorem memSet_corr : (memSet s k b).corr = s.corr := rfl
@[simp] theorem memSet_stk : (memSet s k b).stk = s.stk := rfl
@[simp] theorem memSet_readyCore : (memSet s k b).readyCore = s.readyCore := rfl
@[simp] theorem memSet_readyStack : (memSet s k b).readyStack = s.readyStack := rfl
@[simp] theorem memSet_readyGroup : (memSet s k b).readyGroup = s.readyGroup := rfl
@[simp] theorem memSet_readyIo : (memSet s k b).readyIo = s.readyIo := rfl
@[simp] theorem memSet_leesNext : (memSet s k b).leesNext = s.leesNext := rfl
@[simp] theorem memSet_leesMode : (memSet s k b).leesMode = s.leesMode := rfl
@[simp] theorem memSet_stampLow : (memSet s k b).stampLow = s.stampLow := rfl
@[simp] theorem memSet_rbRefuse : (memSet s k b).rbRefuse = s.rbRefuse := rfl
@[simp] theorem memSet_rbDone : (memSet s k b).rbDone = s.rbDone := rfl
@[simp] theorem memSet_rebasing : (memSet s k b).rebasing = s.rebasing := rfl
@[simp] theorem memSet_kilncmd : (memSet s k b).kilncmd = s.kilncmd := rfl
@[simp] theorem memSet_kilnStatus : (memSet s k b).kilnStatus = s.kilnStatus := rfl
@[simp] theorem memSet_kilnBytes : (memSet s k b).kilnBytes = s.kilnBytes := rfl
@[simp] theorem memSet_kiln : (memSet s k b).kiln = s.kiln := rfl
@[simp] theorem memSet_err : (memSet s k b).err = s.err := rfl
@[simp] theorem memSet_errq : (memSet s k b).errq = s.errq := rfl
@[simp] theorem memSet_logq : (memSet s k b).logq = s.logq := rfl
@[simp] theorem memSet_host : (memSet s k b).host = s.host := rfl
@[simp] theorem memSet_cur : (memSet s k b).cur = s.cur := rfl
@[simp] theorem memSet_agenda : (memSet s k b).agenda = s.agenda := rfl
@[simp] theorem memSet_xlFloor : (memSet s k b).xlFloor = s.xlFloor := rfl
@[simp] theorem memSet_xlSince : (memSet s k b).xlSince = s.xlSince := rfl
@[simp] theorem memSet_cycle : (memSet s k b).cycle = s.cycle := rfl
@[simp] theorem memSet_chosen : (memSet s k b).chosen = s.chosen := rfl
@[simp] theorem memSet_ready : (memSet s k b).ready = s.ready := rfl
@[simp] theorem memSet_free : (memSet s k b).free = s.free := rfl
@[simp] theorem memSet_nextId : (memSet s k b).nextId = s.nextId := rfl
@[simp] theorem memSet_get_team (u : Nat) : (memSet s k b).team u = s.team u := rfl
@[simp] theorem memSet_get_core (u : Nat) : (memSet s k b).core u = s.core u := rfl
@[simp] theorem memSet_get_queue (u : Nat) : (memSet s k b).queue u = s.queue u := rfl
@[simp] theorem memSet_get_stack (u : Nat) : (memSet s k b).stack u = s.stack u := rfl

end

/-! ### pushErr -/

section

variable (s : State) (r : ErrRec)

@[simp] theorem pushErr_mem : (pushErr s r).mem = s.mem := rfl
@[simp] theorem pushErr_tags : (pushErr s r).tags = s.tags := rfl
@[simp] theorem pushErr_teams : (pushErr s r).teams = s.teams := rfl
@[simp] theorem pushErr_crews : (pushErr s r).crews = s.crews := rfl
@[simp] theorem pushErr_clusters : (pushErr s r).clusters = s.clusters := rfl
@[simp] theorem pushErr_launches : (pushErr s r).launches = s.launches := rfl
@[simp] theorem pushErr_contexts : (pushErr s r).contexts = s.contexts := rfl
@[simp] theorem pushErr_queues : (pushErr s r).queues = s.queues := rfl
@[simp] theorem pushErr_cores : (pushErr s r).cores = s.cores := rfl
@[simp] theorem pushErr_ops : (pushErr s r).ops = s.ops := rfl
@[simp] theorem pushErr_cmds : (pushErr s r).cmds = s.cmds := rfl
@[simp] theorem pushErr_clocks : (pushErr s r).clocks = s.clocks := rfl
@[simp] theorem pushErr_sectors : (pushErr s r).sectors = s.sectors := rfl
@[simp] theorem pushErr_homeq : (pushErr s r).homeq = s.homeq := rfl
@[simp] theorem pushErr_lees : (pushErr s r).lees = s.lees := rfl
@[simp] theorem pushErr_leesHead : (pushErr s r).leesHead = s.leesHead := rfl
@[simp] theorem pushErr_press : (pushErr s r).press = s.press := rfl
@[simp] theorem pushErr_horizon : (pushErr s r).horizon = s.horizon := rfl
@[simp] theorem pushErr_lpins : (pushErr s r).lpins = s.lpins := rfl
@[simp] theorem pushErr_gpins : (pushErr s r).gpins = s.gpins := rfl
@[simp] theorem pushErr_nextGen : (pushErr s r).nextGen = s.nextGen := rfl
@[simp] theorem pushErr_boundary : (pushErr s r).boundary = s.boundary := rfl
@[simp] theorem pushErr_blocks : (pushErr s r).blocks = s.blocks := rfl
@[simp] theorem pushErr_tracked : (pushErr s r).tracked = s.tracked := rfl
@[simp] theorem pushErr_counters : (pushErr s r).counters = s.counters := rfl
@[simp] theorem pushErr_groups : (pushErr s r).groups = s.groups := rfl
@[simp] theorem pushErr_ctu : (pushErr s r).ctu = s.ctu := rfl
@[simp] theorem pushErr_pgmaps : (pushErr s r).pgmaps = s.pgmaps := rfl
@[simp] theorem pushErr_scFloor : (pushErr s r).scFloor = s.scFloor := rfl
@[simp] theorem pushErr_dirty : (pushErr s r).dirty = s.dirty := rfl
@[simp] theorem pushErr_cxl : (pushErr s r).cxl = s.cxl := rfl
@[simp] theorem pushErr_hostHeld : (pushErr s r).hostHeld = s.hostHeld := rfl
@[simp] theorem pushErr_owners : (pushErr s r).owners = s.owners := rfl
@[simp] theorem pushErr_reader : (pushErr s r).reader = s.reader := rfl
@[simp] theorem pushErr_shared : (pushErr s r).shared = s.shared := rfl
@[simp] theorem pushErr_flips : (pushErr s r).flips = s.flips := rfl
@[simp] theorem pushErr_poison : (pushErr s r).poison = s.poison := rfl
@[simp] theorem pushErr_pcq : (pushErr s r).pcq = s.pcq := rfl
@[simp] theorem pushErr_corr : (pushErr s r).corr = s.corr := rfl
@[simp] theorem pushErr_stk : (pushErr s r).stk = s.stk := rfl
@[simp] theorem pushErr_readyCore : (pushErr s r).readyCore = s.readyCore := rfl
@[simp] theorem pushErr_readyStack : (pushErr s r).readyStack = s.readyStack := rfl
@[simp] theorem pushErr_readyGroup : (pushErr s r).readyGroup = s.readyGroup := rfl
@[simp] theorem pushErr_readyIo : (pushErr s r).readyIo = s.readyIo := rfl
@[simp] theorem pushErr_leesNext : (pushErr s r).leesNext = s.leesNext := rfl
@[simp] theorem pushErr_leesMode : (pushErr s r).leesMode = s.leesMode := rfl
@[simp] theorem pushErr_stampLow : (pushErr s r).stampLow = s.stampLow := rfl
@[simp] theorem pushErr_rbRefuse : (pushErr s r).rbRefuse = s.rbRefuse := rfl
@[simp] theorem pushErr_rbDone : (pushErr s r).rbDone = s.rbDone := rfl
@[simp] theorem pushErr_rebasing : (pushErr s r).rebasing = s.rebasing := rfl
@[simp] theorem pushErr_kilncmd : (pushErr s r).kilncmd = s.kilncmd := rfl
@[simp] theorem pushErr_kilnStatus : (pushErr s r).kilnStatus = s.kilnStatus := rfl
@[simp] theorem pushErr_kilnBytes : (pushErr s r).kilnBytes = s.kilnBytes := rfl
@[simp] theorem pushErr_kiln : (pushErr s r).kiln = s.kiln := rfl
@[simp] theorem pushErr_err : (pushErr s r).err = s.err := rfl
@[simp] theorem pushErr_errq : (pushErr s r).errq = s.errq ++ [r] := rfl
@[simp] theorem pushErr_logq : (pushErr s r).logq = s.logq := rfl
@[simp] theorem pushErr_host : (pushErr s r).host = s.host := rfl
@[simp] theorem pushErr_cur : (pushErr s r).cur = s.cur := rfl
@[simp] theorem pushErr_agenda : (pushErr s r).agenda = s.agenda := rfl
@[simp] theorem pushErr_xlFloor : (pushErr s r).xlFloor = s.xlFloor := rfl
@[simp] theorem pushErr_xlSince : (pushErr s r).xlSince = s.xlSince := rfl
@[simp] theorem pushErr_cycle : (pushErr s r).cycle = s.cycle := rfl
@[simp] theorem pushErr_chosen : (pushErr s r).chosen = s.chosen := rfl
@[simp] theorem pushErr_ready : (pushErr s r).ready = s.ready := rfl
@[simp] theorem pushErr_free : (pushErr s r).free = s.free := rfl
@[simp] theorem pushErr_nextId : (pushErr s r).nextId = s.nextId := rfl
@[simp] theorem pushErr_get_team (u : Nat) : (pushErr s r).team u = s.team u := rfl
@[simp] theorem pushErr_get_core (u : Nat) : (pushErr s r).core u = s.core u := rfl
@[simp] theorem pushErr_get_queue (u : Nat) : (pushErr s r).queue u = s.queue u := rfl
@[simp] theorem pushErr_get_stack (u : Nat) : (pushErr s r).stack u = s.stack u := rfl

end

end Sys2Proof.Laws
end

