-- ==== Sys2Proof/Tests/Slice0.lean ====
section
/-! SUPPORT. Tests: ill-formed terms that the well-formedness check refuses; words written out from the spec's encoding tables and what they
decode to; one step of an instruction on small states, with results worked out from the rules; and for each statement a state and
operands that meet its hypotheses. -/

set_option Elab.async false

namespace Sys2Proof.Tests

open Sys2Proof.Machine Sys2Proof.Spec

/-! ### Well-formedness -/

/-- Control and scalar terms that break one limit each (spec/07 R153, R156, R165; spec/09 R197, R210-R215; spec/03 R49). -/
theorem test_wf_refuses_scalar : ∀ i ∈ [Instr.nop 16, .br (2 ^ 32), .br (-2 ^ 32 - 1), .brc 8 false 0, .brc 0 false (2 ^ 32),
    .brz 16 false 0, .call 128 0, .jmp 16 0, .jmp 0 128, .loop 0 0, .loop 128 0, .trap 0 256, .rtt 16 false, .getsys 0 128 .teamid,
    .getsys 0 0 .faultmask, .getsys 0 3 .faultaddr, .getsys 0 2048 .laneid, .setsys 0 0 .teamid, .setsys 0 128 .fpmode,
    .mbox 0 0 256, .escalate 0 128, .sadd ⟨16, 0, 0, .i32, .reg 0⟩, .sadd ⟨0, 128, 0, .i32, .reg 0⟩, .sadd ⟨0, 0, 128, .i32, .reg 0⟩,
    .sadd ⟨0, 0, 0, .f, .reg 0⟩, .sadd ⟨0, 0, 0, .i32, .reg 128⟩, .smov ⟨0, 0, 0, .i32, .reg 1⟩, .smov ⟨0, 0, 1, .i32, .imm 1⟩,
    .sdiv ⟨0, 0, 0, .b32, .reg 0⟩, .scmp ⟨0, 0, 0, .i32, .reg 0⟩ .eq, .scmp ⟨0, 8, 0, .i32, .reg 0⟩ .eq,
    .ssel ⟨0, 0, 0, .b32, .imm 0⟩ 0, .ssel ⟨0, 0, 0, .i32, .reg 0⟩ 0, .ssel ⟨0, 0, 0, .b32, .reg 0⟩ 8,
    .kand 0 0 1 1, .kand 0 1 16 1, .knot 0 0 1, .kcnt 0 128 0, .ktest 0 0 1 .any, .kfromv 0 1 2048, .ktov 0 2048 0,
    .ksetw 0 1 0 (.lit 0), .kgetw 0 0 16 (.reg 0), .qpush 0 0 16, .qpop 0 128 0, .qtry 0 0 (.push 0) 0, .qtry 0 1 (.pop 128) 0,
    .bar 16 false, .spawn 0 2048 0, .batch 0 128, .waitb 0 128, .cwait 0 128 0, .ctest 0 0 0 0], i.wf = false := by decide +kernel

/-- Vector terms that break one limit each (spec/07 R153, R155, R158; spec/11 R231-R255). -/
theorem test_wf_refuses_vector : ∀ i ∈ [Instr.vadd ⟨16, 0, 0, .i32, .reg 0⟩, .vadd ⟨0, 2048, 0, .i32, .reg 0⟩,
    .vadd ⟨0, 1, 0, .i64, .reg 0⟩, .vadd ⟨0, 0, 0, .f, .reg 0⟩, .vadd ⟨0, 0, 0, .i64, .reg 1⟩, .vadd ⟨0, 0, 0, .i32, .sb 128⟩,
    .vmul ⟨0, 0, 0, .b32, .reg 0⟩, .vdiv ⟨0, 0, 0, .i16, .reg 0⟩, .vmad ⟨0, 0, 0, 0, 2048, .i32⟩, .vmad ⟨0, 0, 0, 0, 0, .b32⟩,
    .vabs ⟨0, 0, 0, .n32⟩, .vand ⟨0, 0, 0, .i16, .reg 0⟩, .vnot ⟨0, 0, 0, .f⟩, .vrot ⟨0, 0, 0, .i32, .reg 0⟩,
    .vcmp ⟨0, 0, 0, .i32, .reg 0⟩ .eq, .vcmp ⟨0, 1, 0, .b32, .reg 0⟩ .eq, .vsel ⟨0, 0, 0, .b32, .reg 0⟩ 16,
    .vmov ⟨0, 0, 0, .i32, .reg 1⟩, .vmov ⟨0, 0, 1, .i32, .lit 0⟩, .vbfi ⟨0, 0, 0, 0, 0, .i32⟩, .vpopc ⟨0, 0, 0, .i32⟩,
    .vaddc ⟨0, 0, 0, .n32, .reg 0⟩ 0, .vaddc ⟨0, 0, 0, .i32, .reg 0⟩ 1, .vadds ⟨0, 0, 0, .b32, .reg 0⟩ false, .vlane 0 0 128 false,
    .vmulw ⟨0, 1, 0, .i32, .reg 0⟩, .vmulw ⟨0, 0, 0, .i64, .reg 0⟩, .vfadd ⟨0, 0, 0, .i32, .reg 0⟩ .rne,
    .vfma ⟨0, 0, 0, 0, 0, .i32⟩, .vfdiv ⟨0, 0, 0, .f, .reg 0⟩ 4 .rne, .vfsqrt ⟨0, 0, 0, .i32⟩ 0 .rne, .vfrsqs ⟨0, 0, 0, .bf⟩,
    .vfcmp ⟨0, 0, 0, .f, .reg 0⟩ .eq false false false, .vfcmp ⟨0, 1, 0, .f, .reg 0⟩ .eq false false true,
    .vfclass ⟨0, 0, 0, .i32⟩, .vfscale ⟨0, 0, 0, .f, .reg 2048⟩ .rne, .vfexp2 ⟨0, 0, 0, .d⟩, .vcvt 0 0 0 .f .f .rne,
    .vcvt 0 0 0 .i32 .n32 .rne, .vcvt 0 1 0 .d .f .rne, .vpack ⟨0, 0, 0, .i16, .reg 0⟩ .rtz, .vpack ⟨0, 0, 0, .f, .reg 0⟩ .rne,
    .vunpk ⟨0, 0, 0, .f⟩ false, .vqnt ⟨0, 0, 0, .t6, .reg 0⟩ 1, .vqnt ⟨0, 0, 0, .t8, .reg 0⟩ 4, .vdqnt ⟨0, 0, 0, .f, .reg 0⟩ 0,
    .vshfl ⟨0, 0, 0, .i32, .reg 0⟩ .up, .vxch ⟨0, 1, 0, .b64, .reg 0⟩, .vfold ⟨0, 128, 0, .i32⟩ .add false,
    .vfold ⟨0, 0, 0, .f⟩ .xor false, .vfold ⟨0, 0, 0, .i32⟩ .add true, .vscan ⟨0, 0, 0, .h⟩ .add false false, .vapnd 0 0 128,
    .vreadl 0 0 0 .i32 (.reg 0), .vwritel 0 1 0 .b64 (.reg 0), .vwritel 0 0 0 .b32 (.reg 128),
    .dualWord ⟨.sadd, 1, 1, 1, .i32⟩ ⟨.nop, 0, 0, 0, .i32⟩, .dualWord ⟨.vadd, 256, 1, 0, .i32⟩ ⟨.nop, 0, 0, 0, .i32⟩,
    .dualWord ⟨.vadd, 4, 5, 0, .f⟩ ⟨.nop, 0, 0, 0, .i32⟩, .dualWord ⟨.vadd, 4, 5, 0, .i32⟩ ⟨.vfmul, 8, 6, 0, .f⟩,
    .dualWord ⟨.vadd, 4, 5, 0, .i32⟩ ⟨.nop, 1, 0, 0, .i32⟩], i.wf = false := by decide +kernel

/-- Memory, matrix and engine terms and clause headers that break one limit each (spec/13 R256-R298; spec/15 R301-R331; spec/07 R143). -/
theorem test_wf_refuses_memory : ∀ i ∈ [Instr.ld ⟨0, 0, 0, 0, 1, true, false, .b32, .relaxed, .team⟩,
    .ld ⟨0, 0, 0, 0, 0, true, true, .b32, .relaxed, .team⟩, .ld ⟨0, 0, 1, 0, 0, true, false, .b64, .relaxed, .team⟩,
    .ld ⟨0, 0, 2, 0, 0, true, false, .x4, .relaxed, .team⟩, .ld ⟨0, 0, 0, 0, 0, true, false, .b32, .rel, .crew⟩,
    .ld ⟨0, 0, 0, 0, 0, true, false, .b32, .relaxed, .crew⟩, .st ⟨0, 1, 0, 0, 0, true, false, .b32, .relaxed, .team⟩,
    .st ⟨0, 0, 0, 0, 0, true, false, .b32, .acq, .crew⟩, .lds ⟨0, 0, 0, 0, 0, false, false, .x2, .relaxed, .team⟩,
    .lds ⟨0, 0, 0, 0, 0, true, false, .b32, .relaxed, .team⟩, .sts ⟨0, 0, 128, 0, 0, false, false, .b32, .relaxed, .team⟩,
    .ldasof ⟨0, 0, 0, 0, 0, true, 128, .b32⟩, .ldasofs ⟨0, 0, 0, 0, 0, false, 0, .x4⟩, .ldpk 0 4 0 0 0 true false false,
    .pref 0 128 0 true false false, .stashmap 0 128 0 0, .stashdrop 0 128 false,
    .atom ⟨0, 0, 0, 0, 0, false, .n64, .relaxed, .team⟩ .fadd, .atom ⟨0, 0, 0, 0, 0, false, .i32, .relaxed, .team⟩ .inc,
    .atom ⟨0, 0, 1, 0, 0, false, .n64, .relaxed, .team⟩ .add, .atcas ⟨0, 0, 0, 0, 0, false, .h, .relaxed, .team⟩,
    .red ⟨0, 0, 0, 0, 0, false, .n32, .acq, .crew⟩ .add, .red ⟨0, 1, 0, 0, 0, false, .n32, .relaxed, .team⟩ .add,
    .vatom ⟨0, 0, 0, 0, 0, false, .n32, .relaxed, .team⟩ .inc, .vred ⟨0, 0, 1, 0, 0, false, .n32, .relaxed, .team⟩ .add,
    .alinit 0 128 (.reg 0), .aldec 0 0 0 0 (.reg 0) false .team false, .aldec 0 0 1 0 (.reg 0) false .crew false,
    .alinc 0 0 (.reg 128) false .team, .alrd 0 0 0 0 false .dev, .alfree 0 128, .fence 0 .relaxed .crew, .fenceo 0 .team,
    .fencer 0 .team, .cmaint 0 0 128 .clean .l1, .tlblock 0 128 0, .tlbunlock 0 0 128, .pgmap 0 0 0 0, .pgunmap 0 128 0,
    .stampget 0 0 0, .horizon 0 0 0, .snap 0 0 127, .pin 0 0 0 0, .unpin 0 128, .mxmma 0 0 0 16 0 .t8 false false 0,
    .mxmma 0 0 0 32 0 .i32 false false 0, .mxmma 0 0 0 32 0 .t8 false false 1, .mxsca 0 0 0 1 0 0, .mxperm 0 0 0 16 0 .b32,
    .mxperm 0 0 0 32 0 .i32, .mxtrn 0 0 1 32 .b64, .mxrsum 0 0 0 0 .t8, .cpin ⟨0, 0, 128, 0, 0, false⟩ false,
    .cpout ⟨0, 4, 0, 0, 0, false⟩, .cppeer ⟨16, 0, 0, 0, 0, false⟩, .qst 0 0 127 0 .t8 0 false false, .qst 0 0 0 0 .f 0 false false,
    .qst 0 0 0 0 .t8 8 false false, .qstd 0 0 0 0 .t8 1 1 false, .qstd 0 0 125 0 .t8 0 1 false, .qload 0 0 0 8, .qsave 0 0 128 0,
    .nmc 0 0 0 125, .clauseEntry ⟨0, none, none, 0, none, false⟩, .clauseEntry ⟨0, none, none, 16, none, false⟩,
    .clauseEntry ⟨0, some 12, none, 1, none, false⟩, .clauseEntry ⟨0, some 3, some 3, 1, none, false⟩,
    .clauseEntry ⟨0, none, none, 1, some 32768, false⟩], i.wf = false := by decide +kernel

/-! ### Decoding: words written out from spec/07 R152, R156, R160, R142 and the chapters' tables -/

/-- OP [61:54], K [53:50], FS [49:48], D [47:37], A [36:26], B [25:15], M [14:0] (spec/07 R152). -/
def wf (op k fs d a b m : Nat) : Nat :=
  op * 2 ^ 54 + k * 2 ^ 50 + fs * 2 ^ 48 + d * 2 ^ 37 + a * 2 ^ 26 + b * 2 ^ 15 + m

/-- OFF [47:15] as 33 bits, CND [14:11], SNS [10], LNK [9:3] (spec/07 R156). -/
def wb (op off cnd sns lnk : Nat) : Nat := op * 2 ^ 54 + off * 2 ^ 15 + cnd * 2 ^ 11 + sns * 2 ^ 10 + lnk * 2 ^ 3

/-- The words the spec works through in spec/07 and spec/09. -/
theorem test_decode_worked_words :
    decodeTableWord 64 0x8026355800C00000 = some (.clauseEntry ⟨0b001001#12, some 1, some 5, 5, some 12, false⟩) ∧
    decodeTableWord 64 0x18C40140080180A8 = some (.vfma ⟨1, 10, 2, 3, 10, .f⟩) ∧
    decodeTableWord 64 0x6002028062090603 = some (.dualWord ⟨.vadd, 4, 5, 0, .i32⟩ ⟨.vfmul, 9, 6, 0, .f⟩) ∧
    decodeTableWord 128 0x641000008010000400 = some (.vadd ⟨0, 4, 4, .i32, .lit 100⟩) ∧
    decodeTableWord 64 0x0040FFFFFFFD8000 = some (.br (-5)) ∧
    decodeTableWord 64 0x040000A01BFE9200 = some (.sadd ⟨0, 5, 6, .i64, .imm (-3)⟩) ∧
    decodeTableWord 64 0x0C40010000000002 = some (.qpop 0 8 2) ∧
    decodeTableWord 64 0x0080000000029400 = some (.brc 2 true 5) ∧
    decodeTableWord 64 0x0E400000580B8000 = some (.cwait 0 22 23) := by decide +kernel

/-- Control and system (spec/09 R197, R199, R208, R209; spec/07 R165). -/
theorem test_decode_control : ∀ x ∈ [(wf 0x00 0 0 0 0 0 0, Instr.nop 0), (wb 0x01 5 0 0 0, .br 5), (wb 0x02 1 7 1 0, .brc 7 true 1),
    (wb 0x03 (2 ^ 33 - 2) 15 0 0, .brz 15 false (-2)), (wb 0x04 3 0 0 127, .call 127 3), (wf 0x05 0 0 0 9 0 0, .jmp 0 9),
    (wb 0x06 (2 ^ 33 - 1) 0 0 5, .loop 5 (-1)), (wf 0x07 0 0 0 0 0 0, .exit 0), (wf 0x08 0 0 0 0 0 255, .trap 0 255),
    (wf 0x09 0 0 0 0 0 1, .rtt 0 true), (wf 0x0A 0 0 0 0 0 0, .yield 0), (wf 0x0B 0 0 3 0 0 0x103, .getsys 0 3 .horizoncache),
    (wf 0x0C 0 0 0 4 0 0x020, .setsys 0 4 .stampfloor), (wf 0x0D 0 0 0 0 0 0, .brkpt 0), (wf 0x0E 0 0 0 6 0 0xA5, .mbox 0 6 0xA5),
    (wf 0x0F 0 0 0 127 0 0, .escalate 0 127)], decodeTableWord 64 x.1 = some x.2 := by decide +kernel

/-- Scalar: type [14:11], L [10], I [9], relation or flag [2:0] (spec/09 R210-R212). -/
theorem test_decode_scalar : ∀ x ∈ [(wf 0x10 0 0 3 1 2 0x0000, Instr.sadd ⟨0, 3, 1, .i32, .reg 2⟩),
    (wf 0x11 0 0 3 1 0x7FF 0x0A00, .ssub ⟨0, 3, 1, .n32, .imm (-1)⟩), (wf 0x12 0 0 3 1 2 0x1000, .smul ⟨0, 3, 1, .i64, .reg 2⟩),
    (wf 0x13 0 0 3 1 2 0x1800, .smulh ⟨0, 3, 1, .n64, .reg 2⟩), (wf 0x14 0 0 3 1 2 0x0000, .sdiv ⟨0, 3, 1, .i32, .reg 2⟩),
    (wf 0x15 0 0 3 1 2 0x0800, .srem ⟨0, 3, 1, .n32, .reg 2⟩), (wf 0x16 0 0 3 1 2 0x7000, .sand ⟨0, 3, 1, .b32, .reg 2⟩),
    (wf 0x17 0 0 3 1 2 0x7800, .sor ⟨0, 3, 1, .b64, .reg 2⟩), (wf 0x18 0 0 3 1 2 0x7800, .sxor ⟨0, 3, 1, .b64, .reg 2⟩),
    (wf 0x19 0 0 3 1 5 0x1A00, .sshl ⟨0, 3, 1, .n64, .imm 5⟩), (wf 0x1A 0 0 3 1 2 0x1000, .sshr ⟨0, 3, 1, .i64, .reg 2⟩),
    (wf 0x1B 0 0 7 1 2 0x1005, .scmp ⟨0, 7, 1, .i64, .reg 2⟩ .ge), (wf 0x1C 0 0 3 1 0 0x7000, .smov ⟨0, 3, 1, .b32, .reg 0⟩),
    (wf 0x1D 0 0 3 1 2 0x7807, .ssel ⟨0, 3, 1, .b64, .reg 2⟩ 7), (wf 0x1E 0 0 3 1 2 0x0000, .smin ⟨0, 3, 1, .i32, .reg 2⟩),
    (wf 0x1F 0 0 3 1 2 0x0800, .smax ⟨0, 3, 1, .n32, .reg 2⟩)], decodeTableWord 64 x.1 = some x.2 := by decide +kernel

/-- Mask and queue (spec/09 R213, R216, R218-R224). -/
theorem test_decode_mask_queue : ∀ x ∈ [(wf 0x20 0 0 1 2 3 0, Instr.kand 0 1 2 3), (wf 0x21 0 0 15 2 3 0, .kor 0 15 2 3),
    (wf 0x22 0 0 1 2 3 0, .kxor 0 1 2 3), (wf 0x23 0 0 1 2 3 0, .kandn 0 1 2 3), (wf 0x24 0 0 1 2 0 0, .knot 0 1 2),
    (wf 0x25 0 0 1 2 0 0, .kmov 0 1 2), (wf 0x26 0 0 4 2 0 0, .kcnt 0 4 2), (wf 0x27 0 0 4 2 0 0, .kfirst 0 4 2),
    (wf 0x28 0 0 7 2 0 1, .ktest 0 7 2 .all), (wf 0x29 0 0 1 9 0 0, .kfromv 0 1 9), (wf 0x2A 0 0 9 1 0 0, .ktov 0 9 1),
    (wf 0x2B 0 0 1 6 31 0x200, .ksetw 0 1 6 (.imm 31)), (wf 0x2C 0 0 4 2 7 0, .kgetw 0 4 2 (.reg 7)),
    (wf 0x30 0 0 0 4 0 15, .qpush 0 4 15), (wf 0x31 0 0 4 0 0 3, .qpop 0 4 3), (wf 0x32 0 0 0 4 0 0xE2, .qtry 0 7 (.push 4) 2),
    (wf 0x32 0 0 4 0 0 0x32, .qtry 0 1 (.pop 4) 2), (wf 0x33 0 0 0 0 0 1, .bar 0 true), (wf 0x34 0 0 0 0 0 0, .mxacq 0),
    (wf 0x35 0 0 0 0 0 0, .mxrel 0), (wf 0x36 5 0 0 8 9 0, .spawn 5 8 9), (wf 0x37 0 0 4 0 0 0, .batch 0 4),
    (wf 0x38 0 0 0 4 0 0, .waitb 0 4), (wf 0x39 0 0 0 4 5 0, .cwait 0 4 5), (wf 0x3A 0 0 1 4 5 0, .ctest 0 1 4 5)],
    decodeTableWord 64 x.1 = some x.2 := by decide +kernel

/-- Vector integer: type [14:11], L [10], SB [9]; three-source c [14:4], type [3:0] (spec/11 R225, R232-R236; spec/07 R155). -/
theorem test_decode_vector_integer : ∀ x ∈ [(wf 0x40 2 0 4 5 6 0x2000, Instr.vadd ⟨2, 4, 5, .i16, .reg 6⟩),
    (wf 0x41 2 0 4 5 6 0x0200, .vsub ⟨2, 4, 5, .i32, .sb 6⟩), (wf 0x42 0 0 4 5 6 0x3800, .vmul ⟨0, 4, 5, .n8, .reg 6⟩),
    (wf 0x43 0 0 4 6 8 0x1000, .vmulh ⟨0, 4, 6, .i64, .reg 8⟩), (wf 0x44 0 0 4 5 6 0x0071, .vmad ⟨0, 4, 5, 6, 7, .n32⟩),
    (wf 0x45 0 0 4 5 6 0x0000, .vdiv ⟨0, 4, 5, .i32, .reg 6⟩), (wf 0x46 0 0 4 5 6 0x0800, .vrem ⟨0, 4, 5, .n32, .reg 6⟩),
    (wf 0x47 0 0 4 5 6 0x0000, .vmin ⟨0, 4, 5, .i32, .reg 6⟩), (wf 0x48 0 0 4 5 6 0x3000, .vmax ⟨0, 4, 5, .i8, .reg 6⟩),
    (wf 0x49 0 0 4 5 0 0x0000, .vabs ⟨0, 4, 5, .i32⟩), (wf 0x4A 0 0 4 6 0 0x1000, .vneg ⟨0, 4, 6, .i64⟩),
    (wf 0x4B 0 0 4 5 6 0x7000, .vand ⟨0, 4, 5, .b32, .reg 6⟩), (wf 0x4C 0 0 4 5 6 0x7000, .vor ⟨0, 4, 5, .b32, .reg 6⟩),
    (wf 0x4D 0 0 4 5 6 0x7000, .vxor ⟨0, 4, 5, .b32, .reg 6⟩), (wf 0x4E 0 0 4 5 0 0x7000, .vnot ⟨0, 4, 5, .b32⟩),
    (wf 0x4F 0 0 4 5 6 0x0000, .vshl ⟨0, 4, 5, .i32, .reg 6⟩), (wf 0x50 0 0 4 5 6 0x0000, .vshr ⟨0, 4, 5, .i32, .reg 6⟩),
    (wf 0x51 0 0 4 6 8 0x7800, .vrot ⟨0, 4, 6, .b64, .reg 8⟩), (wf 0x52 0 0 1 5 6 0x0002, .vcmp ⟨0, 1, 5, .i32, .reg 6⟩ .lt),
    (wf 0x53 0 0 4 5 6 0x700F, .vsel ⟨0, 4, 5, .b32, .reg 6⟩ 15), (wf 0x54 0 0 4 0 6 0x7200, .vmov ⟨0, 4, 0, .b32, .sb 6⟩),
    (wf 0x55 0 0 4 5 6 0x0000, .vbfe ⟨0, 4, 5, .i32, .reg 6⟩), (wf 0x56 0 0 4 5 6 0x007E, .vbfi ⟨0, 4, 5, 6, 7, .b32⟩),
    (wf 0x57 0 0 4 5 0 0x7000, .vpopc ⟨0, 4, 5, .b32⟩), (wf 0x58 0 0 4 5 0 0x7000, .vclz ⟨0, 4, 5, .b32⟩),
    (wf 0x59 0 0 4 5 6 0x0803, .vaddc ⟨0, 4, 5, .n32, .reg 6⟩ 3), (wf 0x5A 0 0 4 5 6 0x0001, .vadds ⟨0, 4, 5, .i32, .reg 6⟩ true),
    (wf 0x5B 0 0 4 5 0 1, .vlane 0 4 5 true), (wf 0x5C 0 0 4 5 7 0x0000, .vmulw ⟨0, 4, 5, .i32, .reg 7⟩)],
    decodeTableWord 64 x.1 = some x.2 := by decide +kernel

/-- Vector floating point (spec/11 R237-R245). -/
theorem test_decode_vector_float : ∀ x ∈ [(wf 0x60 0 0 4 5 6 0x4001, Instr.vfadd ⟨0, 4, 5, .f, .reg 6⟩ .rtz),
    (wf 0x61 0 0 4 6 8 0x4802, .vfsub ⟨0, 4, 6, .d, .reg 8⟩ .rup), (wf 0x62 0 0 4 5 6 0x5003, .vfmul ⟨0, 4, 5, .h, .reg 6⟩ .rdn),
    (wf 0x63 0 0 4 5 6 0x007B, .vfma ⟨0, 4, 5, 6, 7, .bf⟩), (wf 0x64 0 2 4 5 6 0x4000, .vfdiv ⟨0, 4, 5, .f, .reg 6⟩ 2 .rne),
    (wf 0x65 0 1 4 5 0 0x4001, .vfsqrt ⟨0, 4, 5, .f⟩ 1 .rtz), (wf 0x66 0 0 4 5 0 0x4000, .vfrsqs ⟨0, 4, 5, .f⟩),
    (wf 0x67 0 0 4 5 0 0x4000, .vfrcps ⟨0, 4, 5, .f⟩), (wf 0x68 0 0 4 5 6 0x4001, .vfmin ⟨0, 4, 5, .f, .reg 6⟩ true),
    (wf 0x69 0 0 4 5 6 0x4000, .vfmax ⟨0, 4, 5, .f, .reg 6⟩ false), (wf 0x6A 0 0 4 5 0 0x4000, .vfabs ⟨0, 4, 5, .f⟩),
    (wf 0x6B 0 0 4 5 0 0x4000, .vfneg ⟨0, 4, 5, .f⟩), (wf 0x6C 0 0 1 5 6 0x5039, .vfcmp ⟨0, 1, 5, .h, .reg 6⟩ .ne true true true),
    (wf 0x6D 0 0 4 6 0 0x4800, .vfclass ⟨0, 4, 6, .d⟩), (wf 0x6E 0 0 4 5 0 0x4005, .vfrnd ⟨0, 4, 5, .f⟩ .rtz true),
    (wf 0x6F 0 0 4 5 6 0x4000, .vfscale ⟨0, 4, 5, .f, .reg 6⟩ .rne), (wf 0x70 0 0 4 5 0 0x4000, .vfexp2 ⟨0, 4, 5, .f⟩),
    (wf 0x71 0 0 4 5 0 0x5000, .vflog2 ⟨0, 4, 5, .h⟩), (wf 0x72 0 0 4 5 0 0x4000, .vfgetexp ⟨0, 4, 5, .f⟩),
    (wf 0x73 0 0 4 5 0 0x4000, .vfgetman ⟨0, 4, 5, .f⟩), (wf 0x74 0 0 4 5 6 0x4002, .vfcopysign ⟨0, 4, 5, .f, .reg 6⟩ .xor)],
    decodeTableWord 64 x.1 = some x.2 := by decide +kernel

/-- Conversion and permute (spec/11 R247-R255). -/
theorem test_decode_convert_permute : ∀ x ∈ [(wf 0x80 0 0 4 5 0 0x4003, Instr.vcvt 0 4 5 .f .i32 .rdn),
    (wf 0x81 0 0 4 5 6 0x5001, .vpack ⟨0, 4, 5, .h, .reg 6⟩ .rtz), (wf 0x82 0 0 4 5 0 0x5801, .vunpk ⟨0, 4, 5, .bf⟩ true),
    (wf 0x83 0 0 4 5 6 0x6003, .vqnt ⟨0, 4, 5, .t8, .reg 6⟩ 3), (wf 0x84 0 0 4 5 6 0x6800, .vdqnt ⟨0, 4, 5, .t6, .reg 6⟩ 0),
    (wf 0x90 0 0 4 5 6 0x7002, .vshfl ⟨0, 4, 5, .b32, .reg 6⟩ .up), (wf 0x91 0 0 4 6 7 0x7800, .vxch ⟨0, 4, 6, .b64, .reg 7⟩),
    (wf 0x92 0 0 4 5 0 0x4011, .vfold ⟨0, 4, 5, .f⟩ .min true), (wf 0x93 0 0 4 5 0 0x0025, .vscan ⟨0, 4, 5, .i32⟩ .xor false true),
    (wf 0x94 0 0 4 5 0 0, .vapnd 0 4 5), (wf 0x95 0 0 4 5 6 0x7000, .vreadl 0 4 5 .b32 (.reg 6)),
    (wf 0x96 0 0 4 5 6 0x7800, .vwritel 0 4 5 .b64 (.reg 6))], decodeTableWord 64 x.1 = some x.2 := by decide +kernel

/-- Memory, atomics and allowances (spec/13 R256, R267, R269-R271, R276-R284). -/
theorem test_decode_memory : ∀ x ∈ [(wf 0xA0 1 3 4 5 6 0x09A, Instr.ld ⟨1, 3, 4, 5, 6, false, true, .b32, .acq, .crew⟩),
    (wf 0xA1 0 0 4 5 0 0x5A5, .st ⟨0, 0, 4, 5, 0, true, false, .x4, .rel, .dev⟩),
    (wf 0xA2 0 1 4 5 0 0x243, .lds ⟨0, 1, 4, 5, 0, false, false, .b64, .sc, .sys⟩),
    (wf 0xA3 0 0 4 5 0 0x000, .sts ⟨0, 0, 4, 5, 0, false, false, .b8, .relaxed, .team⟩),
    (wf 0xA4 0 0 4 5 6 0x03A, .ldasof ⟨0, 0, 4, 5, 6, false, 7, .b32⟩), (wf 0xA5 0 0 4 5 0 0x03B, .ldasofs ⟨0, 0, 4, 5, 0, false, 7, .b64⟩),
    (wf 0xA6 0 0 4 5 6 0x6808, .ldpk 0 0 4 5 6 false true true), (wf 0xA7 0 0 0 5 0 0x401, .pref 0 5 0 true false true),
    (wf 0xA8 0 0 4 5 6 0, .stashmap 0 4 5 6), (wf 0xA9 0 0 4 0 0 1, .stashdrop 0 4 true),
    (wf 0xC0 0 0 4 5 6 0x18B7, .atom ⟨0, 0, 4, 5, 6, false, .n64, .acqrel, .crew⟩ .inc),
    (wf 0xC1 0 0 4 5 6 0x0400, .atcas ⟨0, 0, 4, 5, 6, true, .i32, .relaxed, .team⟩),
    (wf 0xC2 0 0 4 5 6 0x41A8, .red ⟨0, 0, 4, 5, 6, false, .f, .rel, .dev⟩ .fadd),
    (wf 0xC3 0 0 4 5 6 0x0803, .vatom ⟨0, 0, 4, 5, 6, false, .n32, .relaxed, .team⟩ .and),
    (wf 0xC4 0 0 4 5 6 0x5009, .vred ⟨0, 0, 4, 5, 6, false, .h, .relaxed, .team⟩ .fmin),
    (wf 0xC5 0 0 0 5 6 0, .alinit 0 5 (.reg 6)), (wf 0xC6 0 1 0 5 6 0x198, .aldec 0 1 0 5 (.reg 6) true .dev true),
    (wf 0xC7 0 0 0 5 6 0x0A0, .alinc 0 5 (.reg 6) true .crew), (wf 0xC8 0 0 4 5 0 0, .alrd 0 0 4 5 false .team),
    (wf 0xC9 0 0 0 5 0 0, .alfree 0 5)], decodeTableWord 64 x.1 = some x.2 := by decide +kernel

/-- Fences, translation, history, matrix and engine commands (spec/13 R286-R294; spec/15 R301-R331). -/
theorem test_decode_system : ∀ x ∈ [(wf 0xD0 0 0 0 0 0 0x1C0, Instr.fence 0 .sc .dev), (wf 0xD1 0 0 0 0 0 0x080, .fenceo 0 .crew),
    (wf 0xD2 0 0 0 0 0 0x200, .fencer 0 .sys), (wf 0xD3 0 0 0 5 6 0x9, .cmaint 0 5 6 .inv .mem), (wf 0xD4 0 0 0 5 6 0, .tlblock 0 5 6),
    (wf 0xD5 0 0 0 5 6 0, .tlbunlock 0 5 6), (wf 0xD6 0 0 1 5 6 0, .pgmap 0 1 5 6), (wf 0xD7 0 0 0 5 6 0, .pgunmap 0 5 6),
    (wf 0xD8 0 1 4 0 0 0, .stampget 0 1 4), (wf 0xD9 0 1 4 0 0 0, .snap 0 1 4), (wf 0xDA 0 1 4 5 0 0, .pin 0 1 4 5),
    (wf 0xDB 0 0 0 5 0 0, .unpin 0 5), (wf 0xDC 0 1 4 0 0 0, .horizon 0 1 4),
    (wf 0xE0 0 1 0 32 5 0x607C, .mxmma 0 1 0 32 5 .t8 true true 7), (wf 0xE1 0 0 0 32 64 0x4050, .mxsca 0 0 0 32 64 5),
    (wf 0xE2 0 0 0 32 64 0x7000, .mxperm 0 0 0 32 64 .b32), (wf 0xE3 0 0 0 64 0 0x7800, .mxtrn 0 0 0 64 .b64),
    (wf 0xE4 0 0 0 32 0 0x5800, .mxrsum 0 0 0 32 .bf), (wf 0xF0 0 1 4 5 6 9, .cpin ⟨0, 1, 4, 5, 6, true⟩ true),
    (wf 0xF1 0 0 4 5 6 1, .cpout ⟨0, 0, 4, 5, 6, true⟩), (wf 0xF2 0 0 4 5 6 0, .cppeer ⟨0, 0, 4, 5, 6, false⟩),
    (wf 0xF3 0 0 4 5 0 0x6718, .qst 0 0 4 5 .t8 7 true true), (wf 0xF4 0 0 4 5 0 0x69C8, .qstd 0 0 4 5 .t6 1 6 true),
    (wf 0xF5 0 0 0 5 0 0x200, .qload 0 0 5 2), (wf 0xF6 0 0 0 5 0 0x700, .qsave 0 0 5 7), (wf 0xF7 0 0 4 124 0 0, .nmc 0 0 4 124)],
    decodeTableWord 64 x.1 = some x.2 := by decide +kernel

/-- Literal words, and words of no instruction: form 0b11, an unassigned opcode, a reserved bit (spec/07 R139, R153, R167). -/
theorem test_decode_literals_and_others :
    decodeTableWord 128 (0x1388 * 2 ^ 64 + wf 0x10 0 0 5 6 0 0x1400) = some (.sadd ⟨0, 5, 6, .i64, .lit 0x1388⟩) ∧
    decodeTableWord 128 (3 * 2 ^ 64 + wf 0xC5 0 0 0 5 0 0x400) = some (.alinit 0 5 (.lit 3)) ∧
    decodeTableWord 64 (3 * 2 ^ 62) = none ∧ decodeTableWord 64 (wf 0x2D 0 0 0 0 0 0) = none ∧
    decodeTableWord 64 (wf 0x10 0 0 3 1 2 0x0008) = none ∧ decodeTableWord 64 (wf 0x40 0 0 4 5 6 0x0600) = none := by decide +kernel

/-! ### A small state -/

/-- A crew with a partition of 64 KiB on core 0, as pusher of ring 2 and popper of ring 3. -/
def crew0 : Crew :=
  ⟨0, 0, 0, 0, 0, 65536, some 1, .resident,
    [(2, ⟨2, 0, 1, 0, 0, 0, [], [], []⟩), (3, ⟨2, 1, 0, 64, 0, 0, [], [], []⟩)], newBarrier, [], [], [], []⟩

/-- A GENERAL team with 32 lanes and 256 registers, at the second word of a clause of two. -/
def team0 : Team :=
  { probeTeam 0 with crew := 0, clause := some ⟨BitVec.ofNat 64 probeVa, ⟨0, some 0, some 1, 2, none, false⟩, false⟩ }

/-- The same at the last word of its clause. -/
def last (t : Team) : Team := { t with clause := some ⟨BitVec.ofNat 64 probeVa, ⟨0, some 0, some 1, 1, none, false⟩, false⟩ }

/-- That team, issuing, in a crew on core 0, with global memory mapped from 2^30. -/
def one (t : Team) : State :=
  { State.reset.withFetchWord 64 0 with cur := some 0, teams := [(0, t)], crews := [(0, crew0)] }

/-- The team after an instruction. -/
def teamAfter (i : Instr) (s : State) : Option Team := match exec i s with | .next s => s.team 0 | _ => none

/-- Whether an instruction leaves a next state of which `p` holds. -/
def nextHas (i : Instr) (s : State) (p : State → Bool) : Bool := match exec i s with | .next s => p s | _ => false

/-- A scratchpad address. -/
def spad (o : Nat) : W64 := BitVec.ofNat 64 (scratchBase + o)

/-! ### One step: results worked out from the rules -/

/-- Scalars: s1 = -7, s2 = 2. .i32 sums are sign-extended; SDIV truncates; division by zero gives all ones; SSHR of .i64 is
arithmetic (spec/09 R210, R211; spec/05 R105). -/
def teamS : Team := { team0 with s := [(1, BitVec.ofInt 64 (-7)), (2, 2), (5, 0x80000000)] }

theorem test_sadd_sign_extends : (teamAfter (.sadd ⟨0, 3, 5, .i32, .imm 0⟩) (one teamS)).map (sget · 3) =
    some 0xFFFFFFFF80000000 := by decide +kernel
theorem test_ssub_wraps_unsigned : (teamAfter (.ssub ⟨0, 3, 0, .n32, .imm 1⟩) (one teamS)).map (sget · 3) = some 0xFFFFFFFF := by
  decide +kernel
theorem test_smulh_signed : (teamAfter (.smulh ⟨0, 3, 1, .i64, .reg 2⟩) (one teamS)).map (sget · 3) = some (BitVec.allOnes 64) := by
  decide +kernel
theorem test_sdiv_truncates : (teamAfter (.sdiv ⟨0, 3, 1, .i32, .reg 2⟩) (one teamS)).map (sget · 3) = some (BitVec.ofInt 64 (-3)) := by
  decide +kernel
theorem test_sdiv_by_zero : (teamAfter (.sdiv ⟨0, 3, 1, .n32, .reg 0⟩) (one teamS)).map (sget · 3) = some 0xFFFFFFFF := by decide +kernel
theorem test_srem_sign : (teamAfter (.srem ⟨0, 3, 1, .i64, .reg 2⟩) (one teamS)).map (sget · 3) = some (BitVec.ofInt 64 (-1)) := by
  decide +kernel
theorem test_sshr_arithmetic : (teamAfter (.sshr ⟨0, 3, 1, .i64, .imm 1⟩) (one teamS)).map (sget · 3) = some (BitVec.ofInt 64 (-4)) := by
  decide +kernel
theorem test_sshl_modulo_width : (teamAfter (.sshl ⟨0, 3, 2, .n32, .imm 33⟩) (one teamS)).map (sget · 3) = some 4 := by decide +kernel
theorem test_scmp_unsigned : (teamAfter (.scmp ⟨0, 3, 1, .n64, .reg 2⟩ .gt) (one teamS)).map (cget · 3) = some true := by decide +kernel
theorem test_scmp_signed : (teamAfter (.scmp ⟨0, 3, 1, .i64, .reg 2⟩ .gt) (one teamS)).map (cget · 3) = some false := by decide +kernel
theorem test_ssel_c0 : (teamAfter (.ssel ⟨0, 3, 2, .b64, .reg 1⟩ 0) (one teamS)).map (sget · 3) = some 2 := by decide +kernel
theorem test_s0_discards : (teamAfter (.sadd ⟨0, 0, 2, .i64, .imm 1⟩) (one teamS)).map (fun t => (sget t 0, t.pc)) =
    some (0, BitVec.ofNat 64 (probeVa + 16)) := by decide +kernel

/-- Masks: k1 = lanes 0 and 5, k2 = lanes 5 and 31 (spec/09 R213-R215). -/
def teamK : Team := { team0 with k := [(1, 0x21), (2, 0x80000020)] }

theorem test_kandn : (teamAfter (.kandn 0 3 1 2) (one teamK)).map (kget · 3) = some 1 := by decide +kernel
theorem test_knot_stays_below_lanes : (teamAfter (.knot 0 3 1) (one teamK)).map (kget · 3) = some 0xFFFFFFDE := by decide +kernel
theorem test_kcnt : (teamAfter (.kcnt 0 3 2) (one teamK)).map (sget · 3) = some 2 := by decide +kernel
theorem test_kfirst_of_none : (teamAfter (.kfirst 0 3 4) (one teamK)).map (sget · 3) = some (BitVec.allOnes 64) := by decide +kernel
theorem test_ktest_all : (teamAfter (.ktest 0 3 0 .all) (one teamK)).map (cget · 3) = some true := by decide +kernel
theorem test_ksetw_dropped_above_lanes : (teamAfter (.ksetw 0 1 0 (.imm 1)) (one teamK)).map (kget · 1) = some 0x21 := by decide +kernel
theorem test_kgetw : (teamAfter (.kgetw 0 3 2 (.imm 0)) (one teamK)).map (sget · 3) = some 0x80000020 := by decide +kernel

/-- Vectors: lane 0 and 5 of v4 and v6 (spec/11 R225-R236). -/
def teamV : Team :=
  { teamK with v := [(vkey 4 0, 0x7FFFFFFF), (vkey 4 5, 0xFFFFFFFE), (vkey 6 0, 1), (vkey 6 5, 3), (vkey 8 5, 0x40400000)],
               s := [(1, 0x3F800000)] }

theorem test_vadd_wraps : (teamAfter (.vadd ⟨1, 10, 4, .i32, .reg 6⟩) (one teamV)).map (fun t => (vget t 10 0, vget t 10 5, vget t 10 1)) =
    some (0x80000000, 1, 0) := by decide +kernel
theorem test_vadds_saturates : (teamAfter (.vadds ⟨1, 10, 4, .i32, .reg 6⟩ false) (one teamV)).map (fun t => vget t 10 0) =
    some 0x7FFFFFFF := by decide +kernel
theorem test_vcmp_keeps_inactive_bits : (teamAfter (.vcmp ⟨1, 2, 4, .i32, .reg 6⟩ .lt) (one teamV)).map (kget · 2) = some 0x80000020 := by
  decide +kernel
theorem test_vaddc_carry : (teamAfter (.vaddc ⟨1, 10, 4, .n32, .reg 6⟩ 2) (one teamV)).map (fun t => (vget t 10 5, kget t 2)) =
    some (2, 0x80000020) := by decide +kernel
theorem test_vmulw_pair : (teamAfter (.vmulw ⟨1, 10, 4, .n32, .reg 6⟩) (one teamV)).map (fun t => (vget t 10 5, vget t 11 5)) =
    some (0xFFFFFFFA, 2) := by decide +kernel
theorem test_vclz : (teamAfter (.vclz ⟨1, 10, 6, .b32⟩) (one teamV)).map (fun t => (vget t 10 0, vget t 10 5)) = some (31, 30) := by
  decide +kernel
theorem test_vbfe_signed : (teamAfter (.vbfe ⟨1, 10, 4, .i32, .lit 0x0401⟩) (one teamV)).map (fun t => vget t 10 0) =
    some 0xFFFFFFFF := by decide +kernel
theorem test_vlane : (teamAfter (.vlane 0 10 0 false) (one teamV)).map (fun t => vget t 10 31) = some 31 := by decide +kernel
theorem test_vshfl_down_out_of_word : (teamAfter (.vshfl ⟨2, 10, 4, .b32, .lit 1⟩ .down) (one teamV)).map
    (fun t => (vget t 10 5, vget t 10 31)) = some (0, 0) := by decide +kernel
theorem test_vfold_add : (teamAfter (.vfold ⟨1, 3, 6, .i32⟩ .add false) (one teamV)).map (sget · 3) = some 4 := by decide +kernel
theorem test_vscan_exclusive : (teamAfter (.vscan ⟨1, 10, 6, .i32⟩ .add false true) (one teamV)).map
    (fun t => (vget t 10 0, vget t 10 5)) = some (0, 1) := by decide +kernel
theorem test_vreadl_beyond_lanes : (teamAfter (.vreadl 1 3 4 .b32 (.lit 32)) (one teamV)).map (sget · 3) = some 0 := by decide +kernel

/-- Floats: 3.0 + 1.0 = 4.0; -(3.0); 3.0 to .i32 is 3; 1/0 is not at issue (spec/11 R237-R248). -/
theorem test_vfadd : (teamAfter (.vfadd ⟨2, 10, 8, .f, .sb 1⟩ .rne) (one teamV)).map (fun t => vget t 10 5) = some 0x40800000 := by
  decide +kernel
theorem test_vfneg_of_zero : (teamAfter (.vfneg ⟨2, 10, 8, .f⟩) (one teamV)).map (fun t => (vget t 10 5, vget t 10 31)) =
    some (0xC0400000, 0x80000000) := by decide +kernel
theorem test_vcvt_float_to_int : (teamAfter (.vcvt 2 10 8 .i32 .f .rne) (one teamV)).map (fun t => vget t 10 5) = some 3 := by decide +kernel
theorem test_dual_word_swaps_roles : (teamAfter (.dualWord ⟨.vadd, 4, 6, 1, .i32⟩ ⟨.vmov, 7, 5, 1, .b32⟩) (one teamV)).map
    (fun t => (vget t 4 0, vget t 7 0)) = some (0x80000000, 0) := by decide +kernel

/-- Control (spec/09 R198, R203, R204; spec/07 R140). -/
theorem test_br_backwards : (teamAfter (.br (-2)) (one (last team0))).map (·.pc) = some (BitVec.ofNat 64 (probeVa - 8)) := by decide +kernel
theorem test_br_must_be_last : (teamAfter (.br 1) (one team0)).map (·.faultcode) = some 0x01 := by decide +kernel
theorem test_loop_counts_down : (teamAfter (.loop 2 4) (one (last teamS))).map (fun t => (sget t 2, t.pc)) =
    some (1, BitVec.ofNat 64 (probeVa + 40)) := by decide +kernel
theorem test_call_links : (teamAfter (.call 9 2) (one (last team0))).map (fun t => (sget t 9, t.pc)) =
    some (BitVec.ofNat 64 (probeVa + 16), BitVec.ofNat 64 (probeVa + 24)) := by decide +kernel
theorem test_trap_without_handler_parks : (teamAfter (.trap 0 5) (one team0)).map (fun t => (t.parked, t.faultcode, t.pc)) =
    some (some 0, 0x0511, BitVec.ofNat 64 (probeVa + 8)) := by decide +kernel
theorem test_rtt_needs_privilege : (teamAfter (.rtt 0 false) (one (last team0))).map (·.faultcode) = some 0x03 := by decide +kernel

/-- Memory: a store to the team's partition, and one past its end (spec/03 R83; spec/13 R261, R262). -/
def teamM : Team := { teamV with s := [(1, spad 128), (2, spad 130), (3, spad 65536)] }

theorem test_st_highest_lane_wins : nextHas (.st ⟨1, 0, 6, 1, 0, true, false, .b32, .relaxed, .team⟩) (one teamM)
    (fun s => memRead s (partKey 0 128) 4 == [3, 0, 0, 0]) = true := by decide +kernel
theorem test_st_beyond_partition : (teamAfter (.st ⟨1, 0, 6, 3, 0, true, false, .b32, .relaxed, .team⟩) (one teamM)).map (·.faultcode) =
    some 0x05 := by decide +kernel
theorem test_st_misaligned : (teamAfter (.st ⟨1, 0, 6, 2, 0, true, false, .b32, .relaxed, .team⟩) (one teamM)).map (·.faultcode) =
    some 0x04 := by decide +kernel
theorem test_atom_add_writes : nextHas (.atom ⟨1, 0, 6, 1, 0, false, .n32, .relaxed, .team⟩ .add) (one { teamM with v := [(vkey 6 5, 3), (vkey 6 0, 1)] })
    (fun s => memRead s (partKey 0 128) 4 == [4, 0, 0, 0]) = true := by decide +kernel

/-- A whole step from reset: fetch, decode, run (spec/07 R157). -/
theorem test_step_fetches_and_runs : (match step (State.reset.withFetchWord 64 (wf 0x10 0 0 3 0 5 0x1200)) with
    | .next s => (s.team 0).map (sget · 3) | _ => none) = some 5 := by decide +kernel

/-! ### Witnesses: a state and operands for the hypotheses of each statement -/

/-- Whether a result is an error. -/
def isErr {ε α : Type} : Except ε α → Bool
  | .error _ => true
  | .ok _ => false

/-- That state with the team in its fault handler. -/
abbrev priv (t : Team) : Team := { t with priv := true }

theorem witness_ScalarInstructions : ∀ i ∈ [Instr.sadd ⟨0, 3, 1, .i32, .reg 2⟩, .ssub ⟨0, 0, 127, .b64, .imm 1⟩,
    .smul ⟨0, 3, 1, .n64, .lit 5⟩, .smulh ⟨0, 3, 1, .i32, .reg 2⟩, .sdiv ⟨0, 3, 1, .i32, .reg 0⟩, .srem ⟨0, 3, 1, .i64, .reg 0⟩,
    .sand ⟨0, 3, 1, .b32, .reg 2⟩, .sor ⟨0, 3, 1, .b32, .reg 2⟩, .sxor ⟨0, 3, 1, .b32, .reg 2⟩, .sshl ⟨0, 3, 1, .i32, .reg 2⟩,
    .sshr ⟨0, 3, 1, .i32, .reg 2⟩, .smin ⟨0, 3, 1, .i32, .reg 2⟩, .smax ⟨0, 3, 1, .n64, .reg 2⟩, .smov ⟨0, 3, 1, .i32, .reg 0⟩,
    .smov ⟨0, 3, 0, .i32, .imm 4⟩, .ssel ⟨0, 3, 1, .b32, .reg 2⟩ 0, .scmp ⟨0, 7, 1, .i32, .reg 2⟩ .eq],
    CanIssue (one team0) 0 team0 i := by decide +kernel

theorem witness_MaskInstructions : (∀ i ∈ [Instr.kand 0 1 2 3, .kor 0 1 2 3, .kxor 0 1 2 3, .kandn 0 1 2 3, .knot 0 15 0, .kmov 0 1 2,
    .kfromv 0 1 9, .kcnt 0 3 1, .kfirst 0 3 1, .ktest 0 7 1 .none, .ktov 0 9 1, .kgetw 0 3 1 (.reg 2), .ksetw 0 1 3 (.imm 0),
    .ksetw 0 1 3 (.imm 1)], CanIssue (one team0) 0 team0 i) ∧
    (sy team0 64 (.imm 0)).toNat % 32 < team0.lanes / 32 ∧ team0.lanes / 32 ≤ (sy team0 64 (.imm 1)).toNat % 32 := by decide +kernel

theorem witness_SystemRegisters : (∀ sel ∈ [Sel.teamid, .crewid, .clusteridx, .clusteridy, .clusteridz, .stage, .role, .lanes, .nregs,
    .fpmode, .fpflags, .stampfloor, .batchnext, .batchdone, .faultcode, .faultpc, .resumepc, .laneid, .faultaddr, .horizoncache,
    .handlerbase, .poolcounter, .redlogbase], CanIssue (one team0) 0 team0 (.getsys 0 2 sel)) ∧
    CanIssue (one team0) 0 team0 (.getsys 0 1 .faultmask) ∧ flagsPending (one team0) 0 = false ∧
    (tbGet (one team0).contexts 0).isSome = true ∧
    (∀ sel ∈ [Sel.fpmode, .fpflags, .stampfloor, .handlerbase, .poolcounter, .redlogbase],
      CanIssue (one (priv team0)) 0 (priv team0) (.setsys 0 2 sel)) ∧
    (BitVec.ofNat 64 (2 ^ 63)).toNat / 1024 ≤ 2 ^ 53 ∧ 2 ^ 53 < (BitVec.ofNat 64 (2 ^ 63 + 1024)).toNat / 1024 := by decide +kernel

theorem witness_BranchesAndCalls :
    let t := last { team0 with s := [(1, 8), (2, 9), (3, 1)] }
    (∀ i ∈ [Instr.br 5, .brc 0 false 5, .brc 0 true 5, .brz 1 false 5, .brz 1 true 5, .call 0 5, .jmp 0 1, .jmp 0 2, .loop 1 5,
      .loop 3 5], CanIssue (one t) 0 t i) ∧ cget t 0 ≠ false ∧ cget t 0 = true ∧ decide (kget t 1 = 0) ≠ false ∧
    decide (kget t 1 = 0) = true ∧ (sget t 1).toNat % 8 = 0 ∧ (sget t 2).toNat % 8 ≠ 0 ∧ sget t 1 ≠ 1 ∧ sget t 3 = 1 ∧
    (t.pc + BitVec.ofInt 64 (8 * 5)).toNat % 8 = 0 := by decide +kernel

/-- A target that is no multiple of 8, for a team at such a PC. -/
theorem witness_branch_misaligned :
    let t := last { team0 with pc := BitVec.ofNat 64 (probeVa + 12) }
    (∀ i ∈ [Instr.br 5, .call 1 5], CanIssue (one t) 0 t i) ∧ (t.pc + BitVec.ofInt 64 (8 * 5)).toNat % 8 ≠ 0 := by decide +kernel

/-- The team after a YIELD. -/
def yielded : Team := { team0 with notNext := true }

/-- A debugger attached to the context, with a mailbox of n entries. -/
def dbgOne (n : Nat) (brk : Bool) (t : Team) : State :=
  modCore (one t) 0 fun c => { c with attach := true, haltbrk := brk, mail := List.replicate n ⟨0, 0, 0, 0⟩ }

theorem witness_ControlEffects : (∀ i ∈ [Instr.nop 0, .yield 0, .mbox 0 1 255], CanIssue (one team0) 0 team0 i) ∧
    CanIssue (one (last team0)) 0 (last team0) (.exit 0) ∧
    (∀ i ∈ [Instr.rtt 0 true, .escalate 0 1], CanIssue (one (priv (last team0))) 0 (priv (last team0)) i) ∧
    yielded.notNext = true ∧ ((one team0).core 0).attach = false := by decide +kernel

theorem witness_mailbox : (∀ n ∈ [15, 16], CanIssue (dbgOne n false team0) 0 team0 (.mbox 0 1 0) ∧ ((dbgOne n false team0).core 0).attach = true ∧
      ((dbgOne n false team0).core 0).dctx = team0.ctx ∧ ((dbgOne n false team0).core 0).mail.length = n) := by decide +kernel

theorem witness_TrapAndBreakpoint : CanIssue (one team0) 0 team0 (.trap 0 255) ∧ CanIssue (one team0) 0 team0 (.brkpt 0) ∧
    ((one team0).core 0).attach = false ∧ CanIssue (dbgOne 0 true team0) 0 team0 (.brkpt 0) ∧
    ((dbgOne 0 true team0).core 0).haltbrk = true := by decide +kernel

theorem witness_VectorIntegerArithmetic :
    let o : VBin := ⟨1, 4, 6, .i32, .reg 8⟩
    ∀ i ∈ [Instr.vadd o, .vsub o, .vmul o, .vmulh o, .vdiv o, .vrem o, .vmin o, .vmax o, .vand o, .vor o, .vxor o, .vshl o, .vshr o,
      .vrot ⟨1, 4, 6, .b64, .sb 1⟩, .vadds o true], CanIssue (one team0) 0 team0 i := by decide +kernel

theorem witness_VectorIntegerOtherForms :
    let o : VBin := ⟨1, 4, 6, .i32, .reg 8⟩
    let b : VBin := ⟨1, 4, 6, .b32, .lit 8⟩
    (∀ i ∈ [Instr.vmad ⟨1, 4, 6, 8, 10, .i32⟩, .vbfi ⟨1, 4, 6, 8, 10, .b32⟩, .vabs ⟨1, 4, 6, .i32⟩, .vneg ⟨1, 4, 6, .i32⟩,
      .vnot ⟨1, 4, 6, .b32⟩, .vpopc ⟨1, 4, 6, .b64⟩, .vclz ⟨1, 4, 6, .b32⟩, .vsel b 0, .vmov ⟨1, 4, 6, .b32, .reg 0⟩,
      .vmulw ⟨1, 4, 6, .n32, .reg 8⟩, .vbfe o, .vlane 1 4 2 true, .vcmp ⟨1, 1, 6, .i32, .reg 8⟩ .lt,
      .vaddc ⟨1, 4, 6, .n32, .reg 8⟩ 1], CanIssue (one team0) 0 team0 i) ∧
    active team0 1 = [] ∧ active team0 0 ≠ [] ∧ CanIssue (one team0) 0 team0 (.vcmp ⟨0, 1, 6, .i32, .reg 8⟩ .lt) ∧
    CanIssue (one team0) 0 team0 (.vaddc ⟨0, 4, 6, .n32, .reg 8⟩ 1) := by decide +kernel

theorem witness_VectorFloat :
    let o : VBin := ⟨0, 4, 6, .f, .reg 8⟩
    let u : VUn := ⟨0, 4, 6, .h⟩
    (∀ i ∈ [Instr.vfadd o .rne, .vfsub o .rtz, .vfmul o .rup, .vfmin o true, .vfmax o false, .vfcopysign o .xor, .vfscale o .rne,
      .vfrsqs u, .vfrcps u, .vfabs u, .vfneg u, .vfclass u, .vfrnd u .rdn true, .vfexp2 u, .vflog2 u, .vfgetexp u, .vfgetman u,
      .vfma ⟨0, 4, 6, 8, 10, .d⟩, .vfcmp ⟨0, 1, 6, .h, .reg 8⟩ .eq true true true, .vfcmp ⟨1, 1, 6, .f, .reg 8⟩ .eq true true false],
      CanIssue (one team0) 0 team0 i) ∧ active team0 0 ≠ [] ∧ active team0 1 = [] := by decide +kernel

theorem witness_LongArithmeticIssue : (∀ k ∈ [0, 1], CanIssue (one team0) 0 team0 (.vfdiv ⟨k, 4, 6, .f, .reg 8⟩ 3 .rne) ∧
    CanIssue (one team0) 0 team0 (.vfsqrt ⟨k, 4, 6, .d⟩ 1 .rne)) ∧ active team0 0 ≠ [] ∧ active team0 1 = [] := by decide +kernel

theorem witness_ConversionsAndPermutes : ∀ i ∈ [Instr.vcvt 0 4 6 .d .i32 .rne, .vpack ⟨0, 4, 6, .h, .reg 8⟩ .rne,
    .vunpk ⟨0, 4, 6, .bf⟩ true, .vqnt ⟨0, 4, 6, .t8, .reg 8⟩ 3, .vdqnt ⟨0, 4, 6, .t6, .reg 8⟩ 0, .vshfl ⟨0, 4, 6, .b64, .reg 7⟩ .up,
    .vxch ⟨0, 4, 6, .b32, .sb 1⟩], CanIssue (one team0) 0 team0 i := by decide +kernel

theorem witness_FoldsAndScans : (∀ i ∈ [Instr.vfold ⟨0, 3, 6, .i32⟩ .add false, .vfold ⟨1, 3, 6, .i32⟩ .add false,
    .vscan ⟨0, 4, 6, .f⟩ .min true false, .vreadl 0 3 6 .b32 (.lit 0), .vreadl 1 3 6 .b32 (.lit 32), .vwritel 0 6 3 .b32 (.lit 31),
    .vwritel 0 6 3 .b32 (.lit 32)], CanIssue (one team0) 0 team0 i) ∧ active team0 1 = [] ∧ active team0 0 ≠ [] ∧
    foldTeam team0 0 6 .i32 .add false = some (0, 0) ∧ (kget team0 0).getLsbD 31 = true ∧
    Ty.i32.isFloat = false ∧ team0.lanes ≤ 1024 ∧ team0.lanes % 32 = 0 ∧
    (active teamK 1).map (fun l => vgetT teamK .i32 6 l) = [0, 0] := by decide +kernel

theorem witness_DualWord : CanIssue (one team0) 0 team0 (.dualWord ⟨.vadd, 4, 5, 0, .i32⟩ ⟨.vfmul, 9, 6, 0, .f⟩) ∧
    CanIssue (one team0) 0 team0 (.dualWord ⟨.sadd, 4, 5, 0, .i32⟩ ⟨.vmov, 9, 6, 7, .b32⟩) := by decide +kernel

theorem witness_ClauseEntry :
    let t := { team0 with clause := none, pc := BitVec.ofNat 64 probeVa }
    let d : Team := { t with pre := .drain }
    (one t).curTeam = some (0, t) ∧ t.clause = none ∧ (Instr.clauseEntry ⟨1, some 11, none, 15, some 1, false⟩).wf = true ∧
    (one d).curTeam = some (0, d) ∧ d.pre = .drain ∧ (Instr.clauseEntry ⟨0, none, none, 0, none, false⟩).wf = false := by decide +kernel

theorem witness_NextWordOrNextClause : ∀ d ∈ [DbgStep.none, .instruction, .clause], ∀ n ∈ [1, 2],
    (one { team0 with dbg := d }).team 0 = some { team0 with dbg := d } ∧ (last team0).clause.isSome = true ∧
    (team0.pc.toNat - probeVa) / 8 + 1 ≤ 2 ∧ 2 < (team0.pc.toNat - probeVa) / 8 + 2 := by decide +kernel

/-- LOAD may not issue VFADD; no team owns the matrix engine. -/
theorem witness_ChecksBeforeAnInstruction :
    let l : Team := { team0 with role := 0 }
    (one team0).curTeam = some (0, team0) ∧ (one l).curTeam = some (0, l) ∧
    (let i : Instr := .mxmma 0 0 0 32 1 .t8 false false 0
     (encode i).isSome = true ∧ encodingOk i team0 = true ∧ privileged i = false ∧ roleOk i team0.role = true ∧ needsMx i = true ∧
       ((one team0).core 0).mxOwner ≠ some 0) ∧
    (let i : Instr := .br 1
     (encode i).isSome = true ∧ encodingOk i team0 = false) ∧
    (let i : Instr := .escalate 0 1
     (encode i).isSome = true ∧ encodingOk i (last team0) = true ∧ privileged i = true ∧ team0.priv = false) ∧
    (let i : Instr := .vfadd ⟨0, 4, 6, .f, .reg 8⟩ .rne
     (encode i).isSome = true ∧ encodingOk i l = true ∧ privileged i = false ∧ l.priv = false ∧ roleOk i l.role = false) := by
  decide +kernel

/-- A handler window and HANDLERBASE set. -/
def handled (t : Team) : State :=
  modCtx (one { t with hwin := true }) 0 fun c => { c with handlerbase := BitVec.ofNat 64 probeVa }

theorem witness_FaultEntersHandler :
    let t := { team0 with hwin := true }
    (handled team0).team 0 = some t ∧ (tbGet (handled team0).contexts t.ctx).map (·.handlerbase) = some (BitVec.ofNat 64 probeVa) ∧
    t.priv = false ∧ t.live &&& laneMask t.lanes = t.live ∧ BitVec.ofNat 64 probeVa ≠ 0 ∧ smWf 0 t.v = true ∧ smWf 0 t.s = true ∧
    smWf 0 t.k = true ∧ smWf 0 t.f = true ∧ smWf 0 t.q = true ∧ t.k = [] := by decide +kernel

theorem witness_FaultWithoutHandlerParks : (one team0).team 0 = some team0 ∧ (tbGet (one team0).contexts team0.ctx).isSome = true ∧
    team0.hwin = false ∧ (priv team0).priv = true ∧ FCode.dataUncorrectable ≠ .reductionLogHalt := by decide +kernel

theorem witness_ReturnFromHandler :
    let t : Team := { team0 with priv := true, resumepc := BitVec.ofNat 64 (probeVa + 8), resumeHdr := BitVec.ofNat 64 probeVa,
                                 faultpc := BitVec.ofNat 64 (probeVa + 8), faultWords := 1, shadow := 3 }
    (one t).team 0 = some t ∧ t.resumeHdr ≠ t.resumepc ∧ t.faultAtHeader = false ∧
    (match fetchWord (one t) t t.resumeHdr with | (_, .ok w) => isErr (decodeHeader w) | _ => true) = false ∧
    (t.resumepc.toNat - t.resumeHdr.toNat) / 8 ≤ 1 ∧ 1 < (t.resumepc.toNat + 8 - t.resumeHdr.toNat) / 8 ∧
    ({ t with resumeHdr := t.resumepc } : Team).resumeHdr = t.resumepc ∧ t.k = [] ∧
    -- past its clause, without a skip: resumepc two words past a header of LEN 1
    1 < (BitVec.ofNat 64 (probeVa + 16) - t.resumeHdr).toNat / 8 := by decide +kernel

/-- Page-table entries were installed that the instruction translated through (spec/19 R371). -/
theorem witness_installed_entries : ({ one team0 with xlSince := 5 } : State).xlSince ≠ 0 ∧ (one team0).xlSince = 0 ∧
    ({ one team0 with xlSince := 5 } : State).team 0 = some team0 := by decide +kernel

theorem witness_RegistersReadBack : Safety.TeamOk team0 :=
  ⟨by decide, by decide, by decide, by decide, by decide, fun _ h => nomatch h⟩

theorem witness_RegisterInstructionFrame : (∀ i ∈ [Instr.nop 0, .sadd ⟨0, 0, 1, .i32, .reg 2⟩, .scmp ⟨0, 7, 1, .i32, .reg 2⟩ .eq,
    .kand 0 1 2 3, .kcnt 0 3 1, .ktest 0 7 1 .none, .ktov 0 9 1, .vadd ⟨0, 4, 6, .i64, .reg 8⟩, .vcmp ⟨0, 1, 6, .i32, .reg 8⟩ .lt,
    .vmulw ⟨0, 4, 6, .n32, .reg 8⟩, .vreadl 0 3 6 .b32 (.lit 0), .vwritel 0 6 3 .b64 (.lit 31)],
    CanIssue (one team0) 0 team0 i ∧ (Spec.writes i).isSome = true) := by decide +kernel

/-- The team of the memory witnesses: scratchpad addresses in s1 to s4, a global one in s5, lengths in s6 and s7. -/
def teamA : Team :=
  { team0 with k := [(1, 0x21)], s := [(1, spad 128), (2, spad 65532), (3, spad 65536), (4, spad 4096), (5, BitVec.ofNat 64 (2 ^ 30)),
                                       (6, 512), (7, 1), (8, 5)] }

/-- A store of the team not yet acknowledged. -/
def busy (t : Team) : State := { one t with ops := [(1, newOp t 0 (.nop 0) ⟨[], [], []⟩ .store)], nextId := 2 }

/-- For a load or store: it passes the first checks, its lanes, its check without and with failures. -/
def accessOk (t : Team) (i : Instr) (acc : Acc) (n : Nat) (lanes : List (Nat × W64)) : Bool :=
  let cs := (checkLanes (one t) t 0 acc n lanes).2
  decide (CanIssue (one t) 0 t i) && !lanes.isEmpty && (failures cs).isEmpty && (watchLanes (one t) t acc.write (passed cs)).isEmpty

theorem witness_LoadsAndStoresIssue :
    let ld (a : Nat) : MemOp := ⟨1, 1, 4, a, 0, true, false, .b32, .relaxed, .team⟩
    let sc : MemOp := ⟨1, 0, 4, 1, 0, true, false, .b32, .sc, .sys⟩
    let st : MemOp := ⟨1, 0, 4, 1, 0, true, false, .b32, .rel, .crew⟩
    accessOk teamA (.ld (ld 2)) ⟨false, some 0, 4, false, false⟩ 4 (memLanes teamA 1 2 0 true false) = true ∧
    accessOk teamA (.ld sc) ⟨false, some 0, 4, false, false⟩ 4 (memLanes teamA 1 1 0 true false) = true ∧
    accessOk teamA (.lds ⟨1, 0, 4, 1, 0, false, false, .b32, .relaxed, .team⟩) ⟨false, some 0, 4, false, false⟩ 4 (onceLanes (one teamA) teamA 1 1) = true ∧
    accessOk teamA (.ldpk 1 0 4 1 0 true false true) ⟨false, some 0, 4, true, false⟩ 36 (memLanes teamA 1 1 0 true false) = true ∧
    accessOk teamA (.st st) ⟨true, some 1, 4, false, false⟩ 4 (memLanes teamA 1 1 0 true false) = true ∧
    accessOk teamA (.sts ⟨1, 0, 4, 1, 0, false, false, .b32, .relaxed, .team⟩) ⟨true, some 1, 4, false, false⟩ 4 (onceLanes (one teamA) teamA 1 1) = true ∧
    (memLanes teamA 2 1 0 true false).isEmpty = true ∧
    (checkFault none (failures (checkLanes (one teamA) teamA 0 ⟨false, some 0, 4, false, false⟩ 4 (memLanes teamA 1 3 0 true false)).2)).isSome = true ∧
    CanIssue (busy teamA) 0 teamA (.ld sc) ∧ CanIssue (busy teamA) 0 teamA (.st st) ∧ isRel sc.order = true ∧ isRel st.order = true ∧
    isAcq sc.order = true ∧ mustDrain (busy teamA) 0 = true ∧ mustDrain (one teamA) 0 = false := by decide +kernel

/-- At both ends of the partition. -/
theorem witness_ScratchpadStoreWritesItsBytes : ∀ x ∈ [(1, 128), (2, 65532)],
    let o : MemOp := ⟨1, 0, 6, x.1, 0, true, false, .b32, .relaxed, .team⟩
    let lanes := memLanes teamA 1 x.1 0 true false
    CanIssue (one teamA) 0 teamA (.st o) ∧ CanIssue (one teamA) 0 teamA (.ld o) ∧ Memory.wf (one teamA).mem = true ∧ isRel o.order = false ∧
    lanes ≠ [] ∧ tbGet (one teamA).crews teamA.crew = some crew0 ∧ crew0.windows = [] ∧ ((one teamA).core 0).attach = false ∧
    (∀ y ∈ lanes, y.2 = BitVec.ofNat 64 (scratchBase + x.2) ∧ x.2 % 4 = 0 ∧ x.2 + 4 ≤ crew0.partSize ∧ crew0.partSize ≤ 2 ^ 20 ∧
      inRing (one teamA) 0 x.2 4 = false ∧ touchesCounter (one teamA) (partKey 0 x.2) 4 = false ∧
      poisoned (one teamA) (sectorOf (partKey 0 x.2)) = false) := by decide +kernel

theorem witness_ScratchpadLoad : ∃ off, Spec.InScratchpad (one teamA) teamA (memLanes teamA 1 1 0 true false) 4 off :=
  ⟨fun _ => 128, crew0, by decide +kernel⟩

/-- A generation pin whose stamp is 5. -/
def pinned (t : Team) : State := { one t with gpins := [⟨1, 5, 0, 0⟩] }

theorem witness_AsOf :
    let o : AsofOp := ⟨1, 0, 4, 5, 0, true, 8, .b32⟩
    let os : AsofOp := ⟨1, 0, 4, 5, 0, false, 8, .b32⟩
    let cs (s : State) : List LaneCheck :=
      asofChecks s 5 (checkLanes s teamA 0 ⟨false, some 0, 4, false, true⟩ 4 (memLanes teamA 1 5 0 true false)).2
    (∀ s ∈ [one teamA, pinned teamA], CanIssue s 0 teamA (.ldasof o) ∧ CanIssue s 0 teamA (.ldasofs os)) ∧
    memLanes teamA 1 5 0 true false ≠ [] ∧ memLanes teamA 2 5 0 true false = [] ∧ failures (cs (pinned teamA)) = [] ∧
    (checkFault none (failures (cs (one teamA)))).isSome = true ∧
    (stampAt { one teamA with sectors := [(7, (10, 0))] } 7).1.toNat ≤ (10 : W64).toNat ∧
    (9 : W64).toNat < (stampAt { one teamA with sectors := [(7, (10, 0))] } 7).1.toNat := by decide +kernel

/-- A stash window of that crew at offset 4096. -/
def windowed (t : Team) : State := modCrew (one t) 0 fun c => { c with windows := [⟨4096, 512, BitVec.ofNat 64 (2 ^ 30), []⟩] }

theorem witness_PrefetchStashAndAppend :
    CanIssue (one teamA) 0 teamA (.pref 1 5 0 true false true) ∧ teamA.role = 4 ∧ active teamA 1 ≠ [] ∧ active teamA 2 = [] ∧
    CanIssue (one teamA) 0 teamA (.stashmap 1 4 5 6) ∧ isErr (stashCheck (one teamA) teamA (spad 4096) (BitVec.ofNat 64 (2 ^ 30)) 512) = false ∧
    isErr (stashCheck (one teamA) teamA (spad 65536) (BitVec.ofNat 64 (2 ^ 30)) 512) = true ∧ mustDrain (one teamA) 0 = false ∧
    cmdsTouch (one teamA) 0 4096 4608 false = false ∧
    (∀ d ∈ [0, 4, 5], CanIssue (windowed teamA) 0 teamA (.stashdrop 1 d false)) ∧ mustDrain (windowed teamA) 0 = false ∧
    cmdsTouch (windowed teamA) 0 4096 4608 true = false ∧
    (windowsOf (windowed teamA) 0).any (fun w => decide ((spad 4096).toNat = scratchBase + w.off)) = true ∧
    (windowsOf (windowed teamA) 0).any (fun w => decide ((BitVec.ofNat 64 (2 ^ 30)).toNat = scratchBase + w.off)) = false := by
  decide +kernel

theorem witness_vapnd : CanIssue (one teamA) 0 teamA (.vapnd 1 4 2) ∧ active teamA 1 ≠ [] ∧
    tbGet (one teamA).crews teamA.crew = some crew0 ∧ crew0.windows = [] ∧ ((one teamA).core crew0.core).attach = false ∧
    sget teamA 2 = BitVec.ofNat 64 (scratchBase + 65532) ∧ 65532 + 4 ≤ crew0.partSize ∧ inRing (one teamA) 0 65532 4 = false ∧
    touchesCounter (one teamA) (partKey 0 65532) 4 = false ∧ poisoned (one teamA) (sectorOf (partKey 0 65532)) = false ∧
    Memory.wf (one teamA).mem = true := by decide +kernel

theorem witness_AtomicsAndReductions :
    let o (a : Nat) (ord : Order) (sc : Scope) : AtOp := ⟨1, 0, 8, a, 20, false, .n32, ord, sc⟩
    let lanes (a : Nat) : List (Nat × W64) := (active teamA 1).map fun l => (l, laneAddr teamA a 20 false false l)
    let cs (a : Nat) : List LaneCheck := (checkLanes (one teamA) teamA 0 ⟨true, none, 4, false, false⟩ 4 (lanes a)).2
    (∀ i ∈ [Instr.atom (o 1 .relaxed .team) .inc, .atom (o 1 .acq .crew) .add, .atcas (o 1 .sc .dev), .vatom (o 1 .relaxed .team) .add,
      .red (o 1 .rel .crew) .add, .vred (o 1 .relaxed .team) .max], CanIssue (one teamA) 0 teamA i) ∧
    lanes 1 ≠ [] ∧ active teamA 2 = [] ∧ failures (cs 1) = [] ∧ watchLanes (one teamA) teamA true (passed (cs 1)) = [] ∧
    (checkFault none (failures (cs 3))).isSome = true ∧ (pickFault ((failures (cs 3)).filter redPrecise)).isSome = true ∧
    pickFault ((failures (cs 1)).filter redPrecise) = none ∧ mustDrain (one teamA) 0 = false := by decide +kernel

theorem witness_AtomicFunctions : 32 = tyWidth .i32 ∧ 64 = tyWidth .n64 := by decide

/-- A live counter of value 3 at offset 128 of the partition. -/
def counted (q : List Waiter) : State := { one teamA with counters := [(partKey 0 128, ⟨0, 3, false, 3, [], q, 0, false⟩)] }

theorem witness_AllowanceInstructions : ∀ s ∈ [one teamA, counted []],
    (∀ i ∈ [Instr.alinit 1 1 (.reg 7), .alinit 2 1 (.reg 7), .aldec 1 1 2 1 (.reg 7) true .dev false, .aldec 1 0 0 1 (.lit 9) false .team true,
      .alinc 1 1 (.lit 7) true .crew, .alrd 1 1 2 1 true .dev, .alfree 1 1], CanIssue s 0 teamA i) ∧ active teamA 1 ≠ [] ∧
    active teamA 2 = [] ∧ isErr (counterCheck s teamA (spad 128) true true (2 ^ 48 - 1)).2 = false ∧
    isErr (counterCheck s teamA (spad 128) true false 3).2 = false ∧ isErr (counterCheck s teamA (spad 128) false false 0).2 = false ∧
    allowWatch (counterCheck s teamA (spad 128) true false 3).1 teamA true (spad 128) = [] ∧
    inRing s 0 128 64 = false ∧ mustDrain s 0 = false ∧ (tbGet (counted []).counters (partKey 0 128)).isSome = true ∧
    (tbGet (one teamA).counters (partKey 0 128)).isNone = true := by decide +kernel

/-- The three answers of ALDEC on that counter: taken, failed, queued. -/
theorem witness_aldec :
    (match (aldecAt (counted []) (partKey 0 128) 0 3 false).2 with | .ok _ => true | _ => false) = true ∧
    (aldecAt (counted []) (partKey 0 128) 0 4 false).2 = .fail ∧ (aldecAt (counted []) (partKey 0 128) 0 4 true).2 = .queue := by
  decide +kernel

/-- The stack of a context's descriptors up and down: a descriptor of global memory on a stack that is not ready. -/
theorem witness_counter_reachable :
    let key := hbmKey 0 4096
    let c : Counter := ⟨0, 3, false, 3, [], [], 0, false⟩
    let up : State := { one teamA with counters := [(key, c)], readyStack := 0xFFF }
    let down : State := { up with readyStack := 0 }
    reachable up key = true ∧ reachable down key = false ∧ reachable (counted []) (partKey 0 128) = true ∧
    (∀ s ∈ [up, down], tbGet s.counters key = some c) ∧ alincLocal down key 0 2 = false := by decide +kernel

theorem witness_AllowanceCountsAreExact : ∃ c, tbGet (counted []).counters (partKey 0 128) = some c ∧
    (c.shares.map (·.1)).Pairwise (· < ·) ∧ counterValue c < 2 ^ 48 ∧ c.queue = [] ∧ 3 ≤ counterValue c :=
  ⟨⟨0, 3, false, 3, [], [], 0, false⟩, by decide +kernel⟩

/-- The context's log holds an entry not yet reported. -/
def armedOne (t : Team) : State := modCtx (one t) 0 fun c => { c with armed := true }

theorem witness_Fences : (∀ i ∈ [Instr.fence 0 .acqrel .dev, .fenceo 0 .crew, .fencer 0 .sys],
      CanIssue (one teamA) 0 teamA i ∧ CanIssue (armedOne teamA) 0 teamA i ∧ CanIssue (busy teamA) 0 teamA i) ∧
    haltsAt (armedOne teamA) teamA = true ∧ haltsAt (one teamA) teamA = false ∧ haltsAt (busy teamA) teamA = false ∧
    isRel Order.acqrel = true ∧ isAcq Order.acqrel = true ∧ mustDrain (busy teamA) 0 = true ∧ mustDrain (one teamA) 0 = false ∧
    loadsPending (one teamA) 0 = false ∧
    loadsPending { one teamA with ops := [(1, newOp teamA 0 (.nop 0) ⟨[], [], []⟩ .load)] } 0 = true := by decide +kernel

/-- What a page walk ends in: 0 to 2 a leaf of that level, 3 a pointer, 4 to 6 an absent entry of level 0 to 2, 7 another end. -/
def walkKind (s : State) (va stop : Nat) : Nat :=
  match (walk s 0 va stop).2 with
  | .leaf l _ _ => l
  | .pointer _ _ => 3
  | .absent l _ _ => 4 + l
  | _ => 7

/-- That memory with a pointer in the second entry of the table of 1 GiB pages. -/
def pointered (t : Team) : State := memWrite (one t) (stackBase + 2 ^ 30 + 8192 + 16) (leBytes 8 (2 ^ 63 + (stackBase + 2 ^ 31)))

/-- The team of the mapping witnesses, in its handler: addresses in s1 to s5, lengths and entries from s8. -/
def teamP : Team :=
  priv { teamA with s := [(1, BitVec.ofNat 64 (2 ^ 30)), (2, BitVec.ofNat 64 (2 ^ 31)), (3, 0), (4, BitVec.ofNat 64 (2 ^ 40)), (5, BitVec.ofNat 64 globEnd),
                          (8, 65536), (9, BitVec.ofNat 64 (2 ^ 63 + 3 * 2 ^ 59)), (10, 0), (11, BitVec.ofNat 64 (2 ^ 56))] }

theorem witness_MaintenanceAndMapping :
    (∀ i ∈ [Instr.cmaint 1 1 8 .clean .l1, .cmaint 1 5 8 .inv .llc, .cmaint 1 1 10 .cleaninv .mem, .tlblock 1 1 8, .tlbunlock 1 1 8, .pgmap 1 2 1 9,
      .pgmap 1 2 2 9, .pgmap 1 2 3 9, .pgmap 1 2 4 9, .pgunmap 1 1 10, .pgunmap 1 3 10], CanIssue (one teamP) 0 teamP i) ∧
    active teamP 1 ≠ [] ∧ active teamP 2 = [] ∧ mustDrain (one teamP) 0 = false ∧ globEnd < (sget teamP 5).toNat + 65536 ∧
    rangeCheck (sget teamP 1) 65536 = none ∧
    (lockPages 0 (2 ^ 30 + 65536) (lockedCount (one teamP) 0 + 4098) (2 ^ 30) (one teamP)).2 = none := by decide +kernel

/-- A page that no accepted near-memory command uses, and one that a command does. -/
theorem witness_pgunmap_pages :
    let n : Nmc := ⟨0, .f, 16, BitVec.ofNat 64 (2 ^ 30), 0, 0, [(2 ^ 30, 2 ^ 30, stackBase, false, false)], true, [0], 0, none⟩
    let c : Cmd := ⟨0, 0, 0, 0, 0, 0xF7, 0, [], 0, 0, none, true, false, false, none, [], none, [], .nmc n⟩
    nmcUses (one teamP) 0 (2 ^ 30) (2 ^ 31) = false ∧ nmcUses { one teamP with cmds := [(1, c)] } 0 (2 ^ 30) (2 ^ 31) = true := by decide +kernel

theorem witness_walks :
    let e := (sget teamP 9).toNat
    pteP e = true ∧ pteSize e = 3 ∧ 2 ^ 30 % sizeBytes 3 = 0 ∧ walkKind (one teamP) (2 ^ 30) 2 = 2 ∧ walkKind (pointered teamP) (2 ^ 31) 2 = 3 ∧
    walkKind (one teamP) 0 2 = 6 ∧ walkKind (one teamP) (2 ^ 40) 2 = 7 ∧ walkKind (one teamP) (2 ^ 30) 0 = 2 ∧ walkKind (one teamP) 0 0 = 6 ∧
    pteP (sget teamP 10).toNat = false ∧ inLocked (one teamP) 0 0 = false := by decide +kernel

/-- A page-table entry that can be written, and one on a stack that is down. -/
theorem witness_pte_writable :
    pteWritable (drainPte (one teamP) stackBase) teamP stackBase = true ∧
    pteWritable (drainPte { one teamP with readyStack := 0 } stackBase) teamP stackBase = false := by decide +kernel

theorem witness_HistoryInstructions :
    let off : State := { one teamA with leesMode := 0 }
    let old : State := { one teamA with horizon := 9 }
    (∀ s ∈ [one teamA, busy teamA, off, old], ∀ i ∈ [Instr.stampget 0 1 2, .horizon 0 1 2, .pin 0 0 2 8, .unpin 0 8, .snap 0 1 2], CanIssue s 0 teamA i) ∧
    mustDrain (busy teamA) 0 = true ∧ mustDrain (one teamA) 0 = false ∧ mustDrain off 0 = false ∧ leesOn off = false ∧ leesOn (one teamA) = true ∧
    (sget teamA 8).toNat < old.horizon.toNat ∧ (one teamA).horizon.toNat ≤ (sget teamA 8).toNat ∧ pinsHeld (one teamA) < 256 ∧
    (one teamA).gpins.length < 8 := by decide +kernel

/-- The slots of that crew's rings as they are before the first issue, and one handle pushed into ring 3. -/
def ringed (t : Team) : State := initRings (one t) 0 [⟨2, 2, 0, 1, 0⟩, ⟨3, 2, 1, 0, 64⟩]
def handed (t : Team) : State :=
  match ringOf (ringed t) t 3 with | some g => pushSlot (ringed t) 0 3 g 77 0 | none => ringed t

theorem witness_QueueInstructions :
    (∀ s ∈ [ringed teamA, handed teamA], ∀ i ∈ [Instr.qpush 0 1 2, .qpush 0 1 3, .qpop 0 1 3, .qpop 0 1 2, .qtry 0 1 (.push 1) 2,
      .qtry 0 1 (.pop 1) 3], CanIssue s 0 teamA i) ∧
    (ringFor (ringed teamA) teamA 3 true).isNone = true ∧ (ringFor (ringed teamA) teamA 2 false).isNone = true ∧
    (match ringFor (ringed teamA) teamA 2 true with | some g => g.pushers.isEmpty && decide (g.p - g.q < g.depth) | none => false) = true ∧
    (match ringFor (handed teamA) teamA 3 false with
      | some g => g.poppers.isEmpty && slotFull (handed teamA) 0 g && !popPoisoned (handed teamA) 0 g && decide (popSlot (handed teamA) 0 g % 2 ^ 32 = 77)
      | none => false) = true ∧
    (match ringFor (ringed teamA) teamA 3 false with | some g => !slotFull (ringed teamA) 0 g | none => false) = true ∧
    (match ringFor (ringed teamA) teamA 3 false with
      | some g => popPoisoned { ringed teamA with poison := [sectorOf (partKey 0 64)] } 0 g | none => false) = true ∧
    mustDrain (ringed teamA) 0 = false ∧ mustDrain { ringed teamA with ops := (busy teamA).ops, nextId := 2 } 0 = true ∧
    Memory.wf (ringed teamA).mem = true := by decide +kernel

theorem witness_BarriersAndOwnership :
    let other : State := modCore (one teamA) 0 fun c => { c with mxOwner := some 7 }
    let own : State := modCore (one teamA) 0 fun c => { c with mxOwner := some 0 }
    (∀ i ∈ [Instr.bar 0 false, .bar 0 true, .mxacq 0], CanIssue (one teamA) 0 teamA i) ∧ mustDrain (one teamA) 0 = false ∧
    (tbGet (one teamA).crews 0).isSome = true ∧ ((one teamA).core 0).mxOwner = none ∧ ((one teamA).core 0).mxQueue = [] ∧
    ((one teamA).core 0).mxOver = [] ∧ CanIssue other 0 teamA (.mxacq 0) ∧ (other.core 0).mxOwner ≠ some 0 ∧ CanIssue own 0 teamA (.mxacq 0) ∧
    (own.core 0).mxOwner = some 0 ∧ CanIssue own 0 teamA (.mxrel 0) := by decide +kernel

/-- A kernel descriptor at 2^30 + 64, before the entry at 2^30 + 128. -/
def kernel (t : Team) : State :=
  memWrite (one t) (stackBase + 64) (leBytes 8 0x59564B4400000001 ++ List.replicate 8 0 ++ leBytes 2 16 ++ List.replicate 46 0)

def teamE : Team := { teamA with s := [(1, BitVec.ofNat 64 (2 ^ 30 + 128)), (2, BitVec.ofNat 64 (2 ^ 30 + 4)), (3, spad 512), (4, 1), (5, 0)] }

theorem witness_SpawnBatchesAndChunkWaits :
    (∀ i ∈ [Instr.spawn 1 0 1, .spawn 2 0 1, .spawn 1 0 2, .batch 0 2, .waitb 0 5, .cwait 0 3 4, .cwait 0 3 5, .cwait 0 1 5, .ctest 0 1 3 4,
      .ctest 0 1 1 4], CanIssue (kernel teamE) 0 teamE i) ∧ active teamE 1 ≠ [] ∧ active teamE 2 = [] ∧ (sget teamE 2).toNat % 8 ≠ 0 ∧
    (sget teamE 1).toNat % 64 = 0 ∧
    (match readVirt (kernel teamE) 0 (teamHub teamE) (sget teamE 1 - 64).toNat 64 with
      | (s, .ok d) => descOk d && nregsOk (descNregs d) && !mustDrain s 0 | _ => false) = true ∧
    min (sget teamE 5).toNat (teamE.batchNext - 1) ≤ batchDone (kernel teamE) 0 teamE ∧
    isErr (bitmapAt (kernel teamE) teamE 0 (sget teamE 1)).2 = true ∧
    (match bitmapAt (kernel teamE) teamE 0 (sget teamE 3) with
      | (s, .ok (c, o)) => decide (BitVec.ofNat 64 (leNat (memRead s (partKey c o) 8)) = (0 : W64)) &&
          (bitmapWatch s teamE (sget teamE 3) c o).isEmpty && !cwaitAhead s c o s.nextId | _ => false) = true := by decide +kernel

/-- An earlier waiter on the word finds its bits: it is served first. -/
theorem witness_cwait_ahead :
    let u : Team := { teamE with slot := 1, place := some (0, 1), wait := .cwait (spad 512) 0 3 }
    cwaitAhead { kernel teamE with teams := [(0, teamE), (1, u)] } 0 512 5 = true ∧
    cwaitAhead { kernel teamE with teams := [(0, teamE), (1, u)] } 0 512 3 = false := by decide +kernel

/-- A batch not complete: a command of batch 1 in the queue. -/
theorem witness_waitb :
    let t : Team := { teamA with batchNext := 2 }
    let c : Cmd := ⟨0, 0, 0, 0, 0, 0xF5, 0, [], 0, 0, some 1, false, false, false, none, [], none, [], .qload 0 0⟩
    let s : State := { one t with cmds := [(1, c)] }
    CanIssue s 0 t (.waitb 0 8) ∧ batchDone s 0 t < min (sget t 8).toNat (t.batchNext - 1) := by decide +kernel

/-- The team as owner of the matrix engine. -/
def mxOne (f : State → State) : State := f (modCore (one teamA) 0 fun c => { c with mxOwner := some 0 })

theorem witness_MatrixInstructions :
    (∀ s ∈ [mxOne id, mxOne fun s => { s with poison := [sectorOf (partKey 0 4096)] }],
      ∀ i ∈ [Instr.mxmma 1 1 0 32 4 .f true false 0, .mxmma 2 0 0 32 4 .t8 false true 8, .mxsca 1 0 0 32 64 4, .mxperm 1 0 0 32 64 .b32,
        .mxtrn 1 0 0 64 .b64, .mxrsum 1 0 0 32 .bf], CanIssue s 0 teamA i) ∧
    mxTiles teamA 1 32 8 0 32 none ≠ [] ∧ mxTiles teamA 2 32 8 0 32 none = [] ∧
    aperture (mxOne id) teamA (spad 4096) (bBytes .f) = some (.part 0 4096) ∧ aperture (mxOne id) teamA (BitVec.ofNat 64 (2 ^ 30)) (bBytes .f) ≠ some (.part 0 0) ∧
    (spad 4096).toNat % 4 = 0 ∧ (spad 4097).toNat % 4 ≠ 0 ∧ inWindow (mxOne id) 0 4096 (bBytes .f) = false ∧
    inWindow (modCrew (mxOne id) 0 fun c => { c with windows := [⟨4096, 512, 0, []⟩] }) 0 4096 (bBytes .f) = true ∧
    partPoisoned (mxOne id) 0 4096 (bBytes .f) = false ∧
    partPoisoned (mxOne fun s => { s with poison := [sectorOf (partKey 0 4096)] }) 0 4096 (bBytes .f) = true := by decide +kernel

/-- A copy descriptor of one dimension, 64 elements of one byte, at offset 1024. -/
def copying (t : Team) : State :=
  memWrite (one t) (partKey 0 1024) (leBytes 8 (2 ^ 30) ++ leBytes 8 0x10 ++ List.replicate 8 0 ++ leBytes 4 64 ++ List.replicate 32 0 ++
    leBytes 5 1 ++ List.replicate 40 0 ++ leBytes 1 63 ++ List.replicate 22 0)

def teamC : Team :=
  { teamA with s := [(1, spad 1024), (2, spad 2048), (3, spad 4096), (4, BitVec.ofNat 64 (stackBase + 65536)), (5, spad 65536), (6, spad 16384), (7, spad 24576)] }

theorem witness_CopiesIssue : (∀ i ∈ [Instr.cpin ⟨0, 1, 1, 2, 3, false⟩ false, .cpout ⟨0, 0, 1, 2, 3, false⟩, .cppeer ⟨0, 0, 1, 2, 3, false⟩,
      .cpin ⟨0, 0, 5, 2, 3, false⟩ false], CanIssue (copying teamC) 0 teamC i) ∧
    CanIssue (copying (priv teamC)) 0 (priv teamC) (.cpin ⟨0, 0, 1, 4, 3, false⟩ true) ∧
    (partRange (copying teamC) teamC (spad 65536) 128).isNone = true ∧ partRange (copying teamC) teamC (spad 1024) 128 = some (0, 1024) ∧
    (match engineRead (copying teamC) 0 (teamHub teamC) 0 1024 128 with
      | (s, .ok d) => copyDescOk d false && decide (descT d = 64) && decide (leNat ((d.drop 8).take 8) / 256 % 2 = 0) &&
          decide (partRange s teamC (spad 4096) (bitmapSpan 64) = some (0, 4096)) && decide (partRange s teamC (spad 2048) 64 = some (0, 2048)) &&
          !inRing s 0 4096 (bitmapLen 64) && !inRing s 0 (4096 + (bitmapSpan 64 - 16)) 16 &&
          !wordsTouch s 0 4096 (bitmapLen 64 / 8) && !partTouches s 0 (4096 + (bitmapSpan 64 - 16)) 16 && !inRing s 0 2048 64 && !inWindow s 0 2048 64 &&
          decide (windowOf s (stackBase + 65536) = windowOf s (stackBase + 65599)) && decide ((windowOf s (stackBase + 65536)).getD 13 ≠ 13) &&
          !paTouchesCounter s (stackBase + 65536) 64
      | _ => false) = true ∧
    engineLoad (copying teamC) 0 .copy < engineCap .copy := by decide +kernel

/-- A full queue: sixteen commands of the core's copy engine. -/
theorem witness_full_engine :
    let c : Cmd := ⟨0, 0, 0, 0, 0, 0xF5, 0, [], 0, 0, none, false, false, false, none, [], none, [], .qload 0 0⟩
    engineCap .quant ≤ engineLoad { one teamC with cmds := (List.range 8).map fun n => (n, c) } 0 .quant := by decide +kernel

theorem witness_QuantAndNmcIssue :
    let w : Team := { teamC with s := [(1, BitVec.ofNat 64 (16 * 65536 + 0x802)), (2, BitVec.ofNat 64 (2 ^ 30)), (3, BitVec.ofNat 64 (2 ^ 30 + 64)), (5, spad 64512)] }
    (∀ i ∈ [Instr.qst 0 1 6 2 .t8 7 false true, .qst 0 0 6 2 .t6 0 true false, .qstd 0 0 6 2 .t8 0 1 false, .qload 0 0 3 2, .qload 0 0 5 2, .qsave 0 0 3 7],
      CanIssue (one teamC) 0 teamC i) ∧ CanIssue (one w) 0 w (.nmc 0 1 5 1) ∧ isErr (qmoveCheck (one teamC) teamC (spad 4096)) = false ∧
    isErr (qmoveCheck (one teamC) teamC (spad 65536)) = true ∧
    isErr (quantCheck (one teamC) teamC (spad 2048) [(spad 16384, codesLen .t8), (spad 24576, 48)]) = false ∧
    isErr (quantCheck (one teamC) teamC (spad 65536) [(spad 16384, codesLen .t8), (spad 24576, 48)]) = true ∧
    aperture (one w) w (spad 64512) 16 = some (.part 0 64512) ∧ inRing (one w) 0 64512 16 = false ∧ partTouches (one w) 0 64512 16 = false ∧
    (sget w 1).toNat % 256 = 2 ∧ (sget w 1).toNat / 256 % 16 = 8 ∧ (sget w 2).toNat + 64 ≤ (sget w 3).toNat := by decide +kernel

/-- One operation of the team in flight. -/
def flying (o : Op) : State := { one teamA with ops := [(1, o)], nextId := 2 }

/-- An operation of a kind. -/
def opOf (k : OpKind) : Op := newOp teamA 0 (.nop 0) ⟨[], [], []⟩ k

/-- A matrix operation, its operand read or behind a gate. -/
def mxOp (gated : Bool) : OpKind := .mx ⟨.mma false 0, .f, 0, 1, [], 0, 4096, 64, 0, gated, if gated then none else some []⟩

theorem witness_OperationsComplete :
    (∀ k ∈ [OpKind.load, .store, .reduction, .atomic, .arith, .allowance, .aldecWait 0 0 1 1 false false true, .history (.horizon 1),
      .fencer [(0, []), (3, [])] 4, .fencer [(3, [7])] 0, mxOp false, mxOp true], tbGet (flying (opOf k)).ops 1 = some (opOf k) ∧
        (opOf k).homes = [] ∧ (opOf k).logs = []) ∧
    ({ opOf .reduction with logs := [⟨0, 0, 5, 0xC2, 1, 0, 0, 0⟩] } : Op).logs ≠ [] ∧ running teamA = true ∧
    (one teamA).team 0 = some teamA ∧ ([(0, []), (3, [])] : List (Nat × List Nat)).find? (fun c => c.1 == 3) = some (3, []) ∧
    tbGet (flying (opOf .load)).ops 7 = none ∧ mxOldest (flying (opOf (mxOp true))) 1 (opOf (mxOp true)) = true := by decide +kernel

theorem witness_gated :
    isErr (engineRead (flying (opOf (mxOp true))) 0 (hubOf 0) 0 4096 64).2 = false ∧
    isErr (engineRead { flying (opOf (mxOp true)) with poison := [sectorOf (partKey 0 4096)] } 0 (hubOf 0) 0 4096 64).2 = true ∧
    ({ teamA with wait := .hold 1 } : Team).wait = .hold 1 := by decide +kernel

theorem witness_CompletionWritesDestinations :
    let o : Op := { opOf .load with dest := ⟨[(vkey 4 0, 7), (vkey 4 31, 8)], [(3, 9)], [(1, true)]⟩, flags := [0], floor := 5 }
    let t : Team := { teamA with f := [(0, 1)], wait := .hold 1 }
    let s : State := { flying o with teams := [(0, t)] }
    tbGet s.ops 1 = some o ∧ s.team o.team = some t ∧ smWf 0 t.v = true ∧ smWf 0 t.s = true ∧ smWf 0 t.k = true ∧ smWf 0 t.f = true ∧
    smWf 0 t.q = true ∧ (∀ e ∈ t.k, e.2 &&& laneMask t.lanes = e.2) ∧ o.rewritten = [] ∧ o.late = none ∧ (o.dest.v.map (·.1)).Nodup ∧
    (o.dest.s.map (·.1)).Nodup ∧ (o.dest.c.map (·.1)).Nodup := by decide +kernel

theorem witness_LateFaultsAndCounters :
    let l : Late := ⟨1, .dataUncorrectable, 0, 1, [], 0, none, false⟩
    let t : Team := { team0 with late := [l] }
    let c : Counter := ⟨0, 3, false, 3, [(0, (4, 0)), (5, (1, 0))], [⟨1, 8⟩], 0, false⟩
    let s : State := { one teamA with counters := [(partKey 0 128, c)] }
    teamAt (one t) 0 0 = some (0, t) ∧ lateDue t = some l ∧ tbGet s.counters (partKey 0 128) = some c ∧ (8 : Nat) ≤ counterValue c ∧
    (c.shares.map (·.1)).Pairwise (· < ·) ∧ tbGet c.shares 5 = some (1, 0) ∧ c.reserve + 1 < 2 ^ 48 - 2 ^ 46 ∧
    2 ^ 48 - 2 ^ 46 ≤ ({ c with reserve := 2 ^ 48 - 2 ^ 46 - 1 } : Counter).reserve + 1 := by decide +kernel

/-- A late fault due during a debugger's step: of one instruction, of one clause. -/
theorem witness_late_fault_stepped : ∀ d ∈ [DbgStep.none, .clause], ∀ esc ∈ [false, true],
    let l : Late := ⟨1, .dataUncorrectable, 0, 1, [], 0, none, esc⟩
    let t : Team := { team0 with late := [l], dbg := d }
    teamAt (one t) 0 0 = some (0, t) ∧ lateDue t = some l ∧
    ((enterHandler (one t) 0 ⟨l.code, 0, l.mask, l.addrs, 1, l.phys⟩ l.pc true).team 0).isSome = true := by decide +kernel

/-- The team blocked with a wait, and a crew changed for it. -/
def blocked (w : Wait) (f : Crew → Crew) : State := modCrew (ringed { teamE with wait := w }) 0 f

theorem witness_BlockedTeamsGoOn :
    let pushing : State := modRing (blocked (.push 2 5) id) 0 2 fun g => { g with pushers := [0] }
    let popping : State := modRing (handed { teamE with wait := .pop 3 4 }) 0 3 fun g => { g with poppers := [0] }
    let arrived : State := blocked (.bar false) fun c => { c with bar := ⟨0, [0], 4⟩ }
    let queued : State := modCore (blocked .mxacq id) 0 fun c => { c with mxQueue := [0] }
    (match (tbGet pushing.crews 0).bind fun c => tbGet c.rings 2 with | some g => decide (g.pushers = [0] ∧ 0 < allowance g) | none => false) = true ∧
    (match (tbGet popping.crews 0).bind fun c => tbGet c.rings 3 with
      | some g => decide (g.poppers = [0]) && slotFull popping 0 g && !popPoisoned popping 0 g | none => false) = true ∧
    (match (tbGet popping.crews 0).bind fun c => tbGet c.rings 3 with
      | some g => popPoisoned { popping with poison := [sectorOf (partKey 0 64)] } 0 g | none => false) = true ∧
    (barrierOf arrived false 0).isSome = true ∧ barrierDue arrived false 0 = true ∧ arrived.xlFloor = 0 ∧ (scopeTeams arrived false 0).map (·.1) = [0] ∧
    mxFree queued (queued.core 0) = true ∧ firstRunning queued ((queued.core 0).mxQueue ++ (queued.core 0).mxOver) = some 0 ∧ running teamE = true ∧
    (teamAt (blocked (.waitb 0) id) 0 0).map (·.2.wait) = some (.waitb 0) ∧ 0 ≤ batchDone (blocked (.waitb 0) id) 0 teamE ∧
    (teamAt (blocked (.cwait (spad 512) 0 5) id) 0 0).map (·.2.wait) = some (.cwait (spad 512) 0 5) ∧ teamE.halted = false ∧
    (match bitmapAt (blocked (.cwait (spad 512) 0 5) id) teamE 0 (spad 512) with
      | (s, .ok (c, o)) => (bitmapWatch s teamE (spad 512) c o).isEmpty && !cwaitAhead s c o 5 | _ => false) = true ∧
    isErr (bitmapAt (one teamE) teamE 0 0).2 = true := by
  decide +kernel

/-- A command of the team. -/
def cmd (acc : Bool) (k : CmdKind) : Cmd := ⟨0, 0, 0, 0, 0, 0xF0, 0, [], 0, 0, none, acc, false, false, none, [], none, [], k⟩

/-- A copy of 64 bytes from global memory at 2^30 + off into the partition. -/
def copy (base : W64) : Copy := ⟨0, false, false, false, base, 0, 0, [64], [1], [64], [0], partKey 0 2048, 0, partKey 0 4096, partKey 0 4112, 1, [], []⟩

theorem witness_EnginesWork :
    let s (c : Cmd) : State := { one teamC with cmds := [(1, c)], nextId := 2 }
    let n0 : Nmc := ⟨0, .f, 0, BitVec.ofNat 64 (2 ^ 30), 0, 0, [], false, [], 0, none⟩
    let n1 : Nmc := { n0 with count := 16, ready := true, homes := [0] }
    let ok : Cmd := cmd true (.copy (copy (BitVec.ofNat 64 (2 ^ 30))))
    let bad : Cmd := cmd true (.copy (copy (BitVec.ofNat 64 (2 ^ 40))))
    (acceptNext (s (cmd false (.qload 0 0))) 0 0).map (·.1) = some 1 ∧ (acceptNext (s (cmd false (.nmc n0))) 0 0).map (·.1) = some 1 ∧
    (s (cmd false (.nmc n0))).ops = [] ∧ (chunkStep (s ok) 1 ok (copy (BitVec.ofNat 64 (2 ^ 30))) 0).2.isNone = true ∧
    (chunkStep (s bad) 1 bad (copy (BitVec.ofNat 64 (2 ^ 40))) 0).2.isSome = true ∧ quantNext (s (cmd true (.qload 0 0))) 0 = some 1 ∧
    n1.homes = [0] ∧ (cmd true (.nmc n1)).accepted = true ∧ cmdDone { cmd true (.qload 0 0) with executed := true } = true ∧
    ((tbGet (s { cmd true (.qload 0 0) with executed := true, recorded := true }).cmds 1).map (·.homes)) = some [] := by decide +kernel

/-- A record in a chunk of a tracked frame waits at its home. -/
theorem witness_record_waits :
    let c : Cmd := cmd true (.copy { copy 0 with done := [0] })
    let ch : Chunk := ⟨List.replicate 8 (stackBase / 64), true, List.replicate 8 true, List.replicate 8 false, false⟩
    let s : State := modCrew { one teamC with cmds := [(1, c)], nextId := 2 } 0 fun c => { c with windows := [⟨4096, 512, 0, [(0, ch)]⟩] }
    cmdDone c = true ∧ ((tbGet (nmcStopRec (writeRecord s 1 c) c).cmds 1).map fun c => decide (c.homes ≠ [])) = some true := by decide +kernel

/-- A launch of one cluster of one crew with one team. -/
def launch0 : Launch :=
  { queue := 0, index := 0, status := 0, detached := false, trail := [], code := [], ctx := 0, gx := 1, gy := 1, gz := 1, crews := 1,
    teams := [⟨BitVec.ofNat 64 (2 ^ 30 + 128), 0, 0, 4, 16, 32⟩], rings := [], part := 4096, carve := 1, hwin := false, prot := false, retry := 0, replays := 0, age := 64, stackz := 0, spawnT := 4096, tag := 1,
    floor := 0, sl := none, pin := 0, placed := [], reserved := none, dying := none, restoring := false, discarded := 0, doneCode := none,
    wsectors := [], wblocks := [] }

/-- That launch on a device without teams, with a quad of cores ready. -/
def launched (l : Launch) : State :=
  { kernel teamE with teams := [], crews := [], launches := [(0, l)], cur := none, readyCore := 15, nextId := 9 }

/-- A device whose CP is ready too. -/
def withCp (s : State) : State := { s with readyIo := s.readyIo ||| BitVec.ofNat 21 (2 ^ 18) }

/-- A bin of one record. -/
def bin0 : Bin := ⟨0, BitVec.ofNat 64 (2 ^ 30 + 128), 0, 16, [List.replicate 16 7], 0, 0, 0⟩

theorem witness_HomesBinsAndPartitions :
    let s (f : Core → Core) : State := modCore (launched launch0) 0 f
    let crews (r : Residency) (parts : Nat) : State :=
      { launched launch0 with crews := (List.range 4).map fun n => (n, { crew0 with core := n, residency := r, partSize := parts, launch := 5, rings := [] }),
                              teams := (List.range 4).map fun n => (n, { teamE with place := none, home := n, crew := n, pre := .saved }) }
    (∃ w ∈ ({ one teamA with homeq := [⟨0, 3, 0, [], false, 0, 0, 0, none, none, none, none, none, none⟩] } : State).homeq, w.home = 3) ∧
    ({ one teamA with press := 1 } : State).press.getLsbD 0 = true ∧ ((one teamA).core 0).hcache ≠ (9 : W64) ∧
    (tbGet ((s fun c => { c with bins := [(0, bin0)] }).core 0).bins 0).isSome = true ∧ bin0.born + launch0.spawnT ≤ 4096 ∧
    (nextBin (s fun c => { c with launched := [bin0] }) 0).isSome = true ∧
    (nextBin (withCp (s fun c => { c with launched := [bin0] })) 0).isSome = true ∧ (withCp (launched launch0)).readyIo.getLsbD 18 = true ∧ bin0.records.length ≤ 32 ∧
    crewDone { launched launch0 with crews := [(0, crew0)] } 0 = true ∧
    spillable (crews .retained 262144) 0 { crew0 with residency := .retained, partSize := 262144 } = true ∧
    spillNeeded (crews .retained 262144) 9 0 = true := by decide +kernel

/-- A cluster of that crew. -/
def clustered (st : ClusterState) (t : Team) : State :=
  { one t with clusters := [(0, ⟨0, 0, [0], st, false, newBarrier⟩)], launches := [(0, launch0)],
               contexts := [(0, { probeContext with savelen := 2 ^ 29 })] }

theorem witness_PreemptionAndRestore :
    let drain : Team := { teamA with pre := .drain, reqCycle := 0 }
    let susp : State := modQueue (clustered .placed teamA) 0 fun q => { q with susp := true }
    (match tbGet (clustered .placed drain).clusters 0 with | some k => saveBegun (clustered .placed drain) k && decide (k.state = .placed) | none => false) = true ∧
    (match tbGet susp.clusters 0 with | some k => preemptWanted susp k && saveRoom susp k | none => false) = true ∧
    (teamAt (clustered .placed drain) 0 0).map (·.2.pre) = some .drain ∧ drain.reqCycle + 40000 ≤ ({ one drain with cycle := 40000 } : State).cycle ∧
    (∀ full ∈ [true, false], mayStream (one { teamA with pre := .quiesce full }) 0 { teamA with pre := .quiesce full } = true ∧
      (teamAt (one { teamA with pre := .save full }) 0 0).map (·.2.pre) = some (.save full)) ∧
    (safeRuns (one teamA) teamA).2 = none ∧ (tbGet (clustered .restoring teamA).clusters 0).map (·.state) = some .restoring := by decide +kernel

/-- A header with safe point 0 at 2^30 + 128, whose table names scalars 1 to 2. -/
theorem witness_safe_runs :
    let t : Team := { teamE with pc := BitVec.ofNat 64 (2 ^ 30 + 128), entry := BitVec.ofNat 64 (2 ^ 30 + 128), sptoff := 128, pre := .quiesce false }
    let s := memWrite (memWrite (memWrite (memWrite (kernel t) (stackBase + 76) (leBytes 4 128)) (stackBase + 128)
      (leBytes 8 (packHeader ⟨0, none, none, 1, some 0, false⟩))) (stackBase + 256) (leBytes 4 64))
      (stackBase + 320) (leBytes 4 (2 ^ 31 + 2 ^ 29 + 2 ^ 18 + 2 ^ 7))
    (safeRuns s t).2.isSome = true := by decide +kernel

/-- A launch record that can be admitted, at 2^16 of the stack. -/
def recorded (gx : Nat) : State :=
  memWrite { launched launch0 with launches := [], queues := [(0, { Queue.zero with en := true, base := stackBase + 65536, ring := stackBase + 65536, tail := 1 })],
                                   readyIo := BitVec.ofNat 21 (2 ^ 18) } (stackBase + 65536)
    (leBytes 8 0 ++ leBytes 2 gx ++ leBytes 2 1 ++ leBytes 2 1 ++ leBytes 1 1 ++ leBytes 1 1 ++ leBytes 4 4096 ++ leBytes 1 1 ++ List.replicate 235 0 ++
      leBytes 8 (2 ^ 30 + 128) ++ leBytes 8 (2 * 256 + 4 * 131072) ++ List.replicate 240 0)

theorem witness_QueueControl :
    let s (f : Queue → Queue) : State := modQueue (launched launch0) 0 f
    let legal := s fun q => { q with base := stackBase, log2n := 4, ctxAddr := 0 }
    ((launched launch0).queue 0).en = false ∧ ((s fun q => { q with en := true, susp := true, torn := true }).queue 0).en = true ∧
    ((s fun q => { q with torn := true }).queue 0).torn = true ∧ (BitVec.ofNat 64 (2 ^ 63)).getLsbD 63 = true ∧ (BitVec.ofNat 64 (2 ^ 62)).getLsbD 62 = true ∧
    (BitVec.ofNat 64 (2 ^ 61)).getLsbD 61 = true ∧ (0 : W64).getLsbD 63 = false ∧ (legal.queue 0).base % 2 ^ 13 = 0 ∧
    inOneWindow legal (legal.queue 0).base (2 ^ 13) = true ∧ (enableContext legal 0).2.isSome = true ∧ (enableContext legal (2 ^ 50)).2.isNone = true ∧
    (launched launch0).readyIo.getLsbD 18 = false ∧ (recorded 1).readyIo.getLsbD 18 = true ∧ legal.rebasing = false ∧
    ({ legal with rebasing := true } : State).rebasing = true ∧ (legal.queue 0).susp = false ∧
    (∀ k ∈ [ClusterState.placed, .saved], ((clustered k teamA).clusters.map (·.1)).Nodup ∧
      (tbGet (clustered k teamA).clusters 0).map (·.state) = some k) ∧ launch0.queue ≠ 1 ∧ (16 + 65536 - 0) % 65536 ≤ 2 ^ 4 ∧ 2 ^ 4 < (17 + 65536 - 0) % 65536 := by decide +kernel

theorem witness_Launches :
    let r := (recorded 1).queue 0
    let check (s : State) : Option (Option Nat) := match readPa s (r.ring + 512 * (r.head % 2 ^ r.ringLog)) 512 0 with
      | (s1, some d) => (match (recordCheck s1 r.ctxidx d).2 with | .ok _ => some none | .error e => some (some e)) | _ => none
    let dying : Launch := { launch0 with dying := some ⟨0x02, 2, 0x10, 2, 0, 0, 0, 0, 0⟩ }
    eligible (recorded 1) 0 = true ∧ r.killed = false ∧ r.torn = false ∧ paUsable (recorded 1) (r.base + 0) 512 = true ∧
    check (recorded 1) = some none ∧ check (recorded 0) = some (some 8) ∧ paUsable { recorded 1 with readyStack := 0 } (recordPa (recorded 1) 0 0) 8 = false ∧
    eligible (modQueue (recorded 1) 0 fun q => { q with torn := true }) 0 = true ∧ eligible (modQueue (recorded 1) 0 fun q => { q with killed := true }) 0 = true ∧
    eligible (modQueue (recorded 1) 0 fun q => { q with dead := true }) 0 = true ∧ launch0.detached = false ∧
    (tbGet (clustered .saved teamA).clusters 0).map (·.state) = some .saved ∧ ((clustered .saved teamA).queue 0).susp = false ∧
    ((withCp (clustered .saved teamA)).queue 0).susp = false ∧ (launched launch0).readyIo.getLsbD 18 = false ∧
    tbGet (launched launch0).clusters 0 = none ∧ mayPlace (withCp (launched launch0)) launch0 = true ∧
    launchEmpty (launched { launch0 with placed := [0] }) 0 = true ∧ writesSettled (launched { launch0 with placed := [0] }) 0 = true ∧
    dying.dying.isSome = true ∧ dying.restoring = false ∧
    (∀ n ∈ [0, 1], restorable (launched launch0) 0 { launch0 with prot := true, restoring := true, retry := n } = true) ∧
    restorable (launched launch0) 0 { launch0 with restoring := true } = false ∧
    ({ launched launch0 with readyIo := BitVec.ofNat 21 (2 ^ 18) } : State).readyIo.getLsbD 18 = true := by decide +kernel

theorem witness_RegisterBlock :
    let none' : State := { launched launch0 with contexts := [] }
    let on : State := modHost none' fun h => { h with resetN := true, pwrgd := true }
    inReset on = false ∧ inReset State.reset = true ∧ inReset (modHost on fun h => { h with thermtrip := true }) = true ∧ anyContext on = false ∧
    anyContext (launched launch0) = true ∧ anyContext none' = false ∧ (launched launch0).err.en = false ∧ (modErr none' fun e => { e with en := true }).err.en = true ∧
    (0x218 : Nat) % 8 = 0 ∧ (0x21C : Nat) % 8 ≠ 0 ∧ (4 : W64).toNat % 8 ≤ 4 ∧ 4 < (5 : W64).toNat % 8 ∧ (none'.queue 127).en = false ∧
    ((modQueue none' 0 fun q => { q with en := true }).queue 0).en = true := by decide +kernel

theorem witness_StackService :
    let s (f : Stack → Stack) : State := (launched launch0).modStack 11 f
    ((launched launch0).stack 11).qreq = false ∧ ((launched launch0).stack 11).qack = false ∧ anyContext (launched launch0) = true ∧
    anyContext { launched launch0 with contexts := [] } = false ∧ (launched launch0).gpins = [] ∧
    ((s fun x => { x with qreq := true, quiescing := true }).stack 11).quiescing = true ∧ ((s fun x => { x with quiescing := true }).stack 11).qreq = false ∧
    ((s fun x => { x with qreq := true, qack := true }).stack 11).qack = true ∧ masksIndependent hashReset = true ∧
    masksIndependent [256, 256, 512, 1024, 2048] = false ∧ Memory.wf (launched launch0).mem = true ∧
    rateWanted { launched launch0 with corr := [(0, List.replicate 4097 0)], readyIo := BitVec.ofNat 21 (2 ^ 20) } 0 = true ∧
    (launched launch0).cycle < 0 + 5000000 ∧
    (let late : State := { s fun x => { x with rateReq := some 7 } with cycle := 5000007 }
     (late.stack 11).rateReq = some 7 ∧ 7 + 5000000 ≤ late.cycle) ∧
    (let back : State := modHost (s fun x => { x with quiescing := true }) fun h => { h with resetN := true, pwrgd := true, fwok := true }
     (back.stack 11).quiescing = true ∧ (back.stack 11).qreq = false ∧ (back.stack 11).qack = false ∧ inReset back = false ∧
     booted back = true ∧ relengReady { back with readyIo := BitVec.ofNat 21 (2 ^ 20) } = true ∧ relengReady back = false) ∧
    saveStreams (s fun x => { x with rateReq := some 0 }) 11 = false ∧ ((s fun x => { x with rateReq := some 0 }).stack 11).rateReq = some 0 ∧
    ((s fun x => { x with retraining := true }).stack 11).retraining = true := by decide +kernel

theorem witness_ErrorsAndArbitration :
    let s : State := { launched launch0 with pcq := [⟨5, 0, []⟩] }
    grantClass s 5 = some 0 ∧ mayGrant s 5 1 = true ∧ isHbm stackBase = true ∧ slaOf stackBase < csOf s.leesMode ∧
    slaOf stackBase < 48000000000 ∧ reachable s stackBase = true ∧
    (let top := hbmKey 0 (csOf s.leesMode)
     isHbm top = true ∧ csOf s.leesMode ≤ slaOf top ∧ slaOf top < 48000000000 ∧ reachable s top = true) ∧
    (teamAt (one teamA) 0 0).map (·.1) = some 0 ∧ launchesOn (launched launch0) 0 = [] ∧ launchesOn (one teamA) 0 ≠ [] ∧
    (∀ x ∈ [none, some (⟨0x02, 2, 0x10, 2, 0, 0, 0, 0, 0⟩ : ErrRec)],
      ((launchesOn { one teamA with launches := [(0, { launch0 with dying := x })] } 0).all fun lid =>
        isDying { one teamA with launches := [(0, { launch0 with dying := x })] } lid) = x.isSome) ∧
    poisoned { s with poison := [sectorOf stackBase] } (sectorOf stackBase) = true := by decide +kernel

theorem witness_HostServiceAndDebugger :
    let parked : State := { one { teamA with parked := some 0 } with readyIo := BitVec.ofNat 21 (2 ^ 20) }
    let up : State := { launched launch0 with readyIo := BitVec.ofNat 21 (2 ^ 20) }
    relengReady parked = true ∧ relengReady (one teamA) = false ∧ relengReady up = true ∧
    (tbGet up.contexts 0).isSome = true ∧ tbGet up.contexts 3 = none ∧
    let kiln : State := { launched launch0 with readyIo := BitVec.ofNat 21 (2 ^ 19 + 2 ^ 18), gpins := [⟨1, 5, 0, 0⟩], kiln := some (.drain ⟨1, 0, 256, 0⟩) }
    parkedAt (one teamA) 0 0 0 = none ∧ (parkedAt parked 0 0 0).map (·.1) = some 0 ∧ parkedAt parked 0 1 0 = none ∧ running teamA = true ∧ running { teamA with pre := .saved } = false ∧
    (tbGet (launched launch0).contexts 0).isSome = true ∧ tbGet (launched launch0).contexts 3 = none ∧ probeContext.halted = none ∧
    probeContext.record ≠ endedRecord ∧ (BitVec.ofNat 64 (2 ^ 63 + 6)).getLsbD 63 = true ∧
    (0 + 2 ^ 32 - (0 : W64).toNat % 2 ^ 32) % 2 ^ 32 ≤ 2 ^ 10 ∧ 2 ^ 10 < (0 + 2 ^ 32 - (1 : W64).toNat % 2 ^ 32) % 2 ^ 32 ∧
    (launched launch0).rebasing = false ∧ livePins (launched launch0) = [] ∧ livePins kiln ≠ [] ∧ anyContext { launched launch0 with contexts := [] } = false ∧
    kiln.readyIo.getLsbD 19 = true ∧ (launched launch0).readyIo.getLsbD 19 = false ∧ (genPin kiln 1).isSome = true ∧
    granuleOk kiln stackBase = true ∧ granuleOk kiln (2 ^ 50) = false ∧ kiln.host.frameRun = none ∧
    frameDue (modHost kiln fun h => { h with frameRun := some (stackBase, true) }) = true ∧
    dbgTeam (one teamA) 0 = none ∧ (dbgTeam (dbgOne 1 false teamA) 0).map (·.1) = some 0 ∧
    midInstruction (one teamA) teamA = false ∧ midInstruction (one { teamA with wait := .mxacq }) { teamA with wait := .mxacq } = true := by decide +kernel

theorem witness_kiln_commit :
    let s : State := { launched launch0 with contexts := [], gpins := [⟨1, 5, 0, 0⟩], host := { HostLink.zero with hostlim := 2 ^ 40 }, readyIo := BitVec.ofNat 21 (2 ^ 19 + 1),
                                             kiln := some (.drain ⟨1, 4096, 256, 0⟩) }
    s.readyIo.getLsbD 19 = true ∧ (genPin s 1).isSome = true ∧ hostUsable s 256 256 = true ∧ (getArea s 4096 (imageLen s)).isSome = true := by decide +kernel

/-- A restore from a commit record of an empty image, which runs then. -/
theorem witness_kiln_restore :
    let s : State := { launched launch0 with contexts := [], host := { HostLink.zero with hostlim := 2 ^ 40 }, readyIo := BitVec.ofNat 21 (2 ^ 19 + 1),
                                             readyStack := 0xFFF }
    let d (dig : List Byte) (shape : Nat) : List Byte := leBytes 8 0x4B494C4E00000001 ++ List.replicate 40 0 ++ leBytes 8 shape ++ leBytes 8 s.leesMode ++
      dig ++ masksDigest s ++ List.replicate 64 0
    let n (d : List Byte) (off : Nat) : Nat := leNat ((d.drop off).take 8)
    let good := d (areaDigest [] 0) (shapeWord s)
    n good 0 = 0x4B494C4E00000001 ∧ n good 40 = 0 ∧ hostUsable s 0 (n good 40) = true ∧ getArea s 0 (n good 40) = some [] ∧
    (good.drop 64).take 64 = areaDigest [] 0 ∧ n good 48 = shapeWord s ∧ n good 56 = s.leesMode ∧ (good.drop 128).take 64 = masksDigest s ∧
    restoreStamps s = true ∧ (∀ i, i < 12 → stackReady s i = true) ∧
    n (d (areaDigest [] 0) 7) 48 ≠ shapeWord s ∧ ((d [] 0).drop 64).take 64 ≠ areaDigest [] 0 ∧ stackReady { s with readyStack := 1 } 11 = false ∧
    hostUsable s 0 65536 = true ∧ hostUsable { s with readyIo := 0 } 0 65536 = false := by decide +kernel

/-- The digest of "abc" in FIPS 180-4's own example. -/
theorem test_sha512_abc : (sha512 [0x61, 0x62, 0x63]).take 16 =
    [0xdd, 0xaf, 0x35, 0xa1, 0x93, 0x61, 0x7a, 0xba, 0xcc, 0x41, 0x73, 0x49, 0xae, 0x20, 0x41, 0x31] := by decide +kernel

/-- A host write of a sector that nothing else holds, tracked and not; the bits whose falls are recorded. -/
theorem witness_host_write :
    let s : State := { launched launch0 with readyIo := BitVec.ofNat 21 (2 ^ 21 - 1), readyStack := 0xFFF, readyGroup := BitVec.ofNat 48 (2 ^ 48 - 1) }
    let k := hbmKey 0 64
    keyOfPa s 64 = some k ∧ reachable s k = true ∧ quiesceBack s k = false ∧ stashPlaces s (sectorOf k) = [] ∧ s.homeq = [] ∧
    tbGet s.groups (sectorOf k) = none ∧ Memory.wf s.mem = true ∧ trackedPa s 64 = false ∧ trackedPa { s with tracked := [0] } 64 = true ∧
    64 + 64 ≤ interleavedEnd s ∧ (∀ b ∈ [0, 1, 2, 17, 18, 19, 20], s.readyIo.getLsbD b = true) ∧ s.readyStack.getLsbD 11 = true ∧
    s.readyGroup.getLsbD 47 = true ∧ (launched launch0).readyCore.getLsbD 3 = true ∧ ({ s with readyStack := 0 } : State).readyStack.getLsbD 11 = false := by decide +kernel

theorem witness_LinksPinsAndReady :
    let up : State := { launched launch0 with readyIo := BitVec.ofNat 21 (2 ^ 20 + 2 ^ 2 + 3), readyStack := 0xFFF,
                                              host := { HostLink.zero with resetN := true, fwok := true, expbase := stackBase, explen := 65536 } }
    up.readyIo.getLsbD 0 = true ∧ up.readyIo.getLsbD 20 = true ∧ booted up = true ∧ allStacksReady up = true ∧ allStacksReady (launched launch0) = false ∧
    (readPa up 64 64 5).2.isSome = true ∧ 64 + 64 ≤ interleavedEnd up ∧ (exportedPa up 0 64).isSome = true ∧ exportedPa up 65536 64 = none ∧
    paUsable up stackBase 64 = true ∧ (readPa up stackBase 64 0).2.isSome = true ∧ State.reset.host.pwrgd = true ∧ State.reset.host.resetN = false ∧
    State.reset.host.thermtrip = false ∧ mayRise up (.core 255) = true ∧ up.readyCore.getLsbD 0 = true := by decide +kernel

/-- A port with one link, and a bifurcated one whose links come up in turn; one that is up. -/
theorem witness_links :
    let up (h : HostLink → HostLink) : State :=
      modHost { launched launch0 with readyIo := BitVec.ofNat 21 (2 ^ 20) } fun x => h { x with resetN := true, pwrgd := true, fwok := true }
    booted (up id) = true ∧ (up id).readyIo.getLsbD 20 = true ∧ (up id).host.bifur0 = false ∧
    (up fun x => { x with bifur0 := true }).host.bifur0 = true ∧ (up fun x => { x with links := 2 }).host.links.getLsbD 1 = true ∧
    (up id).host.links.getLsbD 0 = false ∧ (up fun x => { x with links := 2 }).readyIo.getLsbD 0 = false ∧
    ({ up (fun x => { x with links := 1 }) with readyIo := BitVec.ofNat 21 (2 ^ 20 + 1) } : State).readyIo.getLsbD 0 = true := by decide +kernel

/-- Operations in flight under different numbers: a load, a store, and a reduction whose line is there to be lost; on the other port none. -/
theorem witness_requests_in_flight :
    let r : ExtReq := ⟨5, 0, 2 ^ 60, 0, none, some ⟨0, 1, 0x10, 0xC2, 1, 0, 5, 0⟩⟩
    let o : Op := { opOf .load with ext := [r] }
    let s : State := { one teamA with ops := [(1, o), (2, opOf .store), (3, { o with kind := .reduction })], nextId := 4 }
    (s.ops.map (·.1)).Nodup ∧ tbGet s.ops 1 = some o ∧ o.late = none ∧ Sys2Proof.Machine.flying s 0 (2, opOf .store) = [] ∧
    Sys2Proof.Machine.flying s 1 (1, o) = [] ∧ r.log.isSome = true := by decide +kernel

/-- The key a late fault carries is that of its lowest lane, whichever lost request came first (spec/25 R457). -/
theorem test_late_fault_of_lowest_lane :
    let r (lane key : Nat) : ExtReq := ⟨lane, 0, key, 0, none, none⟩
    (addLate (opOf .load) 1 false [r 7 640, r 2 128]).map (·.phys) = some 128 ∧
    (addLate (opOf .load) 1 false [r 2 128, r 7 640]).map (·.phys) = some 128 := by decide +kernel

/-- What peers may do to the exported bytes: refused outside them, and where they are uncorrectable. -/
theorem witness_PeerAccesses :
    let up : State := { launched launch0 with readyIo := BitVec.ofNat 21 (2 ^ 2), readyStack := 0xFFF,
                                              host := { HostLink.zero with resetN := true, fwok := true, expbase := stackBase, explen := 65536 } }
    let bad : State := { up with poison := [sectorOf stackBase] }
    (List.range 16).any (fun p => up.readyIo.getLsbD (2 + p)) = true ∧ exportedPa up 0 8 = some stackBase ∧ exportedPa up 65536 8 = none ∧
    paUsable up stackBase 8 = true ∧ paUsable { up with readyStack := 0 } stackBase 8 = false ∧
    (readPa up stackBase 8 0).2.isSome = true ∧ (readPa bad stackBase 8 0).2.isNone = true := by decide +kernel

/-- An image the boot ROM accepts, and one with no signature (spec/27 R481). -/
theorem witness_images :
    let i : Image := ⟨Config.fuseKeyHash, true, Config.fuseMinSvn, 7, 1⟩
    (i.signed = true ∧ i.keyHash = Config.fuseKeyHash ∧ Config.fuseMinSvn ≤ i.svn) ∧ ({ i with signed := false } : Image).signed = false ∧
    (modHost (launched launch0) fun h => { h with image := some i }).host.image = some i :=
  ⟨⟨rfl, rfl, Nat.le_refl _⟩, rfl, rfl⟩

theorem witness_DecodedWordsEncodeBack : (match decodeWords 0x18C40140080180A8 0 with | .ok _ => true | _ => false) = true := by decide +kernel

theorem witness_EncodeDecodeRoundTrip : (Instr.vadd ⟨15, 2047, 0, .i32, .lit 9⟩).wf = true ∧ Safety.isEvent (.vadd ⟨15, 2047, 0, .i32, .lit 9⟩) = false := by
  decide

theorem witness_StepRunsDecodedInstruction :
    let s := State.reset.withFetchWord 128 (7 * 2 ^ 64 + wf 0x10 0 0 3 0 0 0x1400)
    s.agenda = [] ∧ s.ready.isSome = true ∧ (pickTeam s).map (·.1) = some 0 ∧
    (match (startIssue s 0).team 0 with
      | some t => (match fetchWord { startIssue s 0 with cur := some 0 } t t.pc with
          | (s1, .ok w) => decide (wordCount w = 2) && !isErr (fetchWord s1 t (t.pc + 8)).2 && (match decodeInstr w 7 with
              | .ok i => !noDatapath s1 t i | .error _ => false)
          | _ => false)
      | none => false) = true := by decide +kernel

/-- A team before a clause at a cycle's first step, and one inside a clause that is found ready. -/
theorem witness_first_step :
    let h := { State.reset.withFetchWord 64 0x8000001100000000 with ready := none }
    let s := { State.reset.withFetchWord 64 (wf 0x10 0 0 3 0 0 0x1200) with ready := none }
    h.ready = none ∧ (h.teams.find? (beforeClause h)).map (·.1) = some 0 ∧ s.teams.find? (beforeClause s) = none ∧
    (pickTeam (sampleReady s)).map (·.1) = some 0 := by decide +kernel

/-- Two datapaths in use take no vector word. -/
theorem witness_no_datapath :
    noDatapath (modCore (one team0) 0 fun c => { c with passes := [5, 5] }) team0 (.vadd ⟨0, 4, 6, .i32, .reg 8⟩) = true ∧
    noDatapath (one team0) team0 (.vadd ⟨0, 4, 6, .i32, .reg 8⟩) = false := by decide +kernel

theorem witness_header_step :
    let s := State.reset.withFetchWord 64 0x8000001100000000
    s.ready.isSome = true ∧ (pickTeam s).map (·.2.clause) = some none := by decide +kernel

theorem witness_StepKeepsInv : Safety.Inv State.reset ∧ (match step State.reset with | .next _ => true | _ => false) = true :=
  ⟨⟨⟨rfl, by simp [State.reset], by simp [State.reset]⟩, rfl, rfl⟩, by decide +kernel⟩

end Sys2Proof.Tests
end

section
/-! O48: the management register block (spec/01 R19, spec/27 R475). First what a field of a written value is, in the statement's
words; then at which offset which register lies; then the write of each register. -/

namespace Sys2Proof.Laws

/-! ### Fields of a written value -/

/-- The bits below a field are cut after those above it, as the statement writes a field. -/
theorem bitsOf_eq_mod_div (x lo n : Nat) : bitsOf x lo n = x % 2 ^ (lo + n) / 2 ^ lo := by
  rw [bitsOf, Nat.pow_add, Nat.mod_mul_right_div_self]

theorem testBit_bitsOf (x lo n j : Nat) : (bitsOf x lo n).testBit j = (decide (j < n) && x.testBit (lo + j)) := by
  rw [bitsOf, Nat.testBit_mod_two_pow, Nat.testBit_div_two_pow, Nat.add_comm]

theorem bitsOf_lt (x lo n : Nat) : bitsOf x lo n < 2 ^ n := Nat.mod_lt _ (Nat.two_pow_pos n)

/-- A one-bit field is the number of its bit. -/
theorem bitsOf_one (v : W64) (i : Nat) : bitsOf v.toNat i 1 = (v.getLsbD i).toNat := by
  rw [bitsOf, Nat.pow_one, ← BitVec.testBit_toNat, Nat.toNat_testBit]

@[simp] theorem bitsOf_one_beq_one (v : W64) (i : Nat) : (bitsOf v.toNat i 1 == 1) = v.getLsbD i := by
  rw [bitsOf_one]; cases v.getLsbD i <;> rfl

/-- What keeps a W1C bit is a 0 written to it. -/
@[simp] theorem bitsOf_one_beq_zero (v : W64) (i : Nat) : (bitsOf v.toNat i 1 == 0) = !v.getLsbD i := by
  rw [bitsOf_one]; cases v.getLsbD i <;> rfl

@[simp] theorem bitsOf_one_eq_one (v : W64) (i : Nat) : bitsOf v.toNat i 1 = 1 ↔ v.getLsbD i = true := by
  rw [bitsOf_one, Bool.toNat_eq_one]

theorem bitsOf_ne_one {v : W64} {i : Nat} (h : v.getLsbD i = false) : bitsOf v.toNat i 1 ≠ 1 := by
  rw [bitsOf_one, h]; decide

/-- A number with the field of `n` bits at `lo` replaced by `x`: the field reads `x`, every other bit reads as before. -/
theorem testBit_replaceField (old x lo n b : Nat) (hx : x < 2 ^ n) :
    (old / 2 ^ (lo + n) * 2 ^ (lo + n) + x * 2 ^ lo + old % 2 ^ lo).testBit b =
      if lo ≤ b ∧ b < lo + n then x.testBit (b - lo) else old.testBit b := by
  have hlow : old % 2 ^ lo < 2 ^ lo := Nat.mod_lt _ (Nat.two_pow_pos lo)
  have nested : old / 2 ^ (lo + n) * 2 ^ (lo + n) + x * 2 ^ lo + old % 2 ^ lo =
      2 ^ lo * (2 ^ n * (old / 2 ^ (lo + n)) + x) + old % 2 ^ lo := by rw [Nat.pow_add]; ring
  rw [nested, Nat.testBit_two_pow_mul_add _ hlow, Nat.testBit_two_pow_mul_add _ hx]
  by_cases h1 : b < lo
  · simp [h1, Nat.not_le.mpr h1]
  · by_cases h2 : b < lo + n
    · simp [h1, h2, Nat.not_lt.mp h1, show b - lo < n by omega]
    · simp only [h1, h2, show ¬ b - lo < n by omega, and_false, if_false, Nat.testBit_div_two_pow]
      rw [show b - lo - n + (lo + n) = b by omega]

end Sys2Proof.Laws

namespace Sys2Proof.Proofs.RegisterBlock

open Sys2Proof.Machine Sys2Proof.Spec Sys2Proof.Laws

/-! ### The write of the block -/

/-- A 64-bit write of `v` at `off` leaves `s1`, unless the device is held in reset. -/
abbrev Reaches (s : State) (v : W64) (off : Nat) (s1 : State) : Prop :=
  inReset s = false → Does (.registerWrite off 64 v) s (finish s1)

theorem inReset_iff (s : State) :
    inReset s = true ↔ s.host.resetN = false ∨ s.host.thermtrip = true ∨ s.host.pwrgd = false := by
  simp [inReset, or_assoc]

theorem registerWrite_ignored {s : State} {v : W64} {off bits : Nat} (h : inReset s = true ∨ bits ≠ 64 ∨ off % 8 ≠ 0) :
    Does (.registerWrite off bits v) s s := by
  have refused : ¬ (inReset s = false ∧ bits = 64 ∧ off % 8 = 0) := by
    rintro ⟨hr, hb, ho⟩
    simp [hr, hb, ho] at h
  show Host.Outcome.next (if _ then _ else _) = _
  rw [if_neg refused]

theorem reaches_of_writeReg {s s1 : State} {v : W64} {off : Nat} (ha : off % 8 = 0) (hw : writeReg s off v = s1) :
    Reaches s v off s1 := by
  intro hr
  show Host.Outcome.next (if _ then _ else _) = _
  rw [if_pos ⟨hr, rfl, ha⟩, hw]

/-! ### Which register lies at an offset -/

section

variable (s : State) (v : W64)

theorem writeReg_error {off : Nat} (h : 0x300 ≤ off ∧ off < 0x400) : writeReg s off v = writeErrReg s off v := by
  simp only [writeReg, if_pos h]
  rw [if_neg (by omega), if_neg (by omega), if_neg (by omega)]

theorem writeReg_host {off : Nat} (h : 0x400 ≤ off ∧ off < 0x1000) : writeReg s off v = writeHostReg s off v := by
  simp only [writeReg, if_pos h]
  rw [if_neg (by omega), if_neg (by omega), if_neg (by omega), if_neg (by omega)]

theorem writeReg_stack {n r : Nat} (hn : n < 12) (hr : r < 8) :
    writeReg s (0x1000 + 0x40 * n + 8 * r) v = writeStackReg s n r v := by
  simp only [writeReg]
  rw [if_neg (by omega), if_neg (by omega), if_neg (by omega), if_neg (by omega), if_neg (by omega), if_pos (by omega)]
  congr 1 <;> omega

theorem writeReg_queue {q r : Nat} (hq : q < 128) (hr : r < 4) :
    writeReg s (0x4000 + 0x20 * q + 8 * r) v = writeQueueReg s q r v := by
  simp only [writeReg]
  rw [if_neg (by omega), if_neg (by omega), if_neg (by omega), if_neg (by omega), if_neg (by omega), if_neg (by omega),
    if_pos (by omega)]
  congr 1 <;> omega

theorem writeReg_debug {core r : Nat} (hc : core < 256) (hr : r < 16) :
    writeReg s (0x8000 + 0x80 * core + 8 * r) v = writeDbgReg s core r v := by
  simp only [writeReg]
  rw [if_neg (by omega), if_neg (by omega), if_neg (by omega), if_neg (by omega), if_neg (by omega), if_neg (by omega),
    if_neg (by omega), if_pos (by omega)]
  congr 1 <;> omega

/-- The READY registers and KILNSTAT, the error engine's counters, and the firmware's version (spec/01 R20, spec/21 R410, spec/25 R464,
spec/27 R481) are read-only. -/
theorem writeReg_readOnly {off : Nat}
    (h : off ∈ [0x100, 0x108, 0x110, 0x118, 0x120, 0x128, 0x208, 0x318, 0x328, 0x330, 0x338, 0x480]) : writeReg s off v = s := by
  by_cases hver : off = 0x480
  · subst hver
    rw [writeReg_host s v (by decide)]
    simp [writeHostReg]
  · simp only [List.mem_cons, List.not_mem_nil, hver, or_false] at h
    rcases h with rfl | rfl | rfl | rfl | rfl | rfl | rfl | rfl | rfl | rfl | rfl <;> rfl

end

/-! ### LEESCFG, and what is read back -/

theorem writeLeescfg_valid {s : State} {v : W64} (h : v.toNat % 8 ≤ 4) :
    writeLeescfg s v = { s with leesNext := v.setWidth 3 } := by
  rw [writeLeescfg, if_pos h, BitVec.ofNat_toNat]

theorem writeLeescfg_ignored {s : State} {v : W64} (h : 4 < v.toNat % 8) : writeLeescfg s v = s := by
  rw [writeLeescfg, if_neg (Nat.not_le.mpr h)]

theorem leescfgWrite_does {s s1 : State} {v : W64} (h : writeLeescfg s v = s1) : Does (.leescfgWrite v) s s1 :=
  congrArg Host.Outcome.next h

theorem regRead_hostlim (s : State) : regRead s 0x400 = BitVec.ofNat 64 s.host.hostlim := rfl

theorem regRead_qreq (s : State) {n : Nat} (hn : n < 12) :
    regRead s (0x1000 + 0x40 * n) = BitVec.ofNat 64 (if (s.stack n).qreq then 1 else 0) := by
  simp only [regRead]
  rw [if_neg (by omega), if_neg (by omega), if_neg (by omega), if_neg (by omega), if_neg (by omega), if_neg (by omega),
    if_neg (by omega), if_neg (by omega), if_neg (by omega), if_pos (by omega)]
  rw [show (0x1000 + 0x40 * n - 0x1000) / 0x40 = n by omega, show (0x1000 + 0x40 * n - 0x1000) % 0x40 / 8 = 0 by omega]
  rfl

/-! ### The error engine's registers -/

theorem writeErrReg_base_enabled {s : State} (v : W64) (h : s.err.en = true) : writeErrReg s 0x300 v = s := if_pos h

theorem writeErrReg_base_disabled {s : State} (v : W64) (h : s.err.en = false) :
    writeErrReg s 0x300 v = modErr s fun e => { e with base := v.toNat % 2 ^ 52 / 4096 * 4096 } := by
  simp [writeErrReg, h, bitsOf_eq_mod_div]

theorem writeErrReg_status (s : State) (v : W64) : writeErrReg s 0x320 v =
    modErr s fun e => { e with overflow := e.overflow && !v.getLsbD 63, headbad := e.headbad && !v.getLsbD 62 } := by
  simp [writeErrReg]

/-! ### The host's registers -/

theorem writeFramecmd_without_go (s : State) {v : W64} (h : v.getLsbD 0 = false) :
    writeFramecmd s v = modHost s fun h => { h with
      frameRef := h.frameRef && !v.getLsbD 62, frameGran := v.toNat % 2 ^ 52 / 65536 * 65536, frameT := v.getLsbD 1 } := by
  simp only [writeFramecmd, bitsOf_one, h, Bool.toNat_false, if_true, bitsOf_eq_mod_div _ 16 36]
  cases v.getLsbD 62 <;> simp [modHost]

theorem writeHostReg_locked {s : State} {off : Nat} (v : W64) (hc : anyContext s = true) (hoff : off ≠ 0x408) :
    writeHostReg s off v = s := by
  simp only [writeHostReg]
  rw [if_neg hoff, if_pos hc]

/-- PEERMAP after a write of `v` to its word `i`. -/
def peermapWith (old : BitVec 512) (i : Nat) (v : W64) : BitVec 512 :=
  BitVec.ofNat 512 (old.toNat / (2 ^ (8 * i * 8) * 2 ^ 64) * (2 ^ (8 * i * 8) * 2 ^ 64) + v.toNat * 2 ^ (8 * i * 8) +
    old.toNat % 2 ^ (8 * i * 8))

theorem getLsbD_peermapWith (old : BitVec 512) (i : Nat) (v : W64) {b : Nat} (hb : b < 512) :
    (peermapWith old i v).getLsbD b = if b / 64 = i then v.getLsbD (b % 64) else old.getLsbD b := by
  have inWord : (8 * i * 8 ≤ b ∧ b < 8 * i * 8 + 64) ↔ b / 64 = i := by omega
  simp only [peermapWith, BitVec.getLsbD_ofNat, ← Nat.pow_add, testBit_replaceField _ _ _ _ _ v.isLt, hb, inWord,
    decide_true, Bool.true_and, BitVec.testBit_toNat]
  split
  · next h => rw [show b - 8 * i * 8 = b % 64 by omega]
  · rfl

section

variable {s : State} (v : W64) (hc : anyContext s = false)
include hc

theorem writeHostReg_hostlim :
    writeHostReg s 0x400 v = modHost s fun h => { h with hostlim := v.toNat % 2 ^ 50 / 65536 * 65536 } := by
  simp [writeHostReg, hc, bitsOf_eq_mod_div]

theorem writeHostReg_expbase :
    writeHostReg s 0x410 v = modHost s fun h => { h with expbase := v.toNat % 2 ^ 52 / 65536 * 65536 } := by
  simp [writeHostReg, hc, bitsOf_eq_mod_div]

theorem writeHostReg_explen :
    writeHostReg s 0x418 v = modHost s fun h => { h with explen := v.toNat % 2 ^ 47 / 65536 * 65536 } := by
  simp [writeHostReg, hc, bitsOf_eq_mod_div]

theorem writeHostReg_huanenid : writeHostReg s 0x420 v =
    modHost s fun h => { h with huanenid := BitVec.ofNat 64 (v.toNat / 65536 % 512 * 65536 + v.toNat % 512) } := by
  simp [writeHostReg, hc, bitsOf]

theorem writeHostReg_peermap {i : Nat} (hi : i < 8) : writeHostReg s (0x440 + 8 * i) v =
    modHost s fun h => { h with peermap := peermapWith s.host.peermap i v } := by
  simp only [writeHostReg, hc]
  rw [if_neg (by omega), if_neg (by decide), if_neg (by omega), if_neg (by omega), if_neg (by omega), if_neg (by omega),
    if_pos (by omega), Nat.add_sub_cancel_left]
  rfl

end

/-! ### The queues' registers -/

theorem writeQueueReg_base_enabled {s : State} {q : Nat} (v : W64) (h : (s.queue q).en = true) : writeQueueReg s q 0 v = s :=
  if_pos h

theorem writeQueueReg_context_enabled {s : State} {q : Nat} (v : W64) (h : (s.queue q).en = true) : writeQueueReg s q 2 v = s :=
  if_pos h

theorem writeQueueReg_base_disabled {s : State} {q : Nat} (v : W64) (h : (s.queue q).en = false) :
    writeQueueReg s q 0 v = modQueue s q fun r => { r with base := v.toNat % 2 ^ 52 / 256 * 256 } := by
  simp [writeQueueReg, h, bitsOf_eq_mod_div]

theorem writeQueueReg_context_disabled {s : State} {q : Nat} (v : W64) (h : (s.queue q).en = false) :
    writeQueueReg s q 2 v = modQueue s q fun r => { r with ctxAddr := v.toNat % 2 ^ 52 / 128 * 128 } := by
  simp [writeQueueReg, h, bitsOf_eq_mod_div]

/-! ### The stacks' registers -/

section

variable (s : State) (n : Nat) {v : W64}

theorem writeStackReg_request (hv : v.getLsbD 0 = true) (hq : (s.stack n).qreq = false) (ha : (s.stack n).qack = false) :
    writeStackReg s n 0 v = quiesceRequest s n := by
  simp [writeStackReg, hv, hq, ha]

theorem writeStackReg_requested (hv : v.getLsbD 0 = true) (h : (s.stack n).qreq = true ∨ (s.stack n).qack = true) :
    writeStackReg s n 0 v = s := by
  simp [writeStackReg, hv, h]

theorem writeStackReg_withdraw (hv : v.getLsbD 0 = false) (hq : (s.stack n).qreq = true) :
    writeStackReg s n 0 v = returnRequest s n := by
  simp [writeStackReg, bitsOf_ne_one hv, hq]

theorem writeStackReg_idle (hv : v.getLsbD 0 = false) (hq : (s.stack n).qreq = false) : writeStackReg s n 0 v = s := by
  simp [writeStackReg, bitsOf_ne_one hv, hq]

variable (v)

theorem writeStackReg_status : writeStackReg s n 1 v = s.modStack n fun k => { k with
    qrefuse := k.qrefuse && !v.getLsbD 3, hbad := k.hbad && !v.getLsbD 2, wdrop := k.wdrop && !v.getLsbD 1 } := by
  simp [writeStackReg]

theorem writeStackReg_mask {j : Nat} (hj : j < 5) : writeStackReg s n (2 + j) v = writeMask s n j v := by
  simp only [writeStackReg]
  rw [if_neg (by omega), if_neg (by omega), if_pos (by omega), Nat.add_sub_cancel_left]

end

/-! ### The debug blocks' registers -/

/-- DBGRSEL with its reserved bits 0. -/
def rselOf (v : W64) : W64 :=
  BitVec.ofNat 64 (bitsOf v.toNat 61 2 * 2 ^ 61 + bitsOf v.toNat 48 11 * 2 ^ 48 + bitsOf v.toNat 0 15)

theorem getLsbD_rselOf (v : W64) {b : Nat} (hb : b < 64) : (rselOf v).getLsbD b =
    (v.getLsbD b && decide (b = 61 ∨ b = 62 ∨ 48 ≤ b ∧ b < 59 ∨ b < 15)) := by
  have h0 : bitsOf v.toNat 0 15 < 2 ^ 48 := (bitsOf_lt _ _ _).trans (by decide)
  have h48 : bitsOf v.toNat 48 11 < 2 ^ 13 := (bitsOf_lt _ _ _).trans (by decide)
  have nested : bitsOf v.toNat 61 2 * 2 ^ 61 + bitsOf v.toNat 48 11 * 2 ^ 48 + bitsOf v.toNat 0 15 =
      2 ^ 48 * (2 ^ 13 * bitsOf v.toNat 61 2 + bitsOf v.toNat 48 11) + bitsOf v.toNat 0 15 := by ring
  rw [rselOf, BitVec.getLsbD_ofNat, nested, Nat.testBit_two_pow_mul_add _ h0, Nat.testBit_two_pow_mul_add _ h48]
  simp only [testBit_bitsOf, BitVec.testBit_toNat, hb, decide_true, Bool.true_and, Nat.zero_add]
  rw [Bool.and_comm (v.getLsbD b)]
  split
  · congr 2
    simp; omega
  · split
    · rw [show 48 + (b - 48) = b by omega]
      congr 2
      simp; omega
    · rw [show 61 + (b - 48 - 13) = b by omega]
      congr 2
      simp; omega

section

variable (s : State) (core : Nat) (v : W64)

theorem writeDbgReg_control : writeDbgReg s core 0 v = modCore s core fun c => { c with
    attach := v.getLsbD 63, haltbrk := v.getLsbD 62, dctx := v.toNat / 65536 % 128, dslot := v.toNat % 32 } := by
  simp only [writeDbgReg, bitsOf_one_beq_one, if_true]
  simp [bitsOf]

theorem writeDbgReg_status : writeDbgReg s core 2 v = modCore s core fun c => { c with ovr := c.ovr && !v.getLsbD 62 } := by
  simp [writeDbgReg]

theorem watchOf_toNat : watchOf v.toNat = Watch.mk (v.getLsbD 63) (v.getLsbD 62) (v.getLsbD 61) (v.toNat / 2 ^ 48 % 256)
    (v.toNat / 2 ^ 40 % 32) (v.toNat % 2 ^ 20) := by
  simp only [watchOf, bitsOf_one_beq_one]
  simp [bitsOf]

theorem writeDbgReg_watch {j : Nat} (hj : j < 4) : writeDbgReg s core (4 + j) v =
    modCore s core fun c => { c with watches := tbSet c.watches j (Watch.mk (v.getLsbD 63) (v.getLsbD 62) (v.getLsbD 61)
      (v.toNat / 2 ^ 48 % 256) (v.toNat / 2 ^ 40 % 32) (v.toNat % 2 ^ 20)) } := by
  simp only [writeDbgReg]
  rw [if_neg (by omega), if_neg (by omega), if_neg (by omega), if_pos (by omega), Nat.add_sub_cancel_left, watchOf_toNat]

theorem writeDbgReg_readOnly {r : Nat} (h : r ∈ [3, 8, 9, 11]) : writeDbgReg s core r v = s := by
  simp only [List.mem_cons, List.not_mem_nil, or_false] at h
  rcases h with rfl | rfl | rfl | rfl <;> rfl

end

/-! ### A 64-bit write of each part of the block -/

section

variable {s s1 : State} {v : W64} {off : Nat}

theorem reaches_error (h : writeErrReg s off v = s1) (ho : 0x300 ≤ off ∧ off < 0x400 := by decide)
    (ha : off % 8 = 0 := by decide) : Reaches s v off s1 :=
  reaches_of_writeReg ha ((writeReg_error s v ho).trans h)

theorem reaches_host (h : writeHostReg s off v = s1) (ho : 0x400 ≤ off ∧ off < 0x1000 := by omega)
    (ha : off % 8 = 0 := by omega) : Reaches s v off s1 :=
  reaches_of_writeReg ha ((writeReg_host s v ho).trans h)

theorem reaches_stack {n : Nat} (r : Nat) (h : writeStackReg s n r v = s1) (hn : n < 12) (hr : r < 8 := by omega)
    (ho : off = 0x1000 + 0x40 * n + 8 * r := by omega) : Reaches s v off s1 := by
  subst ho
  exact reaches_of_writeReg (by omega) ((writeReg_stack s v hn hr).trans h)

theorem reaches_queue {q : Nat} (r : Nat) (h : writeQueueReg s q r v = s1) (hq : q < 128) (hr : r < 4 := by omega)
    (ho : off = 0x4000 + 0x20 * q + 8 * r := by omega) : Reaches s v off s1 := by
  subst ho
  exact reaches_of_writeReg (by omega) ((writeReg_queue s v hq hr).trans h)

theorem reaches_debug {core : Nat} (r : Nat) (h : writeDbgReg s core r v = s1) (hc : core < 256) (hr : r < 16 := by omega)
    (ho : off = 0x8000 + 0x80 * core + 8 * r := by omega) : Reaches s v off s1 := by
  subst ho
  exact reaches_of_writeReg (by omega) ((writeReg_debug s v hc hr).trans h)

theorem reaches_readOnly
    (h : off ∈ [0x100, 0x108, 0x110, 0x118, 0x120, 0x128, 0x208, 0x318, 0x328, 0x330, 0x338, 0x480]) : Reaches s v off s := by
  have aligned : off % 8 = 0 := by
    simp only [List.mem_cons, List.not_mem_nil, or_false] at h
    omega
  exact reaches_of_writeReg aligned (writeReg_readOnly s v h)

end

/-- Settles O48: each clause is the write of one register, at the offset where the block holds it. -/
theorem registerBlock : Obligations.RegisterBlock := by
  unfold Obligations.RegisterBlock
  intro s v
  refine ⟨inReset_iff s, fun _ _ => registerWrite_ignored,
    fun h => ⟨reaches_of_writeReg rfl (writeLeescfg_valid h), leescfgWrite_does (writeLeescfg_valid h)⟩,
    fun h => ⟨reaches_of_writeReg rfl (writeLeescfg_ignored h), leescfgWrite_does (writeLeescfg_ignored h)⟩,
    reaches_error rfl, reaches_error rfl, reaches_error rfl, reaches_host rfl,
    reaches_of_writeReg rfl rfl, reaches_of_writeReg rfl rfl, reaches_error (writeErrReg_status s v),
    writeFramecmd_without_go s, fun _ => reaches_readOnly,
    fun h => reaches_error (writeErrReg_base_disabled v h), fun h => reaches_error (writeErrReg_base_enabled v h),
    ?hostLocked, ?host, ?queues, ?stackBlocks, ?debug, rfl, rfl⟩
  case hostLocked =>
    refine fun hc => ⟨fun off h => ?_, fun i hi => reaches_host (writeHostReg_locked v hc (by omega))⟩
    simp only [List.mem_cons, List.not_mem_nil, or_false] at h
    exact reaches_host (writeHostReg_locked v hc (by omega))
  case host =>
    exact fun hc => ⟨reaches_host (writeHostReg_hostlim v hc), reaches_host (writeHostReg_expbase v hc),
      reaches_host (writeHostReg_explen v hc), reaches_host (writeHostReg_huanenid v hc),
      fun i hi => ⟨peermapWith s.host.peermap i v, reaches_host (writeHostReg_peermap v hc hi),
        fun _ => getLsbD_peermapWith s.host.peermap i v⟩,
      regRead_hostlim _⟩
  case queues =>
    exact fun q hq => ⟨reaches_queue 1 rfl hq, reaches_queue 3 rfl hq,
      fun h => ⟨reaches_queue 0 (writeQueueReg_base_disabled v h) hq, reaches_queue 2 (writeQueueReg_context_disabled v h) hq⟩,
      fun h => ⟨reaches_queue 0 (writeQueueReg_base_enabled v h) hq, reaches_queue 2 (writeQueueReg_context_enabled v h) hq⟩⟩
  case stackBlocks =>
    exact fun n hn => ⟨fun j hj => reaches_stack (2 + j) (writeStackReg_mask s n v hj) hn,
      ⟨fun hv hq ha => reaches_stack 0 (writeStackReg_request s n hv hq ha) hn,
        fun hv h => reaches_stack 0 (writeStackReg_requested s n hv h) hn,
        fun hv hq => reaches_stack 0 (writeStackReg_withdraw s n hv hq) hn,
        fun hv hq => reaches_stack 0 (writeStackReg_idle s n hv hq) hn,
        reaches_stack 1 (writeStackReg_status s n v) hn⟩,
      regRead_qreq s hn⟩
  case debug =>
    refine fun core hc => ⟨reaches_debug 1 rfl hc, reaches_debug 0 (writeDbgReg_control s core v) hc,
      reaches_debug 2 (writeDbgReg_status s core v) hc,
      fun j hj => reaches_debug (4 + j) (writeDbgReg_watch s core v hj) hc,
      ⟨rselOf v, reaches_debug 10 rfl hc, fun _ => getLsbD_rselOf v⟩, fun r h => ?_⟩
    simp only [List.mem_cons, List.not_mem_nil, or_false] at h
    exact reaches_debug (r / 8) (writeDbgReg_readOnly s core v (by simp; omega)) hc

end Sys2Proof.Proofs.RegisterBlock
end

section
/-! O57 and O58: the state after reset (spec/01 R20, R36, R38). The five masks are one pattern, shifted; every stack is still as reset leaves it. -/

namespace Sys2Proof.Proofs.Reset

open Sys2Proof.Machine

/-- No stack is listed at reset, so each reads as a stack after reset. -/
@[simp] theorem reset_stack (n : Nat) : State.reset.stack n = Stack.zero := rfl

@[simp] theorem reset_queue (q : Nat) : State.reset.queue q = Queue.zero := rfl

/-- Mask `j` is mask 0 moved up by `j` bits. -/
theorem hashReset_getD {j : Nat} (hj : j < 5) : hashReset.getD j 0 = 0x0000000210842100#64 <<< j := by
  revert j; decide

/-- Mask 0 has six bits, five apart. -/
theorem getLsbD_firstMask {b : Nat} (hb : b < 64) :
    (0x0000000210842100#64).getLsbD b = decide (b ∈ [8, 13, 18, 23, 28, 33]) := by
  revert b; decide

/-- Bit by bit, the reset value of mask `j` (spec/01 R38). -/
theorem getLsbD_hashReset {j : Nat} (hj : j < 5) (b : Nat) : (hashReset.getD j 0).getLsbD b =
    decide (b ∈ [8 + j, 13 + j, 18 + j, 23 + j, 28 + j, 33 + j]) := by
  rw [hashReset_getD hj, BitVec.getLsbD_shiftLeft]
  by_cases hb : j ≤ b ∧ b < 64
  · obtain ⟨hjb, hb⟩ := hb
    have moved : ∀ c, b - j = c ↔ b = c + j := fun c => by omega
    rw [getLsbD_firstMask (by omega)]
    simp [hb, Nat.not_lt.mpr hjb, moved]
  · have unset : b ∉ [8 + j, 13 + j, 18 + j, 23 + j, 28 + j, 33 + j] := by simp; omega
    have outside : (decide (b < 64) && !decide (b < j)) = false := by simp; omega
    rw [outside, Bool.false_and, decide_eq_false unset]

/-- Settles O57: each stack's masks are those of R38, whose bits `getLsbD_hashReset` gives. -/
theorem hashMasksAfterReset : Obligations.HashMasksAfterReset := by
  unfold Obligations.HashMasksAfterReset
  refine fun n _ => ⟨rfl, fun j hj b => ?_⟩
  rw [reset_stack, Stack.zero, getLsbD_hashReset hj, decide_eq_true_iff]
  simp

/-- Settles O58: the fields of the reset state, and the masks' bits by `getLsbD_hashReset`. -/
theorem resetState : Obligations.ResetState := by
  unfold Obligations.ResetState
  exact ⟨rfl, rfl, rfl, rfl, rfl, fun n _ => ⟨rfl, fun j hj b _ => getLsbD_hashReset hj b, rfl, rfl⟩,
    rfl, rfl, rfl, fun q => congrArg Queue.en (reset_queue q), rfl⟩

end Sys2Proof.Proofs.Reset
end

section
/-! O49: the quiesce of a stack, its return to service, its hash masks and its data rate (spec/01 R36-R43). -/

namespace Sys2Proof.Proofs.StackService

open Sys2Proof.Machine Sys2Proof.Spec Sys2Proof.Laws Sys2Proof.Proofs.RegisterBlock

section

variable {s s1 : State} {n : Nat}

/-! ### The request and the quiesce -/

theorem quiesceRequest_pinned (h : anyContext s = true ∨ s.gpins ≠ []) :
    quiesceRequest s n = s.modStack n fun x => { x with qrefuse := true } :=
  if_pos (by simpa using h)

theorem quiesceRequest_free (hc : anyContext s = false) (hg : s.gpins = []) : quiesceRequest s n =
    setStackBits (drainStack (s.modStack n fun x => { x with qreq := true, quiescing := true }) n) n false :=
  if_neg (by simp [hc, hg])

theorem stackQuiesceRequest_does (hn : n < 12) (hq : (s.stack n).qreq = false) (ha : (s.stack n).qack = false)
    (h : quiesceRequest s n = s1) : Does (.stackQuiesceRequest n) s (finish s1) :=
  congrArg Host.Outcome.next ((if_pos ⟨hn, hq, ha⟩).trans (congrArg finish h))

/-- The state that acknowledges a quiesce: nothing of the stack in flight or cached (spec/01 R37, R40). -/
def acknowledged (s : State) (n : Nat) : State :=
  (purgeStack (drainStack s n) n).modStack n fun x => { x with qack := true, quiescing := false }

theorem stackQuiesceComplete_does (hn : n < 12) (hq : (s.stack n).quiescing = true)
    (h : (if ((acknowledged s n).stack n).qreq then acknowledged s n else stackReturn (acknowledged s n) n) = s1) :
    Does (.stackQuiesceComplete n) s (finish s1) :=
  congrArg Host.Outcome.next ((if_pos ⟨hn, hq⟩).trans (congrArg finish h))

/-! ### The return to service -/

/-- A stack whose QREQ has been written to 0. -/
def withdrawn (s : State) (n : Nat) : State := s.modStack n fun x => { x with qreq := false }

theorem stackReturnToService_does (hn : n < 12) (hq : (s.stack n).qreq = true)
    (h : (if ((withdrawn s n).stack n).qack then stackReturn (withdrawn s n) n else withdrawn s n) = s1) :
    Does (.stackReturnToService n) s (finish s1) :=
  congrArg Host.Outcome.next ((if_pos ⟨hn, hq⟩).trans (congrArg finish h))

theorem stackReturn_dependent (h : masksIndependent (s.stack n).masks = false) :
    stackReturn s n = s.modStack n fun x => { x with hbad := true, qreq := true } :=
  if_neg (by simp [h])

/-- A stack's return before its bits rise. -/
def initialised (s : State) (n : Nat) : State := (initStack s n).modStack n fun x => { x with qack := false, qreq := false }

theorem stackReturn_independent (h : masksIndependent (s.stack n).masks = true) : stackReturn s n =
    if booted s && relengReady s then setStackBits (initialised s n) n true else initialised s n :=
  if_pos h

theorem stackReturn_running (h : masksIndependent (s.stack n).masks = true) (hb : booted s = true) (hr : relengReady s = true) :
    stackReturn s n = setStackBits (initialised s n) n true :=
  (stackReturn_independent h).trans (if_pos (by simp [hb, hr]))

theorem stackReturn_notRunning (h : masksIndependent (s.stack n).masks = true) (hb : booted s = false ∨ relengReady s = false) :
    stackReturn s n = initialised s n :=
  (stackReturn_independent h).trans (if_neg (by simpa [← Bool.not_eq_true, imp_iff_not_or] using hb))

theorem masksIndependent_hashReset : masksIndependent hashReset = true := by decide

/-- A stack's bytes are 0 after its return, every other byte is as before (spec/01 R39). -/
theorem memGet_initStack (s : State) (n a : Nat) :
    memGet (initStack s n) a = if hbmKey n 0 ≤ a ∧ a < hbmKey (n + 1) 0 then 0 else memGet s a :=
  smGet_smClear 0 s.mem _ _ a

/-! ### Hash masks -/

theorem writeMask_acknowledged {j : Nat} {v : W64} (h : (s.stack n).qack = true) : writeMask s n j v =
    (drainStack s n).modStack n fun x => { x with masks := x.masks.set j (BitVec.ofNat 64 (v.toNat / 256 * 256)) } :=
  if_pos h

theorem writeMask_inService {j : Nat} {v : W64} (h : (s.stack n).qack = false) :
    writeMask s n j v = s.modStack n fun x => { x with wdrop := true } :=
  if_neg (by simp [h])

theorem hashmaskWrite_does {j : Nat} {v : W64} (hn : n < 12) (hj : j < 5) (h : writeMask s n j v = s1) :
    Does (.hashmaskWrite n j v) s (finish s1) :=
  congrArg Host.Outcome.next ((if_pos ⟨hn, hj⟩).trans (congrArg finish h))

/-! ### Data rate (spec/01 R43) -/

theorem rateChangeRequest_does (hn : n < 12) (hw : rateWanted s n = true) :
    Does (.rateChangeRequest n) s { s.modStack n (fun x => { x with rateReq := some s.cycle }) with
      corr := (List.range 4).foldl (fun m g => smSet [] m (4 * n + g) []) s.corr } :=
  congrArg Host.Outcome.next (if_pos ⟨hn, hw⟩)

theorem mayRetrain_requested {c : Nat} (hr : (s.stack n).rateReq = some c) (hc : s.cycle < c + 5000000)
    (hs : saveStreams s n = false) : mayRetrain s n = true := by
  simp [mayRetrain, hr, rateWait, hc, hs]

theorem retrainingStart_does (h : mayRetrain s n = true) :
    Does (.retrainingStart n) s (s.modStack n fun x => { x with rateReq := none, retraining := true }) :=
  congrArg Host.Outcome.next (if_pos h)

theorem retrainingComplete_does (h : (s.stack n).retraining = true) :
    Does (.retrainingComplete n) s (s.modStack n fun x => { x with retraining := false, rate := x.rate + 1 }) :=
  congrArg Host.Outcome.next (if_pos h)

theorem rateChangeAbandon_does {c : Nat} (hr : (s.stack n).rateReq = some c) (hc : c + 5000000 ≤ s.cycle) :
    Does (.rateChangeAbandon n) s (finish (pushErr (s.modStack n fun x => { x with rateReq := none, degr := true })
      ⟨0x07, 3, 0, 2, 64 * n, 0, 0, n, 10000 - 1000 * (s.stack n).rate⟩)) := by
  show execRateChangeAbandon n s = _
  simp only [execRateChangeAbandon, hr, rateWait, hc, if_true, rateMb]

end

/-- Settles O49: each clause is one of the steps above; the write of QREQ reaches them through the register block of O48. -/
theorem stackService : Obligations.StackService := by
  unfold Obligations.StackService
  intro s n hn
  refine ⟨fun hq ha => ⟨fun h => stackQuiesceRequest_does hn hq ha (quiesceRequest_pinned h),
      fun hc hg => stackQuiesceRequest_does hn hq ha (quiesceRequest_free hc hg)⟩,
    fun hq => ⟨fun hr => stackQuiesceComplete_does hn hq (if_pos hr),
      fun hr => stackQuiesceComplete_does hn hq (if_neg (Bool.eq_false_iff.mp hr))⟩,
    fun hq => ⟨fun ha => stackReturnToService_does hn hq (if_pos ha),
      fun ha => stackReturnToService_does hn hq (if_neg (Bool.eq_false_iff.mp ha))⟩,
    fun hm => ⟨stackReturn_running hm, stackReturn_notRunning hm⟩,
    fun hq ha _ => reaches_stack 0 (writeStackReg_request s n rfl hq ha) hn,
    stackReturn_dependent, masksIndependent_hashReset, fun _ => memGet_initStack s n,
    fun j v hj => ⟨fun ha => hashmaskWrite_does hn hj (writeMask_acknowledged ha),
      fun ha => hashmaskWrite_does hn hj (writeMask_inService ha)⟩,
    rateChangeRequest_does hn,
    fun c hr hc hs => retrainingStart_does (mayRetrain_requested hr hc hs),
    retrainingComplete_does, fun c hr hc => rateChangeAbandon_does hr hc⟩

end Sys2Proof.Proofs.StackService
end

section
/-! O29: the allowance instructions (spec/13 R284, R285). What the five have in common comes first: with an empty mask they change nothing, and
where the checks of the address pass, the instruction does what it does to the counter at its key. Then each instruction, by whether its
counter is live and its home reachable. -/

namespace Sys2Proof.Laws

open Sys2Proof.Machine

section

variable {r t : Team} {tid k a n : Nat} {s : State} {write role : Bool} {f : Mask → W64 → Nat → State → Act}

theorem allowAct_empty (h : active r k = []) : allowAct r t tid s k a write role n f = .go s := if_pos h

theorem allowAct_passed {s1 : State} {key : Nat} (hl : active r k ≠ [])
    (hc : counterCheck s t (sget r a) write role n = (s1, .ok key)) (hw : allowWatch s1 t write (sget r a) = []) :
    allowAct r t tid s k a write role n f = f (maskOf (active r k)) (sget r a) key s1 := by
  rw [allowAct, if_neg hl]
  dsimp only
  rw [hc]
  dsimp only
  rw [hw]
  rfl

end

end Sys2Proof.Laws

namespace Sys2Proof.Proofs.Allowance

open Sys2Proof.Machine Sys2Proof.Spec Sys2Proof.Laws

/-- Instruction `i` of team `tid` can be issued, has an active lane, and the checks of its address lead to the descriptor at `key` with no
watchpoint hit (spec/13 R284, spec/23 R448). -/
structure Passes (i : Instr) (s : State) (tid : Nat) (t : Team) (k a : Nat) (write role : Bool) (n key : Nat) (s1 : State) : Prop where
  issues : CanIssue s tid t i
  lanes : active (viewOf s tid t) k ≠ []
  checked : counterCheck s t (sget (viewOf s tid t) a) write role n = (s1, .ok key)
  unwatched : allowWatch s1 t write (sget (viewOf s tid t) a) = []

section

variable {i : Instr} {s s1 : State} {tid k a n key : Nat} {t : Team} {write role : Bool}
  {f : Mask → W64 → Nat → State → Act}

/-- A body of the shared form runs `f` on the checked key. -/
theorem Passes.acts (h : Passes i s tid t k a write role n key s1) {x : Act}
    (hf : f (maskOf (active (viewOf s tid t) k)) (sget (viewOf s tid t) a) key s1 = x) :
    allowAct (viewOf s tid t) t tid s k a write role n f = x :=
  (allowAct_passed h.lanes h.checked h.unwatched).trans hf

end

/-- No live counter at the key. -/
abbrev Dead (i : Instr) (s : State) (tid : Nat) (t : Team) (k a : Nat) (s1 : State) : Prop :=
  Faults i s tid t s1 (fltAt .allowanceInvalid (maskOf (active (viewOf s tid t) k)) (sget (viewOf s tid t) a) 0)

/-- A write that its home cannot take is logged. -/
abbrev Lost (i : Instr) (s : State) (tid : Nat) (t : Team) (k a n : Nat) (s1 : State) : Prop :=
  Completes i s tid { s1 with logq := s1.logq ++
    [(t.ctx, ⟨sget (viewOf s tid t) a, BitVec.ofNat 64 n, 0x10, opcOf i, 0, 0, (active (viewOf s tid t) k).headD 0, t.pc⟩)] }

/-- An answer that its home cannot give. -/
abbrev Fails (i : Instr) (s : State) (tid : Nat) (t : Team) (k a key : Nat) (s1 : State) : Prop :=
  Faults i s tid t s1 (fltAt .dataUncorrectable (maskOf (active (viewOf s tid t) k)) (sget (viewOf s tid t) a) key)

/-- An instruction that holds its team where it acquires, until the operation `op` completes (spec/19 R387). -/
abbrev Goes (i : Instr) (s : State) (tid : Nat) (acq : Bool) (s3 : State) (op : Nat) : Prop :=
  if acq then Holds i s tid s3 op else Completes i s tid s3

theorem goes_of {s s3 : State} {tid op : Nat} {t : Team} {i : Instr} {acq : Bool} {body : Team → Team → Nat → State → Act}
    (h : CanIssue s tid t i) (hb : body (viewOf s tid t) t tid s = if acq then .hold s3 op else .go s3)
    (he : exec i s = issue i s body) : Goes i s tid acq s3 op := by
  cases acq with
  | false => exact he.trans (go_of h hb)
  | true => exact he.trans (hold_of h hb)

/-- The state after the acquire of a wide scope has dropped its core's L1 lines (spec/13 R264). -/
abbrev afterAcquire (acq : Bool) (scope : Scope) (t : Team) (s : State) : State :=
  if acq && wideScope scope then dropL1 s t.home t.ctx else s

theorem afterAcquire_nextId (acq : Bool) (scope : Scope) (t : Team) (s : State) : (afterAcquire acq scope t s).nextId = s.nextId := by
  simp only [afterAcquire]
  split <;> rfl

theorem not_isNone {c : Option Counter} (h : c.isSome = true) : ¬ c.isNone = true := by
  rw [Option.isNone_eq_false_iff.mpr h]; exact Bool.false_ne_true

/-- A request that a home takes, or that its core's share serves. -/
theorem homeDown_and_remote {s : State} {key : Nat} {atCore : Bool} (h : reachable s key = true ∨ atCore = true) :
    ¬ (homeDown s key && !atCore) = true := by
  rcases h with h | h <;> simp [homeDown, h]

theorem not_homeDown {s : State} {key : Nat} (h : reachable s key = true) : ¬ homeDown s key = true := by simp [homeDown, h]

theorem homeDown_of_unreachable {s : State} {key : Nat} (h : reachable s key = false) : homeDown s key = true := by simp [homeDown, h]

theorem recallShares_live {s : State} {key : Nat} {c : Counter} (h : tbGet (recallShares s key).counters key = some c) :
    (tbGet s.counters key).isSome = true := by
  cases hc : tbGet s.counters key with
  | some _ => rfl
  | none => simp [recallShares, hc] at h

/-! ### ALINIT -/

section

variable {s s1 : State} {tid k a key : Nat} {b : LSrc} {t : Team}

theorem alinit_empty (hi : CanIssue s tid t (.alinit k a b)) (hl : active (viewOf s tid t) k = []) :
    Completes (.alinit k a b) s tid s :=
  go_of hi (allowAct_empty hl)

variable (h : Passes (.alinit k a b) s tid t k a true false (countVal (viewOf s tid t) b) key s1)
include h

theorem alinit_live (hl : (tbGet s1.counters key).isSome = true) : Dead (.alinit k a b) s tid t k a s1 :=
  fault_of h.issues (h.acts (if_pos hl))

variable (hl : (tbGet s1.counters key).isNone = true)
  (hr : ∀ cid off, aperture s1 t (sget (viewOf s tid t) a) 64 = some (.part cid off) → inRing s1 cid off 64 = false)
include hl hr

/-- The home's state of a new counter, then its descriptor's bytes. -/
theorem alinit_reachable (hd : reachable s1 key = true) :
    let c : Counter := ⟨t.ctx, countVal (viewOf s tid t) b, false, countVal (viewOf s tid t) b, [], [], 0,
      descUnc s1 t (sget (viewOf s tid t) a)⟩
    Completes (.alinit k a b) s tid (writeDesc { s1 with counters := tbSet s1.counters key c } key true c) := by
  refine go_of h.issues (h.acts ?_)
  rw [if_neg (by simp_all), if_neg (by split <;> simp_all), if_neg (not_homeDown hd)]

theorem alinit_unreachable (hd : reachable s1 key = false) :
    Lost (.alinit k a b) s tid t k a (countVal (viewOf s tid t) b) s1 := by
  refine go_of h.issues (h.acts ?_)
  rw [if_neg (by simp_all), if_neg (by split <;> simp_all), if_pos (homeDown_of_unreachable hd)]
  rfl

end

/-! ### ALDEC -/

section

variable {s s1 : State} {tid k fs d a key : Nat} {b : LSrc} {acq wait : Bool} {scope : Scope} {t : Team}

theorem aldec_empty (hi : CanIssue s tid t (.aldec k fs d a b acq scope wait)) (hl : active (viewOf s tid t) k = []) :
    Completes (.aldec k fs d a b acq scope wait) s tid s :=
  go_of hi (allowAct_empty hl)

variable (h : Passes (.aldec k fs d a b acq scope wait) s tid t k a true true (countVal (viewOf s tid t) b) key s1)
include h

theorem aldec_dead (hl : tbGet s1.counters key = none) : Dead (.aldec k fs d a b acq scope wait) s tid t k a s1 :=
  fault_of h.issues (h.acts (if_pos (by simp [hl])))

variable (hl : (tbGet s1.counters key).isSome = true)
include hl

theorem aldec_unreachable (hd : reachable s1 key = false)
    (hn : aldecLocal s1 key t.home (countVal (viewOf s tid t) b) = false) :
    Fails (.aldec k fs d a b acq scope wait) s tid t k a key s1 := by
  refine fault_of h.issues (h.acts ?_)
  rw [if_neg (not_isNone hl), if_pos (by simp [homeDown_of_unreachable hd, hn])]
  rfl

variable (hr : reachable s1 key = true ∨ aldecLocal s1 key t.home (countVal (viewOf s tid t) b) = true)
include hr

/-- The count is taken: the flag of success. -/
theorem aldec_taken {s2 : State} {fl : W64}
    (hx : aldecAt s1 key t.home (countVal (viewOf s tid t) b) wait = (s2, .ok fl)) :
    let i : Instr := .aldec k fs d a b acq scope wait
    Goes i s tid acq (launchOp (afterAcquire acq scope t s2) tid { newOp t tid i ⟨[], [], [(d, true)]⟩ .allowance with
      floor := if acq then fl else 0 }) s1.nextId := by
  refine goes_of h.issues (h.acts ?_) rfl
  rw [if_neg (not_isNone hl), if_neg (homeDown_and_remote hr)]
  dsimp only
  rw [hx]

theorem aldec_failed {s2 : State} (hx : aldecAt s1 key t.home (countVal (viewOf s tid t) b) wait = (s2, .fail)) :
    let i : Instr := .aldec k fs d a b acq scope wait
    Goes i s tid acq (launchOp (afterAcquire acq scope t s2) tid (newOp t tid i ⟨[], [], [(d, false)]⟩ .allowance))
      s1.nextId := by
  refine goes_of h.issues (h.acts ?_) rfl
  rw [if_neg (not_isNone hl), if_neg (homeDown_and_remote hr)]
  dsimp only
  rw [hx]

/-- The operation waits in the counter's queue, and no destination is written yet. -/
theorem aldec_queued {s2 : State} (hx : aldecAt s1 key t.home (countVal (viewOf s tid t) b) wait = (s2, .queue)) :
    let i : Instr := .aldec k fs d a b acq scope wait
    Goes i s tid acq (modCounter (launchOp (afterAcquire acq scope t s2) tid (newOp t tid i ⟨[], [], []⟩
        (.aldecWait (sget (viewOf s tid t) a) key (countVal (viewOf s tid t) b) d acq (wideScope scope) false))) key
      fun c => { c with queue := c.queue ++ [⟨s1.nextId, countVal (viewOf s tid t) b⟩] }) s1.nextId := by
  refine goes_of h.issues (h.acts ?_) rfl
  rw [if_neg (not_isNone hl), if_neg (homeDown_and_remote hr)]
  dsimp only
  rw [hx]

end

/-! ### ALINC -/

section

variable {s s1 : State} {tid k a key : Nat} {b : LSrc} {rel : Bool} {scope : Scope} {t : Team}

theorem alinc_empty (hi : CanIssue s tid t (.alinc k a b rel scope)) (hl : active (viewOf s tid t) k = []) :
    Completes (.alinc k a b rel scope) s tid s :=
  go_of hi ((if_neg (by simp [hl])).trans (allowAct_empty hl))

variable (hdr : rel = false ∨ mustDrain s tid = false)
  (h : Passes (.alinc k a b rel scope) s tid t k a true true (countVal (viewOf s tid t) b) key s1)
include hdr h

/-- A release with nothing to wait for goes to the counter at once (spec/13 R264). -/
theorem alinc_acts {x : Act} {f : Mask → W64 → Nat → State → Act}
    (hf : f (maskOf (active (viewOf s tid t) k)) (sget (viewOf s tid t) a) key s1 = x) :
    (if rel && mustDrain s tid && active (viewOf s tid t) k != [] then .wait s .drain
      else allowAct (viewOf s tid t) t tid s k a true true (countVal (viewOf s tid t) b) f) = x :=
  (if_neg (by rcases hdr with hd | hd <;> simp [hd])).trans (h.acts hf)

theorem alinc_dead (hl : tbGet s1.counters key = none) : Dead (.alinc k a b rel scope) s tid t k a s1 :=
  fault_of h.issues (alinc_acts hdr h (if_pos (by simp [hl])))

variable (hl : (tbGet s1.counters key).isSome = true)
include hl

theorem alinc_unreachable (hd : reachable s1 key = false)
    (hn : alincLocal s1 key t.home (countVal (viewOf s tid t) b) = false) :
    Lost (.alinc k a b rel scope) s tid t k a (countVal (viewOf s tid t) b) s1 := by
  refine go_of h.issues (alinc_acts hdr h ?_)
  rw [if_neg (not_isNone hl), if_pos (by simp [homeDown_of_unreachable hd, hn])]
  rfl

theorem alinc_added (hr : reachable s1 key = true ∨ alincLocal s1 key t.home (countVal (viewOf s tid t) b) = true) :
    Completes (.alinc k a b rel scope) s tid
      (alincAt s1 key t.home (countVal (viewOf s tid t) b) (if rel then relFloor s1 t else 0)) := by
  refine go_of h.issues (alinc_acts hdr h ?_)
  rw [if_neg (not_isNone hl), if_neg (homeDown_and_remote hr)]

end

/-! ### ALRD -/

section

variable {s s1 : State} {tid k fs d a key : Nat} {acq : Bool} {scope : Scope} {t : Team}

theorem alrd_empty (hi : CanIssue s tid t (.alrd k fs d a acq scope)) (hl : active (viewOf s tid t) k = []) :
    Completes (.alrd k fs d a acq scope) s tid s :=
  go_of hi (allowAct_empty hl)

variable (h : Passes (.alrd k fs d a acq scope) s tid t k a false false 0 key s1)
include h

theorem alrd_dead (hl : tbGet s1.counters key = none) : Dead (.alrd k fs d a acq scope) s tid t k a s1 := by
  refine fault_of h.issues (h.acts ?_)
  rw [hl]
  rfl

variable {c : Counter} (hl : tbGet s1.counters key = some c)
include hl

theorem alrd_unreachable (hd : reachable s1 key = false) : Fails (.alrd k fs d a acq scope) s tid t k a key s1 := by
  refine fault_of h.issues (h.acts ?_)
  rw [hl]
  exact if_pos (homeDown_of_unreachable hd)

/-- The value is read at the home once the shares are recalled; an acquire takes the floor of the counter `c'` that the recall leaves. -/
theorem alrd_read {c' : Counter} (hd : reachable s1 key = true) (hc : tbGet (recallShares s1 key).counters key = some c') :
    let i : Instr := .alrd k fs d a acq scope
    Goes i s tid acq (launchOp (afterAcquire acq scope t (recallShares s1 key)) tid
      { newOp t tid i ⟨[], [(d, BitVec.ofNat 64 (counterValue c))], []⟩ .allowance with floor := if acq then c'.floor else 0 })
      (recallShares s1 key).nextId := by
  refine goes_of h.issues (h.acts ?_) rfl
  rw [hl]
  dsimp only
  rw [if_neg (not_homeDown hd), hc]

end

/-! ### ALFREE -/

section

variable {s s1 : State} {tid k a key : Nat} {t : Team}

theorem alfree_empty (hi : CanIssue s tid t (.alfree k a)) (hl : active (viewOf s tid t) k = []) :
    Completes (.alfree k a) s tid s :=
  go_of hi (allowAct_empty hl)

variable (h : Passes (.alfree k a) s tid t k a true false 0 key s1)
include h

theorem alfree_dead (hl : tbGet s1.counters key = none) : Dead (.alfree k a) s tid t k a s1 :=
  fault_of h.issues (h.acts (if_pos (by simp [hl])))

theorem alfree_unreachable (hl : (tbGet s1.counters key).isSome = true) (hd : reachable s1 key = false) :
    Lost (.alfree k a) s tid t k a 0 s1 := by
  refine go_of h.issues (h.acts ?_)
  rw [if_neg (not_isNone hl), if_pos (homeDown_of_unreachable hd)]
  rfl

/-- The counter ends once its shares are recalled, and its waiters fault late. -/
theorem alfree_freed {c : Counter} (hd : reachable s1 key = true) (hc : tbGet (recallShares s1 key).counters key = some c) :
    Completes (.alfree k a) s tid (c.queue.foldl freedLate
      (writeDesc { recallShares s1 key with counters := tbDel (recallShares s1 key).counters key } key false c)) := by
  refine go_of h.issues (h.acts ?_)
  rw [if_neg (not_isNone (recallShares_live hc)), if_neg (not_homeDown hd)]
  dsimp only
  rw [hc]

end

/-- Settles O29: each clause is one of the cases above. -/
theorem allowanceInstructions : Obligations.AllowanceInstructions := by
  unfold Obligations.AllowanceInstructions
  intro s tid t k a
  refine ⟨fun b => ⟨alinit_empty, fun key s1 hi hm hc hw => ?alinit⟩,
    fun fs d b acq scope wait => ⟨aldec_empty, fun key s1 hi hm hc hw => ?aldec⟩,
    fun b rel scope hdr => ⟨alinc_empty, fun key s1 hi hm hc hw => ?alinc⟩,
    fun fs d acq scope => ⟨alrd_empty, fun key s1 hi hm hc hw => ?alrd⟩,
    ⟨alfree_empty, fun key s1 hi hm hc hw => ?alfree⟩⟩
  case alinit =>
    have h : Passes (.alinit k a b) s tid t k a true false _ key s1 := ⟨hi, hm, hc, hw⟩
    exact ⟨alinit_live h, fun hl hr => ⟨alinit_reachable h hl hr, alinit_unreachable h hl hr⟩⟩
  case aldec =>
    have h : Passes (.aldec k fs d a b acq scope wait) s tid t k a true true _ key s1 := ⟨hi, hm, hc, hw⟩
    exact ⟨aldec_dead h, aldec_unreachable h, fun hl hr => ⟨fun fl ho => aldec_taken h hl hr (Prod.ext rfl ho),
      fun ho => aldec_failed h hl hr (Prod.ext rfl ho), fun ho _ => aldec_queued h hl hr (Prod.ext rfl ho)⟩⟩
  case alinc =>
    have h : Passes (.alinc k a b rel scope) s tid t k a true true _ key s1 := ⟨hi, hm, hc, hw⟩
    exact ⟨alinc_dead hdr h, alinc_unreachable hdr h, alinc_added hdr h⟩
  case alrd =>
    have h : Passes (.alrd k fs d a acq scope) s tid t k a false false 0 key s1 := ⟨hi, hm, hc, hw⟩
    refine ⟨alrd_dead h, fun hl hd => ?_, fun c hl hd => ?_⟩
    · obtain ⟨c, hc⟩ := Option.isSome_iff_exists.mp hl
      exact alrd_unreachable h hc hd
    · obtain ⟨_, hc⟩ := recallShares_get hl
      have same := afterAcquire_nextId acq scope t (recallShares s1 key)
      exact ⟨_, _, same, same ▸ alrd_read h hl hd hc⟩
  case alfree =>
    have h : Passes (.alfree k a) s tid t k a true false 0 key s1 := ⟨hi, hm, hc, hw⟩
    exact ⟨alfree_dead h, alfree_unreachable h, fun c => alfree_freed h⟩

end Sys2Proof.Proofs.Allowance
end

section
/-! O16: the checks before an instruction (spec/03 R62-R64). Every instruction with a word is issued through one function, whose first four
checks come in one order. -/

namespace Sys2Proof.Proofs.Checks

open Sys2Proof.Machine Sys2Proof.Spec Sys2Proof.Laws

/-- An instruction with a word of its own is issued: its checks, then a body. Each constructor's meaning names its body; a step of another
agent has no word. -/
theorem exec_eq_issue {i : Instr} (s : State) (he : (encode i).isSome = true) (hc : ∀ h, i ≠ .clauseEntry h) :
    ∃ body, exec i s = issue i s body := by
  cases i
  case clauseEntry h => exact absurd rfl (hc h)
  all_goals first
    | exact ⟨_, rfl⟩
    | exact absurd he Bool.false_ne_true

section

variable {s : State} {tid : Nat} {t : Team} {i : Instr}

/-! ### The first check that fails -/

theorem firstCheck_encoding (h : encodingOk i t = false) : firstCheck s tid t i = some .illegalEncoding := by
  simp [firstCheck, h]

theorem firstCheck_privileged (he : encodingOk i t = true) (hp : privileged i = true) (ht : t.priv = false) :
    firstCheck s tid t i = some .privileged := by
  simp [firstCheck, he, hp, ht]

theorem firstCheck_role (he : encodingOk i t = true) (hp : privileged i = false) (ht : t.priv = false)
    (hr : roleOk i t.role = false) : firstCheck s tid t i = some .roleViolation := by
  simp [firstCheck, he, hp, ht, hr]

/-- The privilege bit lifts the role check (spec/03 R62). -/
theorem firstCheck_matrix (he : encodingOk i t = true) (hp : privileged i = true → t.priv = true)
    (hr : t.priv = true ∨ roleOk i t.role = true) (hn : needsMx i = true) (hm : (s.core t.home).mxOwner ≠ some tid) :
    firstCheck s tid t i = some .matrixNotOwned := by
  have hp' : (privileged i && !t.priv) = false := by
    cases h : privileged i
    · rfl
    · simp [hp h]
  have hr' : (!t.priv && !roleOk i t.role) = false := by
    rcases hr with h | h <;> simp [h]
  simp [firstCheck, he, hp', hr', hn, hm]

/-- The check that fails first gives the fault, at the instruction's own address and in the live lanes (spec/09 R204). -/
theorem faults_of_firstCheck {c : FCode} (hs : s.curTeam = some (tid, t)) (he : (encode i).isSome = true)
    (hc : ∀ h, i ≠ .clauseEntry h) (hf : firstCheck s tid t i = some c) : Faults i s tid t s ⟨c, 0, t.live, [], 1, 0⟩ := by
  obtain ⟨body, hb⟩ := exec_eq_issue s he hc
  rw [Faults, hb, issue_fails hs hf body]
  rfl

end

/-- Settles O16: each clause is the fault of the check that fails first. -/
theorem checksBeforeAnInstruction : Obligations.ChecksBeforeAnInstruction := by
  unfold Obligations.ChecksBeforeAnInstruction
  intro s tid t i hs he hc
  exact ⟨fun h => faults_of_firstCheck hs he hc (firstCheck_encoding h),
    fun h hp ht => faults_of_firstCheck hs he hc (firstCheck_privileged h hp ht),
    fun h hp ht hr => faults_of_firstCheck hs he hc (firstCheck_role h hp ht hr),
    fun h hp hr hn hm => faults_of_firstCheck hs he hc (firstCheck_matrix h hp hr hn hm)⟩

end Sys2Proof.Proofs.Checks
end

section
/-! O34: the stage rings (spec/03 R69-R73; spec/09 R217). First what a slot of a ring holds, then a push followed by a pop, then the three
instructions. -/

namespace Sys2Proof.Laws

open Sys2Proof.Machine

/-! ### Bytes of a number -/

theorem leNat_leBytes (n v : Nat) : leNat (leBytes n v) = v % 256 ^ n := by
  induction n generalizing v with
  | zero => simp [leBytes, leNat, Nat.mod_one]
  | succ n ih =>
    have h : (BitVec.ofNat 8 v).toNat = v % 256 := BitVec.toNat_ofNat v 8
    rw [leBytes, leNat, ih, h, Nat.pow_succ', Nat.mod_mul]

@[simp] theorem leBytes_length (n v : Nat) : (leBytes n v).length = n := by
  induction n generalizing v with
  | zero => rfl
  | succ n ih => rw [leBytes, List.length_cons, ih]

@[simp] theorem memWrite_crews (s : State) (k : Nat) (bs : List Byte) : (memWrite s k bs).crews = s.crews := by
  induction bs generalizing s k with
  | nil => rfl
  | cons b bs ih => exact ih _ _

/-! ### Slots -/

section

variable {s : State} {cid q : Nat} {g : Ring} {h : W32} {fl : W64}

/-- The ring after a push. -/
def pushedRing (g : Ring) (fl : W64) : Ring := { g with p := g.p + 1, tags := smSet 0 g.tags (g.p % g.depth) fl }

theorem pushSlot_crew {c : Crew} (hc : tbGet s.crews cid = some c) :
    tbGet (pushSlot s cid q g h fl).crews cid =
      some { c with rings := tbMod c.rings q fun r => { r with p := r.p + 1, tags := smSet 0 r.tags (g.p % g.depth) fl } } := by
  simp [pushSlot, modRing, hc]

theorem pushSlot_ring {c : Crew} (hc : tbGet s.crews cid = some c) (hg : tbGet c.rings q = some g) :
    ∃ c', tbGet (pushSlot s cid q g h fl).crews cid = some c' ∧ tbGet c'.rings q = some (pushedRing g fl) :=
  ⟨_, pushSlot_crew hc, by simp [hg, pushedRing]⟩

/-- The slot that a push into an empty ring fills is the next to be popped: it holds the handle below the phase of its lap. -/
theorem popSlot_pushSlot (he : g.p = g.q) (hm : Memory.wf s.mem = true) :
    popSlot (pushSlot s cid q g h fl) cid (pushedRing g fl) = h.toNat + 2 ^ 32 * (g.q / g.depth % 2) := by
  have hw : (pushSlot s cid q g h fl).mem =
      (memWrite s (slotKey cid g (g.p % g.depth)) (leBytes 8 (h.toNat + 2 ^ 32 * (g.p / g.depth % 2)))).mem := rfl
  have hr := memRead_memWrite (slotKey cid g (g.p % g.depth)) (leBytes 8 (h.toNat + 2 ^ 32 * (g.p / g.depth % 2))) hm
  rw [leBytes_length, he] at hr
  have hk : slotKey cid (pushedRing g fl) ((pushedRing g fl).q % (pushedRing g fl).depth) = slotKey cid g (g.q % g.depth) := rfl
  rw [popSlot, hk, memRead_congr (he ▸ hw), hr, leNat_leBytes]
  have := h.isLt
  omega

theorem slotFull_pushSlot (he : g.p = g.q) (hm : Memory.wf s.mem = true) :
    slotFull (pushSlot s cid q g h fl) cid (pushedRing g fl) = true := by
  have hq : (pushedRing g fl).q = g.q := rfl
  have hd : (pushedRing g fl).depth = g.depth := rfl
  rw [slotFull, popSlot_pushSlot he hm, hq, hd, decide_eq_true_eq]
  have := h.isLt
  omega

end

/-- What is pushed into an empty ring is what the next pop takes (spec/03 R70, R71). -/
theorem pushedHandleIsPopped : Spec.PushedHandleIsPopped := by
  intro s cid q c g h fl hc hg he _ hm
  obtain ⟨c', hc', hg'⟩ := pushSlot_ring (h := h) (fl := fl) hc hg
  refine ⟨c', pushedRing g fl, hc', hg', rfl, rfl, slotFull_pushSlot he hm, ?_⟩
  rw [popSlot_pushSlot he hm]
  have := h.isLt
  omega

/-! ### Room to push, a slot to pop -/

/-- A push goes at once where no team waits before it and the ring has an allowance (spec/03 R71). -/
theorem room_iff {g : Ring} :
    (g.pushers = [] && decide (0 < allowance g)) = true ↔ g.pushers = [] ∧ g.p - g.q < g.depth := by
  simp only [allowance, Bool.and_eq_true, decide_eq_true_eq, Nat.sub_pos_iff_lt]

/-- A pop goes at once where no team waits before it and the slot is full. -/
theorem full_iff {s : State} {cid : Nat} {g : Ring} :
    (g.poppers = [] && slotFull s cid g) = true ↔ g.poppers = [] ∧ slotFull s cid g = true := by
  simp only [Bool.and_eq_true, decide_eq_true_eq]

theorem ofNat_toNat_32 (x : W64) : BitVec.ofNat 32 x.toNat = x.setWidth 32 := BitVec.ofNat_toNat 32 x

end Sys2Proof.Laws

namespace Sys2Proof.Proofs.StageRings

open Sys2Proof.Machine Sys2Proof.Spec Sys2Proof.Laws

section

variable {s : State} {tid : Nat} {t : Team} {k q a d n : Nat} {g : Ring}

/-! ### QPUSH -/

section

variable (hi : CanIssue s tid t (.qpush k a q))
include hi

theorem qpush_misused (hg : ringFor s t q true = none) :
    Faults (.qpush k a q) s tid t s ⟨.queueMisuse, 0, t.live, [], 1, 0⟩ :=
  fault_of (f := fltTeam t .queueMisuse) hi (by rw [hg])

variable (hg : ringFor s t q true = some g) (hd : mustDrain s tid = false)
include hg hd

theorem qpush_goes (h : g.pushers = [] ∧ g.p - g.q < g.depth) : Completes (.qpush k a q) s tid
    (pushSlot s t.crew q g ((sget (viewOf s tid t) a).setWidth 32) (relFloor s t)) :=
  go_of hi (by simp only [hg, hd, room_iff.mpr h, ofNat_toNat_32, if_true, if_false, Bool.false_eq_true])

theorem qpush_blocks (h : ¬ (g.pushers = [] ∧ g.p - g.q < g.depth)) : Blocks (.qpush k a q) s tid
    (modRing s t.crew q fun g => { g with pushers := g.pushers ++ [tid] })
    (.push q ((sget (viewOf s tid t) a).setWidth 32)) :=
  wait_of hi (by simp only [hg, hd, mt room_iff.mp h, ofNat_toNat_32, if_false, Bool.false_eq_true])

end

/-! ### QPOP -/

section

variable (hi : CanIssue s tid t (.qpop k d q))
include hi

theorem qpop_misused (hg : ringFor s t q false = none) :
    Faults (.qpop k d q) s tid t s ⟨.queueMisuse, 0, t.live, [], 1, 0⟩ :=
  fault_of (f := fltTeam t .queueMisuse) hi (by rw [hg])

variable (hg : ringFor s t q false = some g)
include hg

theorem qpop_poisoned (h : popPoisoned s t.crew g = true) : Faults (.qpop k d q) s tid t s
    ⟨.dataUncorrectable, 0, t.live, [], 1, slotKey t.crew g (g.q % g.depth)⟩ :=
  fault_of (f := popFault t g) hi (by simp only [hg, h, if_true])

variable (hp : popPoisoned s t.crew g = false)
include hp

theorem qpop_goes (h : g.poppers = [] ∧ slotFull s t.crew g = true) :
    Completes (.qpop k d q) s tid (popTake s tid t.crew q d g) :=
  go_of hi (by simp only [hg, hp, full_iff.mpr h, if_true, if_false, Bool.false_eq_true])

theorem qpop_blocks (h : ¬ (g.poppers = [] ∧ slotFull s t.crew g = true)) : Blocks (.qpop k d q) s tid
    (modRing s t.crew q fun g => { g with poppers := g.poppers ++ [tid] }) (.pop q d) :=
  wait_of hi (by simp only [hg, hp, mt full_iff.mp h, if_false, Bool.false_eq_true])

end

/-! ### QTRY -/

section

variable (hi : CanIssue s tid t (.qtry k n (.push a) q))
include hi

theorem qtryPush_misused (hg : ringFor s t q true = none) :
    Faults (.qtry k n (.push a) q) s tid t s ⟨.queueMisuse, 0, t.live, [], 1, 0⟩ :=
  fault_of (f := fltTeam t .queueMisuse) hi (by simp only [hg])

variable (hg : ringFor s t q true = some g)
include hg

theorem qtryPush_drains (h : g.pushers = [] ∧ g.p - g.q < g.depth) (hd : mustDrain s tid = true) :
    Blocks (.qtry k n (.push a) q) s tid s .drain :=
  wait_of hi (by simp only [hg, hd, room_iff.mpr h, if_true])

theorem qtryPush_goes (h : g.pushers = [] ∧ g.p - g.q < g.depth) (hd : mustDrain s tid = false) :
    Completes (.qtry k n (.push a) q) s tid
      (writeRegs (pushSlot s t.crew q g ((sget (viewOf s tid t) a).setWidth 32) (relFloor s t)) tid [.c n true]) :=
  go_of hi (by simp only [hg, hd, room_iff.mpr h, ofNat_toNat_32, if_true, if_false, Bool.false_eq_true])

theorem qtryPush_fails (h : ¬ (g.pushers = [] ∧ g.p - g.q < g.depth)) :
    Completes (.qtry k n (.push a) q) s tid (writeRegs s tid [.c n false]) :=
  go_of hi (by simp only [hg, mt room_iff.mp h, if_false, Bool.false_eq_true])

end

section

variable (hi : CanIssue s tid t (.qtry k n (.pop d) q))
include hi

theorem qtryPop_misused (hg : ringFor s t q false = none) :
    Faults (.qtry k n (.pop d) q) s tid t s ⟨.queueMisuse, 0, t.live, [], 1, 0⟩ :=
  fault_of (f := fltTeam t .queueMisuse) hi (by simp only [hg])

variable (hg : ringFor s t q false = some g)
include hg

theorem qtryPop_poisoned (h : popPoisoned s t.crew g = true) : Faults (.qtry k n (.pop d) q) s tid t s
    ⟨.dataUncorrectable, 0, t.live, [], 1, slotKey t.crew g (g.q % g.depth)⟩ :=
  fault_of (f := popFault t g) hi (by simp only [hg, h, if_true])

variable (hp : popPoisoned s t.crew g = false)
include hp

theorem qtryPop_goes (h : g.poppers = [] ∧ slotFull s t.crew g = true) :
    Completes (.qtry k n (.pop d) q) s tid (writeRegs (popTake s tid t.crew q d g) tid [.c n true]) :=
  go_of hi (by simp only [hg, hp, full_iff.mpr h, if_true, if_false, Bool.false_eq_true])

theorem qtryPop_fails (h : ¬ (g.poppers = [] ∧ slotFull s t.crew g = true)) :
    Completes (.qtry k n (.pop d) q) s tid (writeRegs s tid [.c n false]) :=
  go_of hi (by simp only [hg, hp, mt full_iff.mp h, if_false, Bool.false_eq_true])

end

end

/-- What QPUSH, QPOP and QTRY do in each case (spec/09 R217). -/
theorem stageRings : Spec.StageRings := by
  intro s tid t k q
  refine ⟨fun a hi => ⟨qpush_misused hi, fun g hg hd => ⟨qpush_goes hi hg hd, qpush_blocks hi hg hd⟩⟩,
    fun d hi => ⟨qpop_misused hi, fun g hg => ⟨qpop_poisoned hi hg, fun hp => ⟨qpop_goes hi hg hp, qpop_blocks hi hg hp⟩⟩⟩,
    fun n a hi => ⟨qtryPush_misused hi, fun g hg => ⟨qtryPush_drains hi hg, qtryPush_goes hi hg, qtryPush_fails hi hg⟩⟩,
    fun n d hi => ⟨qtryPop_misused hi, fun g hg =>
      ⟨qtryPop_poisoned hi hg, fun hp => ⟨qtryPop_goes hi hg hp, qtryPop_fails hi hg hp⟩⟩⟩⟩

/-- Settles O34: the three instructions, and that what is pushed is popped. -/
theorem queueInstructions : Obligations.QueueInstructions := ⟨stageRings, pushedHandleIsPopped⟩

end Sys2Proof.Proofs.StageRings
end

section
/-! O42: the steps by which blocked teams go on (spec/03 R71, R74, R75; spec/09 R218, R222, R224). Each but the barrier's is one evaluation of
the step under its condition; a barrier releases its teams one after another. -/

namespace Sys2Proof.Laws

open Sys2Proof.Machine

/-! ### The end of a word -/

/-- The debugger's step at a boundary changes nothing but its own fields. -/
theorem dbgBoundary_frame (t : Team) : ∃ d b, dbgBoundary t = { t with dbg := d, halted := b } := by
  unfold dbgBoundary
  repeat' split
  all_goals exact ⟨_, _, rfl⟩

/-- The next word changes where the team stands, and ends its wait. -/
theorem nextTeam_frame (t : Team) (n : Nat) : ∃ p c b, nextTeam t n = { t with pc := p, clause := c, notNext := b, wait := .none } := by
  unfold nextTeam
  dsimp only
  repeat' split
  all_goals exact ⟨_, _, _, rfl⟩

theorem tbMod_tbMod {α : Type} (m : Tab α) (k : Nat) (f g : α → α) : tbMod (tbMod m k f) k g = tbMod m k fun x => g (f x) := by
  induction m with
  | nil => rfl
  | cons e m ih =>
    obtain ⟨j, w⟩ := e
    by_cases h : j = k <;> simp [tbMod, h, ih]

/-- What a team's next word leaves: all but the team, the L1 lines of its core and the notes of the translation. -/
theorem advance_frame (s : State) (tid n : Nat) : ∃ cs, advance s tid n =
    { s with teams := tbMod s.teams tid fun t => dbgBoundary (raiseFloor (nextTeam t n) s.xlFloor), cores := cs, xlFloor := 0,
             xlSince := 0 } := by
  obtain ⟨cs, h⟩ := acquireXl_frame (modTeam s tid fun t => nextTeam t n) tid
  refine ⟨cs, ?_⟩
  rw [advance, boundary, h]
  simp only [modTeam, tbMod_tbMod]

end Sys2Proof.Laws

namespace Sys2Proof.Proofs.BlockedTeams

open Sys2Proof.Machine Sys2Proof.Spec Sys2Proof.Laws

/-! ### Rings -/

section

variable {s : State} {cid q tid : Nat} {c : Crew} {g : Ring} {rest : List Nat} {t : Team}
  (hc : tbGet s.crews cid = some c) (hg : tbGet c.rings q = some g) (ht : s.team tid = some t) (hr : running t = true)
include hc hg ht hr

theorem queuePushDone_does {r : Nat} {h : W32} (hq : g.pushers = tid :: rest) (hw : t.wait = .push r h)
    (ha : 0 < allowance g) : Does (.queuePushDone cid q) s (finish (advance
      (pushSlot (modRing s cid q fun g => { g with pushers := rest }) cid q g h t.floor) tid 1)) := by
  simp [Does, exec, execQueuePushDone, hc, hg, hq, ht, hw, hr, ha, completeBlocking]

variable {r d : Nat} (hq : g.poppers = tid :: rest) (hw : t.wait = .pop r d) (hf : slotFull s cid g = true)
include hq hw hf

theorem queuePopDone_does (hp : popPoisoned (modRing s cid q fun g => { g with poppers := rest }) cid g = false) :
    Does (.queuePopDone cid q) s (finish (advance
      (popTake (modRing s cid q fun g => { g with poppers := rest }) tid cid q d g) tid 1)) := by
  simp [Does, exec, execQueuePopDone, hc, hg, hq, ht, hw, hr, hf, hp, completeBlocking]

theorem queuePopDone_faults (hp : popPoisoned (modRing s cid q fun g => { g with poppers := rest }) cid g = true) :
    Does (.queuePopDone cid q) s (finish (boundary
      (enterHandler (modRing s cid q fun g => { g with poppers := rest }) tid
        ⟨.dataUncorrectable, 0, t.live, [], 1, slotKey t.crew g (g.q % g.depth)⟩ t.pc false) tid)) := by
  simp [Does, exec, execQueuePopDone, hc, hg, hq, ht, hw, hr, hf, hp, popFault, fltTeam, fltMask]

end

/-! ### Barriers -/

/-- What a barrier's release leaves of a team that waited at it: it goes on, its floor covers the barrier's, its registers are as they were. -/
def Released (fl : W64) (t t1 : Team) : Prop :=
  t1.wait = .none ∧ t1.floor = maxW t.floor fl ∧ t1.s = t.s ∧ t1.v = t.v

theorem maxW_zero (x : W64) : maxW x 0 = x := by simp [maxW]

theorem maxW_maxW_self (x y : W64) : maxW (maxW x y) y = maxW x y := by
  apply BitVec.eq_of_toNat_eq
  simp only [maxW_toNat]
  omega

/-- A release on a team that a release has left leaves the same. -/
theorem Released.again {fl : W64} {t t1 t2 : Team} (h : Released fl t t1) (g : Released fl t1 t2) : Released fl t t2 := by
  obtain ⟨_, hf, hs, hv⟩ := h
  obtain ⟨hw', hf', hs', hv'⟩ := g
  exact ⟨hw', by rw [hf', hf, maxW_maxW_self], hs'.trans hs, hv'.trans hv⟩

/-- The team after its release, where no floor of a translation is pending. -/
def releasedTeam (fl : W64) (t : Team) : Team := dbgBoundary (raiseFloor (nextTeam (raiseFloor t fl) 1) 0)

theorem released_releasedTeam (fl : W64) (t : Team) : Released fl t (releasedTeam fl t) := by
  obtain ⟨p, c, b, hn⟩ := nextTeam_frame (raiseFloor t fl) 1
  obtain ⟨d, h, hd⟩ := dbgBoundary_frame (raiseFloor (nextTeam (raiseFloor t fl) 1) 0)
  rw [releasedTeam, hd, hn]
  exact ⟨rfl, maxW_zero _, rfl, rfl⟩

/-- A release changes the team, and of the rest the L1 lines of its core and the notes of the translation. -/
theorem releaseOne_frame (cluster : Bool) (fl : W64) {s : State} (e : Nat × Team) (h : s.xlFloor = 0) :
    ∃ cs, releaseOne cluster fl s e =
      { s with teams := tbMod s.teams e.1 (releasedTeam fl), cores := cs, xlFloor := 0, xlSince := 0 } := by
  have hr (cs : Tab Core) : ∃ cs', completeBlocking { modTeam s e.1 (fun t => raiseFloor t fl) with cores := cs } e.1 =
      { s with teams := tbMod s.teams e.1 (releasedTeam fl), cores := cs', xlFloor := 0, xlSince := 0 } := by
    obtain ⟨cs', hs⟩ := advance_frame { modTeam s e.1 (fun t => raiseFloor t fl) with cores := cs } e.1 1
    refine ⟨cs', hs.trans ?_⟩
    simp only [modTeam, tbMod_tbMod, h]
    rfl
  cases cluster
  · exact hr s.cores
  · exact hr _

/-- What the releases of a scope's teams leave: no floor pending, the crews and clusters as they were, each team of the list released, each
other team as it was. -/
theorem foldl_releaseOne (cluster : Bool) (fl : W64) (l : List (Nat × Team)) {s : State} (h : s.xlFloor = 0) :
    let s1 := l.foldl (releaseOne cluster fl) s
    s1.crews = s.crews ∧ s1.clusters = s.clusters ∧
      (∀ tid t, s.team tid = some t → (∃ e ∈ l, e.1 = tid) → ∃ t1, s1.team tid = some t1 ∧ Released fl t t1) ∧
      (∀ tid t, s.team tid = some t → (∀ e ∈ l, e.1 ≠ tid) → s1.team tid = some t) := by
  induction l generalizing s with
  | nil => exact ⟨rfl, rfl, fun _ _ _ ⟨_, he, _⟩ => absurd he List.not_mem_nil, fun _ _ ht _ => ht⟩
  | cons e l ih =>
    obtain ⟨cs, hs⟩ := releaseOne_frame cluster fl e h
    have hx : (releaseOne cluster fl s e).xlFloor = 0 := by rw [hs]
    obtain ⟨hcr, hcl, hin, hout⟩ := ih hx
    have hself : ∀ t, s.team e.1 = some t → (releaseOne cluster fl s e).team e.1 = some (releasedTeam fl t) := by
      intro t ht
      rw [hs]
      exact (tbGet_tbMod_self _ _ _).trans (congrArg (Option.map _) ht)
    have hother : ∀ tid, tid ≠ e.1 → (releaseOne cluster fl s e).team tid = s.team tid := by
      intro tid hne
      rw [hs]
      exact tbGet_tbMod_ne _ _ hne
    refine ⟨hcr.trans (by rw [hs]), hcl.trans (by rw [hs]), fun tid t ht hm => ?_, fun tid t ht hn => ?_⟩
    · by_cases he : tid = e.1
      · subst he
        by_cases hl : ∃ x ∈ l, x.1 = e.1
        · obtain ⟨t1, h1, hr⟩ := hin _ _ (hself t ht) hl
          exact ⟨t1, h1, (released_releasedTeam fl t).again hr⟩
        · exact ⟨_, hout _ _ (hself t ht) fun x hx hxe => hl ⟨x, hx, hxe⟩, released_releasedTeam fl t⟩
      · obtain ⟨x, hxm, hxe⟩ := hm
        rcases List.mem_cons.mp hxm with rfl | hxl
        · exact absurd hxe.symm he
        · exact hin _ _ ((hother _ he).trans ht) ⟨x, hxl, hxe⟩
    · have he : tid ≠ e.1 := fun h => hn e List.mem_cons_self h.symm
      exact hout _ _ ((hother _ he).trans ht) fun x hx => hn x (List.mem_cons_of_mem _ hx)

/-- The state once a barrier has released its teams and begun its next generation. -/
def afterRelease (s : State) (cluster : Bool) (id : Nat) (b : Barrier) : State :=
  let s1 := (scopeTeams s cluster id).foldl (releaseOne cluster b.floor) s
  if cluster then { s1 with clusters := tbMod s1.clusters id fun k => { k with bar := ⟨k.bar.gen + 1, [], 0⟩ } }
  else modCrew s1 id fun c => { c with bar := ⟨c.bar.gen + 1, [], 0⟩ }

section

variable {s : State} {cluster : Bool} {id : Nat} {b : Barrier} (hb : barrierOf s cluster id = some b)
include hb

theorem barrierRelease_does (hd : barrierDue s cluster id = true) :
    Does (.barrierRelease cluster id) s (finish (afterRelease s cluster id b)) := by
  simp only [Does, exec, execBarrierRelease, hb, hd, if_true]
  rfl

theorem afterRelease_barrier (hx : s.xlFloor = 0) :
    barrierOf (afterRelease s cluster id b) cluster id = some ⟨b.gen + 1, [], 0⟩ := by
  obtain ⟨hcr, hcl, _, _⟩ := foldl_releaseOne cluster b.floor (scopeTeams s cluster id) hx
  cases cluster
  all_goals
    obtain ⟨c, hc, rfl⟩ := Option.map_eq_some_iff.mp hb
    simp [barrierOf, afterRelease, hcr, hcl, hc]

end

theorem afterRelease_team (s : State) (cluster : Bool) (id : Nat) (b : Barrier) (tid : Nat) :
    (afterRelease s cluster id b).team tid = ((scopeTeams s cluster id).foldl (releaseOne cluster b.floor) s).team tid := by
  cases cluster <;> rfl

/-! ### The matrix engine's ownership -/

section

variable {s : State} {core h : Nat} {t : Team}

/-- The state once a core's free engine passes to team `h`, which leaves the waiting queue, whose places are filled (spec/03 R75). -/
def granted (s : State) (core h : Nat) : State :=
  modCore s core fun c => refillMx { c with
    mxOwner := some h, mxQueue := c.mxQueue.filter (· != h), mxOver := c.mxOver.filter (· != h) }

variable (hf : mxFree s (s.core core) = true)
  (hn : firstRunning s ((s.core core).mxQueue ++ (s.core core).mxOver) = some h) (ht : s.team h = some t)
include hf hn ht

theorem matrixOwnershipGrant_completes (hw : t.wait = .mxacq) :
    Does (.matrixOwnershipGrant core) s (finish (advance (granted s core h) h 1)) := by
  have ht' : (granted s core h).team h = some t := ht
  simp only [Does, exec, execMatrixOwnershipGrant, nextMx, hf, hn, if_true]
  rw [← granted, ht']
  simp only [hw, if_true, completeBlocking]

theorem matrixOwnershipGrant_restored (hw : t.wait ≠ .mxacq) : Does (.matrixOwnershipGrant core) s (granted s core h) := by
  have ht' : (granted s core h).team h = some t := ht
  simp only [Does, exec, execMatrixOwnershipGrant, nextMx, hf, hn, if_true]
  rw [← granted, ht']
  simp only [hw, if_false]

end

/-! ### Batches and chunk bitmaps -/

section

variable {s : State} {core slot tid : Nat} {t : Team} (hs : teamAt s core slot = some (tid, t)) (hr : running t = true)
include hs hr

theorem waitbComplete_does {m : Nat} (hw : t.wait = .waitb m) (hm : m ≤ batchDone s tid t) :
    Does (.waitbComplete core slot) s (finish (advance (modTeam s tid fun t => raiseFloor t (batchFloor t m)) tid 1)) := by
  simp [Does, exec, execWaitbComplete, hs, hw, hr, hm, completeBlocking]

variable {a m : W64} {n : Nat} (hw : t.wait = .cwait a m n) (hh : t.halted = false) {s1 : State}
include hw hh

theorem cwaitComplete_does {cid off : Nat} (hb : bitmapAt s t tid a = (s1, .ok (cid, off)))
    (hn : bitmapWatch s1 t a cid off = [])
    (hm : BitVec.ofNat 64 (leNat (memRead s1 (partKey cid off) 8)) &&& m = m) (hc : cwaitAhead s1 cid off n = false) :
    Does (.cwaitComplete core slot) s (finish (advance (bitmapAcquire s1 tid t a cid off) tid 1)) := by
  have hread : bitmapRead s t tid a = (s1, .ok (cid, off)) := by simp [bitmapRead, hb, hn, watchAct]
  have hfound : bitsFound s1 cid off m = true := by simpa [bitsFound] using hm
  simp [Does, exec, execCwaitComplete, hs, hw, hr, hh, hread, hfound, hc, completeBlocking]

/-- A word that can no longer be read is a fault of the waiting team. -/
theorem cwaitComplete_faults {f : Flt} (hb : bitmapAt s t tid a = (s1, .error f)) : Does (.cwaitComplete core slot) s
    (finish (boundary (enterHandler s1 tid { f with words := 1 } t.pc false) tid)) := by
  have hread : bitmapRead s t tid a = (s1, .error (.fault s1 f)) := by simp [bitmapRead, hb]
  simp [Does, exec, execCwaitComplete, hs, hw, hr, hh, hread, applyAct]

end

/-- Settles O42: each clause is one of the steps above. -/
theorem blockedTeamsGoOn : Obligations.BlockedTeamsGoOn := by
  unfold Obligations.BlockedTeamsGoOn
  intro s
  refine ⟨fun cid q c g tid rest t r h hc hg hq ht hw hr ha => queuePushDone_does hc hg ht hr hq hw ha,
    fun cid q c g tid rest t r d hc hg hq ht hw hr hf =>
      ⟨queuePopDone_does hc hg ht hr hq hw hf, queuePopDone_faults hc hg ht hr hq hw hf⟩,
    fun cluster id b hb hd hx => ?barrier,
    fun core h t hf hn ht => ⟨matrixOwnershipGrant_completes hf hn ht, matrixOwnershipGrant_restored hf hn ht⟩,
    fun core slot tid t m hs hw hr hm => waitbComplete_does hs hr hw hm,
    fun core slot tid t a m n hs hw hr hh => ⟨fun s1 cid off => cwaitComplete_does hs hr hw hh,
      fun s1 f => cwaitComplete_faults hs hr hw hh⟩⟩
  obtain ⟨_, _, hin, hout⟩ := foldl_releaseOne cluster b.floor (scopeTeams s cluster id) hx
  exact ⟨_, barrierRelease_does hb hd, afterRelease_barrier hb hx,
    fun tid t ht hm => afterRelease_team s cluster id b tid ▸ hin tid t ht ⟨_, hm, rfl⟩,
    fun tid t ht hn => (afterRelease_team s cluster id b tid).trans (hout tid t ht hn)⟩

end Sys2Proof.Proofs.BlockedTeams
end

section
/-! O59 and O60: the canonical form that every step keeps. First the form itself: what keeps a team's registers, and what keeps the state.
Each lemma about a function of the model says that the state it leaves is canonical where the one it began with is; a function that only reads
and writes memory, the logs and the error ring is covered by its lemma of Laws/Quiet.lean. -/

namespace Sys2Proof.Safety

open Sys2Proof.Machine Sys2Proof.Laws

/-! ### The registers of a team -/

namespace TeamOk

variable {t : Team}

theorem incFlags (fs : List Nat) (h : TeamOk t) : TeamOk (incFlags t fs) := teamOk_incFlags fs h

theorem decFlags (fs : List Nat) (h : TeamOk t) : TeamOk (decFlags t fs) := teamOk_decFlags fs h

theorem kput (n : Nat) (m : Mask) (h : TeamOk t) : TeamOk (kput t n m) := teamOk_kput n m h

theorem applyWrs (ws : List Wr) (h : TeamOk t) : TeamOk (applyWrs t ws) := teamOk_applyWrs ws h

theorem nextTeam (n : Nat) (h : TeamOk t) : TeamOk (nextTeam t n) := by
  obtain ⟨_, _, _, ht⟩ := nextTeam_frame t n
  exact ht ▸ h

theorem dbgBoundary (h : TeamOk t) : TeamOk (dbgBoundary t) := by
  obtain ⟨_, _, ht⟩ := dbgBoundary_frame t
  exact ht ▸ h

theorem foldl {α : Type} {f : Team → α → Team} (l : List α) (h : TeamOk t) (hf : ∀ t x, TeamOk t → TeamOk (f t x)) :
    TeamOk (l.foldl f t) := by
  induction l generalizing t with
  | nil => exact h
  | cons a l ih => exact ih (hf _ _ h)

theorem ite₁ {c : Prop} [Decidable c] {a b : Team} (ha : TeamOk a) (hb : TeamOk b) : TeamOk (if c then a else b) := by
  split <;> assumption

end TeamOk

/-! ### The shares of a counter -/

theorem CounterOk.tbSet {m : Tab (Nat × W64)} (k : Nat) (v : Nat × W64) (h : (m.map (·.1)).Pairwise (· < ·)) :
    ((tbSet m k v).map (·.1)).Pairwise (· < ·) := by
  induction m with
  | nil => exact List.pairwise_singleton _ _
  | cons e m ih =>
    obtain ⟨j, w⟩ := e
    obtain ⟨hj, hm⟩ := List.pairwise_cons.mp h
    simp only [Sys2Proof.tbSet]
    split
    · rename_i hk
      exact List.pairwise_cons.mpr ⟨fun x hx => (List.mem_cons.mp hx).elim (· ▸ hk) fun hx => Nat.lt_trans hk (hj x hx), h⟩
    · split
      · rename_i hk
        exact hk ▸ h
      · refine List.pairwise_cons.mpr ⟨fun x hx => ?_, ih hm⟩
        obtain ⟨e, he, rfl⟩ := List.mem_map.mp hx
        rcases mem_tbSet he with he | rfl
        · exact hj _ (List.mem_map_of_mem he)
        · dsimp only
          omega

theorem CounterOk.tbDel {m : Tab (Nat × W64)} (k : Nat) (h : (m.map (·.1)).Pairwise (· < ·)) :
    ((tbDel m k).map (·.1)).Pairwise (· < ·) :=
  h.sublist (List.filter_sublist.map _)

theorem CounterOk.ite {p : Prop} [Decidable p] {m m' : Tab (Nat × W64)} (h : (m.map (·.1)).Pairwise (· < ·))
    (h' : (m'.map (·.1)).Pairwise (· < ·)) : ((if p then m else m').map (·.1)).Pairwise (· < ·) := by
  split <;> assumption

/-! ### The state -/

namespace Canonical

variable {s s' : State}

theorem mk (hm : Memory.wf s.mem = true) (ht : ∀ e ∈ s.teams, TeamOk e.2) (hc : ∀ e ∈ s.counters, CounterOk e.2) : Canonical s :=
  ⟨hm, ht, hc⟩

theorem mem (h : Canonical s) : Memory.wf s.mem = true := h.1

theorem teams (h : Canonical s) : ∀ e ∈ s.teams, TeamOk e.2 := h.2.1

theorem counters (h : Canonical s) : ∀ e ∈ s.counters, CounterOk e.2 := h.2.2

theorem team {tid : Nat} {t : Team} (h : Canonical s) (ht : s.team tid = some t) : TeamOk t := h.teams _ (mem_of_tbGet ht)

theorem counter {key : Nat} {c : Counter} (h : Canonical s) (hc : tbGet s.counters key = some c) : CounterOk c :=
  h.counters _ (mem_of_tbGet hc)

theorem teamAt {core slot tid : Nat} {t : Team} (h : Canonical s) (ht : teamAt s core slot = some (tid, t)) : TeamOk t :=
  h.teams _ (List.mem_of_find?_eq_some ht)

/-- An update of other fields. -/
theorem upd (h : Canonical s) (hm : s'.mem = s.mem) (ht : s'.teams = s.teams) (hc : s'.counters = s.counters) : Canonical s' := by
  refine mk ?_ ?_ ?_
  · exact hm ▸ h.mem
  · exact ht ▸ h.teams
  · exact hc ▸ h.counters

theorem setCores (m : Tab Core) (h : Canonical s) : Canonical { s with cores := m } := h.upd rfl rfl rfl

/-- What reads and writes memory, the logs and the error ring. -/
theorem quiet (h : Canonical s) (q : Quiet s s') : Canonical s' := by
  refine mk (q.wf h.mem) ?_ ?_
  · exact q.teams ▸ h.teams
  · exact q.counters ▸ h.counters

/-- The state of a pair. -/
theorem fst {β : Type} {p : State × β} {b : β} (h : Canonical p.1) (e : p = (s', b)) : Canonical s' := by subst e; exact h

theorem foldl {α : Type} {f : State → α → State} (l : List α) (h : Canonical s)
    (hf : ∀ s x, Canonical s → Canonical (f s x)) : Canonical (l.foldl f s) := by
  induction l generalizing s with
  | nil => exact h
  | cons a l ih => exact ih (hf _ _ h)

/-- A fold whose step is canonical for the elements of the list. -/
theorem foldlMem {α : Type} {f : State → α → State} (l : List α) (h : Canonical s)
    (hf : ∀ s, ∀ x ∈ l, Canonical s → Canonical (f s x)) : Canonical (l.foldl f s) := by
  induction l generalizing s with
  | nil => exact h
  | cons a l ih =>
    exact ih (hf _ _ List.mem_cons_self h) fun s x hx => hf s x (List.mem_cons_of_mem _ hx)

theorem foldl₂ {α β : Type} {f : State × β → α → State × β} (l : List α) {b : β} (h : Canonical s)
    (hf : ∀ s b x, Canonical s → Canonical (f (s, b) x).1) : Canonical (l.foldl f (s, b)).1 := by
  induction l generalizing s b with
  | nil => exact h
  | cons a l ih => exact ih (hf _ _ _ h)

theorem ite₁ {c : Prop} [Decidable c] {a b : State} (ha : Canonical a) (hb : Canonical b) : Canonical (if c then a else b) := by
  split <;> assumption

/-- An update made under a condition. -/
theorem iteOf {c : Prop} [Decidable c] {a b : State} (hb : Canonical b) (hab : Canonical b → Canonical a) :
    Canonical (if c then a else b) := ite₁ (hab hb) hb

theorem ite₂ {β : Type} {c : Prop} [Decidable c] {a b : State × β} (ha : Canonical a.1) (hb : Canonical b.1) :
    Canonical (if c then a else b).1 := by split <;> assumption

/-! ### Teams -/

theorem modTeam {f : Team → Team} (tid : Nat) (h : Canonical s) (hf : ∀ t, TeamOk t → TeamOk (f t)) :
    Canonical (modTeam s tid f) := by
  refine mk h.mem (fun e he => ?_) h.counters
  rcases mem_tbMod he with he | ⟨w, hw, rfl⟩
  · exact h.teams e he
  · exact hf w (h.teams _ hw)

theorem setTeam {t : Team} (tid : Nat) (h : Canonical s) (ht : TeamOk t) : Canonical (setTeam s tid t) := by
  refine mk h.mem (fun e he => ?_) h.counters
  rcases mem_tbSet he with he | rfl
  · exact h.teams e he
  · exact ht

/-! ### Counters -/

theorem setCounter {c : Counter} (key : Nat) (h : Canonical s) (hc : CounterOk c) :
    Canonical { s with counters := tbSet s.counters key c } := by
  refine mk h.mem h.teams fun e he => ?_
  rcases mem_tbSet he with he | rfl
  · exact h.counters e he
  · exact hc

theorem modCounter {f : Counter → Counter} (key : Nat) (h : Canonical s) (hf : ∀ c, CounterOk c → CounterOk (f c)) :
    Canonical (modCounter s key f) := by
  refine mk h.mem h.teams fun e he => ?_
  rcases mem_tbMod he with he | ⟨w, hw, rfl⟩
  · exact h.counters e he
  · exact hf w (h.counters _ hw)

/-- Counters that are among the old ones. -/
theorem subCounters {m : Tab Counter} (h : Canonical s) (hm : ∀ e ∈ m, e ∈ s.counters) : Canonical { s with counters := m } :=
  mk h.mem h.teams fun e he => h.counters e (hm e he)

/-! ### Register writes -/

theorem markRewritten (tid : Nat) (ws : List Wr) (h : Canonical s) : Canonical (markRewritten s tid ws) := h.upd rfl rfl rfl

theorem unlatch (tid : Nat) (ws : List Wr) (h : Canonical s) : Canonical (unlatch s tid ws) := by
  unfold Machine.unlatch
  split
  · exact h
  · split
    · exact h
    · exact ite₁ (h.upd rfl rfl rfl) h

theorem writeRegs (tid : Nat) (ws : List Wr) (h : Canonical s) : Canonical (writeRegs s tid ws) :=
  ((h.markRewritten _ _).unlatch _ _).modTeam _ fun _ ht => ht.applyWrs _

theorem settleDest (oid : Nat) (o : Op) (d : Dest) (h : Canonical s) : Canonical (settleDest s oid o d) := by
  refine ((h.markRewritten _ _).unlatch _ _).modTeam _ fun t ht => ?_
  refine TeamOk.foldl _ (TeamOk.foldl _ (TeamOk.foldl _ ht fun t x ht => ?_) fun t x ht => ?_) fun t x ht => ?_
  · exact TeamOk.ite₁ ht (teamOk_vput _ _ ht)
  · exact TeamOk.ite₁ (teamOk_sput _ _ ht) (teamOk_sput _ _ ht)
  · exact TeamOk.ite₁ ht (teamOk_cput _ _ ht)

theorem enterS (tid : Nat) (h : Canonical s) : Canonical (enterS s tid) := by
  unfold Machine.enterS
  split
  · exact h
  · exact (h.modTeam tid (f := fun t => raiseFloor t s.scFloor) fun _ ht => ht).upd rfl rfl rfl

theorem noteScRead (x : W64) (h : Canonical s) : Canonical (noteScRead s x) := h.upd rfl rfl rfl

/-! ### Faults -/

theorem pushErr (r : ErrRec) (h : Canonical s) : Canonical (pushErr s r) := h.upd rfl rfl rfl

theorem park (tid : Nat) (reason : W64) (h : Canonical s) : Canonical (park s tid reason) := by
  unfold Machine.park
  split
  · exact h
  · have h1 : Canonical (Machine.modTeam s tid fun t => { t with parked := some reason }) := h.modTeam _ fun _ ht => ht
    exact ite₁ (h1.upd rfl rfl rfl) (h1.pushErr _)

/-- The fault registers are none of a team's register files. -/
theorem setFaultRegs {t : Team} (f : Flt) (pc : W64) (late : Bool) (h : TeamOk t) : TeamOk (setFaultRegs t f pc late) := by
  unfold Machine.setFaultRegs
  split
  exact h

theorem enterHandler (tid : Nat) (f : Flt) (pc : W64) (late : Bool) (h : Canonical s) :
    Canonical (enterHandler s tid f pc late) := by
  unfold Machine.enterHandler
  split
  · exact h
  · rename_i t hteam
    have ht := setFaultRegs f pc late (h.team hteam)
    dsimp only
    split
    · have h1 : Canonical (Machine.setTeam s tid { Machine.setFaultRegs t f pc late with parked := some 0, logHalt := true }) :=
        h.setTeam _ ht
      exact ite₁ (h1.upd rfl rfl rfl) (h1.upd rfl rfl rfl)
    · exact ite₁ ((h.setTeam _ ht).park _ _) (h.setTeam _ (TeamOk.kput _ _ ht))

/-! ### The end of an instruction -/

theorem acquireXl (tid : Nat) (h : Canonical s) : Canonical (acquireXl s tid) := by
  obtain ⟨cs, he⟩ := acquireXl_frame s tid
  have h1 : Canonical { s with cores := cs, xlFloor := 0, xlSince := 0 } := h.upd rfl rfl rfl
  exact he ▸ h1.modTeam _ fun _ ht => ht

theorem boundary (tid : Nat) (h : Canonical s) : Canonical (boundary s tid) :=
  (h.acquireXl _).modTeam _ fun _ ht => ht.dbgBoundary

theorem advance (tid n : Nat) (h : Canonical s) : Canonical (advance s tid n) :=
  (h.modTeam _ fun _ ht => ht.nextTeam n).boundary _

theorem transfer (tid : Nat) (a : W64) (h : Canonical s) : Canonical (transfer s tid a) :=
  Canonical.boundary _ (h.modTeam _ fun _ ht => ht)

theorem finish (h : Canonical s) : Canonical (finish s) := h.quiet (Quiet.refl s).finish

theorem fetchWord (t : Team) (va : W64) (h : Canonical s) : Canonical (fetchWord s t va).1 := h.quiet ((Quiet.refl s).fetchWord _ _)

theorem resumeInside (tid : Nat) (hdr pc : W64) (skip : Bool) (h : Canonical s) : Canonical (resumeInside s tid hdr pc skip) := by
  unfold Machine.resumeInside
  split
  · exact h
  · dsimp only
    split
    · have h1 := fst (h.fetchWord _ _) (by assumption)
      exact Canonical.enterHandler _ _ _ _ (h1.modTeam _ fun _ ht => ht)
    · have h1 := fst (h.fetchWord _ _) (by assumption)
      split
      · exact Canonical.enterHandler _ _ _ _ (h1.modTeam _ fun _ ht => ht)
      · exact ite₁ (h1.modTeam _ fun _ ht => ht) (ite₁ (h1.modTeam _ fun _ ht => ht)
          (Canonical.enterHandler _ _ _ _ (h1.modTeam _ fun _ ht => ht)))

theorem leaveHandler (tid : Nat) (skip : Bool) (h : Canonical s) : Canonical (leaveHandler s tid skip) := by
  unfold Machine.leaveHandler
  split
  · exact h
  · rename_i t _
    have h1 : Canonical (Machine.modTeam s tid fun t =>
        { Machine.kput t 15 t.shadow with priv := false, parked := none, logHalt := false, wait := .none }) :=
      h.modTeam _ fun t ht => TeamOk.kput 15 t.shadow ht
    exact ite₁ (h1.modTeam _ fun _ ht => ht) (h1.resumeInside _ _ _ _)

/-! ### Operations in flight -/

theorem launchOp (tid : Nat) (o : Op) (h : Canonical s) : Canonical (launchOp s tid o) :=
  (h.modTeam tid fun _ ht => ht.incFlags o.flags).upd rfl rfl rfl

theorem endOp (id : Nat) (o : Op) (h : Canonical s) : Canonical (endOp s id o) :=
  Canonical.modTeam _ (s := { s with ops := tbDel s.ops id }) (h.upd rfl rfl rfl) fun _ ht => ht.decFlags _

theorem unhold (tid id : Nat) (h : Canonical s) : Canonical (unhold s tid id) :=
  h.modTeam _ fun _ ht => TeamOk.ite₁ ht ht

theorem raiseBy (o : Op) (h : Canonical s) : Canonical (raiseBy s o) := h.modTeam _ fun _ ht => ht

end Canonical

/-! ### Actions and outcomes -/

/-- The state an action carries is canonical. -/
def ActOk : Act → Prop
  | .go s | .jump s _ | .placed s | .fault s _ | .hold s _ | .wait s _ => Canonical s

/-- The next state of an outcome is canonical. -/
def NextOk : Host.Outcome State Fault Refusal → Prop
  | .next s => Canonical s
  | _ => True

theorem NextOk.next {s : State} (h : Canonical s) : NextOk (.next s) := h

theorem ActOk.ite {c : Prop} [Decidable c] {a b : Act} (ha : ActOk a) (hb : ActOk b) : ActOk (if c then a else b) := by
  split <;> assumption

theorem Canonical.applyAct {s : State} {t : Team} {a : Act} (tid n : Nat) (h : Canonical s) (ha : ActOk a) :
    Canonical (applyAct s tid n t a) := by
  cases a with
  | go s1 => exact Canonical.finish (Canonical.advance _ _ ha)
  | jump s1 a =>
    exact ite₁ (Canonical.finish (Canonical.transfer _ _ ha)) (((h.enterHandler _ _ _ _).boundary _).finish)
  | placed s1 => exact Canonical.finish (Canonical.boundary _ ha)
  | fault s1 f => exact Canonical.finish (Canonical.boundary _ (Canonical.enterHandler _ _ _ _ ha))
  | hold s1 op => exact Canonical.finish (Canonical.modTeam _ (Canonical.advance _ _ ha) fun _ ht => ht)
  | wait s1 w => exact Canonical.finish (Canonical.modTeam _ (Canonical.acquireXl _ ha) fun _ ht => ht)

/-- An instruction whose body leaves a canonical state does so whatever its checks find. -/
theorem Canonical.issue {s : State} {i : Instr} {body : Team → Team → Nat → State → Act} (h : Canonical s)
    (hb : ∀ tid t, TeamOk t → ActOk (body (viewOf s tid t) t tid s)) : NextOk (issue i s body) := by
  unfold Machine.issue
  split
  · trivial
  · rename_i tid t hcur
    have ht : s.team tid = some t := by
      unfold State.curTeam at hcur
      split at hcur
      · cases hcur
      · obtain ⟨t', ht', he⟩ := Option.map_eq_some_iff.mp hcur
        cases he
        exact ht'
    refine h.applyAct tid _ ?_
    unfold issueAct
    split
    · exact h
    · split
      · exact h
      · exact hb tid t (h.team ht)

end Sys2Proof.Safety

namespace Sys2Proof.Proofs.Invariant

open Sys2Proof.Machine Sys2Proof.Safety Sys2Proof.Laws

/-- Settles O59: after reset there is no memory cell, no team and no counter. -/
theorem resetMeetsInv : Obligations.ResetMeetsInv :=
  ⟨Canonical.mk reset_wf (fun _ he => absurd he List.not_mem_nil) fun _ he => absurd he List.not_mem_nil, rfl, rfl⟩

end Sys2Proof.Proofs.Invariant
end

section
/-! The canonical form under loads, stores, prefetch, VAPND, atomics and reductions. What their lanes do to memory is quiet; a chain of
operations on the team's own state follows. -/

namespace Sys2Proof.Laws

open Sys2Proof.Machine

namespace Quiet

variable {s0 s s' : State}

/-! ### Reads of lanes -/

theorem readLanes (t : Team) (acq page : Bool) (ls : List (Nat × W64 × List Piece)) (h : Quiet s0 s) :
    Quiet s0 (readLanes s t acq page ls).1 := by
  induction ls generalizing s with
  | nil => exact h
  | cons x ls ih =>
    unfold Machine.readLanes
    have h1 := ih (h.readLane t acq page x.2.1 x.2.2)
    dsimp only
    split <;> exact h1

theorem dropMixed (t : Team) (ls : List (Nat × W64 × List Piece)) (h : Quiet s0 s) : Quiet s0 (dropMixed s t ls) := by
  unfold Machine.dropMixed
  split
  · exact h
  · exact h.modCore _ _

/-! ### Writes of lanes -/

theorem fillLanes (ls : List (Nat × W64 × List Piece)) (h : Quiet s0 s) : Quiet s0 (fillLanes ls s).1 := by
  induction ls generalizing s with
  | nil => exact h
  | cons x ls ih =>
    unfold Machine.fillLanes
    have h1 := ih (h.fillPieces x.2.2)
    dsimp only
    split <;> exact h1

theorem putLanes (i : Instr) (id : Nat) (t : Team) (data : Nat → List Byte) (ls : List (Nat × W64 × List (Nat × Piece)))
    (h : Quiet s0 s) : Quiet s0 (putLanes i id t data ls s) := by
  induction ls generalizing s with
  | nil => exact h
  | cons x ls ih => exact ih (foldl _ h fun _ _ hs => foldl _ hs fun _ _ hs => hs.writePiece _ _ _ _)

theorem writeLanes (i : Instr) (id : Nat) (t : Team) (data : Nat → List Byte) (ls : List (Nat × W64 × List Piece)) (h : Quiet s0 s) :
    Quiet s0 (writeLanes i id t data ls s).1 := (h.fillLanes ls).putLanes _ _ _ _ _

/-! ### As-of loads -/

theorem correctSlot (n finder sec : Nat) (h : Quiet s0 s) : Quiet s0 (correctSlot n finder s sec) := by
  unfold Machine.correctSlot
  exact ite₁ ((h.correctSector sec finder).upd rfl rfl rfl rfl rfl rfl rfl rfl rfl) (h.correctSector sec finder)

theorem correctLees (n finder : Nat) (p : Lees → Bool) (h : Quiet s0 s) : Quiet s0 (correctLees s n finder p) :=
  ite₁ h (foldl _ h fun _ _ hs => hs.correctSlot _ _ _)

theorem asofRead (st : W64) (p : Piece) (h : Quiet s0 s) : Quiet s0 (asofRead s st p).1 := by
  unfold Machine.asofRead
  dsimp only
  refine ite₂ h ?_
  have h1 := (h.sense (sectorOf p.key) 0).correctLees (stackOf p.key) 0 (ofSector (sectorOf p.key))
  exact ite₂ (ite₁ (h1.setClock _ _) h1) (ite₁ (h1.setClock _ _) h1)

theorem asofLanes (st : W64) (ls : List (Nat × W64 × List Piece)) (h : Quiet s0 s) : Quiet s0 (asofLanes st ls s).1 := by
  induction ls generalizing s with
  | nil => exact h
  | cons x ls ih =>
    obtain ⟨l, a, _ | ⟨p, ps⟩⟩ := x
    · exact ih h
    · unfold Machine.asofLanes
      have h1 := ih (h.asofRead st p)
      dsimp only
      split <;> exact h1

/-! ### Prefetch -/

theorem prefLane (t : Team) (tid : Nat) (llc : Bool) (a : W64) (h : Quiet s0 s) : Quiet s0 (prefLane t tid llc s a) := by
  unfold Machine.prefLane
  split
  · have h1 := fst (h.checkLane _ _ _ _ _ _) (by assumption)
    split
    · exact foldl _ h1 fun _ _ hs => ite₁ (ite₁ hs (hs.readSector _ _ _)) (hs.readGlobal _ _ _ _ _ _ _ _)
    · exact h1
  · exact fst (h.checkLane _ _ _ _ _ _) (by assumption)

/-! ### Atomics and reductions -/

theorem atomLanes (id : Nat) (t : Team) (f : Nat → Nat → Option Nat) (ls : List (Nat × W64 × List Piece)) (h : Quiet s0 s) :
    Quiet s0 (atomLanes id t f ls s).1 := by
  induction ls generalizing s with
  | nil => exact h
  | cons x ls ih =>
    obtain ⟨l, a, ps⟩ := x
    unfold Machine.atomLanes
    split
    · exact ih (fst (h.fillPieces _) (by assumption))
    · have h1 := fst (h.fillPieces _) (by assumption)
      split
      · exact ih h1
      · split
        · exact ih (fst (h1.rmw _ _ _ _) (by assumption))
        · exact ih (fst (h1.rmw _ _ _ _) (by assumption))

theorem gather (t : Team) (key va : Nat) (ty : Ty) (op : AOp) (vals : List (Nat × Nat)) (h : Quiet s0 s) :
    Quiet s0 (gather s t key va ty op vals) := by
  unfold Machine.gather
  dsimp only
  have h1 : Quiet s0 (match tbGet s.groups (sectorOf key) with
      | some g => if g.ty = ty ∧ g.op = op then s else Machine.combineGroup s (sectorOf key)
      | none => s) := by
    split
    · exact ite₁ h (h.combineGroup _)
    · exact h
  refine l1Put _ _ _ _ (ite₁ (indexBlock _ _ ?_) ?_)
  all_goals exact h1.upd rfl rfl rfl rfl rfl rfl rfl rfl rfl

theorem redDone {r : State × Except Nat (Nat × W64 × W64)} (h : Quiet s0 r.1) : Quiet s0 (redDone r).1 := by
  unfold Machine.redDone
  split <;> exact h

theorem redLane (id : Nat) (t : Team) (ty : Ty) (op : AOp) (ps : List Piece) (y n : Nat) (log : LogEntry) (h : Quiet s0 s) :
    Quiet s0 (redLane s id t ty op ps y n log).1 := by
  unfold Machine.redLane
  split
  · exact fst (h.fillPieces _) (by assumption)
  · have h1 := fst (h.fillPieces _) (by assumption)
    split
    · exact h1
    · dsimp only
      split
      · exact ite₂ (h1.gather _ _ _ _ _ _) (redDone (h1.rmw _ _ _ _))
      · exact redDone (h1.rmw _ _ _ _)

theorem redLanes (i : Instr) (id : Nat) (t : Team) (ty : Ty) (op : AOp) (n : Nat) (y : Nat → Nat) (cs : List LaneCheck)
    (h : Quiet s0 s) : Quiet s0 (redLanes i id t ty op n y cs s).1 := by
  induction cs generalizing s with
  | nil => exact h
  | cons x cs ih =>
    obtain ⟨l, a, c⟩ := x
    have h1 : Quiet s0 (match c with
        | .error e => (s, .error e.code)
        | .ok ps => Machine.redLane s id t ty op ps (y l) n (redEntry i t ty op l a (y l) .dataUncorrectable) :
        State × Except FCode W64).1 := by
      split
      · exact h
      · exact h.redLane _ _ _ _ _ _ _ _
    unfold Machine.redLanes
    dsimp only
    split
    · exact ih (h1.modOp _ _)
    · exact ih h1

end Quiet

end Sys2Proof.Laws

namespace Sys2Proof.Safety

open Sys2Proof.Machine Sys2Proof.Laws

section

variable {s : State}

theorem Canonical.modCore (c : Nat) (f : Core → Core) (h : Canonical s) : Canonical (modCore s c f) := h.upd rfl rfl rfl

theorem Canonical.modOp (o : Nat) (f : Op → Op) (h : Canonical s) : Canonical (modOp s o f) := h.upd rfl rfl rfl

theorem Canonical.dropL1 (core ctx : Nat) (h : Canonical s) : Canonical (dropL1 s core ctx) := h.modCore _ _

theorem Canonical.scState (order : Order) (tid : Nat) (h : Canonical s) : Canonical (scState order s tid) := ite₁ (h.enterS tid) h

theorem Canonical.checkLanes (t : Team) (tid : Nat) (acc : Acc) (n : Nat) (ls : List (Nat × W64)) (h : Canonical s) :
    Canonical (checkLanes s t tid acc n ls).1 := h.quiet ((Quiet.refl s).checkLanes _ _ _ _ _)

/-- A watchpoint that an access hits halts the team or faults. -/
theorem ActOk.watchAct {tid : Nat} {once : Option Mask} {hits : List (Nat × W64 × Nat)} {a : Act} (h : Canonical s)
    (e : watchAct s tid once hits = some a) : ActOk a := by
  unfold Machine.watchAct at e
  split at e
  · cases e
  · split at e
    · cases e
      exact h.modTeam _ fun _ ht => ht
    · split at e <;> cases e <;> exact h

variable (i : Instr) (t : Team) (tid : Nat)

theorem ActOk.loadAct (lanes : List (Nat × W64)) (n : Nat) (acc : Acc) (once : Option Mask) (order : Order) (scope : Scope)
    (page : Bool) (dest : List (Nat × List Byte) → Dest) (h : Canonical s) :
    ActOk (loadAct i t tid s lanes n acc once order scope page dest) := by
  refine ite h (ite h ?_)
  have h1 := h.checkLanes t tid acc n lanes
  generalize Machine.checkLanes s t tid acc n lanes = p at h1
  obtain ⟨s1, cs⟩ := p
  dsimp only
  split
  · exact h1
  · split
    · exact watchAct h1 (by assumption)
    · have h2 := (h1.scState order tid).quiet (((Quiet.refl _).dropMixed t (passed cs)).readLanes t (isAcq order) page (passed cs))
      have h3 := Canonical.iteOf (c := isSc order = true) h2 (·.noteScRead (Machine.readLanes (Machine.dropMixed
        (Machine.scState order s1 tid) t (passed cs)) t (isAcq order) page (passed cs)).2.stamp)
      have h4 := Canonical.iteOf (c := (isAcq order && wideScope scope) = true) h3 (·.dropL1 t.home t.ctx)
      exact ite (h4.launchOp _ _) ((h4.launchOp _ _).modTeam _ fun _ ht => ht)

theorem ActOk.storeAct (lanes : List (Nat × W64)) (n : Nat) (acc : Acc) (once : Option Mask) (order : Order) (scope : Scope)
    (data : Nat → List Byte) (h : Canonical s) : ActOk (storeAct i t tid s lanes n acc once order scope data) := by
  refine ite h (ite h ?_)
  have h1 := h.checkLanes t tid acc n lanes
  generalize Machine.checkLanes s t tid acc n lanes = p at h1
  obtain ⟨s1, cs⟩ := p
  dsimp only
  split
  · exact h1
  · split
    · exact watchAct h1 (by assumption)
    · exact Canonical.modOp _ _ (Canonical.iteOf (Canonical.quiet ((h1.scState order tid).launchOp tid _)
        ((Quiet.refl _).writeLanes _ _ _ _ _)) (·.dropL1 _ _))

theorem ActOk.asofAct (lanes : List (Nat × W64)) (w : Width) (once : Option Mask) (st : W64)
    (dest : List (Nat × List Byte) → Dest) (h : Canonical s) : ActOk (asofAct i t tid s lanes w once st dest) := by
  refine ite h ?_
  have h1 := h.checkLanes t tid { ldAcc w with asof := true } (widthBytes w) lanes
  generalize Machine.checkLanes s t tid { ldAcc w with asof := true } (widthBytes w) lanes = p at h1
  obtain ⟨s1, cs⟩ := p
  have h2 : Canonical { s1 with xlFloor := s.xlFloor } := h1.upd rfl rfl rfl
  dsimp only
  split
  · exact h2
  · exact Canonical.launchOp _ _ (h2.quiet ((Quiet.refl _).asofLanes _ _))

theorem ActOk.atomAct (o : AtOp) (r : Team) (n : Nat) (f : Nat → Nat → Option Nat) (h : Canonical s) :
    ActOk (atomAct i o r t tid s n f) := by
  refine ite h (ite h ?_)
  have h1 := h.checkLanes t tid (atAcc n) n (atLanes r o)
  generalize Machine.checkLanes s t tid (atAcc n) n (atLanes r o) = p at h1
  obtain ⟨s1, cs⟩ := p
  dsimp only
  split
  · exact h1
  · split
    · exact watchAct h1 (by assumption)
    · have h2 (op : Op) (id : Nat) (ls : List (Nat × W64 × List Piece)) :=
        ((h1.scState o.order tid).launchOp tid op).quiet ((Quiet.refl _).atomLanes id (scTeam o.order s1 t) f ls)
      have h3 (op : Op) (id : Nat) (ls : List (Nat × W64 × List Piece)) (x : W64) :=
        Canonical.iteOf (c := isSc o.order = true) (h2 op id ls) (·.noteScRead x)
      have h4 (op : Op) (id : Nat) (ls : List (Nat × W64 × List Piece)) (x : W64) :=
        Canonical.iteOf (c := (isAcq o.order && wideScope o.scope) = true) (h3 op id ls x) (·.dropL1 t.home t.ctx)
      exact ite (Canonical.modOp _ _ (h4 _ _ _ _)) ((Canonical.modOp _ _ (h4 _ _ _ _)).modTeam _ fun _ ht => ht)

theorem ActOk.redAct (o : AtOp) (op : AOp) (r : Team) (n : Nat) (h : Canonical s) : ActOk (redAct i o op r t tid s n) := by
  refine ite h (ite h ?_)
  have h1 := h.checkLanes t tid (atAcc n) n (atLanes r o)
  generalize Machine.checkLanes s t tid (atAcc n) n (atLanes r o) = p at h1
  obtain ⟨s1, cs⟩ := p
  dsimp only
  split
  · exact h1
  · split
    · exact watchAct h1 (by assumption)
    · exact Canonical.modTeam _ (Canonical.quiet ((h1.scState o.order tid).launchOp tid _) ((Quiet.refl _).redLanes _ _ _ _ _ _ _ _))
        fun _ ht => ht

end

section

variable {s : State} (h : Canonical s)
include h

theorem NextOk.pref (k a b : Nat) (nv u llc : Bool) : NextOk (execPref k a b nv u llc s) := by
  refine h.issue fun tid t ht => ?_
  dsimp only
  split
  · exact (Canonical.foldl _ h fun _ _ hs => hs.quiet ((Quiet.refl _).prefLane _ _ _ _)).upd rfl rfl rfl
  · exact h

theorem NextOk.vapnd (k d a : Nat) : NextOk (execVapnd k d a s) := by
  refine h.issue fun tid t ht => ?_
  refine ActOk.ite h ?_
  split
  · split
    · exact h.quiet (Quiet.fst ((Quiet.refl s).checkLane _ _ _ _ _ _) (by assumption))
    · have h1 := h.quiet (Quiet.fst ((Quiet.refl s).checkLane _ _ _ _ _ _) (by assumption))
      split
      · exact ActOk.watchAct h1 (by assumption)
      · split
        · exact h1.quiet (Quiet.fst ((Quiet.refl _).fillPieces _) (by assumption))
        · have h2 := h1.quiet (Quiet.fst ((Quiet.refl _).fillPieces _) (by assumption))
          dsimp only
          split
          · exact h2.quiet (Quiet.fst (((Quiet.refl _).arrivePart _ _ _).readPiece _ _ _) (by assumption))
          · have h3 := h2.quiet (Quiet.fst (((Quiet.refl _).arrivePart _ _ _).readPiece _ _ _) (by assumption))
            exact Canonical.writeRegs _ _ (Canonical.modTeam _
              (Canonical.quiet (Canonical.ite₁ (h3.launchOp _ _) h3) ((Quiet.refl _).writePart _ _ _ _)) fun _ ht => ht)
  · exact h

end

end Sys2Proof.Safety
end

section
/-! The canonical form under the allowance instructions, fences, maintenance, mapping and the history instructions. -/

namespace Sys2Proof.Laws

open Sys2Proof.Machine

namespace Quiet

variable {s0 s s' : State}

theorem freedLate (w : Waiter) (h : Quiet s0 s) : Quiet s0 (freedLate s w) := h.modOp _ _

theorem lockEntry (ctx base size e : Nat) (tag : W64 × Nat) (h : Quiet s0 s) : Quiet s0 (lockEntry s ctx base size e tag) :=
  foldl _ h fun _ _ hs => hs.ctuFill _ _

theorem lockPages (ctx stop fuel va : Nat) (h : Quiet s0 s) : Quiet s0 (lockPages ctx stop fuel va s).1 := by
  induction fuel generalizing s va with
  | zero => exact h
  | succ fuel ih =>
    unfold Machine.lockPages
    refine ite₂ h ?_
    dsimp only
    split
    · exact fst (h.walk _ _ _) (by assumption)
    · exact fst (h.walk _ _ _) (by assumption)
    · exact fst (h.walk _ _ _) (by assumption)
    · exact fst (h.walk _ _ _) (by assumption)
    · have h1 := fst (h.walk _ _ _) (by assumption)
      split
      · exact h1
      · exact ite₂ (ih _ (h1.noteXl _ _)) (ite₂ h1 (ih _ ((h1.noteXl _ _).lockEntry _ _ _ _ _)))

theorem drainPte (pa : Nat) (h : Quiet s0 s) : Quiet s0 (drainPte s pa) := by
  unfold Machine.drainPte
  split
  · exact h
  · exact ite₁ (h.drainHome _) h

theorem notePgmap (pa : Nat) (e : Option (Nat × W64 × Nat)) (h : Quiet s0 s) : Quiet s0 (notePgmap s pa e) := by
  unfold Machine.notePgmap
  split
  · exact h
  · exact h.upd rfl rfl rfl rfl rfl rfl rfl rfl rfl

theorem unfillPage (ctx base size : Nat) (h : Quiet s0 s) : Quiet s0 (unfillPage s ctx base size) :=
  foldl _ h fun _ _ hs => (hs.cleanChunks _ _ _).modCrew _ _

theorem cmaintState (t : Team) (op : CmOp) (level : CmLevel) (lo hi : Nat) (h : Quiet s0 s) :
    Quiet s0 (cmaintState s t op level lo hi) := by
  have hw (l : List Nat) {a : State} (ha : Quiet s0 a) : Quiet s0 (l.foldl Machine.writeBack a) :=
    foldl l ha fun _ _ hs => hs.writeBack _
  have hd : Quiet s0 (dropL1Range s t.home t.ctx lo hi) := h.modCore _ _
  unfold Machine.cmaintState
  cases level <;> cases op
  · exact h
  · exact hd
  · exact hd
  · exact hw _ h
  · exact hw _ hd
  · exact hw _ hd
  · exact (hw _ h).upd rfl rfl rfl rfl rfl rfl rfl rfl rfl
  · exact (hw _ hd).upd rfl rfl rfl rfl rfl rfl rfl rfl rfl
  · exact (hw _ hd).upd rfl rfl rfl rfl rfl rfl rfl rfl rfl

theorem openBoundary (b : Nat) (h : Quiet s0 s) : Quiet s0 { s with boundary := b } :=
  h.upd rfl rfl rfl rfl rfl rfl rfl rfl rfl

theorem sweep (floor : W64) (h : Quiet s0 s) : Quiet s0 (sweep s floor).1 := by
  unfold Machine.sweep
  exact openBoundary _ (foldl _ (foldl _ (foldl _ h fun _ _ hs => hs.recallStash _) fun _ _ hs => hs.combineGroup _)
    fun _ _ hs => ite₁ (hs.setClock _ _) hs)

theorem pinGeneration (stamp : W64) (b : Nat) (h : Quiet s0 s) : Quiet s0 (pinGeneration s stamp b).1 :=
  ite₂ h (h.upd rfl rfl rfl rfl rfl rfl rfl rfl rfl)

theorem pinLaunch (stamp : W64) (l b : Nat) (h : Quiet s0 s) : Quiet s0 (pinLaunch s stamp l b).1 :=
  ite₂ h (h.upd rfl rfl rfl rfl rfl rfl rfl rfl rfl)

end Quiet

end Sys2Proof.Laws

namespace Sys2Proof.Safety

open Sys2Proof.Machine Sys2Proof.Laws

/-! ### Counters at their home -/

namespace Canonical

variable {s : State}

theorem writeDesc (key : Nat) (live : Bool) (c : Counter) (h : Canonical s) : Canonical (writeDesc s key live c) :=
  h.quiet ((Quiet.refl s).writeDesc _ _ _)

theorem recallShares (key : Nat) (h : Canonical s) : Canonical (recallShares s key) := by
  unfold Machine.recallShares
  split
  · exact h
  · exact writeDesc _ _ _ (h.setCounter key List.Pairwise.nil)

theorem returnShare (key core : Nat) (h : Canonical s) : Canonical (returnShare s key core) := by
  refine h.modCounter key fun c hc => ?_
  split
  · exact CounterOk.tbDel core hc
  · exact hc

theorem atLimit (key : Nat) (h : Canonical s) : Canonical (atLimit s key) := by
  unfold Machine.atLimit
  split
  · exact ite₁ (h.recallShares _) h
  · exact h

theorem makeShareRoom (core key : Nat) (h : Canonical s) : Canonical (makeShareRoom s core key) := by
  refine ite₁ h ?_
  split
  · exact (h.returnShare _ _).atLimit _
  · exact h

theorem aldecAtHome (key core n : Nat) (no : Dec) (h : Canonical s) : Canonical (aldecAt.atHome key core n s no).1 := by
  unfold aldecAt.atHome
  split
  · exact h
  · rename_i c hc
    have hok := h.counter hc
    refine ite₂ h (ite₂ ?_ ?_)
    · exact setCounter key (ite₁ h (h.makeShareRoom _ _)) (CounterOk.ite hok (CounterOk.tbSet core _ hok))
    · have h1 := h.recallShares key
      dsimp only
      split
      · exact h1
      · exact ite₂ (h1.modCounter _ fun _ hc => hc) h1

theorem aldecAt (key core n : Nat) (wait : Bool) (h : Canonical s) : Canonical (aldecAt s key core n wait).1 := by
  unfold Machine.aldecAt
  split
  · exact h
  · refine ite₂ h ?_
    split
    · exact ite₂ (h.modCounter key fun c hc => CounterOk.tbSet core _ hc) (((h.returnShare _ _).atLimit _).aldecAtHome _ _ _ _)
    · exact (h.atLimit _).aldecAtHome _ _ _ _

theorem alincAtHome (key n : Nat) (floor : W64) (h : Canonical s) : Canonical (alincAt.atHome key n floor s) := by
  unfold alincAt.atHome
  split
  · exact h
  · exact atLimit _ (modCounter key (iteOf h (·.recallShares key)) fun _ hc => hc)

theorem alincAt (key core n : Nat) (floor : W64) (h : Canonical s) : Canonical (alincAt s key core n floor) := by
  unfold Machine.alincAt
  split
  · exact h
  · split
    · exact ite₁ (h.modCounter key fun c hc => CounterOk.tbSet core _ hc) (h.alincAtHome _ _ _)
    · exact h.alincAtHome _ _ _

theorem counterCheck (t : Team) (a : W64) (write role : Bool) (n : Nat) (h : Canonical s) :
    Canonical (counterCheck s t a write role n).1 := by
  unfold Machine.counterCheck
  dsimp only
  split
  · exact ite₂ h (ite₂ h h)
  · refine ite₂ h (ite₂ h ?_)
    split
    · exact h.quiet (Quiet.fst ((Quiet.refl s).translate _ _ _ _) (by assumption))
    · have h1 := h.quiet (Quiet.fst ((Quiet.refl s).translate _ _ _ _) (by assumption))
      exact ite₂ h1 h1
  · exact h

end Canonical

/-! ### The allowance instructions -/

/-- An allowance instruction whose action on the descriptor's counter is canonical. -/
theorem ActOk.allowAct {s : State} {r t : Team} {tid k a n : Nat} {write role : Bool} {f : Mask → W64 → Nat → State → Act}
    (h : Canonical s) (hf : ∀ m addr key s, Canonical s → ActOk (f m addr key s)) :
    ActOk (allowAct r t tid s k a write role n f) := by
  refine ite h ?_
  dsimp only
  split
  · exact Canonical.fst (h.counterCheck _ _ _ _ _) (by assumption)
  · have h1 := Canonical.fst (h.counterCheck _ _ _ _ _) (by assumption)
    split
    · exact watchAct h1 (by assumption)
    · exact hf _ _ _ _ h1

section

variable {s : State} (h : Canonical s)
include h

theorem NextOk.alinit (k a : Nat) (b : LSrc) : NextOk (execAlinit k a b s) := by
  refine h.issue fun tid t ht => ActOk.allowAct h fun m addr key s hs => ?_
  exact ActOk.ite hs (ActOk.ite hs (ActOk.ite (hs.upd rfl rfl rfl) (Canonical.writeDesc _ _ _ (hs.setCounter key List.Pairwise.nil))))

theorem NextOk.aldec (k fs d a : Nat) (b : LSrc) (acq : Bool) (scope : Scope) (wait : Bool) :
    NextOk (execAldec k fs d a b acq scope wait s) := by
  refine h.issue fun tid t ht => ActOk.allowAct h fun m addr key s1 hs => ?_
  refine ActOk.ite hs (ActOk.ite hs ?_)
  have h1 := hs.aldecAt key t.home (countVal (viewOf s tid t) b) wait
  dsimp only
  generalize Machine.aldecAt s1 key t.home (countVal (viewOf s tid t) b) wait = p at h1
  obtain ⟨s2, out⟩ := p
  have h2 := Canonical.iteOf (c := (acq && wideScope scope) = true) h1 (·.dropL1 t.home t.ctx)
  cases out with
  | ok fl => exact ActOk.ite (h2.launchOp _ _) (h2.launchOp _ _)
  | fail => exact ActOk.ite (h2.launchOp _ _) (h2.launchOp _ _)
  | queue =>
    exact ActOk.ite ((h2.launchOp _ _).modCounter _ fun _ hc => hc) ((h2.launchOp _ _).modCounter _ fun _ hc => hc)

theorem NextOk.alinc (k a : Nat) (b : LSrc) (rel : Bool) (scope : Scope) : NextOk (execAlinc k a b rel scope s) := by
  refine h.issue fun tid t ht => ActOk.ite h (ActOk.allowAct h fun m addr key s hs => ?_)
  exact ActOk.ite hs (ActOk.ite (hs.upd rfl rfl rfl) (hs.alincAt _ _ _ _))

theorem NextOk.alrd (k fs d a : Nat) (acq : Bool) (scope : Scope) : NextOk (execAlrd k fs d a acq scope s) := by
  refine h.issue fun tid t ht => ActOk.allowAct h fun m addr key s hs => ?_
  dsimp only
  split
  · exact hs
  · refine ActOk.ite hs ?_
    have h2 := Canonical.iteOf (c := (acq && wideScope scope) = true) (hs.recallShares key) (·.dropL1 t.home t.ctx)
    exact ActOk.ite (h2.launchOp _ _) (h2.launchOp _ _)

theorem NextOk.alfree (k a : Nat) : NextOk (execAlfree k a s) := by
  refine h.issue fun tid t ht => ActOk.allowAct h fun m addr key s hs => ?_
  refine ActOk.ite hs (ActOk.ite (hs.upd rfl rfl rfl) ?_)
  have h1 := hs.recallShares key
  dsimp only
  split
  · exact h1
  · exact Canonical.foldl _ (Canonical.writeDesc _ _ _ (h1.subCounters fun _ he => mem_tbDel he)) fun _ _ hs => hs.modOp _ _

end

/-! ### Fences -/

namespace Canonical

variable {s : State}

theorem passFence (tid : Nat) (h : Canonical s) : Canonical (passFence s tid) := h.modTeam _ fun _ ht => ht

theorem fenceAcq (t : Team) (tid : Nat) (scope : Scope) (h : Canonical s) : Canonical (fenceAcq s t tid scope) :=
  iteOf (h.modTeam tid fun _ ht => ht) (·.dropL1 _ _)

theorem orderTeam (t : Team) (tid : Nat) (h : Canonical s) : Canonical (orderTeam s t tid) :=
  modTeam _ (modCore _ _ (h.quiet ((Quiet.refl s).drainWrites _ _))) fun _ ht => ht

theorem serialise (ctx : Nat) (f : W64) (core : Nat) (h : Canonical s) : Canonical (serialise ctx f s core) :=
  (h.dropL1 _ _).modCore _ _

end Canonical

section

variable {s : State} (h : Canonical s)
include h

theorem NextOk.fence (k : Nat) (order : Order) (scope : Scope) : NextOk (execFence k order scope s) :=
  h.issue fun tid t _ => ActOk.ite h (ActOk.ite h
    (((Canonical.iteOf h (·.fenceAcq t tid scope)).scState order tid).passFence tid))

theorem NextOk.fenceo (k : Nat) (scope : Scope) : NextOk (execFenceo k scope s) :=
  h.issue fun _ _ _ => ActOk.ite h ((h.orderTeam _ _).passFence _)

theorem NextOk.fencer (k : Nat) (scope : Scope) : NextOk (execFencer k scope s) :=
  h.issue fun tid t _ => ActOk.ite h (ActOk.ite h (Canonical.launchOp _ _ (Canonical.passFence _
    (Canonical.foldl _ ((h.fenceAcq t tid scope).enterS tid) fun _ _ hs => hs.serialise _ _ _))))

/-! ### Maintenance and mapping -/

theorem NextOk.cmaint (k a b : Nat) (op : CmOp) (level : CmLevel) : NextOk (execCmaint k a b op level s) :=
  h.issue fun _ _ _ => ActOk.ite h (ActOk.ite h (ActOk.ite h (ActOk.ite h (h.quiet ((Quiet.refl s).cmaintState _ _ _ _ _)))))

theorem NextOk.tlblock (k a b : Nat) : NextOk (execTlblock k a b s) := by
  refine h.issue fun tid t _ => ActOk.ite h (ActOk.ite h ?_)
  have note {x : State} (n lo : Nat) (hx : Canonical x) :
      Canonical (if n = 0 then x else modCtx x t.ctx fun c => { c with locked := insertNew c.locked (lo, n) }) :=
    Canonical.ite₁ hx (hx.upd rfl rfl rfl)
  split
  · exact h
  · dsimp only
    split
    · exact note _ _ (h.quiet (Quiet.fst ((Quiet.refl s).lockPages _ _ _ _) (by assumption)))
    · exact note _ _ (h.quiet (Quiet.fst ((Quiet.refl s).lockPages _ _ _ _) (by assumption)))

theorem NextOk.tlbunlock (k a b : Nat) : NextOk (execTlbunlock k a b s) := by
  refine h.issue fun tid t _ => ActOk.ite h (ActOk.ite h ?_)
  split
  · exact h
  · exact h.upd rfl rfl rfl

theorem Canonical.writePte (t : Team) (tid pa : Nat) (e : W64) : Canonical (writePte s t tid pa e) := by
  unfold Machine.writePte
  split
  · exact h
  · exact iteOf (h.quiet (((Quiet.refl s).writeSector _ _ _ _).settle _ _)) (·.modTeam _ fun _ ht => ht)

theorem NextOk.pgmap (k d a b : Nat) : NextOk (execPgmap k d a b s) := by
  refine h.issue fun tid t _ => ActOk.ite h (ActOk.ite h (ActOk.ite h (ActOk.ite h (ActOk.ite h ?_))))
  have clear {x : State} (hx : Canonical x) : ActOk (.go (writeRegs x tid [.c d false])) := hx.writeRegs _ _
  dsimp only
  split
  · exact h.quiet (Quiet.fst ((Quiet.refl s).walk _ _ _) (by assumption))
  · exact h.quiet (Quiet.fst ((Quiet.refl s).walk _ _ _) (by assumption))
  · exact clear (h.quiet (Quiet.fst ((Quiet.refl s).walk _ _ _) (by assumption)))
  · exact clear (h.quiet (Quiet.fst ((Quiet.refl s).walk _ _ _) (by assumption)))
  · rename_i pa _ _
    have h1 := h.quiet (Quiet.fst ((Quiet.refl s).walk _ _ _) (by assumption))
    refine ActOk.ite h1 ?_
    have h2 := h1.quiet ((Quiet.refl _).drainPte pa)
    refine ActOk.ite (clear (h2.upd rfl rfl rfl)) ?_
    exact Canonical.writeRegs _ _ (Canonical.iteOf
      ((h2.writePte _ _ _ _).quiet ((Quiet.refl _).notePgmap _ _)) fun hx => hx.quiet ((Quiet.refl _).lockEntry _ _ _ _ _))

theorem NextOk.pgunmap (k a b : Nat) : NextOk (execPgunmap k a b s) := by
  refine h.issue fun tid t _ => ActOk.ite h (ActOk.ite h (ActOk.ite h (ActOk.ite h ?_)))
  split
  · rename_i pa _ _
    have h1 := h.quiet (Quiet.fst ((Quiet.refl s).walk _ _ _) (by assumption))
    refine ActOk.ite h1 ?_
    have h2 := h1.quiet ((Quiet.refl _).drainPte pa)
    refine ActOk.ite (h2.upd rfl rfl rfl) ?_
    exact Canonical.quiet (Canonical.setCores _ (Canonical.quiet (h2.writePte _ _ _ _) (((Quiet.refl _).notePgmap _ _).shootDown _)))
      ((Quiet.refl _).unfillPage _ _ _).drainAll
  · exact h.quiet (Quiet.fst ((Quiet.refl s).walk _ _ _) (by assumption))

/-! ### History -/

theorem ActOk.historyAct (i : Instr) (t : Team) (tid : Nat) (dest : Tab W64) (floor : W64) (x : Hist) :
    ActOk (historyAct i s t tid dest floor x) := h.launchOp _ _

theorem NextOk.stampget (k fs d : Nat) : NextOk (execStampget k fs d s) :=
  h.issue fun _ _ _ => ActOk.ite h (ActOk.historyAct h _ _ _ _ _ _)

theorem NextOk.snap (k fs d : Nat) : NextOk (execSnap k fs d s) := by
  refine h.issue fun tid t _ => ActOk.ite h (ActOk.ite (ActOk.historyAct h _ _ _ _ _ _) ?_)
  split
  have h1 := h.quiet (Quiet.fst ((Quiet.refl s).sweep _) (by assumption))
  split
  exact ActOk.historyAct (h1.quiet (Quiet.fst ((Quiet.refl _).pinGeneration _ _) (by assumption))) _ _ _ _ _ _

theorem NextOk.pin (k fs d a : Nat) : NextOk (execPin k fs d a s) :=
  h.issue fun _ _ _ => ActOk.historyAct (h.quiet ((Quiet.refl s).pinLaunch _ _ _)) _ _ _ _ _ _

theorem NextOk.unpin (k a : Nat) : NextOk (execUnpin k a s) := h.issue fun _ _ _ => h.upd rfl rfl rfl

theorem NextOk.horizon (k fs d : Nat) : NextOk (execHorizon k fs d s) :=
  h.issue fun _ _ _ => ActOk.historyAct (h.modCore _ _) _ _ _ _ _ _

end

end Sys2Proof.Safety
end

section
/-! The canonical form under the engine commands: the quantising engine, the near-memory units and the copy port. -/

namespace Sys2Proof.Laws

open Sys2Proof.Machine

namespace Quiet

variable {s0 s s' : State}

/-! ### The quantising engine -/

theorem markExecuted (id : Nat) (h : Quiet s0 s) : Quiet s0 (markExecuted s id) := h.modCmd _ _

theorem keepFail (id i : Nat) (c : Cmd) (code : FCode) (a : W64) (h : Quiet s0 s) : Quiet s0 (keepFail s id i c code a) := h.modCmd _ _

theorem quantPut (id : Nat) (c : Cmd) (q : Quant) (i : Nat) (data : List Byte) (h : Quiet s0 s) :
    Quiet s0 (quantPut id c q i data s) := by
  unfold Machine.quantPut
  split
  · exact h
  · split
    · exact fst (h.enginePutAll _ _ _ _) (by assumption)
    · exact (fst (h.enginePutAll _ _ _ _) (by assumption)).keepFail _ _ _ _ _

/-! ### The near-memory units -/

theorem nmcPages (ctx hub stop : Nat) (write : Bool) (fuel va : Nat) (ps : List (Nat × Nat × Nat × Bool × Bool)) (h : Quiet s0 s) :
    Quiet s0 (nmcPages ctx hub stop write fuel va s ps).1 := by
  induction fuel generalizing s va ps with
  | zero => exact h
  | succ fuel ih =>
    unfold Machine.nmcPages
    refine ite₂ h ?_
    split
    · exact fst (h.translate _ _ _ _) (by assumption)
    · have h1 := fst (h.translate _ _ _ _) (by assumption)
      exact ite₂ h1 (ih _ _ h1)

theorem nmcReady (id : Nat) (c : Cmd) (n : Nmc) (h : Quiet s0 s) : Quiet s0 (nmcReady s id c n) := by
  have pages {a : State} (write : Bool) (x : W64) (ha : Quiet s0 a) := ha.nmcPages c.ctx (hubOf c.core) (x.toNat + nmcLen n) write
    (nmcLen n / 65536 + 2) x.toNat []
  unfold Machine.nmcReady
  extract_lets hub stop fuel walk1
  have hw {a : State} (use : Bool) (x : W64) (ha : Quiet s0 a) : Quiet s0 (walk1 a use x).1 := ite₂ (pages _ _ ha) ha
  split
  have h1 := fst (pages _ _ h) (by assumption)
  split
  have h2 := fst (hw _ _ h1) (by assumption)
  split
  have h3 := fst (hw _ _ h2) (by assumption)
  extract_lets bads
  clear_value bads
  cases bads with
  | nil => exact h3.modCmd _ _
  | cons e es => exact h3.modCmd _ _

theorem nmcRead (id : Nat) (n : Nmc) (va len : Nat) (h : Quiet s0 s) : Quiet s0 (nmcRead s id n va len).1 := by
  unfold Machine.nmcRead
  split
  · exact h
  · split
    · exact fst ((h.pcMiss _ _).readSector _ _ _) (by assumption)
    · have h1 := fst ((h.pcMiss _ _).readSector _ _ _) (by assumption)
      exact modCmd _ _ (ite₁ (h1.uncache _) h1)

theorem nmcSector (id : Nat) (c : Cmd) (n : Nmc) (va : Nat) (h : Quiet s0 s) : Quiet s0 (nmcSector s id c n va).1 := by
  unfold Machine.nmcSector
  extract_lets off len _ opnd
  have hr {a : State} (use : Bool) (x : W64) (ha : Quiet s0 a) : Quiet s0 (opnd a use x).1 := ite₂ (ha.nmcRead _ _ _ _) ha
  split
  · exact fst (hr _ _ h) (by assumption)
  · have h1 := fst (hr _ _ h) (by assumption)
    split
    · exact fst (hr _ _ h1) (by assumption)
    · have h2 := fst (hr _ _ h1) (by assumption)
      split
      · exact h2
      · extract_lets s1
        have h3 : Quiet s0 s1 := h2.settle _ _
        refine ite₂ h3 ?_
        split
        · exact fst (h3.enginePutKey _ _ _ _ _ _ _) (by assumption)
        · have h4 := fst (h3.enginePutKey _ _ _ _ _ _ _) (by assumption)
          exact modCmd _ _ (ite₁ (h4.settle _ _) h4)

theorem nmcStop (id va : Nat) (code : FCode) (key : Nat) (h : Quiet s0 s) : Quiet s0 (nmcStop s id va code key) := h.modCmd _ _

theorem nmcShare (op home : Nat) (h : Quiet s0 s) : Quiet s0 (nmcShare s op home) := by
  unfold Machine.nmcShare
  split
  · exact h
  · split
    · refine ite₁ ?_ h
      extract_lets mine
      split
      refine (fst (foldl₂ mine h fun a b va ha => ?_) (by assumption)).modCmd _ _
      refine ite₂ ha ?_
      split
      · exact fst (ha.nmcSector _ _ _ _) (by assumption)
      · exact (fst (ha.nmcSector _ _ _ _) (by assumption)).nmcStop _ _ _ _
    · exact h

/-! ### The copy port -/

theorem globElem (c : Cmd) (g : W64) (write : Bool) (h : Quiet s0 s) : Quiet s0 (globElem s c g write).1 := by
  unfold Machine.globElem
  split
  · exact fst (h.translate _ _ _ _) (by assumption)
  · exact fst (h.translate _ _ _ _) (by assumption)

theorem memElem (c : Cmd) (k : Copy) (g : W64) (write : Bool) (h : Quiet s0 s) : Quiet s0 (memElem s c k g write).1 :=
  ite₂ h (ite₂ h (ite₂ h (h.globElem _ _ _)))

theorem putTile (id : Nat) (c : Cmd) (k : Copy) (off : Nat) (data : List Byte) (h : Quiet s0 s) :
    Quiet s0 (putTile s id c k off data).1 := by
  refine ite₂ ?_ (h.enginePutPart _ _ _ _ _ _)
  split
  · exact h
  · extract_lets tr
    split
    · have h1 := fst (h.enginePutKey _ _ _ _ _ _ _) (by assumption)
      exact ite₁ (h1.settle _ _) h1
    · exact h.enginePutKey _ _ _ _ _ _ _

theorem putPeer (id : Nat) (c : Cmd) (k : Copy) (g : W64) (data : List Byte) (h : Quiet s0 s) :
    Quiet s0 (putPeer s id c k g data).1 := by
  refine ite₂ ?_ (ite₂ (ite₂ h ?_) h)
  · split
    · exact ite₂ h (ite₂ h (ite₂ h (h.enginePutPart _ _ _ _ _ _)))
    · exact h
  · split
    · exact h
    · exact (h.memWrite _ _).tagWrite _ _ _

theorem modCopy (id : Nat) (f : Copy → Copy) (h : Quiet s0 s) : Quiet s0 (modCopy s id f) := h.modCmd _ _

theorem keepSeg (id key : Nat) (x : List Byte × W64) (h : Quiet s0 s) : Quiet s0 (keepSeg s id key x) := h.modCopy _ _

theorem readSeg (id : Nat) (c : Cmd) (key n : Nat) (unc : Bool) (h : Quiet s0 s) : Quiet s0 (readSeg s id c key n unc).1 := by
  unfold Machine.readSeg
  split
  · exact h
  · extract_lets s1
    have h1 : Quiet s0 s1 := ite₁ (h.pcMiss _ _) h
    split
    · exact fst (h1.readSector _ _ _) (by assumption)
    · have h2 := fst (h1.readSector _ _ _) (by assumption)
      exact keepSeg _ _ _ (ite₁ (h2.uncache _) h2)

/-- The place of the tile is made a variable before the matches are taken apart: the kernel would count down from 2^64. -/
theorem readTile (op : Nat) (c : Cmd) (k : Copy) (off n : Nat) (h : Quiet s0 s) : Quiet s0 (readTile s op c k off n).1 := by
  generalize hf : @Machine.readTile = f
  delta Machine.readTile at hf
  subst hf
  beta_reduce
  generalize k.tile - 2 ^ 64 = base
  revert base
  refine id fun base => ?_
  dsimp only
  split
  · exact h
  · split
    · exact fst (h.engineRead _ _ _ _ _) (by assumption)
    · exact (fst (h.engineRead _ _ _ _ _) (by assumption)).keepSeg _ _ _

theorem raiseBound (id : Nat) (st : W64) (h : Quiet s0 s) : Quiet s0 (raiseBound s id st) := h.modCmd _ _

theorem moveElem (id : Nat) (c : Cmd) (k : Copy) (off : Nat) (h : Quiet s0 s) : Quiet s0 (moveElem s id c k off).1 := by
  unfold Machine.moveElem
  extract_lets _ i g
  refine ite₂ (ite₂ (h.putTile _ _ _ _ _) ?_) (ite₂ h ?_)
  · split
    · exact fst (h.memElem _ _ _ _) (by assumption)
    · have h1 := fst (h.memElem _ _ _ _) (by assumption)
      split
      · exact fst (h1.readSeg _ _ _ _ _) (by assumption)
      · exact ((fst (h1.readSeg _ _ _ _ _) (by assumption)).raiseBound _ _).putTile _ _ _ _ _
  · extract_lets
    split
    · exact fst (h.readTile _ _ _ _ _) (by assumption)
    · extract_lets s1
      have h1 : Quiet s0 s1 := (fst (h.readTile _ _ _ _ _) (by assumption)).raiseBound _ _
      refine ite₂ (h1.putPeer _ _ _ _ _) ?_
      split
      · exact fst (h1.memElem _ _ _ _) (by assumption)
      · exact (fst (h1.memElem _ _ _ _) (by assumption)).enginePutKey _ _ _ _ _ _ _

theorem moveChunk (id : Nat) (c : Cmd) (k : Copy) (n : Nat) (h : Quiet s0 s) : Quiet s0 (moveChunk s id c k n).1 := by
  refine foldl₂ _ h fun a b j ha => ?_
  dsimp only
  split
  · exact ha
  · exact ha.moveElem _ _ _ _

/-- The place of the bitmap is made a variable first, as the tile's is in `readTile`. -/
theorem setChunkBit (op : Nat) (c : Cmd) (k : Copy) (n : Nat) (h : Quiet s0 s) : Quiet s0 (setChunkBit s op c k n).1 := by
  generalize hf : @Machine.setChunkBit = f
  delta Machine.setChunkBit at hf
  subst hf
  beta_reduce
  generalize (k.bitmap - 2 ^ 64) % 2 ^ 20 = off
  revert off
  refine id fun off => ?_
  dsimp only
  split
  · exact fst (h.engineRead _ _ _ _ _) (by assumption)
  · exact ((fst (h.engineRead _ _ _ _ _) (by assumption)).modCrew _ _).enginePutPart _ _ _ _ _ _

theorem ackChunk (id : Nat) (k : Copy) (h : Quiet s0 s) : Quiet s0 (ackChunk s id k) := ite₁ h (h.drainWrites _ _)

theorem chunkStep (id : Nat) (c : Cmd) (k : Copy) (n : Nat) (h : Quiet s0 s) : Quiet s0 (chunkStep s id c k n).1 := by
  unfold Machine.chunkStep
  split
  · exact fst (h.moveChunk _ _ _ _) (by assumption)
  · have h1 := (fst (h.moveChunk _ _ _ _) (by assumption)).ackChunk id k
    refine ite₂ h1 ?_
    split
    · exact fst (h1.setChunkBit _ _ _ _) (by assumption)
    · exact (fst (h1.setChunkBit _ _ _ _) (by assumption)).modCopy _ _

/-! ### Completion records -/

theorem writeRecord (id : Nat) (c : Cmd) (h : Quiet s0 s) : Quiet s0 (writeRecord s id c) := by
  unfold Machine.writeRecord
  extract_lets c s1
  have h1 : Quiet s0 s1 := h.modCmd _ _
  split
  · exact h1
  · extract_lets lost
    have hl {a : State} (code : FCode) (ha : Quiet s0 a) : Quiet s0 (lost a code) := ha.modCmd _ _
    split
    · exact hl _ (fst (h1.enginePut _ _ _ _) (by assumption))
    · have h2 := fst (h1.enginePut _ _ _ _) (by assumption)
      split
      · exact hl _ (fst (h2.enginePut _ _ _ _) (by assumption))
      · exact fst (h2.enginePut _ _ _ _) (by assumption)

theorem nmcStopRec (c : Cmd) (h : Quiet s0 s) : Quiet s0 (nmcStopRec s c) := by
  unfold Machine.nmcStopRec
  split
  · split
    · exact ite₁ (h.pushErr _) h
    · exact h
  · exact h

theorem recordCmd (op : Nat) (c : Cmd) (h : Quiet s0 s) : Quiet s0 (recordCmd s op c) := ite₁ h ((h.writeRecord _ _).nmcStopRec _)

end Quiet

end Sys2Proof.Laws
end

section
/-! The canonical form under the engine commands and the end of teams, crews and clusters. -/

namespace Sys2Proof.Safety

open Sys2Proof.Machine Sys2Proof.Laws

/-- The entries of a map set one after the other. -/
theorem smWf_foldl {α β : Type} [DecidableEq α] {d : α} {m : List (Nat × α)} (l : List β) (k : β → Nat) (v : β → α)
    (h : smWf d m = true) : smWf d (l.foldl (fun m x => smSet d m (k x) (v x)) m) = true := by
  induction l generalizing m with
  | nil => exact h
  | cons a l ih => exact ih (smWf_smSet _ _ h)

/-- A team with other q registers. -/
theorem TeamOk.setQ {t : Team} {q : Tab W32} (h : TeamOk t) (hq : smWf 0 q = true) : TeamOk { t with q := q } :=
  ⟨h.1, h.2.1, h.2.2.1, h.2.2.2.1, hq, h.2.2.2.2.2⟩

theorem TeamOk.q_wf {t : Team} (h : TeamOk t) : smWf 0 t.q = true := h.2.2.2.2.1

namespace Canonical

variable {s : State}

/-! ### The quantising engine -/

theorem quantAxis (op : Nat) (c : Cmd) (q : Quant) (x : List Nat) (col : Bool) (n i : Nat) (h : Canonical s) :
    Canonical (quantAxis s op c q x col n i) := by
  unfold Machine.quantAxis
  extract_lets rho
  split
  extract_lets s1 put
  have h1 : Canonical s1 := h.quiet (((Quiet.refl s).quantPut _ _ _ _ _).quantPut _ _ _ _ _)
  exact h1.modTeam _ fun t ht => ht.setQ (smWf_foldl _ (fun x : Nat × Nat => 48 * n + x.2) (fun x => BitVec.ofNat 32 x.1) ht.q_wf)

/-- The place of a partition byte is made a variable first, as the tile's is in `Quiet.readTile`. -/
theorem quantRun (op : Nat) (h : Canonical s) : Canonical (quantRun s op) := by
  generalize hf : @Machine.quantRun = f
  delta Machine.quantRun at hf
  subst hf
  beta_reduce
  generalize (fun key : Nat => ((key - 2 ^ 64) / 2 ^ 20, (key - 2 ^ 64) % 2 ^ 20)) = place
  revert place
  refine id fun place => ?_
  split
  · exact h
  · extract_lets s1 at'
    have h1 : Canonical s1 := h.quiet ((Quiet.refl s).markExecuted _)
    have read {a : State} (c : Cmd) (cid off n : Nat) (ha : Canonical a) :
      Canonical (engineRead a c.ctx (hubOf c.core) cid off n).1 := ha.quiet ((Quiet.refl a).engineRead _ _ _ _ _)
    split
    · split
      split
      · refine (fst (read _ _ _ _ h1) (by assumption)).foldl _ fun a x ha => ?_
        split
        · exact ha.quiet ((Quiet.refl a).keepFail _ _ _ _ _)
        · exact ha
      · have h2 := fst (read _ _ _ _ h1) (by assumption)
        extract_lets x s2
        have h3 : Canonical s2 := by
          unfold s2
          split
          · exact h2.quantAxis _ _ _ _ _ _ _
          · exact h2
        split
        · exact h3.quantAxis _ _ _ _ _ _ _
        · exact h3
    · split
      split
      · exact (fst (read _ _ _ _ h1) (by assumption)).quiet ((Quiet.refl _).keepFail _ _ _ _ _)
      · exact (fst (read _ _ _ _ h1) (by assumption)).modTeam _ fun t ht => ht.setQ (smWf_foldl _ _ _ ht.q_wf)
    · split
      split
      · exact h1
      · extract_lets data
        generalize hp : List.foldl _ (s1, none) _ = p
        have h2 : Canonical p.1 := by
          subst hp
          refine h1.foldl₂ _ fun a b x ha => ?_
          split
          · exact ha.quiet (Quiet.fst ((Quiet.refl a).enginePutPart _ _ _ _ _ _) (by assumption))
          · exact ha.quiet (Quiet.fst ((Quiet.refl a).enginePutPart _ _ _ _ _ _) (by assumption))
        obtain ⟨s2, none | e⟩ := p
        · exact h2
        · exact h2.quiet ((Quiet.refl s2).keepFail _ _ _ _ _)
    · exact h1

theorem quantDrain (tid : Nat) (h : Canonical s) : Canonical (quantDrain s tid) := h.foldl _ fun _ _ hs => hs.quantRun _

/-! ### The end of teams, crews and clusters -/

/-- Other memory, and fields that are none of the teams and the counters. -/
theorem setMem {s' : State} (h : Canonical s) (hm : Memory.wf s.mem = true → Memory.wf s'.mem = true) (ht : s'.teams = s.teams)
    (hc : s'.counters = s.counters) : Canonical s' :=
  mk (hm h.mem) (ht ▸ h.teams) (hc ▸ h.counters)

theorem dropWindows (cid : Nat) (discard : Bool) (pc : W64) (p : Window → Bool) (h : Canonical s) :
    Canonical (dropWindows s cid discard pc p) := h.quiet ((Quiet.refl s).dropWindows _ _ _ _)

theorem dropIdleWindows (cid : Nat) (h : Canonical s) : Canonical (dropIdleWindows s cid) := h.dropWindows _ _ _ _

theorem dropCounters (cid : Nat) (h : Canonical s) : Canonical (dropCounters s cid) :=
  foldl _ (h.subCounters fun _ he => List.mem_of_mem_filter he) fun a _ ha => ha.quiet ((Quiet.refl a).freedLate _)

theorem forgetCrew (cid : Nat) (h : Canonical s) : Canonical (forgetCrew s cid) := by
  unfold Machine.forgetCrew
  split
  · exact h
  · extract_lets lo hi s1
    have h1 : Canonical s1 := h.setMem (smClear_wf _ _) rfl rfl
    split
    · exact h1
    · exact ite₁ h1 (h1.upd rfl rfl rfl)

theorem freeCrew (cid : Nat) (h : Canonical s) : Canonical (freeCrew s cid) :=
  have h1 := (h.dropWindows cid false 0 fun _ => true).dropCounters cid
  ite₁ (h1.upd rfl rfl rfl) (h1.forgetCrew _)

theorem forgetFreed (h : Canonical s) : Canonical (forgetFreed s) := h.foldl _ fun _ _ ha => ite₁ ha (ha.forgetCrew _)

theorem leaveCrew (cid kid : Nat) (h : Canonical s) : Canonical (leaveCrew s cid kid) := by
  unfold Machine.leaveCrew
  extract_lets gone s1
  have h1 : Canonical s1 := ite₁ (h.upd rfl rfl rfl) h
  split
  · exact h1
  · exact ite₁ (h1.upd rfl rfl rfl) h1

theorem dropPins (lid : Nat) (h : Canonical s) : Canonical (dropPins s lid) := by
  unfold Machine.dropPins
  split
  · exact h
  · exact h.upd rfl rfl rfl

theorem dropWaits (tid : Nat) (t : Team) (h : Canonical s) : Canonical (dropWaits s tid t) := h.upd rfl rfl rfl

theorem clearStk (tid : Nat) (h : Canonical s) : Canonical (clearStk s tid) := h.setMem (smClear_wf _ _) rfl rfl

/-- Teams that are among the old ones. -/
theorem subTeams {m : Tab Team} (h : Canonical s) (hm : ∀ e ∈ m, e ∈ s.teams) : Canonical { s with teams := m } :=
  mk h.mem (fun e he => h.teams e (hm e he)) h.counters

theorem retire (tid : Nat) (h : Canonical s) : Canonical (retire s tid) := by
  unfold Machine.retire
  split
  · exact h
  · extract_lets s1 s2 kid s3 s4 s5
    have h2 : Canonical s2 := (quantDrain tid (s := s1) (h.upd rfl rfl rfl)).dropWaits _ _
    have h3 : Canonical s3 := (h2.subTeams fun _ he => mem_tbDel he).clearStk _
    have h5 : Canonical s5 := leaveCrew _ _ (ite₁ (ite₁ (h3.freeCrew _) (h3.dropIdleWindows _)) h3)
    exact ite₁ (h5.dropPins _) h5

theorem dropWaiters (p : Op → Bool) (h : Canonical s) : Canonical (dropWaiters s p) := by
  refine h.foldl _ fun a e ha => mk ha.mem ha.teams fun c' hc' => ?_
  obtain ⟨c, hc, rfl⟩ := List.mem_map.mp hc'
  exact ha.counters c hc

theorem killTeam (tid : Nat) (h : Canonical s) : Canonical (killTeam s tid) := (h.dropWaiters _).retire _

end Canonical

/-! ### The instructions and events of the engines -/

section

variable {s : State} (h : Canonical s)
include h

theorem NextOk.exit (k : Nat) : NextOk (execExit k s) := h.issue fun tid _ _ => (h.acquireXl tid).retire tid

theorem ActOk.issueCmd (i : Instr) (t : Team) (tid : Nat) (kind : CmdKind) (record : Option W64) (seen : W64) :
    ActOk (issueCmd i s t tid kind record seen) :=
  ActOk.ite h (Canonical.upd (h.modTeam tid fun _ ht => ht.incFlags _) rfl rfl rfl)

theorem ActOk.copyAct (i : Instr) (o : CpOp) (dir : Nat) (frame : Bool) (r t : Team) (tid : Nat) :
    ActOk (copyAct i o dir frame r t tid s) := by
  unfold Machine.copyAct
  extract_lets dva tva bva
  split
  · exact h
  · split
    · exact h.quiet (Quiet.fst ((Quiet.refl s).engineRead _ _ _ _ _) (by assumption))
    · have h1 := h.quiet (Quiet.fst ((Quiet.refl s).engineRead _ _ _ _ _) (by assumption))
      extract_lets T span tile
      split
      · exact h1
      · exact h1
      · refine ActOk.ite h1 (ActOk.ite h1 (ActOk.ite h1 (ActOk.ite h1 (ActOk.ite h1 (ActOk.ite h1 (ActOk.ite h1
          (ActOk.ite h1 (ActOk.ite h1 (ActOk.ite h1 ?_)))))))))
        exact ActOk.issueCmd h1 _ _ _ _ _ _

theorem NextOk.qst (k fs d a : Nat) (ty : Ty) (q : Nat) (col reset : Bool) : NextOk (execQst k fs d a ty q col reset s) := by
  refine h.issue fun tid t _ => ?_
  dsimp only
  split
  · exact h
  · exact ActOk.issueCmd h _ _ _ _ _ _

theorem NextOk.qstd (k fs d a : Nat) (ty : Ty) (qa qb : Nat) (reset : Bool) : NextOk (execQstd k fs d a ty qa qb reset s) := by
  refine h.issue fun tid t _ => ?_
  dsimp only
  split
  · exact h
  · exact ActOk.issueCmd h _ _ _ _ _ _

theorem NextOk.qload (k fs a q : Nat) : NextOk (execQload k fs a q s) := by
  refine h.issue fun tid t _ => ?_
  split
  · exact h
  · exact ActOk.issueCmd h _ _ _ _ _ _

theorem NextOk.qsave (k fs a q : Nat) : NextOk (execQsave k fs a q s) := by
  refine h.issue fun tid t _ => ?_
  split
  · exact h
  · exact ActOk.issueCmd h _ _ _ _ _ _

theorem NextOk.quantCommandExecute (core : Nat) : NextOk (execQuantCommandExecute core s) := by
  unfold execQuantCommandExecute
  split
  · exact (h.quantRun _).finish
  · exact h

theorem NextOk.nmc (k fs d a : Nat) : NextOk (execNmc k fs d a s) :=
  h.issue fun _ _ _ => ActOk.ite h (ActOk.ite h (ActOk.ite h (ActOk.ite h (ActOk.ite h (ActOk.ite h (ActOk.ite h
    (ActOk.ite h (ActOk.ite h (ActOk.issueCmd h _ _ _ _ _ _)))))))))

theorem NextOk.nmcPcShare (op home : Nat) : NextOk (execNmcPcShare op home s) :=
  Canonical.finish (h.quiet ((Quiet.refl s).nmcShare _ _))

theorem NextOk.engineAcceptance (core slot : Nat) : NextOk (execEngineAcceptance core slot s) := by
  unfold execEngineAcceptance
  split
  · exact h
  · rename_i op c _
    refine Canonical.ite₁ ?_ h
    extract_lets s1
    have h1 : Canonical s1 := Canonical.modTeam _ (s := modCmd s op fun c => { c with accepted := true }) (h.upd rfl rfl rfl)
      fun _ ht => ht.decFlags _
    split
    · exact Canonical.ite₁ (h1.upd rfl rfl rfl) (Canonical.finish (h1.quiet ((Quiet.refl _).nmcReady _ _ _)))
    · exact h1

theorem NextOk.copyChunkDone (op n : Nat) : NextOk (execCopyChunkDone op n s) := by
  unfold execCopyChunkDone
  split
  · exact h
  · refine Canonical.ite₁ h ?_
    split
    · exact Canonical.finish (h.quiet (Quiet.fst ((Quiet.refl s).chunkStep _ _ _ _) (by assumption)))
    · exact h

theorem NextOk.copyStop (op : Nat) : NextOk (execCopyStop op s) := by
  unfold execCopyStop
  split
  · exact h
  · extract_lets left
    split
    · rename_i hx
      obtain ⟨n, _, hn⟩ := List.exists_of_findSome?_eq_some hx
      split at hn
      · cases hn
        have h1 := h.quiet (Quiet.fst ((Quiet.refl s).chunkStep op _ _ n) (by assumption))
        exact Canonical.finish (h1.upd rfl rfl rfl)
      · cases hn
    · exact h

theorem Canonical.endCmd (op : Nat) (c : Cmd) : Canonical (endCmd s op c) := by
  unfold Machine.endCmd
  extract_lets b raise s1
  have h1 : Canonical s1 := h.modTeam _ fun _ ht => ht
  exact Canonical.forgetFreed (h1.upd rfl rfl rfl)

theorem NextOk.engineCompletionRecord (op : Nat) : NextOk (execEngineCompletionRecord op s) := by
  unfold execEngineCompletionRecord
  split
  · exact h
  · refine Canonical.ite₁ ?_ h
    extract_lets s1
    have h1 : Canonical s1 := h.quiet ((Quiet.refl s).recordCmd _ _)
    refine Canonical.finish ?_
    split
    · exact Canonical.ite₁ (h1.endCmd _ _) h1
    · exact h1

end

end Sys2Proof.Safety
end

section
/-! The canonical form under the control instructions, stage rings, barriers, the matrix engine's ownership, spawning, batches, chunk bitmaps and the
completion of operations. -/

namespace Sys2Proof.Laws

open Sys2Proof.Machine

namespace Quiet

variable {s0 s s' : State}

theorem readVirt (ctx hub va n : Nat) (h : Quiet s0 s) : Quiet s0 (readVirt s ctx hub va n).1 := by
  refine ite₂ h (foldl₂ _ h fun a b x ha => ?_)
  dsimp only
  split
  · exact ha
  · split
    · exact fst (ha.translate _ _ _ _) (by assumption)
    · have h1 := fst (ha.translate _ _ _ _) (by assumption)
      split
      · exact fst (h1.readSector _ _ _) (by assumption)
      · have h2 := fst (h1.readSector _ _ _) (by assumption)
        exact ite₁ (h2.uncache _) h2

theorem launchBin (core bin : Nat) (h : Quiet s0 s) : Quiet s0 (launchBin s core bin) := h.modCore _ _

theorem binFor (core launch : Nat) (e : W64) (h : Quiet s0 s) : Quiet s0 (binFor s core launch e).1 := by
  unfold Machine.binFor
  extract_lets c
  split
  · exact h
  · split
    · exact h
    · exact h.launchBin _ _

theorem placeRecord (core launch : Nat) (d : List Byte) (e : W64) (floor : W64) (rec : List W32) (h : Quiet s0 s) :
    Quiet s0 (placeRecord s core launch d e floor rec) := by
  unfold Machine.placeRecord
  split
  have h1 := fst (h.binFor _ _ _) (by assumption)
  extract_lets old b src s1
  have h2 : Quiet s0 src := h1.modCore _ _
  have h3 : Quiet s0 s1 := h2.upd rfl rfl rfl rfl rfl rfl rfl rfl rfl
  exact ite₁ (h3.launchBin _ _) h3

theorem bitmapAt (t : Team) (tid : Nat) (a : W64) (h : Quiet s0 s) : Quiet s0 (bitmapAt s t tid a).1 := by
  unfold Machine.bitmapAt
  split
  · split
    · exact fst (h.checkLane _ _ _ _ _ _) (by assumption)
    · have h1 := fst (h.checkLane _ _ _ _ _ _) (by assumption)
      split
      · exact fst (h1.fillPieces _) (by assumption)
      · have h2 := fst (h1.fillPieces _) (by assumption)
        exact ite₂ ((h2.arrivePart _ _ _).settlePart _ _ _) ((h2.arrivePart _ _ _).settlePart _ _ _)
  · exact h

theorem reportLogs (id : Nat) (o : Op) (h : Quiet s0 s) : Quiet s0 (reportLogs s id o) :=
  have h1 : Quiet s0 (Machine.modOp s id fun o => { o with logs := [] }) := h.modOp _ _
  h1.upd rfl rfl rfl rfl rfl rfl rfl rfl rfl

end Quiet

end Sys2Proof.Laws

namespace Sys2Proof.Safety

open Sys2Proof.Machine Sys2Proof.Laws

theorem TeamOk.raiseFloor {t : Team} (x : W64) (h : TeamOk t) : TeamOk (raiseFloor t x) := h

theorem TeamOk.setTagSeen {t : Team} (x : W64) (h : TeamOk t) : TeamOk { t with tagSeen := x } := h

theorem Canonical.raiseFloor {s : State} (tid : Nat) (f : Team → W64) (h : Canonical s) :
    Canonical (Machine.modTeam s tid fun t => Machine.raiseFloor t (f t)) := h.modTeam _ fun _ ht => ht.raiseFloor _

/-! ### Control -/

section

variable {s : State} (h : Canonical s)
include h

theorem Canonical.setsysState (tid : Nat) (t : Team) (sel : Sel) (v : W64) : Canonical (setsysState s tid t sel v) := by
  cases sel with
  | fpmode | fpflags | stampfloor => exact h.modTeam _ fun _ ht => ht
  | handlerbase | poolcounter | redlogbase => exact h.upd rfl rfl rfl
  | _ => exact h

theorem NextOk.brc (c : Nat) (sns : Bool) (off : Int) : NextOk (execBrc c sns off s) := h.issue fun _ _ _ => ActOk.ite h h

theorem NextOk.brz (m : Nat) (sns : Bool) (off : Int) : NextOk (execBrz m sns off s) := h.issue fun _ _ _ => ActOk.ite h h

theorem NextOk.loop (lnk : Nat) (off : Int) : NextOk (execLoop lnk off s) :=
  h.issue fun _ _ _ => ActOk.ite (h.writeRegs _ _) (h.writeRegs _ _)

theorem NextOk.rtt (k : Nat) (skip : Bool) : NextOk (execRtt k skip s) := h.issue fun _ _ _ => h.leaveHandler _ _

theorem NextOk.yield (k : Nat) : NextOk (execYield k s) := h.issue fun _ _ _ => h.modTeam _ fun _ ht => ht

theorem NextOk.getsys (k d : Nat) (sel : Sel) : NextOk (execGetsys k d sel s) :=
  h.issue fun _ _ _ => ActOk.ite h (h.writeRegs _ _)

theorem NextOk.setsys (k a : Nat) (sel : Sel) : NextOk (execSetsys k a sel s) :=
  h.issue fun _ _ _ => ActOk.ite h (h.setsysState _ _ _ _)

theorem NextOk.brkpt (k : Nat) : NextOk (execBrkpt k s) := h.issue fun tid _ _ => ActOk.ite (h.modTeam tid fun _ ht => ht) h

theorem NextOk.mbox (k a tag : Nat) : NextOk (execMbox k a tag s) := h.issue fun _ _ _ => ActOk.ite (h.modCore _ _) h

theorem NextOk.escalate (k a : Nat) : NextOk (execEscalate k a s) := h.issue fun _ _ _ => h.park _ _

end

/-! ### Stage rings -/

namespace Canonical

variable {s : State}

theorem modRing (cid q : Nat) (f : Ring → Ring) (h : Canonical s) : Canonical (modRing s cid q f) := h.upd rfl rfl rfl

theorem pushSlot (cid q : Nat) (r : Ring) (v : W32) (floor : W64) (h : Canonical s) : Canonical (pushSlot s cid q r v floor) :=
  modRing _ _ _ (h.quiet ((Quiet.refl s).memWrite _ _))

theorem popTake (tid cid q d : Nat) (r : Ring) (h : Canonical s) : Canonical (popTake s tid cid q d r) :=
  ((h.modRing _ _ _).writeRegs _ _).raiseFloor _ _

theorem completeBlocking (tid : Nat) (h : Canonical s) : Canonical (completeBlocking s tid) := h.advance _ _

theorem releaseOne (cluster : Bool) (fl : W64) (e : Nat × Team) (h : Canonical s) : Canonical (releaseOne cluster fl s e) :=
  completeBlocking _ (iteOf (h.raiseFloor _ _) (·.dropL1 _ _))

end Canonical

section

variable {s : State} (h : Canonical s)
include h

theorem NextOk.qpush (k a q : Nat) : NextOk (execQpush k a q s) := by
  refine h.issue fun _ _ _ => ?_
  split
  · exact h
  · exact ActOk.ite h (ActOk.ite (h.pushSlot _ _ _ _ _) (h.modRing _ _ _))

theorem NextOk.qpop (k d q : Nat) : NextOk (execQpop k d q s) := by
  refine h.issue fun _ _ _ => ?_
  split
  · exact h
  · exact ActOk.ite h (ActOk.ite (h.popTake _ _ _ _ _) (h.modRing _ _ _))

theorem NextOk.qtry (k n : Nat) (op : QtryOp) (q : Nat) : NextOk (execQtry k n op q s) := by
  refine h.issue fun _ _ _ => ?_
  cases op with
  | push a =>
    dsimp only
    split
    · exact h
    · exact ActOk.ite (ActOk.ite h ((h.pushSlot _ _ _ _ _).writeRegs _ _)) (h.writeRegs _ _)
  | pop d =>
    dsimp only
    split
    · exact h
    · exact ActOk.ite h (ActOk.ite ((h.popTake _ _ _ _ _).writeRegs _ _) (h.writeRegs _ _))

theorem NextOk.queuePushDone (crew q : Nat) : NextOk (execQueuePushDone crew q s) := by
  unfold execQueuePushDone
  split
  · exact h
  · split
    · exact h
    · split
      · split
        · exact Canonical.ite₁ (((h.modRing _ _ _).pushSlot _ _ _ _ _).completeBlocking _).finish h
        · exact h
      · exact h

theorem NextOk.queuePopDone (crew q : Nat) : NextOk (execQueuePopDone crew q s) := by
  unfold execQueuePopDone
  split
  · exact h
  · split
    · exact h
    · split
      · split
        · exact Canonical.ite₁ (Canonical.ite₁ (((h.modRing _ _ _).enterHandler _ _ _ _).boundary _).finish
            (((h.modRing _ _ _).popTake _ _ _ _ _).completeBlocking _).finish) h
        · exact h
      · exact h

/-! ### Barriers and the matrix engine's ownership -/

theorem NextOk.bar (k : Nat) (cluster : Bool) : NextOk (execBar k cluster s) := by
  refine h.issue fun _ _ _ => ActOk.ite h (Canonical.ite₁ ?_ (h.upd rfl rfl rfl))
  split
  · exact h.upd rfl rfl rfl
  · exact h

theorem NextOk.barrierRelease (cluster : Bool) (id : Nat) : NextOk (execBarrierRelease cluster id s) := by
  unfold execBarrierRelease
  split
  · exact h
  · refine Canonical.ite₁ (Canonical.finish ?_) h
    rename_i b _
    have h1 := h.foldl (f := releaseOne cluster b.floor) (scopeTeams s cluster id) fun _ _ ha => ha.releaseOne _ _ _
    exact Canonical.ite₁ (h1.upd rfl rfl rfl) (h1.upd rfl rfl rfl)

theorem NextOk.mxacq (k : Nat) : NextOk (execMxacq k s) :=
  h.issue fun _ _ _ => ActOk.ite h (ActOk.ite (h.modCore _ _) (ActOk.ite (h.modCore _ _) (h.modCore _ _)))

theorem NextOk.mxrel (k : Nat) : NextOk (execMxrel k s) := h.issue fun _ _ _ => h.modCore _ _

theorem NextOk.matrixOwnershipGrant (core : Nat) : NextOk (execMatrixOwnershipGrant core s) := by
  unfold execMatrixOwnershipGrant
  split
  · exact h
  · extract_lets s1
    have h1 : Canonical s1 := h.modCore _ _
    split
    · exact Canonical.ite₁ (h1.completeBlocking _).finish h1
    · exact h1

/-! ### Spawning, batches, chunk bitmaps -/

theorem NextOk.spawn (k a b : Nat) : NextOk (execSpawn k a b s) := by
  refine h.issue fun _ _ _ => ActOk.ite h (ActOk.ite h ?_)
  split
  · exact h.quiet (Quiet.fst ((Quiet.refl s).readVirt _ _ _ _) (by assumption))
  · have h1 := h.quiet (Quiet.fst ((Quiet.refl s).readVirt _ _ _ _) (by assumption))
    exact ActOk.ite h1 (ActOk.ite h1 (h1.foldl _ fun a _ ha => ha.quiet ((Quiet.refl a).placeRecord _ _ _ _ _ _)))

theorem NextOk.batch (k d : Nat) : NextOk (execBatch k d s) := by
  refine h.issue fun tid t _ => ?_
  extract_lets n close s1 move s2
  have h1 : Canonical s1 := h.upd rfl rfl rfl
  have h2 : Canonical s2 := h1.modTeam _ fun _ ht => ht
  exact h2.writeRegs _ _

theorem NextOk.waitb (k a : Nat) : NextOk (execWaitb k a s) := h.issue fun _ _ _ => ActOk.ite (h.raiseFloor _ _) h

theorem NextOk.waitbComplete (core slot : Nat) : NextOk (execWaitbComplete core slot s) := by
  unfold execWaitbComplete
  split
  · exact h
  · rename_i tid t _
    split
    · rename_i m _
      exact Canonical.ite₁ ((h.raiseFloor tid (batchFloor · m)).completeBlocking tid).finish h
    · exact h

theorem Canonical.bitmapAcquire (tid : Nat) (t : Team) (a : W64) (cid off : Nat) : Canonical (bitmapAcquire s tid t a cid off) :=
  have h1 := h.raiseFloor tid fun _ => wordFloor s cid off
  ite₁ h1 (h1.dropL1 _ _)

theorem Canonical.bitmapSeen (tid cid off : Nat) : Canonical (bitmapSeen s tid cid off) :=
  h.modTeam _ fun _ ht => (ht.raiseFloor _).setTagSeen _

/-- The state of a read of a bitmap word: the one left, or that of the act which ends the instruction. -/
theorem Canonical.bitmapRead (t : Team) (tid : Nat) (a : W64) :
    Canonical (bitmapRead s t tid a).1 ∧ ∀ x, (bitmapRead s t tid a).2 = .error x → ActOk x := by
  unfold Machine.bitmapRead
  split
  · have h1 := h.quiet (Quiet.fst ((Quiet.refl s).bitmapAt _ _ _) (by assumption))
    exact ⟨h1, fun x hx => Except.error.inj hx ▸ h1⟩
  · have h1 := h.quiet (Quiet.fst ((Quiet.refl s).bitmapAt _ _ _) (by assumption))
    split
    · exact ⟨h1, fun x hx => Except.error.inj hx ▸ ActOk.watchAct h1 (by assumption)⟩
    · exact ⟨h1, fun x hx => nomatch hx⟩

theorem NextOk.cwait (k a b : Nat) : NextOk (execCwait k a b s) := by
  refine h.issue fun tid t _ => ?_
  obtain ⟨h1, hx⟩ := h.bitmapRead t tid (sget (viewOf s tid t) a)
  dsimp only
  generalize Machine.bitmapRead s t tid (sget (viewOf s tid t) a) = p at h1 hx
  obtain ⟨s1, x | ⟨cid, off⟩⟩ := p
  · exact hx x rfl
  · exact ActOk.ite (h1.bitmapAcquire _ _ _ _ _) (h1.upd rfl rfl rfl)

theorem NextOk.ctest (k d a b : Nat) : NextOk (execCtest k d a b s) := by
  refine h.issue fun tid t _ => ?_
  obtain ⟨h1, hx⟩ := h.bitmapRead t tid (sget (viewOf s tid t) a)
  generalize Machine.bitmapRead s t tid (sget (viewOf s tid t) a) = p at h1 hx
  obtain ⟨s1, x | ⟨cid, off⟩⟩ := p
  · exact hx x rfl
  · exact ActOk.ite ((h1.bitmapAcquire _ _ _ _ _).writeRegs _ _) ((h1.bitmapSeen _ _ _).writeRegs _ _)

theorem NextOk.cwaitComplete (core slot : Nat) : NextOk (execCwaitComplete core slot s) := by
  unfold execCwaitComplete
  split
  · exact h
  · rename_i tid t _
    split
    · rename_i a m n _
      refine Canonical.ite₁ ?_ h
      obtain ⟨h1, hx⟩ := h.bitmapRead t tid a
      generalize Machine.bitmapRead s t tid a = p at h1 hx
      obtain ⟨s1, x | ⟨cid, off⟩⟩ := p
      · exact h1.applyAct _ _ (hx x rfl)
      · exact Canonical.ite₁ ((h1.bitmapAcquire _ _ _ _ _).completeBlocking _).finish h
    · exact h

/-! ### Completions -/

theorem Canonical.leaveLate (o : Op) : Canonical (leaveLate s o) := by
  unfold Machine.leaveLate
  split
  · exact h
  · exact h.modTeam _ fun _ ht => ht

theorem Canonical.completeOp (id : Nat) (o : Op) : Canonical (completeOp s id o) := by
  have h1 : Canonical ((o.ext.filterMap (·.fill)).foldl Machine.arriveFill s) :=
    h.foldl _ fun a _ ha => ha.quiet ((Quiet.refl a).arriveFill _)
  have h2 := (h1.settleDest id o o.dest).modTeam o.team (f := fun t => mergeFp t o.ex) fun _ ht => ht
  exact (((h2.raiseBy o).leaveLate o).endOp id o).unhold o.team id

theorem Canonical.completeIf (id : Nat) (due : Op → Bool) : Canonical (completeIf s id due) := by
  unfold Machine.completeIf
  split
  · exact ite₁ (h.completeOp _ _) h
  · exact h

theorem Canonical.reportLogs (id : Nat) (o : Op) : Canonical (reportLogs s id o) := h.quiet ((Quiet.refl s).reportLogs _ _)

theorem Canonical.lateBoundary (tid : Nat) : Canonical (lateBoundary s tid) := by
  refine h.modTeam _ fun t ht => ?_
  split
  · exact ht.dbgBoundary
  · exact ht

theorem Canonical.takeLate (tid : Nat) (l : Late) : Canonical (takeLate s tid l) :=
  ite₁ (Canonical.park _ _ (h.modTeam _ fun _ ht => setFaultRegs _ _ _ ht)) (h.enterHandler _ _ _ _)

theorem NextOk.lateFaultTaken (core slot : Nat) : NextOk (execLateFaultTaken core slot s) := by
  unfold execLateFaultTaken
  split
  · exact h
  · split
    · exact h
    · extract_lets s1
      have h1 : Canonical s1 := h.modTeam _ fun _ ht => ht
      exact ((h1.takeLate _ _).lateBoundary _).finish

theorem NextOk.storeAcknowledgement (op : Nat) : NextOk (execStoreAcknowledgement op s) := by
  unfold execStoreAcknowledgement
  split
  · exact h
  · split
    · exact Canonical.ite₁ ((h.reportLogs _ _).completeOp _ _).finish h
    · exact Canonical.ite₁ (h.completeOp _ _) h
    · exact h

theorem NextOk.reductionFaultLogged (op : Nat) : NextOk (execReductionFaultLogged op s) := by
  unfold execReductionFaultLogged
  split
  · exact h
  · split
    · exact Canonical.ite₁ h (h.reportLogs _ _).finish
    · exact h

theorem Canonical.serveL1 (op : Nat) : Canonical (serveL1 s op) := by
  unfold Machine.serveL1
  split
  · split
    · exact h.dropL1 _ _
    · exact h
  · exact h

theorem NextOk.aldecWaitServed (counter : Nat) : NextOk (execAldecWaitServed counter s) := by
  unfold execAldecWaitServed
  split
  · exact h
  · split
    · exact h
    · refine Canonical.ite₁ (Canonical.finish (Canonical.modOp _ _ (Canonical.serveL1 ?_ _))) h
      exact Canonical.modCounter _ (Canonical.ite₁ h (h.recallShares _)) fun _ hc => hc

theorem NextOk.shareEviction (counter core : Nat) : NextOk (execShareEviction counter core s) := by
  unfold execShareEviction
  refine Canonical.ite₁ ?_ ?_
  · split
    · exact h
    · exact ((h.returnShare _ _).atLimit _).finish
  · split
    · exact h
    · exact (h.writeDesc _ _ _).finish

theorem Canonical.fencerDone (o : Op) (fl : W64) : Canonical (fencerDone s o fl) := (h.dropL1 _ _).raiseFloor _ _

theorem NextOk.serialisingRequest (core op : Nat) : NextOk (execSerialisingRequest core op s) := by
  unfold execSerialisingRequest
  split
  · exact h
  · split
    · split
      · exact h
      · refine Canonical.ite₁ h ?_
        exact Canonical.ite₁ ((((h.dropL1 _ _).modOp _ _).fencerDone _ _).completeOp _ _) ((h.dropL1 _ _).modOp _ _)
    · exact h

end

end Sys2Proof.Safety
end

section
/-! The canonical form under placement and pre-emption. -/

namespace Sys2Proof.Laws

open Sys2Proof.Machine

namespace Quiet

variable {s0 s s' : State}

theorem setCarve (core : Nat) (carve : Option Nat) (h : Quiet s0 s) : Quiet s0 (setCarve s core carve) := by
  unfold Machine.setCarve
  split
  · exact h
  · exact ite₁ h (h.modCore _ _)

theorem initRings (cid : Nat) (ds : List QDecl) (h : Quiet s0 s) : Quiet s0 (initRings s cid ds) :=
  foldl _ h fun _ _ ha => foldl _ ha fun _ _ ha => ha.memWrite _ _

theorem moveMxQueue (src dst : Nat) (tids : List Nat) (h : Quiet s0 s) : Quiet s0 (moveMxQueue s src dst tids) :=
  ite₁ h (((h.modCore _ _).modCore _ _).modCore _ _)

theorem protStart (lid : Nat) (l : Launch) (h : Quiet s0 s) : Quiet s0 (protStart s lid l) := by
  refine ite₁ ?_ h
  split
  rename_i s1 st _
  have h1 := (fst (h.sweep _) (by assumption)).modLaunch lid fun l => { l with sl := some st }
  exact h1.upd rfl rfl rfl rfl rfl rfl rfl rfl rfl

theorem readRuns (ctx hub fuel va : Nat) (h : Quiet s0 s) : Quiet s0 (readRuns ctx hub fuel va s).1 := by
  induction fuel generalizing s va with
  | zero => exact h
  | succ fuel ih =>
    unfold Machine.readRuns
    split
    · exact fst (h.readVirt _ _ _ _) (by assumption)
    · have h1 := fst (h.readVirt _ _ _ _) (by assumption)
      refine ite₂ h1 (ite₂ h1 ?_)
      split
      · exact fst (ih _ h1) (by assumption)
      · exact fst (ih _ h1) (by assumption)

theorem safeRuns (t : Team) (h : Quiet s0 s) : Quiet s0 (safeRuns s t).1 := by
  unfold Machine.safeRuns
  extract_lets hub
  split
  · exact fst (h.fetchWord _ _) (by assumption)
  · have h1 := fst (h.fetchWord _ _) (by assumption)
    split
    · exact h1
    · split
      · exact h1
      · refine ite₂ h1 ?_
        split
        · exact fst (h1.readVirt _ _ _ _) (by assumption)
        · have h2 := fst (h1.readVirt _ _ _ _) (by assumption)
          exact ite₂ h2 (h2.readRuns _ _ _ _)

theorem passMx (tid core : Nat) (h : Quiet s0 s) : Quiet s0 (passMx s tid core) := h.modCore _ _

theorem headMx (tid : Nat) (h : Quiet s0 s) : Quiet s0 (headMx s tid) := by
  unfold Machine.headMx
  split
  · exact h
  · exact h.modCore _ _

theorem devicePutD (pa : Nat) (data : List Byte) (h : Quiet s0 s) : Quiet s0 ((Machine.devicePut s pa data).getD s) := by
  cases e : Machine.devicePut s pa data with
  | none => exact h
  | some s1 => exact h.devicePut _ _ e

theorem writeUnits (ctx : Nat) (us : List Nat) (h : Quiet s0 s) : Quiet s0 (writeUnits s ctx us) :=
  foldl _ h fun _ _ ha => ha.devicePutD _ _

theorem readUnits (ctx : Nat) (us : List Nat) (h : Quiet s0 s) : Quiet s0 (readUnits ctx us s).1 := by
  induction us generalizing s with
  | nil => exact h
  | cons u us ih =>
    unfold Machine.readUnits
    split
    · exact ih (fst (h.readPa _ _ _) (by assumption))
    · exact fst (h.readPa _ _ _) (by assumption)

theorem readSaves (k : Cluster) (h : Quiet s0 s) : Quiet s0 (readSaves s k) := by
  unfold Machine.readSaves
  split
  · exact h
  · extract_lets us s1
    have h1 : Quiet s0 s1 := foldl _ h fun _ _ ha => ha.modCrew _ _
    split
    · exact fst (h1.readUnits _ _) (by assumption)
    · exact (fst (h1.readUnits _ _) (by assumption)).modLaunch _ _

end Quiet

end Sys2Proof.Laws

namespace Sys2Proof.Safety

open Sys2Proof.Machine Sys2Proof.Laws

/-! ### New and saved teams -/

theorem TeamOk.newTeam (core slot launch ctx crew : Nat) (x : Shape) (floor : W64) (stackz : Nat) (hwin : Bool) :
    TeamOk (newTeam core slot launch ctx crew x floor stackz hwin) := ⟨rfl, rfl, rfl, rfl, rfl, fun _ he => nomatch he⟩

theorem binRegs_wf (b : Bin) (n : Nat) : smWf 0 (binRegs b n) = true := by
  suffices ∀ (l : List (List W32 × Nat)) (m : Tab W32), smWf 0 m = true → smWf 0 (l.foldl (fun m x =>
      (List.range (min 16 n)).foldl (fun m j => smSet 0 m (vkey j x.2) (x.1.getD j 0)) m) m) = true from this _ _ rfl
  intro l
  induction l with
  | nil => exact fun _ hm => hm
  | cons x l ih => exact fun m hm => ih _ (smWf_foldl _ (vkey · x.2) (x.1.getD · 0) hm)

theorem TeamOk.keepLive {t : Team} (rs : List Run) (h : TeamOk t) : TeamOk (keepLive rs t) :=
  ⟨smWf_filter _ h.1, smWf_filter _ h.2.1, smWf_filter _ h.2.2.1, h.2.2.2.1, smWf_filter _ h.2.2.2.2.1,
    fun _ he => h.2.2.2.2.2 _ (List.mem_of_mem_filter he)⟩

theorem TeamOk.toHeader {t : Team} (h : TeamOk t) : TeamOk (toHeader t) := by
  unfold Machine.toHeader
  split
  · exact TeamOk.ite₁ h h
  · exact h

theorem TeamOk.requestTeam {t : Team} (s : State) (tid : Nat) (h : TeamOk t) : TeamOk (requestTeam s tid t) :=
  TeamOk.ite₁ (TeamOk.ite₁ h.toHeader (TeamOk.ite₁ h.toHeader (TeamOk.ite₁ h h))) h

namespace Canonical

variable {s : State}

/-! ### Placement -/

theorem placeTeams (lid : Nat) (l : Launch) (cid core idx order : Nat) (floor : W64) (slots : List Nat) (h : Canonical s) :
    Canonical (placeTeams lid l cid core idx order floor slots s) := by
  refine h.foldl _ fun a x ha => ?_
  obtain ⟨⟨x, slot⟩, i⟩ := x
  dsimp -zeta only
  extract_lets t0 t s1
  have ht : TeamOk t := TeamOk.newTeam core slot lid l.ctx cid x floor l.stackz l.hwin
  have h1 : Canonical s1 := ha.setTeam a.nextId ht
  exact h1.upd rfl rfl rfl

theorem placeCrew (lid : Nat) (l : Launch) (kid order idx core : Nat) (h : Canonical s) :
    Canonical (placeCrew lid l kid order idx core s) := by
  unfold Machine.placeCrew
  extract_lets cid c s1 s2
  have h1 : Canonical s1 := h.quiet (Quiet.setCarve _ _ (Quiet.upd (Quiet.refl s) rfl rfl rfl rfl rfl rfl rfl rfl rfl))
  have h2 : Canonical s2 := h1.upd rfl rfl rfl
  exact ((h2.quiet ((Quiet.refl _).initRings _ _)).placeTeams _ _ _ _ _ _ _ _).dropL1 _ _

theorem placeNew (lid : Nat) (l : Launch) (order : Nat) (cores : List Nat) (h : Canonical s) :
    Canonical (placeNew s lid l order cores) := by
  unfold Machine.placeNew
  extract_lets kid k s1 s2
  have h1 : Canonical s1 := h.upd rfl rfl rfl
  have h2 : Canonical s2 := h1.foldl _ fun _ _ ha => ha.placeCrew _ _ _ _ _ _
  exact h2.upd rfl rfl rfl

theorem restoreCrew (cid core idx : Nat) (h : Canonical s) : Canonical (restoreCrew s cid core idx) := by
  unfold Machine.restoreCrew
  split
  · exact h
  · extract_lets ts s1 s2
    have h1 : Canonical s1 := h.quiet (((Quiet.refl s).setCarve _ _).moveMxQueue _ _ _)
    have h2 : Canonical s2 := h1.upd rfl rfl rfl
    exact h2.foldl _ fun _ _ ha => ha.modTeam _ fun _ ht => ht

theorem restoreOn (kid : Nat) (k : Cluster) (cores : List Nat) (h : Canonical s) : Canonical (restoreOn s kid k cores) := by
  unfold Machine.restoreOn
  extract_lets s1 s2
  have h1 : Canonical s1 := h.foldl _ fun _ _ ha => ha.restoreCrew _ _ _
  have h2 : Canonical s2 := h1.upd rfl rfl rfl
  exact h2.upd rfl rfl rfl

theorem askVictims (c q : Nat) (h : Canonical s) : Canonical (askVictims s c q) := h.upd rfl rfl rfl

theorem reserveTarget (lid c : Nat) (target : Option Nat) (h : Canonical s) : Canonical (reserveTarget s lid c target) := by
  unfold Machine.reserveTarget
  split
  · exact h
  · refine ite₁ ?_ h
    extract_lets s1
    have h1 : Canonical s1 := h.upd rfl rfl rfl
    split
    · exact h1.askVictims _ _
    · exact h1

theorem placeNext (lid : Nat) (l : Launch) (h : Canonical s) : Canonical (placeNext s lid l) := by
  unfold Machine.placeNext
  extract_lets ns s1
  split
  · have h1 : Canonical s1 := h.quiet ((Quiet.refl s).protStart _ _)
    split
    · exact h1.placeNew _ _ _ _
    · exact h1
  · exact h.reserveTarget _ _ _

theorem placeSaved (kid : Nat) (k : Cluster) (l : Launch) (h : Canonical s) : Canonical (placeSaved s kid k l) :=
  ite₁ (h.restoreOn _ _ _) (h.reserveTarget _ _ _)

theorem placeBin (core : Nat) (b : Bin) (l : Launch) (h : Canonical s) : Canonical (placeBin s core b l) := by
  unfold Machine.placeBin
  extract_lets kid k c slot t0 t s1 s2
  have ht : TeamOk t := ⟨binRegs_wf b b.nregs, rfl, rfl, rfl, rfl, fun _ he => nomatch he⟩
  have h1 : Canonical s1 := h.modCore _ _
  have h2 : Canonical s2 := h1.upd rfl rfl rfl
  exact dropL1 _ _ (Canonical.upd (h2.setTeam (kid + 2) ht) rfl rfl rfl)

/-! ### Saves and restores -/

theorem askSuspended (q : Nat) (h : Canonical s) : Canonical (askSuspended s q) :=
  h.foldl _ fun _ _ ha => ha.foldl _ fun _ _ ha => ite₁ (ha.upd rfl rfl rfl) ha

theorem parkPending (tid : Nat) (h : Canonical s) : Canonical (parkPending s tid) := by
  unfold Machine.parkPending
  split
  · exact h
  · extract_lets s1
    have h1 : Canonical s1 := h.modTeam _ fun _ ht => ht
    exact ite₁ (h1.leaveHandler _ _) (ite₁ (h1.leaveHandler _ _) (ite₁ (h1.killTeam _)
      (ite₁ ((h1.leaveHandler _ _).modTeam _ fun _ ht => ht) h1)))

theorem servedWaiters (tid : Nat) (h : Canonical s) : Canonical (servedWaiters s tid) := by
  refine h.foldl _ fun a e ha => ?_
  split
  · exact ha.completeOp _ _
  · exact ha

theorem unblock (tid : Nat) (t : Team) (h : Canonical s) : Canonical (unblock s tid t) := by
  unfold Machine.unblock
  extract_lets s1 s2
  have h1 : Canonical s1 := h.upd rfl rfl rfl
  have h2 : Canonical s2 := ite₁ (h1.modCore _ _) h1
  exact h2.modTeam _ fun _ ht => ht

theorem reenter (tid : Nat) (h : Canonical s) : Canonical (reenter s tid) := by
  unfold Machine.reenter
  split
  · exact h
  · split
    · exact h
    · have h1 := h.resumeInside tid
      exact ite₁ (h1 _ _ _) ((h1 _ _ _).unblock _ _)

theorem resumeTeam (e : Nat × Team) (h : Canonical s) : Canonical (resumeTeam s e) := by
  unfold Machine.resumeTeam
  extract_lets s1 s2
  have h2 : Canonical s2 := (h.dropL1 e.2.home e.2.ctx).modTeam _ fun _ ht => ht
  exact (((h2.reenter _).servedWaiters _).quiet ((Quiet.refl _).headMx _)).parkPending _

end Canonical

/-! ### The events -/

section

variable {s : State} (h : Canonical s)
include h

theorem NextOk.clusterPlacement (cluster : Nat) : NextOk (execClusterPlacement cluster s) := by
  unfold execClusterPlacement
  refine Canonical.ite₁ h ?_
  split
  · split
    · exact Canonical.ite₁ (h.placeSaved _ _ _) h
    · exact h
  · split
    · exact Canonical.ite₁ (h.placeNext _ _).finish h
    · exact h

theorem NextOk.spawnBinTimer (core bin : Nat) : NextOk (execSpawnBinTimer core bin s) := by
  unfold execSpawnBinTimer
  split
  · exact h
  · split
    · exact Canonical.ite₁ (h.quiet ((Quiet.refl s).launchBin _ _)) h
    · exact h

theorem NextOk.spawnedTeamPlacement (core : Nat) : NextOk (execSpawnedTeamPlacement core s) := by
  unfold execSpawnedTeamPlacement
  refine Canonical.ite₁ h ?_
  split
  · split
    · exact h.reserveTarget _ _ _
    · exact h
  · split
    · exact h.placeBin _ _ _
    · exact h

theorem NextOk.preemptionRequest (cluster : Nat) : NextOk (execPreemptionRequest cluster s) := by
  unfold execPreemptionRequest
  split
  · exact h
  · refine Canonical.ite₁ (h.foldlMem _ fun a e he ha => ha.setTeam _ ?_) h
    exact TeamOk.requestTeam _ _ (h.teams e (List.mem_of_mem_filter he))

theorem NextOk.preemptionDeadline (core slot : Nat) : NextOk (execPreemptionDeadline core slot s) := by
  unfold execPreemptionDeadline
  split
  · exact h
  · exact Canonical.ite₁ (h.modTeam _ fun _ ht => ht.toHeader) h

theorem NextOk.teamSave (core slot : Nat) : NextOk (execTeamSave core slot s) := by
  unfold execTeamSave
  split
  · exact h
  · split
    · refine Canonical.ite₁ (Canonical.ite₁ (h.modTeam _ fun _ ht => ht) ?_) h
      split
      · have h1 := h.quiet (Quiet.fst ((Quiet.refl s).safeRuns _) (by assumption))
        exact Canonical.finish (h1.modTeam _ fun _ ht => ht.keepLive _)
      · have h1 := h.quiet (Quiet.fst ((Quiet.refl s).safeRuns _) (by assumption))
        exact Canonical.finish (h1.modTeam _ fun _ ht => ht)
    · exact h

theorem NextOk.saveStreamDone (core slot : Nat) : NextOk (execSaveStreamDone core slot s) := by
  unfold execSaveStreamDone
  split
  · exact h
  · rename_i tid t _
    split
    · extract_lets us s1 s2
      have h1 : Canonical s1 := h.quiet ((Quiet.refl s).writeUnits _ _)
      have h2 : Canonical s2 :=
        (h1.modTeam tid (f := fun t => { t with pre := .saved, place := none, saveAt := us }) fun _ ht => ht).modCore _ _
      exact (h2.leaveCrew _ _).finish
    · exact h

theorem NextOk.clusterRestoreDone (cluster : Nat) : NextOk (execClusterRestoreDone cluster s) := by
  unfold execClusterRestoreDone
  split
  · exact h
  · refine Canonical.ite₁ (Canonical.finish ?_) h
    refine Canonical.foldl _ (Canonical.quiet ?_ ((Quiet.refl _).readSaves _)) fun _ _ ha => ha.resumeTeam _
    exact h.upd rfl rfl rfl

theorem NextOk.partitionRelease (crew : Nat) : NextOk (execPartitionRelease crew s) := Canonical.ite₁ (h.freeCrew _).finish h

theorem NextOk.partitionSpill (crew : Nat) : NextOk (execPartitionSpill crew s) := by
  unfold execPartitionSpill
  split
  · exact h
  · refine Canonical.ite₁ (Canonical.finish ?_) h
    exact h.quiet ((((Quiet.refl s).cleanChunks _ _ _).writeUnits _ _).modCrew _ _)

end

end Sys2Proof.Safety
end

section
/-! The canonical form under the hardware queues, contexts and launches. -/

namespace Sys2Proof.Laws

open Sys2Proof.Machine

namespace Quiet

variable {s0 s s' : State}

/-! ### Status words and records -/

theorem putStatus (pa code detail : Nat) (h : Quiet s0 s) : Quiet s0 (putStatus s pa code detail) := h.devicePutD _ _

theorem completeRecord (q code detail : Nat) (h : Quiet s0 s) : Quiet s0 (completeRecord s q code detail) :=
  (h.putStatus _ _ _).modQueue _ _

theorem completeLaunch (l : Launch) (code detail : Nat) (h : Quiet s0 s) : Quiet s0 (completeLaunch s l code detail) :=
  ite₁ (foldl _ (h.putStatus _ _ _) fun _ _ ha => ha.putStatus _ _ _) (h.completeRecord _ _ _)

theorem setTorn (q : Nat) (h : Quiet s0 s) : Quiet s0 (setTorn s q) := (h.modQueue _ _).signal _

theorem tornRec (q why code owner : Nat) (h : Quiet s0 s) : Quiet s0 (tornRec s q why code owner) := h.pushErr _

theorem entryOk (ctx : Nat) (e : W64) (h : Quiet s0 s) : Quiet s0 (entryOk s ctx e).1 := by
  refine ite₂ h ?_
  split
  · exact fst (h.readVirt _ _ _ _) (by assumption)
  · exact fst (h.readVirt _ _ _ _) (by assumption)

theorem teamCheck (d : List Byte) (ctx : Nat) (is : List Nat) (h : Quiet s0 s) : Quiet s0 (teamCheck d ctx is s).1 := by
  induction is generalizing s with
  | nil => exact h
  | cons i is ih =>
    unfold Machine.teamCheck
    refine ite₂ (ite₂ h (ite₂ h (ih h))) ?_
    split
    · exact fst (h.entryOk _ _) (by assumption)
    · have h1 := fst (h.entryOk _ _) (by assumption)
      refine ite₂ ?_ h1
      split
      · exact fst (ih h1) (by assumption)
      · exact ih h1

theorem recordCheck (ctx : Nat) (d : List Byte) (h : Quiet s0 s) : Quiet s0 (recordCheck s ctx d).1 := by
  unfold Machine.recordCheck
  split
  · exact h
  · exact h.teamCheck _ _ _

/-! ### Contexts and queues -/

theorem setCores (m : Tab Core) (h : Quiet s0 s) : Quiet s0 { s with cores := m } := h.upd rfl rfl rfl rfl rfl rfl rfl rfl rfl

theorem dropContext (ctx : Nat) (h : Quiet s0 s) : Quiet s0 (dropContext s ctx) := (h.shootDown _).setCores _

theorem discardBins (lid : Nat) (h : Quiet s0 s) : Quiet s0 (discardBins s lid).1 := h.setCores _

theorem endLaunch (lid : Nat) (l : Launch) (h : Quiet s0 s) : Quiet s0 (endLaunch s lid l) :=
  h.upd rfl rfl rfl rfl rfl rfl rfl rfl rfl

theorem forgetContext (ctx : Nat) (h : Quiet s0 s) : Quiet s0 (forgetContext s ctx) := by
  unfold Machine.forgetContext
  split
  · exact h
  · exact ite₁ h (h.upd rfl rfl rfl rfl rfl rfl rfl rfl rfl)

theorem enableContext (addr : Nat) (h : Quiet s0 s) : Quiet s0 (enableContext s addr).1 := by
  unfold Machine.enableContext
  split
  · exact h
  · split
    · exact fst (h.readPa _ _ _) (by assumption)
    · have h1 := fst (h.readPa _ _ _) (by assumption)
      split
      · exact h1.upd rfl rfl rfl rfl rfl rfl rfl rfl rfl
      · exact h1

theorem rebaseDone (h : Quiet s0 s) : Quiet s0 (rebaseDone s) := ite₁ (h.upd rfl rfl rfl rfl rfl rfl rfl rfl rfl) h

theorem detach (q : Nat) (h : Quiet s0 s) : Quiet s0 (detach s q) := by
  unfold Machine.detach
  split
  · exact foldl _ h fun _ _ ha => ha.putStatus _ _ _
  · exact h.modLaunch _ _

theorem enableQueue (q : Nat) (h : Quiet s0 s) : Quiet s0 (enableQueue s q) := by
  unfold Machine.enableQueue
  extract_lets s1 r bad n
  have h1 : Quiet s0 s1 := h.rebaseDone
  have hb {a : State} (ha : Quiet s0 a) : Quiet s0 (bad a) := ha.modQueue _ _
  refine ite₁ (hb h1) ?_
  split
  · exact hb (fst (h1.enableContext _) (by assumption))
  · exact ((fst (h1.enableContext _) (by assumption)).detach _).modQueue _ _

theorem writeQdoor (q : Nat) (v : W64) (h : Quiet s0 s) : Quiet s0 (writeQdoor s q v) :=
  ite₁ h (ite₁ (h.modQueue _ _) (h.modQueue _ _))

/-! ### Rollback -/

theorem rewriteSector (st : W64) (sec : Nat) (h : Quiet s0 s) : Quiet s0 (rewriteSector st s sec) := by
  unfold Machine.rewriteSector
  extract_lets s1
  have h1 : Quiet s0 s1 := (h.drainSector _).correctLees _ _ _
  split
  exact ite₁ ((h1.stampAssign _ _ _ _ _ _).forwardStash _) h1

theorem freeSlotsOf (lid : Nat) (h : Quiet s0 s) : Quiet s0 (freeSlotsOf s lid) := h.upd rfl rfl rfl rfl rfl rfl rfl rfl rfl

theorem replay (lid : Nat) (h : Quiet s0 s) : Quiet s0 (replay s lid) :=
  (h.upd rfl rfl rfl rfl rfl rfl rfl rfl rfl : Quiet s0 (Machine.freeSlotsOf { s with lpins := _ } lid)).modLaunch _ _

theorem parkCtx (ctx : Nat) (ref : Bool) (h : Quiet s0 s) : Quiet s0 (parkCtx s ctx ref) := h.modErr _

end Quiet

end Sys2Proof.Laws

namespace Sys2Proof.Safety

open Sys2Proof.Machine Sys2Proof.Laws

namespace Canonical

variable {s : State}

theorem pushErrOf (r : Option ErrRec) (h : Canonical s) : Canonical (match r with | some r => Machine.pushErr s r | none => s) := by
  split
  · exact h.pushErr _
  · exact h

theorem admitRecord (q ctx : Nat) (d : List Byte) (spt : List Nat) (h : Canonical s) : Canonical (admitRecord s q ctx d spt) := by
  have done (code : Nat) := h.quiet ((Quiet.refl s).completeRecord q code 0)
  unfold Machine.admitRecord
  extract_lets l lid ns
  refine ite₁ (done _) (ite₁ ?_ (h.upd rfl rfl rfl))
  split
  · exact ite₁ (h.upd rfl rfl rfl) (h.upd rfl rfl rfl)
  · exact done _

theorem rekey (old new : Nat) (h : Canonical s) : Canonical (rekey s old new) := by
  refine mk h.mem h.teams fun c' hc' => ?_
  obtain ⟨c, hc, rfl⟩ := List.mem_map.mp hc'
  exact h.counters c hc

theorem killLaunch (lid : Nat) (h : Canonical s) : Canonical (killLaunch s lid) := by
  unfold Machine.killLaunch
  split
  have h1 := h.quiet (Quiet.fst ((Quiet.refl s).discardBins _) (by assumption))
  refine dropPins _ (foldl _ (dropWaiters _ ?_) fun _ _ ha => ha.killTeam _)
  exact h1.upd rfl rfl rfl

theorem killRunning (q code : Nat) (counted : Bool) (h : Canonical s) : Canonical (killRunning s q code counted) := by
  refine h.foldl _ fun a e ha => ?_
  extract_lets s1
  have h1 : Canonical s1 := by
    unfold s1
    split
    · exact ite₁ (ha.pushErr _) ha
    · exact ha
  exact (h1.killLaunch e.1).upd rfl rfl rfl

theorem endContext (ctx : Nat) (h : Canonical s) : Canonical (endContext s ctx) := by
  refine ite₁ h ?_
  extract_lets mine s1 new
  have h0 : Canonical (mine.foldl Machine.recallShares s) := h.foldl _ fun _ _ ha => ha.recallShares _
  have h1 : Canonical s1 := h0.quiet (((Quiet.refl _).modCtx _ _).dropContext _)
  refine (rekey (s := { s1 with nextId := s1.nextId + 1 }) ctx new (h1.upd rfl rfl rfl)).quiet ?_
  exact (Quiet.refl _).forgetContext _

theorem teardown (q : Nat) (kill : Bool) (h : Canonical s) : Canonical (teardown s q kill) :=
  ((h.quiet (((Quiet.refl s).modQueue _ _).setTorn _)).killRunning _ _ _).endContext _

theorem writeQctl (q : Nat) (v : W64) (h : Canonical s) : Canonical (writeQctl s q v) := by
  unfold Machine.writeQctl
  extract_lets r x suspends s1 s2
  have h1 : Canonical s1 := h.quiet ((Quiet.refl s).modQueue _ _)
  have h2 : Canonical s2 := ite₁ (h1.askSuspended _) h1
  exact ite₁ (ite₁ h2 (h2.quiet ((Quiet.refl _).enableQueue _))) (ite₁ (h2.teardown _ _) h2)

theorem wf_putCells {m : List Host.Cell} (cells : List Host.Cell) (lo hi : Nat) (h : Memory.wf m = true) :
    Memory.wf (cells.foldl (fun m c => smSet 0 m c.1 c.2) (smClear m lo hi)) = true :=
  smWf_foldl cells Prod.fst Prod.snd (smClear_wf lo hi h)

theorem putCells {m : List Host.Cell} (fl : Tab Byte) (po : List Nat) (h : Canonical s) (hm : Memory.wf m = true) :
    Canonical { s with mem := m, flips := fl, poison := po } := mk hm h.teams h.counters

theorem rewriteBlock (boundary blk : Nat) (h : Canonical s) : Canonical (rewriteBlock boundary s blk) := by
  unfold Machine.rewriteBlock
  extract_lets s1 secs s2 s3 s4
  have h1 : Canonical s1 := h.quiet ((Quiet.refl s).correctLees _ _ _)
  have h2 : Canonical s2 := h1.foldl _ fun a _ ha => ha.quiet ((Quiet.refl a).settle _ _)
  have h4 : Canonical s4 := h2.quiet (((Quiet.refl s2).beforeUntracked _ _ _).tagWrite _ _ _)
  split
  · exact h1
  · rename_i d mixed po _
    extract_lets s5
    have h5 : Canonical s5 := h4.putCells _ _ (wf_putCells d _ _ h4.mem)
    exact h5.foldl (f := fun s x => forwardStash (addDirty s x) x) secs fun a _ ha =>
      ha.quiet (((Quiet.refl a).addDirty _).forwardStash _)

theorem rollBack (lid : Nat) (l : Launch) (h : Canonical s) : Canonical (rollBack s lid l) := by
  refine setCores _ ?_
  split
  · exact foldl _ (h.foldl _ fun a _ ha => ha.quiet ((Quiet.refl a).rewriteSector _ _)) fun _ _ ha => ha.rewriteBlock _ _
  · exact h

theorem killContext (ctx why : Nat) (h : Canonical s) : Canonical (killContext s ctx why) := by
  unfold Machine.killContext
  split
  · exact h
  · exact ite₁ h (pushErr _ (h.foldl _ fun _ _ ha => ha.teardown _ _))

theorem contextKill (ctx : Nat) (h : Canonical s) : Canonical (contextKill s ctx) := by
  have park (ref : Bool) := h.quiet ((Quiet.refl s).parkCtx ctx ref)
  exact ite₁ (park _) (ite₁ ((park _).killContext _ _) (park _))

end Canonical

/-! ### The events -/

section

variable {s : State} (h : Canonical s)
include h

theorem NextOk.launchAdmission (q : Nat) : NextOk (execLaunchAdmission q s) := by
  unfold execLaunchAdmission
  have read (pa : Nat) : Quiet s (if paUsable s pa 512 then readPa s pa 512 0 else (s, none)).1 :=
    Quiet.ite₂ ((Quiet.refl s).readPa _ _ _) (Quiet.refl s)
  refine Canonical.ite₁ h ?_
  extract_lets r pa
  split
  · exact (h.quiet ((Quiet.refl s).completeRecord _ _ _)).finish
  · split
    · have h1 := h.quiet (Quiet.fst (read _) (by assumption))
      exact (h1.quiet ((((Quiet.refl _).setTorn _).completeRecord _ _ _).tornRec _ _ _ _)).finish
    · have h1 := h.quiet (Quiet.fst (read _) (by assumption))
      split
      · have h2 := h1.quiet (Quiet.fst ((Quiet.refl _).recordCheck _ _) (by assumption))
        exact (h2.quiet ((Quiet.refl _).completeRecord _ _ _)).finish
      · have h2 := h1.quiet (Quiet.fst ((Quiet.refl _).recordCheck _ _) (by assumption))
        exact (h2.admitRecord _ _ _ _).finish

theorem NextOk.launchCompletion (launch : Nat) : NextOk (execLaunchCompletion launch s) := by
  unfold execLaunchCompletion
  split
  · exact h
  · refine Canonical.ite₁ ?_ h
    split
    exact (h.quiet ((((Quiet.refl s).endLaunch _ _).completeLaunch _ _ _).forgetContext _)).finish

theorem NextOk.queueEnable (q : Nat) (v : W64) : NextOk (execQueueEnable q v s) := Canonical.ite₁ (h.writeQctl _ _).finish h

theorem NextOk.queueTeardown (q : Nat) (v : W64) : NextOk (execQueueTeardown q v s) := Canonical.ite₁ (h.writeQctl _ _).finish h

theorem NextOk.queueSuspend (q : Nat) (v : W64) : NextOk (execQueueSuspend q v s) := Canonical.ite₁ (h.writeQctl _ _).finish h

theorem NextOk.queueUnsuspend (q : Nat) (v : W64) : NextOk (execQueueUnsuspend q v s) := Canonical.ite₁ (h.writeQctl _ _).finish h

theorem NextOk.tornClear (q : Nat) (v : W64) : NextOk (execTornClear q v s) := Canonical.ite₁ (h.writeQctl _ _).finish h

theorem NextOk.doorbell (q : Nat) (v : W64) : NextOk (execDoorbell q v s) :=
  Canonical.ite₁ (h.quiet ((Quiet.refl s).writeQdoor _ _)) h

theorem NextOk.consume (launch code : Nat) : NextOk (execConsume launch code s) := by
  unfold execConsume
  split
  · exact h
  · split
    · exact Canonical.ite₁ (Canonical.finish (Canonical.upd (h.killLaunch _) rfl rfl rfl)) h
    · exact h

theorem NextOk.rollbackRestore (launch : Nat) : NextOk (execRollbackRestore launch s) := by
  unfold execRollbackRestore
  split
  · exact h
  · refine Canonical.ite₁ ?_ h
    extract_lets s1 code more s2
    have h1 : Canonical s1 := h.pushErrOf _
    refine Canonical.ite₁ ?_ ?_
    · have h2 : Canonical s2 := (h1.rollBack _ _).pushErr _
      exact Canonical.finish (Canonical.ite₁ (h2.quiet ((Quiet.refl _).replay _)) (h2.upd rfl rfl rfl))
    · exact (h1.quiet ((((Quiet.refl _).setTorn _).tornRec _ _ _ _).modLaunch _ _)).finish

theorem NextOk.contextKill (ctx : Nat) : NextOk (execContextKill ctx s) := (h.contextKill _).finish

end

end Sys2Proof.Safety
end

section
/-! The canonical form under the stacks' homes, quiesce and errors, and under the kiln. -/

namespace Sys2Proof.Laws

open Sys2Proof.Machine

namespace Quiet

variable {s0 s s' : State}

/-! ### Stacks -/

theorem setPress (m : BitVec 12) (h : Quiet s0 s) : Quiet s0 { s with press := m } := h.upd rfl rfl rfl rfl rfl rfl rfl rfl rfl

theorem relieve (n : Nat) (h : Quiet s0 s) : Quiet s0 (relieve s n) := setPress _ (h.reclaim _ _ _)

theorem drainStack (n : Nat) (h : Quiet s0 s) : Quiet s0 (drainStack s n) :=
  foldl _ (foldl _ (foldl _ (foldl _ h fun _ _ ha => ha.homeStep _) fun _ _ ha => ha.combineGroup _) fun _ _ ha => ha.nmcShare _ _)
    fun _ _ ha => ha.recallStash _

theorem dropChunks (n : Nat) (h : Quiet s0 s) : Quiet s0 (dropChunks s n) := h.upd rfl rfl rfl rfl rfl rfl rfl rfl rfl

theorem setStackBits (n : Nat) (b : Bool) (h : Quiet s0 s) : Quiet s0 (setStackBits s n b) := h.upd rfl rfl rfl rfl rfl rfl rfl rfl rfl

theorem quiesceRequest (n : Nat) (h : Quiet s0 s) : Quiet s0 (quiesceRequest s n) :=
  ite₁ (h.modStack _ _) (((h.modStack _ _).drainStack _).setStackBits _ _)

theorem purgeStack (n : Nat) (h : Quiet s0 s) : Quiet s0 (purgeStack s n) := by
  unfold Machine.purgeStack
  extract_lets gone s1
  have h1 : Quiet s0 s1 := dropChunks _ (foldl _ h fun _ _ ha => ha.writeBack _)
  exact h1.upd rfl rfl rfl rfl rfl rfl rfl rfl rfl

theorem writeMask (n j : Nat) (v : W64) (h : Quiet s0 s) : Quiet s0 (writeMask s n j v) :=
  ite₁ ((h.drainStack _).modStack _ _) (h.modStack _ _)

theorem scrub (loc finder : Nat) (h : Quiet s0 s) : Quiet s0 (scrub s loc finder) := ite₁ (h.correctSlot _ _ _) (h.correctSector _ _)

theorem setFlips (m : Tab Byte) (h : Quiet s0 s) : Quiet s0 { s with flips := m } := h.upd rfl rfl rfl rfl rfl rfl rfl rfl rfl

theorem loseSector (sec : Nat) (h : Quiet s0 s) : Quiet s0 (loseSector s sec) := (h.setFlips _).scrub _ _

theorem consumeBy (lid : Nat) (r : ErrRec) (h : Quiet s0 s) : Quiet s0 (consumeBy s lid r) := h.modLaunch _ _

theorem poisonDirty (sec : Nat) (h : Quiet s0 s) : Quiet s0 (poisonDirty s sec) :=
  h.upd rfl rfl rfl rfl rfl rfl rfl rfl rfl

theorem setGroups {m : Tab Group} (h : Quiet s0 s) : Quiet s0 { s with groups := m } := h.upd rfl rfl rfl rfl rfl rfl rfl rfl rfl

theorem loseEntry (sec : Nat) (h : Quiet s0 s) : Quiet s0 (loseEntry s sec) := by
  unfold Machine.loseEntry
  extract_lets lost s1 s2
  have h1 : Quiet s0 s1 := ite₁ h.setGroups (h.combineGroup _)
  have h2 : Quiet s0 s2 := (h1.recallStash _).backInvalidate _
  exact ite₁ (h2.poisonDirty _) h2

theorem coreFalls (core : Nat) (h : Quiet s0 s) : Quiet s0 (coreFalls s core) := ite₁ (h.upd rfl rfl rfl rfl rfl rfl rfl rfl rfl) h

/-! ### The kiln -/

theorem writeFramecmd (v : W64) (h : Quiet s0 s) : Quiet s0 (writeFramecmd s v) := by
  unfold Machine.writeFramecmd
  extract_lets x gran t s1 s2
  have h2 : Quiet s0 s2 := modHost _ (ite₁ (h.modHost _) h)
  exact ite₁ h2 (ite₁ (h2.modHost _) (h2.modHost _))

theorem unfillChunks (secs : List Nat) (h : Quiet s0 s) : Quiet s0 (unfillChunks s secs) := h.upd rfl rfl rfl rfl rfl rfl rfl rfl rfl

theorem rebaseRequest (h : Quiet s0 s) : Quiet s0 (rebaseRequest s) :=
  ite₁ h (ite₁ (h.upd rfl rfl rfl rfl rfl rfl rfl rfl rfl) (h.upd rfl rfl rfl rfl rfl rfl rfl rfl rfl))

theorem kilnEnd (status : Nat) (h : Quiet s0 s) : Quiet s0 (kilnEnd s status) := h.upd rfl rfl rfl rfl rfl rfl rfl rfl rfl

theorem kilnRecord (addr : Nat) (h : Quiet s0 s) : Quiet s0 (kilnRecord s addr).1 := by
  refine ite₂ h ?_
  split
  · have h1 := fst (h.readPa _ _ _) (by assumption)
    exact ite₂ h1 h1
  · exact fst (h.readPa _ _ _) (by assumption)

theorem setKilncmd (op addr : Nat) (h : Quiet s0 s) : Quiet s0 (setKilncmd s op addr) := h.upd rfl rfl rfl rfl rfl rfl rfl rfl rfl

theorem settleAll (h : Quiet s0 s) : Quiet s0 (settleAll s) := foldl _ h.drainAll fun _ _ ha => ha.combineGroup _

theorem correctAll (finder : Nat) (h : Quiet s0 s) : Quiet s0 (correctAll s finder) :=
  foldl _ h fun _ _ ha => ite₁ (ha.scrub _ _) ha

theorem drainReads (h : Quiet s0 s) : Quiet s0 (drainReads s) := foldl _ h fun _ _ ha => ha.pcAsk _ _

theorem setGpins (m : List Pin) (h : Quiet s0 s) : Quiet s0 { s with gpins := m } := h.upd rfl rfl rfl rfl rfl rfl rfl rfl rfl

theorem drainEnd (k : Drain) (h : Quiet s0 s) : Quiet s0 (drainEnd s k) := by
  unfold Machine.drainEnd
  split
  · exact h.kilnEnd _
  · refine ite₁ (h.kilnEnd _) ?_
    split
    · exact h.kilnEnd _
    · exact (((h.writePa _ _ _).writePa _ _ _).setGpins _).kilnEnd _

theorem restoreSector (m : List Host.Cell) (base sec : Nat) (h : Quiet s0 s) : Quiet s0 (restoreSector m base s sec) :=
  h.stampAssign _ _ _ _ _ _

theorem forgetAll (hz : W64) (cs : Tab Core) (h : Quiet s0 s) : Quiet s0 { s with
    lees := [], leesHead := [], press := 0, horizon := hz, ctu := [], cores := cs, dirty := [], hostHeld := [], owners := [],
    blocks := [] } := h.upd rfl rfl rfl rfl rfl rfl rfl rfl rfl

theorem restoreEnd (stamp : W64) (h : Quiet s0 s) : Quiet s0 (restoreEnd s stamp) := by
  unfold Machine.restoreEnd
  extract_lets s1
  have h1 : Quiet s0 s1 := foldl _ h fun _ _ ha => ha.setClock _ _
  exact h1.forgetAll _ _

theorem kilnReadEnd (status n : Nat) (h : Quiet s0 s) : Quiet s0 (kilnReadEnd s status n) := h.upd rfl rfl rfl rfl rfl rfl rfl rfl rfl

theorem restoreFrom (k : KilnRec) (d : List Byte) (h : Quiet s0 s) : Quiet s0 (restoreFrom s k d) := by
  refine ite₁ (h.kilnEnd _) (ite₁ (h.kilnEnd _) ?_)
  split
  · exact h.kilnReadEnd _ _
  · exact ite₁ (h.kilnReadEnd _ _) (ite₁ (h.kilnReadEnd _ _) (ite₁ (h.kilnReadEnd _ _) (h.upd rfl rfl rfl rfl rfl rfl rfl rfl rfl)))

end Quiet

end Sys2Proof.Laws

namespace Sys2Proof.Safety

open Sys2Proof.Machine Sys2Proof.Laws

namespace Canonical

variable {s : State}

/-! ### Stacks -/

theorem initStack (n : Nat) (h : Canonical s) : Canonical (initStack s n) := h.setMem (smClear_wf _ _) rfl rfl

theorem stackReturn (n : Nat) (h : Canonical s) : Canonical (stackReturn s n) := by
  refine ite₁ ?_ (h.upd rfl rfl rfl)
  extract_lets s1
  have h1 : Canonical s1 := (h.initStack n).upd rfl rfl rfl
  exact ite₁ (h1.upd rfl rfl rfl) h1

theorem returnRequest (n : Nat) (h : Canonical s) : Canonical (returnRequest s n) := by
  unfold Machine.returnRequest
  extract_lets s1
  have h1 : Canonical s1 := h.upd rfl rfl rfl
  exact ite₁ (h1.stackReturn _) h1

theorem stopCmd (op : Nat) (c : Cmd) (h : Canonical s) : Canonical (stopCmd s op c) := by
  unfold Machine.stopCmd
  extract_lets s1 kind
  have h1 : Canonical s1 := ite₁ h (h.modTeam _ fun _ ht => ht.decFlags _)
  exact h1.upd rfl rfl rfl

theorem sramUe (structure_ unit slot loc : Nat) (h : Canonical s) : Canonical (sramUe s structure_ unit slot loc) := by
  unfold Machine.sramUe
  extract_lets sec u contained consumed lose
  have hc {a : State} (ha : Canonical a) : Canonical (contained a) := ha.pushErr _
  have hd {a : State} (t : Team) (ha : Canonical a) : Canonical (consumed a t) := ha.quiet ((Quiet.refl a).consumeBy _ _)
  have hl (c : Counter) (hc : CounterOk c) : CounterOk (lose c) := by
    unfold lose
    split
    · exact CounterOk.tbDel _ hc
    · exact hc
  split
  · split
    · exact hd _ h
    · exact hc h
  · split
    · exact hd _ h
    · exact hc h
  · split
    · exact hd _ h
    · exact hc h
  · exact ite₁ (hc (h.quiet ((Quiet.refl s).setPoison _ _))) (hc h)
  · exact hc (h.modCore _ _)
  · exact hc (ite₁ (h.quiet ((Quiet.refl s).poisonDirty _)) h)
  · exact hc (h.foldl _ fun a _ ha => ha.quiet ((Quiet.refl a).loseEntry _))
  · exact hc (h.upd rfl rfl rfl)
  · split
    · exact hc h
    · exact (hc (h.modCounter loc hl)).killContext _ _
  · split
    · exact (hc h).killContext _ _
    · exact hc h
  · split
    · exact hc h
    · exact hc (h.stopCmd _ _)
  · exact h

/-! ### The kiln -/

theorem setTracked (m : List Nat) (h : Canonical s) : Canonical { s with tracked := m } := h.upd rfl rfl rfl

theorem setKiln (k : Option Kiln) (n : Nat) (h : Canonical s) : Canonical { s with kiln := k, kilnBytes := n } := h.upd rfl rfl rfl

theorem changeFrame (g : Nat) (t : Bool) (h : Canonical s) : Canonical (changeFrame s g t) := by
  unfold Machine.changeFrame
  extract_lets s1 secs s2 s3
  have h2 : Canonical s2 := h.quiet (Quiet.foldl _ ((Quiet.refl s).shootDown _) fun _ _ ha => (ha.settle _ _).writeBack _)
  have h3 : Canonical s3 := h2.quiet ((Quiet.refl s2).unfillChunks _)
  exact h3.setTracked _

theorem kilnStart (op addr : Nat) {f : State → State} (h : Canonical s) (hf : ∀ s, Canonical s → Canonical (f s)) :
    Canonical (kilnStart s op addr f) := by
  unfold Machine.kilnStart
  extract_lets s1
  have h1 : Canonical s1 := h.quiet ((Quiet.refl s).setKilncmd _ _)
  exact ite₁ h1 (ite₁ (h1.upd rfl rfl rfl) (finish (hf _ (h1.upd rfl rfl rfl))))

theorem kilnEnd (status : Nat) (h : Canonical s) : Canonical (kilnEnd s status) := h.quiet ((Quiet.refl s).kilnEnd _)

/-- The bytes of an area put where others were, each at an offset from the area's place. -/
theorem wf_putArea {m : List Host.Cell} (cells : List Host.Cell) (lo hi base : Nat) (h : Memory.wf m = true) :
    Memory.wf (cells.foldl (fun a c => smSet 0 a (base + c.1) c.2) (smClear m lo hi)) = true :=
  smWf_foldl cells (fun c => base + c.1) Prod.snd (smClear_wf lo hi h)

theorem putArea (a n : Nat) (m : List Host.Cell) (h : Canonical s) : Canonical (putArea s a n m) := by
  unfold Machine.putArea
  extract_lets lo held s1 s2
  have h1 : Canonical s1 := h.foldl _ fun a _ ha => ha.quiet ((Quiet.refl a).settle _ _)
  have h2 : Canonical s2 := h1.setMem (wf_putArea m _ _ _) rfl rfl
  exact h2.foldl _ fun a _ ha => ha.quiet ((Quiet.refl a).forwardStash _)

theorem drainTo (p : Pin) (k : KilnRec) (h : Canonical s) : Canonical (drainTo s p k) := by
  refine ite₁ (h.kilnEnd _) ?_
  extract_lets s1
  have h1 : Canonical s1 := h.quiet ((Quiet.refl s).settleAll.drainReads.correctAll _)
  exact ite₁ (h1.kilnEnd _) (setKiln _ _ (h1.putArea _ _ _))

theorem drainCmd (addr : Nat) (h : Canonical s) : Canonical (drainCmd addr s) := by
  refine h.kilnStart _ _ fun a ha => ?_
  split
  · exact (ha.quiet (Quiet.fst ((Quiet.refl a).kilnRecord _) (by assumption))).kilnEnd _
  · have h1 := ha.quiet (Quiet.fst ((Quiet.refl a).kilnRecord _) (by assumption))
    split
    · exact h1.kilnEnd _
    · exact h1.drainTo _ _

theorem restoreStack (m : List Host.Cell) (off n start len : Nat) (h : Canonical s) : Canonical (restoreStack s m off n start len) := by
  unfold Machine.restoreStack
  extract_lets lo s1 cells
  have h1 : Canonical s1 := h.foldl _ fun a _ ha => ha.quiet ((Quiet.refl a).restoreSector _ _ _)
  exact h1.setMem (wf_putCells cells _ _) rfl rfl

theorem restoreFrames (m : List Host.Cell) (off : Nat) (h : Canonical s) : Canonical (restoreFrames s m off) := h.upd rfl rfl rfl

theorem restoreExtents (m : List Host.Cell) (count : Nat) (h : Canonical s) : Canonical (restoreExtents s m count) :=
  foldl _ (h.foldl _ fun _ _ ha => ha.restoreFrames _ _) fun _ _ ha => ha.restoreStack _ _ _ _ _

theorem undefineHbm (h : Canonical s) : Canonical (undefineHbm s) := by
  refine mk ?_ h.teams h.counters
  suffices ∀ (l : List Nat) (m : List Host.Cell), Memory.wf m = true → Memory.wf (l.foldl (fun m n =>
      (List.range (csOf s.leesMode)).foldl (fun m a => smSet 0 m (hbmKey n a) (freeByte s (hbmKey n a))) m) m) = true from
    this _ _ h.mem
  intro l
  induction l with
  | nil => exact fun _ hm => hm
  | cons n l ih => exact fun m hm => ih _ (smWf_foldl _ (hbmKey n ·) (fun a => freeByte s (hbmKey n a)) hm)

theorem restoreStop (status : Nat) (h : Canonical s) : Canonical (restoreStop s status) := h.undefineHbm.kilnEnd _

theorem restoreRun (r : Restore) (h : Canonical s) : Canonical (restoreRun s r) := by
  refine ite₁ (h.restoreStop _) ?_
  split
  · exact h.restoreStop _
  · have h1 := (h.quiet (Quiet.refl s).settleAll).restoreExtents
    exact kilnEnd _ ((h1 _ _).quiet ((Quiet.refl _).restoreEnd _))

theorem restoreCmd (addr : Nat) (h : Canonical s) : Canonical (restoreCmd addr s) := by
  refine h.kilnStart _ _ fun a ha => ?_
  split
  · exact (ha.quiet (Quiet.fst ((Quiet.refl a).kilnRecord _) (by assumption))).kilnEnd _
  · have h1 := ha.quiet (Quiet.fst ((Quiet.refl a).kilnRecord _) (by assumption))
    refine ite₁ (h1.kilnEnd _) (ite₁ (h1.kilnEnd _) ?_)
    split
    · exact (h1.quiet (Quiet.fst ((Quiet.refl _).readPa _ _ _) (by assumption))).kilnEnd _
    · exact h1.quiet ((Quiet.fst ((Quiet.refl _).readPa _ _ _) (by assumption)).restoreFrom _ _)

theorem releaseCmd (addr : Nat) (h : Canonical s) : Canonical (releaseCmd addr s) := by
  refine h.kilnStart _ _ fun a ha => ?_
  split
  · exact (ha.quiet (Quiet.fst ((Quiet.refl a).kilnRecord _) (by assumption))).kilnEnd _
  · have h1 := ha.quiet (Quiet.fst ((Quiet.refl a).kilnRecord _) (by assumption))
    split
    · exact h1.kilnEnd _
    · exact kilnEnd _ (h1.upd rfl rfl rfl)

theorem abortCmd (h : Canonical s) : Canonical (abortCmd s) := by
  unfold Machine.abortCmd
  extract_lets s1
  have h1 : Canonical s1 := h.upd rfl rfl rfl
  split
  · exact h1
  · exact (h1.kilnEnd _).finish
  · exact (h1.restoreStop _).finish

end Canonical

/-! ### The events -/

section

variable {s : State} (h : Canonical s)
include h

theorem NextOk.trackedWriteAtHome (home : Nat) : NextOk (execTrackedWriteAtHome home s) :=
  Canonical.ite₁ (h.quiet ((Quiet.refl s).homeStep _)).finish h

theorem NextOk.leesReclaim (n : Nat) : NextOk (execLeesReclaim n s) :=
  Canonical.ite₁ (h.quiet ((Quiet.refl s).relieve _)).finish h

theorem NextOk.horizonPropagation (core : Nat) : NextOk (execHorizonPropagation core s) := Canonical.ite₁ h (h.modCore _ _)

theorem NextOk.pcGrant (home : Nat) : NextOk (execPcGrant home s) := by
  refine Canonical.ite₁ (h.upd rfl rfl rfl) ?_
  split
  · exact h
  · exact h.upd rfl rfl rfl

theorem NextOk.stackQuiesceRequest (n : Nat) : NextOk (execStackQuiesceRequest n s) :=
  Canonical.ite₁ (h.quiet ((Quiet.refl s).quiesceRequest _)).finish h

theorem NextOk.stackQuiesceComplete (n : Nat) : NextOk (execStackQuiesceComplete n s) := by
  refine Canonical.ite₁ ?_ h
  extract_lets s1
  have h1 : Canonical s1 := h.quiet ((((Quiet.refl s).drainStack _).purgeStack _).modStack _ _)
  exact Canonical.finish (Canonical.ite₁ h1 (h1.stackReturn _))

theorem NextOk.stackReturnToService (n : Nat) : NextOk (execStackReturnToService n s) :=
  Canonical.ite₁ (h.returnRequest _).finish h

theorem NextOk.hashmaskWrite (n j : Nat) (v : W64) : NextOk (execHashmaskWrite n j v s) :=
  Canonical.ite₁ (h.quiet ((Quiet.refl s).writeMask _ _ _)).finish h

theorem NextOk.rateChangeRequest (n : Nat) : NextOk (execRateChangeRequest n s) := Canonical.ite₁ (h.upd rfl rfl rfl) h

theorem NextOk.retrainingStart (n : Nat) : NextOk (execRetrainingStart n s) := Canonical.ite₁ (h.upd rfl rfl rfl) h

theorem NextOk.retrainingComplete (n : Nat) : NextOk (execRetrainingComplete n s) := Canonical.ite₁ (h.upd rfl rfl rfl) h

theorem NextOk.rateChangeAbandon (n : Nat) : NextOk (execRateChangeAbandon n s) := by
  unfold execRateChangeAbandon
  split
  · exact h
  · exact Canonical.ite₁ (Canonical.finish (h.quiet (((Quiet.refl s).modStack _ _).pushErr _))) h

theorem NextOk.patrolScrub (loc : Nat) : NextOk (execPatrolScrub loc s) :=
  Canonical.ite₁ (h.quiet (((Quiet.refl s).pcAsk _ _).scrub _ _)).finish h

theorem NextOk.hbmDataError (loc : Nat) (bits : List Nat) : NextOk (execHbmDataError loc bits s) :=
  h.foldl _ fun a _ ha => Canonical.ite₁ (ha.quiet ((Quiet.refl a).setFlips _)) ha

theorem NextOk.sramError (structureCode unit slot loc : Nat) (correctable : Bool) :
    NextOk (execSramError structureCode unit slot loc correctable s) :=
  Canonical.ite₁ h (Canonical.ite₁ (Canonical.finish (h.quiet (((Quiet.refl s).modErr _).pushErr _))) (h.sramUe _ _ _ _).finish)

theorem NextOk.timingDetection (core : Nat) (again : Bool) : NextOk (execTimingDetection core again s) := by
  unfold execTimingDetection
  extract_lets s1 r ls s2
  have h1 : Canonical s1 := h.quiet ((Quiet.refl s).modErr _)
  have h2 : Canonical s2 := Canonical.ite₁ (h1.pushErr _) (h1.foldl _ fun a _ ha => ha.quiet ((Quiet.refl a).consumeBy _ _))
  exact Canonical.ite₁ h1 (Canonical.ite₁ (h2.quiet (((Quiet.refl s2).modCore _ _).coreFalls _)).finish
    (Canonical.ite₁ (h1.quiet ((Quiet.refl s1).loseSector _)).finish (h1.sramUe _ _ _ _).finish))

theorem NextOk.framecmdGo (v : W64) : NextOk (execFramecmdGo v s) := Canonical.ite₁ (h.quiet ((Quiet.refl s).writeFramecmd _)) h

theorem NextOk.frameChangeComplete : NextOk (execFrameChangeComplete s) := by
  unfold execFrameChangeComplete
  split
  · exact h
  · exact Canonical.ite₁ (Canonical.finish ((h.changeFrame _ _).quiet ((Quiet.refl _).modHost _))) h

theorem NextOk.rebase : NextOk (execRebase s) := h.quiet (Quiet.refl s).rebaseRequest

theorem NextOk.rebaseComplete : NextOk (execRebaseComplete s) := h.quiet (Quiet.refl s).rebaseDone

theorem NextOk.kilnDrain (addr : Nat) : NextOk (execKilnDrain addr s) := h.drainCmd addr

theorem NextOk.kilnCommit : NextOk (execKilnCommit s) := by
  unfold execKilnCommit
  split
  · exact h
  · exact (h.quiet ((Quiet.refl s).drainEnd _)).finish
  · exact (h.restoreRun _).finish

theorem NextOk.kilnRestore (addr : Nat) : NextOk (execKilnRestore addr s) := h.restoreCmd addr

theorem NextOk.kilnReleaseGeneration (addr : Nat) : NextOk (execKilnReleaseGeneration addr s) := h.releaseCmd addr

theorem NextOk.kilnAbort : NextOk (execKilnAbort s) := h.abortCmd

end

end Sys2Proof.Safety
end

section
/-! The canonical form under the host's service, the outside of the device and the register block. -/

namespace Sys2Proof.Laws

open Sys2Proof.Machine

namespace Quiet

variable {s0 s s' : State}

theorem parkTeam (core slot ctx : Nat) (ref : Bool) (h : Quiet s0 s) : Quiet s0 (parkTeam s core slot ctx ref) := h.modErr _

theorem writeErrctl (v : W64) (h : Quiet s0 s) : Quiet s0 (writeErrctl s v) := h.upd rfl rfl rfl rfl rfl rfl rfl rfl rfl

theorem writeErrhead (v : W64) (h : Quiet s0 s) : Quiet s0 (writeErrhead s v) := by
  unfold Machine.writeErrhead
  extract_lets head
  exact h.modErr _

/-! ### Host access -/

theorem setHostHeld (l : List Nat) (h : Quiet s0 s) : Quiet s0 { s with hostHeld := l } := h.upd rfl rfl rfl rfl rfl rfl rfl rfl rfl

theorem holdSectors (secs : List Nat) (h : Quiet s0 s) : Quiet s0 (holdSectors s secs) := by
  unfold Machine.holdSectors
  extract_lets l s1
  have h1 : Quiet s0 s1 := foldl _ (h.setHostHeld _) fun _ _ ha => ha.noteReader _ _
  exact h1.setHostHeld _

theorem raiseHostFloor (port : Nat) (secs : List Nat) (h : Quiet s0 s) : Quiet s0 (raiseHostFloor s port secs) :=
  h.upd rfl rfl rfl rfl rfl rfl rfl rfl rfl

theorem answerHost (n : Nat) (r : Option (List Byte)) (h : Quiet s0 s) : Quiet s0 (answerHost s n r) := h.modHost _

theorem poisonIn (unit port key : Nat) (data : List Byte) (h : Quiet s0 s) : Quiet s0 (poisonIn s unit port key data) := h.pushErr _

theorem takeBack (port k : Nat) (data : List Byte) (tracked poison : Bool) (h : Quiet s0 s) :
    Quiet s0 (takeBack s port k data tracked poison) := by
  unfold Machine.takeBack
  extract_lets s1 s2
  have h1 : Quiet s0 s1 := h.backInvalidate _
  have h2 : Quiet s0 s2 := h1.putUntracked _ _ _ _ _
  refine ite₁ ?_ (ite₁ (h2.setPoison _ _) h2)
  split
  exact (fst (h1.stampAssign _ _ _ _ _ _) (by assumption)).modHost _

theorem hostWrite (port addr : Nat) (data : List Byte) (poison : Bool) (h : Quiet s0 s) :
    Quiet s0 (hostWrite s port addr data poison) := by
  unfold Machine.hostWrite
  split
  · exact h
  · extract_lets s1 sec s2 s3
    have h1 : Quiet s0 s1 := ite₁ (h.poisonIn _ _ _ _) h
    have h2 : Quiet s0 s2 := h1.settle _ _
    have h3 : Quiet s0 s3 := h2.putUntracked _ _ _ _ _
    exact ite₁ (h1.takeBack _ _ _ _ _) (ite₁ h1 (ite₁ (h2.queueHome _ _ _ _) (forwardStash _ (ite₁ (h3.setPoison _ _) h3))))

/-! ### Links -/

theorem setIo (i : Nat) (b : Bool) (h : Quiet s0 s) : Quiet s0 (setIo s i b) := h.upd rfl rfl rfl rfl rfl rfl rfl rfl rfl

theorem readyFallRec (unit idx off bit : Nat) (h : Quiet s0 s) : Quiet s0 (readyFallRec s unit idx off bit) := h.pushErr _

theorem setLink (i : Nat) (b : Bool) (h : Quiet s0 s) : Quiet s0 (setLink s i b) := h.modHost _

theorem dropFill (r : ExtReq) (h : Quiet s0 s) : Quiet s0 (dropFill s r) := by
  unfold Machine.dropFill
  split
  · exact h.modCrew _ _
  · exact h

theorem loseReqs (id : Nat) (o : Op) (bad : List ExtReq) (h : Quiet s0 s) : Quiet s0 (loseReqs s id o bad) :=
  ite₁ h (modOp _ _ (foldl _ h fun _ _ ha => ha.dropFill _))

theorem setFlying (cs : Tab Cmd) (os : Tab Op) (h : Quiet s0 s) : Quiet s0 { s with cmds := cs, ops := os } :=
  h.upd rfl rfl rfl rfl rfl rfl rfl rfl rfl

theorem losePort (port : Nat) (h : Quiet s0 s) : Quiet s0 (losePort s port) :=
  setFlying _ _ (foldl _ h fun _ _ ha => ha.loseReqs _ _ _)

theorem setHomeq (l : List HomeWrite) (h : Quiet s0 s) : Quiet s0 { s with homeq := l } := h.upd rfl rfl rfl rfl rfl rfl rfl rfl rfl

theorem loseWrites (port : Nat) (h : Quiet s0 s) : Quiet s0 (loseWrites s port) :=
  foldl _ (h.setHomeq _) fun _ _ ha => ha.returnStamp _ _

theorem setCxl (l : List CxlLine) (h : Quiet s0 s) : Quiet s0 { s with cxl := l } := h.upd rfl rfl rfl rfl rfl rfl rfl rfl rfl

theorem portDown (port : Nat) (h : Quiet s0 s) : Quiet s0 (portDown s port) := by
  refine ite₁ ?_ h
  extract_lets mine s1 lost src s2
  have h1 : Quiet s0 s1 := (h.losePort _).loseWrites _
  have h2 : Quiet s0 s2 := (h1.setIo port false).setCxl _
  exact readyFallRec _ _ _ _ (foldl _ h2 fun _ _ ha => ha.setPoison _ _)

theorem huanenDown (port : Nat) (h : Quiet s0 s) : Quiet s0 (huanenDown s port) := ite₁ ((h.setIo _ _).readyFallRec _ _ _ _) h

/-! ### Peers -/

theorem refusePeer (code : Nat) (h : Quiet s0 s) : Quiet s0 (refusePeer s code) := h.modHost _

theorem peerWrite (off pa : Nat) (data : List Byte) (poison : Bool) (h : Quiet s0 s) : Quiet s0 (peerWrite s off pa data poison) := by
  unfold Machine.peerWrite
  extract_lets s1 secs s2
  have h1 : Quiet s0 s1 := h.writePa _ _ _
  have h2 : Quiet s0 s2 := foldl _ h1 fun _ _ ha => (ha.setPoison _ _).forwardStash _
  exact ite₁ (h2.poisonIn _ _ _ _) h1

theorem peerUpdate (pa n : Nat) (f : Nat → Option Nat) (h : Quiet s0 s) : Quiet s0 (peerUpdate s pa n f).1 := by
  unfold Machine.peerUpdate
  split
  · exact fst (h.readPa _ _ _) (by assumption)
  · have h1 := fst (h.readPa _ _ _) (by assumption)
    extract_lets tag
    split
    · exact h1.writePa _ _ _
    · exact h1

theorem peerDo (off pa : Nat) (op : PeerOp) (data : List Byte) (h : Quiet s0 s) : Quiet s0 (peerDo s off pa op data).1 := by
  cases op with
  | read n => exact h.readPa _ _ _
  | write poison => exact h.peerWrite _ _ _ _
  | atomic ty op => exact h.peerUpdate _ _ _
  | cas ty e => exact h.peerUpdate _ _ _
  | reduction ty op =>
    dsimp only [Machine.peerDo]
    split
    · exact fst (h.peerUpdate _ _ _) (by assumption)
    · exact h.peerUpdate _ _ _

/-! ### READY bits -/

theorem setReady (f : Ready) (b : Bool) (h : Quiet s0 s) : Quiet s0 (setReady s f b) := by
  cases f with
  | core | group | stack => exact h.upd rfl rfl rfl rfl rfl rfl rfl rfl rfl
  | releng | kiln | cp | huanen | cxl => exact h.setIo _ _

theorem stackFalls (n : Nat) (h : Quiet s0 s) : Quiet s0 (stackFalls s n) := ite₁ ((h.setReady _ _).readyFallRec _ _ _ _) h

theorem ioFalls (i : Nat) (h : Quiet s0 s) : Quiet s0 (ioFalls s i) := ite₁ ((h.setIo _ _).readyFallRec _ _ _ _) h

theorem relengFalls (h : Quiet s0 s) : Quiet s0 (relengFalls s) := ite₁ ((h.readyFallRec _ _ _ _).finish.setIo _ _) h

theorem cxlFalls (port : Nat) (h : Quiet s0 s) : Quiet s0 (cxlFalls s port) := ((h.setLink _ _).setLink _ _).portDown _

/-! ### Registers -/

theorem writeLeescfg (v : W64) (h : Quiet s0 s) : Quiet s0 (writeLeescfg s v) := ite₁ (h.upd rfl rfl rfl rfl rfl rfl rfl rfl rfl) h

theorem writeStampctl (v : W64) (h : Quiet s0 s) : Quiet s0 (writeStampctl s v) := by
  unfold Machine.writeStampctl
  extract_lets x s1
  have h1 : Quiet s0 s1 := h.upd rfl rfl rfl rfl rfl rfl rfl rfl rfl
  exact ite₁ h1.rebaseRequest h1

theorem writeHostReg (off : Nat) (v : W64) (h : Quiet s0 s) : Quiet s0 (writeHostReg s off v) :=
  ite₁ (h.writeFramecmd _) (ite₁ h (ite₁ (h.modHost _) (ite₁ (h.modHost _) (ite₁ (h.modHost _) (ite₁ (h.modHost _)
    (ite₁ (h.modHost _) h))))))

end Quiet

end Sys2Proof.Laws

namespace Sys2Proof.Safety

open Sys2Proof.Machine Sys2Proof.Laws

namespace Canonical

variable {s : State}

/-! ### Service -/

theorem parkTeam (core slot ctx : Nat) (ref : Bool) (h : Canonical s) : Canonical (parkTeam s core slot ctx ref) :=
  h.quiet ((Quiet.refl s).parkTeam _ _ _ _)

theorem parkCommand (core slot ctx op : Nat) (h : Canonical s) : Canonical (parkCommand s core slot ctx op) := by
  refine ite₁ (h.parkTeam _ _ _ _) ?_
  split
  · exact h.parkTeam _ _ _ _
  · rename_i tid t _
    have h1 := (h.parkTeam core slot ctx false).modTeam tid (f := fun t => { t with parkCmd := op }) fun _ ht => ht
    exact ite₁ (h1.parkPending _) h1

theorem resumeContext (ctx : Nat) (h : Canonical s) : Canonical (resumeContext s ctx) := by
  refine foldl _ (h.quiet ((Quiet.refl s).modCtx _ _)) fun a e ha => ?_
  have h1 := ha.modTeam e.1 (f := fun t => { t with parkCmd := 4 }) fun _ ht => ht
  exact ite₁ (h1.parkPending _) h1

theorem contextResume (ctx : Nat) (h : Canonical s) : Canonical (contextResume s ctx) := by
  have park (ref : Bool) := h.quiet ((Quiet.refl s).parkCtx ctx ref)
  exact ite₁ (park _) (ite₁ ((park _).resumeContext _) (park _))

theorem haltTeam (tid : Nat) (t : Team) (h : Canonical s) : Canonical (haltTeam s tid t) :=
  h.modTeam _ fun _ ht => TeamOk.ite₁ ht ht

theorem dbgHalt (core : Nat) (h : Canonical s) : Canonical (dbgHalt s core) := by
  unfold Machine.dbgHalt
  split
  · exact h
  · exact ite₁ h (h.haltTeam _ _)

theorem dbgResume (core : Nat) (h : Canonical s) : Canonical (dbgResume s core) := by
  unfold Machine.dbgResume
  split
  · exact h
  · exact h.modTeam _ fun _ ht => ht

theorem dbgStep (core : Nat) (d : DbgStep) (h : Canonical s) : Canonical (dbgStep s core d) := by
  unfold Machine.dbgStep
  split
  · exact h
  · exact ite₁ (h.modTeam _ fun _ ht => ht) h

/-! ### Reset -/

theorem resetState (h : Canonical s) : Canonical (resetState s) :=
  mk (smWf_filter _ h.mem) (fun _ he => absurd he List.not_mem_nil) fun _ he => absurd he List.not_mem_nil

theorem modHost (f : HostLink → HostLink) (h : Canonical s) : Canonical (modHost s f) := h.upd rfl rfl rfl

/-! ### Registers -/

theorem setKilncmd (v : W64) (h : Canonical s) : Canonical { s with kilncmd := v } := h.upd rfl rfl rfl

theorem writeKilncmd (v : W64) (h : Canonical s) : Canonical (writeKilncmd s v) := by
  refine setKilncmd _ ?_
  split
  · exact h.abortCmd
  · exact h.drainCmd _
  · exact h.restoreCmd _
  · exact h.releaseCmd _

theorem writeParkcmd (v : W64) (h : Canonical s) : Canonical (writeParkcmd s v) := by
  unfold Machine.writeParkcmd
  extract_lets x core slot ctx s1
  have h1 : Canonical s1 := h.parkTeam _ _ _ _
  split
  · exact h1.parkCommand _ _ _ _
  · exact h1.parkCommand _ _ _ _
  · exact h1.parkCommand _ _ _ _
  · exact h1.contextResume _
  · exact h1.contextKill _
  · exact h1

theorem writeErrReg (off : Nat) (v : W64) (h : Canonical s) : Canonical (writeErrReg s off v) := by
  unfold Machine.writeErrReg
  split
  · exact ite₁ h (h.upd rfl rfl rfl)
  · exact h.quiet ((Quiet.refl s).writeErrctl _)
  · exact h.quiet ((Quiet.refl s).writeErrhead _)
  · exact h.upd rfl rfl rfl
  · exact h.writeParkcmd _
  · exact h

theorem writeStackReg (n r : Nat) (v : W64) (h : Canonical s) : Canonical (writeStackReg s n r v) :=
  ite₁ (ite₁ (ite₁ h (h.quiet ((Quiet.refl s).quiesceRequest _))) (ite₁ (h.returnRequest _) h))
    (ite₁ (h.upd rfl rfl rfl) (ite₁ (h.quiet ((Quiet.refl s).writeMask _ _ _)) h))

theorem writeQueueReg (q r : Nat) (v : W64) (h : Canonical s) : Canonical (writeQueueReg s q r v) := by
  unfold Machine.writeQueueReg
  split
  · exact ite₁ h (h.upd rfl rfl rfl)
  · exact h.writeQctl _ _
  · exact ite₁ h (h.upd rfl rfl rfl)
  · exact h.quiet ((Quiet.refl s).writeQdoor _ _)

theorem writeDbgcmd (core : Nat) (v : W64) (h : Canonical s) : Canonical (writeDbgcmd s core v) := by
  unfold Machine.writeDbgcmd
  split
  · exact h.dbgHalt _
  · exact h.dbgResume _
  · exact h.dbgStep _ _
  · exact h.dbgStep _ _
  · exact h

theorem writeDbgReg (core r : Nat) (v : W64) (h : Canonical s) : Canonical (writeDbgReg s core r v) :=
  ite₁ (h.modCore _ _) (ite₁ (h.writeDbgcmd _ _) (ite₁ (h.modCore _ _) (ite₁ (h.modCore _ _) (ite₁ (h.modCore _ _) h))))

theorem writeReg (off : Nat) (v : W64) (h : Canonical s) : Canonical (writeReg s off v) :=
  ite₁ (h.writeKilncmd _) (ite₁ (h.quiet ((Quiet.refl s).writeStampctl _)) (ite₁ (h.quiet ((Quiet.refl s).writeLeescfg _))
    (ite₁ (h.writeErrReg _ _) (ite₁ (h.quiet ((Quiet.refl s).writeHostReg _ _)) (ite₁ (h.writeStackReg _ _ _)
      (ite₁ (h.writeQueueReg _ _ _) (ite₁ (h.writeDbgReg _ _ _) h)))))))

end Canonical

/-! ### The events -/

section

variable {s : State} (h : Canonical s)
include h

theorem NextOk.parkResume (core slot ctx : Nat) : NextOk (execParkResume core slot ctx s) := (h.parkCommand _ _ _ _).finish

theorem NextOk.parkResumeSkip (core slot ctx : Nat) : NextOk (execParkResumeSkip core slot ctx s) := (h.parkCommand _ _ _ _).finish

theorem NextOk.parkKillTeam (core slot ctx : Nat) : NextOk (execParkKillTeam core slot ctx s) := (h.parkCommand _ _ _ _).finish

theorem NextOk.contextResume (ctx : Nat) : NextOk (execContextResume ctx s) := (h.contextResume _).finish

theorem NextOk.errctlWrite (v : W64) : NextOk (execErrctlWrite v s) := h.quiet ((Quiet.refl s).writeErrctl _)

theorem NextOk.errheadWrite (v : W64) : NextOk (execErrheadWrite v s) := h.quiet ((Quiet.refl s).writeErrhead _)

theorem NextOk.dbgHalt (core : Nat) : NextOk (execDbgHalt core s) := h.dbgHalt core

theorem NextOk.dbgResume (core : Nat) : NextOk (execDbgResume core s) := h.dbgResume core

theorem NextOk.dbgStepInstruction (core : Nat) : NextOk (execDbgStepInstruction core s) := h.dbgStep core _

theorem NextOk.dbgStepClause (core : Nat) : NextOk (execDbgStepClause core s) := h.dbgStep core _

theorem NextOk.mbpopRead (core : Nat) : NextOk (execMbpopRead core s) := h.upd rfl rfl rfl

theorem NextOk.hostMemRead (port addr n : Nat) : NextOk (execHostMemRead port addr n s) := by
  have answer {a : State} (r : Option (List Byte)) (ha : Canonical a) := ha.quiet ((Quiet.refl a).answerHost n r)
  refine Canonical.ite₁ h (Canonical.ite₁ (answer _ h) ?_)
  split
  · exact (answer _ (h.quiet (Quiet.fst ((Quiet.refl s).readPa _ _ _) (by assumption)))).finish
  · have h1 := h.quiet (Quiet.fst ((Quiet.refl s).readPa _ _ _) (by assumption))
    extract_lets secs s1 s2
    have h2 : Canonical s1 := h1.quiet ((Quiet.refl _).raiseHostFloor _ _)
    have h3 : Canonical s2 := Canonical.ite₁ (h2.quiet ((Quiet.refl _).holdSectors _)) h2
    exact (answer _ h3).finish

theorem NextOk.hostMemWrite (port addr : Nat) (data : List Byte) (poison : Bool) : NextOk (execHostMemWrite port addr data poison s) :=
  Canonical.ite₁ (h.quiet ((Quiet.refl s).hostWrite _ _ _ _)).finish h

theorem NextOk.cxlLinkUp (link : Nat) : NextOk (execCxlLinkUp link s) :=
  Canonical.ite₁ (Canonical.ite₁ (h.quiet (((Quiet.refl s).setLink _ _).setIo _ _)) (h.quiet ((Quiet.refl s).setLink _ _))) h

theorem NextOk.cxlLinkDown (link : Nat) : NextOk (execCxlLinkDown link s) :=
  Canonical.ite₁ (h.quiet (((Quiet.refl s).setLink _ _).portDown _)).finish h

theorem NextOk.huanenPortFail (port : Nat) : NextOk (execHuanenPortFail port s) :=
  Canonical.ite₁ (h.quiet ((Quiet.refl s).huanenDown _)).finish h

theorem NextOk.peerAccess (off : Nat) (op : PeerOp) (data : List Byte) : NextOk (execPeerAccess off op data s) := by
  refine Canonical.ite₁ h ?_
  split
  · exact h.modHost _
  · refine Canonical.ite₁ (h.modHost _) ?_
    split
    · exact Canonical.finish (h.quiet ((Quiet.fst ((Quiet.refl s).peerDo _ _ _ _) (by assumption)).refusePeer _))
    · exact Canonical.finish (h.quiet ((Quiet.fst ((Quiet.refl s).peerDo _ _ _ _) (by assumption)).answerHost _ _))

theorem NextOk.spdmRequest (what : Spdm) : NextOk (execSpdmRequest what s) := Canonical.ite₁ (h.modHost _) h

theorem NextOk.resetRelease (bifur0 bifur1 : Bool) (image : Image) : NextOk (execResetRelease bifur0 bifur1 image s) := by
  refine Canonical.ite₁ ?_ h
  extract_lets ok s1
  have h1 : Canonical s1 := h.resetState.modHost _
  exact Canonical.ite₁ (h1.upd rfl rfl rfl) h1

theorem NextOk.resetNAssertion : NextOk (execResetNAssertion s) := Canonical.ite₁ h.resetState h

theorem NextOk.powerGood : NextOk (execPowerGood s) := h.modHost _

theorem NextOk.lossOfPower : NextOk (execLossOfPower s) := h.resetState.modHost _

theorem NextOk.thermalTrip : NextOk (execThermalTrip s) := h.resetState.modHost _

theorem NextOk.functionReady (f : Ready) : NextOk (execFunctionReady f s) := Canonical.ite₁ (h.quiet ((Quiet.refl s).setReady _ _)) h

theorem NextOk.readyFall (f : Ready) : NextOk (execReadyFall f s) := by
  refine Canonical.finish ?_
  cases f with
  | releng => exact h.quiet (Quiet.refl s).relengFalls
  | kiln | cp => exact h.quiet ((Quiet.refl s).ioFalls _)
  | core n => exact Canonical.ite₁ (h.quiet ((Quiet.refl s).coreFalls _)) h
  | group n g => exact Canonical.ite₁ (h.quiet ((((Quiet.refl s).setReady _ _).readyFallRec _ _ _ _).stackFalls _)) h
  | stack n => exact Canonical.ite₁ (h.quiet ((Quiet.refl s).stackFalls _)) h
  | huanen p => exact Canonical.ite₁ (h.quiet ((Quiet.refl s).huanenDown _)) h
  | cxl x => exact Canonical.ite₁ (h.quiet ((Quiet.refl s).cxlFalls _)) h

theorem NextOk.leescfgWrite (v : W64) : NextOk (execLeescfgWrite v s) := h.quiet ((Quiet.refl s).writeLeescfg _)

theorem NextOk.registerWrite (off bits : Nat) (v : W64) : NextOk (execRegisterWrite off bits v s) :=
  Canonical.ite₁ (h.writeReg _ _).finish h

end

end Sys2Proof.Safety
end

section
/-! The canonical form under the vector floating-point and matrix instructions, the dual word, the entry of a clause and the stash. -/

namespace Sys2Proof.Safety

open Sys2Proof.Machine Sys2Proof.Laws

/-! ### Registers and FPFLAGS -/

theorem TeamOk.mergeFp {t : Team} (ex : BitVec 5) (h : TeamOk t) : TeamOk (mergeFp t ex) := h

theorem TeamOk.enterClause {t : Team} (hd : Header) (h : TeamOk t) : TeamOk (enterClause hd t) := h

section

variable {s : State} (h : Canonical s)
include h

theorem Canonical.mergeFp (tid : Nat) (ex : BitVec 5) : Canonical (Machine.modTeam s tid fun t => Machine.mergeFp t ex) :=
  h.modTeam tid fun _ ht => ht.mergeFp ex

theorem Canonical.writeFp (tid : Nat) (ws : List Wr) (ex : BitVec 5) :
    Canonical (Machine.modTeam (Machine.writeRegs s tid ws) tid fun t => Machine.mergeFp t ex) :=
  (h.writeRegs tid ws).mergeFp tid ex

theorem NextOk.scalarOp (i : Instr) (o : SBin) (f : Nat → Nat → Nat → Nat) : NextOk (scalarOp i o f s) :=
  h.issue fun _ _ _ => h.writeRegs _ _

theorem NextOk.sand (o : SBin) : NextOk (execSand o s) := scalarOp h _ _ _

theorem NextOk.sor (o : SBin) : NextOk (execSor o s) := scalarOp h _ _ _

theorem NextOk.sxor (o : SBin) : NextOk (execSxor o s) := scalarOp h _ _ _

theorem NextOk.smov (o : SBin) : NextOk (execSmov o s) := scalarOp h _ _ _

theorem NextOk.maskOp (i : Instr) (d : Nat) (f : Team → Mask) : NextOk (maskOp i d f s) :=
  h.issue fun _ _ _ => h.writeRegs _ _

theorem NextOk.vecOp (i : Instr) (k d : Nat) (ty : Ty) (f : Team → Nat → Nat) : NextOk (vecOp i k d ty f s) :=
  h.issue fun _ _ _ => h.writeRegs _ _

theorem NextOk.vcmp (o : VBin) (rel : Rel) : NextOk (execVcmp o rel s) := h.issue fun _ _ _ => ActOk.ite h (h.writeRegs _ _)

theorem NextOk.vaddc (o : VBin) (kc : Nat) : NextOk (execVaddc o kc s) := h.issue fun _ _ _ => ActOk.ite h (h.writeRegs _ _)

theorem NextOk.fpOp (i : Instr) (k d : Nat) (ty : Ty) (f : Team → Nat → FVal) : NextOk (fpOp i k d ty f s) :=
  h.issue fun _ _ _ => h.writeFp _ _ _

theorem NextOk.longArith (i : Instr) (k d : Nat) (ty : Ty) (f : Team → Nat → FVal) : NextOk (longArith i k d ty f s) :=
  h.issue fun _ _ _ => ActOk.ite h (h.launchOp _ _)

theorem NextOk.vfcmp (o : VBin) (rel : Rel) (u sig half : Bool) : NextOk (execVfcmp o rel u sig half s) :=
  h.issue fun _ _ _ => ActOk.ite h (h.writeFp _ _ _)

theorem NextOk.vfold (o : VUn) (op : FOp) (num : Bool) : NextOk (execVfold o op num s) := by
  refine h.issue fun tid t _ => ?_
  split
  · exact h
  · exact h.writeFp _ _ _

theorem NextOk.vscan (o : VUn) (op : FOp) (num excl : Bool) : NextOk (execVscan o op num excl s) :=
  h.issue fun _ _ _ => h.writeFp _ _ _

theorem NextOk.vreadl (k d a : Nat) (ty : Ty) (b : LSrc) : NextOk (execVreadl k d a ty b s) :=
  h.issue fun _ _ _ => ActOk.ite h (h.writeRegs _ _)

theorem NextOk.vwritel (k d a : Nat) (ty : Ty) (b : LSrc) : NextOk (execVwritel k d a ty b s) :=
  h.issue fun _ _ _ => Canonical.ite₁ (h.writeRegs _ _) h

theorem NextOk.ksetw (k d a : Nat) (b : SSrc) : NextOk (execKsetw k d a b s) :=
  h.issue fun _ _ _ => Canonical.ite₁ (h.writeRegs _ _) h

theorem NextOk.dualWord (x y : Slot) : NextOk (execDualWord x y s) := h.issue fun _ _ _ => h.writeFp _ _ _

/-! ### Clause entry -/

theorem NextOk.clauseEntry (hd : Header) : NextOk (execClauseEntry hd s) := by
  unfold execClauseEntry
  split
  · trivial
  · exact Canonical.ite₁ h (Canonical.ite₁ (Canonical.finish (Canonical.boundary _ (h.enterHandler _ _ _ _)))
      (Canonical.ite₁ (h.modTeam _ fun _ ht => ht) (h.modTeam _ fun _ ht => ht.enterClause hd)))

/-! ### The matrix engine -/

theorem Canonical.latchAfter (tid : Nat) (t : Team) (fs : Nat) (reuse : Option (Nat × Ty)) (words : List Nat) :
    Canonical (latchAfter s tid t fs reuse words) := by
  unfold Machine.latchAfter
  refine ite₁ (h.modCore _ _) ?_
  split
  · exact ite₁ h (h.modCore _ _)
  · exact h

theorem ActOk.mxAct (i : Instr) (t : Team) (tid : Nat) (mask : Mask) (m : Mx) (reuse : Option (Nat × Ty))
    (opnd : Option (W64 × Nat × Nat)) : ActOk (mxAct i s t tid mask m reuse opnd) := by
  unfold Machine.mxAct
  have h1 := h.latchAfter tid t (fsOf i) reuse (m.tiles.map (·.word))
  refine ite h1 ?_
  split
  · exact h1.launchOp _ _
  · split
    · refine ite h (ite h (ite (h1.launchOp _ _) (h1.launchOp _ _)))
    · exact h

theorem NextOk.mxmma (k fs d a b : Nat) (ty : Ty) (reuse sparse : Bool) (sm : Nat) :
    NextOk (execMxmma k fs d a b ty reuse sparse sm s) := h.issue fun _ _ _ => ActOk.mxAct h _ _ _ _ _ _ _

theorem NextOk.mxsca (k fs d a b e : Nat) : NextOk (execMxsca k fs d a b e s) :=
  h.issue fun _ _ _ => ActOk.mxAct h _ _ _ _ _ _ _

theorem NextOk.mxperm (k fs d a b : Nat) (ty : Ty) : NextOk (execMxperm k fs d a b ty s) :=
  h.issue fun _ _ _ => ActOk.mxAct h _ _ _ _ _ _ _

theorem NextOk.mxtrn (k fs d a : Nat) (ty : Ty) : NextOk (execMxtrn k fs d a ty s) :=
  h.issue fun _ _ _ => ActOk.mxAct h _ _ _ _ _ _ _

theorem NextOk.mxrsum (k fs d a : Nat) (ty : Ty) : NextOk (execMxrsum k fs d a ty s) :=
  h.issue fun _ _ _ => ActOk.mxAct h _ _ _ _ _ _ _

theorem Canonical.gatedRead {id : Nat} {o : Op} {m : Mx} {s1 : State} {r : Except EErr (List Byte)}
    (e : gatedRead s id = some (o, m, s1, r)) : Canonical s1 := by
  unfold Machine.gatedRead at e
  split at e
  · cases e
  · split at e
    · split at e
      · cases e
        exact h.quiet ((Quiet.refl s).engineRead _ _ _ _ _)
      · cases e
    · cases e

theorem NextOk.gatedRangeRead (op : Nat) : NextOk (execGatedRangeRead op s) := by
  unfold execGatedRangeRead
  refine NextOk.next ?_
  split
  · have h1 := h.gatedRead (by assumption)
    dsimp only
    split
    · exact Canonical.ite₁ (Canonical.finish (Canonical.advance _ _ (h1.modOp _ _))) (h1.modOp _ _).finish
    · exact (h1.modOp _ _).finish
  · exact h

theorem NextOk.mxGatedAbort (op : Nat) : NextOk (execMxGatedAbort op s) := by
  unfold execMxGatedAbort
  refine NextOk.next ?_
  split
  · have h1 := h.gatedRead (by assumption)
    exact Canonical.finish (Canonical.boundary _ ((h1.endOp _ _).enterHandler _ _ _ _))
  · exact h

theorem NextOk.mxCompletion (op : Nat) : NextOk (execMxCompletion op s) := by
  unfold execMxCompletion
  refine NextOk.next ?_
  split
  · exact h
  · split
    · exact Canonical.ite₁ h (((h.settleDest _ _ _).raiseBy _).endOp _ _)
    · exact h

/-! ### The stash -/

theorem NextOk.stashmap (k d a b : Nat) : NextOk (execStashmap k d a b s) := by
  refine h.issue fun tid t _ => ?_
  refine ActOk.ite h ?_
  split
  · exact h
  · exact ActOk.ite h (ActOk.ite h (h.upd rfl rfl rfl))

theorem NextOk.stashdrop (k d : Nat) (discard : Bool) : NextOk (execStashdrop k d discard s) := by
  refine h.issue fun tid t _ => ?_
  refine ActOk.ite h (ActOk.ite h (ActOk.ite h ?_))
  split
  · exact h
  · exact h.dropWindows _ _ _ _

end

end Sys2Proof.Safety
end

section
/-! O60: the canonical form under one step. Every instruction and event keeps it, and so does the choice of a step. -/

namespace Sys2Proof.Safety

open Sys2Proof.Machine Sys2Proof.Laws

section

variable {s : State} (h : Canonical s)
include h

/-- The dispatch: each instruction and event by its own lemma, or by that of the operation it shares with others. -/
theorem NextOk.exec (i : Instr) : NextOk (Machine.exec i s) := by
  cases i with
  | nop | br | jmp | trap => exact h.issue fun _ _ _ => h
  | call | scmp | ssel | kcnt | kfirst | ktest | ktov | kgetw => exact h.issue fun _ _ _ => h.writeRegs _ _
  | sadd | ssub | smul | smulh | sdiv | srem | sshl | sshr | smin | smax => exact scalarOp h ..
  | kand | kor | kxor | kandn | knot | kmov | kfromv => exact maskOp h ..
  | vadd | vsub | vmul | vmulh | vdiv | vrem | vmin | vmax | vand | vor | vxor | vshl | vshr | vrot | vbfe | vadds | vabs
    | vneg | vnot | vpopc | vclz | vmad | vsel | vmov | vbfi | vlane | vmulw | vqnt | vdqnt | vshfl | vxch => exact vecOp h ..
  | vfadd | vfsub | vfmul | vfma | vfrsqs | vfrcps | vfmin | vfmax | vfabs | vfneg | vfclass | vfrnd | vfscale | vfexp2
    | vflog2 | vfgetexp | vfgetman | vfcopysign | vcvt | vpack | vunpk => exact fpOp h ..
  | vfdiv | vfsqrt => exact longArith h ..
  | ld | lds | ldpk => exact h.issue fun _ _ _ => ActOk.loadAct _ _ _ _ _ _ _ _ _ _ _ h
  | st | sts => exact h.issue fun _ _ _ => ActOk.storeAct _ _ _ _ _ _ _ _ _ _ h
  | ldasof | ldasofs => exact h.issue fun _ _ _ => ActOk.asofAct _ _ _ _ _ _ _ _ h
  | atom | atcas | vatom => exact h.issue fun _ _ _ => ActOk.atomAct _ _ _ _ _ _ _ h
  | red | vred => exact h.issue fun _ _ _ => ActOk.redAct _ _ _ _ _ _ _ h
  | cpin | cpout | cppeer => exact h.issue fun _ _ _ => ActOk.copyAct h _ _ _ _ _ _ _
  | loadCompletion | atomicCompletion | longArithmeticCompletion | allowanceCompletion | historyCompletion => exact h.completeIf _ _
  | brc => exact brc h ..
  | brz => exact brz h ..
  | loop => exact loop h ..
  | exit => exact exit h ..
  | rtt => exact rtt h ..
  | yield => exact yield h ..
  | getsys => exact getsys h ..
  | setsys => exact setsys h ..
  | brkpt => exact brkpt h ..
  | mbox => exact mbox h ..
  | escalate => exact escalate h ..
  | sand => exact sand h ..
  | sor => exact sor h ..
  | sxor => exact sxor h ..
  | smov => exact smov h ..
  | ksetw => exact ksetw h ..
  | qpush => exact qpush h ..
  | qpop => exact qpop h ..
  | qtry => exact qtry h ..
  | bar => exact bar h ..
  | mxacq => exact mxacq h ..
  | mxrel => exact mxrel h ..
  | spawn => exact spawn h ..
  | batch => exact batch h ..
  | waitb => exact waitb h ..
  | cwait => exact cwait h ..
  | ctest => exact ctest h ..
  | vcmp => exact vcmp h ..
  | vaddc => exact vaddc h ..
  | vfcmp => exact vfcmp h ..
  | vfold => exact vfold h ..
  | vscan => exact vscan h ..
  | vapnd => exact vapnd h ..
  | vreadl => exact vreadl h ..
  | vwritel => exact vwritel h ..
  | pref => exact pref h ..
  | stashmap => exact stashmap h ..
  | stashdrop => exact stashdrop h ..
  | alinit => exact alinit h ..
  | aldec => exact aldec h ..
  | alinc => exact alinc h ..
  | alrd => exact alrd h ..
  | alfree => exact alfree h ..
  | fence => exact fence h ..
  | fenceo => exact fenceo h ..
  | fencer => exact fencer h ..
  | cmaint => exact cmaint h ..
  | tlblock => exact tlblock h ..
  | tlbunlock => exact tlbunlock h ..
  | pgmap => exact pgmap h ..
  | pgunmap => exact pgunmap h ..
  | stampget => exact stampget h ..
  | snap => exact snap h ..
  | pin => exact pin h ..
  | unpin => exact unpin h ..
  | horizon => exact horizon h ..
  | mxmma => exact mxmma h ..
  | mxsca => exact mxsca h ..
  | mxperm => exact mxperm h ..
  | mxtrn => exact mxtrn h ..
  | mxrsum => exact mxrsum h ..
  | qst => exact qst h ..
  | qstd => exact qstd h ..
  | qload => exact qload h ..
  | qsave => exact qsave h ..
  | nmc => exact nmc h ..
  | dualWord => exact dualWord h ..
  | clauseEntry => exact clauseEntry h ..
  | lateFaultTaken => exact lateFaultTaken h ..
  | storeAcknowledgement => exact storeAcknowledgement h ..
  | reductionFaultLogged => exact reductionFaultLogged h ..
  | mxCompletion => exact mxCompletion h ..
  | mxGatedAbort => exact mxGatedAbort h ..
  | serialisingRequest => exact serialisingRequest h ..
  | gatedRangeRead => exact gatedRangeRead h ..
  | aldecWaitServed => exact aldecWaitServed h ..
  | shareEviction => exact shareEviction h ..
  | queuePushDone => exact queuePushDone h ..
  | queuePopDone => exact queuePopDone h ..
  | barrierRelease => exact barrierRelease h ..
  | matrixOwnershipGrant => exact matrixOwnershipGrant h ..
  | waitbComplete => exact waitbComplete h ..
  | cwaitComplete => exact cwaitComplete h ..
  | engineAcceptance => exact engineAcceptance h ..
  | copyChunkDone => exact copyChunkDone h ..
  | copyStop => exact copyStop h ..
  | engineCompletionRecord => exact engineCompletionRecord h ..
  | quantCommandExecute => exact quantCommandExecute h ..
  | nmcPcShare => exact nmcPcShare h ..
  | trackedWriteAtHome => exact trackedWriteAtHome h ..
  | leesReclaim => exact leesReclaim h ..
  | horizonPropagation => exact horizonPropagation h ..
  | spawnBinTimer => exact spawnBinTimer h ..
  | spawnedTeamPlacement => exact spawnedTeamPlacement h ..
  | partitionRelease => exact partitionRelease h ..
  | partitionSpill => exact partitionSpill h ..
  | preemptionRequest => exact preemptionRequest h ..
  | preemptionDeadline => exact preemptionDeadline h ..
  | teamSave => exact teamSave h ..
  | saveStreamDone => exact saveStreamDone h ..
  | clusterRestoreDone => exact clusterRestoreDone h ..
  | launchAdmission => exact launchAdmission h ..
  | clusterPlacement => exact clusterPlacement h ..
  | launchCompletion => exact launchCompletion h ..
  | queueEnable => exact queueEnable h ..
  | queueTeardown => exact queueTeardown h ..
  | queueSuspend => exact queueSuspend h ..
  | queueUnsuspend => exact queueUnsuspend h ..
  | doorbell => exact doorbell h ..
  | tornClear => exact tornClear h ..
  | registerWrite => exact registerWrite h ..
  | leescfgWrite => exact leescfgWrite h ..
  | stackQuiesceRequest => exact stackQuiesceRequest h ..
  | stackQuiesceComplete => exact stackQuiesceComplete h ..
  | stackReturnToService => exact stackReturnToService h ..
  | hashmaskWrite => exact hashmaskWrite h ..
  | rateChangeRequest => exact rateChangeRequest h ..
  | retrainingStart => exact retrainingStart h ..
  | retrainingComplete => exact retrainingComplete h ..
  | rateChangeAbandon => exact rateChangeAbandon h ..
  | pcGrant => exact pcGrant h ..
  | patrolScrub => exact patrolScrub h ..
  | sramError => exact sramError h ..
  | timingDetection => exact timingDetection h ..
  | consume => exact consume h ..
  | rollbackRestore => exact rollbackRestore h ..
  | parkResume => exact parkResume h ..
  | parkResumeSkip => exact parkResumeSkip h ..
  | parkKillTeam => exact parkKillTeam h ..
  | contextResume => exact contextResume h ..
  | contextKill => exact contextKill h ..
  | errctlWrite => exact errctlWrite h ..
  | errheadWrite => exact errheadWrite h ..
  | rebase => exact rebase h
  | rebaseComplete => exact rebaseComplete h
  | kilnDrain => exact kilnDrain h ..
  | kilnCommit => exact kilnCommit h
  | kilnRestore => exact kilnRestore h ..
  | kilnReleaseGeneration => exact kilnReleaseGeneration h ..
  | kilnAbort => exact kilnAbort h
  | framecmdGo => exact framecmdGo h ..
  | frameChangeComplete => exact frameChangeComplete h
  | dbgHalt => exact dbgHalt h ..
  | dbgResume => exact dbgResume h ..
  | dbgStepInstruction => exact dbgStepInstruction h ..
  | dbgStepClause => exact dbgStepClause h ..
  | mbpopRead => exact mbpopRead h ..
  | hostMemRead => exact hostMemRead h ..
  | hostMemWrite => exact hostMemWrite h ..
  | cxlLinkUp => exact cxlLinkUp h ..
  | cxlLinkDown => exact cxlLinkDown h ..
  | huanenPortFail => exact huanenPortFail h ..
  | peerAccess => exact peerAccess h ..
  | spdmRequest => exact spdmRequest h ..
  | resetRelease => exact resetRelease h ..
  | powerGood => exact powerGood h
  | thermalTrip => exact thermalTrip h
  | functionReady => exact functionReady h ..
  | readyFall => exact readyFall h ..
  | resetNAssertion => exact resetNAssertion h
  | lossOfPower => exact lossOfPower h
  | hbmDataError => exact hbmDataError h ..

/-! ### What a team issues -/

theorem Canonical.fetchFault (tid : Nat) (t : Team) (f : Flt) : Canonical (fetchFault s tid t f) :=
  Canonical.finish (Canonical.boundary _ (h.enterHandler _ _ _ _))

theorem Canonical.fetchLit (t : Team) (n : Nat) : Canonical (fetchLit s t n).1 := by
  unfold Machine.fetchLit
  split
  · exact ite₂ (h.fetchWord _ _) h
  · exact h

theorem Canonical.fetch (t : Team) : Canonical (fetch s t).1 := by
  unfold Machine.fetch
  split
  · exact fst (h.fetchWord _ _) (by assumption)
  · have h1 := fst (h.fetchWord _ _) (by assumption)
    split
    · split <;> exact h1
    · split
      · exact fst (h1.fetchLit _ _) (by assumption)
      · exact fst (h1.fetchLit _ _) (by assumption)

theorem Canonical.startIssue (tid : Nat) : Canonical (startIssue s tid) :=
  Canonical.modTeam (s := { s with xlFloor := 0, xlSince := 0 }) tid (h.upd rfl rfl rfl) fun _ ht => ht

theorem Canonical.takePath (t : Team) (i : Instr) : Canonical (takePath s t i) := by
  unfold Machine.takePath
  split
  · exact h.modCore _ _
  · exact h

theorem Canonical.unready (tid : Nat) : Canonical (unready s tid) := h.upd rfl rfl rfl

theorem Canonical.setCur (c : Option Nat) : Canonical { s with cur := c } := h.upd rfl rfl rfl

theorem Canonical.setChosen (l : List (Nat × Nat)) : Canonical { s with chosen := l } := h.upd rfl rfl rfl

theorem Canonical.setAgenda (l : List (Nat × Instr)) : Canonical { s with agenda := l } := h.upd rfl rfl rfl

theorem Canonical.sampleReady : Canonical (sampleReady s) := h.upd rfl rfl rfl

end

/-! ### The choice of a step -/

/-- The state a choice carries is canonical. -/
def ChoiceOk : Choice → Prop
  | .run _ s | .done s => Canonical s

theorem ChoiceOk.ite {c : Prop} [Decidable c] {a b : Choice} (ha : ChoiceOk a) (hb : ChoiceOk b) :
    ChoiceOk (if c then a else b) := by
  split <;> assumption

/-- The end of a cycle changes no register of a team. -/
theorem TeamOk.tickTeam {s : State} {e : Nat × Team} (he : TeamOk e.2) : TeamOk (tickTeam s e).2 := he

section

variable {s : State} (h : Canonical s)
include h

theorem ChoiceOk.issueChoice (tid : Nat) : ChoiceOk (issueChoice s tid) := by
  unfold Machine.issueChoice
  have h1 := (h.startIssue tid).setCur (some tid)
  dsimp only
  split
  · exact h1
  · split
    · exact Canonical.fst (h1.fetch _) (by assumption)
    · have h2 := Canonical.fst (h1.fetch _) (by assumption)
      exact ite (h2.unready _) ((h2.setChosen _).takePath _ _)
    · have h2 := Canonical.fst (h1.fetch _) (by assumption)
      exact (h2.fetchFault _ _ _).setChosen _

/-! ### The end of a cycle -/

theorem Canonical.evictDirty : Canonical (evictDirty s) :=
  h.quiet (Quiet.foldl _ (Quiet.refl s) fun _ _ hs => hs.writeBack _)

theorem Canonical.evictCtu : Canonical (evictCtu s) := h.upd rfl rfl rfl

theorem Canonical.tick : Canonical (tick s) := by
  have h1 := h.evictCtu.evictDirty
  refine mk h1.mem (fun e he => ?_) h1.counters
  obtain ⟨e', he', rfl⟩ := List.mem_map.mp he
  exact TeamOk.tickTeam (h.teams e' he')

theorem ChoiceOk.issueOrDue : ChoiceOk (issueOrDue s) := by
  unfold Machine.issueOrDue
  split
  · exact issueChoice h _
  · split
    · exact h
    · exact h.tick

theorem ChoiceOk.innerChoice : ChoiceOk (innerChoice s) := by
  unfold Machine.innerChoice
  split
  · exact issueOrDue h
  · split
    · exact issueChoice h _
    · exact issueOrDue h.sampleReady

theorem ChoiceOk.chooseStep : ChoiceOk (chooseStep s) := by
  unfold Machine.chooseStep
  split
  · exact ite (innerChoice h) (ite (h.setAgenda _) (h.setAgenda _))
  · exact innerChoice h

/-! ### The end of a step -/

theorem Canonical.dropHeld (tid : Nat) : Canonical (dropHeld s tid) := by
  unfold Machine.dropHeld
  split
  · exact ite₁ ((h.unready tid).setChosen _) h
  · exact h

theorem Canonical.afterStep : Canonical (afterStep s) := by
  unfold Machine.afterStep
  dsimp only
  split
  · exact (h.dropHeld _).upd rfl rfl rfl
  · exact h.upd rfl rfl rfl

end

theorem NextOk.onNext {r : Host.Outcome State Fault Refusal} (hr : NextOk r) : NextOk (onNext Machine.afterStep r) := by
  cases r with
  | next u => exact Canonical.afterStep hr
  | fault _ => trivial
  | refused _ => trivial

theorem NextOk.step {s : State} (h : Canonical s) : NextOk (step s) := by
  unfold Machine.step
  have hc := ChoiceOk.chooseStep h
  split
  · rename_i hs
    rw [hs] at hc
    exact (exec hc _).onNext
  · rename_i hs
    rw [hs] at hc
    exact Canonical.afterStep hc

/-- A step ends with no current team and no floor of a translation pending. -/
theorem step_ends {s s' : State} (hs : step s = .next s') : s'.cur = none ∧ s'.xlFloor = 0 := by
  have hn (r : Host.Outcome State Fault Refusal) (hr : onNext Machine.afterStep r = .next s') : ∃ u, s' = Machine.afterStep u := by
    cases r with
    | next u => exact ⟨u, (Host.Outcome.next.inj hr).symm⟩
    | fault _ => cases hr
    | refused _ => cases hr
  obtain ⟨u, rfl⟩ : ∃ u, s' = Machine.afterStep u := by
    unfold Machine.step at hs
    split at hs
    · exact hn _ hs
    · exact ⟨_, (Host.Outcome.next.inj hs).symm⟩
  exact afterStep_ends u

end Sys2Proof.Safety

namespace Sys2Proof.Proofs.Invariant

open Sys2Proof.Machine Sys2Proof.Safety

/-- Settles O60: whatever the step chooses, its instruction or event keeps the canonical form, and the end of the step leaves no team current
and no floor pending. -/
theorem stepKeepsInv : Obligations.StepKeepsInv := by
  unfold Obligations.StepKeepsInv
  intro s s' hinv hs
  obtain ⟨h, -, -⟩ := hinv
  have h1 := NextOk.step h
  rw [hs] at h1
  exact ⟨h1, step_ends hs⟩

end Sys2Proof.Proofs.Invariant
end

section
/-! O37: the matrix instructions (spec/15 R300-R312; spec/05 R130-R135). First the issue, whose one action `mxAct` has an equation per case;
then the rows of a tile, type by type; last the elements that are written. -/

namespace Sys2Proof.Laws

open Sys2Proof.Machine Sys2Proof.Spec

/-! ### Entries of a row -/

theorem getD_map_range {α : Type} (f : Nat → α) (x : α) {j n : Nat} (h : j < n) : ((List.range n).map f).getD j x = f j := by
  simp [h]

theorem getD_flatMap_pair {α : Type} (f g : Nat → α) (x : α) {j n : Nat} (h : j < n) :
    let l := (List.range n).flatMap fun j => [f j, g j]
    [l.getD (2 * j) x, l.getD (2 * j + 1) x] = [f j, g j] := by
  induction n generalizing f g j with
  | zero => omega
  | succ n ih =>
    simp only [List.range_succ_eq_map, List.flatMap_cons, List.flatMap_map]
    cases j with
    | zero => rfl
    | succ j => exact ih (fun j => f (j + 1)) (fun j => g (j + 1)) (by omega)

@[simp] theorem rowBits_one (x : W32) : rowBits [x] = x.toNat := rfl

/-! ### The action of a matrix instruction -/

section

variable {i : Instr} {s : State} {t : Team} {tid : Nat} {mask : Mask} {m : Mx} {reuse : Option (Nat × Ty)}

theorem mxAct_empty {opnd : Option (W64 × Nat × Nat)} (h : m.tiles = []) :
    mxAct i s t tid mask m reuse opnd = .go (latchAfter s tid t (fsOf i) reuse (m.tiles.map (·.word))) := by
  simp only [mxAct, if_pos h]

theorem mxAct_launch (h : m.tiles ≠ []) : mxAct i s t tid mask m reuse none =
    .go (launchOp (latchAfter s tid t (fsOf i) reuse (m.tiles.map (·.word))) tid (newOp t tid i ⟨[], [], []⟩ (.mx m))) := by
  simp only [mxAct, if_neg h]

theorem mxAct_outside {addr : W64} {n align : Nat} (h : m.tiles ≠ [])
    (ha : ∀ cid off, aperture s t addr n ≠ some (.part cid off)) :
    mxAct i s t tid mask m reuse (some (addr, n, align)) = .fault s (fltAt .apertureBounds mask addr 0) := by
  rw [mxAct, if_neg h]
  dsimp only
  split
  · exact absurd ‹_› (ha _ _)
  · rfl

section

variable {addr : W64} {n align cid off : Nat} (h : m.tiles ≠ []) (ha : aperture s t addr n = some (.part cid off))
include h ha

theorem mxAct_misaligned (hm : addr.toNat % align ≠ 0) :
    mxAct i s t tid mask m reuse (some (addr, n, align)) = .fault s (fltAt .misaligned mask addr 0) := by
  simp only [mxAct, if_neg h, ha, if_pos hm]

variable (hm : addr.toNat % align = 0)
include hm

theorem mxAct_poisoned (hw : inWindow s cid off n = false) (hp : partPoisoned s cid off n = true) :
    mxAct i s t tid mask m reuse (some (addr, n, align)) = .fault s (fltAt .dataUncorrectable mask addr (partKey cid off)) := by
  simp [mxAct, h, ha, hm, hw, hp]

theorem mxAct_reads (hw : inWindow s cid off n = false) (hp : partPoisoned s cid off n = false) :
    mxAct i s t tid mask m reuse (some (addr, n, align)) =
      .go (launchOp (latchAfter s tid t (fsOf i) reuse (m.tiles.map (·.word))) tid (newOp t tid i ⟨[], [], []⟩
        (.mx { m with bcrew := cid, boff := off, blen := n, bva := addr, gated := inWindow s cid off n }))) := by
  simp [mxAct, h, ha, hm, hw, hp]

theorem mxAct_gated (hw : inWindow s cid off n = true) :
    mxAct i s t tid mask m reuse (some (addr, n, align)) =
      .wait (launchOp (latchAfter s tid t (fsOf i) reuse (m.tiles.map (·.word))) tid (newOp t tid i ⟨[], [], []⟩
        (.mx { m with bcrew := cid, boff := off, blen := n, bva := addr, gated := inWindow s cid off n })))
        (.hold (latchAfter s tid t (fsOf i) reuse (m.tiles.map (·.word))).nextId) := by
  simp [mxAct, h, ha, hm, hw]

end

end

/-! ### MXMMA -/

/-- The mark of a block is a bit of the bitmap (spec/15 R306). -/
theorem marked_eq (ty : Ty) (sparse : Bool) (bm kb nb : Nat) :
    marked ty sparse bm kb nb = (sparse && bm.testBit (kb * (nOf ty / 8) + nb)) := by
  rw [marked, Nat.testBit_eq_decide_div_mod_eq]; rfl

theorem marked_iff (ty : Ty) (sparse : Bool) (bm kb nb : Nat) :
    marked ty sparse bm kb nb = true ↔ sparse = true ∧ bm.testBit (kb * (nOf ty / 8) + nb) = true := by
  rw [marked_eq, Bool.and_eq_true]

/-- The blocks of B's first eight rows have the bitmap's first bits, whatever N is. -/
theorem marked_first (ty : Ty) (sparse : Bool) (bm nb : Nat) : marked ty sparse bm 0 nb = (sparse && bm.testBit nb) := by
  rw [marked_eq, Nat.zero_mul, Nat.zero_add]

theorem mmaRow_getD {ty : Ty} (hd : ty ≠ .d) {sparse : Bool} {bm : Nat} {cols : List Nat} {a : Nat} {c : List W32} {j : Nat}
    (hj : j < nOf ty) : (mmaRow ty sparse bm cols a c).getD j 0 = BitVec.ofNat 32
      (mmaElem ty (fun kb => marked ty sparse bm kb (j / 8)) a (cols.getD j 0) (c.getD j 0).toNat) := by
  simp only [mmaRow, if_neg hd, ← List.map_eq_flatMap]
  exact getD_map_range _ _ hj

theorem mmaRow_d_getD {sparse : Bool} {bm : Nat} {cols : List Nat} {a : Nat} {c : List W32} {j : Nat} (hj : j < 16) :
    let row := mmaRow .d sparse bm cols a c
    let z := mmaElem .d (fun kb => marked .d sparse bm kb (j / 8)) a (cols.getD j 0)
      ((c.getD (2 * j) 0).toNat + 2 ^ 32 * (c.getD (2 * j + 1) 0).toNat)
    [row.getD (2 * j) 0, row.getD (2 * j + 1) 0] = [BitVec.ofNat 32 z, BitVec.ofNat 32 (z / 2 ^ 32)] :=
  getD_flatMap_pair _ _ _ hj

/-! ### The types that round in groups of eight (spec/05 R130, R131) -/

/-- The types whose products and elements are added in groups of eight. -/
def Grouped (ty : Ty) : Prop := ty = .t8 ∨ ty = .t6 ∨ ty = .bf ∨ ty = .h

theorem Grouped.nOf_eq {ty : Ty} (h : Grouped ty) : nOf ty = 32 := by rcases h with rfl | rfl | rfl | rfl <;> rfl

theorem Grouped.ne_d {ty : Ty} (h : Grouped ty) : ty ≠ .d := by rcases h with rfl | rfl | rfl | rfl <;> simp

/-- Groups of eight numbers `f`, each added to `c` with one rounding but those that `skip` leaves out. -/
def addGroups (ty : Ty) (skip : Nat → Prop) [DecidablePred skip] (f : Nat → Fp.Num) (c : Nat) : Nat :=
  (List.range (kOf ty / 8)).foldl (fun c g => if skip g then c
    else Fp.accumulate Fp.f32 c (Fp.groupSum ((List.range 8).map fun e => f (8 * g + e)))) c

theorem mmaElem_grouped {ty : Ty} (h : Grouped ty) (skip : Nat → Bool) (a b c : Nat) : mmaElem ty skip a b c =
    addGroups ty (fun g => skip g = true) (fun k => Fp.mul (elemNum ty (elemAt ty a k)) (elemNum ty (elemAt ty b k))) c := by
  rcases h with rfl | rfl | rfl | rfl <;> rfl

theorem rsumRow_grouped {ty : Ty} (h : Grouped ty) (a : Nat) (c : List W32) : rsumRow ty a c =
    [BitVec.ofNat 32 (addGroups ty (fun _ => False) (fun k => elemNum ty (elemAt ty a k)) (rowBits c))] := by
  rcases h with rfl | rfl | rfl | rfl <;> rfl

/-! ### The types of fused chains (spec/05 R133, R134) -/

/-- Fused multiply-adds of the elements of `a` with `y` over ascending k, none of them where `skip` holds. -/
def fusedChain (ty : Ty) (skip : Bool) (a : Nat) (y : Nat → Nat) (c : Nat) : Nat :=
  (List.range 8).foldl (fun c k => if skip then c else (Fp.fFma (Fp.fmtOf ty) .rne (elemAt ty a k) (y k) c).bits) c

/-- All of K is one block of B, so one mark decides for the whole chain. -/
theorem mmaElem_chain {ty : Ty} (h : ty = .f ∨ ty = .d) (skip : Nat → Bool) (a b c : Nat) :
    mmaElem ty skip a b c = fusedChain ty (skip 0) a (elemAt ty b) c := by
  have hK : mmaElem ty skip a b c = (List.range 8).foldl (fun c k =>
      if skip (k / 8) then c else (Fp.fFma (Fp.fmtOf ty) .rne (elemAt ty a k) (elemAt ty b k) c).bits) c := by
    rcases h with rfl | rfl <;> rfl
  rw [hK]
  refine List.foldl_ext _ _ _ fun c k hk => ?_
  rw [Nat.div_eq_of_lt (List.mem_range.mp hk)]

theorem rsumRow_f (a : Nat) (x : W32) :
    rsumRow .f a [x] = [BitVec.ofNat 32 (fusedChain .f false a (fun _ => 0x3F800000) x.toNat)] := rfl

theorem rsumRow_d (a : Nat) (x y : W32) :
    let z := fusedChain .d false a (fun _ => 0x3FF0000000000000) (x.toNat + 2 ^ 32 * y.toNat)
    rsumRow .d a [x, y] = [BitVec.ofNat 32 z, BitVec.ofNat 32 (z / 2 ^ 32)] := rfl

/-! ### Sums and products of bytes modulo 2^32 (spec/05 R132) -/

/-- Byte `k` of a bit string, as a signed number of 32 bits. -/
def byteOf (x k : Nat) : BitVec 32 := (BitVec.ofNat 8 (x / 2 ^ (8 * k))).signExtend 32

theorem ofInt_byte (x k : Nat) : BitVec.ofInt 32 (toSigned 8 (elemAt .i8 x k)) = byteOf x k := by
  have h := toSigned_eq (by decide) (BitVec.ofNat 8 (x / 2 ^ (8 * k)))
  rw [BitVec.toNat_ofNat] at h
  exact congrArg (BitVec.ofInt 32) h

theorem ofInt_toNat_add (c : BitVec 32) (v : Int) : ofInt 32 ((c.toNat : Int) + v) = (c + BitVec.ofInt 32 v).toNat := by
  rw [ofInt_eq, BitVec.ofInt_add, BitVec.ofInt_natCast, BitVec.ofNat_toNat, BitVec.setWidth_eq]

theorem mmaElem_i8 (skip : Nat → Bool) (a b : Nat) (c : W32) : BitVec.ofNat 32 (mmaElem .i8 skip a b c.toNat) =
    (List.range 64).foldl (fun c k => if skip (k / 8) then c else c + byteOf a k * byteOf b k) c := by
  have h : mmaElem .i8 skip a b c.toNat =
      ((List.range 64).foldl (fun c k => if skip (k / 8) then c else c + byteOf a k * byteOf b k) c).toNat := by
    refine List.foldl_hom BitVec.toNat fun c k => ?_
    rw [apply_ite BitVec.toNat, ofInt_toNat_add, BitVec.ofInt_mul, ofInt_byte, ofInt_byte]
  rw [h, BitVec.ofNat_toNat, BitVec.setWidth_eq]

theorem rsumRow_i8 (a : Nat) (x : W32) : rsumRow .i8 a [x] = [(List.range 64).foldl (fun c k => c + byteOf a k) x] := by
  have h : (List.range 64).foldl (fun c k => ofInt 32 ((c : Int) + toSigned 8 (elemAt .i8 a k))) x.toNat =
      ((List.range 64).foldl (fun c k => c + byteOf a k) x).toNat :=
    List.foldl_hom BitVec.toNat fun c k => by rw [ofInt_toNat_add, ofInt_byte]
  calc rsumRow .i8 a [x]
      = [BitVec.ofNat 32 ((List.range 64).foldl (fun c k => ofInt 32 ((c : Int) + toSigned 8 (elemAt .i8 a k))) x.toNat)] := rfl
    _ = _ := by rw [h, BitVec.ofNat_toNat, BitVec.setWidth_eq]

/-! ### MXSCA (spec/05 R135) -/

theorem scaRow_getD {eb : List Byte} {ea : Nat} {c p : List W32} {j : Nat} (hj : j < 32) : (scaRow eb ea c p).getD j 0 =
    BitVec.ofNat 32 (scaElem ea (eb.getD j 0).toNat (c.getD j 0).toNat (p.getD j 0).toNat) := getD_map_range _ _ hj

theorem scaElem_nanScale {ea eb : Nat} (c p : Nat) (h : ea = 255 ∨ eb = 255) : scaElem ea eb c p = 0x7FC00000 := by
  rw [scaElem, if_pos h]; rfl

theorem scaElem_nanOperand {ea eb c p : Nat} {z : Fp.Res} (ha : ea ≠ 255) (hb : eb ≠ 255) (h : Fp.nanResult Fp.f32 [c, p] = some z) :
    scaElem ea eb c p = z.bits := by
  rw [scaElem, if_neg (by simp [ha, hb]), h]

theorem scaElem_rounds {ea eb c p : Nat} (ha : ea ≠ 255) (hb : eb ≠ 255) (h : Fp.nanResult Fp.f32 [c, p] = none) :
    scaElem ea eb c p = (Fp.roundNum Fp.f32 .rne
      (Fp.add .rne (Fp.toNum Fp.f32 c) (Fp.scaleNum ((ea : Int) + eb - 254) (Fp.toNum Fp.f32 p)))).bits := by
  rw [scaElem, if_neg (by simp [ha, hb]), h]

/-! ### MXTRN (spec/15 R311) -/

theorem trnRow_word {ty : Ty} (h : ty.is64 = false) (a : List (List W32)) (i : Nat) {j : Nat} (hj : j < 32) :
    (trnRow ty a i).getD j 0 = (a.getD j []).getD i 0 := by
  rw [trnRow, getD_map_range _ _ hj, h]; rfl

/-- The 16 rows of 64-bit elements from row `i / 16 * 16` on are transposed among themselves. -/
theorem trnRow_pair {ty : Ty} (hty : ty.is64 = true) (a : List (List W32)) (i : Nat) {j h : Nat} (hj : j < 16) (hh : h < 2) :
    (trnRow ty a i).getD (2 * j + h) 0 = (a.getD (i / 16 * 16 + j) []).getD (2 * (i % 16) + h) 0 := by
  have hq : (2 * j + h) / 2 = j := by omega
  have hr : (2 * j + h) % 2 = h := by omega
  rw [trnRow, getD_map_range _ _ (by omega), hty, if_pos rfl, hq, hr]

end Sys2Proof.Laws

namespace Sys2Proof.Proofs.Matrix

open Sys2Proof.Machine Sys2Proof.Spec Sys2Proof.Laws

/-! ### At issue -/

/-- A matrix instruction without a memory operand. -/
theorem issues_plain {s : State} {tid : Nat} {t : Team} {i : Instr} {mask : Mask} {m : Mx}
    (he : exec i s = .next (applyAct s tid (wordsOf i) t (mxAct i s t tid mask m none none))) :
    let s1 := latchAfter s tid t (fsOf i) none (m.tiles.map (·.word))
    (m.tiles = [] → Completes i s tid s1) ∧
    (m.tiles ≠ [] → Completes i s tid (launchOp s1 tid (newOp t tid i ⟨[], [], []⟩ (.mx m)))) := by
  refine ⟨fun h => ?_, fun h => ?_⟩
  · rw [Completes, he, mxAct_empty h]; rfl
  · rw [Completes, he, mxAct_launch h]; rfl

/-- A matrix instruction with an operand in memory: the operand's place, its alignment, the stash window, then its bytes. -/
theorem issues_operand {s : State} {tid : Nat} {t : Team} {i : Instr} {mask : Mask} {m : Mx} {reuse : Option (Nat × Ty)} {addr : W64}
    {n align : Nat} (he : exec i s = .next (applyAct s tid (wordsOf i) t (mxAct i s t tid mask m reuse (some (addr, n, align))))) :
    let s1 := latchAfter s tid t (fsOf i) reuse (m.tiles.map (·.word))
    (m.tiles = [] → Completes i s tid s1) ∧
    (m.tiles ≠ [] →
      ((∀ cid off, aperture s t addr n ≠ some (.part cid off)) → Faults i s tid t s (fltAt .apertureBounds mask addr 0)) ∧
      (∀ cid off, aperture s t addr n = some (.part cid off) →
        let gated := inWindow s cid off n
        let s2 := launchOp s1 tid (newOp t tid i ⟨[], [], []⟩
          (.mx { m with bcrew := cid, boff := off, blen := n, bva := addr, gated := gated }))
        (addr.toNat % align ≠ 0 → Faults i s tid t s (fltAt .misaligned mask addr 0)) ∧
        (addr.toNat % align = 0 → gated = true → Blocks i s tid s2 (.hold s1.nextId)) ∧
        (addr.toNat % align = 0 → gated = false →
          (partPoisoned s cid off n = true → Faults i s tid t s (fltAt .dataUncorrectable mask addr (partKey cid off))) ∧
          (partPoisoned s cid off n = false → Completes i s tid s2)))) := by
  refine ⟨fun h => ?empty, fun h => ⟨fun ha => ?outside, fun cid off ha =>
    ⟨fun hm => ?misaligned, fun hm hw => ?gated, fun hm hw => ⟨fun hp => ?poisoned, fun hp => ?reads⟩⟩⟩⟩
  case empty => rw [Completes, he, mxAct_empty h]; rfl
  case outside => rw [Faults, he, mxAct_outside h ha]; rfl
  case misaligned => rw [Faults, he, mxAct_misaligned h ha hm]; rfl
  case gated => rw [Blocks, he, mxAct_gated h ha hm hw]; rfl
  case poisoned => rw [Faults, he, mxAct_poisoned h ha hm hw hp]; rfl
  case reads => rw [Completes, he, mxAct_reads h ha hm hw hp]; rfl

/-- MXMMA and MXSCA have a memory operand, the other three none (spec/15 R300). -/
theorem matrixIssues : Spec.MatrixIssues := by
  intro s tid t k fs d a b
  exact ⟨fun ty reuse sparse sm hi => issues_operand (issue_go hi _), fun e hi => issues_operand (issue_go hi _),
    fun ty hi => issues_plain (issue_go hi _), fun ty hi => issues_plain (issue_go hi _), fun ty hi => issues_plain (issue_go hi _)⟩

/-! ### The rows of a tile -/

section

variable {m : Mx} {brd : List Byte} {cols : List Nat} {t : MxTile} {i : Nat}

theorem tileRow_mma {sparse : Bool} {bm : Nat} (h : m.kind = .mma sparse bm) :
    tileRow m brd cols t i = mmaRow m.ty sparse bm cols (rowBits (t.a.getD i [])) (t.c.getD i []) := by simp only [tileRow, h]

theorem tileRow_sca (h : m.kind = .sca) :
    tileRow m brd cols t i = scaRow brd ((t.x.getD i 0).toNat % 256) (t.c.getD i []) (t.a.getD i []) := by simp only [tileRow, h]

theorem tileRow_perm (h : m.kind = .perm) : tileRow m brd cols t i = t.a.getD ((t.x.getD i 0).toNat % 32) [] := by
  simp only [tileRow, h]

theorem tileRow_trn (h : m.kind = .trn) : tileRow m brd cols t i = trnRow m.ty t.a i := by simp only [tileRow, h]

theorem tileRow_rsum (h : m.kind = .rsum) :
    tileRow m brd cols t i = rsumRow m.ty (rowBits (t.a.getD i [])) (t.c.getD i []) := by simp only [tileRow, h]

end

/-- The rows without a rounding (spec/15 R303, R306, R310-R312). -/
theorem matrixExactRows : Spec.MatrixExactRows := by
  intro m brd cols t i
  refine ⟨tileRow_perm, fun hk hty j hj => ?word, fun hk hty j h hj hh => ⟨fun hi => ?low, fun hi hi' => ?high⟩,
    fun sparse bm hk hty j hj => ?mma, fun hk hty x hx => ?rsum⟩
  case word => rw [tileRow_trn hk, trnRow_word hty _ _ hj]
  case low =>
    have hq : i / 16 * 16 + j = j := by omega
    rw [tileRow_trn hk, trnRow_pair hty _ _ hj hh, hq, Nat.mod_eq_of_lt hi]
  case high =>
    have hq : i / 16 * 16 = 16 := by omega
    have hr : i % 16 = i - 16 := by omega
    rw [tileRow_trn hk, trnRow_pair hty _ _ hj hh, hq, hr]
  case mma =>
    rw [tileRow_mma hk, hty, mmaRow_getD (by simp) hj, mmaElem_i8]
    simp only [marked_iff]
    rfl
  case rsum =>
    rw [tileRow_rsum hk, hty, hx, rsumRow_i8]
    rfl

section

variable {m : Mx} {brd : List Byte} {cols : List Nat} {t : MxTile} {i : Nat}

/-- The two instructions that add groups of eight, for one type. -/
theorem rows_grouped {ty : Ty} (h : Grouped ty) (hty : m.ty = ty) :
    (∀ sparse bm, m.kind = .mma sparse bm → ∀ j, j < 32 → (tileRow m brd cols t i).getD j 0 = BitVec.ofNat 32
      (addGroups ty (fun g => sparse = true ∧ bm.testBit (g * 4 + j / 8) = true)
        (fun k => Fp.mul (elemNum ty (elemAt ty (rowBits (t.a.getD i [])) k)) (elemNum ty (elemAt ty (cols.getD j 0) k)))
        ((t.c.getD i []).getD j 0).toNat)) ∧
    (m.kind = .rsum → ∀ x, t.c.getD i [] = [x] → tileRow m brd cols t i = [BitVec.ofNat 32
      (addGroups ty (fun _ => False) (fun k => elemNum ty (elemAt ty (rowBits (t.a.getD i [])) k)) x.toNat)]) := by
  refine ⟨fun sparse bm hk j hj => ?mma, fun hk x hx => ?rsum⟩
  case mma =>
    rw [tileRow_mma hk, hty, mmaRow_getD h.ne_d (h.nOf_eq ▸ hj), mmaElem_grouped h]
    simp only [addGroups, marked_iff, h.nOf_eq]
  case rsum => rw [tileRow_rsum hk, hty, rsumRow_grouped h, hx, rowBits_one]

theorem mma_f {sparse : Bool} {bm : Nat} (hk : m.kind = .mma sparse bm) (hty : m.ty = .f) {j : Nat} (hj : j < 32) :
    (tileRow m brd cols t i).getD j 0 = BitVec.ofNat 32 (fusedChain .f (sparse && bm.testBit (j / 8)) (rowBits (t.a.getD i []))
      (elemAt .f (cols.getD j 0)) ((t.c.getD i []).getD j 0).toNat) := by
  rw [tileRow_mma hk, hty, mmaRow_getD (by simp) hj, mmaElem_chain (.inl rfl), marked_first]

theorem mma_d {sparse : Bool} {bm : Nat} (hk : m.kind = .mma sparse bm) (hty : m.ty = .d) {j : Nat} (hj : j < 16) :
    let z := fusedChain .d (sparse && bm.testBit (j / 8)) (rowBits (t.a.getD i [])) (elemAt .d (cols.getD j 0))
      (((t.c.getD i []).getD (2 * j) 0).toNat + 2 ^ 32 * ((t.c.getD i []).getD (2 * j + 1) 0).toNat)
    [(tileRow m brd cols t i).getD (2 * j) 0, (tileRow m brd cols t i).getD (2 * j + 1) 0] =
      [BitVec.ofNat 32 z, BitVec.ofNat 32 (z / 2 ^ 32)] := by
  rw [tileRow_mma hk, hty, mmaRow_d_getD hj, mmaElem_chain (.inr rfl), marked_first]

end

/-- The rows that round (spec/05 R130-R135). -/
theorem matrixRoundedRows : Spec.MatrixRoundedRows := by
  intro m brd cols t i
  refine ⟨rows_grouped (.inl rfl), rows_grouped (.inr (.inl rfl)), rows_grouped (.inr (.inr (.inl rfl))),
    rows_grouped (.inr (.inr (.inr rfl))), fun _ _ hk hty _ hj => mma_f hk hty hj, fun _ _ hk hty _ hj => mma_d hk hty hj,
    fun hk hty x hx => ?rsumF, fun hk hty x y hx => ?rsumD, fun hk j hj => ?sca⟩
  case rsumF => rw [tileRow_rsum hk, hty, hx, rsumRow_f]; rfl
  case rsumD => rw [tileRow_rsum hk, hty, hx, rsumRow_d]; rfl
  case sca =>
    dsimp only
    rw [tileRow_sca hk, scaRow_getD hj]
    refine ⟨fun h => ?_, fun ha hb => ⟨fun z hz => ?_, fun hz => ?_⟩⟩
    · rw [scaElem_nanScale _ _ h]; rfl
    · rw [scaElem_nanOperand ha hb hz]
    · rw [scaElem_rounds ha hb hz]

/-! ### What is written -/

/-- A column's pitch is its K elements in bytes (spec/15 R303). -/
theorem pitchOf_eq (ty : Ty) : pitchOf ty = match ty with
    | .t8 => 48
    | .t6 => 36
    | .i8 | .d => 64
    | .bf | .h | .f => 32
    | _ => pitchOf ty := by
  cases ty <;> rfl

theorem nOf_eq (ty : Ty) : nOf ty = if ty = .d then 16 else 32 := by cases ty <;> rfl

/-- Element by element: a tile of the instruction, an active row of it, a place in that row. -/
theorem matrixWritesItsRows : Spec.MatrixWritesItsRows := by
  intro m brd pitch cols key x
  have hc : cols = (List.range (nOf m.ty)).map fun j => leNat ((brd.drop (pitchOf m.ty * j)).take (pitchOf m.ty)) := by
    rw [nOf_eq, show pitchOf m.ty = pitch from pitchOf_eq _]
  rw [hc]
  simp only [mxDest, List.mem_flatMap, List.mem_filter, List.mem_range, List.mem_map, beq_iff_eq, Prod.exists, Prod.mk.injEq,
    List.mem_zipIdx_iff_getElem?]
  constructor
  · rintro ⟨u, hu, l, ⟨hl, hact⟩, y, j, hx, hkey, rfl⟩
    exact ⟨u, hu, l, j, hl, hact, hkey.symm, hx⟩
  · rintro ⟨u, hu, l, j, hl, hact, hkey, hx⟩
    exact ⟨u, hu, l, ⟨hl, hact⟩, x, j, hx, hkey.symm, rfl⟩

/-- Settles O37: the issue, the rows that are exact, the rows that round, and the elements written. -/
theorem matrixInstructions : Obligations.MatrixInstructions :=
  ⟨matrixIssues, matrixExactRows, matrixRoundedRows, matrixWritesItsRows⟩

end Sys2Proof.Proofs.Matrix
end

section
/-! O53, O54 and O55: decoding and encoding agree (spec/07 R139-R168). A full-form word is its fields, and a field of its modifier reads back where
the parts beside it are within their widths; so an instruction's words decode to it once each operand form reads back. The decoder accepts
only a candidate that encodes back, which is the other direction. -/

namespace Sys2Proof

/-- Each field of a full-form word within its width (spec/07 R152). -/
def Raw.Fits (r : Raw) : Prop :=
  r.op < 256 ∧ r.k < 16 ∧ r.fs < 4 ∧ r.d < 2048 ∧ r.a < 2048 ∧ r.b < 2048 ∧ r.m < 32768

/-- The candidate of the fields of a full-form word outside the branch subform, in the group `g` of 16 opcodes. -/
def Raw.candidate (r : Raw) (g : Nat) (lit : BitVec 64) : Option Instr :=
  match g with
  | 0x0 => candControl r
  | 0x1 => candScalar r lit
  | 0x2 => candMask r
  | 0x3 => candSync r
  | 0x4 => candInt r lit
  | 0x5 => candInt2 r lit
  | 0x6 => candFloat r lit
  | 0x7 | 0x8 | 0x9 => candConv r lit
  | 0xA => candMem r
  | 0xC => candAtomic r lit
  | 0xD => candFence r
  | 0xE | 0xF => candEngine r
  | _ => none

/-- An instruction has words, and they decode to it. -/
def Instr.RoundTrips (i : Instr) : Prop :=
  ∃ w, encode i = some w ∧ w.first < 2 ^ 64 ∧ decodeWords w.first (w.lit.getD 0) = .ok i


section
variable {r : Raw} (h : r.Fits)
include h

theorem unpack_pack : unpack (pack r) = r := by
  obtain ⟨op, k, fs, d, a, b, m⟩ := r
  simp only [Raw.Fits] at h
  simp only [unpack, pack, Raw.mk.injEq]
  omega

theorem pack_lt : pack r < 2 ^ 62 := by
  simp only [Raw.Fits] at h
  simp only [pack]
  omega

theorem form_pack : form (pack r) = 0 := by
  have := pack_lt h
  rw [form, Nat.div_eq_of_lt this]

theorem wordCount_pack : wordCount (pack r) = if listsL r.op = true ∧ hasBit r.m 10 = true then 2 else 1 := by
  have hb : hasBit (pack r) 10 = hasBit r.m 10 := by
    simp only [Raw.Fits] at h
    simp only [hasBit, pack]
    congr 1
    omega
  simp only [wordCount, form_pack h, unpack_pack h, hb, true_and]

theorem candFull_pack (hb : isBranchOp r.op = false) (lit : BitVec 64) : candFull (pack r) lit = r.candidate (r.op / 16) lit := by
  simp only [candFull, unpack_pack h, hb]
  rfl

end

theorem accept_ok {w : Nat} {lit : BitVec 64} {i j : Instr} : accept w lit i = .ok j ↔
    i = j ∧ i.wf = true ∧ encode i = some ⟨w, if wordCount w = 2 then some lit else none⟩ := by
  by_cases hw : i.wf = true
  · by_cases he : encode i = some ⟨w, if wordCount w = 2 then some lit else none⟩ <;> simp [accept, hw, he]
  · simp [accept, hw]

/-! ### Codes -/

theorem bit_lt (b : Bool) : bit b < 2 := by cases b <;> decide

theorem hasBit_eq {w n : Nat} {b : Bool} (h : w / 2 ^ n % 2 = bit b) : hasBit w n = b := by
  rw [hasBit, h]
  cases b <;> rfl

theorem Ty.code_lt (t : Ty) : t.code < 16 := by cases t <;> decide
theorem Rel.code_lt (r : Rel) : r.code < 6 := by cases r <;> decide
theorem Rm.code_lt (r : Rm) : r.code < 4 := by cases r <;> decide
theorem Width.code_lt (w : Width) : w.code < 6 := by cases w <;> decide
theorem Order.code_lt (o : Order) : o.code < 5 := by cases o <;> decide
theorem Scope.code_lt (s : Scope) : s.code < 5 := by cases s <;> decide
theorem AOp.code_lt (o : AOp) : o.code < 11 := by cases o <;> decide
theorem FOp.code_lt (o : FOp) : o.code < 6 := by cases o <;> decide
theorem KMode.code_lt (m : KMode) : m.code < 3 := by cases m <;> decide
theorem ShMode.code_lt (m : ShMode) : m.code < 4 := by cases m <;> decide
theorem CsMode.code_lt (m : CsMode) : m.code < 3 := by cases m <;> decide
theorem CmOp.code_lt (o : CmOp) : o.code < 3 := by cases o <;> decide
theorem CmLevel.code_lt (l : CmLevel) : l.code < 3 := by cases l <;> decide
theorem Sel.code_lt (s : Sel) : s.code < 512 := by cases s <;> decide
theorem SlotOp.code_lt (o : SlotOp) : o.code < 128 := by cases o <;> decide

theorem Ty.ofCode_eq {n : Nat} {t : Ty} (h : n = t.code) : Ty.ofCode n = t := by subst h; cases t <;> rfl
theorem Rel.ofCode_eq {n : Nat} {r : Rel} (h : n = r.code) : Rel.ofCode n = some r := by subst h; cases r <;> rfl
theorem Rm.ofCode_eq {n : Nat} {r : Rm} (h : n = r.code) : Rm.ofCode n = r := by subst h; cases r <;> rfl
theorem Width.ofCode_eq {n : Nat} {w : Width} (h : n = w.code) : Width.ofCode n = some w := by subst h; cases w <;> rfl
theorem Order.ofCode_eq {n : Nat} {o : Order} (h : n = o.code) : Order.ofCode n = some o := by subst h; cases o <;> rfl
theorem Scope.ofCode_eq {n : Nat} {s : Scope} (h : n = s.code) : Scope.ofCode n = some s := by subst h; cases s <;> rfl
theorem AOp.ofCode_eq {n : Nat} {o : AOp} (h : n = o.code) : AOp.ofCode n = some o := by subst h; cases o <;> rfl
theorem FOp.ofCode_eq {n : Nat} {o : FOp} (h : n = o.code) : FOp.ofCode n = some o := by subst h; cases o <;> rfl
theorem KMode.ofCode_eq {n : Nat} {m : KMode} (h : n = m.code) : KMode.ofCode n = some m := by subst h; cases m <;> rfl
theorem ShMode.ofCode_eq {n : Nat} {m : ShMode} (h : n = m.code) : ShMode.ofCode n = m := by subst h; cases m <;> rfl
theorem CsMode.ofCode_eq {n : Nat} {m : CsMode} (h : n = m.code) : CsMode.ofCode n = some m := by subst h; cases m <;> rfl
theorem CmOp.ofCode_eq {n : Nat} {o : CmOp} (h : n = o.code) : CmOp.ofCode n = some o := by subst h; cases o <;> rfl
theorem CmLevel.ofCode_eq {n : Nat} {l : CmLevel} (h : n = l.code) : CmLevel.ofCode n = some l := by subst h; cases l <;> rfl
theorem Sel.ofCode_eq {n : Nat} {s : Sel} (h : n = s.code) : Sel.ofCode n = some s := by subst h; cases s <;> rfl
theorem SlotOp.ofCode_eq {n : Nat} {o : SlotOp} (h : n = o.code) : SlotOp.ofCode n = some o := by subst h; cases o <;> rfl


/-! ### One candidate, of the words of an instruction -/

/-- An instruction that is the candidate of a full-form word, and whose words are these, is what they decode to. -/
theorem decodeWords_full {w : Nat} {lit : BitVec 64} {i : Instr} (hf : form w = 0) (ha : assigned (unpack w).op = true)
    (hc : candFull w lit = some i) (hacc : accept w lit i = .ok i) : decodeWords w lit = .ok i := by
  have h2 : ¬form w = 2 := by rw [hf]; decide
  have ha' : assigned (w / 2 ^ 54 % 256) = true := ha
  rw [decodeWords, if_neg h2]
  simp only [decodeInstr, hf, if_pos ha', hc, hacc]

section
variable {r : Raw} {i : Instr} {l : Option (BitVec 64)}

/-- A full-form instruction decodes from its words once their fields give it as the candidate. -/
theorem Instr.RoundTrips.full (hr : r.Fits) (hw : i.wf = true) (he : encode i = some ⟨pack r, l⟩)
    (hop : assigned r.op = true ∧ isBranchOp r.op = false) (hl : l.isSome = (listsL r.op && hasBit r.m 10))
    (hc : r.candidate (r.op / 16) (l.getD 0) = some i) : i.RoundTrips := by
  have hlit : (if wordCount (pack r) = 2 then some (l.getD 0) else none) = l := by
    rw [wordCount_pack hr]
    cases l <;> cases h1 : listsL r.op <;> cases h2 : hasBit r.m 10 <;> simp_all
  have hacc : accept (pack r) (l.getD 0) i = .ok i := accept_ok.mpr ⟨rfl, hw, by rw [hlit, he]⟩
  exact ⟨_, he, Nat.lt_trans (pack_lt hr) (by decide), decodeWords_full (form_pack hr) (by rw [unpack_pack hr]; exact hop.1)
    ((candFull_pack hr hop.2 _).trans hc) hacc⟩

end

/-- An assigned opcode of the full form whose row does not list L. -/
def plainOp (op : Nat) : Bool := assigned op && !isBranchOp op && !listsL op

/-- An assigned opcode of the full form whose row lists L. -/
def literalOp (op : Nat) : Bool := assigned op && !isBranchOp op && listsL op

theorem lt_of_assigned {op : Nat} (h : assigned op = true) : op < 256 := by
  simp only [assigned, decide_eq_true_eq] at h
  omega

theorem Instr.RoundTrips.plain {i : Instr} {op k fs d a b m : Nat}
    (hf : k < 16 ∧ fs < 4 ∧ d < 2048 ∧ a < 2048 ∧ b < 2048 ∧ m < 32768) (hw : i.wf = true)
    (he : encode i = word1 op k fs d a b m) (hop : plainOp op = true)
    (hc : Raw.candidate ⟨op, k, fs, d, a, b, m⟩ (op / 16) 0 = some i) : i.RoundTrips := by
  simp only [plainOp, Bool.and_eq_true, Bool.not_eq_true'] at hop
  exact .full ⟨lt_of_assigned hop.1.1, hf⟩ hw he hop.1 (by simp [hop.2]) hc

/-- The same for an instruction whose row lists L; bit L announces the literal. -/
theorem Instr.RoundTrips.withLiteral {i : Instr} {op k fs d a b m : Nat} {l : Option (BitVec 64)}
    (hf : k < 16 ∧ fs < 4 ∧ d < 2048 ∧ a < 2048 ∧ b < 2048 ∧ m < 32768) (hw : i.wf = true)
    (he : encode i = some ⟨pack ⟨op, k, fs, d, a, b, m⟩, l⟩) (hop : literalOp op = true) (hl : l.isSome = hasBit m 10)
    (hc : Raw.candidate ⟨op, k, fs, d, a, b, m⟩ (op / 16) (l.getD 0) = some i) : i.RoundTrips := by
  simp only [literalOp, Bool.and_eq_true, Bool.not_eq_true'] at hop
  exact .full ⟨lt_of_assigned hop.1.1, hf⟩ hw he hop.1 (by rw [hop.2, Bool.true_and]; exact hl) hc

/-! ### Operands -/

theorem hasBit_false {w n : Nat} (h : w / 2 ^ n % 2 = 0) : hasBit w n = false := hasBit_eq (b := false) h
theorem hasBit_true {w n : Nat} (h : w / 2 ^ n % 2 = 1) : hasBit w n = true := hasBit_eq (b := true) h

/-- The scalar operand reads back from bits L and I, field B and the literal (spec/09 R210). -/
theorem SSrc.of_eq {r : Raw} {b : SSrc} {t low : Nat} (hm : r.m = t * 2048 + b.bits + low) (hl : low < 512) (hb : r.b = b.field) :
    SSrc.of r (b.literal.getD 0) = b := by
  cases b with
  | reg n =>
    simp only [bits] at hm
    rw [SSrc.of, hasBit_false (by omega), hasBit_false (by omega), hb]; rfl
  | imm v =>
    simp only [bits] at hm
    rw [SSrc.of, hasBit_false (by omega), hasBit_true (by omega), hb]; simp [field]
  | lit v =>
    simp only [bits] at hm
    rw [SSrc.of, hasBit_true (by omega)]; rfl

/-- The same where the word has no literal form (spec/09 R213). -/
theorem SSrc.ofNoLit_eq {r : Raw} {b : SSrc} (hm : r.m = b.bits) (hb : r.b = b.field) (hn : Wf.ssrcNoLit b = true) :
    SSrc.ofNoLit r = b := by
  cases b with
  | reg n =>
    simp only [bits] at hm
    rw [SSrc.ofNoLit, hasBit_false (by omega), hb]; rfl
  | imm v =>
    simp only [bits] at hm
    rw [SSrc.ofNoLit, hasBit_true (by omega), hb]; simp [field]
  | lit v => exact absurd hn Bool.false_ne_true

/-- The vector operand reads back from bits L and SB, field B and the literal (spec/11 R225). -/
theorem VSrc.of_eq {r : Raw} {b : VSrc} {t low : Nat} (hm : r.m = t * 2048 + b.bits + low) (hl : low < 512) (hb : r.b = b.field) :
    VSrc.of r (b.literal.getD 0) = b := by
  cases b with
  | reg n =>
    simp only [bits] at hm
    rw [VSrc.of, hasBit_false (by omega), hasBit_false (by omega), hb]; rfl
  | sb n =>
    simp only [bits] at hm
    rw [VSrc.of, hasBit_false (by omega), hasBit_true (by omega), hb]; rfl
  | lit v =>
    simp only [bits] at hm
    rw [VSrc.of, hasBit_true (by omega)]; rfl

/-- The count or index operand reads back from bit L, field B and the literal (spec/11 R250, spec/13 R284). -/
theorem LSrc.of_eq {r : Raw} {b : LSrc} {t low : Nat} (hm : r.m = t * 2048 + b.bits + low) (hl : low < 1024) (hb : r.b = b.field) :
    LSrc.of r (b.literal.getD 0) = b := by
  cases b with
  | reg n =>
    simp only [bits] at hm
    rw [LSrc.of, hasBit_false (by omega), hb]; rfl
  | lit v =>
    simp only [bits] at hm
    rw [LSrc.of, hasBit_true (by omega)]; rfl

/-- Bit L of an operand announces its literal. -/
theorem SSrc.literal_isSome {m : Nat} {b : SSrc} {t low : Nat} (hm : m = t * 2048 + b.bits + low) (hl : low < 512) :
    b.literal.isSome = hasBit m 10 := by
  cases b <;> simp only [bits] at hm
  · rw [hasBit_false (by omega)]; rfl
  · rw [hasBit_false (by omega)]; rfl
  · rw [hasBit_true (by omega)]; rfl

theorem VSrc.literal_isSome {m : Nat} {b : VSrc} {t low : Nat} (hm : m = t * 2048 + b.bits + low) (hl : low < 512) :
    b.literal.isSome = hasBit m 10 := by
  cases b <;> simp only [bits] at hm
  · rw [hasBit_false (by omega)]; rfl
  · rw [hasBit_false (by omega)]; rfl
  · rw [hasBit_true (by omega)]; rfl

theorem LSrc.literal_isSome {m : Nat} {b : LSrc} {t low : Nat} (hm : m = t * 2048 + b.bits + low) (hl : low < 1024) :
    b.literal.isSome = hasBit m 10 := by
  cases b <;> simp only [bits] at hm
  · rw [hasBit_false (by omega)]; rfl
  · rw [hasBit_true (by omega)]; rfl

/-- The bits of a word's modifier below those of the operand. -/
theorem SSrc.low {m : Nat} {b : SSrc} {t low : Nat} (hm : m = t * 2048 + b.bits + low) (hl : low < 512) : m % 512 = low := by
  cases b <;> simp only [bits] at hm <;> omega

theorem VSrc.low {m : Nat} {b : VSrc} {t low : Nat} (hm : m = t * 2048 + b.bits + low) (hl : low < 512) : m % 512 = low := by
  cases b <;> simp only [bits] at hm <;> omega

theorem SSrc.bits_le (b : SSrc) : b.bits ≤ 1024 := by cases b <;> simp [bits]
theorem VSrc.bits_le (b : VSrc) : b.bits ≤ 1024 := by cases b <;> simp [bits]
theorem LSrc.bits_le (b : LSrc) : b.bits ≤ 1024 := by cases b <;> simp [bits]
theorem LSrc.bits_mod (b : LSrc) : b.bits % 1024 = 0 := by cases b <;> simp [bits]

/-! ### Limits -/

namespace Wf

@[simp] theorem km_iff {n : Nat} : km n = true ↔ n < 16 := decide_eq_true_iff
@[simp] theorem kd_iff {n : Nat} : kd n = true ↔ 0 < n ∧ n < 16 := decide_eq_true_iff
@[simp] theorem sc_iff {n : Nat} : sc n = true ↔ n < 128 := decide_eq_true_iff
@[simp] theorem cd_iff {n : Nat} : cd n = true ↔ 0 < n ∧ n < 8 := decide_eq_true_iff
@[simp] theorem vr_iff {n : Nat} : vr n = true ↔ n < 2048 := decide_eq_true_iff
@[simp] theorem fs_iff {n : Nat} : fs n = true ↔ n < 4 := decide_eq_true_iff
@[simp] theorem off_iff {o : Int} : off o = true ↔ -4294967296 ≤ o ∧ o < 4294967296 := decide_eq_true_iff

@[simp] theorem vt_iff {t : Ty} {n : Nat} : vt t n = true ↔ n < 2048 ∧ (t.is64 = true → n % 2 = 0) := by
  simp only [vt, Bool.and_eq_true, vr_iff, Bool.or_eq_true, Bool.not_eq_true', beq_iff_eq]
  cases t.is64 <;> simp

theorem ssrc_field {b : SSrc} (h : ssrc b = true) : b.field < 2048 := by
  cases b with
  | reg n => exact Nat.lt_trans (sc_iff.mp h) (by decide)
  | imm v => exact v.isLt
  | lit v => exact Nat.zero_lt_succ _

theorem ssrcNoLit_field {b : SSrc} (h : ssrcNoLit b = true) : b.field < 2048 := by
  cases b with
  | reg n => exact Nat.lt_trans (sc_iff.mp h) (by decide)
  | imm v => exact v.isLt
  | lit v => exact absurd h Bool.false_ne_true

theorem vsrc1_field {b : VSrc} (h : vsrc1 b = true) : b.field < 2048 := by
  cases b with
  | reg n => exact vr_iff.mp h
  | sb n => exact Nat.lt_trans (sc_iff.mp h) (by decide)
  | lit v => exact Nat.zero_lt_succ _

theorem vsrc_field {t : Ty} {b : VSrc} (h : vsrc t b = true) : b.field < 2048 := by
  cases b with
  | reg n => exact (vt_iff.mp h).1
  | sb n => exact Nat.lt_trans (sc_iff.mp h) (by decide)
  | lit v => exact Nat.zero_lt_succ _

theorem lsrc_field {b : LSrc} (h : lsrc b = true) : b.field < 2048 := by
  cases b with
  | reg n => exact Nat.lt_trans (sc_iff.mp h) (by decide)
  | lit v => exact Nat.zero_lt_succ _

end Wf

/-! ### Operand forms -/

/-- The fields of a scalar instruction's word (spec/09 R210). -/
def SBin.raw (op : Nat) (o : SBin) (low : Nat) : Raw := ⟨op, o.k, 0, o.d, o.a, o.b.field, o.ty.code * 2048 + o.b.bits + low⟩

/-- Fields within their widths. -/
def SBin.Fits (o : SBin) : Prop := o.k < 16 ∧ o.d < 2048 ∧ o.a < 2048 ∧ o.b.field < 2048

theorem SBin.fits {p : Ty → Bool} {o : SBin} (h : Wf.sbin p o = true) : o.Fits := by
  simp only [Wf.sbin, Bool.and_eq_true, Wf.km_iff, Wf.sc_iff] at h
  obtain ⟨⟨⟨⟨hk, hd⟩, ha⟩, _⟩, hb⟩ := h
  exact ⟨hk, by omega, by omega, Wf.ssrc_field hb⟩

theorem SBin.of_raw (op : Nat) (o : SBin) {low : Nat} (hl : low < 512) : SBin.of (o.raw op low) (o.b.literal.getD 0) = o := by
  have hb := o.b.bits_le
  have ht := o.ty.code_lt
  have hty : (o.raw op low).ty = o.ty := Ty.ofCode_eq (by show (o.ty.code * 2048 + o.b.bits + low) / 2048 % 16 = _; omega)
  rw [SBin.of, SSrc.of_eq rfl hl rfl, hty]
  rfl

/-- An instruction of the scalar form, `f` of its operands, reads back where the decoder forms `f` of the operands of the word. -/
theorem Instr.RoundTrips.scalar (f : SBin → Instr) {op : Nat} {o : SBin} {low : Nat} (hw : (f o).wf = true) (hs : o.Fits)
    (he : encode (f o) = wordS op o low) (hop : literalOp op = true) (hl : low < 512)
    (hc : ∀ lit, (o.raw op low).m % 512 = low →
      (o.raw op low).candidate (op / 16) lit = some (f (SBin.of (o.raw op low) lit))) : (f o).RoundTrips := by
  obtain ⟨hk, hd, ha, hb⟩ := hs
  have := o.b.bits_le
  have := o.ty.code_lt
  exact .withLiteral ⟨hk, Nat.zero_lt_succ _, hd, ha, hb, by omega⟩ hw he hop (SSrc.literal_isSome rfl hl)
    ((hc _ (SSrc.low rfl hl)).trans (by rw [SBin.of_raw op o hl]))

/-- The fields of a vector instruction's word (spec/11 R225). -/
def VBin.raw (op fs : Nat) (o : VBin) (low : Nat) : Raw := ⟨op, o.k, fs, o.d, o.a, o.b.field, o.ty.code * 2048 + o.b.bits + low⟩

def VBin.Fits (o : VBin) : Prop := o.k < 16 ∧ o.d < 2048 ∧ o.a < 2048 ∧ o.b.field < 2048

theorem VBin.fits {p : Bool} {o : VBin} (h : (Wf.km o.k && Wf.vt o.ty o.d && Wf.vt o.ty o.a && p && Wf.vsrc o.ty o.b) = true) :
    o.Fits := by
  simp only [Bool.and_eq_true, Wf.km_iff, Wf.vt_iff] at h
  obtain ⟨⟨⟨⟨hk, hd, _⟩, ha, _⟩, _⟩, hb⟩ := h
  exact ⟨hk, hd, ha, Wf.vsrc_field hb⟩

/-- The same where operand b is one register whatever the type (spec/11 R226). -/
theorem VBin.fits_single {p : Bool} {o : VBin} (h : (Wf.km o.k && Wf.vt o.ty o.d && Wf.vt o.ty o.a && p && Wf.vsrc1 o.b) = true) :
    o.Fits := by
  simp only [Bool.and_eq_true, Wf.km_iff, Wf.vt_iff] at h
  obtain ⟨⟨⟨⟨hk, hd, _⟩, ha, _⟩, _⟩, hb⟩ := h
  exact ⟨hk, hd, ha, Wf.vsrc1_field hb⟩

theorem VBin.of_raw (op fs : Nat) (o : VBin) {low : Nat} (hl : low < 512) :
    VBin.of (o.raw op fs low) (o.b.literal.getD 0) = o := by
  have hb := o.b.bits_le
  have ht := o.ty.code_lt
  have hty : (o.raw op fs low).ty = o.ty := Ty.ofCode_eq (by show (o.ty.code * 2048 + o.b.bits + low) / 2048 % 16 = _; omega)
  rw [VBin.of, VSrc.of_eq rfl hl rfl, hty]
  rfl

theorem Instr.RoundTrips.vector (f : VBin → Instr) {op fs : Nat} {o : VBin} {low : Nat} (hw : (f o).wf = true) (hs : o.Fits)
    (hfs : fs < 4) (he : encode (f o) = wordV op o fs low) (hop : literalOp op = true) (hl : low < 512)
    (hc : ∀ lit, (o.raw op fs low).m % 512 = low →
      (o.raw op fs low).candidate (op / 16) lit = some (f (VBin.of (o.raw op fs low) lit))) : (f o).RoundTrips := by
  obtain ⟨hk, hd, ha, hb⟩ := hs
  have := o.b.bits_le
  have := o.ty.code_lt
  exact .withLiteral ⟨hk, hfs, hd, ha, hb, by omega⟩ hw he hop (VSrc.literal_isSome rfl hl)
    ((hc _ (VSrc.low rfl hl)).trans (by rw [VBin.of_raw op fs o hl]))

/-- The fields of a unary vector instruction's word (spec/11 R225). -/
def VUn.raw (op fs : Nat) (o : VUn) (low : Nat) : Raw := ⟨op, o.k, fs, o.d, o.a, 0, o.ty.code * 2048 + low⟩

def VUn.Fits (o : VUn) : Prop := o.k < 16 ∧ o.d < 2048 ∧ o.a < 2048

theorem VUn.fits {p : Bool} {o : VUn} (h : (Wf.km o.k && Wf.vt o.ty o.d && Wf.vt o.ty o.a && p) = true) : o.Fits := by
  simp only [Bool.and_eq_true, Wf.km_iff, Wf.vt_iff] at h
  obtain ⟨⟨⟨hk, hd, _⟩, ha, _⟩, _⟩ := h
  exact ⟨hk, hd, ha⟩

theorem VUn.of_raw (op fs : Nat) (o : VUn) {low : Nat} (hl : low < 2048) : VUn.of (o.raw op fs low) = o := by
  have ht := o.ty.code_lt
  have hty : (o.raw op fs low).ty = o.ty := Ty.ofCode_eq (by show (o.ty.code * 2048 + low) / 2048 % 16 = _; omega)
  rw [VUn.of, hty]
  rfl

theorem Instr.RoundTrips.unary (f : VUn → Instr) {op fs : Nat} {o : VUn} {low : Nat} (hw : (f o).wf = true) (hs : o.Fits)
    (hfs : fs < 4) (he : encode (f o) = wordU op o fs low) (hop : plainOp op = true) (hl : low < 2048)
    (hc : (o.raw op fs low).m % 2048 = low →
      (o.raw op fs low).candidate (op / 16) 0 = some (f (VUn.of (o.raw op fs low)))) : (f o).RoundTrips := by
  obtain ⟨hk, hd, ha⟩ := hs
  have := o.ty.code_lt
  have hm : (o.raw op fs low).m % 2048 = low := by show (o.ty.code * 2048 + low) % 2048 = low; omega
  exact .plain ⟨hk, hfs, hd, ha, Nat.zero_lt_succ _, by omega⟩ hw he hop ((hc hm).trans (by rw [VUn.of_raw op fs o hl]))

/-- The fields of a three-source word (spec/07 R155). -/
def V3.raw (op : Nat) (o : V3) : Raw := ⟨op, o.k, 0, o.d, o.a, o.b, o.c * 16 + o.ty.code⟩

theorem Instr.RoundTrips.threeSource (f : V3 → Instr) {op : Nat} {o : V3} {p : Ty → Bool} (hw : (f o).wf = true)
    (hs : Wf.v3 p o = true) (he : encode (f o) = word3 op o) (hop : plainOp op = true)
    (hc : (o.raw op).candidate (op / 16) 0 = some (f (V3.of (o.raw op)))) : (f o).RoundTrips := by
  simp only [Wf.v3, Bool.and_eq_true, Wf.km_iff, Wf.vt_iff] at hs
  obtain ⟨⟨⟨⟨⟨hk, hd, _⟩, ha, _⟩, hb, _⟩, hcc, _⟩, _⟩ := hs
  have ht := o.ty.code_lt
  have hof : V3.of (o.raw op) = o := by
    have h1 : (o.c * 16 + o.ty.code) / 16 % 2048 = o.c := by omega
    have h2 : Ty.ofCode ((o.c * 16 + o.ty.code) % 16) = o.ty := Ty.ofCode_eq (by omega)
    show (⟨o.k, o.d, o.a, o.b, _, _⟩ : V3) = o
    rw [show (o.raw op).m = o.c * 16 + o.ty.code from rfl, h1, h2]
  exact .plain ⟨hk, Nat.zero_lt_succ _, hd, ha, hb, by omega⟩ hw he hop (hc.trans (by rw [hof]))

/-! ### Memory forms -/

/-- The fields of LD, ST, LDS, STS (spec/13 R256). -/
def MemOp.raw (op : Nat) (o : MemOp) : Raw :=
  ⟨op, o.k, o.fs, o.d, o.a, o.b, bit o.nv * 1024 + o.scope.code * 128 + o.order.code * 16 + bit o.u * 8 + o.width.code⟩

def MemOp.Fits (o : MemOp) : Prop := o.k < 16 ∧ o.fs < 4 ∧ o.d < 2048 ∧ o.a < 2048 ∧ o.b < 2048

theorem MemOp.fits_mem {p : Order → Bool} {o : MemOp} (h : Wf.mem p o = true) : o.Fits := by
  simp only [Wf.mem, Wf.nvub, Bool.and_eq_true, Wf.km_iff, Wf.fs_iff, Wf.vr_iff, Wf.sc_iff] at h
  obtain ⟨⟨⟨⟨⟨⟨⟨hk, hf⟩, hd⟩, ha⟩, hb, _⟩, _⟩, _⟩, _⟩ := h
  exact ⟨hk, hf, hd, by omega, hb⟩

theorem MemOp.fits_smem {p : Order → Bool} {o : MemOp} (h : Wf.smem p o = true) : o.Fits := by
  simp only [Wf.smem, Bool.and_eq_true, Wf.km_iff, Wf.fs_iff, Wf.sc_iff, beq_iff_eq] at h
  obtain ⟨⟨⟨⟨⟨⟨⟨⟨⟨hk, hf⟩, hd⟩, ha⟩, hb⟩, _⟩, _⟩, _⟩, _⟩, _⟩ := h
  exact ⟨hk, hf, by omega, by omega, by omega⟩

theorem MemOp.of_raw (op : Nat) (o : MemOp) : MemOp.of (o.raw op) = some o := by
  obtain ⟨k, fs, d, a, b, nv, u, w, r, s⟩ := o
  have := w.code_lt; have := r.code_lt; have := s.code_lt; have := bit_lt nv; have := bit_lt u
  simp only [MemOp.of, MemOp.raw]
  rw [Width.ofCode_eq (w := w) (by omega), Order.ofCode_eq (o := r) (by omega), Scope.ofCode_eq (s := s) (by omega),
    hasBit_eq (b := nv) (by omega), hasBit_eq (b := u) (by omega)]
  rfl

theorem Instr.RoundTrips.access (f : MemOp → Instr) {op : Nat} {o : MemOp} (hw : (f o).wf = true) (hs : o.Fits)
    (he : encode (f o) = wordMem op o) (hop : plainOp op = true)
    (hc : (o.raw op).candidate (op / 16) 0 = (MemOp.of (o.raw op)).map f) : (f o).RoundTrips := by
  obtain ⟨hk, hf, hd, ha, hb⟩ := hs
  have := o.width.code_lt; have := o.order.code_lt; have := o.scope.code_lt; have := bit_lt o.nv; have := bit_lt o.u
  exact .plain ⟨hk, hf, hd, ha, hb, by omega⟩ hw he hop (hc.trans (by rw [MemOp.of_raw]; rfl))

/-- The fields of LDASOF, LDASOFS (spec/13 R267). -/
def AsofOp.raw (op : Nat) (o : AsofOp) : Raw := ⟨op, o.k, o.fs, o.d, o.a, o.b, bit o.nv * 1024 + o.st * 8 + o.width.code⟩

theorem AsofOp.of_raw (op : Nat) (o : AsofOp) (h : o.st < 128) : AsofOp.of (o.raw op) = some o := by
  obtain ⟨k, fs, d, a, b, nv, st, w⟩ := o
  have := w.code_lt; have := bit_lt nv
  simp only at h
  have hst : (bit nv * 1024 + st * 8 + w.code) / 8 % 128 = st := by omega
  simp only [AsofOp.of, AsofOp.raw]
  rw [Width.ofCode_eq (w := w) (by omega), hasBit_eq (b := nv) (by omega), hst]
  rfl

theorem Instr.RoundTrips.asof (f : AsofOp → Instr) {op : Nat} {o : AsofOp} (hw : (f o).wf = true)
    (hs : o.k < 16 ∧ o.fs < 4 ∧ o.d < 2048 ∧ o.a < 2048 ∧ o.b < 2048 ∧ o.st < 128)
    (he : encode (f o) = wordAsof op o) (hop : plainOp op = true)
    (hc : (o.raw op).candidate (op / 16) 0 = (AsofOp.of (o.raw op)).map f) : (f o).RoundTrips := by
  obtain ⟨hk, hf, hd, ha, hb, hst⟩ := hs
  have := o.width.code_lt; have := bit_lt o.nv
  exact .plain ⟨hk, hf, hd, ha, hb, by omega⟩ hw he hop (hc.trans (by rw [AsofOp.of_raw op o hst]; rfl))

/-- The fields of an atomic or a reduction (spec/13 R276). -/
def AtOp.raw (op : Nat) (o : AtOp) (code : Nat) : Raw := ⟨op, o.k, o.fs, o.d, o.a, o.b,
  o.ty.code * 2048 + bit o.u * 1024 + o.scope.code * 128 + o.order.code * 16 + code⟩

theorem AtOp.of_raw (op : Nat) (o : AtOp) {code : Nat} (h : code < 16) : AtOp.of (o.raw op code) = some o := by
  obtain ⟨k, fs, d, a, b, u, t, r, s⟩ := o
  have := t.code_lt; have := r.code_lt; have := s.code_lt; have := bit_lt u
  simp only [AtOp.of, AtOp.raw, Raw.ty]
  rw [Ty.ofCode_eq (t := t) (by omega), Order.ofCode_eq (o := r) (by omega), Scope.ofCode_eq (s := s) (by omega),
    hasBit_eq (b := u) (by omega)]
  rfl

theorem AOp.ofCode_raw (op : Nat) (o : AtOp) (x : AOp) : AOp.ofCode ((o.raw op x.code).m % 16) = some x := by
  have := x.code_lt
  exact AOp.ofCode_eq (by simp only [AtOp.raw]; omega)

theorem Instr.RoundTrips.atomic (f : AtOp → Instr) {op : Nat} {o : AtOp} {code : Nat} {p : Order → Bool} (hw : (f o).wf = true)
    (hs : Wf.atc p o = true) (he : encode (f o) = wordAt op o code) (hop : plainOp op = true) (hcode : code < 16)
    (hc : AtOp.of (o.raw op code) = some o → (o.raw op code).candidate (op / 16) 0 = some (f o)) : (f o).RoundTrips := by
  simp only [Wf.atc, Bool.and_eq_true, Wf.km_iff, Wf.fs_iff, Wf.vr_iff, Wf.sc_iff] at hs
  obtain ⟨⟨⟨⟨⟨⟨hk, hf⟩, hd⟩, ha⟩, hb⟩, _⟩, _⟩ := hs
  have := o.ty.code_lt; have := o.order.code_lt; have := o.scope.code_lt; have := bit_lt o.u
  exact .plain ⟨hk, hf, hd, by omega, hb, by omega⟩ hw he hop (hc (AtOp.of_raw op o hcode))

/-- The copy commands (spec/15 R317). -/
theorem Instr.RoundTrips.copy (f : CpOp → Instr) {op : Nat} {o : CpOp} {frame : Bool} (hw : (f o).wf = true)
    (hs : Wf.cp o = true) (he : encode (f o) = wordCp op o frame) (hop : plainOp op = true)
    (hc : ∀ r, r = Raw.mk op o.k o.fs o.d o.a o.b (bit frame * 8 + bit o.swap) → CpOp.of r = o → hasBit r.m 3 = frame →
      r.candidate (op / 16) 0 = some (f o)) : (f o).RoundTrips := by
  simp only [Wf.cp, Bool.and_eq_true, Wf.km_iff, Wf.fs_iff, Wf.sc_iff] at hs
  obtain ⟨⟨⟨⟨hk, hf⟩, hd⟩, ha⟩, hb⟩ := hs
  have := bit_lt frame; have := bit_lt o.swap
  have hof : CpOp.of ⟨op, o.k, o.fs, o.d, o.a, o.b, bit frame * 8 + bit o.swap⟩ = o := by
    simp only [CpOp.of]
    rw [hasBit_eq (b := o.swap) (by omega)]
  exact .plain ⟨hk, hf, by omega, by omega, by omega, by omega⟩ hw he hop
    (hc _ rfl hof (hasBit_eq (by show (bit frame * 8 + bit o.swap) / 2 ^ 3 % 2 = _; omega)))

/-! ### The branch subform -/

section
variable {op c l : Nat} {s : Bool} {off : Int}

theorem packBranch_fields (hop : op < 256) (hc : c < 16) (hl : l < 128) : packBranch op off c (bit s) l < 2 ^ 62 ∧
    packBranch op off c (bit s) l / 2 ^ 54 % 256 = op ∧
    packBranch op off c (bit s) l / 2 ^ 11 % 16 = c ∧ hasBit (packBranch op off c (bit s) l) 10 = s ∧
    packBranch op off c (bit s) l / 2 ^ 3 % 128 = l := by
  have := bit_lt s
  have h0 : Int.toNat (off % (2 ^ 33 : Int)) < 2 ^ 33 := by omega
  refine ⟨?_, ?_, ?_, hasBit_eq ?_, ?_⟩ <;> simp only [packBranch] <;> omega

theorem branchOff_packBranch (hoff : Wf.off off = true) (hc : c < 16) (hl : l < 128) : branchOff (packBranch op off c (bit s) l) = off := by
  rw [Wf.off_iff] at hoff
  have := bit_lt s
  have h0 : Int.toNat (off % (2 ^ 33 : Int)) < 2 ^ 33 := by omega
  have hu : packBranch op off c (bit s) l / 2 ^ 15 % 2 ^ 33 = Int.toNat (off % (2 ^ 33 : Int)) := by
    simp only [packBranch]; omega
  simp only [branchOff, hu]
  split <;> omega

end

theorem Instr.RoundTrips.branch {i : Instr} {op c l : Nat} {s : Bool} {off : Int} (hw : i.wf = true)
    (he : encode i = some ⟨packBranch op off c (bit s) l, none⟩) (hop : isBranchOp op = true)
    (hf : Wf.off off = true ∧ c < 16 ∧ l < 128)
    (hc : ∀ w, w / 2 ^ 54 % 256 = op → w / 2 ^ 11 % 16 = c → hasBit w 10 = s → w / 2 ^ 3 % 128 = l → branchOff w = off →
      candBranch w = some i) : i.RoundTrips := by
  obtain ⟨hoff, hcn, hl⟩ := hf
  have hop' : op = 1 ∨ op = 2 ∨ op = 3 ∨ op = 4 ∨ op = 6 := decide_eq_true_iff.mp hop
  have h256 : op < 256 := by omega
  obtain ⟨h62, h1, h2, h3, h4⟩ := packBranch_fields (s := s) (off := off) h256 hcn hl
  have hu : (unpack (packBranch op off c (bit s) l)).op = op := h1
  have hform : form (packBranch op off c (bit s) l) = 0 := by rw [form, Nat.div_eq_of_lt h62]
  have hass : assigned op = true := decide_eq_true (by omega)
  have hlist : listsL op = false := by rcases hop' with h | h | h | h | h <;> subst h <;> rfl
  have hcand : candFull (packBranch op off c (bit s) l) 0 = some i := by
    simp only [candFull, hu]
    rw [show op / 16 = 0 by omega]
    simp only [hop, if_true]
    exact hc _ h1 h2 h3 h4 (branchOff_packBranch hoff hcn hl)
  refine ⟨_, he, Nat.lt_trans h62 (by decide), decodeWords_full hform (by rw [hu]; exact hass) hcand (accept_ok.mpr ⟨rfl, hw, ?_⟩)⟩
  simp [he, wordCount, hu, hlist]

/-! ### The dual word -/

theorem Ty.ofDual_eq {n : Nat} {t : Ty} (h : n = t.dualCode) (ht : t.dualCode < 6) : Ty.ofDual n = some t := by
  subst h
  revert ht
  cases t <;> decide

/-- A type that a slot admits has a dual code (spec/07 R161). -/
theorem Wf.dualCode_lt {x : Slot} (h : Wf.slot x = true) : x.ty.dualCode < 6 := by
  have hty : Wf.slotTy x.op x.ty = true := (Bool.and_eq_true_iff.mp h).1
  revert hty
  generalize x.ty = t
  generalize x.op = o
  cases o <;> cases t <;> decide

theorem Wf.slot_fields {x : Slot} (h : Wf.slot x = true) : x.d < 256 ∧ x.s < 256 ∧ x.k < 8 := by
  have hf := (Bool.and_eq_true_iff.mp h).2
  revert hf
  generalize x.op = o
  cases o <;> simp only [Wf.slotScalar, Bool.and_eq_true, Wf.sc_iff, beq_iff_eq, decide_eq_true_eq, if_true, Bool.false_eq_true,
    if_false] <;> omega

theorem packSlot_lt {x : Slot} (h : Wf.slot x = true) : packSlot x < 2 ^ 31 := by
  obtain ⟨hd, hs, hk⟩ := Wf.slot_fields h
  have := Wf.dualCode_lt h
  have := x.op.code_lt
  simp only [packSlot]
  omega

theorem slotOf_packSlot {x : Slot} (h : Wf.slot x = true) : slotOf (packSlot x) = some x := by
  obtain ⟨hd, hs, hk⟩ := Wf.slot_fields h
  have ht := Wf.dualCode_lt h
  obtain ⟨op, d, s, k, ty⟩ := x
  have := op.code_lt
  simp only [packSlot] at hd hs hk ht ⊢
  have h1 : SlotOp.ofCode ((op.code * 2 ^ 24 + d * 2 ^ 16 + s * 2 ^ 8 + k * 2 ^ 5 + ty.dualCode) / 2 ^ 24 % 128) = some op :=
    SlotOp.ofCode_eq (by omega)
  have h2 : Ty.ofDual ((op.code * 2 ^ 24 + d * 2 ^ 16 + s * 2 ^ 8 + k * 2 ^ 5 + ty.dualCode) % 32) = some ty :=
    Ty.ofDual_eq (by omega) ht
  simp only [slotOf, h1, h2]
  simp only [Option.bind_eq_bind, Option.bind_some, Option.some.injEq, Slot.mk.injEq, true_and, and_true]
  omega

theorem Instr.RoundTrips.dual {x y : Slot} (hw : (Instr.dualWord x y).wf = true) : (Instr.dualWord x y).RoundTrips := by
  have hxy := (Bool.and_eq_true_iff.mp hw).1
  obtain ⟨hx, hy⟩ := Bool.and_eq_true_iff.mp hxy
  have hxl := packSlot_lt hx
  have hyl := packSlot_lt hy
  have hform : form (1 * 2 ^ 62 + packSlot x * 2 ^ 31 + packSlot y) = 1 := by simp only [form]; omega
  have hcand : candDual (1 * 2 ^ 62 + packSlot x * 2 ^ 31 + packSlot y) = some (.dualWord x y) := by
    rw [candDual, show (1 * 2 ^ 62 + packSlot x * 2 ^ 31 + packSlot y) / 2 ^ 31 % 2 ^ 31 = packSlot x by omega,
      show (1 * 2 ^ 62 + packSlot x * 2 ^ 31 + packSlot y) % 2 ^ 31 = packSlot y by omega, slotOf_packSlot hx, slotOf_packSlot hy]
    rfl
  have hacc : accept (1 * 2 ^ 62 + packSlot x * 2 ^ 31 + packSlot y) 0 (.dualWord x y) = .ok (.dualWord x y) := by
    refine accept_ok.mpr ⟨rfl, hw, ?_⟩
    have h1 : wordCount (1 * 2 ^ 62 + packSlot x * 2 ^ 31 + packSlot y) = 1 := by rw [wordCount, hform]; rfl
    rw [h1]; rfl
  refine ⟨_, rfl, by show 1 * 2 ^ 62 + packSlot x * 2 ^ 31 + packSlot y < _; omega, ?_⟩
  show decodeWords (1 * 2 ^ 62 + packSlot x * 2 ^ 31 + packSlot y) 0 = _
  rw [decodeWords, if_neg (by rw [hform]; decide)]
  simp only [decodeInstr, hform, hcand, hacc]

/-! ### The clause header -/

theorem packFlag_lt {f : Option Nat} (h : Wf.hflag f = true) : packFlag f < 32 := by
  cases f with
  | none => decide
  | some n => have : n < 12 := decide_eq_true_iff.mp h; simp only [packFlag]; omega

/-- A bound flag reads back from its valid bit and its field (spec/07 R142). -/
theorem flag_packFlag {w p q : Nat} {f : Option Nat} (h : Wf.hflag f = true) (hv : w / 2 ^ p % 2 = packFlag f / 16)
    (hn : w / 2 ^ q % 16 = packFlag f % 16) : (if hasBit w p then some (w / 2 ^ q % 16) else none) = f := by
  cases f with
  | none => rw [hasBit_false (by simpa [packFlag] using hv)]; rfl
  | some n =>
    have h12 : n < 12 := decide_eq_true_iff.mp h
    simp only [packFlag] at hv hn
    rw [hasBit_true (by omega), hn, if_pos rfl]
    congr 1
    omega

theorem packSafe_lt {f : Option Nat} (h : ∀ n, f = some n → n < 32768) : packSafe f < 2 ^ 16 := by
  cases f with
  | none => decide
  | some n => have := h n rfl; simp only [packSafe]; omega

theorem headerOf_packHeader {h : Header} (hw : Wf.header h = true) :
    headerOf (packHeader h) = h ∧ form (packHeader h) = 2 ∧ packHeader h < 2 ^ 64 := by
  obtain ⟨wait, af, bf, len, safe, yh⟩ := h
  simp only [Wf.header, Bool.and_eq_true, decide_eq_true_eq] at hw
  obtain ⟨⟨⟨⟨hlen, ha⟩, hb⟩, _⟩, hs⟩ := hw
  have hs' : ∀ n, safe = some n → n < 32768 := by
    rintro n rfl; exact decide_eq_true_iff.mp hs
  have := packFlag_lt ha; have := packFlag_lt hb; have := packSafe_lt hs'; have := bit_lt yh; have := wait.isLt
  refine ⟨?_, by simp only [form, packHeader]; omega, by simp only [packHeader]; omega⟩
  generalize hp : packHeader ⟨wait, af, bf, len, safe, yh⟩ = w
  simp only [packHeader] at hp
  have h1 : BitVec.ofNat 12 (w / 2 ^ 50) = wait := BitVec.eq_of_toNat_eq (by rw [BitVec.toNat_ofNat]; omega)
  have h2 := flag_packFlag (w := w) (p := 49) (q := 45) ha (by omega) (by omega)
  have h3 := flag_packFlag (w := w) (p := 44) (q := 40) hb (by omega) (by omega)
  have h4 : w / 2 ^ 36 % 16 = len := by omega
  have h5 : (if hasBit w 35 then some (w / 2 ^ 20 % 2 ^ 15) else none) = safe := by
    cases safe with
    | none => simp only [packSafe] at hp; rw [hasBit_false (by omega)]; rfl
    | some n =>
      have := hs' n rfl
      simp only [packSafe] at hp
      rw [hasBit_true (by omega), if_pos rfl]
      congr 1
      omega
  have h6 : hasBit w 19 = yh := hasBit_eq (by omega)
  simp only [headerOf, h1, h2, h3, h4, h5, h6]

theorem Instr.RoundTrips.clause {h : Header} (hw : (Instr.clauseEntry h).wf = true) : (Instr.clauseEntry h).RoundTrips := by
  obtain ⟨hof, hform, hlt⟩ := headerOf_packHeader hw
  have hd : decodeHeader (packHeader h) = .ok h := by
    rw [decodeHeader, if_pos hform]
    simp only [hof, show Wf.header h = true from hw, and_self, if_true]
  refine ⟨_, rfl, hlt, ?_⟩
  show decodeWords (packHeader h) 0 = _
  rw [decodeWords, if_pos hform, hd]
  rfl

end Sys2Proof

namespace Sys2Proof.Proofs.Encoding

section
variable {k d a b fs : Nat}

/-! ### Control -/

theorem trap_roundTrips {c : Nat} (hw : (Instr.trap k c).wf = true) : (Instr.trap k c).RoundTrips := by
  have hf : (Wf.km k && decide (c < 256)) = true := hw
  simp only [Bool.and_eq_true, Wf.km_iff, decide_eq_true_eq] at hf
  refine .plain (by omega) hw rfl rfl ?_
  show some (Instr.trap k (c % 256)) = _
  rw [Nat.mod_eq_of_lt hf.2]

theorem rtt_roundTrips {s : Bool} (hw : (Instr.rtt k s).wf = true) : (Instr.rtt k s).RoundTrips := by
  have hf := Wf.km_iff.mp hw
  have := bit_lt s
  refine .plain (by omega) hw rfl rfl ?_
  show some (Instr.rtt k (hasBit (bit s) 0)) = _
  rw [hasBit_eq (b := s) (by omega)]

theorem getsys_roundTrips {sel : Sel} (hw : (Instr.getsys k d sel).wf = true) : (Instr.getsys k d sel).RoundTrips := by
  obtain ⟨hk, hd⟩ := Bool.and_eq_true_iff.mp hw
  have hk' := Wf.km_iff.mp hk
  have hd' : d < 2048 := by
    cases sel <;> simp only [Wf.getsysD, Wf.kd_iff, Wf.sc_iff, Wf.vr_iff, Bool.and_eq_true] at hd <;> omega
  have := sel.code_lt
  refine .plain (by omega) hw rfl rfl ?_
  show (Sel.ofCode (sel.code % 2048)).map _ = _
  rw [Sel.ofCode_eq (s := sel) (by omega)]
  rfl

theorem setsys_roundTrips {sel : Sel} (hw : (Instr.setsys k a sel).wf = true) : (Instr.setsys k a sel).RoundTrips := by
  have hf : (Wf.km k && Wf.sc a && Wf.settable sel) = true := hw
  simp only [Bool.and_eq_true, Wf.km_iff, Wf.sc_iff] at hf
  have := sel.code_lt
  refine .plain (by omega) hw rfl rfl ?_
  show (Sel.ofCode (sel.code % 2048)).map _ = _
  rw [Sel.ofCode_eq (s := sel) (by omega)]
  rfl

theorem mbox_roundTrips {t : Nat} (hw : (Instr.mbox k a t).wf = true) : (Instr.mbox k a t).RoundTrips := by
  have hf : (Wf.km k && Wf.sc a && decide (t < 256)) = true := hw
  simp only [Bool.and_eq_true, Wf.km_iff, Wf.sc_iff, decide_eq_true_eq] at hf
  refine .plain (by omega) hw rfl rfl ?_
  show some (Instr.mbox k a (t % 256)) = _
  rw [Nat.mod_eq_of_lt hf.2]

/-! ### Scalar and mask -/

theorem scmp_roundTrips {o : SBin} {rel : Rel} (hw : (Instr.scmp o rel).wf = true) : (Instr.scmp o rel).RoundTrips := by
  have := rel.code_lt
  refine .scalar (.scmp · rel) hw (SBin.fits (Bool.and_eq_true_iff.mp hw).1) rfl rfl (by omega) fun lit hm => ?_
  show (Rel.ofCode ((o.raw 0x1B rel.code).m % 8)).map _ = _
  rw [Rel.ofCode_eq (r := rel) (by omega)]
  rfl

theorem ssel_roundTrips {o : SBin} {c : Nat} (hw : (Instr.ssel o c).wf = true) : (Instr.ssel o c).RoundTrips := by
  have hf : (Wf.sbin Ty.isBits o && Wf.ssrcNoImm o.b && decide (c < 8)) = true := hw
  simp only [Bool.and_eq_true, decide_eq_true_eq] at hf
  obtain ⟨⟨hs, _⟩, hc⟩ := hf
  refine .scalar (.ssel · c) hw (SBin.fits hs) rfl rfl (by omega) fun lit hm => ?_
  show some (Instr.ssel _ ((o.raw 0x1D c).m % 8)) = _
  rw [show (o.raw 0x1D c).m % 8 = c by omega]

theorem ktest_roundTrips {m : KMode} (hw : (Instr.ktest k d a m).wf = true) : (Instr.ktest k d a m).RoundTrips := by
  have hf : (Wf.km k && Wf.cd d && Wf.km a) = true := hw
  simp only [Bool.and_eq_true, Wf.km_iff, Wf.cd_iff] at hf
  have := m.code_lt
  refine .plain (by omega) hw rfl rfl ?_
  show (KMode.ofCode (m.code % 4)).map _ = _
  rw [KMode.ofCode_eq (m := m) (by omega)]
  rfl

theorem ksetw_roundTrips {b : SSrc} (hw : (Instr.ksetw k d a b).wf = true) : (Instr.ksetw k d a b).RoundTrips := by
  have hf : (Wf.km k && Wf.kd d && Wf.sc a && Wf.ssrcNoLit b) = true := hw
  simp only [Bool.and_eq_true, Wf.km_iff, Wf.kd_iff, Wf.sc_iff] at hf
  have hb := Wf.ssrcNoLit_field hf.2
  have := b.bits_le
  refine .plain (by omega) hw rfl rfl ?_
  show some (Instr.ksetw k d a (SSrc.ofNoLit _)) = _
  rw [SSrc.ofNoLit_eq rfl rfl hf.2]

theorem kgetw_roundTrips {b : SSrc} (hw : (Instr.kgetw k d a b).wf = true) : (Instr.kgetw k d a b).RoundTrips := by
  have hf : (Wf.km k && Wf.sc d && Wf.km a && Wf.ssrcNoLit b) = true := hw
  simp only [Bool.and_eq_true, Wf.km_iff, Wf.sc_iff] at hf
  have hb := Wf.ssrcNoLit_field hf.2
  have := b.bits_le
  refine .plain (by omega) hw rfl rfl ?_
  show some (Instr.kgetw k d a (SSrc.ofNoLit _)) = _
  rw [SSrc.ofNoLit_eq rfl rfl hf.2]

/-! ### Queues and synchronisation -/

theorem qpush_roundTrips {q : Nat} (hw : (Instr.qpush k a q).wf = true) : (Instr.qpush k a q).RoundTrips := by
  have hf : (Wf.km k && Wf.sc a && decide (q < 16)) = true := hw
  simp only [Bool.and_eq_true, Wf.km_iff, Wf.sc_iff, decide_eq_true_eq] at hf
  refine .plain (by omega) hw rfl rfl ?_
  show some (Instr.qpush k a (q % 16)) = _
  rw [Nat.mod_eq_of_lt hf.2]

theorem qpop_roundTrips {q : Nat} (hw : (Instr.qpop k d q).wf = true) : (Instr.qpop k d q).RoundTrips := by
  have hf : (Wf.km k && Wf.sc d && decide (q < 16)) = true := hw
  simp only [Bool.and_eq_true, Wf.km_iff, Wf.sc_iff, decide_eq_true_eq] at hf
  refine .plain (by omega) hw rfl rfl ?_
  show some (Instr.qpop k d (q % 16)) = _
  rw [Nat.mod_eq_of_lt hf.2]

theorem qtry_roundTrips {n q : Nat} {op : QtryOp} (hw : (Instr.qtry k n op q).wf = true) : (Instr.qtry k n op q).RoundTrips := by
  cases op with
  | push a =>
    have hf : (Wf.km k && Wf.cd n && decide (q < 16) && Wf.sc a) = true := hw
    simp only [Bool.and_eq_true, Wf.km_iff, Wf.cd_iff, Wf.sc_iff, decide_eq_true_eq] at hf
    refine .plain (by omega) hw rfl rfl ?_
    show some (Instr.qtry k ((n * 32 + q) / 32 % 8) (if hasBit (n * 32 + q) 4 then _ else _) ((n * 32 + q) % 16)) = _
    rw [hasBit_false (by omega), show (n * 32 + q) / 32 % 8 = n by omega, show (n * 32 + q) % 16 = q by omega]
    rfl
  | pop d =>
    have hf : (Wf.km k && Wf.cd n && decide (q < 16) && Wf.sc d) = true := hw
    simp only [Bool.and_eq_true, Wf.km_iff, Wf.cd_iff, Wf.sc_iff, decide_eq_true_eq] at hf
    refine .plain (by omega) hw rfl rfl ?_
    show some (Instr.qtry k ((n * 32 + 16 + q) / 32 % 8) (if hasBit (n * 32 + 16 + q) 4 then _ else _) ((n * 32 + 16 + q) % 16)) = _
    rw [hasBit_true (by omega), show (n * 32 + 16 + q) / 32 % 8 = n by omega, show (n * 32 + 16 + q) % 16 = q by omega]
    rfl

theorem bar_roundTrips {c : Bool} (hw : (Instr.bar k c).wf = true) : (Instr.bar k c).RoundTrips := by
  have hf := Wf.km_iff.mp hw
  have := bit_lt c
  refine .plain (by omega) hw rfl rfl ?_
  show some (Instr.bar k (hasBit (bit c) 0)) = _
  rw [hasBit_eq (b := c) (by omega)]

/-! ### Vector instructions -/

theorem vcmp_roundTrips {o : VBin} {rel : Rel} (hw : (Instr.vcmp o rel).wf = true) : (Instr.vcmp o rel).RoundTrips := by
  have hf : (Wf.km o.k && Wf.kd o.d && Wf.vt o.ty o.a && (o.ty.isInt || o.ty.isNarrow) && Wf.vsrc o.ty o.b) = true := hw
  simp only [Bool.and_eq_true, Wf.km_iff, Wf.kd_iff, Wf.vt_iff] at hf
  obtain ⟨⟨⟨⟨hk, hd⟩, ha, _⟩, _⟩, hb⟩ := hf
  have := rel.code_lt
  refine .vector (.vcmp · rel) hw ⟨hk, by omega, ha, Wf.vsrc_field hb⟩ (by decide) rfl rfl (by omega) fun lit hm => ?_
  show (Rel.ofCode ((o.raw 0x52 0 rel.code).m % 8)).map _ = _
  rw [Rel.ofCode_eq (r := rel) (by omega)]
  rfl

theorem vsel_roundTrips {o : VBin} {c : Nat} (hw : (Instr.vsel o c).wf = true) : (Instr.vsel o c).RoundTrips := by
  obtain ⟨hs, hc⟩ := Bool.and_eq_true_iff.mp hw
  rw [Wf.km_iff] at hc
  refine .vector (.vsel · c) hw (VBin.fits hs) (by decide) rfl rfl (by omega) fun lit hm => ?_
  show some (Instr.vsel _ ((o.raw 0x53 0 c).m % 16)) = _
  rw [show (o.raw 0x53 0 c).m % 16 = c by omega]

theorem vaddc_roundTrips {o : VBin} {c : Nat} (hw : (Instr.vaddc o c).wf = true) : (Instr.vaddc o c).RoundTrips := by
  obtain ⟨hs, hc⟩ := Bool.and_eq_true_iff.mp hw
  rw [Wf.kd_iff] at hc
  refine .vector (.vaddc · c) hw (VBin.fits hs) (by decide) rfl rfl (by omega) fun lit hm => ?_
  show some (Instr.vaddc _ ((o.raw 0x59 0 c).m % 16)) = _
  rw [show (o.raw 0x59 0 c).m % 16 = c by omega]

theorem vlane_roundTrips {w : Bool} (hw : (Instr.vlane k d a w).wf = true) : (Instr.vlane k d a w).RoundTrips := by
  have hf : (Wf.km k && Wf.vr d && Wf.sc a) = true := hw
  simp only [Bool.and_eq_true, Wf.km_iff, Wf.vr_iff, Wf.sc_iff] at hf
  have := bit_lt w
  refine .plain (by omega) hw rfl rfl ?_
  show some (Instr.vlane k d a (hasBit (bit w) 0)) = _
  rw [hasBit_eq (b := w) (by omega)]

/-- A vector instruction whose modifier has one further bit, bit 0. -/
theorem withBit {f : VBin → Bool → Instr} {op : Nat} {o : VBin} {c : Bool} (hw : (f o c).wf = true) (hs : o.Fits)
    (he : encode (f o c) = wordV op o 0 (bit c)) (hop : literalOp op = true)
    (hc : ∀ r lit, r = o.raw op 0 (bit c) → r.candidate (op / 16) lit = some (f (VBin.of r lit) (hasBit r.m 0))) :
    (f o c).RoundTrips := by
  have := bit_lt c
  refine .vector (f · c) hw hs (by decide) he hop (by omega) fun lit hm => ?_
  rw [hc _ _ rfl, hasBit_eq (b := c) (by omega)]

/-- A vector instruction whose modifier has a rounding field. -/
theorem withRounding {f : VBin → Rm → Instr} {op fs : Nat} {o : VBin} {rm : Rm} (hw : (f o rm).wf = true) (hs : o.Fits) (hfs : fs < 4)
    (he : encode (f o rm) = wordV op o fs rm.code) (hop : literalOp op = true)
    (hc : ∀ r lit, r = o.raw op fs rm.code → r.candidate (op / 16) lit = some (f (VBin.of r lit) (.ofCode (r.m % 4)))) :
    (f o rm).RoundTrips := by
  have := rm.code_lt
  refine .vector (f · rm) hw hs hfs he hop (by omega) fun lit hm => ?_
  rw [hc _ _ rfl, Rm.ofCode_eq (r := rm) (by omega)]

theorem vfcmp_roundTrips {o : VBin} {rel : Rel} {u sig half : Bool} (hw : (Instr.vfcmp o rel u sig half).wf = true) :
    (Instr.vfcmp o rel u sig half).RoundTrips := by
  have hf : (Wf.km o.k && Wf.kd o.d && Wf.vt o.ty o.a && o.ty.isFloat && Wf.vsrc o.ty o.b && (!half || o.ty.isPacked)) = true := hw
  simp only [Bool.and_eq_true, Wf.km_iff, Wf.kd_iff, Wf.vt_iff] at hf
  obtain ⟨⟨⟨⟨⟨hk, hd⟩, ha, _⟩, _⟩, hb⟩, _⟩ := hf
  have := rel.code_lt; have := bit_lt u; have := bit_lt sig; have := bit_lt half
  refine .vector (.vfcmp · rel u sig half) hw ⟨hk, by omega, ha, Wf.vsrc_field hb⟩ (by decide) rfl rfl (by omega) fun lit hm => ?_
  generalize hl : bit half * 32 + bit sig * 16 + bit u * 8 + rel.code = low at hm ⊢
  show (Rel.ofCode ((o.raw 0x6C 0 low).m % 8)).map (Instr.vfcmp _ · (hasBit (o.raw 0x6C 0 low).m 3) (hasBit (o.raw 0x6C 0 low).m 4)
    (hasBit (o.raw 0x6C 0 low).m 5)) = _
  rw [Rel.ofCode_eq (r := rel) (by omega), hasBit_eq (b := u) (by omega), hasBit_eq (b := sig) (by omega),
    hasBit_eq (b := half) (by omega)]
  rfl

theorem vfcopysign_roundTrips {o : VBin} {m : CsMode} (hw : (Instr.vfcopysign o m).wf = true) : (Instr.vfcopysign o m).RoundTrips := by
  have := m.code_lt
  refine .vector (.vfcopysign · m) hw (VBin.fits hw) (by decide) rfl rfl (by omega) fun lit hm => ?_
  show (CsMode.ofCode ((o.raw 0x74 0 m.code).m % 4)).map _ = _
  rw [CsMode.ofCode_eq (m := m) (by omega)]
  rfl

theorem vshfl_roundTrips {o : VBin} {m : ShMode} (hw : (Instr.vshfl o m).wf = true) : (Instr.vshfl o m).RoundTrips := by
  have := m.code_lt
  refine .vector (.vshfl · m) hw (VBin.fits_single hw) (by decide) rfl rfl (by omega) fun lit hm => ?_
  show some (Instr.vshfl _ (ShMode.ofCode ((o.raw 0x90 0 m.code).m % 4))) = _
  rw [ShMode.ofCode_eq (m := m) (by omega)]

/-- VQNT and VDQNT: the byte of the element (spec/11 R249). -/
theorem withByte {f : VBin → Nat → Instr} {op : Nat} {o : VBin} {c : Nat} (hw : (f o c).wf = true)
    (hf : (Wf.vbin Ty.isTapered o && decide (c < 4) && (o.ty == .t8 || c == 0)) = true) (he : encode (f o c) = wordV op o 0 c)
    (hop : literalOp op = true)
    (hc : ∀ r lit, r = o.raw op 0 c → r.candidate (op / 16) lit = some (f (VBin.of r lit) (r.m % 4))) : (f o c).RoundTrips := by
  simp only [Bool.and_eq_true, decide_eq_true_eq] at hf
  obtain ⟨⟨hs, hc4⟩, _⟩ := hf
  refine .vector (f · c) hw (VBin.fits hs) (by decide) he hop (by omega) fun lit hm => ?_
  rw [hc _ _ rfl, show (o.raw op 0 c).m % 4 = c by omega]

theorem vfsqrt_roundTrips {o : VUn} {rm : Rm} (hw : (Instr.vfsqrt o fs rm).wf = true) : (Instr.vfsqrt o fs rm).RoundTrips := by
  obtain ⟨hs, hf⟩ := Bool.and_eq_true_iff.mp hw
  have := rm.code_lt
  refine .unary (.vfsqrt · fs rm) hw (VUn.fits hs) (Wf.fs_iff.mp hf) rfl rfl (by omega) fun hm => ?_
  show some (Instr.vfsqrt _ fs (Rm.ofCode ((o.raw 0x65 fs rm.code).m % 4))) = _
  rw [Rm.ofCode_eq (r := rm) (by omega)]

theorem vfrnd_roundTrips {o : VUn} {rm : Rm} {ex : Bool} (hw : (Instr.vfrnd o rm ex).wf = true) : (Instr.vfrnd o rm ex).RoundTrips := by
  have := rm.code_lt; have := bit_lt ex
  refine .unary (.vfrnd · rm ex) hw (VUn.fits hw) (by decide) rfl rfl (by omega) fun hm => ?_
  generalize hl : bit ex * 4 + rm.code = low at hm ⊢
  show some (Instr.vfrnd _ (Rm.ofCode ((o.raw 0x6E 0 low).m % 4)) (hasBit (o.raw 0x6E 0 low).m 2)) = _
  rw [Rm.ofCode_eq (r := rm) (by omega), hasBit_eq (b := ex) (by omega)]

theorem vunpk_roundTrips {o : VUn} {c : Bool} (hw : (Instr.vunpk o c).wf = true) : (Instr.vunpk o c).RoundTrips := by
  have := bit_lt c
  refine .unary (.vunpk · c) hw (VUn.fits hw) (by decide) rfl rfl (by omega) fun hm => ?_
  show some (Instr.vunpk _ (hasBit (o.raw 0x82 0 (bit c)).m 0)) = _
  rw [hasBit_eq (b := c) (by omega)]

theorem vfold_roundTrips {o : VUn} {x : FOp} {num : Bool} (hw : (Instr.vfold o x num).wf = true) : (Instr.vfold o x num).RoundTrips := by
  have hf : (Wf.km o.k && Wf.sc o.d && Wf.vt o.ty o.a && Wf.fop x o.ty num) = true := hw
  simp only [Bool.and_eq_true, Wf.km_iff, Wf.sc_iff, Wf.vt_iff] at hf
  obtain ⟨⟨⟨hk, hd⟩, ha, _⟩, _⟩ := hf
  have := x.code_lt; have := bit_lt num
  refine .unary (.vfold · x num) hw ⟨hk, by omega, ha⟩ (by decide) rfl rfl (by omega) fun hm => ?_
  generalize hl : bit num * 16 + x.code = low at hm ⊢
  show (FOp.ofCode ((o.raw 0x92 0 low).m % 16)).map (Instr.vfold _ · (hasBit (o.raw 0x92 0 low).m 4)) = _
  rw [FOp.ofCode_eq (o := x) (by omega), hasBit_eq (b := num) (by omega)]
  rfl

theorem vscan_roundTrips {o : VUn} {x : FOp} {num ex : Bool} (hw : (Instr.vscan o x num ex).wf = true) :
    (Instr.vscan o x num ex).RoundTrips := by
  have hf : (Wf.km o.k && Wf.vt o.ty o.d && Wf.vt o.ty o.a && Wf.fop x o.ty num) = true := hw
  simp only [Bool.and_eq_true, Wf.km_iff, Wf.vt_iff] at hf
  obtain ⟨⟨⟨hk, hd, _⟩, ha, _⟩, _⟩ := hf
  have := x.code_lt; have := bit_lt num; have := bit_lt ex
  refine .unary (.vscan · x num ex) hw ⟨hk, hd, ha⟩ (by decide) rfl rfl (by omega) fun hm => ?_
  generalize hl : bit ex * 32 + bit num * 16 + x.code = low at hm ⊢
  show (FOp.ofCode ((o.raw 0x93 0 low).m % 16)).map
    (Instr.vscan _ · (hasBit (o.raw 0x93 0 low).m 4) (hasBit (o.raw 0x93 0 low).m 5)) = _
  rw [FOp.ofCode_eq (o := x) (by omega), hasBit_eq (b := num) (by omega), hasBit_eq (b := ex) (by omega)]
  rfl

theorem vcvt_roundTrips {dst src : Ty} {rm : Rm} (hw : (Instr.vcvt k d a dst src rm).wf = true) :
    (Instr.vcvt k d a dst src rm).RoundTrips := by
  have hf : (Wf.km k && Wf.vt dst d && Wf.vt src a && dst.isCvt && src.isCvt && dst != src && (dst.isFloat || src.isFloat)) = true := hw
  simp only [Bool.and_eq_true, Wf.km_iff, Wf.vt_iff] at hf
  obtain ⟨⟨⟨⟨⟨⟨hk, hd, _⟩, ha, _⟩, _⟩, _⟩, _⟩, _⟩ := hf
  have := dst.code_lt; have := src.code_lt; have := rm.code_lt
  refine .plain (by omega) hw rfl rfl ?_
  generalize hm : dst.code * 2048 + src.code * 32 + rm.code = m
  show some (Instr.vcvt k d a (Ty.ofCode (m / 2048 % 16)) (Ty.ofCode (m / 32 % 16)) (Rm.ofCode (m % 4))) = _
  rw [Ty.ofCode_eq (t := dst) (by omega), Ty.ofCode_eq (t := src) (by omega), Rm.ofCode_eq (r := rm) (by omega)]

/-- VREADL and VWRITEL (spec/11 R250). -/
theorem laneIndex {f : Nat → Nat → Nat → Ty → LSrc → Instr} {op : Nat} {ty : Ty} {b : LSrc} (hw : (f k d a ty b).wf = true)
    (hf : k < 16 ∧ d < 2048 ∧ a < 2048 ∧ Wf.lsrc b = true)
    (he : encode (f k d a ty b) = some ⟨pack ⟨op, k, 0, d, a, b.field, ty.code * 2048 + b.bits⟩, b.literal⟩)
    (hop : literalOp op = true)
    (hc : ∀ m lit, Raw.candidate ⟨op, k, 0, d, a, b.field, m⟩ (op / 16) lit =
      some (f k d a (Ty.ofCode (m / 2048 % 16)) (LSrc.of ⟨op, k, 0, d, a, b.field, m⟩ lit))) : (f k d a ty b).RoundTrips := by
  obtain ⟨hk, hd, ha, hb⟩ := hf
  have := Wf.lsrc_field hb
  have := b.bits_le
  have := ty.code_lt
  refine .withLiteral (by omega) hw he hop (LSrc.literal_isSome (t := ty.code) (low := 0) (Nat.add_zero _).symm (by decide)) ?_
  rw [hc, LSrc.of_eq (t := ty.code) (low := 0) (Nat.add_zero _).symm (by decide) rfl, Ty.ofCode_eq (t := ty) (by omega)]

/-! ### Memory -/

theorem ldpk_roundTrips {nv u t6 : Bool} (hw : (Instr.ldpk k fs d a b nv u t6).wf = true) : (Instr.ldpk k fs d a b nv u t6).RoundTrips := by
  have hf : (Wf.km k && Wf.fs fs && Wf.vr d && Wf.sc a && Wf.nvub nv u b) = true := hw
  simp only [Wf.nvub, Bool.and_eq_true, Wf.km_iff, Wf.fs_iff, Wf.vr_iff, Wf.sc_iff] at hf
  obtain ⟨⟨⟨⟨hk, hfs⟩, hd⟩, ha⟩, hb, _⟩ := hf
  have := bit_lt nv; have := bit_lt u
  generalize ht : (if t6 then Ty.t6 else Ty.t8) = ty
  have hcode : (if t6 then 13 else 12) = ty.code := by subst ht; cases t6 <;> rfl
  have hm : (if t6 then 13 else 12) * 2048 + bit nv * 1024 + bit u * 8 = ty.code * 2048 + bit nv * 1024 + bit u * 8 := by rw [hcode]
  have := ty.code_lt
  refine .plain (by omega) hw rfl rfl ?_
  rw [hm]
  generalize hm' : ty.code * 2048 + bit nv * 1024 + bit u * 8 = m
  show (if (Ty.ofCode (m / 2048 % 16)).isTapered then some (Instr.ldpk k fs d a b (hasBit m 10) (hasBit m 3)
    (decide (Ty.ofCode (m / 2048 % 16) = .t6))) else none) = _
  rw [Ty.ofCode_eq (t := ty) (by omega), hasBit_eq (b := nv) (by omega), hasBit_eq (b := u) (by omega)]
  subst ht
  cases t6 <;> rfl

theorem pref_roundTrips {nv u llc : Bool} (hw : (Instr.pref k a b nv u llc).wf = true) : (Instr.pref k a b nv u llc).RoundTrips := by
  have hf : (Wf.km k && Wf.sc a && Wf.nvub nv u b) = true := hw
  simp only [Wf.nvub, Bool.and_eq_true, Wf.km_iff, Wf.vr_iff, Wf.sc_iff] at hf
  obtain ⟨⟨hk, ha⟩, hb, _⟩ := hf
  have := bit_lt nv; have := bit_lt u; have := bit_lt llc
  refine .plain (by omega) hw rfl rfl ?_
  generalize hm : bit nv * 1024 + bit u * 8 + bit llc = m
  show some (Instr.pref k a b (hasBit m 10) (hasBit m 3) (hasBit m 0)) = _
  rw [hasBit_eq (b := nv) (by omega), hasBit_eq (b := u) (by omega), hasBit_eq (b := llc) (by omega)]

theorem stashdrop_roundTrips {c : Bool} (hw : (Instr.stashdrop k d c).wf = true) : (Instr.stashdrop k d c).RoundTrips := by
  have hf : (Wf.km k && Wf.sc d) = true := hw
  simp only [Bool.and_eq_true, Wf.km_iff, Wf.sc_iff] at hf
  have := bit_lt c
  refine .plain (by omega) hw rfl rfl ?_
  show some (Instr.stashdrop k d (hasBit (bit c) 0)) = _
  rw [hasBit_eq (b := c) (by omega)]

/-- The atomics and reductions that name an operation (spec/13 R277). -/
theorem withOperation {f : AtOp → AOp → Instr} {op : Nat} {o : AtOp} {x : AOp} {p : Order → Bool} (hw : (f o x).wf = true)
    (hs : Wf.atc p o = true) (he : encode (f o x) = wordAt op o x.code) (hop : plainOp op = true)
    (hc : ∀ r, r = o.raw op x.code → r.candidate (op / 16) 0 =
      (AtOp.of r).bind fun o => (AOp.ofCode (r.m % 16)).bind fun x => some (f o x)) : (f o x).RoundTrips := by
  have := x.code_lt
  refine .atomic (f · x) hw hs he hop (by omega) fun h => ?_
  rw [hc _ rfl, h, AOp.ofCode_raw]
  rfl

/-! ### Allowance counters -/

theorem alinit_roundTrips {b : LSrc} (hw : (Instr.alinit k a b).wf = true) : (Instr.alinit k a b).RoundTrips := by
  have hf : (Wf.km k && Wf.sc a && Wf.lsrc b) = true := hw
  simp only [Bool.and_eq_true, Wf.km_iff, Wf.sc_iff] at hf
  have := Wf.lsrc_field hf.2
  have := b.bits_le
  refine .withLiteral (by omega) hw rfl rfl (LSrc.literal_isSome (t := 0) (low := 0) (by omega) (by decide)) ?_
  show some (Instr.alinit k a (LSrc.of _ _)) = _
  rw [LSrc.of_eq (t := 0) (low := 0) (by simp) (by decide) rfl]

theorem aldec_roundTrips {b : LSrc} {acq w : Bool} {sc : Scope} (hw : (Instr.aldec k fs d a b acq sc w).wf = true) :
    (Instr.aldec k fs d a b acq sc w).RoundTrips := by
  have hf : (Wf.km k && Wf.fs fs && decide (d < 8) && (w || decide (0 < d)) && Wf.sc a && Wf.lsrc b && (acq || sc == .team)) = true := hw
  simp only [Bool.and_eq_true, Wf.km_iff, Wf.fs_iff, Wf.sc_iff, decide_eq_true_eq] at hf
  obtain ⟨⟨⟨⟨⟨⟨hk, hfs⟩, hd⟩, _⟩, ha⟩, hb⟩, _⟩ := hf
  have := Wf.lsrc_field hb
  have := b.bits_le; have := sc.code_lt; have := bit_lt acq; have := bit_lt w
  have := b.bits_mod
  refine .withLiteral (by omega) hw rfl rfl
    (LSrc.literal_isSome (t := 0) (low := sc.code * 128 + bit acq * 16 + bit w * 8) (by omega) (by omega)) ?_
  generalize hm : b.bits + sc.code * 128 + bit acq * 16 + bit w * 8 = m
  show (Scope.ofCode (m / 128 % 8)).bind (fun s => some (Instr.aldec k fs d a (LSrc.of _ _) (hasBit m 4) s (hasBit m 3))) = _
  rw [Scope.ofCode_eq (s := sc) (by omega), hasBit_eq (b := acq) (by omega), hasBit_eq (b := w) (by omega),
    LSrc.of_eq (t := 0) (low := sc.code * 128 + bit acq * 16 + bit w * 8) (by show m = _; omega) (by omega) rfl]
  rfl

theorem alinc_roundTrips {b : LSrc} {rel : Bool} {sc : Scope} (hw : (Instr.alinc k a b rel sc).wf = true) :
    (Instr.alinc k a b rel sc).RoundTrips := by
  have hf : (Wf.km k && Wf.sc a && Wf.lsrc b && (rel || sc == .team)) = true := hw
  simp only [Bool.and_eq_true, Wf.km_iff, Wf.sc_iff] at hf
  obtain ⟨⟨⟨hk, ha⟩, hb⟩, _⟩ := hf
  have := Wf.lsrc_field hb
  have := b.bits_le; have := sc.code_lt; have := bit_lt rel
  have := b.bits_mod
  refine .withLiteral (by omega) hw rfl rfl
    (LSrc.literal_isSome (t := 0) (low := sc.code * 128 + bit rel * 32) (by omega) (by omega)) ?_
  generalize hm : b.bits + sc.code * 128 + bit rel * 32 = m
  show (Scope.ofCode (m / 128 % 8)).bind (fun s => some (Instr.alinc k a (LSrc.of _ _) (hasBit m 5) s)) = _
  rw [Scope.ofCode_eq (s := sc) (by omega), hasBit_eq (b := rel) (by omega),
    LSrc.of_eq (t := 0) (low := sc.code * 128 + bit rel * 32) (by show m = _; omega) (by omega) rfl]
  rfl

theorem alrd_roundTrips {acq : Bool} {sc : Scope} (hw : (Instr.alrd k fs d a acq sc).wf = true) :
    (Instr.alrd k fs d a acq sc).RoundTrips := by
  have hf : (Wf.km k && Wf.fs fs && Wf.sc d && Wf.sc a && (acq || sc == .team)) = true := hw
  simp only [Bool.and_eq_true, Wf.km_iff, Wf.fs_iff, Wf.sc_iff] at hf
  obtain ⟨⟨⟨⟨hk, hfs⟩, hd⟩, ha⟩, _⟩ := hf
  have := sc.code_lt; have := bit_lt acq
  refine .plain (by omega) hw rfl rfl ?_
  generalize hm : sc.code * 128 + bit acq * 16 = m
  show (Scope.ofCode (m / 128 % 8)).bind (fun s => some (Instr.alrd k fs d a (hasBit m 4) s)) = _
  rw [Scope.ofCode_eq (s := sc) (by omega), hasBit_eq (b := acq) (by omega)]
  rfl

/-! ### Fences and maintenance -/

theorem fence_roundTrips {o : Order} {sc : Scope} (hw : (Instr.fence k o sc).wf = true) : (Instr.fence k o sc).RoundTrips := by
  have hk := Wf.km_iff.mp (Bool.and_eq_true_iff.mp hw).1
  have := o.code_lt; have := sc.code_lt
  refine .plain (by omega) hw rfl rfl ?_
  generalize hm : sc.code * 128 + o.code * 16 = m
  show (Order.ofCode (m / 16 % 8)).bind (fun o => (Scope.ofCode (m / 128 % 8)).bind fun s => some (Instr.fence k o s)) = _
  rw [Order.ofCode_eq (o := o) (by omega), Scope.ofCode_eq (s := sc) (by omega)]
  rfl

/-- FENCEO and FENCER (spec/13 R287, R288). -/
theorem scopeFence {f : Nat → Scope → Instr} {op : Nat} {sc : Scope} (hw : (f k sc).wf = true) (hk : k < 16)
    (he : encode (f k sc) = word1 op k 0 0 0 0 (sc.code * 128)) (hop : plainOp op = true)
    (hc : ∀ m, Raw.candidate ⟨op, k, 0, 0, 0, 0, m⟩ (op / 16) 0 = (Scope.ofCode (m / 128 % 8)).map (f k)) : (f k sc).RoundTrips := by
  have := sc.code_lt
  refine .plain (by omega) hw he hop ?_
  rw [hc, Scope.ofCode_eq (s := sc) (by omega)]
  rfl

theorem cmaint_roundTrips {o : CmOp} {l : CmLevel} (hw : (Instr.cmaint k a b o l).wf = true) : (Instr.cmaint k a b o l).RoundTrips := by
  have hf : (Wf.km k && Wf.sc a && Wf.sc b) = true := hw
  simp only [Bool.and_eq_true, Wf.km_iff, Wf.sc_iff] at hf
  have := o.code_lt; have := l.code_lt
  refine .plain (by omega) hw rfl rfl ?_
  generalize hm : l.code * 4 + o.code = m
  show (CmOp.ofCode (m % 4)).bind (fun o => (CmLevel.ofCode (m / 4 % 4)).bind fun l => some (Instr.cmaint k a b o l)) = _
  rw [CmOp.ofCode_eq (o := o) (by omega), CmLevel.ofCode_eq (l := l) (by omega)]
  rfl

/-! ### Matrix and engine commands -/

theorem mxmma_roundTrips {ty : Ty} {reuse sparse : Bool} {sm : Nat} (hw : (Instr.mxmma k fs d a b ty reuse sparse sm).wf = true) :
    (Instr.mxmma k fs d a b ty reuse sparse sm).RoundTrips := by
  have hf : (Wf.km k && Wf.fs fs && Wf.vt ty d && Wf.vt ty a && Wf.sc b && ty.isMx && Wf.sc sm && (sparse || sm == 0)
      && decide (d + 32 ≤ a ∨ a + Wf.nA ty ≤ d)) = true := hw
  simp only [Bool.and_eq_true, Wf.km_iff, Wf.fs_iff, Wf.vt_iff, Wf.sc_iff] at hf
  obtain ⟨⟨⟨⟨⟨⟨⟨⟨hk, hfs⟩, hd, _⟩, ha, _⟩, hb⟩, _⟩, hsm⟩, _⟩, _⟩ := hf
  have := ty.code_lt; have := bit_lt reuse; have := bit_lt sparse
  refine .plain (by omega) hw rfl rfl ?_
  generalize hm : ty.code * 2048 + sm * 16 + bit reuse * 8 + bit sparse * 4 = m
  show some (Instr.mxmma k fs d a b (Ty.ofCode (m / 2048 % 16)) (hasBit m 3) (hasBit m 2) (m / 16 % 128)) = _
  rw [Ty.ofCode_eq (t := ty) (by omega), hasBit_eq (b := reuse) (by omega), hasBit_eq (b := sparse) (by omega),
    show m / 16 % 128 = sm by omega]

theorem mxsca_roundTrips {e : Nat} (hw : (Instr.mxsca k fs d a b e).wf = true) : (Instr.mxsca k fs d a b e).RoundTrips := by
  have hf : (Wf.km k && Wf.fs fs && Wf.vr d && Wf.vr a && Wf.vr b && Wf.sc e && Wf.sameOrApart d a 32) = true := hw
  simp only [Bool.and_eq_true, Wf.km_iff, Wf.fs_iff, Wf.vr_iff, Wf.sc_iff] at hf
  have hcode : Ty.f.code = 8 := rfl
  refine .plain (by omega) hw rfl rfl ?_
  generalize hm : Ty.f.code * 2048 + e * 16 = m
  show (if Ty.ofCode (m / 2048 % 16) = .f then some (Instr.mxsca k fs d a b (m / 16 % 128)) else none) = _
  rw [Ty.ofCode_eq (t := .f) (by omega), show m / 16 % 128 = e by omega]
  rfl

/-- The matrix instructions whose modifier is their type alone (spec/15 R310-R312). -/
theorem typeOnly {i : Instr} {op k fs d a b : Nat} {ty : Ty} (hf : k < 16 ∧ fs < 4 ∧ d < 2048 ∧ a < 2048 ∧ b < 2048) (hw : i.wf = true)
    (he : encode i = word1 op k fs d a b (ty.code * 2048)) (hop : plainOp op = true)
    (hc : ∀ m, Ty.ofCode (m / 2048 % 16) = ty → Raw.candidate ⟨op, k, fs, d, a, b, m⟩ (op / 16) 0 = some i) : i.RoundTrips := by
  have := ty.code_lt
  exact .plain (by omega) hw he hop (hc _ (Ty.ofCode_eq (by omega)))

theorem qst_roundTrips {ty : Ty} {q : Nat} {col reset : Bool} (hw : (Instr.qst k fs d a ty q col reset).wf = true) :
    (Instr.qst k fs d a ty q col reset).RoundTrips := by
  have hf : (Wf.km k && Wf.fs fs && decide (d < 127) && Wf.sc a && ty.isTapered && decide (q < 8)) = true := hw
  simp only [Bool.and_eq_true, Wf.km_iff, Wf.fs_iff, Wf.sc_iff, decide_eq_true_eq] at hf
  obtain ⟨⟨⟨⟨⟨hk, hfs⟩, hd⟩, ha⟩, _⟩, hq⟩ := hf
  have := ty.code_lt; have := bit_lt col; have := bit_lt reset
  refine .plain (by omega) hw rfl rfl ?_
  generalize hm : ty.code * 2048 + q * 256 + bit col * 16 + bit reset * 8 = m
  show some (Instr.qst k fs d a (Ty.ofCode (m / 2048 % 16)) (m / 256 % 8) (hasBit m 4) (hasBit m 3)) = _
  rw [Ty.ofCode_eq (t := ty) (by omega), show m / 256 % 8 = q by omega, hasBit_eq (b := col) (by omega), hasBit_eq (b := reset) (by omega)]

theorem qstd_roundTrips {ty : Ty} {qa qb : Nat} {reset : Bool} (hw : (Instr.qstd k fs d a ty qa qb reset).wf = true) :
    (Instr.qstd k fs d a ty qa qb reset).RoundTrips := by
  have hf : (Wf.km k && Wf.fs fs && decide (d < 125) && Wf.sc a && ty.isTapered && decide (qa < 8) && decide (qb < 8)
      && qa != qb) = true := hw
  simp only [Bool.and_eq_true, Wf.km_iff, Wf.fs_iff, Wf.sc_iff, decide_eq_true_eq] at hf
  obtain ⟨⟨⟨⟨⟨⟨⟨hk, hfs⟩, hd⟩, ha⟩, _⟩, hqa⟩, hqb⟩, _⟩ := hf
  have := ty.code_lt; have := bit_lt reset
  refine .plain (by omega) hw rfl rfl ?_
  generalize hm : ty.code * 2048 + qa * 256 + qb * 32 + bit reset * 8 = m
  show some (Instr.qstd k fs d a (Ty.ofCode (m / 2048 % 16)) (m / 256 % 8) (m / 32 % 8) (hasBit m 3)) = _
  rw [Ty.ofCode_eq (t := ty) (by omega), show m / 256 % 8 = qa by omega, show m / 32 % 8 = qb by omega, hasBit_eq (b := reset) (by omega)]

/-- QLOAD and QSAVE (spec/15 R329, R330). -/
theorem quantState {f : Nat → Nat → Nat → Nat → Instr} {op q : Nat} (hw : (f k fs a q).wf = true)
    (hf : (Wf.km k && Wf.fs fs && Wf.sc a && decide (q < 8)) = true) (he : encode (f k fs a q) = word1 op k fs 0 a 0 (q * 256))
    (hop : plainOp op = true)
    (hc : ∀ m, Raw.candidate ⟨op, k, fs, 0, a, 0, m⟩ (op / 16) 0 = some (f k fs a (m / 256 % 8))) : (f k fs a q).RoundTrips := by
  simp only [Bool.and_eq_true, Wf.km_iff, Wf.fs_iff, Wf.sc_iff, decide_eq_true_eq] at hf
  refine .plain (by omega) hw he hop ?_
  rw [hc, show q * 256 / 256 % 8 = q by omega]

end

/-! ### Every instruction -/

/-- Constructor by constructor, by the form of its row. -/
theorem roundTrips {i : Instr} (hw : i.wf = true) (he : Safety.isEvent i = false) : i.RoundTrips := by
  cases i with
  | nop k | exit k | yield k | brkpt k | mxacq k | mxrel k =>
    have hf := Wf.km_iff.mp hw
    exact .plain (by omega) hw rfl rfl rfl
  | br o =>
    exact .branch (c := 0) (s := false) (l := 0) hw rfl rfl ⟨hw, by decide, by decide⟩ fun w h _ _ _ ho => by
      simp only [candBranch, h, ho]
  | brc c s o =>
    obtain ⟨hc, ho⟩ := Bool.and_eq_true_iff.mp hw
    have hc' : c < 8 := decide_eq_true_iff.mp hc
    exact .branch (l := 0) hw rfl rfl ⟨ho, by omega, by decide⟩ fun w h hc hs _ ho => by
      simp only [candBranch, h, hc, hs, ho]
  | brz m s o =>
    obtain ⟨hm, ho⟩ := Bool.and_eq_true_iff.mp hw
    exact .branch (l := 0) hw rfl rfl ⟨ho, Wf.km_iff.mp hm, by decide⟩ fun w h hc hs _ ho => by
      simp only [candBranch, h, hc, hs, ho]
  | call l o =>
    obtain ⟨hl, ho⟩ := Bool.and_eq_true_iff.mp hw
    exact .branch (c := 0) (s := false) hw rfl rfl ⟨ho, by decide, Wf.sc_iff.mp hl⟩ fun w h _ _ hl ho => by
      simp only [candBranch, h, hl, ho]
  | loop l o =>
    obtain ⟨hl, ho⟩ := Bool.and_eq_true_iff.mp hw
    exact .branch (c := 0) (s := false) hw rfl rfl ⟨ho, by decide, Wf.sc_iff.mp (Bool.and_eq_true_iff.mp hl).1⟩
      fun w h _ _ hl ho => by simp only [candBranch, h, hl, ho]
  | jmp k a | escalate k a | waitb k a | alfree k a | unpin k a =>
    have hf : (Wf.km k && Wf.sc a) = true := hw
    simp only [Bool.and_eq_true, Wf.km_iff, Wf.sc_iff] at hf
    exact .plain (by omega) hw rfl rfl rfl
  | trap k c => exact trap_roundTrips hw
  | rtt k s => exact rtt_roundTrips hw
  | getsys k d sel => exact getsys_roundTrips hw
  | setsys k a sel => exact setsys_roundTrips hw
  | mbox k a t => exact mbox_roundTrips hw
  | sadd o | ssub o | smul o | smulh o | sdiv o | srem o | sand o | sor o | sxor o | sshl o | sshr o | smin o | smax o =>
    exact .scalar _ hw (SBin.fits hw) rfl rfl (by decide) fun _ _ => rfl
  | smov o => exact .scalar _ hw (SBin.fits (Bool.and_eq_true_iff.mp hw).1) rfl rfl (by decide) fun _ _ => rfl
  | scmp o rel => exact scmp_roundTrips hw
  | ssel o c => exact ssel_roundTrips hw
  | kand k d a b | kor k d a b | kxor k d a b | kandn k d a b =>
    have hf : (Wf.km k && Wf.kd d && Wf.km a && Wf.km b) = true := hw
    simp only [Bool.and_eq_true, Wf.km_iff, Wf.kd_iff] at hf
    exact .plain (by omega) hw rfl rfl rfl
  | knot k d a | kmov k d a =>
    have hf : (Wf.km k && Wf.kd d && Wf.km a) = true := hw
    simp only [Bool.and_eq_true, Wf.km_iff, Wf.kd_iff] at hf
    exact .plain (by omega) hw rfl rfl rfl
  | kcnt k d a | kfirst k d a =>
    have hf : (Wf.km k && Wf.sc d && Wf.km a) = true := hw
    simp only [Bool.and_eq_true, Wf.km_iff, Wf.sc_iff] at hf
    exact .plain (by omega) hw rfl rfl rfl
  | ktest k d a m => exact ktest_roundTrips hw
  | kfromv k d a =>
    have hf : (Wf.km k && Wf.kd d && Wf.vr a) = true := hw
    simp only [Bool.and_eq_true, Wf.km_iff, Wf.kd_iff, Wf.vr_iff] at hf
    exact .plain (by omega) hw rfl rfl rfl
  | ktov k d a =>
    have hf : (Wf.km k && Wf.vr d && Wf.km a) = true := hw
    simp only [Bool.and_eq_true, Wf.km_iff, Wf.vr_iff] at hf
    exact .plain (by omega) hw rfl rfl rfl
  | ksetw k d a b => exact ksetw_roundTrips hw
  | kgetw k d a b => exact kgetw_roundTrips hw
  | qpush k a q => exact qpush_roundTrips hw
  | qpop k d q => exact qpop_roundTrips hw
  | qtry k n op q => exact qtry_roundTrips hw
  | bar k c => exact bar_roundTrips hw
  | spawn k a b =>
    have hf : (Wf.km k && Wf.vr a && Wf.sc b) = true := hw
    simp only [Bool.and_eq_true, Wf.km_iff, Wf.vr_iff, Wf.sc_iff] at hf
    exact .plain (by omega) hw rfl rfl rfl
  | batch k d =>
    have hf : (Wf.km k && Wf.sc d) = true := hw
    simp only [Bool.and_eq_true, Wf.km_iff, Wf.sc_iff] at hf
    exact .plain (by omega) hw rfl rfl rfl
  | cwait k a b | tlblock k a b | tlbunlock k a b | pgunmap k a b =>
    have hf : (Wf.km k && Wf.sc a && Wf.sc b) = true := hw
    simp only [Bool.and_eq_true, Wf.km_iff, Wf.sc_iff] at hf
    exact .plain (by omega) hw rfl rfl rfl
  | ctest k d a b | pgmap k d a b =>
    have hf : (Wf.km k && Wf.cd d && Wf.sc a && Wf.sc b) = true := hw
    simp only [Bool.and_eq_true, Wf.km_iff, Wf.cd_iff, Wf.sc_iff] at hf
    exact .plain (by omega) hw rfl rfl rfl
  | vadd o | vsub o | vmul o | vmulh o | vdiv o | vrem o | vmin o | vmax o | vand o | vor o | vxor o | vshl o | vshr o | vrot o
  | vbfe o =>
    exact .vector _ hw (VBin.fits hw) (by decide) rfl rfl (by decide) fun _ _ => rfl
  | vmov o => exact .vector _ hw (VBin.fits (Bool.and_eq_true_iff.mp hw).1) (by decide) rfl rfl (by decide) fun _ _ => rfl
  | vxch o => exact .vector _ hw (VBin.fits_single hw) (by decide) rfl rfl (by decide) fun _ _ => rfl
  | vmulw o =>
    have hf : (Wf.km o.k && Wf.vr o.d && o.d % 2 == 0 && Wf.vr o.a && (o.ty == .i32 || o.ty == .n32) && Wf.vsrc1 o.b) = true := hw
    simp only [Bool.and_eq_true, Wf.km_iff, Wf.vr_iff] at hf
    obtain ⟨⟨⟨⟨⟨hk, hd⟩, _⟩, ha⟩, _⟩, hb⟩ := hf
    exact .vector _ hw ⟨hk, hd, ha, Wf.vsrc1_field hb⟩ (by decide) rfl rfl (by decide) fun _ _ => rfl
  | vcmp o rel => exact vcmp_roundTrips hw
  | vsel o ks => exact vsel_roundTrips hw
  | vaddc o kc => exact vaddc_roundTrips hw
  | vadds o s | vfmin o s | vfmax o s => exact withBit hw (VBin.fits hw) rfl rfl fun _ _ h => by rw [h]; rfl
  | vlane k d a w => exact vlane_roundTrips hw
  | vmad o | vbfi o | vfma o => exact .threeSource _ hw hw rfl rfl rfl
  | vabs o | vneg o | vnot o | vpopc o | vclz o | vfrsqs o | vfrcps o | vfabs o | vfneg o | vfexp2 o | vflog2 o | vfgetexp o
  | vfgetman o =>
    exact .unary _ hw (VUn.fits hw) (by decide) rfl rfl (by decide) fun _ => rfl
  | vfclass o =>
    have hf : (Wf.km o.k && Wf.vr o.d && Wf.vt o.ty o.a && o.ty.isFloat) = true := hw
    simp only [Bool.and_eq_true, Wf.km_iff, Wf.vr_iff, Wf.vt_iff] at hf
    obtain ⟨⟨⟨hk, hd⟩, ha, _⟩, _⟩ := hf
    exact .unary _ hw ⟨hk, hd, ha⟩ (by decide) rfl rfl (by decide) fun _ => rfl
  | vfadd o rm | vfsub o rm | vfmul o rm =>
    exact withRounding hw (VBin.fits hw) (by decide) rfl rfl fun _ _ h => by rw [h]; rfl
  | vpack o rm =>
    exact withRounding hw (VBin.fits (Bool.and_eq_true_iff.mp hw).1) (by decide) rfl rfl fun _ _ h => by rw [h]; rfl
  | vfdiv o fs rm =>
    obtain ⟨hs, hf⟩ := Bool.and_eq_true_iff.mp hw
    exact withRounding (f := fun o rm => .vfdiv o fs rm) hw (VBin.fits hs) (Wf.fs_iff.mp hf) rfl rfl fun _ _ h => by rw [h]; rfl
  | vfscale o rm => exact withRounding hw (VBin.fits_single hw) (by decide) rfl rfl fun _ _ h => by rw [h]; rfl
  | vfsqrt o fs rm => exact vfsqrt_roundTrips hw
  | vfcmp o rel u sig half => exact vfcmp_roundTrips hw
  | vfrnd o rm ex => exact vfrnd_roundTrips hw
  | vfcopysign o m => exact vfcopysign_roundTrips hw
  | vcvt k d a dst src rm => exact vcvt_roundTrips hw
  | vunpk o h => exact vunpk_roundTrips hw
  | vqnt o b | vdqnt o b => exact withByte hw hw rfl rfl fun _ _ h => by rw [h]; rfl
  | vshfl o m => exact vshfl_roundTrips hw
  | vfold o x num => exact vfold_roundTrips hw
  | vscan o x num ex => exact vscan_roundTrips hw
  | vapnd k d a =>
    have hf : (Wf.km k && Wf.vr d && Wf.sc a) = true := hw
    simp only [Bool.and_eq_true, Wf.km_iff, Wf.vr_iff, Wf.sc_iff] at hf
    exact .plain (by omega) hw rfl rfl rfl
  | vreadl k d a ty b =>
    have hf : (Wf.km k && Wf.sc d && Wf.vt ty a && ty.isBits && Wf.lsrc b) = true := hw
    simp only [Bool.and_eq_true, Wf.km_iff, Wf.sc_iff, Wf.vt_iff] at hf
    obtain ⟨⟨⟨⟨hk, hd⟩, ha, _⟩, _⟩, hb⟩ := hf
    exact laneIndex hw ⟨hk, by omega, ha, hb⟩ rfl rfl fun _ _ => rfl
  | vwritel k d a ty b =>
    have hf : (Wf.km k && Wf.vt ty d && Wf.sc a && ty.isBits && Wf.lsrc b) = true := hw
    simp only [Bool.and_eq_true, Wf.km_iff, Wf.sc_iff, Wf.vt_iff] at hf
    obtain ⟨⟨⟨⟨hk, hd, _⟩, ha⟩, _⟩, hb⟩ := hf
    exact laneIndex hw ⟨hk, hd, by omega, hb⟩ rfl rfl fun _ _ => rfl
  | ld o => exact .access _ hw (MemOp.fits_mem hw) rfl rfl rfl
  | st o => exact .access _ hw (MemOp.fits_mem (Bool.and_eq_true_iff.mp hw).1) rfl rfl rfl
  | lds o => exact .access _ hw (MemOp.fits_smem hw) rfl rfl rfl
  | sts o => exact .access _ hw (MemOp.fits_smem (Bool.and_eq_true_iff.mp hw).1) rfl rfl rfl
  | ldasof o =>
    have hf : (Wf.km o.k && Wf.fs o.fs && Wf.vr o.d && Wf.sc o.a && Wf.nvub o.nv false o.b && Wf.sc o.st
      && Wf.vwidth o.width o.d) = true := hw
    simp only [Wf.nvub, Bool.and_eq_true, Wf.km_iff, Wf.fs_iff, Wf.vr_iff, Wf.sc_iff] at hf
    obtain ⟨⟨⟨⟨⟨⟨hk, hfs⟩, hd⟩, ha⟩, hb, _⟩, hst⟩, _⟩ := hf
    exact .asof _ hw ⟨hk, hfs, hd, by omega, hb, hst⟩ rfl rfl rfl
  | ldasofs o =>
    have hf : (Wf.km o.k && Wf.fs o.fs && Wf.sc o.d && Wf.sc o.a && o.b == 0 && !o.nv && Wf.sc o.st && Wf.swidth o.width) = true := hw
    simp only [Bool.and_eq_true, Wf.km_iff, Wf.fs_iff, Wf.sc_iff, beq_iff_eq] at hf
    obtain ⟨⟨⟨⟨⟨⟨⟨hk, hfs⟩, hd⟩, ha⟩, hb⟩, _⟩, hst⟩, _⟩ := hf
    exact .asof _ hw ⟨hk, hfs, by omega, by omega, by omega, hst⟩ rfl rfl rfl
  | ldpk k fs d a b nv u t6 => exact ldpk_roundTrips hw
  | pref k a b nv u llc => exact pref_roundTrips hw
  | stashmap k d a b =>
    have hf : (Wf.km k && Wf.sc d && Wf.sc a && Wf.sc b) = true := hw
    simp only [Bool.and_eq_true, Wf.km_iff, Wf.sc_iff] at hf
    exact .plain (by omega) hw rfl rfl rfl
  | stashdrop k d c => exact stashdrop_roundTrips hw
  | atom o op =>
    have hf : (Wf.atc (fun _ => true) o && Wf.aop op o.ty && Wf.vt o.ty o.d) = true := hw
    simp only [Bool.and_eq_true] at hf
    obtain ⟨⟨hs, _⟩, _⟩ := hf
    exact withOperation hw hs rfl rfl fun _ h => by rw [h]; rfl
  | red o op =>
    have hf : (Wf.atc Wf.redOrder o && Wf.aop op o.ty && Wf.vt o.ty o.d && o.fs == 0) = true := hw
    simp only [Bool.and_eq_true] at hf
    obtain ⟨⟨⟨hs, _⟩, _⟩, _⟩ := hf
    exact withOperation hw hs rfl rfl fun _ h => by rw [h]; rfl
  | vatom o op =>
    have hf : (Wf.atc (fun _ => true) o && Wf.aop op o.ty && op != .inc && o.d % 2 == 0) = true := hw
    simp only [Bool.and_eq_true] at hf
    obtain ⟨⟨⟨hs, _⟩, _⟩, _⟩ := hf
    exact withOperation hw hs rfl rfl fun _ h => by rw [h]; rfl
  | vred o op =>
    have hf : (Wf.atc Wf.redOrder o && Wf.aop op o.ty && op != .inc && o.d % 2 == 0 && o.fs == 0) = true := hw
    simp only [Bool.and_eq_true] at hf
    obtain ⟨⟨⟨⟨hs, _⟩, _⟩, _⟩, _⟩ := hf
    exact withOperation hw hs rfl rfl fun _ h => by rw [h]; rfl
  | atcas o =>
    have hf : (Wf.atc (fun _ => true) o && Wf.casTy o.ty && Wf.vt o.ty o.d) = true := hw
    simp only [Bool.and_eq_true] at hf
    obtain ⟨⟨hs, _⟩, _⟩ := hf
    refine .atomic _ hw hs rfl rfl (by decide) fun h => ?_
    show (AtOp.of (o.raw 0xC1 0)).map _ = _
    rw [h]
    rfl
  | alinit k a b => exact alinit_roundTrips hw
  | aldec k fs d a b acq sc w => exact aldec_roundTrips hw
  | alinc k a b rel sc => exact alinc_roundTrips hw
  | alrd k fs d a acq sc => exact alrd_roundTrips hw
  | fence k o sc => exact fence_roundTrips hw
  | fenceo k sc | fencer k sc =>
    exact scopeFence hw (Wf.km_iff.mp (Bool.and_eq_true_iff.mp hw).1) rfl rfl fun _ => rfl
  | cmaint k a b o l => exact cmaint_roundTrips hw
  | stampget k fs d | horizon k fs d =>
    have hf : (Wf.km k && Wf.fs fs && Wf.sc d && decide (0 < d)) = true := hw
    simp only [Bool.and_eq_true, Wf.km_iff, Wf.fs_iff, Wf.sc_iff] at hf
    exact .plain (by omega) hw rfl rfl rfl
  | snap k fs d =>
    have hf : (Wf.km k && Wf.fs fs && decide (0 < d ∧ d < 127)) = true := hw
    simp only [Bool.and_eq_true, Wf.km_iff, Wf.fs_iff, decide_eq_true_eq] at hf
    exact .plain (by omega) hw rfl rfl rfl
  | pin k fs d a =>
    have hf : (Wf.km k && Wf.fs fs && Wf.sc d && decide (0 < d) && Wf.sc a) = true := hw
    simp only [Bool.and_eq_true, Wf.km_iff, Wf.fs_iff, Wf.sc_iff] at hf
    exact .plain (by omega) hw rfl rfl rfl
  | mxmma k fs d a b ty reuse sparse sm => exact mxmma_roundTrips hw
  | mxsca k fs d a b e => exact mxsca_roundTrips hw
  | mxperm k fs d a b ty =>
    have hf : (Wf.km k && Wf.fs fs && Wf.vt ty d && Wf.vt ty a && Wf.vr b && ty.isBits && Wf.sameOrApart d a 32) = true := hw
    simp only [Bool.and_eq_true, Wf.km_iff, Wf.fs_iff, Wf.vt_iff, Wf.vr_iff] at hf
    obtain ⟨⟨⟨⟨⟨⟨hk, hfs⟩, hd, _⟩, ha, _⟩, hb⟩, _⟩, _⟩ := hf
    exact typeOnly ⟨hk, hfs, hd, ha, hb⟩ hw rfl rfl fun _ h => by rw [← h]; rfl
  | mxtrn k fs d a ty =>
    have hf : (Wf.km k && Wf.fs fs && Wf.vt ty d && Wf.vt ty a && ty.isBits && Wf.sameOrApart d a 32) = true := hw
    simp only [Bool.and_eq_true, Wf.km_iff, Wf.fs_iff, Wf.vt_iff] at hf
    obtain ⟨⟨⟨⟨⟨hk, hfs⟩, hd, _⟩, ha, _⟩, _⟩, _⟩ := hf
    exact typeOnly ⟨hk, hfs, hd, ha, by decide⟩ hw rfl rfl fun _ h => by rw [← h]; rfl
  | mxrsum k fs d a ty =>
    have hf : (Wf.km k && Wf.fs fs && Wf.vt ty d && Wf.vt ty a && ty.isMx
      && decide (d + (if ty.is64 then 2 else 1) ≤ a ∨ a + Wf.nA ty ≤ d)) = true := hw
    simp only [Bool.and_eq_true, Wf.km_iff, Wf.fs_iff, Wf.vt_iff] at hf
    obtain ⟨⟨⟨⟨⟨hk, hfs⟩, hd, _⟩, ha, _⟩, _⟩, _⟩ := hf
    exact typeOnly ⟨hk, hfs, hd, ha, by decide⟩ hw rfl rfl fun _ h => by rw [← h]; rfl
  | cpin o f => exact .copy (.cpin · f) hw hw rfl rfl fun _ h ho hb => by rw [← ho, ← hb, h]; rfl
  | cpout o | cppeer o => exact .copy _ hw hw rfl rfl fun _ h ho _ => by rw [← ho, h]; rfl
  | qst k fs d a ty q col reset => exact qst_roundTrips hw
  | qstd k fs d a ty qa qb reset => exact qstd_roundTrips hw
  | qload k fs a q | qsave k fs a q => exact quantState hw hw rfl rfl fun _ => rfl
  | nmc k fs d a =>
    have hf : (Wf.km k && Wf.fs fs && Wf.sc d && decide (a < 125)) = true := hw
    simp only [Bool.and_eq_true, Wf.km_iff, Wf.fs_iff, Wf.sc_iff, decide_eq_true_eq] at hf
    exact .plain (by omega) hw rfl rfl rfl
  | dualWord x y => exact .dual hw
  | clauseEntry h => exact .clause hw
  | _ => exact absurd he.symm Bool.false_ne_true

/-- Settles O54: every instruction reads back, by the form of its row. -/
theorem encodeDecodeRoundTrip : Obligations.EncodeDecodeRoundTrip := fun _ hw he => roundTrips hw he

/-- A header that decodes is legal, and its word is the one that packs it. -/
theorem decodeHeader_ok {w : Nat} {h : Header} (hd : decodeHeader w = .ok h) : Wf.header h = true ∧ packHeader h = w ∧ form w = 2 := by
  rw [decodeHeader] at hd
  split at hd
  · dsimp only at hd
    split at hd
    · cases hd
      exact ⟨(‹_ ∧ _›).1, (‹_ ∧ _›).2, ‹_›⟩
    · cases hd
  · cases hd

/-- What decodes inside a clause was accepted. -/
theorem accept_of_decodeInstr {w : Nat} {lit : BitVec 64} {i : Instr} (h : decodeInstr w lit = .ok i) :
    ∃ j, accept w lit j = .ok i := by
  unfold decodeInstr at h
  split at h
  · split at h
    · split at h
      · exact ⟨_, h⟩
      · cases h
    · cases h
  · split at h
    · exact ⟨_, h⟩
    · cases h
  · cases h

/-- Settles O55: the decoder accepts a candidate only where it encodes back. -/
theorem decodedWordsEncodeBack : Obligations.DecodedWordsEncodeBack := by
  unfold Obligations.DecodedWordsEncodeBack
  intro w lit i _ hd
  rw [decodeWords] at hd
  split at hd
  case isTrue hf =>
    obtain ⟨h, hh, rfl⟩ : ∃ h, decodeHeader w = .ok h ∧ Instr.clauseEntry h = i := by
      cases hd' : decodeHeader w with
      | error e => rw [hd'] at hd; cases hd
      | ok h => rw [hd'] at hd; cases hd; exact ⟨h, rfl, rfl⟩
    obtain ⟨hw, hp, _⟩ := decodeHeader_ok hh
    have hn : ¬wordCount w = 2 := by simp [wordCount, hf]
    rw [if_neg hn]
    exact ⟨hw, congrArg (fun n => some (Words.mk n none)) hp⟩
  case isFalse =>
    obtain ⟨j, hj⟩ := accept_of_decodeInstr hd
    obtain ⟨rfl, hw, he⟩ := accept_ok.mp hj
    exact ⟨hw, he⟩

/-- Settles O53: each word is decoded by evaluation. -/
theorem decodeWords : Obligations.DecodeWords := by
  unfold Obligations.DecodeWords
  refine ⟨?_, ?_, ?_, ?_, ?_, ?_, ?_⟩
  all_goals decide +kernel

end Sys2Proof.Proofs.Encoding
end

section
/-! O3 and O4: the system registers and the transfers (spec/07 R165, R166; spec/09 R197, R198, R208; spec/21 R394). -/

namespace Sys2Proof.Laws

open Sys2Proof.Machine Sys2Proof.Spec

/-! ### The summary of a mask -/

/-- The number whose bit `w` is set exactly where `p w` fails, over the words below `n`. -/
theorem foldl_bits (p : Nat → Prop) [DecidablePred p] (n : Nat) :
    let x := (List.range n).foldl (fun a w => a + (if p w then 0 else 2 ^ w)) 0
    x < 2 ^ n ∧ (x = 0 ↔ ∀ w, w < n → p w) := by
  induction n with
  | zero => simp
  | succ n ih =>
    obtain ⟨hlt, hz⟩ := ih
    simp only [List.range_succ, List.foldl_append, List.foldl_cons, List.foldl_nil]
    have hpos : 0 < 2 ^ n := Nat.two_pow_pos n
    refine ⟨by rw [Nat.pow_succ]; split <;> omega, ?_⟩
    by_cases hp : p n
    · simp only [if_pos hp, Nat.add_zero, hz]
      refine ⟨fun h w hw => ?_, fun h w hw => h w (by omega)⟩
      rcases Nat.lt_succ_iff_lt_or_eq.mp hw with h' | rfl
      · exact h w h'
      · exact hp
    · simp only [if_neg hp]
      exact ⟨fun h => by omega, fun h => absurd (h n (Nat.lt_succ_self n)) hp⟩

/-- A mask is zero where each of its 32 words is. -/
theorem eq_zero_of_words (m : Mask) (h : ∀ w, w < 32 → m.toNat / 2 ^ (32 * w) % 2 ^ 32 = 0) : m = 0 := by
  refine BitVec.eq_of_getLsbD_eq fun i hi => ?_
  have hw := congrArg (Nat.testBit · (i % 32)) (h (i / 32) (by omega))
  simp only [Nat.testBit_mod_two_pow, Nat.testBit_div_two_pow, Nat.zero_testBit] at hw
  rw [show i % 32 + 32 * (i / 32) = i by omega, show decide (i % 32 < 32) = true from decide_eq_true (by omega),
    Bool.true_and] at hw
  exact hw.trans (by simp)

/-- The hardware's test of a mask by its summary is the test of the mask (spec/03 R48). -/
theorem summary_eq_zero (m : Mask) : summary m = 0 ↔ m = 0 := by
  obtain ⟨hlt, hz⟩ := foldl_bits (fun w => m.toNat / 2 ^ (32 * w) % 2 ^ 32 = 0) 32
  constructor
  · intro h
    refine eq_zero_of_words m (hz.mp ?_)
    have := congrArg BitVec.toNat h
    rwa [summary, BitVec.toNat_ofNat, Nat.mod_eq_of_lt hlt] at this
  · rintro rfl
    have h0 := hz.mpr fun w _ => by simp
    rw [summary, h0]
    rfl

/-! ### Batches that are complete -/

/-- The least of a start and the bounds of a list: not above any of them, and one of them. -/
theorem foldl_min {α : Type} (f : α → Option Nat) (l : List α) (n : Nat) :
    let x := l.foldl (fun n c => match f c with | some b => min n b | none => n) n
    x ≤ n ∧ (∀ c ∈ l, ∀ b, f c = some b → x ≤ b) ∧ (x = n ∨ ∃ c ∈ l, f c = some x) := by
  induction l generalizing n with
  | nil => simp
  | cons c l ih =>
    obtain ⟨hle, hall, hone⟩ := ih (match f c with | some b => min n b | none => n)
    cases hc : f c with
    | none =>
      simp only [hc, List.foldl_cons] at hle hall hone ⊢
      refine ⟨hle, ?_, ?_⟩
      · rintro d hd b hb
        rcases List.mem_cons.mp hd with rfl | hd
        · rw [hc] at hb; cases hb
        · exact hall d hd b hb
      · exact hone.imp_right fun ⟨d, hd, hb⟩ => ⟨d, List.mem_cons_of_mem _ hd, hb⟩
    | some m =>
      simp only [hc, List.foldl_cons] at hle hall hone ⊢
      refine ⟨by omega, ?_, ?_⟩
      · rintro d hd b hb
        rcases List.mem_cons.mp hd with rfl | hd
        · rw [hc] at hb; cases hb; omega
        · exact hall d hd b hb
      · rcases hone with h | ⟨d, hd, hb⟩
        · rcases Nat.le_total n m with hnm | hnm
          · exact .inl (by omega)
          · exact .inr ⟨c, List.mem_cons_self, by rw [hc, h, Nat.min_eq_right hnm]⟩
        · exact .inr ⟨d, List.mem_cons_of_mem _ hd, hb⟩

/-- The last batch before the one a command of the team belongs to. -/
def batchBefore (tid : Nat) (c : Nat × Cmd) : Option Nat := if c.2.team = tid then c.2.batch.map (· - 1) else none

theorem batchBefore_eq_some {tid n : Nat} {c : Nat × Cmd} :
    batchBefore tid c = some n ↔ ∃ b, c.2.team = tid ∧ c.2.batch = some b ∧ n = b - 1 := by
  unfold batchBefore
  split
  · simp_all [eq_comm]
  · simp_all

theorem batchDone_eq (s : State) (tid : Nat) (t : Team) : batchDone s tid t =
    s.cmds.foldl (fun n c => match batchBefore tid c with | some b => min n b | none => n) (t.batchNext - 1) := by
  unfold batchDone batchBefore
  congr 1
  funext n c
  cases c.2.batch <;> by_cases h : c.2.team = tid <;> simp [h]

/-! ### Two halves of a 64-bit value -/

theorem wrT_b64 (r l : Nat) (x : W64) :
    wrT .b64 r l x.toNat = [.v r l (x.setWidth 32), .v (r + 1) l ((x >>> 32).setWidth 32)] := by
  have h1 : BitVec.ofNat 32 x.toNat = x.setWidth 32 := BitVec.ofNat_toNat 32 x
  have h2 : BitVec.ofNat 32 (x.toNat / 2 ^ 32) = (x >>> 32).setWidth 32 := by
    rw [← Nat.shiftRight_eq_div_pow, ← BitVec.toNat_ushiftRight]
    exact BitVec.ofNat_toNat 32 _
  show [Wr.v r l (BitVec.ofNat 32 x.toNat), Wr.v (r + 1) l (BitVec.ofNat 32 (x.toNat / 2 ^ 32))] = _
  rw [h1, h2]

end Sys2Proof.Laws

namespace Sys2Proof.Proofs.Control

open Sys2Proof.Machine Sys2Proof.Spec Sys2Proof.Laws

section

variable {s s1 : State} {tid k d a : Nat} {t : Team}

/-! ### System registers -/

/-- Where no long arithmetic is pending for FPFLAGS, GETSYS writes what the register holds. -/
theorem getsys_completes {sel : Sel} (h : CanIssue s tid t (.getsys k d sel)) (hp : sel = .fpflags → flagsPending s tid = false) :
    Completes (.getsys k d sel) s tid (writeRegs s tid (getsysWrites s tid t d sel)) := by
  refine go_of h (if_neg ?_)
  rw [Bool.and_eq_true, decide_eq_true_eq]
  rintro ⟨hs, hf⟩
  exact Bool.false_ne_true ((hp hs).symm.trans hf)

theorem setsys_completes {sel : Sel} (h : CanIssue s tid t (.setsys k a sel))
    (hp : sel = .fpflags ∨ sel = .fpmode → flagsPending s tid = false) :
    Completes (.setsys k a sel) s tid (setsysState s tid t sel (sget (viewOf s tid t) a)) := by
  refine go_of h (if_neg ?_)
  rw [Bool.and_eq_true, Bool.or_eq_true, decide_eq_true_eq, decide_eq_true_eq]
  rintro ⟨hs, hf⟩
  exact Bool.false_ne_true ((hp hs).symm.trans hf)

/-- The writes of a selector, by another name. -/
theorem getsys_completes_of {sel : Sel} {ws : List Wr} (hws : getsysWrites s tid t d sel = ws) (h : CanIssue s tid t (.getsys k d sel))
    (hp : sel = .fpflags → flagsPending s tid = false) : Completes (.getsys k d sel) s tid (writeRegs s tid ws) :=
  hws ▸ getsys_completes h hp

theorem setsys_completes_of {sel : Sel} (hs : setsysState s tid t sel (sget (viewOf s tid t) a) = s1)
    (h : CanIssue s tid t (.setsys k a sel)) (hp : sel = .fpflags ∨ sel = .fpmode → flagsPending s tid = false) :
    Completes (.setsys k a sel) s tid s1 :=
  hs ▸ setsys_completes h hp

theorem faultaddr_writes : getsysWrites s tid t d .faultaddr = (List.range t.lanes).flatMap fun l =>
    [.v d l ((smGet 0 t.faultaddr l).setWidth 32), .v (d + 1) l ((smGet 0 t.faultaddr l >>> 32).setWidth 32)] := by
  simp only [getsysWrites, wrT_b64]

theorem contextRegister_writes {c : Context} (hc : tbGet s.contexts t.ctx = some c) :
    getsysWrites s tid t d .handlerbase = [.s d c.handlerbase] ∧ getsysWrites s tid t d .poolcounter = [.s d c.poolcounter] ∧
      getsysWrites s tid t d .redlogbase = [.s d c.redlogbase] := by
  simp only [getsysWrites, hc, and_self]

theorem systemRegisterReads : Spec.SystemRegisterReads := by
  intro s tid t k d
  refine ⟨getsys_completes, getsys_completes, getsys_completes, getsys_completes, getsys_completes, getsys_completes, getsys_completes,
    getsys_completes, getsys_completes, getsys_completes, getsys_completes, getsys_completes, getsys_completes, getsys_completes,
    getsys_completes, getsys_completes, getsys_completes, getsys_completes, getsys_completes_of faultaddr_writes, getsys_completes,
    fun c hc => ?ctx, fun h => ?batchdone⟩
  case ctx =>
    obtain ⟨h1, h2, h3⟩ := contextRegister_writes (s := s) (tid := tid) (d := d) hc
    exact ⟨getsys_completes_of h1, getsys_completes_of h2, getsys_completes_of h3⟩
  case batchdone =>
    obtain ⟨hle, hall, hone⟩ := foldl_min (batchBefore tid) s.cmds (t.batchNext - 1)
    rw [← batchDone_eq] at hle hall hone
    refine ⟨batchDone s tid t, getsys_completes h (by simp), hle, fun c hc b ht hb => ?_, hone.imp_right fun ⟨c, hc, hb⟩ => ?_⟩
    · exact hall c hc _ (batchBefore_eq_some.mpr ⟨b, ht, hb, rfl⟩)
    · obtain ⟨b, hb⟩ := batchBefore_eq_some.mp hb
      exact ⟨c, hc, b, hb⟩

/-- The limit of R394 is reached where the logical part passes it. -/
theorem stampfloor_state {v : W64} : setsysState s tid t .stampfloor v =
    modTeam s tid fun t => raiseFloor t (if 2 ^ 53 < v.toNat / 1024 then BitVec.ofNat 64 (2 ^ 63) else v) := rfl

theorem systemRegisterWrites : Spec.SystemRegisterWrites := by
  intro s tid t k a
  refine ⟨setsys_completes_of ?fpmode, setsys_completes_of ?fpflags, setsys_completes_of rfl, setsys_completes_of rfl,
    setsys_completes_of rfl, fun hv => setsys_completes_of ?low, fun hv => setsys_completes_of ?high⟩
  case fpmode => simp only [setsysState, BitVec.ofNat_toNat]
  case fpflags => simp only [setsysState, BitVec.ofNat_toNat]
  case low => rw [stampfloor_state, if_neg (Nat.not_lt.mpr hv)]; rfl
  case high => rw [stampfloor_state, if_pos hv]

/-- Settles O3: what each selector reads, and the state each writable one leaves. -/
theorem systemRegisters : Obligations.SystemRegisters := ⟨systemRegisterReads, systemRegisterWrites⟩

/-! ### Transfers -/

/-- An instruction whose body jumps reaches an aligned target, and faults at any other (spec/09 R197, R198). -/
theorem reaches {i : Instr} {body : Team → Team → Nat → State → Act} {target : W64} (hi : exec i s = issue i s body)
    (hb : body (viewOf s tid t) t tid s = .jump s1 target) : CanIssue s tid t i → (target.toNat % 8 = 0 → Jumps i s tid s1 target) ∧
      (target.toNat % 8 ≠ 0 → Faults i s tid t s ⟨.misaligned, 0, t.live, [], 1, 0⟩) := fun h =>
  ⟨fun ha => hi.trans (jump_of h hb ha), fun ha => hi.trans (badJump_of h hb ha)⟩

theorem falls {i : Instr} {body : Team → Team → Nat → State → Act} (hi : exec i s = issue i s body)
    (hb : body (viewOf s tid t) t tid s = .go s1) (h : CanIssue s tid t i) : Completes i s tid s1 := hi.trans (go_of h hb)

end

/-- Settles O4: each transfer's body jumps or goes on by its condition; LOOP's is its count less one. -/
theorem branchesAndCalls : Obligations.BranchesAndCalls := by
  unfold Obligations.BranchesAndCalls
  intro s tid t off
  refine ⟨reaches rfl rfl, fun c sns => ⟨fun hc => reaches rfl (if_pos (bne_iff_ne.mpr hc)),
      fun hc => falls rfl (if_neg (by simp [hc]))⟩,
    fun m sns => ⟨fun hc => reaches rfl (if_pos ?taken), fun hc => falls rfl (if_neg ?untaken)⟩,
    fun lnk => reaches rfl rfl, fun k a => reaches rfl rfl, fun lnk => ⟨fun hc => reaches rfl (if_pos ?loops), fun hc => falls rfl ?ends⟩⟩
  case taken => simpa only [summary_eq_zero, bne_iff_ne] using hc
  case untaken => simpa only [summary_eq_zero, bne_iff_ne, ne_eq, not_not] using hc
  case loops => exact fun h => hc (sub_eq_zero.mp h)
  case ends => simp [hc]

end Sys2Proof.Proofs.Control
end

section
/-! O13: the dual word (spec/07 R160-R163). The arithmetic of a slot works on numbers, the statement's on bit vectors of the slot's width; a slot
whose function is that of its bit vectors writes what the full form writes. -/

namespace Sys2Proof.Laws

open Sys2Proof.Machine Sys2Proof.Spec

theorem tyWidth_pos (ty : Ty) : 0 < tyWidth ty := by cases ty <;> decide

/-- A result in a scalar is extended by its type (spec/09 R210). -/
theorem scalarResult_toNat (ty : Ty) (z : BitVec (tyWidth ty)) : scalarResult ty z.toNat = to64 ty z := by
  cases ty
  case i32 => exact congrArg (BitVec.ofInt 64) (toSigned_eq (by decide) z)
  case n32 | b32 =>
    show BitVec.ofNat 64 (z.toNat % 2 ^ 32) = _
    rw [Nat.mod_eq_of_lt (show z.toNat < 2 ^ 32 from z.isLt)]
    exact BitVec.ofNat_toNat 64 z
  all_goals exact BitVec.ofNat_toNat 64 z

theorem vx_toNat (r : Team) (ty : Ty) (a l : Nat) : (vx r ty (tyWidth ty) a l).toNat = vecX r ty a l := BitVec.toNat_ofNat _ _

/-- The writes and the exceptions of a floating-point instruction, lane by lane. -/
theorem fpWrites_eq (r : Team) (k d : Nat) (ty : Ty) (f : Nat → FVal) : fpWrites r k d ty f =
    ((active r k).flatMap fun l => wrT ty d l (f l).1, ((active r k).map fun l => (f l).2).foldl (· ||| ·) 0) := by
  simp only [fpWrites, unionEx, List.flatMap_map, List.map_map]
  rfl

section

variable {r : Team} {x : Slot} {f : Nat → Nat → Nat → Nat}

theorem slotScalarW_eq {z : BitVec (tyWidth x.ty)}
    (h : f (tyWidth x.ty) (sx r (tyWidth x.ty) x.d).toNat (sx r (tyWidth x.ty) x.s).toNat = z.toNat) :
    slotScalarW r x f = ([.s x.d (to64 x.ty z)], 0) := by
  rw [← scalarResult_toNat, ← h]
  simp only [sx, BitVec.toNat_setWidth]
  rfl

theorem slotIntW_eq {z : Nat → BitVec (tyWidth x.ty)}
    (h : ∀ l, f (tyWidth x.ty) (vx r x.ty (tyWidth x.ty) x.d l).toNat (vx r x.ty (tyWidth x.ty) x.s l).toNat = (z l).toNat) :
    slotIntW r x f = (laneWrites r x.k x.d x.ty z, 0) := by
  simp only [vx_toNat] at h
  simp only [slotIntW, laneWrites, ← h]
  rfl

end

end Sys2Proof.Laws

namespace Sys2Proof.Proofs.DualWord

open Sys2Proof.Machine Sys2Proof.Spec Sys2Proof.Laws

/-- Both slots' writes are computed from the team as it was, then made together (spec/07 R163). -/
theorem dualWordReadsBeforeWrites : Spec.DualWordReadsBeforeWrites := fun _ _ _ _ _ h => go_of h rfl

/-- Operation by operation, the slot's function is that of its bit vectors. -/
theorem dualSlotsActAsFullForms : Spec.DualSlotsActAsFullForms := by
  intro r x
  have hw := tyWidth_pos x.ty
  refine ⟨?vfadd, ?vfsub, ?vfmul, ?vfmin, ?vfmax, ?vfabs, ?vfneg, fun h => ?nop, ?sadd, ?ssub, ?sand, ?sor, ?sxor, ?sshl, ?sshr, ?smov,
    ?vadd, ?vsub, ?vand, ?vor, ?vxor, ?vshl, ?vshr, ?vmov, ?vmin, ?vmax⟩
  case nop => simp only [slotWrites, h]
  case vfadd | vfsub | vfmul | vfmin | vfmax | vfabs | vfneg =>
    intro h
    simp only [slotWrites, h]
    exact fpWrites_eq _ _ _ _ _
  case sadd => intro h; simp only [slotWrites, h]; exact slotScalarW_eq (addW_eq _ _)
  case ssub => intro h; simp only [slotWrites, h]; exact slotScalarW_eq (subW_eq _ _)
  case sand => intro h; simp only [slotWrites, h]; exact slotScalarW_eq (BitVec.toNat_and _ _).symm
  case sor => intro h; simp only [slotWrites, h]; exact slotScalarW_eq (BitVec.toNat_or _ _).symm
  case sxor => intro h; simp only [slotWrites, h]; exact slotScalarW_eq (BitVec.toNat_xor _ _).symm
  case sshl => intro h; simp only [slotWrites, h]; exact slotScalarW_eq (shlW_eq _ _)
  case sshr => intro h; simp only [slotWrites, h]; exact slotScalarW_eq (shrW_eq hw _ _ _)
  case smov => intro h; simp only [slotWrites, h]; exact slotScalarW_eq rfl
  case vadd => intro h; simp only [slotWrites, h]; exact slotIntW_eq fun _ => addW_eq _ _
  case vsub => intro h; simp only [slotWrites, h]; exact slotIntW_eq fun _ => subW_eq _ _
  case vand => intro h; simp only [slotWrites, h]; exact slotIntW_eq fun _ => (BitVec.toNat_and _ _).symm
  case vor => intro h; simp only [slotWrites, h]; exact slotIntW_eq fun _ => (BitVec.toNat_or _ _).symm
  case vxor => intro h; simp only [slotWrites, h]; exact slotIntW_eq fun _ => (BitVec.toNat_xor _ _).symm
  case vshl => intro h; simp only [slotWrites, h]; exact slotIntW_eq fun _ => shlW_eq _ _
  case vshr => intro h; simp only [slotWrites, h]; exact slotIntW_eq fun _ => shrW_eq hw _ _ _
  case vmov => intro h; simp only [slotWrites, h]; exact slotIntW_eq fun _ => rfl
  case vmin => intro h; simp only [slotWrites, h]; exact slotIntW_eq fun _ => minW_eq hw _ _ _
  case vmax => intro h; simp only [slotWrites, h]; exact slotIntW_eq fun _ => maxWd_eq hw _ _ _

/-- Settles O13: the two slots together, and each slot by itself. -/
theorem dualWord : Obligations.DualWord := ⟨dualWordReadsBeforeWrites, dualSlotsActAsFullForms⟩

end Sys2Proof.Proofs.DualWord
end

section
/-! O14, O15 and O20: entering a clause, going on to the next word, and reading registers back (spec/07 R140-R146, R171-R174; spec/19 R371). -/

namespace Sys2Proof.Laws

open Sys2Proof.Machine

/-! ### Changes of one team -/

/-- Changes that agree on the entry leave the same table. -/
theorem tbMod_congr {α : Type} {m : Tab α} {k : Nat} {x : α} (h : tbGet m k = some x) {f g : α → α} (hfg : f x = g x) :
    tbMod m k f = tbMod m k g := by
  induction m with
  | nil => rfl
  | cons e m ih =>
    obtain ⟨j, w⟩ := e
    by_cases hj : j = k
    · have hw : w = x := by simpa [tbGet, hj] using h
      simp [tbMod, hj, hw, hfg]
    · simp only [tbMod, if_neg hj, ih (by simpa [tbGet, hj] using h)]

theorem modTeam_congr {s : State} {tid : Nat} {t : Team} (h : s.team tid = some t) {f g : Team → Team} (hfg : f t = g t) :
    modTeam s tid f = modTeam s tid g := congrArg (fun ts => { s with teams := ts }) (tbMod_congr h hfg)

theorem team_modTeam {s : State} {tid : Nat} {t : Team} (h : s.team tid = some t) (f : Team → Team) :
    (modTeam s tid f).team tid = some (f t) :=
  (tbGet_tbMod_self _ _ _).trans (congrArg (Option.map f) h)

theorem team_modTeam_ne {s : State} {tid u : Nat} (h : u ≠ tid) (f : Team → Team) : (modTeam s tid f).team u = s.team u :=
  tbGet_tbMod_ne _ _ h

/-- The team whose word is issued is a team. -/
theorem team_of_curTeam {s : State} {tid : Nat} {t : Team} (h : s.curTeam = some (tid, t)) : s.team tid = some t := by
  unfold State.curTeam at h
  split at h
  · cases h
  · obtain ⟨u, hu, he⟩ := Option.map_eq_some_iff.mp h
    cases he
    exact hu

/-! ### The clause -/

theorem waitClear_eq_false {t : Team} {m : BitVec 12} :
    (!waitClear t m) = true ↔ ∃ f, f < 12 ∧ m.getLsbD f = true ∧ fget t f ≠ 0 := by
  simp only [waitClear, Bool.not_eq_true', List.all_eq_false, List.mem_range, Bool.or_eq_true, Bool.not_eq_true', beq_iff_eq, not_or,
    Bool.not_eq_false]

/-! ### The next word -/

/-- The debugger's step of one clause has ended where the clause has. -/
theorem dbgBoundary_spec (t : Team) : (t.dbg = .none → dbgBoundary t = t) ∧
    (t.dbg = .instruction → dbgBoundary t = { t with dbg := .none, halted := true }) ∧
    (t.dbg = .clause → t.clause = none → dbgBoundary t = { t with dbg := .none, halted := true }) := by
  refine ⟨fun h => ?_, fun h => ?_, fun h hc => ?_⟩
  · simp only [dbgBoundary, h]
  · simp only [dbgBoundary, h]
  · simp only [dbgBoundary, h, hc, Option.isNone_none, if_true]

section

variable {t : Team} {n : Nat} {c : Clause}

theorem nextTeam_outside (h : t.clause = none) : nextTeam t n = { t with pc := t.pc + BitVec.ofNat 64 (8 * n), wait := .none } := by
  simp only [nextTeam, h]

theorem nextTeam_inside (h : t.clause = some c) (hn : (t.pc.toNat - c.addr.toNat) / 8 + n ≤ c.h.len) :
    nextTeam t n = { t with pc := t.pc + BitVec.ofNat 64 (8 * n), wait := .none } := by
  simp only [nextTeam, h, if_pos hn]

theorem nextTeam_ends (h : t.clause = some c) (hn : c.h.len < (t.pc.toNat - c.addr.toNat) / 8 + n) :
    nextTeam t n = { t with pc := t.pc + BitVec.ofNat 64 (8 * n), wait := .none, clause := none, notNext := t.notNext || c.h.yh } := by
  simp only [nextTeam, h, if_neg (Nat.not_le.mpr hn)]

theorem nextTeam_pc (t : Team) (n : Nat) : (nextTeam t n).pc = t.pc + BitVec.ofNat 64 (8 * n) := by
  unfold nextTeam
  dsimp only
  repeat' split
  all_goals rfl

end

/-- The team that goes on: past its words, the debugger's step taken, its floor raised by what it translated through. -/
theorem advance_team {s : State} {tid n : Nat} {t : Team} (h : s.team tid = some t) :
    (advance s tid n).team tid = some (dbgBoundary (raiseFloor (nextTeam t n) s.xlFloor)) := by
  obtain ⟨cs, hs⟩ := advance_frame s tid n
  rw [hs]
  exact (tbGet_tbMod_self _ _ _).trans (congrArg (Option.map _) h)

theorem advance_team_ne (s : State) {tid u : Nat} (n : Nat) (h : u ≠ tid) : (advance s tid n).team u = s.team u := by
  obtain ⟨cs, hs⟩ := advance_frame s tid n
  rw [hs]
  exact tbGet_tbMod_ne _ _ h

theorem advance_cores (s : State) (tid n : Nat) :
    (advance s tid n).cores = (dropOlder (modTeam s tid fun t => nextTeam t n) tid).cores := rfl

theorem dropOlder_none {s : State} (tid : Nat) (h : s.xlSince = 0) : dropOlder s tid = s := if_pos h

theorem dropOlder_some {s : State} {tid : Nat} {t : Team} (ht : s.team tid = some t) (h : s.xlSince ≠ 0) : dropOlder s tid =
    modCore s t.home fun c => { c with l1 := c.l1.filter fun x => !(x.ctx == t.ctx && decide (x.born < s.xlSince)) } := by
  rw [dropOlder, if_neg h, ht]

/-- No line is dropped where the instruction translated through no entry of a PGMAP. -/
theorem advance_cores_kept {s : State} (tid n : Nat) (h : s.xlSince = 0) : (advance s tid n).cores = s.cores := by
  rw [advance_cores, dropOlder_none (s := modTeam s tid fun t => nextTeam t n) tid h]
  rfl

/-- Where it did, the lines of the team's core and context that are older go (spec/19 R371). -/
theorem advance_cores_dropped {s : State} {tid : Nat} {t : Team} (n : Nat) (ht : s.team tid = some t) (h : s.xlSince ≠ 0) :
    (advance s tid n).cores = (modCore s t.home fun c =>
      { c with l1 := c.l1.filter fun x => !(x.ctx == t.ctx && decide (x.born < s.xlSince)) }).cores := by
  have hn : (modTeam s tid fun t => nextTeam t n).team tid = some (nextTeam t n) := team_modTeam ht _
  obtain ⟨p, c, b, hf⟩ := nextTeam_frame t n
  rw [advance_cores, dropOlder_some hn h, hf]
  rfl

end Sys2Proof.Laws

namespace Sys2Proof.Proofs.Clause

open Sys2Proof.Machine Sys2Proof.Spec Sys2Proof.Laws

section

variable {s : State} {tid : Nat} {t : Team} {h : Header}

theorem clauseEntry_runs (hs : s.curTeam = some (tid, t)) (hc : t.clause = none) : exec (.clauseEntry h) s = .next (
    if !(Instr.clauseEntry h).wf then finish (boundary (enterHandler s tid (fltTeam t .illegalEncoding) t.pc false) tid)
    else if decide (t.pre = .drain) && h.safe.isSome then modTeam s tid fun t => { t with pre := .quiesce false }
    else modTeam s tid (enterClause h)) := by
  show execClauseEntry h s = _
  simp only [execClauseEntry, hs, hc, Option.isSome_none, Bool.false_eq_true, if_false]

end

/-- Settles O14: the header's cases, in their order. -/
theorem clauseEntry : Obligations.ClauseEntry := by
  unfold Obligations.ClauseEntry
  intro s tid t h hs hc
  rw [clauseEntry_runs hs hc]
  refine ⟨fun hw hd => ⟨!waitClear t h.wait, ?enters, waitClear_eq_false⟩, fun hw hd hf => ?drains, fun hw => ?illegal⟩
  case enters =>
    have hd' : ¬(decide (t.pre = .drain) && h.safe.isSome) = true := by simpa using hd
    rw [hw, Bool.not_true, if_neg Bool.false_ne_true, if_neg hd']
    exact congrArg _ (modTeam_congr (team_of_curTeam hs) rfl)
  case drains => simp [hw, hd, hf]
  case illegal =>
    rw [hw, Bool.not_false, if_pos rfl]
    rfl

/-- Settles O15: the frame of the step, the lines it drops, and the team it leaves. -/
theorem nextWordOrNextClause : Obligations.NextWordOrNextClause := by
  unfold Obligations.NextWordOrNextClause
  intro s tid n t ht
  obtain ⟨cs, hfr⟩ := advance_frame s tid n
  obtain ⟨p, c, b, hnext⟩ := nextTeam_frame t n
  obtain ⟨d, g, hdbg⟩ := dbgBoundary_frame (raiseFloor (nextTeam t n) s.xlFloor)
  have hp : p = t.pc + BitVec.ofNat 64 (8 * n) := by rw [← nextTeam_pc, hnext]
  obtain ⟨hnone, hinstr, hclause⟩ := dbgBoundary_spec (raiseFloor (nextTeam t n) s.xlFloor)
  have hd : (raiseFloor (nextTeam t n) s.xlFloor).dbg = t.dbg := by rw [hnext]; rfl
  refine ⟨fun u hu => advance_team_ne s n hu, by rw [hfr], advance_cores_kept tid n, advance_cores_dropped n ht, _, advance_team ht,
    ?pc, ?wait, ?team, fun h => ?free, fun h => ?instruction, fun h => ?outside, fun c hc => ⟨fun h => ?inside, fun h => ?ends⟩⟩
  case pc => rw [hdbg, hnext]; exact hp
  case wait => rw [hdbg, hnext]; rfl
  case team => rw [hdbg, hnext]; rfl
  case free => rw [hnone (hd.trans h), hnext]; exact ⟨h, rfl⟩
  case instruction => rw [hinstr (hd.trans h)]; exact ⟨rfl, rfl⟩
  case outside => rw [hdbg, nextTeam_outside h]; exact ⟨h, rfl⟩
  case inside => rw [hdbg, nextTeam_inside hc h]; exact ⟨hc, rfl⟩
  case ends =>
    have he := nextTeam_ends hc h
    refine ⟨by rw [hdbg, he]; rfl, by rw [hdbg, he]; rfl, fun hcl => ?_⟩
    rw [hclause (hd.trans hcl) (by rw [he]; rfl)]

/-- Settles O20: a register reads back what a write left. -/
theorem registersReadBack : Obligations.RegistersReadBack := by
  unfold Obligations.RegistersReadBack
  rintro t ⟨hv, hs, hk, _⟩
  exact ⟨fun n m x => sget_sput n m x hs, sget_zero t, fun n m x => kget_kput n m x hk, kget_zero t,
    fun n m b hn hm => cget_cput t n m b hn hm, cget_zero t, fun r l q m x hl hm => vget_put r l q m x hv hl hm⟩

end Sys2Proof.Proofs.Clause
end

section
/-! O56: what a step runs (spec/07 R139-R144, R157; spec/03 R65, R66; spec/17 R354). The team that is let issue is the one whose issue the step
chooses; what that issue runs is what its words decode to. -/

namespace Sys2Proof.Laws

open Sys2Proof.Machine Sys2Proof.Spec Sys2Proof.Proofs.Encoding

/-- A clause header is no instruction inside a clause: its word is of another form (spec/07 R139). -/
theorem decodeInstr_ne_clauseEntry {w : Nat} {lit : W64} {i : Instr} (hd : decodeInstr w lit = .ok i) (h : Header) :
    i ≠ .clauseEntry h := by
  rintro rfl
  obtain ⟨j, hj⟩ := accept_of_decodeInstr hd
  obtain ⟨rfl, hw, he⟩ := accept_ok.mp hj
  have hf : form w = 2 := by
    obtain rfl : packHeader h = w := congrArg Words.first (Option.some.inj he)
    exact (headerOf_packHeader hw).2.1
  rw [decodeInstr, hf] at hd
  cases hd

/-! ### The choice of a step -/

/-- Where nothing of the agenda is due, the step is the device's own. -/
theorem chooseStep_inner {s : State} (h : ∀ e ∈ s.agenda, s.cycle < e.1) : chooseStep s = innerChoice s := by
  unfold chooseStep
  split
  next c i rest ha => exact if_pos (h (c, i) (by rw [ha]; exact List.mem_cons_self))
  · rfl

theorem step_run {s s' : State} {i : Instr} (h : chooseStep s = .run i s') : step s = onNext afterStep (exec i s') := by
  rw [step, h]

theorem step_done {s s' : State} (h : chooseStep s = .done s') : step s = .next (afterStep s') := by
  rw [step, h]

theorem issueOrDue_picked {s : State} {tid : Nat} {u : Team} (h : pickTeam s = some (tid, u)) : issueOrDue s = issueChoice s tid := by
  rw [issueOrDue, h]

/-- The step chooses the issue of the team that is let issue. -/
theorem chooseStep_of_letsIssue {s s' : State} {tid : Nat} (h : LetsIssue s s' tid) : chooseStep s = issueChoice s' tid := by
  obtain ⟨ha, h⟩ := h
  rw [chooseStep_inner ha, innerChoice]
  rcases h with ⟨hr, rfl, u, hp⟩ | ⟨hr, rfl, u, hf⟩ | ⟨hr, hf, rfl, u, hp⟩
  · obtain ⟨l, hl⟩ := Option.isSome_iff_exists.mp hr
    rw [hl]
    exact issueOrDue_picked hp
  · rw [hr, hf]
  · rw [hr, hf]
    exact issueOrDue_picked hp

/-! ### What an issue fetches -/

section

variable {s s1 s2 : State} {t : Team} {w : Nat}

theorem fetch_header {h : Header} (hc : t.clause = none) (hf : fetchWord s t t.pc = (s1, .ok w)) (hd : decodeHeader w = .ok h) :
    fetch s t = (s1, .instr (.clauseEntry h)) := by
  simp only [fetch, hf, hc, Option.isNone_none, if_true, hd]

theorem fetch_inside {c : Clause} {lit : Nat} {i : Instr} (hc : t.clause = some c) (hf : fetchWord s t t.pc = (s1, .ok w))
    (hl : fetchLit s1 t (wordCount w) = (s2, .ok lit)) (hd : decodeInstr w (BitVec.ofNat 64 lit) = .ok i) :
    fetch s t = (s2, .instr i) := by
  simp only [fetch, hf, hc, Option.isNone_some, Bool.false_eq_true, if_false, hl, decoded, hd]

theorem fetchLit_one (s : State) (t : Team) {n : Nat} (h : n ≠ 2) : fetchLit s t n = (s, .ok 0) := by
  unfold fetchLit
  split
  · rw [if_neg fun hn => h hn.1]
  · rfl

theorem fetchLit_two {c : Clause} {n : Nat} (hc : t.clause = some c) (hn : n = 2)
    (hl : (t.pc.toNat - c.addr.toNat) / 8 < c.h.len) : fetchLit s t n = fetchWord s t (t.pc + 8) := by
  simp only [fetchLit, hc, if_pos (And.intro hn hl)]

end

/-! ### What an issue runs -/

section

variable {s s1 : State} {tid : Nat} {t : Team} (ht : ({ startIssue s tid with cur := some tid } : State).team tid = some t)
include ht

theorem issueChoice_header {h : Header} (hf : fetch { startIssue s tid with cur := some tid } t = (s1, .instr (.clauseEntry h))) :
    issueChoice s tid = .run (.clauseEntry h) s1 := by
  simp only [issueChoice, ht, hf]

theorem issueChoice_instr {i : Instr} (hi : ∀ h, i ≠ .clauseEntry h)
    (hf : fetch { startIssue s tid with cur := some tid } t = (s1, .instr i)) :
    issueChoice s tid = if noDatapath s1 t i then .done (unready s1 tid)
      else .run i (takePath { s1 with chosen := s1.chosen ++ [(tid, t.home)] } t i) := by
  simp only [issueChoice, ht, hf]

end

end Sys2Proof.Laws

namespace Sys2Proof.Proofs.Stepping

open Sys2Proof.Machine Sys2Proof.Spec Sys2Proof.Laws

/-- Settles O56: the step chooses the team's issue, which runs what was fetched. -/
theorem stepRunsDecodedInstruction : Obligations.StepRunsDecodedInstruction := by
  unfold Obligations.StepRunsDecodedInstruction
  intro s s' tid t hl s0 ht
  have hruns (i : Instr) (lit : W64) (w : Nat) (hd : decodeInstr w lit = .ok i) (s2 : State) (hf : fetch s0 t = (s2, .instr i)) :
      (noDatapath s2 t i = false →
        step s = onNext afterStep (exec i (takePath { s2 with chosen := s2.chosen ++ [(tid, t.home)] } t i))) ∧
      (noDatapath s2 t i = true → step s = .next (afterStep (unready s2 tid))) := by
    have hch := (chooseStep_of_letsIssue hl).trans (issueChoice_instr ht (decodeInstr_ne_clauseEntry hd) hf)
    exact ⟨fun hn => step_run (hch.trans (if_neg (Bool.eq_false_iff.mp hn))), fun hn => step_done (hch.trans (if_pos hn))⟩
  refine ⟨fun s1 w h hc hf hd => ?header, fun c s1 w i hc hf => ⟨fun hw hd => ?oneWord, fun s2 lit hw hin hf2 hd => ?twoWords⟩⟩
  case header => exact step_run ((chooseStep_of_letsIssue hl).trans (issueChoice_header ht (fetch_header hc hf hd)))
  case oneWord => exact hruns i 0 w hd s1 (fetch_inside hc hf (fetchLit_one s1 t hw) hd)
  case twoWords => exact hruns i _ w hd s2 (fetch_inside hc hf ((fetchLit_two hc hw hin).trans hf2) hd)

end Sys2Proof.Proofs.Stepping
end

section
/-! O39: the steps that complete the operations of teams (spec/07 R147, R151; spec/11 R238; spec/13 R262-R288; spec/15 R300-R313). Each is one
evaluation of its step where its condition holds. -/

namespace Sys2Proof.Proofs.Completion

open Sys2Proof.Machine Sys2Proof.Spec Sys2Proof.Laws

section

variable {s : State} {id : Nat} {o : Op} (ho : tbGet s.ops id = some o)
include ho

theorem completeIf_due {due : Op → Bool} (hd : due o = true) : completeIf s id due = completeOp s id o := by
  simp only [completeIf, ho, hd, if_true]

/-! ### Loads, atomics, arithmetic, allowances and history -/

theorem loadCompletion_does (hk : o.kind = .load) : Does (.loadCompletion id) s (completeOp s id o) :=
  congrArg _ (completeIf_due ho (by simp only [hk]))

theorem atomicCompletion_does (hk : o.kind = .atomic) (hh : o.homes = []) : Does (.atomicCompletion id) s (completeOp s id o) :=
  congrArg _ (completeIf_due ho (by simp only [hk, hh, decide_true]))

theorem longArithmeticCompletion_does (hk : o.kind = .arith) : Does (.longArithmeticCompletion id) s (completeOp s id o) :=
  congrArg _ (completeIf_due ho (by simp only [hk]))

theorem allowanceCompletion_does (hk : o.kind = .allowance) : Does (.allowanceCompletion id) s (completeOp s id o) :=
  congrArg _ (completeIf_due ho (by simp only [hk]))

/-- A served ALDEC.wait completes while its team is resident (spec/03 R96). -/
theorem allowanceCompletion_served {a : W64} {c n d : Nat} {q w : Bool} (hk : o.kind = .aldecWait a c n d q w true)
    (hr : ∀ t, s.team o.team = some t → running t = true) : Does (.allowanceCompletion id) s (completeOp s id o) := by
  refine congrArg _ (completeIf_due ho ?_)
  simp only [hk, Bool.true_and]
  cases ht : s.team o.team with
  | none => rfl
  | some t => exact hr t ht

theorem historyCompletion_does {h : Hist} (hk : o.kind = .history h) : Does (.historyCompletion id) s (completeOp s id o) :=
  congrArg _ (completeIf_due ho (by simp only [hk]))

/-! ### Stores and reductions -/

theorem storeAcknowledgement_reduction (hk : o.kind = .reduction) (hh : o.homes = []) (hl : o.logs = []) :
    Does (.storeAcknowledgement id) s (completeOp s id o) := by
  simp only [Does, exec, execStoreAcknowledgement, ho, hk, hh, hl, and_self, if_true]

theorem storeAcknowledgement_store (hk : o.kind = .store) (hh : o.homes = []) :
    Does (.storeAcknowledgement id) s (finish (completeOp (reportLogs s id o) id o)) := by
  simp only [Does, exec, execStoreAcknowledgement, ho, hk, hh, if_true]

theorem reductionFaultLogged_does (hk : o.kind = .reduction) (hl : o.logs ≠ []) :
    Does (.reductionFaultLogged id) s (finish (reportLogs s id o)) := by
  simp only [Does, exec, execReductionFaultLogged, ho, hk, if_neg hl]

/-! ### FENCER -/

section

variable {cs : List (Nat × List Nat)} {fl : W64} {core x : Nat} {ids : List Nat} (hk : o.kind = .fencer cs fl)
  (hf : cs.find? (fun c => c.1 == core) = some (x, ids)) (hi : ∀ i ∈ ids, tbGet s.ops i = none)
include hk hf hi

/-- A core answers once the stores it had issued are acknowledged; its answer is taken off the list. -/
theorem serialisingRequest_runs : exec (.serialisingRequest core id) s = .next (
    let left := cs.filter fun c => c.1 != core
    let learnt := maxW fl (smGet 0 (s.core core).ofloors o.ctx)
    let s1 := modOp (dropL1 s core o.ctx) id fun o => { o with kind := .fencer left learnt }
    if left = [] then completeOp (fencerDone s1 o learnt) id o else s1) := by
  have hany : (ids.any fun i => (tbGet s.ops i).isSome) = false := by
    rw [List.any_eq_false]
    intro i him
    rw [hi i him]
    exact Bool.false_ne_true
  show execSerialisingRequest core id s = _
  simp only [execSerialisingRequest, ho, hk, hf, hany, Bool.false_eq_true, if_false]

end

/-! ### Matrix instructions -/

section

variable {m : Mx} (hk : o.kind = .mx m) (hold : mxOldest s id o = true)
include hk hold

theorem mxCompletion_does (hg : m.gated = false ∨ m.brd.isSome = true) : Does (.mxCompletion id) s
    (endOp (raiseBy (settleDest s id o (mxDest m (m.brd.getD (memRead s (partKey m.bcrew m.boff) m.blen)))) o) id o) := by
  have hcond : (!mxOldest s id o || (m.gated && m.brd.isNone)) = false := by
    rw [hold]
    rcases hg with h | h
    · simp [h]
    · obtain ⟨b, hb⟩ := Option.isSome_iff_exists.mp h
      simp [hb]
  simp only [Does, exec, execMxCompletion, ho, hk, hcond, Bool.false_eq_true, if_false]

variable (hg : m.gated = true) (hb : m.brd = none)
include hg hb

/-- The range of a gated instruction whose turn it is is read. -/
theorem gatedRead_eq : gatedRead s id = some (o, m, engineRead s o.ctx (hubOf o.core) m.bcrew m.boff m.blen) := by
  simp only [gatedRead, ho, hk, hg, hb, hold, Option.isNone_none, Bool.and_self, if_true]

theorem gatedRangeRead_does {s1 : State} {bs : List Byte} {t : Team}
    (hr : engineRead s o.ctx (hubOf o.core) m.bcrew m.boff m.blen = (s1, .ok bs)) (ht : s1.team o.team = some t)
    (hw : t.wait = .hold id) : Does (.gatedRangeRead id) s (finish (advance (modOp s1 id fun o =>
      { o with kind := .mx { m with brd := some bs }, floor := maxW o.floor (partStamp s1 m.bcrew m.boff m.blen) }) o.team 1)) := by
  show execGatedRangeRead id s = _
  simp only [execGatedRangeRead, gatedRead_eq ho hk hold hg hb, hr, modOp_get_team, ht, hw, if_true]

theorem mxGatedAbort_does {s1 : State} {c : FCode} {a : W64} {phys : Nat}
    (hr : engineRead s o.ctx (hubOf o.core) m.bcrew m.boff m.blen = (s1, .error (c, a, phys))) :
    Does (.mxGatedAbort id) s (finish (boundary (enterHandler (endOp s1 id o) o.team
      (fltAt c (maskOf (activeOf m.mask 1024)) a phys) o.pc false) o.team)) := by
  show execMxGatedAbort id s = _
  simp only [execMxGatedAbort, gatedRead_eq ho hk hold hg hb, hr]

end

end

/-- Settles O39: each clause is one of the steps above. -/
theorem operationsComplete : Obligations.OperationsComplete := by
  unfold Obligations.OperationsComplete
  intro s id o ho
  refine ⟨loadCompletion_does ho, atomicCompletion_does ho, longArithmeticCompletion_does ho, allowanceCompletion_does ho,
    fun a c n d q w => allowanceCompletion_served ho, fun h => historyCompletion_does ho, storeAcknowledgement_reduction ho,
    storeAcknowledgement_store ho, reductionFaultLogged_does ho, fun cs fl core x ids hk hf hi => ⟨fun hl => ?more, fun hl => ?last⟩,
    fun m hk hold => ⟨mxCompletion_does ho hk hold, fun hg hb =>
      ⟨fun s1 bs t hr ht hw => gatedRangeRead_does ho hk hold hg hb hr ht hw, fun s1 c a phys hr =>
        mxGatedAbort_does ho hk hold hg hb hr⟩⟩⟩
  case more => exact (serialisingRequest_runs ho hk hf hi).trans (congrArg _ (if_neg hl))
  case last => exact (serialisingRequest_runs ho hk hf hi).trans (congrArg _ (if_pos hl))

end Sys2Proof.Proofs.Completion
end

section
/-! O40: what the completion of an operation leaves (spec/07 R147, R151; spec/13 R265, R273). Its team is changed in its registers, its flags, its
floor, its exceptions and its hold; the other operations in their marks and in the requests for chunks that have arrived. -/

namespace Sys2Proof.Laws

open Sys2Proof.Machine Sys2Proof.Safety

/-! ### Writes at distinct places -/

/-- Writes one after another, each of its own place: a place written holds its value, any other what it held. -/
theorem foldl_writes {σ β : Type} {get : σ → Nat → β} {put : σ → Nat × β → σ} {Ok : σ → Prop} {m : Nat}
    (hput : ∀ t x, Ok t → Ok (put t x) ∧ get (put t x) m = if m = x.1 then x.2 else get t m) {l : List (Nat × β)}
    (hl : (l.map (·.1)).Nodup) {t : σ} (ht : Ok t) :
    (∀ x ∈ l, x.1 = m → get (l.foldl put t) m = x.2) ∧ (m ∉ l.map (·.1) → get (l.foldl put t) m = get t m) := by
  induction l generalizing t with
  | nil => exact ⟨fun _ h => absurd h List.not_mem_nil, fun _ => rfl⟩
  | cons e l ih =>
    obtain ⟨he, hl⟩ := List.nodup_cons.mp hl
    obtain ⟨hok, hget⟩ := hput t e ht
    obtain ⟨hin, hout⟩ := ih hl hok
    refine ⟨fun x hx hxm => ?_, fun hm => ?_⟩
    · rcases List.mem_cons.mp hx with rfl | hx
      · exact (hout (hxm ▸ he)).trans (hget.trans (if_pos hxm.symm))
      · exact hin x hx hxm
    · simp only [List.map_cons, List.mem_cons, not_or] at hm
      exact (hout hm.2).trans (hget.trans (if_neg hm.1))

/-- The vector elements of a destination, by key. -/
def putElements (l : List (Nat × W32)) (m : Tab W32) : Tab W32 := l.foldl (fun m x => smSet 0 m x.1 x.2) m

/-- The scalars of a destination; S[0] is none (spec/07 R172). -/
def putScalars (l : List (Nat × W64)) (m : Tab W64) : Tab W64 := l.foldl (fun m x => if x.1 = 0 then m else smSet 0 m x.1 x.2) m

/-- The condition flags of a destination; c0 is none (spec/07 R174). -/
def putConditions (l : List (Nat × Bool)) (c : BitVec 8) : BitVec 8 :=
  l.foldl (fun c x => if x.1 = 0 ∨ 8 ≤ x.1 then c else setBit c x.1 x.2) c

theorem foldl_putElement (l : List (Nat × W32)) (t : Team) :
    l.foldl (fun t x => { t with v := smSet 0 t.v x.1 x.2 }) t = { t with v := putElements l t.v } := by
  induction l generalizing t with
  | nil => rfl
  | cons x l ih => exact ih _

theorem foldl_sput (l : List (Nat × W64)) (t : Team) :
    l.foldl (fun t x => sput t x.1 x.2) t = { t with s := putScalars l t.s } := by
  induction l generalizing t with
  | nil => rfl
  | cons x l ih =>
    have h : sput t x.1 x.2 = { t with s := if x.1 = 0 then t.s else smSet 0 t.s x.1 x.2 } := by unfold sput; split <;> rfl
    rw [List.foldl_cons, h]
    exact ih _

theorem foldl_cput (l : List (Nat × Bool)) (t : Team) :
    l.foldl (fun t x => cput t x.1 x.2) t = { t with c := putConditions l t.c } := by
  induction l generalizing t with
  | nil => rfl
  | cons x l ih =>
    have h : cput t x.1 x.2 = { t with c := if x.1 = 0 ∨ 8 ≤ x.1 then t.c else setBit t.c x.1 x.2 } := by unfold cput; split <;> rfl
    rw [List.foldl_cons, h]
    exact ih _

theorem smGet_putElements {l : List (Nat × W32)} (hl : (l.map (·.1)).Nodup) {m : Tab W32} (hm : smWf 0 m = true) (k : Nat) :
    (∀ x ∈ l, x.1 = k → smGet 0 (putElements l m) k = x.2) ∧ (k ∉ l.map (·.1) → smGet 0 (putElements l m) k = smGet 0 m k) :=
  foldl_writes (get := fun m k => smGet 0 m k) (Ok := fun m => smWf 0 m = true)
    (fun _ _ h => ⟨smWf_smSet _ _ h, smGet_smSet _ _ _ h⟩) hl hm

theorem smGet_putScalars {l : List (Nat × W64)} (hl : (l.map (·.1)).Nodup) {m : Tab W64} (hm : smWf 0 m = true) {k : Nat} (hk : k ≠ 0) :
    (∀ x ∈ l, x.1 = k → smGet 0 (putScalars l m) k = x.2) ∧ (k ∉ l.map (·.1) → smGet 0 (putScalars l m) k = smGet 0 m k) := by
  refine foldl_writes (get := fun m k => smGet 0 m k) (Ok := fun m => smWf 0 m = true) (fun m x h => ?_) hl hm
  by_cases hx : x.1 = 0
  · rw [if_pos hx, if_neg (hx ▸ hk)]
    exact ⟨h, rfl⟩
  · rw [if_neg hx]
    exact ⟨smWf_smSet _ _ h, smGet_smSet _ _ _ h⟩

theorem getLsbD_putConditions {l : List (Nat × Bool)} (hl : (l.map (·.1)).Nodup) (c : BitVec 8) {k : Nat} (hk : k ≠ 0) (hk8 : k < 8) :
    (∀ x ∈ l, x.1 = k → (putConditions l c).getLsbD k = x.2) ∧
      (k ∉ l.map (·.1) → (putConditions l c).getLsbD k = c.getLsbD k) := by
  refine foldl_writes (get := fun (c : BitVec 8) k => c.getLsbD k) (Ok := fun _ => True) (fun c x _ => ⟨trivial, ?_⟩) hl trivial
  by_cases hx : x.1 = 0 ∨ 8 ≤ x.1
  · rw [if_pos hx, if_neg (by omega)]
  · rw [if_neg hx]
    exact getLsbD_setBit _ _ _ _ (by omega) hk8

/-! ### The team -/

/-- A team once the destinations of an operation hold its values. -/
def landed (d : Dest) (t : Team) : Team := { t with v := putElements d.v t.v, s := putScalars d.s t.s, c := putConditions d.c t.c }

/-- A team that is held no longer by an operation. -/
def released (id : Nat) (t : Team) : Team := if t.wait = .hold id then { t with wait := .none } else t

/-- A team once an operation of it has completed. -/
def completedTeam (id : Nat) (o : Op) (t : Team) : Team :=
  released id (decFlags (raiseFloor (mergeFp (landed o.dest t) o.ex) o.floor) o.flags)

theorem decFlags_frame (t : Team) (fs : List Nat) : decFlags t fs = { t with f := (decFlags t fs).f } := by
  induction fs generalizing t with
  | nil => rfl
  | cons f fs ih => exact ih { t with f := smSet 0 t.f f (fget t f - 1) }

theorem released_frame (id : Nat) (t : Team) : released id t = { t with wait := if t.wait = .hold id then .none else t.wait } := by
  unfold released
  split <;> rfl

theorem completedTeam_frame (id : Nat) (o : Op) (t : Team) : completedTeam id o t =
    { landed o.dest t with
      f := (decFlags (raiseFloor (mergeFp (landed o.dest t) o.ex) o.floor) o.flags).f, floor := maxW t.floor o.floor,
      fpflags := t.fpflags ||| o.ex, wait := if t.wait = .hold id then .none else t.wait } := by
  rw [completedTeam, released_frame, decFlags_frame]
  rfl

/-! ### The other operations -/

theorem tbGet_map {α β : Type} (m : Tab α) (g : Nat × α → β) (k : Nat) :
    tbGet (m.map fun e => (e.1, g e)) k = (tbGet m k).map fun v => g (k, v) := by
  induction m with
  | nil => rfl
  | cons e m ih =>
    obtain ⟨j, w⟩ := e
    by_cases h : j = k
    · subst h; simp [tbGet]
    · simp [tbGet, h, ih]

/-- An operation that stays in flight while the fills `fs` arrive: its marks may change, and its requests for these fills are gone. -/
def StaysBut (fs : List (Nat × Nat × Nat)) (p p' : Op) : Prop :=
  p' = { p with rewritten := p'.rewritten, ext := p'.ext } ∧ ∀ r, r ∈ p'.ext ↔ r ∈ p.ext ∧ ∀ f ∈ fs, r.fill ≠ some f

/-- The operations of a table stay but for what arrives; none comes. -/
def OpsStayBut (fs : List (Nat × Nat × Nat)) (m m' : Tab Op) : Prop :=
  ∀ j, (tbGet m j = none → tbGet m' j = none) ∧ ∀ p, tbGet m j = some p → ∃ p', tbGet m' j = some p' ∧ StaysBut fs p p'

theorem OpsStayBut.refl (m : Tab Op) : OpsStayBut [] m m := fun _ =>
  ⟨id, fun p hp => ⟨p, hp, rfl, fun _ => ⟨fun h => ⟨h, fun _ hf => absurd hf List.not_mem_nil⟩, And.left⟩⟩⟩

theorem OpsStayBut.trans {fs gs : List (Nat × Nat × Nat)} {m1 m2 m3 : Tab Op} (h : OpsStayBut fs m1 m2) (h' : OpsStayBut gs m2 m3) :
    OpsStayBut (fs ++ gs) m1 m3 := by
  intro j
  refine ⟨fun hn => (h' j).1 ((h j).1 hn), fun p hp => ?_⟩
  obtain ⟨p2, hp2, he2, hr2⟩ := (h j).2 p hp
  obtain ⟨p3, hp3, he3, hr3⟩ := (h' j).2 p2 hp2
  refine ⟨p3, hp3, by rw [he3, he2], fun r => ?_⟩
  rw [hr3, hr2, and_assoc, List.forall_mem_append]

/-- A change of every entry by a function that changes marks and requests only. -/
theorem OpsStayBut.map {fs : List (Nat × Nat × Nat)} (m : Tab Op) {g : Nat × Op → Op}
    (h : ∀ j p, tbGet m j = some p → StaysBut fs p (g (j, p))) : OpsStayBut fs m (m.map fun e => (e.1, g e)) := by
  intro j
  rw [tbGet_map]
  exact ⟨fun hn => by rw [hn]; rfl, fun p hp => ⟨_, by rw [hp]; rfl, h j p hp⟩⟩

theorem foldl_dedup_ne_nil {α : Type} (p : α → List α → Bool) (l : List α) {acc : List α} (h : acc ≠ []) :
    l.foldl (fun l r => if p r l then l else l ++ [r]) acc ≠ [] := by
  induction l generalizing acc with
  | nil => exact h
  | cons r l ih => refine ih ?_; dsimp only; split <;> simp [h]

/-- Where no request for a chunk is pending, no operation has one. -/
theorem no_request_of_pendingFill {s : State} {f : Nat × Nat × Nat} (h : pendingFill s f = []) {j : Nat} {p : Op}
    (hp : tbGet s.ops j = some p) {r : ExtReq} (hr : r ∈ p.ext) : r.fill ≠ some f := by
  intro hf
  have hmem : r ∈ (s.ops.flatMap fun e => e.2.ext).filter fun r => r.fill == some f :=
    List.mem_filter.mpr ⟨List.mem_flatMap.mpr ⟨_, mem_of_tbGet hp, hr⟩, beq_iff_eq.mpr hf⟩
  unfold pendingFill at h
  cases hl : (s.ops.flatMap fun e => e.2.ext).filter fun r => r.fill == some f with
  | nil => rw [hl] at hmem; exact absurd hmem List.not_mem_nil
  | cons a l =>
    rw [hl, List.foldl_cons] at h
    exact foldl_dedup_ne_nil (fun r l => l.any fun x => x.key == r.key) l (by simp) h

theorem arriveFill_frame (s : State) (f : Nat × Nat × Nat) : ∃ ops, arriveFill s f = { s with ops := ops } ∧ OpsStayBut [f] s.ops ops := by
  unfold arriveFill
  split
  case isTrue h =>
    refine ⟨s.ops, rfl, fun j => ⟨id, fun p hp => ⟨p, hp, rfl, fun r => ⟨fun hr => ⟨hr, ?_⟩, And.left⟩⟩⟩⟩
    rw [List.forall_mem_singleton]
    exact no_request_of_pendingFill h hp hr
  case isFalse =>
    refine ⟨_, rfl, .map s.ops fun j p _ => ⟨rfl, fun r => ?_⟩⟩
    rw [List.mem_filter, bne_iff_ne, List.forall_mem_singleton]

/-- Fills that arrive take their requests out of the operations. -/
theorem foldl_arriveFill_frame (fs : List (Nat × Nat × Nat)) (s : State) :
    ∃ ops, fs.foldl arriveFill s = { s with ops := ops } ∧ OpsStayBut fs s.ops ops := by
  induction fs generalizing s with
  | nil => exact ⟨s.ops, rfl, .refl _⟩
  | cons f fs ih =>
    obtain ⟨ops1, h1, hs1⟩ := arriveFill_frame s f
    obtain ⟨ops2, h2, hs2⟩ := ih (arriveFill s f)
    rw [h1] at h2 hs2
    exact ⟨ops2, by rw [List.foldl_cons, h1, h2], hs1.trans hs2⟩

theorem markRewritten_frame (s : State) (tid : Nat) (ws : List Wr) :
    ∃ ops, markRewritten s tid ws = { s with ops := ops } ∧ OpsStayBut [] s.ops ops := by
  refine ⟨s.ops.map fun e => (e.1, if e.2.team = tid then { e.2 with rewritten :=
    ((ws.filterMap wrMark).filter fun m => decide (m ∈ destMarks e.2)).foldl insertNew e.2.rewritten } else e.2), ?_, .map _ ?_⟩
  · simp only [markRewritten]
    congr 1
    refine List.map_congr_left fun e _ => ?_
    split <;> rfl
  · intro j p _
    dsimp only
    split <;> exact ⟨rfl, fun r => ⟨fun h => ⟨h, fun _ hf => absurd hf List.not_mem_nil⟩, And.left⟩⟩

theorem unlatch_frame (s : State) (tid : Nat) (ws : List Wr) : ∃ cs, unlatch s tid ws = { s with cores := cs } := by
  unfold unlatch
  repeat' split
  all_goals exact ⟨_, rfl⟩

/-! ### The state -/

section

variable {o : Op} (hr : o.rewritten = []) (s : State) (id : Nat)
include hr

/-- Where no element was written again, the destinations take the operation's values. -/
theorem settleDest_frame (d : Dest) : ∃ ops cs, settleDest s id o d =
    { s with teams := tbMod s.teams o.team (landed d), ops := ops, cores := cs } ∧ OpsStayBut [] s.ops ops := by
  obtain ⟨ops, hm, hs⟩ := markRewritten_frame s o.team (destWrs d)
  obtain ⟨cs, hu⟩ := unlatch_frame (markRewritten s o.team (destWrs d)) o.team (destWrs d)
  refine ⟨ops, cs, ?_, hs⟩
  simp only [settleDest, hr, List.not_mem_nil, decide_false, Bool.false_and, Bool.false_eq_true, if_false, foldl_putElement, foldl_sput,
    foldl_cput]
  rw [hu, hm]
  rfl

/-- What a completion leaves: its team completed, the other operations but for what arrived, the latches. -/
theorem completeOp_frame (hl : o.late = none) : ∃ ops cs, completeOp s id o =
    { s with teams := tbMod s.teams o.team (completedTeam id o), ops := tbDel ops id, cores := cs } ∧
      OpsStayBut (o.ext.filterMap (·.fill)) s.ops ops := by
  obtain ⟨ops1, h1, hs1⟩ := foldl_arriveFill_frame (o.ext.filterMap (·.fill)) s
  obtain ⟨ops2, cs, h2, hs2⟩ := settleDest_frame hr ((o.ext.filterMap (·.fill)).foldl arriveFill s) id o.dest
  rw [h1] at h2 hs2
  refine ⟨ops2, cs, ?_, by simpa using hs1.trans hs2⟩
  simp only [completeOp, h1, h2, leaveLate, hl, raiseBy, endOp, unhold, modTeam, tbMod_tbMod]
  rfl

end

end Sys2Proof.Laws

namespace Sys2Proof.Proofs.Completion

open Sys2Proof.Machine Sys2Proof.Spec Sys2Proof.Laws

/-- A request is for none of the fills of an operation where it fills no chunk that the operation's own requests fill. -/
theorem forall_fill_ne_iff {l : List ExtReq} {r : ExtReq} :
    (∀ f ∈ l.filterMap (·.fill), r.fill ≠ some f) ↔ r.fill = none ∨ ∀ q ∈ l, q.fill ≠ r.fill := by
  simp only [List.mem_filterMap, forall_exists_index, and_imp]
  cases hr : r.fill with
  | none => simp
  | some f =>
    simp only [reduceCtorEq, false_or]
    exact ⟨fun h q hq hf => h f q hq hf rfl, fun h g q hq hg hfg => h q hq (hfg ▸ hg)⟩

/-- Settles O40: the operations by what stays of them, the team by its fields. -/
theorem completionWritesDestinations : Obligations.CompletionWritesDestinations := by
  unfold Obligations.CompletionWritesDestinations
  intro s id o t ho ht hok hr hl hv hs hc s1
  obtain ⟨ops, cs, h1, hops⟩ := completeOp_frame hr s id hl
  obtain ⟨hwv, hws, _, hwf, _⟩ := hok
  have hteam : s1.team o.team = some (completedTeam id o t) := by
    rw [show s1 = _ from h1]
    exact (tbGet_tbMod_self _ _ _).trans (congrArg (Option.map _) ht)
  have hother (j : Nat) (hj : j ≠ id) : tbGet s1.ops j = tbGet ops j := by
    rw [show s1 = _ from h1]
    exact tbGet_tbDel_ne _ hj
  refine ⟨by rw [show s1 = _ from h1]; exact tbGet_tbDel_self _ _, fun j hj hn => (hother j hj).trans ((hops j).1 hn),
    fun j p hj hp => ?others, by rw [show s1 = _ from h1], fun u hu => by rw [show s1 = _ from h1]; exact tbGet_tbMod_ne _ _ hu,
    _, hteam, ?_⟩
  case others =>
    obtain ⟨p', hp', he, hext⟩ := (hops j).2 p hp
    exact ⟨p', (hother j hj).trans hp', he, fun r => (hext r).trans (and_congr_right fun _ => forall_fill_ne_iff)⟩
  rw [completedTeam_frame]
  refine ⟨fun x hx => (smGet_putElements hv hwv x.1).1 x hx rfl, fun k hk => (smGet_putElements hv hwv k).2 hk,
    fun x hx h0 => ?scalar, fun n hn => ?otherScalar, fun x hx h0 h8 => ?condition, fun n h8 hn => ?otherCondition,
    fun f => fget_decFlags (t := raiseFloor (mergeFp (landed o.dest t) o.ex) o.floor) o.flags f hwf, rfl, rfl, rfl, rfl, rfl, rfl, rfl, rfl⟩
  case scalar => exact (if_neg h0).trans ((smGet_putScalars hs hws h0).1 x hx rfl)
  case otherScalar =>
    unfold sget
    split
    · rfl
    next h0 => exact (smGet_putScalars hs hws h0).2 hn
  case condition => exact (if_neg h0).trans ((getLsbD_putConditions hc t.c h0 h8).1 x hx rfl)
  case otherCondition =>
    unfold cget
    split
    · rfl
    next h0 => exact (getLsbD_putConditions hc t.c h0 h8).2 hn

end Sys2Proof.Proofs.Completion
end

section
/-! O1: the scalar instructions (spec/09 R210-R212). Their arithmetic works on numbers, the statement's on bit vectors of the type's width; an
instruction whose function is that of its bit vectors writes their result. -/

namespace Sys2Proof.Laws

open Sys2Proof.Machine Sys2Proof.Spec

/-! ### Operands -/

theorem sx_toNat (r : Team) (o : SBin) : (sx r (tyWidth o.ty) o.a).toNat = scalarX r o := BitVec.toNat_setWidth _ _

theorem sy_toNat (r : Team) (w : Nat) (b : SSrc) : (sy r w b).toNat = scalarY r w b := by
  cases b with
  | reg n => exact BitVec.toNat_setWidth _ _
  | imm v => exact (ofInt_eq w v.toInt).symm
  | lit v => exact BitVec.toNat_setWidth _ _

end Sys2Proof.Laws

namespace Sys2Proof.Proofs.Scalar

open Sys2Proof.Machine Sys2Proof.Spec Sys2Proof.Laws

section

variable {s : State} {tid : Nat} {t : Team} {o : SBin} {i : Instr}

/-- An instruction whose function gives the number of `z` writes `z`, extended by its type. -/
theorem scalarOp_completes {f : Nat → Nat → Nat → Nat} {z : BitVec (tyWidth o.ty)} (hi : exec i s = scalarOp i o f s)
    (hf : f (tyWidth o.ty) (sx (viewOf s tid t) (tyWidth o.ty) o.a).toNat (sy (viewOf s tid t) (tyWidth o.ty) o.b).toNat = z.toNat)
    (h : CanIssue s tid t i) : Completes i s tid (writeRegs s tid [.s o.d (to64 o.ty z)]) := by
  rw [sx_toNat, sy_toNat] at hf
  rw [← scalarResult_toNat, ← hf]
  exact hi.trans (go_of h rfl)

end

theorem scalarArithmetic : Spec.ScalarArithmetic := by
  intro s tid t o
  have hw := tyWidth_pos o.ty
  refine ⟨?sadd, ?ssub, ?smul, ?smulh, ?sdiv, ?srem, ?sand, ?sor, ?sxor, ?sshl, ?sshr, ?smin, ?smax⟩
  case sadd => exact scalarOp_completes rfl (addW_eq _ _)
  case ssub => exact scalarOp_completes rfl (subW_eq _ _)
  case smul => exact scalarOp_completes rfl (mulW_eq _ _)
  case smulh => exact scalarOp_completes rfl (mulHigh_eq hw _ _ _)
  case sdiv => exact scalarOp_completes rfl (divW_eq hw _ _ _)
  case srem => exact scalarOp_completes rfl (remW_eq hw _ _ _)
  case sand => exact scalarOp_completes (f := fun _ x y => x &&& y) rfl (BitVec.toNat_and _ _).symm
  case sor => exact scalarOp_completes (f := fun _ x y => x ||| y) rfl (BitVec.toNat_or _ _).symm
  case sxor => exact scalarOp_completes (f := fun _ x y => x ^^^ y) rfl (BitVec.toNat_xor _ _).symm
  case sshl => exact scalarOp_completes rfl (shlW_eq _ _)
  case sshr => exact scalarOp_completes rfl (shrW_eq hw _ _ _)
  case smin => exact scalarOp_completes rfl (minW_eq hw _ _ _)
  case smax => exact scalarOp_completes rfl (maxWd_eq hw _ _ _)

/-- SMOV takes x where operand B is a register, else y; SSEL chooses by its flag; SCMP writes a flag (spec/09 R211, R212). -/
theorem scalarMoveSelectCompare : Spec.ScalarMoveSelectCompare := by
  intro s tid t o
  refine ⟨scalarOp_completes (f := fun _ x y => match o.b with | .reg _ => x | _ => y) rfl ?move, fun c h => ?select, fun rel h => ?compare⟩
  case move => cases o.b <;> rfl
  case select =>
    rw [← scalarResult_toNat, apply_ite BitVec.toNat, sx_toNat, sy_toNat]
    exact go_of h rfl
  case compare =>
    rw [← relW_eq (tyWidth_pos o.ty), sx_toNat, sy_toNat]
    exact go_of h rfl

/-- Settles O1: the arithmetic row by row, then the moves, selections and comparisons. -/
theorem scalarInstructions : Obligations.ScalarInstructions := ⟨scalarArithmetic, scalarMoveSelectCompare⟩

end Sys2Proof.Proofs.Scalar
end

section
/-! O2: the mask instructions (spec/09 R213-R215; spec/03 R48), bit by bit. -/

namespace Sys2Proof.Laws

open Sys2Proof.Machine Sys2Proof.Spec

/-! ### Bits of masks -/

theorem getLsbD_laneMask {n l : Nat} (hl : l < 1024) : (laneMask n).getLsbD l = decide (l < n) := by
  rw [laneMask, BitVec.getLsbD_ofNat, Nat.testBit_two_pow_sub_one, decide_eq_true hl, Bool.true_and]

theorem testBit_foldl_or (ls : List Nat) (x l : Nat) :
    (ls.foldl (fun a i => a ||| 2 ^ i) x).testBit l = (x.testBit l || decide (l ∈ ls)) := by
  induction ls generalizing x with
  | nil => simp
  | cons i ls ih =>
    rw [List.foldl_cons, ih, Nat.testBit_or, Nat.testBit_two_pow, Bool.or_assoc]
    simp only [List.mem_cons, eq_comm (a := l), Bool.decide_or]

/-- The mask of a list of lanes has their bits. -/
theorem getLsbD_maskOf {ls : List Nat} {l : Nat} (hl : l < 1024) : (maskOf ls).getLsbD l = decide (l ∈ ls) := by
  rw [maskOf, BitVec.getLsbD_ofNat, testBit_foldl_or, Nat.zero_testBit, decide_eq_true hl, Bool.true_and, Bool.false_or]

theorem getLsbD_knotOf {r : Team} {m : Mask} {l : Nat} (hr : l < r.lanes) (hl : l < 1024) :
    (knotOf r m).getLsbD l = !m.getLsbD l := by
  rw [knotOf, BitVec.getLsbD_and, BitVec.getLsbD_not, getLsbD_laneMask hl, decide_eq_true hl, decide_eq_true hr, Bool.true_and,
    Bool.and_true]

theorem eq_zero_iff_bits (m : Mask) : m = 0 ↔ ∀ l, m.getLsbD l = false :=
  ⟨fun h _ => by rw [h]; exact BitVec.getLsbD_zero, fun h => BitVec.eq_of_getLsbD_eq fun l _ => by rw [h l]; exact BitVec.getLsbD_zero.symm⟩

/-! ### Counting and searching -/

/-- The count of a number's set bits is that of the places where they stand. -/
theorem popcount_eq (x n : Nat) : popcount x n = ((List.range n).filter fun l => x.testBit l).length := by
  induction n with
  | zero => rfl
  | succ n ih =>
    rw [popcount, ih, List.range_succ, List.filter_append, List.length_append, Nat.add_comm]
    congr 1
    rcases Nat.mod_two_eq_zero_or_one (x / 2 ^ n) with h | h <;> simp [Nat.testBit_eq_decide_div_mod_eq, h]

/-- KFIRST gives the least set bit, or all ones where there is none (spec/09 R213). -/
theorem kfirstOf_spec (m : Mask) : (m = 0 ∧ kfirstOf m = BitVec.allOnes 64) ∨
    (m.getLsbD (kfirstOf m).toNat = true ∧ ∀ l, l < (kfirstOf m).toNat → m.getLsbD l = false) := by
  delta kfirstOf
  generalize hf : ((List.range 1024).find? fun l => m.getLsbD l) = found
  cases found with
  | none =>
    refine .inl ⟨BitVec.eq_of_getLsbD_eq fun l hl => ?_, rfl⟩
    exact (Bool.eq_false_iff.mpr (List.find?_eq_none.mp hf l (List.mem_range.mpr hl))).trans BitVec.getLsbD_zero.symm
  | some n =>
    obtain ⟨hn, hlt, hbefore⟩ := List.find?_range_eq_some.mp hf
    have hk : (BitVec.ofNat 64 n).toNat = n := Nat.mod_eq_of_lt (Nat.lt_trans (List.mem_range.mp hlt) (by decide))
    dsimp only
    rw [hk]
    exact .inr ⟨hn, fun l hl => by simpa using hbefore l hl⟩

/-- The tests of KTEST, over the bits of the mask (spec/09 R214). -/
theorem ktestHolds_iff (r : Team) (md : KMode) (m : Mask) : ktestHolds r md m = true ↔ match md with
    | .any => ∃ l, m.getLsbD l = true
    | .all => ∀ l, r.live.getLsbD l = true → m.getLsbD l = true
    | .none => ∀ l, m.getLsbD l = false := by
  cases md with
  | any => exact decide_eq_true_iff.trans ((not_congr (eq_zero_iff_bits m)).trans (by simp only [not_forall, Bool.not_eq_false]))
  | none => exact decide_eq_true_iff.trans (eq_zero_iff_bits m)
  | all =>
    refine decide_eq_true_iff.trans ⟨fun h l hl => ?_, fun h => BitVec.eq_of_getLsbD_eq fun l _ => ?_⟩
    · rw [← h, BitVec.getLsbD_and] at hl
      exact (Bool.and_eq_true_iff.mp hl).1
    · rw [BitVec.getLsbD_and]
      cases hl : r.live.getLsbD l with
      | false => exact Bool.and_false _
      | true => rw [h l hl]; rfl

/-! ### Words of masks -/

theorem maskWord_eq (m : Mask) (i : Nat) : BitVec.ofNat 64 (maskWord m i) = ((m >>> (32 * i)).setWidth 32).setWidth 64 := by
  apply BitVec.eq_of_toNat_eq
  simp only [BitVec.toNat_ofNat, BitVec.toNat_setWidth, BitVec.toNat_ushiftRight, Nat.shiftRight_eq_div_pow, maskWord]

/-- Word `i` of a mask and what lies above and below it. -/
theorem toNat_words (m : Mask) (i : Nat) : m.toNat =
    2 ^ (32 * i) * (2 ^ 32 * (m.toNat / 2 ^ (32 * i) / 2 ^ 32) + maskWord m i) + m.toNat % 2 ^ (32 * i) := by
  rw [maskWord, Nat.div_add_mod, Nat.div_add_mod]

/-- A mask with word `i` replaced, bit by bit (spec/09 R215). -/
theorem getLsbD_setMaskWord (m : Mask) (i : Nat) {w : Nat} (hw : w < 2 ^ 32) {l : Nat} (hl : l < 1024) :
    (setMaskWord m i w).getLsbD l = if l / 32 = i then w.testBit (l % 32) else m.getLsbD l := by
  have hlow : m.toNat % 2 ^ (32 * i) < 2 ^ (32 * i) := Nat.mod_lt _ (Nat.two_pow_pos _)
  have hn : m.toNat - maskWord m i * 2 ^ (32 * i) + w % 2 ^ 32 * 2 ^ (32 * i) =
      2 ^ (32 * i) * (2 ^ 32 * (m.toNat / 2 ^ (32 * i) / 2 ^ 32) + w) + m.toNat % 2 ^ (32 * i) := by
    have hm := toNat_words m i
    rw [Nat.mul_add, Nat.mul_comm _ (maskWord m i)] at hm
    rw [Nat.mod_eq_of_lt hw, Nat.mul_add, Nat.mul_comm _ w]
    omega
  rw [setMaskWord, BitVec.getLsbD_ofNat, decide_eq_true hl, Bool.true_and, hn, Nat.testBit_two_pow_mul_add _ hlow,
    Nat.testBit_two_pow_mul_add _ hw]
  by_cases hbelow : l < 32 * i
  · rw [if_pos hbelow, if_neg (by omega), Nat.testBit_mod_two_pow, decide_eq_true hbelow, Bool.true_and]
    rfl
  rw [if_neg hbelow]
  by_cases hin : l - 32 * i < 32
  · rw [if_pos hin, if_pos (by omega), show l % 32 = l - 32 * i by omega]
  · rw [if_neg hin, if_neg (by omega), Nat.testBit_div_two_pow, Nat.testBit_div_two_pow, show l - 32 * i - 32 + 32 + 32 * i = l by omega]
    rfl

end Sys2Proof.Laws

namespace Sys2Proof.Proofs.Masks

open Sys2Proof.Machine Sys2Proof.Spec Sys2Proof.Laws

/-- An instruction that writes the mask `f` of the team as read completes with a mask whose every bit is `g`. -/
theorem maskOp_completes {s : State} {tid d : Nat} {t : Team} {i : Instr} {f : Team → Mask} {g : Nat → Bool}
    (hi : exec i s = maskOp i d f s)
    (hf : ∀ l, l < (viewOf s tid t).lanes → l < 1024 → (f (viewOf s tid t)).getLsbD l = g l) (h : CanIssue s tid t i) :
    ∃ m : Mask, Completes i s tid (writeRegs s tid [.k d m]) ∧ ∀ l, l < (viewOf s tid t).lanes → l < 1024 → m.getLsbD l = g l :=
  ⟨f (viewOf s tid t), hi.trans (go_of h rfl), hf⟩

theorem maskLogic : Spec.MaskLogic := by
  intro s tid t k d a
  refine ⟨fun b => maskOp_completes rfl ?kand, fun b => maskOp_completes rfl ?kor, fun b => maskOp_completes rfl ?kxor,
    fun b => maskOp_completes rfl ?kandn, maskOp_completes rfl ?knot, maskOp_completes rfl ?kmov, maskOp_completes rfl ?kfromv⟩
  case kand => exact fun l _ _ => BitVec.getLsbD_and
  case kor => exact fun l _ _ => BitVec.getLsbD_or
  case kxor => exact fun l _ _ => BitVec.getLsbD_xor
  case kandn =>
    intro l _ hl
    rw [BitVec.getLsbD_and, BitVec.getLsbD_not, decide_eq_true hl, Bool.true_and]
  case knot => exact fun l hr hl => getLsbD_knotOf hr hl
  case kmov => exact fun l _ _ => rfl
  case kfromv =>
    intro l hr hl
    simp [getLsbD_maskOf hl, hr]

/-- KSETW changes its word where the team has its lanes, and nothing else (spec/09 R215). -/
theorem ksetw_spec {s : State} {tid k d a : Nat} {t : Team} {b : SSrc} (h : CanIssue s tid t (.ksetw k d a b)) :
    let r := viewOf s tid t
    let i := (sy r 64 b).toNat % 32
    (r.lanes / 32 ≤ i → Completes (.ksetw k d a b) s tid s) ∧
    (i < r.lanes / 32 → ∃ n : Mask, Completes (.ksetw k d a b) s tid (writeRegs s tid [.k d n]) ∧
      ∀ l, l < 1024 → n.getLsbD l = if l / 32 = i then (sget r a).getLsbD (l % 32) else (kget r d).getLsbD l) := by
  intro r i
  have hi : scalarY r 64 b % 32 = i := by rw [← sy_toNat]
  refine ⟨fun hle => go_of h ?dropped, fun hlt => ⟨setMaskWord (kget r d) i ((sget r a).toNat % 2 ^ 32), go_of h ?written, fun l hl => ?bits⟩⟩
  case dropped => exact congrArg Act.go (if_neg (by rw [hi]; exact Nat.not_lt.mpr hle))
  case written => simp only [hi, if_pos hlt, r]
  case bits =>
    rw [getLsbD_setMaskWord _ _ (Nat.mod_lt _ (Nat.two_pow_pos 32)) hl, Nat.testBit_mod_two_pow,
      decide_eq_true (Nat.mod_lt l (by decide : 0 < 32)), Bool.true_and]
    rfl

theorem maskMoves : Spec.MaskMoves := by
  intro s tid t k d a
  refine ⟨fun h => ?kcnt, fun h => ⟨_, go_of h rfl, kfirstOf_spec _⟩, fun md h => ⟨_, go_of h rfl, ktestHolds_iff _ md _⟩,
    fun h => go_of h rfl, fun b h => ?kgetw, fun b => ksetw_spec⟩
  case kcnt => exact go_of h (by rw [popcount_eq]; rfl)
  case kgetw => rw [← maskWord_eq, sy_toNat]; exact go_of h rfl

/-- Settles O2: the masks, then the scalars, flags, vectors and words. -/
theorem maskInstructions : Obligations.MaskInstructions := ⟨maskLogic, maskMoves⟩

end Sys2Proof.Proofs.Masks
end

section
/-! O5 and O6: the control instructions that do not transfer (spec/09 R200-R203, R206, R207, R209; spec/03 R68). -/

namespace Sys2Proof.Proofs.ControlEffects

open Sys2Proof.Machine Sys2Proof.Spec Sys2Proof.Laws

section

variable {s : State} {tid k : Nat} {t : Team}

/-! ### EXIT -/

/-- EXIT retires the team once it has acquired from the entries its word was translated through: its STAMPFLOOR covers theirs when its launch
takes it (spec/09 R201; spec/19 R371; spec/21 R393). -/
theorem exit_retires (h : CanIssue s tid t (.exit k)) : Places (.exit k) s tid (retire (acquireXl s tid) tid) := placed_of h rfl

/-! ### TRAP and BRKPT -/

theorem trap_faults {code : Nat} (h : CanIssue s tid t (.trap k code)) :
    Faults (.trap k code) s tid t s ⟨.softwareTrap, code, t.live, [], 1, 0⟩ := fault_of h rfl

/-- What BRKPT asks of the debugger, as the statement says it (spec/23 R446). -/
theorem halts_iff {core ctx : Nat} : (attached s core ctx && (s.core core).haltbrk) = true ↔
    (s.core core).attach = true ∧ (s.core core).dctx = ctx ∧ (s.core core).haltbrk = true := by
  simp only [attached, Bool.and_eq_true, beq_iff_eq, and_assoc]

theorem brkpt_halts (h : CanIssue s tid t (.brkpt k))
    (hd : (s.core t.home).attach = true ∧ (s.core t.home).dctx = t.ctx ∧ (s.core t.home).haltbrk = true) :
    Places (.brkpt k) s tid (modTeam s tid fun t => { t with halted := true }) := placed_of h (if_pos (halts_iff.mpr hd))

theorem brkpt_faults (h : CanIssue s tid t (.brkpt k))
    (hd : ¬((s.core t.home).attach = true ∧ (s.core t.home).dctx = t.ctx ∧ (s.core t.home).haltbrk = true)) :
    Faults (.brkpt k) s tid t s ⟨.breakpoint, 0, t.live, [], 1, 0⟩ :=
  fault_of (f := fltTeam t .breakpoint) h (if_neg (mt halts_iff.mp hd))

end

/-- Settles O6: TRAP faults with its code, BRKPT by what the debugger asks. -/
theorem trapAndBreakpoint : Obligations.TrapAndBreakpoint := by
  unfold Obligations.TrapAndBreakpoint
  intro s tid t k
  exact ⟨fun code => trap_faults, fun h => ⟨brkpt_halts h, brkpt_faults h⟩⟩

/-! ### A team that exits with a floor to acquire -/

/-- A team at the last word of its clause. -/
def exiting : Team := { probeTeam 0 with clause := some ⟨BitVec.ofNat 64 probeVa, ⟨0, none, none, 1, none, false⟩, false⟩ }

/-- Its launch, whose floor is 0. -/
def itsLaunch : Launch :=
  { queue := 0, index := 0, status := 0, detached := false, trail := [], code := [], ctx := 0, gx := 1, gy := 1, gz := 1, crews := 1,
    teams := [], rings := [], part := 0, carve := 0, hwin := false, prot := false, retry := 0, replays := 0, age := 64, stackz := 0,
    spawnT := 0, tag := 1, floor := 0, sl := none, pin := 0, placed := [], reserved := none, dying := none, restoring := false,
    discarded := 0, doneCode := none, wsectors := [], wblocks := [] }

/-- The state in which that team issues a word it has translated through an entry whose PGMAP had the floor 1 (spec/21 R393). -/
def exitingState : State :=
  { State.reset.withFetchWord 64 0 with cur := some 0, teams := [(0, exiting)], launches := [(exiting.launch, itsLaunch)], xlFloor := 1 }

/-- The floor of that launch. -/
def launchFloor (s : State) : Option W64 := (tbGet s.launches exiting.launch).map (·.floor)

theorem exitingState_canIssue : CanIssue exitingState 0 exiting (.exit 0) := by decide +kernel

theorem launchFloor_of_retire : launchFloor (finish (boundary (retire exitingState 0) 0)) = some 0 := by decide +kernel

theorem launchFloor_of_acquire_retire : launchFloor (finish (boundary (retire (acquireXl exitingState 0) 0) 0)) = some 1 := by
  decide +kernel

/-- Refutes O5: its clause on EXIT retires the team with the STAMPFLOOR it had before it acquired from the entries its word was translated
through; the launch of `exitingState` would keep the floor 0, where EXIT leaves 1. -/
theorem not_controlEffects : ¬ Obligations.ControlEffects := by
  unfold Obligations.ControlEffects
  intro h
  obtain ⟨_, _, _, hexit, _⟩ := h exitingState 0 exiting 0
  have hsame := Host.Outcome.next.inj ((exit_retires exitingState_canIssue).symm.trans (hexit exitingState_canIssue))
  have hfloor := congrArg launchFloor hsame
  rw [launchFloor_of_retire, launchFloor_of_acquire_retire] at hfloor
  exact absurd hfloor (by decide)

end Sys2Proof.Proofs.ControlEffects
end

section
/-! O17, O18 and O19: taking a fault and returning from its handler (spec/09 R204-R207; spec/25 R457, R466). -/

namespace Sys2Proof.Laws

open Sys2Proof.Machine

/-! ### The fault registers -/

/-- What a precise fault writes, and that it writes nothing else of the team (spec/09 R204). -/
theorem setFaultRegs_precise (t : Team) (f : Flt) (pc : W64) : ∃ hdr, setFaultRegs t f pc false =
    { t with faultcode := BitVec.ofNat 64 (f.code.num + 256 * f.tcode), faultpc := pc, faultmask := f.mask,
             faultaddr := f.addrs.filter fun e => f.mask.getLsbD e.1, resumepc := pc, resumeHdr := hdr, faultLate := false,
             faultAtHeader := t.clause.isNone, faultWords := f.words, faultPhys := f.phys, faultStamp := none, wait := .none } :=
  ⟨_, by rw [Nat.mul_comm 256]; rfl⟩

/-- FAULTCODE holds the code in its low byte (spec/09 R204). -/
theorem code_of_faultcode (c : FCode) (tcode : Nat) : (BitVec.ofNat 64 (c.num + 256 * tcode)).toNat % 256 = c.num := by
  have hc : c.num < 256 := by cases c <;> decide
  rw [BitVec.toNat_ofNat]
  omega

theorem num_eq_dataUncorrectable {c : FCode} : c.num = 0x10 ↔ c = .dataUncorrectable := by cases c <;> decide

/-! ### Taking a fault -/

section

variable {s : State} {tid : Nat} {t : Team} {c : Context} {f : Flt} (ht : s.team tid = some t) (hc : tbGet s.contexts t.ctx = some c)
  (hf : f.code ≠ .reductionLogHalt) (pc : W64) (late : Bool)
include ht hc hf

/-- A team that runs no handler and has one enters it. -/
theorem enterHandler_enters (hp : t.priv = false) (hw : t.hwin = true) (hb : c.handlerbase ≠ 0) :
    enterHandler s tid f pc late = setTeam s tid (kput
      { setFaultRegs t f pc late with shadow := kget t 15, priv := true, pc := c.handlerbase, clause := none } 15 f.mask) := by
  simp only [enterHandler, ht, hc]
  exact if_neg (by simpa [hp, hw] using hb)

/-- Any other team parks. -/
theorem enterHandler_parks (h : t.priv = true ∨ t.hwin = false ∨ c.handlerbase = 0) :
    enterHandler s tid f pc late = park (setTeam s tid (setFaultRegs t f pc late)) tid 0 := by
  simp only [enterHandler, ht, hc]
  exact if_pos (by simpa [or_assoc] using h)

end

/-! ### Parking -/

section

variable {s : State} {tid : Nat} {t : Team} (ht : s.team tid = some t) (reason : W64)
include ht

/-- A team that parks queues the record of its fault (spec/09 R207; spec/25 R466). -/
theorem park_records (h : t.faultcode.toNat % 256 ≠ 0x10) : park s tid reason =
    pushErr (modTeam s tid fun t => { t with parked := some reason })
      ⟨0x0A, 3, t.faultcode.toNat % 256, 0, t.home, 0, teamOwner s t, t.faultpc.toNat, reason.toNat⟩ := by
  simp only [park, ht, if_neg h]
  rfl

/-- With an uncorrectable error its launch consumes the error instead (spec/25 R457). -/
theorem park_consumes (h : t.faultcode.toNat % 256 = 0x10) : ∃ r, park s tid reason =
    modLaunch (modTeam s tid fun t => { t with parked := some reason }) t.launch
      fun l => if l.dying.isSome then l else { l with dying := some r } := by
  simp only [park, ht, if_pos h]
  exact ⟨_, rfl⟩

theorem park_team : (park s tid reason).team tid = some { t with parked := some reason } := by
  by_cases h : t.faultcode.toNat % 256 = 0x10
  · obtain ⟨r, hr⟩ := park_consumes ht reason h
    rw [hr]
    exact team_modTeam ht _
  · rw [park_records ht reason h]
    exact team_modTeam ht _

end

/-- A fetch changes no team. -/
theorem team_fetchWord {s s2 : State} {t : Team} {va : W64} {x : Except (FCode × Nat) Nat} (h : fetchWord s t va = (s2, x)) (tid : Nat) :
    s2.team tid = s.team tid := by
  have hq := (Quiet.refl s).fetchWord t va
  rw [h] at hq
  exact congrArg (fun ts => tbGet ts tid) hq.teams

theorem team_setTeam (s : State) (tid : Nat) (t : Team) : (setTeam s tid t).team tid = some t := tbGet_tbSet_self _ _ _

end Sys2Proof.Laws

namespace Sys2Proof.Proofs.Faults

open Sys2Proof.Machine Sys2Proof.Spec Sys2Proof.Laws

/-- Settles O17: the team that enters its handler, field by field. -/
theorem faultEntersHandler : Obligations.FaultEntersHandler := by
  unfold Obligations.FaultEntersHandler
  intro s tid t f c ht hc hp hw hb hf hm hok
  obtain ⟨_, _, hk, _⟩ := hok
  obtain ⟨hdr, hregs⟩ := setFaultRegs_precise t f t.pc
  refine ⟨_, enterHandler_enters ht hc hf t.pc false hp hw hb, ?_⟩
  rw [hregs]
  refine ⟨rfl, rfl, rfl, fun l => smGet_filter _ _ _ _, rfl, rfl, ?k15, rfl, rfl, rfl, rfl, fun _ => rfl, fun _ _ => rfl, fun n hn => ?others,
    fun _ => rfl, fun _ => rfl, rfl, rfl, rfl, rfl, rfl, rfl⟩
  case k15 => exact (kget_kput 15 15 _ hk).trans ((if_pos (by decide)).trans hm)
  case others => exact (kget_kput 15 n _ hk).trans (if_neg fun h => hn h.1)

/-- Settles O18: the team that parks, then its record or what its launch consumes. -/
theorem faultWithoutHandlerParks : Obligations.FaultWithoutHandlerParks := by
  unfold Obligations.FaultWithoutHandlerParks
  intro s tid t f c ht hc hf _ h
  obtain ⟨hdr, hregs⟩ := setFaultRegs_precise t f t.pc
  rw [enterHandler_parks ht hc hf t.pc false h, hregs]
  have hteam := team_setTeam s tid (setFaultRegs t f t.pc false)
  rw [hregs] at hteam
  refine ⟨_, park_team hteam 0, rfl, rfl, rfl, rfl, rfl, fun hcode => ?records, fun hcode => ?consumes⟩
  case records =>
    have hne : (BitVec.ofNat 64 (f.code.num + 256 * f.tcode)).toNat % 256 ≠ 0x10 := by
      rw [code_of_faultcode]
      exact mt num_eq_dataUncorrectable.mp hcode
    rw [park_records hteam 0 hne, pushErr_errq, code_of_faultcode]
    rfl
  case consumes =>
    have heq := (code_of_faultcode f.code f.tcode).trans (num_eq_dataUncorrectable.mpr hcode)
    obtain ⟨r, hr⟩ := park_consumes hteam 0 heq
    rw [hr]
    refine ⟨rfl, fun l hl => ?_⟩
    have hl' := (tbGet_tbMod_self s.launches t.launch fun l => if l.dying.isSome then l else { l with dying := some r }).trans
      (congrArg (Option.map _) hl)
    cases hd : l.dying with
    | none => exact ⟨_, r, hl', by simp [hd]⟩
    | some r' => exact ⟨_, r', hl', by simp [hd]⟩

/-! ### RTT -/

/-- A team whose handler has returned, before its place is set (spec/09 R206). -/
def restored (t : Team) : Team := { kput t 15 t.shadow with priv := false, parked := none, logHalt := false, wait := .none }

/-- Whether a return skips the faulting words: a late fault has none to skip. -/
def skips (t : Team) (skip : Bool) : Bool := skip && !t.faultLate

/-- Where the team goes on. -/
def resumeAt (t : Team) (past : Bool) : W64 :=
  if past then t.faultpc + BitVec.ofNat 64 (8 * (if t.faultAtHeader then 1 else t.faultWords)) else t.resumepc

/-- Whether it goes on at a header. -/
def ResumesAtHeader (t : Team) (past : Bool) : Prop := if past then t.faultAtHeader = true else t.resumeHdr = t.resumepc

section

variable {s : State} {tid : Nat} {t : Team} (ht : s.team tid = some t) (skip : Bool)
include ht

theorem leaveHandler_atHeader (h : ResumesAtHeader t (skips t skip)) : leaveHandler s tid skip =
    modTeam s tid fun _ => { restored t with pc := resumeAt t (skips t skip), clause := none } := by
  have hc : (if skips t skip then t.faultAtHeader else decide (t.resumeHdr = t.resumepc)) = true := by
    unfold ResumesAtHeader at h
    split <;> simp_all
  simp only [leaveHandler, ht]
  refine (if_pos hc).trans ?_
  rw [modTeam, modTeam_teams, tbMod_tbMod]
  exact congrArg (fun ts => ({ s with teams := ts } : State)) (tbMod_congr ht rfl)

theorem leaveHandler_inside (h : ¬ResumesAtHeader t (skips t skip)) : leaveHandler s tid skip =
    resumeInside (modTeam s tid fun _ => restored t) tid t.resumeHdr (resumeAt t (skips t skip)) (skips t skip) := by
  have hc : ¬(if skips t skip then t.faultAtHeader else decide (t.resumeHdr = t.resumepc)) = true := by
    unfold ResumesAtHeader at h
    split <;> simp_all
  simp only [leaveHandler, ht]
  refine (if_neg hc).trans ?_
  exact congrArg (fun s1 => resumeInside s1 tid t.resumeHdr (resumeAt t (skips t skip)) (skips t skip)) (modTeam_congr ht rfl)

end

section

variable {s s2 : State} {tid w : Nat} {t : Team} {pc : W64} {h : Header} {skip : Bool} (ht : s.team tid = some t)
  (hw : fetchWord s t t.resumeHdr = (s2, .ok w)) (hd : decodeHeader w = .ok h)
include ht hw hd

/-- A place inside the clause, as its header now reads. -/
theorem resumeInside_goes (hin : (pc.toNat - t.resumeHdr.toNat) / 8 ≤ h.len) : resumeInside s tid t.resumeHdr pc skip =
    modTeam s2 tid fun t => { t with pc := pc, clause := some ⟨t.resumeHdr, h, false⟩ } := by
  simp only [resumeInside, ht, hw, hd, if_pos hin]
  exact modTeam_congr ((team_fetchWord hw tid).trans ht) rfl

variable (hout : h.len < (pc.toNat - t.resumeHdr.toNat) / 8)
include hout

/-- A skip past its last word goes on at the header after it (spec/07 R145). -/
theorem resumeInside_skips (hs : skip = true) : resumeInside s tid t.resumeHdr pc skip =
    modTeam s2 tid fun t => { t with pc := t.resumeHdr + BitVec.ofNat 64 (8 * (h.len + 1)), clause := none } := by
  simp only [resumeInside, ht, hw, hd, if_neg (Nat.not_le.mpr hout), if_pos hs]
  exact modTeam_congr ((team_fetchWord hw tid).trans ht) rfl

/-- A plain return there belongs to no clause (spec/07 R168, R170). -/
theorem resumeInside_faults (hs : skip = false) : resumeInside s tid t.resumeHdr pc skip = enterHandler
    (modTeam s2 tid fun t => { t with pc := pc, clause := some ⟨t.resumeHdr, h, false⟩ }) tid
    ⟨.illegalEncoding, 0, t.live, [], 1, 0⟩ pc false := by
  simp only [resumeInside, ht, hw, hd, if_neg (Nat.not_le.mpr hout), hs, Bool.false_eq_true, if_false]
  exact congrArg (fun s1 => enterHandler s1 tid (fltTeam t .illegalEncoding) pc false)
    (modTeam_congr ((team_fetchWord hw tid).trans ht) rfl)

end

/-- Settles O19: what RTT restores, then where the team goes on. -/
theorem returnFromHandler : Obligations.ReturnFromHandler := by
  unfold Obligations.ReturnFromHandler
  intro s tid t skip ht _ hok
  obtain ⟨_, _, hk, _⟩ := hok
  refine ⟨⟨?k15, fun n hn => ?others, fun n => ?scalars, fun r l => ?vectors, fun n => ?flags⟩, leaveHandler_atHeader ht skip,
    fun hin s2 w h hw hd => ?inside⟩
  case k15 => exact (kget_kput 15 15 _ hk).trans (if_pos (by decide))
  case others => exact (kget_kput 15 n _ hk).trans (if_neg fun h => hn h.1)
  case scalars => rfl
  case vectors => rfl
  case flags => rfl
  case inside =>
    have hback : (modTeam s tid fun _ => restored t).team tid = some (restored t) := team_modTeam ht _
    rw [leaveHandler_inside ht skip hin]
    exact ⟨resumeInside_goes (t := restored t) hback hw hd, resumeInside_skips (t := restored t) hback hw hd,
      resumeInside_faults (t := restored t) hback hw hd⟩

end Sys2Proof.Proofs.Faults
end

section
/-! O21: the frame of the instructions that only write registers (spec/09 R210-R215; spec/11 R227; spec/07 R151; spec/15 R307). What the writes of
an instruction leave comes first, then which of them each instruction makes. -/

namespace Sys2Proof.Laws

open Sys2Proof.Machine

/-! ### What register writes leave -/

/-- An operation but for the marks on its destination. -/
def unmarked (e : Nat × Op) : Nat × Op := (e.1, { e.2 with rewritten := [] })

theorem markRewritten_unmarked (s : State) (tid : Nat) (ws : List Wr) :
    (markRewritten s tid ws).ops.map unmarked = s.ops.map unmarked := by
  simp only [markRewritten, List.map_map]
  refine List.map_congr_left fun e _ => ?_
  simp only [Function.comp_apply]
  split <;> rfl

/-- Only the latch of the team's core may change. -/
theorem unlatch_cores {s : State} {tid : Nat} {t : Team} (ht : s.team tid = some t) (ws : List Wr) : ∃ cs,
    unlatch s tid ws = { s with cores := cs } ∧
      (cs = s.cores ∨ cs = smSet Core.zero s.cores t.home { s.core t.home with latch := none }) := by
  simp only [unlatch, ht]
  split
  · exact ⟨_, rfl, .inl rfl⟩
  · split
    · exact ⟨_, rfl, .inr rfl⟩
    · exact ⟨_, rfl, .inl rfl⟩

/-- What stays of a state in which team `tid`, of core `home`, made the writes `ws` (spec/07 R151, spec/15 R307). -/
def WroteOnly (s : State) (tid home : Nat) (ws : List Wr) (s1 : State) : Prop :=
  s1 = { s with teams := s1.teams, ops := s1.ops, cores := s1.cores } ∧
    s1.teams = tbMod s.teams tid (fun t => applyWrs t ws) ∧ s1.ops.map unmarked = s.ops.map unmarked ∧
    (s1.cores = s.cores ∨ s1.cores = smSet Core.zero s.cores home { s.core home with latch := none }) ∧
    ∀ k n, memRead s1 k n = memRead s k n

theorem writeRegs_wroteOnly {s : State} {tid : Nat} {t : Team} (ht : s.team tid = some t) (ws : List Wr) :
    WroteOnly s tid t.home ws (writeRegs s tid ws) := by
  obtain ⟨cs, hu, hcs⟩ := unlatch_cores (s := markRewritten s tid ws) ht ws
  have h : writeRegs s tid ws = { s with
      teams := tbMod s.teams tid fun t => applyWrs t ws, ops := (markRewritten s tid ws).ops, cores := cs } := by
    rw [writeRegs, hu]
    rfl
  rw [h]
  exact ⟨rfl, rfl, markRewritten_unmarked s tid ws, hcs, memRead_congr rfl⟩

theorem tbMod_id {α : Type} (m : Tab α) (k : Nat) : tbMod m k (fun x => x) = m := by
  induction m with
  | nil => rfl
  | cons e m ih =>
    rw [tbMod, ih, ite_self]

theorem wroteOnly_nothing (s : State) (tid home : Nat) : WroteOnly s tid home [] s :=
  ⟨rfl, (tbMod_id _ _).symm, rfl, .inl rfl, fun _ _ => rfl⟩

/-! ### Values of a type -/

/-- A value of a type takes the registers of the type. -/
theorem wrT_within {ty : Ty} {d l x : Nat} {w : Wr} (h : w ∈ wrT ty d l x) : ∃ j l x, j < tyRegs ty ∧ w = .v (d + j) l x := by
  cases ty
  case i64 | n64 | d | b64 =>
    rcases List.mem_cons.mp h with rfl | h
    · exact ⟨0, _, _, by decide, rfl⟩
    · exact ⟨1, _, _, by decide, List.mem_singleton.mp h⟩
  all_goals exact ⟨0, _, _, by decide, List.mem_singleton.mp h⟩

end Sys2Proof.Laws

namespace Sys2Proof.Proofs.RegisterFrame

open Sys2Proof.Machine Sys2Proof.Spec Sys2Proof.Laws

/-- Instruction `i`, once its checks pass, makes writes of which `p` holds, or makes none and changes nothing. -/
def OnlyWrites (i : Instr) (p : List Wr → Prop) : Prop :=
  ∀ s, ∃ body, exec i s = issue i s body ∧ ∀ r t tid,
    (∃ ws, body r t tid s = .go (writeRegs s tid ws) ∧ p ws) ∨ (body r t tid s = .go s ∧ p [])

/-- An instruction of such a form leaves everything but what it writes. -/
theorem OnlyWrites.frame {i : Instr} {p : List Wr → Prop} (hw : OnlyWrites i p) {s : State} {tid : Nat} {t : Team}
    (h : CanIssue s tid t i) : ∃ ws s1, p ws ∧ Completes i s tid s1 ∧ WroteOnly s tid t.home ws s1 := by
  obtain ⟨body, hi, hb⟩ := hw s
  have ht := team_of_curTeam h.1
  rcases hb (viewOf s tid t) t tid with ⟨ws, hgo, hp⟩ | ⟨hgo, hp⟩
  · exact ⟨ws, _, hp, hi.trans (go_of h hgo), writeRegs_wroteOnly ht ws⟩
  · exact ⟨[], s, hp, hi.trans (go_of h hgo), wroteOnly_nothing s tid t.home⟩

section

variable {i : Instr} {p : List Wr → Prop}

/-- Its writes are computed from the team as read. -/
theorem onlyWrites_of {f : Team → List Wr} (hi : ∀ s, exec i s = issue i s fun r _ tid s => .go (writeRegs s tid (f r)))
    (hp : ∀ r, p (f r)) : OnlyWrites i p := fun s => ⟨_, hi s, fun r _ _ => .inl ⟨f r, rfl, hp r⟩⟩

/-- It makes them where a condition holds. -/
theorem onlyWrites_if {f : Team → List Wr} {c : Team → Prop} [DecidablePred c]
    (hi : ∀ s, exec i s = issue i s fun r _ tid s => .go (if c r then writeRegs s tid (f r) else s)) (hp : ∀ r, p (f r))
    (h0 : p []) : OnlyWrites i p := by
  refine fun s => ⟨_, hi s, fun r _ _ => ?_⟩
  by_cases hc : c r
  · exact .inl ⟨f r, congrArg Act.go (if_pos hc), hp r⟩
  · exact .inr ⟨congrArg Act.go (if_neg hc), h0⟩

/-- It makes none where a condition holds. -/
theorem onlyWrites_unless {f : Team → List Wr} {c : Team → Prop} [DecidablePred c]
    (hi : ∀ s, exec i s = issue i s fun r _ tid s => if c r then .go s else .go (writeRegs s tid (f r))) (hp : ∀ r, p (f r))
    (h0 : p []) : OnlyWrites i p := by
  refine fun s => ⟨_, hi s, fun r _ _ => ?_⟩
  by_cases hc : c r
  · exact .inr ⟨if_pos hc, h0⟩
  · exact .inl ⟨f r, if_neg hc, hp r⟩

/-- Values of a type in lanes of one register. -/
theorem lanes_within {ls : List Nat} {ty : Ty} {d : Nat} {f : Nat → Nat} : ∀ w ∈ ls.flatMap fun l => wrT ty d l (f l),
    ∃ j l x, j < tyRegs ty ∧ w = .v (d + j) l x := by
  intro w hw
  obtain ⟨l, _, hw⟩ := List.mem_flatMap.mp hw
  exact wrT_within hw

/-- A vector instruction writes its active lanes. -/
theorem vecOp_onlyWrites {k d : Nat} {ty : Ty} {f : Team → Nat → Nat} (hi : ∀ s, exec i s = vecOp i k d ty f s) :
    OnlyWrites i fun ws => ∀ w ∈ ws, ∃ j l x, j < tyRegs ty ∧ w = .v (d + j) l x :=
  onlyWrites_of (f := fun r => (active r k).flatMap fun l => wrT ty d l (f r l)) hi fun _ => lanes_within

end

/-- What each instruction writes. -/
theorem onlyWrites_of_writes {i : Instr} {p : List Wr → Prop} (hp : Spec.writes i = some p) : OnlyWrites i p := by
  cases i
  case nop k => cases hp; exact fun s => ⟨_, rfl, fun _ _ _ => .inr ⟨rfl, rfl⟩⟩
  case sadd | ssub | smul | smulh | sdiv | srem | sand | sor | sxor | sshl | sshr | smov | ssel | smin | smax | scmp =>
    cases hp; exact onlyWrites_of (fun _ => rfl) fun _ => List.forall_mem_singleton.mpr ⟨_, rfl⟩
  case kand | kor | kxor | kandn | knot | kmov | kfromv | kcnt | kfirst | kgetw | ktest =>
    cases hp; exact onlyWrites_of (fun _ => rfl) fun _ => List.forall_mem_singleton.mpr ⟨_, rfl⟩
  case ksetw => cases hp; exact onlyWrites_if (fun _ => rfl) (fun _ => List.forall_mem_singleton.mpr ⟨_, rfl⟩) (List.forall_mem_nil _)
  case ktov k d a =>
    cases hp
    refine onlyWrites_of (fun _ => rfl) fun r w hw => ?_
    obtain ⟨l, _, rfl⟩ := List.mem_map.mp hw
    exact ⟨0, l, _, by decide, rfl⟩
  case vadd | vsub | vmul | vmulh | vdiv | vrem | vmin | vmax | vand | vor | vxor | vshl | vshr | vrot | vadds | vsel | vmov | vbfe =>
    cases hp; exact vecOp_onlyWrites fun _ => rfl
  case vmad | vbfi | vabs | vneg | vnot | vpopc | vclz | vshfl | vxch => cases hp; exact vecOp_onlyWrites fun _ => rfl
  case vmulw => cases hp; exact vecOp_onlyWrites (ty := .b64) fun _ => rfl
  case vlane | vqnt | vdqnt => cases hp; exact vecOp_onlyWrites (ty := .b32) fun _ => rfl
  case vcmp => cases hp; exact onlyWrites_unless (fun _ => rfl) (fun _ => List.forall_mem_singleton.mpr ⟨_, rfl⟩) (List.forall_mem_nil _)
  case vreadl => cases hp; exact onlyWrites_unless (fun _ => rfl) (fun _ => List.forall_mem_singleton.mpr ⟨_, rfl⟩) (List.forall_mem_nil _)
  case vwritel => cases hp; exact onlyWrites_if (fun _ => rfl) (fun _ _ => wrT_within) (List.forall_mem_nil _)
  all_goals cases hp

/-- Settles O21: the writes of each instruction, and what register writes leave. -/
theorem registerInstructionFrame : Obligations.RegisterInstructionFrame := fun _ _ _ _ _ hp h => (onlyWrites_of_writes hp).frame h

end Sys2Proof.Proofs.RegisterFrame
end

section
/-! O35 and O36: barriers, the matrix engine's ownership, spawning, batches and chunk bitmaps (spec/09 R218-R220, R222-R224; spec/03 R74-R76,
R88, R101; spec/15 R315). -/

namespace Sys2Proof.Laws

open Sys2Proof.Machine

/-- A value that is not what an unlisted key reads as reads back, whatever the form of the map. -/
theorem smGet_smSet_of_ne {α : Type} [DecidableEq α] {d : α} (m : List (Nat × α)) (k : Nat) {v : α} (hv : v ≠ d) :
    smGet d (smSet d m k v) k = v := by
  induction m with
  | nil => simp [smSet, smGet, hv]
  | cons e m ih =>
    obtain ⟨j, w⟩ := e
    by_cases hlt : k < j
    · simp [smSet, smGet, hlt, hv]
    · by_cases heq : k = j
      · simp [smSet, smGet, heq, hv]
      · simp [smSet, smGet, hlt, heq, Ne.symm heq, ih]

/-- A core reads as it was made, unless it was made the core of reset. -/
theorem core_modCore (s : State) (n : Nat) (f : Core → Core) (h : f (s.core n) ≠ Core.zero) : (modCore s n f).core n = f (s.core n) :=
  smGet_smSet_of_ne _ _ h

end Sys2Proof.Laws

namespace Sys2Proof.Proofs.Barriers

open Sys2Proof.Machine Sys2Proof.Spec Sys2Proof.Laws

section

variable {s : State} {tid k : Nat} {t : Team}

/-! ### BAR -/

/-- A barrier at which the team has arrived with its floor (spec/19 R387). -/
def arrive (s : State) (tid : Nat) (t : Team) (b : Barrier) : Barrier :=
  { b with arrived := insertNew b.arrived tid, floor := maxW b.floor (relFloor s t) }

theorem bar_crew_blocks (h : CanIssue s tid t (.bar k false)) (hd : mustDrain s tid = false) : Blocks (.bar k false) s tid
    (modCrew s t.crew fun c => { c with bar := arrive s tid t c.bar }) (.bar false) :=
  wait_of h (if_neg (Bool.eq_false_iff.mp hd))

theorem bar_cluster_blocks {w : Crew} (h : CanIssue s tid t (.bar k true)) (hd : mustDrain s tid = false)
    (hw : tbGet s.crews t.crew = some w) : Blocks (.bar k true) s tid
    { s with clusters := tbMod s.clusters w.cluster fun k => { k with bar := arrive s tid t k.bar } } (.bar true) := by
  refine wait_of h ((if_neg (Bool.eq_false_iff.mp hd)).trans ?_)
  simp only [hw, if_true]
  rfl

/-! ### MXACQ and MXREL -/

variable (h : CanIssue s tid t (.mxacq k))
include h

theorem mxacq_owner (ho : (s.core t.home).mxOwner = some tid) : Completes (.mxacq k) s tid s := go_of h (if_pos ho)

theorem mxacq_takes (ho : (s.core t.home).mxOwner = none) (hq : (s.core t.home).mxQueue = []) (hv : (s.core t.home).mxOver = []) :
    Completes (.mxacq k) s tid (modCore s t.home fun c => { c with mxOwner := some tid }) := by
  refine go_of h ((if_neg (by simp [ho])).trans (if_pos ?_))
  simp [ho, hq, hv]

/-- The team joins the queue, or where its 32 places are taken those that wait to join it (spec/03 R75). -/
theorem mxacq_joins (ho : (s.core t.home).mxOwner ≠ some tid)
    (hf : ¬((s.core t.home).mxOwner = none ∧ (s.core t.home).mxQueue = [] ∧ (s.core t.home).mxOver = [])) :
    ∃ s1, Blocks (.mxacq k) s tid s1 .mxacq ∧ (s1.core t.home).mxQueue ++ (s1.core t.home).mxOver =
      (s.core t.home).mxQueue ++ (s.core t.home).mxOver ++ [tid] := by
  have hfree : ¬((s.core t.home).mxOwner.isNone && decide ((s.core t.home).mxQueue = []) && decide ((s.core t.home).mxOver = [])) = true := by
    simpa [and_assoc] using hf
  by_cases hroom : (decide ((s.core t.home).mxQueue.length < 32) && decide ((s.core t.home).mxOver = [])) = true
  · refine ⟨_, wait_of h ((if_neg ho).trans ((if_neg hfree).trans (if_pos hroom))), ?_⟩
    have hover : (s.core t.home).mxOver = [] := by simp_all
    rw [core_modCore _ _ _ fun hz => ?_]
    · simp [hover]
    · exact absurd (congrArg Core.mxQueue hz) (by simp [Core.zero])
  · refine ⟨_, wait_of h ((if_neg ho).trans ((if_neg hfree).trans (if_neg hroom))), ?_⟩
    rw [core_modCore _ _ _ fun hz => ?_]
    · simp
    · exact absurd (congrArg Core.mxOver hz) (by simp [Core.zero])

end

/-- Settles O35: BAR by its scope, MXACQ by who owns the engine, MXREL. -/
theorem barriersAndOwnership : Obligations.BarriersAndOwnership := by
  unfold Obligations.BarriersAndOwnership
  intro s tid t k
  exact ⟨bar_crew_blocks, fun w => bar_cluster_blocks, fun h => ⟨mxacq_owner h, mxacq_takes h, mxacq_joins h⟩, fun h => go_of h rfl⟩

end Sys2Proof.Proofs.Barriers

namespace Sys2Proof.Proofs.SpawnAndBatches

open Sys2Proof.Machine Sys2Proof.Spec Sys2Proof.Laws

section

variable {s s1 : State} {tid k a b : Nat} {t : Team}

/-! ### SPAWN -/

section

variable (h : CanIssue s tid t (.spawn k a b))
include h

theorem spawn_empty (ha : active (viewOf s tid t) k = []) : Completes (.spawn k a b) s tid s := go_of h (if_pos ha)

variable (ha : active (viewOf s tid t) k ≠ [])
include ha

theorem spawn_misaligned (he : (sget (viewOf s tid t) b).toNat % 8 ≠ 0) : Faults (.spawn k a b) s tid t s
    (fltAt .misaligned (maskOf (active (viewOf s tid t) k)) (sget (viewOf s tid t) b) 0) :=
  fault_of h ((if_neg ha).trans (if_pos he))

/-- Every active lane's record is placed, with the descriptor that was read (spec/03 R76, R88). -/
theorem spawn_places {d : List Byte} (he : (sget (viewOf s tid t) b).toNat % 64 = 0)
    (hr : readVirt s t.ctx (teamHub t) (sget (viewOf s tid t) b - 64).toNat 64 = (s1, .ok d)) (hd : descOk d = true)
    (hn : nregsOk (descNregs d) = true) (hm : mustDrain s1 tid = false) : Completes (.spawn k a b) s tid
      ((active (viewOf s tid t) k).foldl (fun u l => placeRecord u t.home t.launch d (sget (viewOf s tid t) b) (relFloor s1 t)
        ((List.range 16).map fun j => vget (viewOf s tid t) (a + j) l)) s1) := by
  refine go_of h ((if_neg ha).trans ((if_neg (by omega)).trans ?_))
  simp only [hr, he, hd, hn, hm, ne_eq, not_true, decide_false, Bool.not_true, Bool.or_false, Bool.false_eq_true, if_false]

end

/-! ### BATCH and WAITB -/

/-- The command of a team that no batch has taken yet goes into batch `n` (spec/09 R222). -/
def closeInto (tid n : Nat) (c : Cmd) : Cmd := if c.team = tid ∧ c.batch = none then { c with batch := some n } else c

/-- The state in which the team's open commands are closed into its next batch. -/
def closed (s : State) (tid : Nat) (t : Team) : State :=
  modTeam { s with cmds := s.cmds.map fun e => (e.1, closeInto tid t.batchNext e.2) } tid fun u =>
    { u with batchNext := t.batchNext + 1,
             batchBounds := smSet 0 (smSet 0 u.batchBounds t.batchNext (smGet 0 u.batchBounds 0)) 0 0 }

theorem batch_completes {d : Nat} (h : CanIssue s tid t (.batch k d)) : Completes (.batch k d) s tid
    (writeRegs (closed s tid t) tid [.s d (BitVec.ofNat 64 t.batchNext)]) := by
  refine go_of h ?_
  simp only [closed, closeInto, Bool.and_eq_true, decide_eq_true_eq, Option.isNone_iff_eq_none]

theorem waitb_goes (h : CanIssue s tid t (.waitb k a))
    (hm : min (sget (viewOf s tid t) a).toNat (t.batchNext - 1) ≤ batchDone s tid t) : Completes (.waitb k a) s tid
      (modTeam s tid fun u => raiseFloor u (batchFloor u (min (sget (viewOf s tid t) a).toNat (t.batchNext - 1)))) :=
  go_of h (if_pos hm)

theorem waitb_blocks (h : CanIssue s tid t (.waitb k a))
    (hm : batchDone s tid t < min (sget (viewOf s tid t) a).toNat (t.batchNext - 1)) :
    Blocks (.waitb k a) s tid s (.waitb (min (sget (viewOf s tid t) a).toNat (t.batchNext - 1))) :=
  wait_of h (if_neg (Nat.not_le.mpr hm))

end

theorem spawnAndBatches : Spec.SpawnAndBatches := by
  intro s tid t k
  exact ⟨fun a b h => ⟨spawn_empty h, spawn_misaligned h, fun s1 d ha he hr hd hn hm => spawn_places h ha he hr hd hn hm⟩,
    fun d h => ⟨closed s tid t, batch_completes h, rfl, fun t1 ht => ⟨_, team_modTeam ht _, rfl⟩⟩,
    fun a h => ⟨waitb_goes h, waitb_blocks h⟩⟩

/-! ### CWAIT and CTEST -/

section

variable {s s1 : State} {tid k a b d cid off : Nat} {t : Team} {x m : W64}

theorem bitmapRead_fault {f : Flt} (h : bitmapAt s t tid x = (s1, .error f)) : bitmapRead s t tid x = (s1, .error (.fault s1 f)) := by
  simp only [bitmapRead, h]

theorem bitmapRead_ok (h : bitmapAt s t tid x = (s1, .ok (cid, off))) (hw : bitmapWatch s1 t x cid off = []) :
    bitmapRead s t tid x = (s1, .ok (cid, off)) := by
  simp only [bitmapRead, h, hw, watchAct]

theorem bitsFound_iff : bitsFound s cid off m = true ↔ BitVec.ofNat 64 (leNat (memRead s (partKey cid off) 8)) &&& m = m :=
  decide_eq_true_iff

section

variable (h : CanIssue s tid t (.cwait k a b))
include h

theorem cwait_faults {f : Flt} (hf : bitmapAt s t tid (sget (viewOf s tid t) a) = (s1, .error f)) :
    Faults (.cwait k a b) s tid t s1 f := fault_of h (by simp only [bitmapRead_fault hf])

variable (hr : bitmapRead s t tid (sget (viewOf s tid t) a) = (s1, .ok (cid, off)))
include hr

theorem cwait_goes (hm : bitsFound s1 cid off (sget (viewOf s tid t) b) = true) (hc : cwaitAhead s1 cid off s1.nextId = false) :
    Completes (.cwait k a b) s tid (bitmapAcquire s1 tid t (sget (viewOf s tid t) a) cid off) :=
  go_of h (by simp only [hr, hm, hc, Bool.not_false, Bool.and_true, if_true])

theorem cwait_blocks (hm : ¬bitsFound s1 cid off (sget (viewOf s tid t) b) = true ∨ cwaitAhead s1 cid off s1.nextId = true) :
    Blocks (.cwait k a b) s tid { s1 with nextId := s1.nextId + 1 }
      (.cwait (sget (viewOf s tid t) a) (sget (viewOf s tid t) b) s1.nextId) := by
  refine wait_of h ?_
  simp only [hr]
  exact if_neg (by rcases hm with hm | hm <;> simp [hm])

end

section

variable (h : CanIssue s tid t (.ctest k d a b))
include h

theorem ctest_faults {f : Flt} (hf : bitmapAt s t tid (sget (viewOf s tid t) a) = (s1, .error f)) :
    Faults (.ctest k d a b) s tid t s1 f := fault_of h (by simp only [bitmapRead_fault hf])

variable (hr : bitmapRead s t tid (sget (viewOf s tid t) a) = (s1, .ok (cid, off)))
include hr

theorem ctest_finds (hm : bitsFound s1 cid off (sget (viewOf s tid t) b) = true) : Completes (.ctest k d a b) s tid
    (writeRegs (bitmapAcquire s1 tid t (sget (viewOf s tid t) a) cid off) tid [.c d true]) :=
  go_of h (by simp only [hr, hm, if_true])

theorem ctest_fails (hm : ¬bitsFound s1 cid off (sget (viewOf s tid t) b) = true) : Completes (.ctest k d a b) s tid
    (writeRegs (bitmapSeen s1 tid cid off) tid [.c d false]) :=
  go_of h (by simp only [hr, if_neg hm])

end

end

theorem chunkBitmapWaits : Spec.ChunkBitmapWaits := by
  intro s tid t k a b
  refine ⟨fun h => ⟨fun s1 f hf => cwait_faults h hf, fun s1 cid off hat hw => ?cwait⟩,
    fun d h => ⟨fun s1 f hf => ctest_faults h hf, fun s1 cid off hat hw => ?ctest⟩⟩
  case cwait =>
    have hr := bitmapRead_ok hat hw
    exact ⟨fun hm hc => cwait_goes h hr (bitsFound_iff.mpr hm) hc, fun hm => cwait_blocks h hr (hm.imp_left (mt bitsFound_iff.mp))⟩
  case ctest =>
    have hr := bitmapRead_ok hat hw
    exact ⟨fun hm => ctest_finds h hr (bitsFound_iff.mpr hm), fun hm => ctest_fails h hr (mt bitsFound_iff.mp hm)⟩

/-- Settles O36: SPAWN and the batches, then the chunk bitmaps. -/
theorem spawnBatchesAndChunkWaits : Obligations.SpawnBatchesAndChunkWaits := ⟨spawnAndBatches, chunkBitmapWaits⟩

end Sys2Proof.Proofs.SpawnAndBatches
end

section
/-! O7: the two-operand vector integer instructions (spec/11 R225, R227, R232, R236). Their arithmetic works on numbers, the statement's on bit
vectors of the type's width; an instruction whose function is that of its bit vectors writes their result in the active lanes. -/

namespace Sys2Proof.Laws

open Sys2Proof.Machine Sys2Proof.Spec

theorem vy_toNat (r : Team) (ty : Ty) (b : VSrc) (l : Nat) : (vy r ty (tyWidth ty) b l).toNat = vecY r ty b l := BitVec.toNat_ofNat _ _

/-- Rotation: the bits that leave at the top come in below the others, so the sum of both parts is their or. -/
theorem rotW_eq {w : Nat} (hw : 0 < w) (x y : BitVec w) : rotW w x.toNat y.toNat = (x.rotateLeft (y.toNat % w)).toNat := by
  have hn := Nat.mod_lt y.toNat hw
  rw [rotW]
  generalize y.toNat % w = n at hn
  have hsplit : 2 ^ w = 2 ^ (w - n) * 2 ^ n := by rw [← Nat.pow_add, Nat.sub_add_cancel hn.le]
  have hlow : x.toNat / 2 ^ (w - n) < 2 ^ n := Nat.div_lt_of_lt_mul (hsplit ▸ x.isLt)
  have hor : x.toNat * 2 ^ n % 2 ^ w + x.toNat / 2 ^ (w - n) = x.toNat <<< n % 2 ^ w ||| x.toNat >>> (w - n) := by
    rw [Nat.shiftRight_eq_div_pow, Nat.shiftLeft_eq, hsplit, Nat.mul_mod_mul_right, ← Nat.shiftLeft_eq]
    exact Nat.shiftLeft_add_eq_or_of_lt hlow _
  have hrot : (x.rotateLeft n).toNat = x.toNat <<< n % 2 ^ w ||| x.toNat >>> (w - n) := by
    rw [BitVec.toNat_rotateLeft, Nat.mod_eq_of_lt hn]
  rw [Nat.mod_eq_of_lt x.isLt, hor, ← hrot, Nat.mod_eq_of_lt (BitVec.isLt _)]

/-- Clamping to the values of a type. -/
theorem clampW_eq (sg : Bool) (w : Nat) (v : Int) : clampW sg w v = (saturate sg w v).toNat := by
  have hle : Fp.intMin sg w ≤ Fp.intMax sg w := by
    have h1 : (0 : Int) < 2 ^ (w - 1) := by positivity
    have h2 : (0 : Int) < 2 ^ w := by positivity
    cases sg
    · show (0 : Int) ≤ 2 ^ w - 1
      omega
    · show -(2 ^ (w - 1) : Int) ≤ 2 ^ (w - 1) - 1
      omega
  have hclamp : max (Fp.intMin sg w) (min (Fp.intMax sg w) v) =
      if v < Fp.intMin sg w then Fp.intMin sg w else if Fp.intMax sg w < v then Fp.intMax sg w else v := by
    split_ifs <;> omega
  rw [clampW, ofInt_eq, hclamp]
  rfl

end Sys2Proof.Laws

namespace Sys2Proof.Proofs.VectorInteger

open Sys2Proof.Machine Sys2Proof.Spec Sys2Proof.Laws

section

variable {s : State} {tid : Nat} {t : Team} {i : Instr}

/-- An instruction whose lanes give the values `z` writes them in the active lanes (spec/11 R227). -/
theorem vecOp_lanes {k d : Nat} {ty : Ty} {f : Team → Nat → Nat} {z : Nat → Nat} (hi : exec i s = vecOp i k d ty f s)
    (hz : ∀ l, f (viewOf s tid t) l = z l) (h : CanIssue s tid t i) :
    Completes i s tid (writeRegs s tid ((active (viewOf s tid t) k).flatMap fun l => wrT ty d l (z l))) := by
  refine hi.trans (go_of h ?_)
  simp only [hz]

/-- The same for values of some width. -/
theorem vecOp_completes {k d w : Nat} {ty : Ty} {f : Team → Nat → Nat} {z : Nat → BitVec w} (hi : exec i s = vecOp i k d ty f s)
    (hz : ∀ l, f (viewOf s tid t) l = (z l).toNat) (h : CanIssue s tid t i) :
    Completes i s tid (writeRegs s tid (laneWrites (viewOf s tid t) k d ty z)) := vecOp_lanes hi hz h

/-- The same for a function of two operands. -/
theorem intOp_completes {o : VBin} {f : Nat → Nat → Nat → Nat} {z : Nat → BitVec (tyWidth o.ty)} (hi : exec i s = intOp i o f s)
    (hz : ∀ l, f (tyWidth o.ty) (vx (viewOf s tid t) o.ty (tyWidth o.ty) o.a l).toNat
      (vy (viewOf s tid t) o.ty (tyWidth o.ty) o.b l).toNat = (z l).toNat) (h : CanIssue s tid t i) :
    Completes i s tid (writeRegs s tid (laneWrites (viewOf s tid t) o.k o.d o.ty z)) := by
  simp only [vx_toNat, vy_toNat] at hz
  exact vecOp_completes hi hz h

end

/-- Settles O7: row by row, the instruction's function is that of its bit vectors. -/
theorem vectorIntegerArithmetic : Obligations.VectorIntegerArithmetic := by
  unfold Obligations.VectorIntegerArithmetic
  intro s tid t o
  have hw := tyWidth_pos o.ty
  refine ⟨?vadd, ?vsub, ?vmul, ?vmulh, ?vdiv, ?vrem, ?vmin, ?vmax, ?vand, ?vor, ?vxor, ?vshl, ?vshr, ?vrot, fun sub => ?vadds⟩
  case vadd => exact intOp_completes rfl fun _ => addW_eq _ _
  case vsub => exact intOp_completes rfl fun _ => subW_eq _ _
  case vmul => exact intOp_completes rfl fun _ => mulW_eq _ _
  case vmulh => exact intOp_completes rfl fun _ => mulHigh_eq hw _ _ _
  case vdiv => exact intOp_completes rfl fun _ => divW_eq hw _ _ _
  case vrem => exact intOp_completes rfl fun _ => remW_eq hw _ _ _
  case vmin => exact intOp_completes rfl fun _ => minW_eq hw _ _ _
  case vmax => exact intOp_completes rfl fun _ => maxWd_eq hw _ _ _
  case vand => exact intOp_completes (f := fun _ x y => x &&& y) rfl fun _ => (BitVec.toNat_and _ _).symm
  case vor => exact intOp_completes (f := fun _ x y => x ||| y) rfl fun _ => (BitVec.toNat_or _ _).symm
  case vxor => exact intOp_completes (f := fun _ x y => x ^^^ y) rfl fun _ => (BitVec.toNat_xor _ _).symm
  case vshl => exact intOp_completes rfl fun _ => shlW_eq _ _
  case vshr => exact intOp_completes rfl fun _ => shrW_eq hw _ _ _
  case vrot => exact intOp_completes rfl fun _ => rotW_eq hw _ _
  case vadds =>
    refine intOp_completes (f := fun w x y => clampW o.ty.isSigned w (if sub then toVal o.ty.isSigned w x - toVal o.ty.isSigned w y
      else toVal o.ty.isSigned w x + toVal o.ty.isSigned w y)) rfl fun l => ?_
    rw [clampW_eq, toVal_eq hw, toVal_eq hw]

end Sys2Proof.Proofs.VectorInteger
end

section
/-! O8: the vector integer instructions of other forms (spec/11 R232-R236), bit by bit where their result is one of bits, and the two that
write a mask. -/

namespace Sys2Proof.Laws

open Sys2Proof.Machine Sys2Proof.Spec

theorem negW_eq {w : Nat} (x : BitVec w) : subW w 0 x.toNat = (-x).toNat := by
  rw [← BitVec.zero_sub, ← subW_eq, BitVec.toNat_zero]

theorem absW_eq {w : Nat} (hw : 0 < w) (x : BitVec w) :
    ofInt w (toSigned w x.toNat).natAbs = (if x.toInt < 0 then -x else x).toNat := by
  rw [toSigned_eq hw, ofInt_eq]
  congr 1
  split
  · rw [show (x.toInt.natAbs : Int) = -x.toInt by omega, BitVec.ofInt_neg, BitVec.ofInt_toInt]
  · rw [show (x.toInt.natAbs : Int) = x.toInt by omega, BitVec.ofInt_toInt]

theorem popcountW_eq {w : Nat} (x : BitVec w) :
    popcount x.toNat w = (BitVec.ofNat w ((List.range w).filter fun i => x.getLsbD i).length).toNat := by
  have hle := List.length_filter_le (fun i => x.getLsbD i) (List.range w)
  rw [List.length_range] at hle
  rw [popcount_eq, BitVec.toNat_ofNat, Nat.mod_eq_of_lt (hle.trans_lt Nat.lt_two_pow_self)]
  rfl

/-! ### Leading zeros -/

theorem lt_two_pow_bitLen (m : Nat) : m < 2 ^ Fp.bitLen m := by
  rw [Fp.bitLen]
  split
  · omega
  · exact Nat.lt_log2_self

/-- The top bit of a number that is not 0. -/
theorem testBit_bitLen {m : Nat} (hm : 0 < Fp.bitLen m) : m.testBit (Fp.bitLen m - 1) = true := by
  rw [Fp.bitLen] at *
  split at hm
  · omega
  · rename_i h
    rw [if_neg h]
    exact Nat.testBit_log2 h

/-- Leading zeros end at the width or before a set bit (spec/11 R232). -/
theorem clzW_spec {w : Nat} (x : BitVec w) : clzW w x.toNat ≤ w ∧ (∀ i, i < clzW w x.toNat → x.getMsbD i = false) ∧
    (clzW w x.toNat < w → x.getMsbD (clzW w x.toNat) = true) := by
  rw [clzW, Nat.mod_eq_of_lt x.isLt]
  refine ⟨Nat.sub_le _ _, fun i hi => ?_, fun hlt => ?_⟩
  · have hge : x.toNat < 2 ^ (w - 1 - i) :=
      (lt_two_pow_bitLen _).trans_le (Nat.pow_le_pow_right (by decide) (by omega))
    rw [BitVec.getMsbD_eq_getLsbD, ← BitVec.testBit_toNat, Nat.testBit_lt_two_pow hge, Bool.and_false]
  · have hle : Fp.bitLen x.toNat ≤ w := by
      by_contra hgt
      have htop := testBit_bitLen (m := x.toNat) (by omega)
      rw [BitVec.testBit_toNat, BitVec.getLsbD_of_ge _ _ (by omega)] at htop
      exact absurd htop (by decide)
    rw [BitVec.getMsbD_eq_getLsbD, decide_eq_true hlt, Bool.true_and, ← BitVec.testBit_toNat,
      show w - 1 - (w - Fp.bitLen x.toNat) = Fp.bitLen x.toNat - 1 by omega]
    exact testBit_bitLen (by omega)

/-! ### Bit fields -/

/-- The field of VBFE, extended by its sign or by zeros (spec/11 R233). -/
def bfeOf {w : Nat} (sg : Bool) (x : BitVec w) (ctl : Nat) : BitVec w :=
  let f := x.extractLsb' (ctl % 64) (min (ctl / 256 % 128) w)
  if sg && decide (0 < min (ctl / 256 % 128) w) then f.signExtend w else f.setWidth w

theorem bfe_eq {w : Nat} (sg : Bool) (x : BitVec w) (ctl : Nat) : bfe sg w x.toNat ctl = (bfeOf sg x ctl).toNat := by
  have hf : x.toNat % 2 ^ w / 2 ^ (ctl % 64) % 2 ^ min (ctl / 256 % 128) w =
      (x.extractLsb' (ctl % 64) (min (ctl / 256 % 128) w)).toNat := by
    rw [BitVec.extractLsb'_toNat, Nat.shiftRight_eq_div_pow, Nat.mod_eq_of_lt x.isLt]
  have hlen : min (ctl / 256 % 128) w ≤ w := Nat.min_le_right _ _
  rw [bfe, bfeOf]
  rw [hf]
  generalize min (ctl / 256 % 128) w = len at hlen ⊢
  split
  · rename_i h
    have hpos : 0 < len := of_decide_eq_true (Bool.and_eq_true_iff.mp h).2
    rw [toSigned_eq hpos, ofInt_eq]
    rfl
  · exact (BitVec.toNat_setWidth_of_le hlen).symm

theorem getLsbD_bfeOf {w : Nat} (sg : Bool) (x : BitVec w) (ctl : Nat) {i : Nat} (hi : i < w) :
    (bfeOf sg x ctl).getLsbD i = if i < min (ctl / 256 % 128) w then x.getLsbD (ctl % 64 + i)
      else sg && decide (0 < min (ctl / 256 % 128) w) && x.getLsbD (ctl % 64 + min (ctl / 256 % 128) w - 1) := by
  rw [bfeOf]
  generalize min (ctl / 256 % 128) w = len
  split
  · rename_i h
    have hpos : 0 < len := of_decide_eq_true (Bool.and_eq_true_iff.mp h).2
    rw [BitVec.getLsbD_signExtend, decide_eq_true hi, Bool.true_and, h, Bool.true_and, BitVec.msb_eq_getLsbD_last]
    simp only [BitVec.getLsbD_extractLsb']
    split
    · rename_i hl
      rw [decide_eq_true hl, Bool.true_and]
    · rw [decide_eq_true (by omega), Bool.true_and, Nat.add_sub_assoc hpos]
  · rename_i h
    rw [BitVec.getLsbD_setWidth, decide_eq_true hi, Bool.true_and, BitVec.getLsbD_extractLsb', Bool.eq_false_of_not_eq_true h,
      Bool.false_and]
    split
    · rename_i hl
      rw [decide_eq_true hl, Bool.true_and]
    · rename_i hl
      rw [decide_eq_false hl, Bool.false_and]

/-- The bits of the mask of a field. -/
theorem testBit_fieldMask (w pos len i : Nat) :
    ((2 ^ len - 1) * 2 ^ pos % 2 ^ w).testBit i = (decide (i < w) && (decide (pos ≤ i) && decide (i - pos < len))) := by
  rw [Nat.testBit_mod_two_pow, Nat.testBit_mul_two_pow, Nat.testBit_two_pow_sub_one]

/-- VBFI bit by bit (spec/11 R233). -/
theorem testBit_bfi {w : Nat} (x z : BitVec w) (ctl : Nat) {i : Nat} (hi : i < w) :
    (bfi w x.toNat ctl z.toNat).testBit i =
      if ctl % 64 ≤ i ∧ i < ctl % 64 + min (ctl / 256 % 128) w then x.getLsbD (i - ctl % 64) else z.getLsbD i := by
  rw [bfi]
  generalize min (ctl / 256 % 128) w = len
  generalize ctl % 64 = pos
  have hm : (2 ^ len - 1) * 2 ^ pos % 2 ^ w < 2 ^ w := Nat.mod_lt _ (Nat.two_pow_pos _)
  rw [Nat.sub_sub, Nat.add_comm 1, Nat.testBit_or, Nat.testBit_and, Nat.testBit_and, Nat.testBit_two_pow_sub_succ hm, testBit_fieldMask,
    Nat.testBit_mod_two_pow, Nat.testBit_mod_two_pow, Nat.testBit_mul_two_pow, BitVec.testBit_toNat, BitVec.testBit_toNat,
    decide_eq_true hi]
  by_cases hlo : pos ≤ i
  · by_cases hhi : i < pos + len
    · rw [if_pos ⟨hlo, hhi⟩, decide_eq_true hlo, decide_eq_true (show i - pos < len by omega)]
      simp
    · rw [if_neg (fun h => hhi h.2), decide_eq_false (show ¬i - pos < len by omega)]
      simp
  · rw [if_neg (fun h => hlo h.1), decide_eq_false hlo]
    simp

theorem bfi_lt (w x ctl z : Nat) : bfi w x ctl z < 2 ^ w :=
  Nat.or_lt_two_pow (Nat.and_lt_two_pow _ (by omega)) (Nat.and_lt_two_pow _ (Nat.mod_lt _ (Nat.two_pow_pos _)))

/-! ### Operands of one register -/

/-- The value of a number is that of its bit vector. -/
theorem toVal_ofNat (sg : Bool) {w : Nat} (hw : 0 < w) (n : Nat) : toVal sg w n = valOf sg (BitVec.ofNat w n) := by
  rw [← toVal_eq hw, BitVec.toNat_ofNat]
  simp only [toVal, toSigned, Nat.mod_mod]

theorem vectorY1_lt (r : Team) (l : Nat) (b : VSrc) : vectorY1 r l b < 2 ^ 32 := by
  cases b with
  | reg n => exact (vget r n l).isLt
  | sb n => exact Nat.mod_lt _ (Nat.two_pow_pos 32)
  | lit v => exact Nat.mod_lt _ (Nat.two_pow_pos 32)

/-! ### Masks in the active lanes -/

theorem mem_active {r : Team} {k l : Nat} : l ∈ active r k ↔ l < r.lanes ∧ (kget r k).getLsbD l = true := by
  rw [active, activeOf, List.mem_filter, List.mem_range]

/-- A mask destination takes the bit of an active lane and keeps that of another (spec/11 R227). -/
theorem getLsbD_maskInto (r : Team) (k : Nat) (old : Mask) (p : Nat → Bool) {l : Nat} (hl : l < 1024) :
    (maskInto old (active r k) ((active r k).filter p)).getLsbD l =
      if decide (l < r.lanes) && (kget r k).getLsbD l then p l else old.getLsbD l := by
  have hact : (decide (l < r.lanes) && (kget r k).getLsbD l) = decide (l ∈ active r k) := by
    simp only [mem_active, Bool.decide_and, Bool.decide_eq_true]
  rw [hact, maskInto, BitVec.getLsbD_or, BitVec.getLsbD_and, BitVec.getLsbD_not, getLsbD_maskOf hl, getLsbD_maskOf hl, decide_eq_true hl,
    Bool.true_and]
  simp only [List.mem_filter]
  by_cases hm : l ∈ active r k <;> simp [hm]

end Sys2Proof.Laws

namespace Sys2Proof.Proofs.VectorInteger

open Sys2Proof.Machine Sys2Proof.Spec Sys2Proof.Laws

section

variable {s : State} {tid : Nat} {t : Team} {i : Instr}

/-- An instruction of one operand whose function gives the numbers of `z` writes `z` in the active lanes. -/
theorem intOp1_completes {o : VUn} {f : Nat → Nat → Nat} {z : Nat → BitVec (tyWidth o.ty)} (hi : exec i s = intOp1 i o f s)
    (hz : ∀ l, f (tyWidth o.ty) (vx (viewOf s tid t) o.ty (tyWidth o.ty) o.a l).toNat = (z l).toNat) (h : CanIssue s tid t i) :
    Completes i s tid (writeRegs s tid (laneWrites (viewOf s tid t) o.k o.d o.ty z)) := by
  simp only [vx_toNat] at hz
  exact vecOp_completes hi hz h

theorem vclz_completes {o : VUn} (h : CanIssue s tid t (.vclz o)) :
    let w := tyWidth o.ty
    let x (l : Nat) := vx (viewOf s tid t) o.ty w o.a l
    ∃ n : Nat → Nat, Completes (.vclz o) s tid (writeRegs s tid (laneWrites (viewOf s tid t) o.k o.d o.ty fun l => BitVec.ofNat w (n l))) ∧
      ∀ l, n l ≤ w ∧ (∀ i, i < n l → (x l).getMsbD i = false) ∧ (n l < w → (x l).getMsbD (n l) = true) := by
  intro w x
  refine ⟨fun l => clzW w (x l).toNat, intOp1_completes (f := clzW) rfl (fun l => ?_) h, fun l => clzW_spec _⟩
  rw [BitVec.toNat_ofNat, Nat.mod_eq_of_lt ((clzW_spec _).1.trans_lt Nat.lt_two_pow_self)]

/-! ### Instructions of three operands -/

theorem vmad_completes {o : V3} (h : CanIssue s tid t (.vmad o)) :
    let r := viewOf s tid t
    let x (a l : Nat) := vx r o.ty (tyWidth o.ty) a l
    Completes (.vmad o) s tid (writeRegs s tid (laneWrites r o.k o.d o.ty fun l => x o.a l * x o.b l + x o.c l)) := by
  refine vecOp_completes rfl (fun l => ?_) h
  rw [← addW_eq, ← mulW_eq]
  simp only [vx_toNat]

theorem vbfi_completes {o : V3} (h : CanIssue s tid t (.vbfi o)) :
    let r := viewOf s tid t
    let w := tyWidth o.ty
    let x (a l : Nat) := vx r o.ty w a l
    ∃ z : Nat → BitVec w, Completes (.vbfi o) s tid (writeRegs s tid (laneWrites r o.k o.d o.ty z)) ∧ ∀ l i, i < w →
      let pos := (x o.b l).toNat % 64
      let len := min ((x o.b l).toNat / 256 % 128) w
      (z l).getLsbD i = if pos ≤ i ∧ i < pos + len then (x o.a l).getLsbD (i - pos) else (x o.c l).getLsbD i := by
  intro r w x
  refine ⟨fun l => BitVec.ofNat w (bfi w (x o.a l).toNat (x o.b l).toNat (x o.c l).toNat), vecOp_completes rfl (fun l => ?value) h,
    fun l i hi => ?bits⟩
  case value =>
    rw [BitVec.toNat_ofNat, Nat.mod_eq_of_lt (bfi_lt _ _ _ _)]
    simp only [x, w, vx_toNat, r]
  case bits => rw [BitVec.getLsbD_ofNat, decide_eq_true hi, Bool.true_and]; exact testBit_bfi _ _ _ hi

/-! ### Instructions of two operands -/

theorem vsel_completes {o : VBin} {ks : Nat} (h : CanIssue s tid t (.vsel o ks)) :
    let r := viewOf s tid t
    let w := tyWidth o.ty
    Completes (.vsel o ks) s tid (writeRegs s tid (laneWrites r o.k o.d o.ty fun l =>
      if (kget r ks).getLsbD l then vx r o.ty w o.a l else vy r o.ty w o.b l)) := by
  refine vecOp_completes rfl (fun l => ?_) h
  rw [apply_ite BitVec.toNat, vx_toNat, vy_toNat]

theorem vmov_completes {o : VBin} (h : CanIssue s tid t (.vmov o)) :
    let r := viewOf s tid t
    let w := tyWidth o.ty
    Completes (.vmov o) s tid (writeRegs s tid (laneWrites r o.k o.d o.ty fun l =>
      match o.b with | .reg _ => vx r o.ty w o.a l | .sb _ | .lit _ => vy r o.ty w o.b l)) := by
  refine vecOp_completes rfl (fun l => ?_) h
  cases o.b with
  | reg n => exact (vx_toNat _ _ _ _).symm
  | sb n => exact (vy_toNat _ _ _ _).symm
  | lit v => exact (vy_toNat _ _ _ _).symm

theorem vmulw_completes {o : VBin} (h : CanIssue s tid t (.vmulw o)) :
    let r := viewOf s tid t
    Completes (.vmulw o) s tid (writeRegs s tid (laneWrites r o.k o.d .b64 fun l => BitVec.ofInt 64
      (valOf o.ty.isSigned (vget r o.a l) * valOf o.ty.isSigned (BitVec.ofNat 32 (vectorY1 r l o.b))))) := by
  refine vecOp_completes rfl (fun l => ?_) h
  rw [← ofInt_eq, ← toVal_ofNat _ (by decide), ← toVal_eq (by decide)]

theorem vbfe_completes {o : VBin} (h : CanIssue s tid t (.vbfe o)) :
    let r := viewOf s tid t
    let w := tyWidth o.ty
    let x (l : Nat) := vx r o.ty w o.a l
    let y (l : Nat) := vy r o.ty w o.b l
    ∃ z : Nat → BitVec w, Completes (.vbfe o) s tid (writeRegs s tid (laneWrites r o.k o.d o.ty z)) ∧ ∀ l i, i < w →
      let pos := (y l).toNat % 64
      let len := min ((y l).toNat / 256 % 128) w
      (z l).getLsbD i = if i < len then (x l).getLsbD (pos + i)
        else o.ty.isSigned && decide (0 < len) && (x l).getLsbD (pos + len - 1) := by
  intro r w x y
  exact ⟨fun l => bfeOf o.ty.isSigned (x l) (y l).toNat, intOp_completes rfl (fun l => bfe_eq _ _ _) h,
    fun l i hi => getLsbD_bfeOf _ _ _ hi⟩

theorem vlane_completes {k d a : Nat} {ww : Bool} (h : CanIssue s tid t (.vlane k d a ww)) :
    let r := viewOf s tid t
    Completes (.vlane k d a ww) s tid (writeRegs s tid
      (laneWrites r k d .b32 fun l => BitVec.ofNat 32 (if ww then l % 32 else l) + (sget r a).setWidth 32)) := by
  refine vecOp_completes rfl (fun l => ?_) h
  rw [BitVec.toNat_add, BitVec.toNat_ofNat, BitVec.toNat_setWidth, ← Nat.add_mod]

end

theorem vectorIntegerForms : Spec.VectorIntegerForms := by
  intro s tid t
  refine ⟨fun o => ⟨vmad_completes, vbfi_completes⟩, fun o => ⟨?vabs, ?vneg, ?vnot, ?vpopc, vclz_completes⟩,
    fun o => ⟨fun ks => vsel_completes, vmov_completes, vmulw_completes, vbfe_completes⟩, fun k d a ww => vlane_completes⟩
  all_goals have hw := tyWidth_pos o.ty
  case vabs => exact intOp1_completes (f := fun w x => ofInt w (toSigned w x).natAbs) rfl fun _ => absW_eq hw _
  case vneg => exact intOp1_completes (f := fun w x => subW w 0 x) rfl fun _ => negW_eq _
  case vnot => exact intOp1_completes (f := fun w x => 2 ^ w - 1 - x) rfl fun _ => BitVec.toNat_not.symm
  case vpopc => exact intOp1_completes (f := fun w x => popcount x w) rfl fun _ => popcountW_eq _

/-! ### Instructions that write a mask -/

section

variable {s : State} {tid : Nat} {t : Team} {o : VBin}

theorem vcmp_empty {rel : Rel} (h : CanIssue s tid t (.vcmp o rel)) (ha : active (viewOf s tid t) o.k = []) :
    Completes (.vcmp o rel) s tid s := go_of h (if_pos ha)

theorem vcmp_writes {rel : Rel} (h : CanIssue s tid t (.vcmp o rel)) (ha : active (viewOf s tid t) o.k ≠ []) :
    let r := viewOf s tid t
    let w := tyWidth o.ty
    ∃ m : Mask, Completes (.vcmp o rel) s tid (writeRegs s tid [.k o.d m]) ∧ ∀ l, l < 1024 → m.getLsbD l =
      if decide (l < r.lanes) && (kget r o.k).getLsbD l then holds rel o.ty.isSigned (vx r o.ty w o.a l) (vy r o.ty w o.b l)
      else (kget r o.d).getLsbD l := by
  intro r w
  refine ⟨_, go_of h (if_neg ha), fun l hl => ?_⟩
  rw [getLsbD_maskInto _ _ _ _ hl, ← relW_eq (tyWidth_pos o.ty), vx_toNat, vy_toNat]

theorem vaddc_empty {kc : Nat} (h : CanIssue s tid t (.vaddc o kc)) (ha : active (viewOf s tid t) o.k = []) :
    Completes (.vaddc o kc) s tid s := go_of h (if_pos ha)

/-- The sum of VADDC with the carry in, modulo 2^W (spec/11 R235). -/
theorem addc_eq {w : Nat} (x y : BitVec w) (c : Nat) : (x.toNat + y.toNat + c) % 2 ^ w = (x + y + BitVec.ofNat w c).toNat := by
  rw [BitVec.toNat_add, BitVec.toNat_add, BitVec.toNat_ofNat, ← Nat.add_mod]

theorem vaddc_writes {kc : Nat} (h : CanIssue s tid t (.vaddc o kc)) (ha : active (viewOf s tid t) o.k ≠ []) :
    let r := viewOf s tid t
    let w := tyWidth o.ty
    let x (l : Nat) := vx r o.ty w o.a l
    let y (l : Nat) := vy r o.ty w o.b l
    let c (l : Nat) : Nat := if (kget r kc).getLsbD l then 1 else 0
    ∃ m : Mask, Completes (.vaddc o kc) s tid (writeRegs s tid
        (laneWrites r o.k o.d o.ty (fun l => x l + y l + BitVec.ofNat w (c l)) ++ [.k kc m])) ∧
      ∀ l, l < 1024 → m.getLsbD l = if decide (l < r.lanes) && (kget r o.k).getLsbD l
        then decide (2 ^ w ≤ (x l).toNat + (y l).toNat + c l) else (kget r kc).getLsbD l := by
  intro r w x y c
  refine ⟨maskInto (kget r kc) (active r o.k) ((active r o.k).filter fun l => decide (2 ^ w ≤ (x l).toNat + (y l).toNat + c l)),
    go_of h ((if_neg ha).trans ?_), fun l hl => getLsbD_maskInto _ _ _ _ hl⟩
  simp only [laneWrites, ← addc_eq, x, y, w, vx_toNat, vy_toNat]
  rfl

end

theorem vectorCompareAndCarry : Spec.VectorCompareAndCarry := fun _ _ _ _ =>
  ⟨fun _ h => ⟨vcmp_empty h, vcmp_writes h⟩, fun _ h => ⟨vaddc_empty h, vaddc_writes h⟩⟩

/-- Settles O8: the forms that write lanes, then the two that write a mask. -/
theorem vectorIntegerOtherForms : Obligations.VectorIntegerOtherForms := ⟨vectorIntegerForms, vectorCompareAndCarry⟩

end Sys2Proof.Proofs.VectorInteger
end

section
/-! O9: the vector floating-point instructions that complete at issue (spec/11 R231, R237-R246; spec/05 R112). Those that write lanes have one
form, by which the result and the exceptions of a lane are those of its function; VFCMP writes a mask. -/

namespace Sys2Proof.Laws

open Sys2Proof.Machine Sys2Proof.Spec

/-- The exceptions of lanes that also have a bit each. -/
theorem unionEx_lanes (ls : List Nat) (c : Nat → Bool × BitVec 5) :
    unionEx ((ls.map fun l => (l, c l)).map fun v => v.2.2) = (ls.map fun l => (c l).2).foldl (· ||| ·) 0 := by
  rw [unionEx, List.map_map]
  rfl

/-- The lanes whose bit is set. -/
theorem hits_lanes (ls : List Nat) (c : Nat → Bool × BitVec 5) :
    ((ls.map fun l => (l, c l)).filter fun v => v.2.1).map (·.1) = ls.filter fun l => (c l).1 := by
  rw [List.filter_map, List.map_map]
  exact List.map_id _

end Sys2Proof.Laws

namespace Sys2Proof.Proofs.VectorFloat

open Sys2Proof.Machine Sys2Proof.Spec Sys2Proof.Laws

section

variable {s : State} {tid : Nat} {t : Team}

/-- An instruction of the common form writes its function's values in the active lanes and gathers their exceptions. -/
theorem fpOp_completes {i : Instr} {k d : Nat} {ty : Ty} {f : Team → Nat → FVal} (hi : exec i s = fpOp i k d ty f s)
    (h : CanIssue s tid t i) :
    let r := viewOf s tid t
    Completes i s tid (modTeam (writeRegs s tid ((active r k).flatMap fun l => wrT ty d l (f r l).1)) tid
      fun t => { t with fpflags := t.fpflags ||| ((active r k).map fun l => (f r l).2).foldl (· ||| ·) 0 }) := by
  refine hi.trans (go_of h ?_)
  simp only [fpWrites_eq]
  rfl

theorem vfscale_completes {o : VBin} {rm : Rm} (h : CanIssue s tid t (.vfscale o rm)) :
    let r := viewOf s tid t
    let f (l : Nat) : FVal := perHalf o.ty (fun x _ =>
      ofRes (Fp.fScale (Fp.fmtOf o.ty) rm x (BitVec.ofNat 32 (vectorY1 r l o.b)).toInt)) (vgetT r o.ty o.a l) 0
    Completes (.vfscale o rm) s tid (modTeam (writeRegs s tid ((active r o.k).flatMap fun l => wrT o.ty o.d l (f l).1)) tid
      fun t => { t with fpflags := t.fpflags ||| ((active r o.k).map fun l => (f l).2).foldl (· ||| ·) 0 }) := by
  have hn (r : Team) (l : Nat) : (BitVec.ofNat 32 (vectorY1 r l o.b)).toInt = toSigned 32 (vectorY1 r l o.b) := by
    rw [← toSigned_eq (by decide), BitVec.toNat_ofNat, Nat.mod_eq_of_lt (vectorY1_lt _ _ _)]
  simp only [hn]
  exact fpOp_completes (f := fun r l => perHalf o.ty (fun x _ =>
    ofRes (Fp.fScale (Fp.fmtOf o.ty) rm x (toSigned 32 (vectorY1 r l o.b)))) (vgetT r o.ty o.a l) 0) rfl h

end

theorem vectorFloatResults : Spec.VectorFloatResults := by
  intro s tid t
  refine ⟨fun o => ⟨fun rm => ?vfadd, fun rm => ?vfsub, fun rm => ?vfmul, fun num => ?vfmin, fun num => ?vfmax, fun md => ?vfcopysign,
      fun rm => vfscale_completes⟩,
    fun o => ⟨?vfrsqs, ?vfrcps, ?vfabs, ?vfneg, ?vfclass, fun rm ex => ?vfrnd, ?vfexp2, ?vflog2, ?vfgetexp, ?vfgetman⟩, fun o => ?vfma⟩
  case vfadd => exact fpOp_completes (f := fpBin o fun F x y => ofRes (Fp.fAdd F rm x y)) rfl
  case vfsub => exact fpOp_completes (f := fpBin o fun F x y => ofRes (Fp.fSub F rm x y)) rfl
  case vfmul => exact fpOp_completes (f := fpBin o fun F x y => ofRes (Fp.fMul F rm x y)) rfl
  case vfmin => exact fpOp_completes (f := fpBin o fun F x y => ofRes (Fp.fMinMax F false num x y)) rfl
  case vfmax => exact fpOp_completes (f := fpBin o fun F x y => ofRes (Fp.fMinMax F true num x y)) rfl
  case vfcopysign => exact fpOp_completes (f := fpBin o fun F x y => (Fp.fCopySign F md x y, 0)) rfl
  case vfrsqs => exact fpOp_completes (f := fpUn o fun F x => ofRes (Fp.rsqSeed F x)) rfl
  case vfrcps => exact fpOp_completes (f := fpUn o fun F x => ofRes (Fp.rcpSeed F x)) rfl
  case vfabs => exact fpOp_completes (f := fpUn o fun F x => (Fp.fAbs F x, 0)) rfl
  case vfneg => exact fpOp_completes (f := fpUn o fun F x => (Fp.fNeg F x, 0)) rfl
  case vfclass => exact fpOp_completes (ty := .b32) (f := fpUn o fun F x => (Fp.fClass F x, 0)) rfl
  case vfrnd => exact fpOp_completes (f := fpUn o fun F x => ofRes (Fp.fRnd F rm ex x)) rfl
  case vfexp2 => exact fpOp_completes (f := fpUn o fun F x => ofRes (Fp.fExp2 F x)) rfl
  case vflog2 => exact fpOp_completes (f := fpUn o fun F x => ofRes (Fp.fLog2 F x)) rfl
  case vfgetexp => exact fpOp_completes (f := fpUn o fun F x => ofRes (Fp.fGetExp F x)) rfl
  case vfgetman => exact fpOp_completes (f := fpUn o fun F x => ofRes (Fp.fGetMan F x)) rfl
  case vfma =>
    exact fpOp_completes (f := fun r l =>
      fmaElem o.ty (rmOf r.fpmode) (vgetT r o.ty o.a l) (vgetT r o.ty o.b l) (vgetT r o.ty o.c l)) rfl

/-! ### VFCMP -/

section

variable {s : State} {tid : Nat} {t : Team} {o : VBin} {rel : Rel} {u sig half : Bool}

theorem vfcmp_empty (h : CanIssue s tid t (.vfcmp o rel u sig half)) (ha : active (viewOf s tid t) o.k = []) :
    Completes (.vfcmp o rel u sig half) s tid s := go_of h (if_pos ha)

theorem vfcmp_writes (h : CanIssue s tid t (.vfcmp o rel u sig half)) (ha : active (viewOf s tid t) o.k ≠ []) :
    let r := viewOf s tid t
    let pick (x : Nat) : Nat := if o.ty.isPacked then (if half then x / 65536 % 65536 else x % 65536) else x
    let c (l : Nat) : Bool × BitVec 5 :=
      Fp.fCmp (Fp.fmtOf o.ty) rel u sig (pick (vgetT r o.ty o.a l)) (pick (vectorY r o.ty l o.b))
    ∃ m : Mask, Completes (.vfcmp o rel u sig half) s tid (modTeam (writeRegs s tid [.k o.d m]) tid
        fun t => { t with fpflags := t.fpflags ||| ((active r o.k).map fun l => (c l).2).foldl (· ||| ·) 0 }) ∧
      ∀ l, l < 1024 → m.getLsbD l =
        if decide (l < r.lanes) && (kget r o.k).getLsbD l then (c l).1 else (kget r o.d).getLsbD l := by
  intro r pick c
  refine ⟨maskInto (kget r o.d) (active r o.k) ((active r o.k).filter fun l => (c l).1), go_of h ((if_neg ha).trans ?_),
    fun l hl => getLsbD_maskInto _ _ _ _ hl⟩
  simp only [unionEx_lanes, hits_lanes]
  rfl

end

theorem vectorFloatCompare : Spec.VectorFloatCompare := fun _ _ _ _ _ _ _ _ h => ⟨vfcmp_empty h, vfcmp_writes h⟩

/-- Settles O9: the instructions that write lanes, then VFCMP. -/
theorem vectorFloat : Obligations.VectorFloat := ⟨vectorFloatResults, vectorFloatCompare⟩

end Sys2Proof.Proofs.VectorFloat
end

section
/-! O10: VFDIV and VFSQRT (spec/11 R238; spec/07 R147, R148, R151). The destination of the operation is a table of elements: what it holds are
the writes of the lanes, of which no two name one element. -/

namespace Sys2Proof.Laws

open Sys2Proof.Machine

/-! ### The elements of a destination -/

/-- Enter a write of a vector register. -/
def enterElement (m : Tab W32) : Wr → Tab W32
  | .v r l x => tbSet m (vkey r l) x
  | _ => m

theorem vDest_eq (ws : List Wr) : vDest ws = ⟨ws.foldl enterElement [], [], []⟩ := rfl

/-- An element of the table is an old one or that of a write. -/
theorem of_tbGet_foldl_enterElement {ws : List Wr} {m : Tab W32} {key : Nat} {x : W32}
    (h : tbGet (ws.foldl enterElement m) key = some x) :
    tbGet m key = some x ∨ ∃ e l, key = vkey e l ∧ Wr.v e l x ∈ ws := by
  induction ws generalizing m with
  | nil => exact .inl h
  | cons w ws ih =>
    rcases ih h with h | ⟨e, l, hk, hw⟩
    · cases w with
      | v e l y =>
        by_cases hk : key = vkey e l
        · rw [enterElement, hk, tbGet_tbSet_self, Option.some_inj] at h
          exact .inr ⟨e, l, hk, h ▸ List.mem_cons_self⟩
        · rw [enterElement, tbGet_tbSet_ne _ _ hk] at h
          exact .inl h
      | s | k | c => exact .inl h
    · exact .inr ⟨e, l, hk, List.mem_cons_of_mem _ hw⟩

/-- An element once in the table stays there. -/
theorem isSome_tbGet_enterElement {m : Tab W32} {key : Nat} (w : Wr) (h : (tbGet m key).isSome) :
    (tbGet (enterElement m w) key).isSome := by
  cases w with
  | v e l y =>
    by_cases hk : key = vkey e l
    · rw [enterElement, hk, tbGet_tbSet_self]; rfl
    · rw [enterElement, tbGet_tbSet_ne _ _ hk]; exact h
  | s | k | c => exact h

/-- The element of every write is in the table. -/
theorem isSome_tbGet_foldl_enterElement {ws : List Wr} {m : Tab W32} {key : Nat}
    (h : (tbGet m key).isSome ∨ ∃ e l x, key = vkey e l ∧ Wr.v e l x ∈ ws) : (tbGet (ws.foldl enterElement m) key).isSome := by
  induction ws generalizing m with
  | nil => exact h.resolve_right fun ⟨_, _, _, _, hw⟩ => List.not_mem_nil hw
  | cons w ws ih =>
    refine ih ?_
    rcases h with h | ⟨e, l, x, hk, hw⟩
    · exact .inl (isSome_tbGet_enterElement w h)
    · rcases List.mem_cons.mp hw with rfl | hw
      · exact .inl (by rw [enterElement, hk, tbGet_tbSet_self]; rfl)
      · exact .inr ⟨e, l, x, hk, hw⟩

/-! ### The writes of the active lanes -/

/-- A value of a type is written to one register or to two, in its lane (spec/05 R106). -/
theorem wrT_cases (ty : Ty) (d l z : Nat) :
    (∃ x, wrT ty d l z = [.v d l x]) ∨ ∃ x y, wrT ty d l z = [.v d l x, .v (d + 1) l y] := by
  cases ty
  case i64 | n64 | d | b64 => exact .inr ⟨_, _, rfl⟩
  all_goals exact .inl ⟨_, rfl⟩

theorem wrT_lane {ty : Ty} {d l z e m : Nat} {x : W32} (h : Wr.v e m x ∈ wrT ty d l z) : m = l := by
  rcases wrT_cases ty d l z with ⟨a, hw⟩ | ⟨a, b, hw⟩ <;>
    simp only [hw, List.mem_cons, List.not_mem_nil, or_false, Wr.v.injEq] at h
  · exact h.2.1
  · exact h.elim (·.2.1) (·.2.1)

/-- Each register is written once. -/
theorem wrT_unique {ty : Ty} {d l z e : Nat} {x y : W32} (hx : Wr.v e l x ∈ wrT ty d l z) (hy : Wr.v e l y ∈ wrT ty d l z) :
    x = y := by
  rcases wrT_cases ty d l z with ⟨a, hw⟩ | ⟨a, b, hw⟩ <;>
    simp only [hw, List.mem_cons, List.not_mem_nil, or_false, true_and, Wr.v.injEq] at hx hy
  · exact hx.2.trans hy.2.symm
  · rcases hx with ⟨hx, rfl⟩ | ⟨hx, rfl⟩ <;> rcases hy with ⟨hy, rfl⟩ | ⟨hy, rfl⟩
    case inl.inl | inr.inr => rfl
    case inl.inr | inr.inl => omega

theorem active_lt {r : Team} {k l : Nat} (h : l ∈ active r k) : l < 1024 := by
  by_contra hl
  rw [mem_active, BitVec.getLsbD_of_ge _ _ (by omega)] at h
  exact absurd h.2 (by decide)

section

variable {r : Team} {k d : Nat} {ty : Ty} {z : Nat → Nat}

/-- What the destination of the active lanes' values holds is written by one of them. -/
theorem of_tbGet_laneDest {key : Nat} {x : W32}
    (h : tbGet (vDest ((active r k).flatMap fun l => wrT ty d l (z l))).v key = some x) :
    ∃ l ∈ active r k, ∃ e, key = vkey e l ∧ Wr.v e l x ∈ wrT ty d l (z l) := by
  rw [vDest_eq] at h
  rcases of_tbGet_foldl_enterElement h with h | ⟨e, m, hk, hw⟩
  · exact absurd h (by simp [tbGet])
  · obtain ⟨l, hl, hw⟩ := List.mem_flatMap.mp hw
    obtain rfl := wrT_lane hw
    exact ⟨m, hl, e, hk, hw⟩

/-- Every write of an active lane stands in the destination. -/
theorem tbGet_laneDest {l e : Nat} {x : W32} (hl : l ∈ active r k) (hx : Wr.v e l x ∈ wrT ty d l (z l)) :
    tbGet (vDest ((active r k).flatMap fun l => wrT ty d l (z l))).v (vkey e l) = some x := by
  have hmem : Wr.v e l x ∈ (active r k).flatMap fun l => wrT ty d l (z l) := List.mem_flatMap.mpr ⟨l, hl, hx⟩
  have hsome := isSome_tbGet_foldl_enterElement (m := []) (.inr ⟨e, l, x, rfl, hmem⟩)
  obtain ⟨y, hy⟩ := Option.isSome_iff_exists.mp hsome
  obtain ⟨m, hm, q, hkey, hw⟩ := of_tbGet_laneDest hy
  obtain ⟨rfl, rfl⟩ := (vkey_inj (active_lt hm) (active_lt hl)).mp hkey
  rw [wrT_unique hx hw]
  exact hy

end

end Sys2Proof.Laws

namespace Sys2Proof.Proofs.VectorFloat

open Sys2Proof.Machine Sys2Proof.Spec Sys2Proof.Laws

section

variable {s : State} {tid k d : Nat} {t : Team} {i : Instr} {ty : Ty} {f : Team → Nat → FVal}

theorem longArith_empty (hi : exec i s = longArith i k d ty f s) (h : CanIssue s tid t i) (ha : active (viewOf s tid t) k = []) :
    Completes i s tid s := hi.trans (go_of h (if_pos ha))

theorem longArith_launches (hi : exec i s = longArith i k d ty f s) (h : CanIssue s tid t i) (ha : active (viewOf s tid t) k ≠ []) :
    let r := viewOf s tid t
    Completes i s tid (launchOp s tid { newOp t tid i (vDest ((active r k).flatMap fun l => wrT ty d l (f r l).1)) .arith with
      ex := ((active r k).map fun l => (f r l).2).foldl (· ||| ·) 0 }) := by
  refine hi.trans (go_of h ((if_neg ha).trans ?_))
  simp only [fpWrites_eq]

/-- A floating-point value takes one register, or for .d two, with the low half in the first (spec/07 R172). -/
theorem wrT_float (d l z : Nat) :
    (ty = .d → wrT ty d l z = [.v d l (BitVec.ofNat 32 z), .v (d + 1) l (BitVec.ofNat 32 (z / 2 ^ 32))]) ∧
      (ty = .f ∨ ty.isPacked = true → wrT ty d l z = [.v d l (BitVec.ofNat 32 z)]) := by
  refine ⟨fun h => h ▸ rfl, fun h => ?_⟩
  rcases h with rfl | h
  · rfl
  · cases ty
    case h | bf => rfl
    all_goals exact absurd h (by decide)

/-- What an instruction of the form does: nothing with no active lane, else the operation whose destination holds exactly their writes. -/
theorem longArith_spec (hi : exec i s = longArith i k d ty f s) (h : CanIssue s tid t i) :
    let r := viewOf s tid t
    (active r k = [] → Completes i s tid s) ∧ (active r k ≠ [] → ∃ dest : Tab W32,
      Completes i s tid (launchOp s tid { newOp t tid i ⟨dest, [], []⟩ .arith with
        ex := ((active r k).map fun l => (f r l).2).foldl (· ||| ·) 0 }) ∧
      (∀ l ∈ active r k, ∀ e x, Wr.v e l x ∈ wrT ty d l (f r l).1 → tbGet dest (vkey e l) = some x) ∧
      (∀ key x, tbGet dest key = some x → ∃ l ∈ active r k, ∃ e, key = vkey e l ∧ Wr.v e l x ∈ wrT ty d l (f r l).1) ∧
      ∀ l z, (ty = .d → wrT ty d l z = [.v d l (BitVec.ofNat 32 z), .v (d + 1) l (BitVec.ofNat 32 (z / 2 ^ 32))]) ∧
        (ty = .f ∨ ty.isPacked = true → wrT ty d l z = [.v d l (BitVec.ofNat 32 z)])) :=
  ⟨longArith_empty hi h, fun ha => ⟨_, longArith_launches hi h ha,
    fun _ hl _ _ hx => tbGet_laneDest (z := fun l => (f (viewOf s tid t) l).1) hl hx,
    fun _ _ h => of_tbGet_laneDest (z := fun l => (f (viewOf s tid t) l).1) h, wrT_float d⟩⟩

end

/-- Settles O10: the two instructions share one form, whose operation holds the writes of the active lanes. -/
theorem longArithmeticIssue : Obligations.LongArithmeticIssue := by
  unfold Obligations.LongArithmeticIssue
  intro s tid t
  exact ⟨fun o fs rm => longArith_spec (f := fpBin o fun F x y => ofRes (Fp.fDiv F rm x y)) rfl,
    fun o fs rm => longArith_spec (f := fpUn o fun F x => ofRes (Fp.fSqrt F rm x)) rfl⟩

end Sys2Proof.Proofs.VectorFloat
end

section
/-! O11: the conversions and permutes (spec/11 R247-R251): those that convert have the form of the floating-point instructions, those that
quantise or permute that of the integer ones. -/

namespace Sys2Proof.Proofs.Convert

open Sys2Proof.Machine Sys2Proof.Spec Sys2Proof.Laws
open Sys2Proof.Proofs.VectorInteger (vecOp_lanes)
open Sys2Proof.Proofs.VectorFloat (fpOp_completes)

/-- The position VSHFL reads: what its mode names where that lies in the word, else the lane's own (spec/11 R251). -/
theorem shflPos_getD (md : ShMode) (j p : Nat) : (shflPos md j p).getD j = match md with
    | .index => p
    | .xor => j ^^^ p
    | .up => if p ≤ j then j - p else j
    | .down => if j + p < 32 then j + p else j := by
  cases md with
  | index | xor => rfl
  | up => simp only [shflPos]; split <;> rfl
  | down => simp only [shflPos]; split <;> rfl

section

variable {s : State} {tid : Nat} {t : Team} {o : VBin}

/-- What a lane reads through VSHFL. -/
theorem vshfl_lane (r : Team) (md : ShMode) (l : Nat) : (match shflPos md (l % 32) (vectorY1 r l o.b % 32) with
      | some p => vgetT r o.ty o.a (l / 32 * 32 + p)
      | none => vgetT r o.ty o.a l) =
    vgetT r o.ty o.a (l / 32 * 32 + (shflPos md (l % 32) (vectorY1 r l o.b % 32)).getD (l % 32)) := by
  cases shflPos md (l % 32) (vectorY1 r l o.b % 32) with
  | some p => rfl
  | none => exact congrArg (vgetT _ _ _) (Nat.div_add_mod' l 32).symm

theorem vshfl_completes {md : ShMode} (h : CanIssue s tid t (.vshfl o md)) :
    let r := viewOf s tid t
    Completes (.vshfl o md) s tid (writeRegs s tid ((active r o.k).flatMap fun l => wrT o.ty o.d l
      (vgetT r o.ty o.a (l / 32 * 32 + (shflPos md (l % 32) (vectorY1 r l o.b % 32)).getD (l % 32))))) :=
  vecOp_lanes rfl (fun l => vshfl_lane _ md l) h

end

/-- Settles O11: instruction by instruction, its function of a lane is the statement's. -/
theorem conversionsAndPermutes : Obligations.ConversionsAndPermutes := by
  unfold Obligations.ConversionsAndPermutes
  intro s tid t
  refine ⟨fun k d a dst src rm => ?vcvt, fun o rm => ?vpack, fun o half => ?vunpk, fun o byte => ?vqnt, fun o byte => ?vdqnt,
    fun o md => ?vshfl, fun o => ?vxch⟩
  case vcvt => exact fpOp_completes (f := fun r l => cvtElem dst src rm (vecX r src a l)) rfl
  case vpack => exact fpOp_completes (ty := .b32) (f := fun r l => packElem o.ty rm (vget r o.a l).toNat (vectorY1 r l o.b)) rfl
  case vunpk => exact fpOp_completes (ty := .b32) (f := fun r l => unpkElem o.ty half (vget r o.a l).toNat) rfl
  case vqnt => exact vecOp_lanes (ty := .b32) rfl fun _ => rfl
  case vdqnt => exact vecOp_lanes (ty := .b32) rfl fun _ => rfl
  case vshfl =>
    intro h
    have hdone := vshfl_completes h
    simp only [shflPos_getD] at hdone
    exact hdone
  case vxch => exact vecOp_lanes rfl fun _ => rfl

end Sys2Proof.Proofs.Convert
end

section
/-! O12: folds and scans (spec/11 R252, R253) and the moves between a lane and a scalar (R255). A word's fold is a tree over its lanes, whatever
joins its nodes. From that follow the statement's order of operations, whose numbers fit the type's width, and what an integer fold makes of the
active lanes' values: a property that the joining of two lists' results keeps holds of the whole. -/

namespace Sys2Proof.Laws

open Sys2Proof.Machine Sys2Proof.Spec

/-! ### The tree of a word -/

/-- Node i of a tree after a number of levels: node i of level n + 1 joins nodes 2i and 2i + 1 of level n. -/
def treeNode {α : Type} (c : α → α → α) (x : Nat → α) : Nat → Nat → α
  | 0, i => x i
  | n + 1, i => c (treeNode c x n (2 * i)) (treeNode c x n (2 * i + 1))

/-- A level joins neighbours. -/
theorem foldLevel_range (ty : Ty) (op : FOp) (num : Bool) (m : Nat) (x : Nat → Option FVal) :
    foldLevel ty op num ((List.range (2 * m)).map x) =
      (List.range m).map fun i => combineNode ty op num (x (2 * i)) (x (2 * i + 1)) := by
  induction m generalizing x with
  | zero => rfl
  | succ m ih =>
    rw [Nat.mul_succ, List.range_succ_eq_map, List.range_succ_eq_map, List.range_succ_eq_map]
    simp only [List.map_cons, List.map_map, foldLevel]
    exact congrArg _ (ih fun i => x (i + 1 + 1))

/-- Five levels of pairs (spec/11 R252). -/
theorem wordFold_eq (ty : Ty) (op : FOp) (num : Bool) (x : Nat → Option FVal) :
    wordFold ty op num ((List.range 32).map x) = treeNode (combineNode ty op num) x 5 0 := by
  have level {m n : Nat} (j : Nat) (hn : n = 2 * m) : foldLevel ty op num ((List.range n).map (treeNode (combineNode ty op num) x j)) =
      (List.range m).map (treeNode (combineNode ty op num) x (j + 1)) := hn ▸ foldLevel_range ty op num m _
  have leaves : (List.range 32).map x = (List.range 32).map (treeNode (combineNode ty op num) x 0) := rfl
  rw [wordFold, leaves]
  simp only [level (m := 16) 0 rfl, level (m := 8) 1 rfl, level (m := 4) 2 rfl, level (m := 2) 3 rfl, level (m := 1) 4 rfl]
  rfl

/-- What a lane contributes to a fold: its value where it is active. -/
def foldLeaf (r : Team) (k a : Nat) (ty : Ty) (l : Nat) : Option FVal :=
  if (kget r k).getLsbD l then some (vgetT r ty a l, 0) else none

/-- A fold takes the words in ascending order, each through its tree. -/
theorem foldTeam_eq (r : Team) (k a : Nat) (ty : Ty) (op : FOp) (num : Bool) : foldTeam r k a ty op num =
    (List.range (r.lanes / 32)).foldl (fun acc w => combineNode ty op num acc
      (treeNode (combineNode ty op num) (fun i => foldLeaf r k a ty (32 * w + i)) 5 0)) none := by
  simp only [← wordFold_eq]
  rfl

/-! ### Operations on numbers that fit -/

/-- The numbers of floating-point types, and those below 2^W. -/
def Fits (ty : Ty) (v : Option FVal) : Prop := ∀ p, v = some p → ty.isFloat = true ∨ p.1 < 2 ^ tyWidth ty

theorem fits_none (ty : Ty) : Fits ty none := fun _ h => nomatch h

/-- The types that folds and scans have (spec/11 R252). -/
abbrev foldTypes : List Ty := [Ty.i32, .n32, .i64, .n64, .f, .d]

theorem vgetT_lt (r : Team) {ty : Ty} (hty : ty ∈ foldTypes) (a l : Nat) : vgetT r ty a l < 2 ^ tyWidth ty := by
  have hwidth : ∀ ty ∈ foldTypes, tyWidth ty = if ty.is64 then 64 else 32 := by decide
  have hlo := (vget r a l).isLt
  have hhi := (vget r (a + 1) l).isLt
  rw [hwidth ty hty, vgetT]
  split <;> omega

theorem fits_lane (r : Team) {ty : Ty} (hty : ty ∈ foldTypes) (a l : Nat) : Fits ty (some (vgetT r ty a l, 0)) :=
  fun _ h => .inr (Option.some.inj h ▸ vgetT_lt r hty a l)

theorem foldStep_eq (ty : Ty) (op : FOp) (num : Bool) {p q : Nat} (hp : ty.isFloat = true ∨ p < 2 ^ tyWidth ty)
    (hq : ty.isFloat = true ∨ q < 2 ^ tyWidth ty) : foldStep ty op num p q = foldOp ty op num p q := by
  delta foldStep foldOp
  cases hf : ty.isFloat with
  | true => cases op <;> rfl
  | false =>
    have hw := tyWidth_pos ty
    have hx : (BitVec.ofNat (tyWidth ty) p).toNat = p := Nat.mod_eq_of_lt (by simpa [hf] using hp)
    have hy : (BitVec.ofNat (tyWidth ty) q).toNat = q := Nat.mod_eq_of_lt (by simpa [hf] using hq)
    generalize BitVec.ofNat (tyWidth ty) p = x at *
    generalize BitVec.ofNat (tyWidth ty) q = y at *
    subst hx hy
    cases op with
    | add => exact congrArg (·, 0) (addW_eq x y)
    | min => exact congrArg (·, 0) (minW_eq hw _ x y)
    | max => exact congrArg (·, 0) (maxWd_eq hw _ x y)
    | and => exact congrArg (·, 0) (BitVec.toNat_and x y).symm
    | or => exact congrArg (·, 0) (BitVec.toNat_or x y).symm
    | xor => exact congrArg (·, 0) (BitVec.toNat_xor x y).symm

/-- The results of integer operations fit. -/
theorem foldOp_fits (ty : Ty) (op : FOp) (num : Bool) (p q : Nat) : ty.isFloat = true ∨ (foldOp ty op num p q).1 < 2 ^ tyWidth ty := by
  cases hf : ty.isFloat with
  | true => exact .inl rfl
  | false =>
    delta foldOp
    simp only [hf]
    exact .inr (BitVec.isLt _)

theorem combineNode_eq (ty : Ty) (op : FOp) (num : Bool) {p q : Option FVal} (hp : Fits ty p) (hq : Fits ty q) :
    combineNode ty op num p q = joined (foldOp ty op num) p q ∧ Fits ty (joined (foldOp ty op num) p q) := by
  cases p with
  | none => exact ⟨rfl, hq⟩
  | some p =>
    cases q with
    | none => exact ⟨rfl, hp⟩
    | some q =>
      refine ⟨?_, fun v hv => Option.some.inj hv ▸ foldOp_fits ty op num p.1 q.1⟩
      rw [combineNode, joined, foldStep_eq ty op num (hp p rfl) (hq q rfl)]

theorem treeNode_eq (ty : Ty) (op : FOp) (num : Bool) {x : Nat → Option FVal} (hx : ∀ i, Fits ty (x i)) (n i : Nat) :
    treeNode (combineNode ty op num) x n i = foldNode (foldOp ty op num) x n i ∧ Fits ty (foldNode (foldOp ty op num) x n i) := by
  induction n generalizing i with
  | zero => exact ⟨rfl, hx i⟩
  | succ n ih =>
    obtain ⟨hl, hlf⟩ := ih (2 * i)
    obtain ⟨hr, hrf⟩ := ih (2 * i + 1)
    rw [treeNode, foldNode, hl, hr]
    exact combineNode_eq ty op num hlf hrf

theorem foldl_combineNode_eq (ty : Ty) (op : FOp) (num : Bool) {α : Type} {y z : α → Option FVal} (ls : List α)
    (hyz : ∀ l, y l = z l ∧ Fits ty (z l)) {acc : Option FVal} (hacc : Fits ty acc) :
    ls.foldl (fun acc l => combineNode ty op num acc (y l)) acc = ls.foldl (fun acc l => joined (foldOp ty op num) acc (z l)) acc := by
  induction ls generalizing acc with
  | nil => rfl
  | cons l ls ih =>
    obtain ⟨heq, hfit⟩ := hyz l
    obtain ⟨hc, hcf⟩ := combineNode_eq ty op num hacc hfit
    rw [List.foldl_cons, List.foldl_cons, heq, hc]
    exact ih hcf

/-- The order of a fold (spec/11 R252). -/
theorem foldTeam_order (r : Team) (k a : Nat) {ty : Ty} (op : FOp) (num : Bool) (hty : ty ∈ foldTypes) : foldTeam r k a ty op num =
    (List.range (r.lanes / 32)).foldl (fun acc w => joined (foldOp ty op num) acc
      (foldNode (foldOp ty op num) (fun i => foldLeaf r k a ty (32 * w + i)) 5 0)) none := by
  have hleaf (l : Nat) : Fits ty (foldLeaf r k a ty l) := by
    rw [foldLeaf]
    split
    · exact fits_lane r hty a l
    · exact fits_none ty
  rw [foldTeam_eq]
  exact foldl_combineNode_eq ty op num _ (fun w => treeNode_eq ty op num (fun i => hleaf (32 * w + i)) 5 0) (fits_none ty)

/-! ### Scans -/

/-- The value of the active lanes joined in ascending order. -/
def runningFold (r : Team) (a : Nat) (ty : Ty) (op : FOp) (num : Bool) (ls : List Nat) (acc : Option FVal) : Option FVal :=
  ls.foldl (fun acc l => joined (foldOp ty op num) acc (some (vgetT r ty a l, 0))) acc

theorem scanLanes_cons (r : Team) (a : Nat) (ty : Ty) (op : FOp) (num excl : Bool) (l : Nat) (ls : List Nat) (acc : Option FVal) :
    let now := combineNode ty op num acc (some (vgetT r ty a l, 0))
    let rest := scanLanes r a ty op num excl ls now
    scanLanes r a ty op num excl (l :: ls) acc =
      ((l, if excl then (acc.map (·.1)).getD (scanIdentity ty op) else (now.map (·.1)).getD 0) :: rest.1, rest.2) := by
  intro now rest
  cases acc <;> rfl

/-- What a scan writes: for each lane the value before it or the identity, or the value up to it (spec/11 R253). -/
theorem scanLanes_spec (r : Team) (a : Nat) {ty : Ty} (op : FOp) (num excl : Bool) (hty : ty ∈ foldTypes) (ls : List Nat)
    {acc : Option FVal} (hacc : Fits ty acc) :
    (scanLanes r a ty op num excl ls acc).2 = ((runningFold r a ty op num ls acc).map (·.2)).getD 0 ∧
      ∀ n l, ls[n]? = some l → ∃ v, (scanLanes r a ty op num excl ls acc).1[n]? = some (l, v) ∧
        (excl = true → v = ((runningFold r a ty op num (ls.take n) acc).map (·.1)).getD (scanIdentity ty op)) ∧
        (excl = false → (runningFold r a ty op num (ls.take (n + 1)) acc).map (·.1) = some v) := by
  induction ls generalizing acc with
  | nil => exact ⟨by cases acc <;> rfl, fun n l h => absurd h (by simp)⟩
  | cons l ls ih =>
    obtain ⟨hnow, hfit⟩ := combineNode_eq ty op num hacc (fits_lane r hty a l)
    obtain ⟨hex, hrest⟩ := ih hfit
    rw [scanLanes_cons]
    simp only [hnow]
    refine ⟨hex, fun n m hm => ?_⟩
    cases n with
    | succ n => exact hrest n m hm
    | zero =>
      obtain rfl := Option.some.inj hm
      refine ⟨_, rfl, fun he => ?_, fun he => ?_⟩
      · rw [if_pos he]; cases acc <;> rfl
      · rw [if_neg (by simp [he])]; cases acc <;> rfl

/-- The identities (spec/11 R253). -/
theorem scanIdentity_eq {ty : Ty} {op : FOp} (hty : ty ∈ foldTypes) (hop : ty.isFloat = true → op = .add ∨ op = .min ∨ op = .max) :
    scanIdentity ty op = scanStart ty op := by
  cases op with
  | add | min | max | or | xor => fin_cases hty <;> rfl
  | and =>
    have hint : ¬ty.isFloat = true := fun h => by simpa using hop h
    fin_cases hty
    · rfl
    · rfl
    · rfl
    · rfl
    · exact absurd rfl hint
    · exact absurd rfl hint

/-! ### What a fold makes of the active lanes' values -/

/-- A node that holds a result of the values `vs`, of which `R` holds; none where there is no value. -/
def Gathers (R : List Nat → FVal → Prop) (vs : List Nat) : Option FVal → Prop
  | none => vs = []
  | some p => vs ≠ [] ∧ R vs p

section

variable {ty : Ty} {op : FOp} {num : Bool} {R : List Nat → FVal → Prop}

/-- Joining the results of two lists of values gives one of the lists together. -/
def JoinKeeps (ty : Ty) (op : FOp) (num : Bool) (R : List Nat → FVal → Prop) : Prop :=
  ∀ {us vs : List Nat} {p q : FVal}, us ≠ [] → vs ≠ [] → R us p → R vs q →
    R (us ++ vs) ((foldStep ty op num p.1 q.1).1, p.2 ||| q.2 ||| (foldStep ty op num p.1 q.1).2)

theorem Gathers.combineNode (hR : JoinKeeps ty op num R) {us vs : List Nat} {p q : Option FVal} (hp : Gathers R us p)
    (hq : Gathers R vs q) : Gathers R (us ++ vs) (Machine.combineNode ty op num p q) := by
  cases p with
  | none =>
    obtain rfl : us = [] := hp
    exact hq
  | some p =>
    cases q with
    | none =>
      obtain rfl : vs = [] := hq
      rw [List.append_nil]
      exact hp
    | some q => exact ⟨List.append_ne_nil_of_left_ne_nil hp.1 _, hR hp.1 hq.1 hp.2 hq.2⟩

/-- Node i of level n holds the 2^n values from place 2^n * i. -/
theorem Gathers.treeNode (hR : JoinKeeps ty op num R) {leaf : Nat → List Nat} {x : Nat → Option FVal} {base : Nat}
    (hx : ∀ i, Gathers R (leaf (base + i)) (x i)) (n i : Nat) :
    Gathers R ((List.range' (base + 2 ^ n * i) (2 ^ n)).flatMap leaf) (Laws.treeNode (Machine.combineNode ty op num) x n i) := by
  induction n generalizing i with
  | zero =>
    rw [Nat.pow_zero, Nat.one_mul, List.range'_one, List.flatMap_singleton]
    exact hx i
  | succ n ih =>
    have hsplit : List.range' (base + 2 ^ (n + 1) * i) (2 ^ (n + 1)) =
        List.range' (base + 2 ^ n * (2 * i)) (2 ^ n) ++ List.range' (base + 2 ^ n * (2 * i + 1)) (2 ^ n) := by
      rw [Nat.mul_succ (2 ^ n), ← Nat.add_assoc, List.range'_append_1, Nat.pow_succ, Nat.mul_assoc, Nat.mul_two (2 ^ n)]
    rw [hsplit, List.flatMap_append]
    exact (ih (2 * i)).combineNode hR (ih (2 * i + 1))

/-- The values of the active lanes among the first `n`. -/
def valuesBelow (r : Team) (k a : Nat) (ty : Ty) (n : Nat) : List Nat :=
  ((List.range n).filter fun l => (kget r k).getLsbD l).map fun l => vgetT r ty a l

theorem valuesBelow_eq_flatMap (r : Team) (k a : Nat) (ty : Ty) (n : Nat) : valuesBelow r k a ty n =
    (List.range n).flatMap fun l => if (kget r k).getLsbD l then [vgetT r ty a l] else [] := by
  rw [valuesBelow]
  induction List.range n with
  | nil => rfl
  | cons l ls ih =>
    rw [List.flatMap_cons, ← ih]
    cases hl : (kget r k).getLsbD l <;> simp [hl]

/-- A fold holds a result of the active lanes' values, in whole words. -/
theorem foldTeam_gathers (hR : JoinKeeps ty op num R) (hone : ∀ v, R [v] (v, 0)) (r : Team) (k a : Nat) :
    Gathers R (valuesBelow r k a ty (32 * (r.lanes / 32))) (foldTeam r k a ty op num) := by
  have hleaf (l : Nat) : Gathers R (if (kget r k).getLsbD l then [vgetT r ty a l] else []) (foldLeaf r k a ty l) := by
    rw [foldLeaf]
    split
    · exact ⟨List.cons_ne_nil _ _, hone _⟩
    · rfl
  rw [foldTeam_eq, valuesBelow_eq_flatMap]
  generalize r.lanes / 32 = m
  induction m with
  | zero => rfl
  | succ m ih =>
    have hword := Gathers.treeNode (leaf := fun l => if (kget r k).getLsbD l then [vgetT r ty a l] else []) hR (base := 32 * m)
      (fun i => hleaf (32 * m + i)) 5 0
    rw [List.range'_eq_map_range] at hword
    rw [List.range_succ, List.foldl_concat, Nat.mul_succ, List.range_add, List.flatMap_append]
    exact ih.combineNode hR hword

/-- With no active lane there is no value. -/
theorem foldTeam_of_empty {r : Team} {k : Nat} (ha : active r k = []) (a : Nat) : foldTeam r k a ty op num = none := by
  have hnil : valuesBelow r k a ty (32 * (r.lanes / 32)) = [] := by
    refine List.map_eq_nil_iff.mpr (List.filter_eq_nil_iff.mpr fun l hl hbit => ?_)
    have hmem : l ∈ active r k := mem_active.mpr ⟨by have := List.mem_range.mp hl; omega, hbit⟩
    rw [ha] at hmem
    exact absurd hmem List.not_mem_nil
  have h := foldTeam_gathers (R := fun _ _ => True) (ty := ty) (op := op) (num := num) (fun _ _ _ _ => trivial) (fun _ => trivial) r k a
  rw [hnil] at h
  cases hf : foldTeam r k a ty op num with
  | none => rfl
  | some p => rw [hf] at h; exact absurd rfl h.1

end

/-! ### Integer folds -/

/-- A list's elements joined from the left. -/
def Reduces (f : Nat → Nat → Nat) (vs : List Nat) (x : Nat) : Prop := ∀ v rest, vs = v :: rest → x = rest.foldl f v

theorem Reduces.append {f : Nat → Nat → Nat} [Std.Associative f] {us vs : List Nat} {p q : Nat} (hu : us ≠ []) (hv : vs ≠ [])
    (hp : Reduces f us p) (hq : Reduces f vs q) : Reduces f (us ++ vs) (f p q) := by
  obtain ⟨u, us, rfl⟩ := List.exists_cons_of_ne_nil hu
  obtain ⟨v, vs, rfl⟩ := List.exists_cons_of_ne_nil hv
  intro w rest hw
  obtain ⟨rfl, rfl⟩ := List.cons.inj hw
  rw [hp _ _ rfl, hq _ _ rfl, List.append_eq, List.foldl_append, List.foldl_cons, List.foldl_assoc]

/-- The value that comes first in an order of their numbers. -/
def IsFirst (le : Int → Int → Prop) (num : Nat → Int) (vs : List Nat) (x : Nat) : Prop := x ∈ vs ∧ ∀ u ∈ vs, le (num x) (num u)

/-- Of two lists' first values, the one that comes before the other is the first of both. -/
theorem IsFirst.append_left {le : Int → Int → Prop} [IsTrans Int le] {num : Nat → Int} {us vs : List Nat} {p q : Nat}
    (hp : IsFirst le num us p) (hq : IsFirst le num vs q) (hle : le (num p) (num q)) : IsFirst le num (us ++ vs) p :=
  ⟨List.mem_append_left _ hp.1, fun u hu => (List.mem_append.mp hu).elim (hp.2 u) fun hv => trans_of le hle (hq.2 u hv)⟩

theorem IsFirst.append_right {le : Int → Int → Prop} [IsTrans Int le] {num : Nat → Int} {us vs : List Nat} {p q : Nat}
    (hp : IsFirst le num us p) (hq : IsFirst le num vs q) (hle : le (num q) (num p)) : IsFirst le num (us ++ vs) q :=
  ⟨List.mem_append_right _ hq.1, fun u hu => (List.mem_append.mp hu).elim (fun hv => trans_of le hle (hp.2 u hv)) (hq.2 u)⟩

/-- The number of a value of a type. -/
abbrev numOf (ty : Ty) (u : Nat) : Int := valOf ty.isSigned (BitVec.ofNat (tyWidth ty) u)

/-- What an integer fold makes of the values it gathers (spec/11 R252). -/
def FoldsTo (ty : Ty) (op : FOp) (vs : List Nat) (x : Nat) : Prop :=
  match op with
  | .add => x % 2 ^ tyWidth ty = vs.sum % 2 ^ tyWidth ty ∧ (1 < vs.length → x = vs.sum % 2 ^ tyWidth ty)
  | .and => Reduces (· &&& ·) vs x
  | .or => Reduces (· ||| ·) vs x
  | .xor => Reduces (· ^^^ ·) vs x
  | .min => (∀ u ∈ vs, u < 2 ^ tyWidth ty) → IsFirst (· ≤ ·) (numOf ty) vs x
  | .max => (∀ u ∈ vs, u < 2 ^ tyWidth ty) → IsFirst (· ≥ ·) (numOf ty) vs x

theorem foldsTo_one (ty : Ty) (op : FOp) (v : Nat) : FoldsTo ty op [v] v := by
  have hone {f : Nat → Nat → Nat} : Reduces f [v] v := fun _ _ h => by obtain ⟨rfl, rfl⟩ := List.cons.inj h; rfl
  cases op with
  | add => exact ⟨by simp, fun h => absurd h (by simp)⟩
  | and | or | xor => exact hone
  | min | max => exact fun _ => ⟨List.mem_singleton_self v, fun u hu => (List.mem_singleton.mp hu).symm ▸ le_refl _⟩

/-- Integer operations, as numbers. -/
theorem foldStep_int {ty : Ty} (hty : ty.isFloat = false) (op : FOp) (num : Bool) (p q : Nat) :
    foldStep ty op num p q = (match op with
      | .add => addW (tyWidth ty) p q
      | .min => minW ty.isSigned (tyWidth ty) p q
      | .max => maxWd ty.isSigned (tyWidth ty) p q
      | .and => p &&& q
      | .or => p ||| q
      | .xor => p ^^^ q, 0) := by
  delta foldStep
  simp only [hty]
  cases op <;> rfl

/-- The lesser and the greater of two numbers that fit. -/
theorem minW_numOf {ty : Ty} {p q : Nat} (hp : p < 2 ^ tyWidth ty) (hq : q < 2 ^ tyWidth ty) :
    minW ty.isSigned (tyWidth ty) p q = if numOf ty q < numOf ty p then q else p := by
  rw [minW, toVal_ofNat _ (tyWidth_pos ty), toVal_ofNat _ (tyWidth_pos ty), Nat.mod_eq_of_lt hp, Nat.mod_eq_of_lt hq]

theorem maxWd_numOf {ty : Ty} {p q : Nat} (hp : p < 2 ^ tyWidth ty) (hq : q < 2 ^ tyWidth ty) :
    maxWd ty.isSigned (tyWidth ty) p q = if numOf ty p < numOf ty q then q else p := by
  rw [maxWd, toVal_ofNat _ (tyWidth_pos ty), toVal_ofNat _ (tyWidth_pos ty), Nat.mod_eq_of_lt hp, Nat.mod_eq_of_lt hq]

theorem foldsTo_append {ty : Ty} (hty : ty.isFloat = false) (op : FOp) {us vs : List Nat} {p q : Nat} (hu : us ≠ []) (hv : vs ≠ [])
    (hp : FoldsTo ty op us p) (hq : FoldsTo ty op vs q) : FoldsTo ty op (us ++ vs) (foldStep ty op false p q).1 := by
  rw [foldStep_int hty]
  cases op with
  | add =>
    have hsum : addW (tyWidth ty) p q = (us ++ vs).sum % 2 ^ tyWidth ty := by
      rw [addW, Nat.add_mod, hp.1, hq.1, ← Nat.add_mod, List.sum_append]
    exact ⟨by rw [hsum, Nat.mod_mod], fun _ => hsum⟩
  | and => exact Reduces.append (f := (· &&& ·)) hu hv hp hq
  | or => exact Reduces.append (f := (· ||| ·)) hu hv hp hq
  | xor => exact Reduces.append (f := (· ^^^ ·)) hu hv hp hq
  | min =>
    intro hb
    have hp := hp fun u hu => hb u (List.mem_append_left _ hu)
    have hq := hq fun u hu => hb u (List.mem_append_right _ hu)
    dsimp only
    rw [minW_numOf (hb p (List.mem_append_left _ hp.1)) (hb q (List.mem_append_right _ hq.1))]
    split
    · exact hp.append_right hq (by omega)
    · exact hp.append_left hq (by omega)
  | max =>
    intro hb
    have hp := hp fun u hu => hb u (List.mem_append_left _ hu)
    have hq := hq fun u hu => hb u (List.mem_append_right _ hu)
    dsimp only
    rw [maxWd_numOf (hb p (List.mem_append_left _ hp.1)) (hb q (List.mem_append_right _ hq.1))]
    split
    · exact hp.append_right hq (by omega)
    · exact hp.append_left hq (by omega)

/-- What a fold of an integer type gives: none of no lane, else the active lanes' values joined, with no exception. -/
theorem foldTeam_int {ty : Ty} (hty : ty.isFloat = false) (op : FOp) {r : Team} (hr : r.lanes % 32 = 0) (k a : Nat) :
    Gathers (fun vs p => p.2 = 0 ∧ FoldsTo ty op vs p.1) ((active r k).map fun l => vgetT r ty a l) (foldTeam r k a ty op false) := by
  have hlanes : 32 * (r.lanes / 32) = r.lanes := by omega
  have h := foldTeam_gathers (ty := ty) (op := op) (num := false) (R := fun vs p => p.2 = 0 ∧ FoldsTo ty op vs p.1) ?join
    (fun v => ⟨rfl, foldsTo_one ty op v⟩) r k a
  case join =>
    intro us vs p q hu hv ⟨hpe, hp⟩ ⟨hqe, hq⟩
    refine ⟨?_, foldsTo_append hty op hu hv hp hq⟩
    rw [hpe, hqe, foldStep_int hty]
    exact (by decide : (0 : BitVec 5) ||| 0 ||| 0 = 0)
  rw [hlanes] at h
  exact h

end Sys2Proof.Laws

namespace Sys2Proof.Proofs.Folds

open Sys2Proof.Machine Sys2Proof.Spec Sys2Proof.Laws

/-! ### Folds and scans -/

section

variable {s : State} {tid k d a : Nat} {t : Team} {o : VUn} {op : FOp} {num : Bool} {ty : Ty} {b : LSrc}

theorem vfold_writes (h : CanIssue s tid t (.vfold o op num)) {v : FVal}
    (hv : foldTeam (viewOf s tid t) o.k o.a o.ty op num = some v) : Completes (.vfold o op num) s tid
      (modTeam (writeRegs s tid [.s o.d (foldScalar o.ty v.1)]) tid fun t => { t with fpflags := t.fpflags ||| v.2 }) :=
  go_of h (by rw [hv]; rfl)

theorem vfold_empty (h : CanIssue s tid t (.vfold o op num)) (ha : active (viewOf s tid t) o.k = []) :
    Completes (.vfold o op num) s tid s := go_of h (by rw [foldTeam_of_empty ha])

/-- A scan names the lanes it goes through. -/
theorem scanLanes_lanes (r : Team) (a : Nat) (ty : Ty) (op : FOp) (num excl : Bool) (ls : List Nat) (acc : Option FVal) :
    (scanLanes r a ty op num excl ls acc).1.map (·.1) = ls := by
  induction ls generalizing acc with
  | nil => rfl
  | cons l ls ih => rw [scanLanes_cons, List.map_cons, ih]

/-! ### Lane moves -/

theorem vreadl_empty (h : CanIssue s tid t (.vreadl k d a ty b)) (ha : active (viewOf s tid t) k = []) :
    Completes (.vreadl k d a ty b) s tid s := go_of h (if_pos ha)

theorem vreadl_writes (h : CanIssue s tid t (.vreadl k d a ty b)) (ha : active (viewOf s tid t) k ≠ []) :
    let r := viewOf s tid t
    let i := indexVal r ty b
    Completes (.vreadl k d a ty b) s tid (writeRegs s tid [.s d (if i < r.lanes then BitVec.ofNat 64 (vgetT r ty a i) else 0)]) := by
  refine go_of h ((if_neg ha).trans ?_)
  dsimp only
  rw [apply_ite (BitVec.ofNat 64)]
  rfl

theorem vwritel_iff {r : Team} {i : Nat} : (decide (i < r.lanes) && (kget r k).getLsbD i) = true ↔
    i < r.lanes ∧ (kget r k).getLsbD i = true := by rw [Bool.and_eq_true, decide_eq_true_iff]

theorem vwritel_writes (h : CanIssue s tid t (.vwritel k d a ty b))
    (hi : indexVal (viewOf s tid t) ty b < (viewOf s tid t).lanes ∧
      (kget (viewOf s tid t) k).getLsbD (indexVal (viewOf s tid t) ty b) = true) :
    Completes (.vwritel k d a ty b) s tid (writeRegs s tid
      (wrT ty d (indexVal (viewOf s tid t) ty b) (sget (viewOf s tid t) a).toNat)) :=
  go_of h (congrArg Act.go (if_pos (vwritel_iff.mpr hi)))

theorem vwritel_nothing (h : CanIssue s tid t (.vwritel k d a ty b))
    (hi : ¬(indexVal (viewOf s tid t) ty b < (viewOf s tid t).lanes ∧
      (kget (viewOf s tid t) k).getLsbD (indexVal (viewOf s tid t) ty b) = true)) :
    Completes (.vwritel k d a ty b) s tid s := go_of h (congrArg Act.go (if_neg (mt vwritel_iff.mp hi)))

end

theorem foldsScansAndLaneMoves : Spec.FoldsScansAndLaneMoves := by
  intro s tid t
  exact ⟨fun o op num h => ⟨vfold_empty h, fun v => vfold_writes h⟩,
    fun o op num excl h => ⟨go_of h rfl, scanLanes_lanes _ _ _ _ _ _ _ _⟩,
    fun k d a ty b h => ⟨vreadl_empty h, vreadl_writes h⟩, fun k d a ty b h => ⟨vwritel_writes h, vwritel_nothing h⟩⟩

/-! ### The order of a fold and of a scan -/

/-- What S[D] receives of a fold's value (spec/11 R252). -/
theorem foldScalar_eq {ty : Ty} (hty : ty ∈ foldTypes) (v : Nat) : foldScalar ty v = if ty = .i32 then (BitVec.ofNat 32 v).signExtend 64
    else if ty = .n32 ∨ ty = .f then (BitVec.ofNat 32 v).setWidth 64 else BitVec.ofNat 64 v := by
  have hi32 : BitVec.ofInt 64 (toSigned 32 v) = (BitVec.ofNat 32 v).signExtend 64 := by
    rw [BitVec.signExtend, ← toSigned_eq (by decide), BitVec.toNat_ofNat, toSigned, toSigned, Nat.mod_mod]
  have hn32 : BitVec.ofNat 64 (v % 2 ^ 32) = (BitVec.ofNat 32 v).setWidth 64 := by
    rw [← BitVec.toNat_ofNat v 32, BitVec.ofNat_toNat]
  fin_cases hty
  · exact hi32
  · exact hn32
  · rfl
  · rfl
  · exact hn32
  · rfl

theorem foldAndScanOrder : Spec.FoldAndScanOrder := by
  intro r k a ty op num hty
  refine ⟨foldTeam_order r k a op num hty, foldScalar_eq hty, fun hop excl ls => ?_⟩
  rw [← scanIdentity_eq hty hop]
  obtain ⟨hex, hlanes⟩ := scanLanes_spec r a op num excl hty ls (fits_none ty)
  rw [← congrArg (runningFold r a ty op num · none) ls.take_length] at hex
  exact ⟨hex, hlanes⟩

/-! ### Integer folds -/

theorem integerFoldsGatherTheActiveLanes : Spec.IntegerFoldsGatherTheActiveLanes := by
  intro r k a ty op hty _ hr
  have h := foldTeam_int hty op hr k a
  refine ⟨fun hvs => foldTeam_of_empty (List.map_eq_nil_iff.mp hvs) a, fun v rest hvs => ?_⟩
  have hbound (hint : ty ∈ [Ty.i32, .n32, .i64, .n64]) : ∀ u ∈ (active r k).map fun l => vgetT r ty a l, u < 2 ^ tyWidth ty := by
    intro u hu
    obtain ⟨l, _, rfl⟩ := List.mem_map.mp hu
    exact vgetT_lt r (List.mem_append_left [Ty.f, .d] hint) a l
  revert h
  generalize foldTeam r k a ty op false = z
  intro h
  cases z with
  | none => exact absurd (hvs.symm.trans h) (List.cons_ne_nil v rest)
  | some p =>
    obtain ⟨x, e⟩ := p
    obtain ⟨_, he, hx⟩ := h
    obtain rfl : e = 0 := he
    refine ⟨x, rfl, ?add, ?and, ?or, ?xor, fun hint => ⟨?min, ?max⟩⟩
    case add =>
      rintro ⟨hrest, rfl⟩
      rw [← List.sum_eq_foldl]
      refine hx.2 ?_
      rw [hvs]
      have := List.length_pos_iff.mpr hrest
      rw [List.length_cons]
      omega
    case and => rintro rfl; exact hx v rest hvs
    case or => rintro rfl; exact hx v rest hvs
    case xor => rintro rfl; exact hx v rest hvs
    case min => rintro rfl; exact hx (hbound hint)
    case max => rintro rfl; exact hx (hbound hint)

/-- Settles O12: the instructions, the order of their operations, and what integer folds give. -/
theorem foldsAndScans : Obligations.FoldsAndScans := ⟨foldsScansAndLaneMoves, foldAndScanOrder, integerFoldsGatherTheActiveLanes⟩

end Sys2Proof.Proofs.Folds
end

section
/-! O26: PREF, the stash instructions and VAPND (spec/11 R254; spec/13 R260, R270-R275). A crew without stash windows reads and writes its partition
as plain memory; that gives VAPND's checks, its read and its write in turn. -/

namespace Sys2Proof.Laws

open Sys2Proof.Machine Sys2Proof.Spec

/-! ### A partition without stash windows -/

section

variable {s : State} {cid : Nat} (hw : windowsOf s cid = [])
include hw

theorem windowAt_of_noWindows (off : Nat) : windowAt s cid off = none := by
  rw [windowAt]
  cases hc : tbGet s.crews cid with
  | none => rfl
  | some c =>
    rw [windowsOf, hc] at hw
    dsimp only at hw ⊢
    rw [hw]
    rfl

theorem throughKey_of_noWindows (off : Nat) : throughKey s cid off = none := by
  rw [throughKey, windowAt_of_noWindows hw]

theorem settlePart_of_noWindows (off n : Nat) : settlePart s cid off n = s :=
  List.foldl_fixed' (fun x => by rw [windowAt_of_noWindows hw]) _

theorem arrivePart_of_noWindows (off n : Nat) : arrivePart s cid off n = s :=
  List.foldl_fixed' (fun x => by rw [windowAt_of_noWindows hw]) _

theorem partStamp_of_noWindows (off n : Nat) : partStamp s cid off n = 0 :=
  List.foldl_fixed' (fun x => by rw [windowAt_of_noWindows hw]) _

theorem writePart_of_noWindows (off : Nat) (data : List Byte) (w : Writer) : writePart s cid off data w = putPart s cid off data w := by
  rw [writePart, windowAt_of_noWindows hw]

end

/-! ### Bytes of a partition -/

@[simp] theorem putPart_mem (s : State) (cid off : Nat) (data : List Byte) (w : Writer) :
    (putPart s cid off data w).mem = (memWrite s (partKey cid off) data).mem := tagWrite_mem _ _ _ _

@[simp] theorem putPart_teams (s : State) (cid off : Nat) (data : List Byte) (w : Writer) : (putPart s cid off data w).teams = s.teams :=
  ((Quiet.refl s).putPart cid off data w).teams

/-- Bytes that do not pass the end of a sector lie in one. -/
theorem spans_of_le {k n : Nat} (hn : 0 < n) (h : n ≤ 64 - k % 64) (fuel : Nat) : spans k n (fuel + 2) = [(k, n)] := by
  rw [spans, if_neg (by omega), Nat.min_eq_left h]
  dsimp only
  rw [Nat.sub_self, spans, if_pos rfl]

theorem partKey_mod (cid off : Nat) : partKey cid off % 64 = off % 64 := by
  rw [partKey]
  omega

end Sys2Proof.Laws

namespace Sys2Proof.Proofs.PrefetchStashAppend

open Sys2Proof.Machine Sys2Proof.Spec Sys2Proof.Laws
open Sys2Proof.Proofs.BlockedTeams (maxW_zero)

section

variable {s : State} {tid k : Nat} {t : Team}

/-! ### PREF -/

/-- No lane of a prefetch is barred by its role. -/
theorem pref_completes {a b : Nat} {nv u llc : Bool} (h : CanIssue s tid t (.pref k a b nv u llc))
    (hrole : t.priv = true ∨ t.role = 0 ∨ t.role = 4 ∨
      ∀ x ∈ memLanes (viewOf s tid t) k a b nv u, ∀ loc, aperture s t x.2 1 = some loc → loc.isPart = true) :
    Completes (.pref k a b nv u llc) s tid
      { (memLanes (viewOf s tid t) k a b nv u).foldl (fun s x => prefLane t tid llc s x.2) s with xlFloor := s.xlFloor } := by
  refine go_of h ?_
  dsimp only
  rw [List.filter_eq_nil_iff.mpr fun x hx => ?_]
  cases hl : aperture s t x.2 1 with
  | none => simp
  | some loc =>
    rcases hrole with hr | hr | hr | hr
    · simp [hr]
    · simp [hr, roleLoad]
    · simp [hr, roleGeneral]
    · simp [hr x hx loc hl]

/-! ### STASHMAP -/

section

variable {d a b : Nat} (h : CanIssue s tid t (.stashmap k d a b))
include h

theorem stashmap_empty (ha : active (viewOf s tid t) k = []) : Completes (.stashmap k d a b) s tid s := go_of h (if_pos ha)

theorem stashmap_maps {off : Nat} (ha : active (viewOf s tid t) k ≠ [])
    (hc : stashCheck s t (sget (viewOf s tid t) d) (sget (viewOf s tid t) a) (sget (viewOf s tid t) b).toNat = .ok off)
    (hd : mustDrain s tid = false) (hb : cmdsTouch s t.crew off (off + (sget (viewOf s tid t) b).toNat) false = false) :
    Completes (.stashmap k d a b) s tid (modCrew s t.crew fun c =>
      { c with windows := c.windows ++ [⟨off, (sget (viewOf s tid t) b).toNat, sget (viewOf s tid t) a, []⟩] }) :=
  go_of h (by simp only [if_neg ha, hc, hd, hb, Bool.false_eq_true, if_false])

theorem stashmap_faults {c : FCode} {x : W64} (ha : active (viewOf s tid t) k ≠ [])
    (hc : stashCheck s t (sget (viewOf s tid t) d) (sget (viewOf s tid t) a) (sget (viewOf s tid t) b).toNat = .error (c, x)) :
    Faults (.stashmap k d a b) s tid t s (fltAt c (maskOf (active (viewOf s tid t) k)) x 0) :=
  fault_of h (by simp only [if_neg ha, hc])

end

/-! ### STASHDROP -/

/-- Whether STASHDROP at an address names a window: at address 0 each, else the one that begins there (spec/13 R275). -/
def drops (x : W64) (w : Window) : Bool := decide (x = 0) || decide (x.toNat = scratchBase + w.off)

section

variable {d : Nat} {discard : Bool} (h : CanIssue s tid t (.stashdrop k d discard))
include h

theorem stashdrop_empty (ha : active (viewOf s tid t) k = []) : Completes (.stashdrop k d discard) s tid s := go_of h (if_pos ha)

theorem stashdrop_faults (ha : active (viewOf s tid t) k ≠ []) (hx : sget (viewOf s tid t) d ≠ 0)
    (hn : ∀ w ∈ windowsOf s t.crew, drops (sget (viewOf s tid t) d) w = false) :
    Faults (.stashdrop k d discard) s tid t s
      (fltAt .engineDescriptor (maskOf (active (viewOf s tid t) k)) (sget (viewOf s tid t) d) 0) := by
  have hnone : (windowsOf s t.crew).filter (drops (sget (viewOf s tid t) d)) = [] :=
    List.filter_eq_nil_iff.mpr fun w hw => by rw [hn w hw]; decide
  refine fault_of h ((if_neg ha).trans (if_pos ?_))
  rw [decide_eq_true hx, Bool.true_and]
  exact List.isEmpty_iff.mpr hnone

theorem stashdrop_drops (ha : active (viewOf s tid t) k ≠ [])
    (hn : sget (viewOf s tid t) d = 0 ∨ ∃ w ∈ windowsOf s t.crew, drops (sget (viewOf s tid t) d) w = true)
    (hd : mustDrain s tid = false)
    (hb : ∀ w ∈ windowsOf s t.crew, drops (sget (viewOf s tid t) d) w = true → cmdsTouch s t.crew w.off (w.off + w.len) true = false) :
    Completes (.stashdrop k d discard) s tid (dropWindows s t.crew discard t.pc (drops (sget (viewOf s tid t) d))) := by
  have hsome : ¬(decide (sget (viewOf s tid t) d ≠ 0) && ((windowsOf s t.crew).filter (drops (sget (viewOf s tid t) d))).isEmpty) = true := by
    rw [Bool.and_eq_true, decide_eq_true_iff, List.isEmpty_iff, List.filter_eq_nil_iff]
    rintro ⟨hx, hall⟩
    obtain ⟨w, hw, hdrop⟩ := hn.resolve_left hx
    exact hall w hw hdrop
  have hfree : ((windowsOf s t.crew).filter (drops (sget (viewOf s tid t) d))).find?
      (fun w => cmdsTouch s t.crew w.off (w.off + w.len) true) = none := by
    refine List.find?_eq_none.mpr fun w hw => ?_
    obtain ⟨hw, hdrop⟩ := List.mem_filter.mp hw
    rw [hb w hw hdrop]
    decide
  refine go_of h ((if_neg ha).trans ((if_neg hsome).trans ((if_neg (by rw [hd]; decide)).trans ?_)))
  rw [show (fun w : Window => decide (sget (viewOf s tid t) d = 0) || decide ((sget (viewOf s tid t) d).toNat = scratchBase + w.off)) =
    drops (sget (viewOf s tid t) d) from rfl, hfree]

end

/-! ### VAPND -/

/-- `addr` names four bytes at `off` of the partition of the team's crew, which has no stash window and no debugger; no ring, no descriptor and no
poison lies there. -/
structure PlainWord (s : State) (t : Team) (addr : W64) (off : Nat) (c : Crew) : Prop where
  crew : tbGet s.crews t.crew = some c
  noWindows : c.windows = []
  detached : (s.core c.core).attach = false
  names : addr = BitVec.ofNat 64 (scratchBase + off)
  aligned : off % 4 = 0
  inside : off + 4 ≤ c.partSize
  bounded : c.partSize ≤ 2 ^ 20
  noRing : inRing s t.crew off 4 = false
  noCounter : touchesCounter s (partKey t.crew off) 4 = false
  clean : poisoned s (sectorOf (partKey t.crew off)) = false

namespace PlainWord

variable {addr : W64} {off : Nat} {c : Crew} (hp : PlainWord s t addr off c)
include hp

theorem toNat_addr : addr.toNat = scratchBase + off := by
  rw [hp.names]
  have := hp.inside
  have := hp.bounded
  exact Nat.mod_eq_of_lt (by rw [scratchBase]; omega)

theorem windowsOf_eq : windowsOf s t.crew = [] := by rw [windowsOf, hp.crew]; exact hp.noWindows

theorem aperture_eq : aperture s t addr 4 = some (.part t.crew off) := by
  have hin : scratchBase + off - scratchBase + 4 ≤ partSizeOf s t.crew := by
    rw [partSizeOf, hp.crew, Nat.add_sub_cancel_left]
    exact hp.inside
  rw [aperture, hp.toNat_addr, if_pos (Nat.le_add_right _ _), if_pos hin, Nat.add_sub_cancel_left]

/-- The one piece of an access there. -/
abbrev piece (t : Team) (addr : W64) (off : Nat) : Piece := ⟨addr.toNat, 4, partKey t.crew off, .part t.crew off, none⟩

theorem checkPiece_eq (tid : Nat) : checkPiece s t tid ⟨true, none, 4, false, false⟩ 0 addr addr.toNat 4 (.part t.crew off) =
    (s, .ok (piece t addr off)) := by
  simp only [checkPiece, windowAt_of_noWindows hp.windowsOf_eq, hp.noRing, hp.noCounter]
  rfl

theorem checkLane_eq (tid : Nat) : checkLane s t tid ⟨true, none, 4, false, false⟩ 0 addr 4 = (s, .ok [piece t addr off]) := by
  have hal : addr.toNat % 4 = 0 := by
    rw [hp.toNat_addr, scratchBase]
    have := hp.aligned
    omega
  have hself : BitVec.ofNat 64 addr.toNat = addr := by rw [BitVec.ofNat_toNat, BitVec.setWidth_eq]
  simp only [checkLane, hp.aperture_eq, hal, Bool.false_eq_true, if_false, ne_eq, not_true_eq_false, List.foldl_cons, List.foldl_nil,
    hself, hp.checkPiece_eq]
  rfl

theorem watchLanes_eq : watchLanes s t true [(0, addr, [piece t addr off])] = [] := by
  have hmiss : watchHit s t true (piece t addr off) = none := by
    simp only [watchHit, hp.crew, hp.detached]
    rfl
  simp only [watchLanes, List.filterMap_cons, List.findSome?_cons, hmiss]
  rfl

theorem readPiece_eq : readPiece s t (piece t addr off) true =
    (s, .ok (memRead s (partKey t.crew off) 4, 0, tagRead s (partKey t.crew off) 4)) := by
  have hspan : spans (partKey t.crew off) 4 3 = [(partKey t.crew off, 4)] := by
    refine spans_of_le (by decide) ?_ 1
    have := hp.aligned
    rw [partKey_mod]
    omega
  simp only [readPiece, settlePart_of_noWindows hp.windowsOf_eq, partStamp_of_noWindows hp.windowsOf_eq, hspan]
  simp only [List.any_cons, List.any_nil, hp.clean]
  rfl

end PlainWord

/-- The state once the cursor at `off` is raised by `n` and the tags it had are seen (spec/11 R254, spec/19 R387). -/
def appended (s : State) (tid : Nat) (t : Team) (off n : Nat) (w : Writer) : State :=
  modTeam (putPart s t.crew off (leBytes 4 (leNat (memRead s (partKey t.crew off) 4) + n)) w) tid fun u =>
    { raiseFloor u 0 with tagSeen := maxW u.tagSeen (tagRead s (partKey t.crew off) 4) }

/-- The writer of VAPND's cursor, which follows the tags it read (spec/19 R387). -/
def cursorWriter (s : State) (t : Team) (i : Instr) (addr : W64) (off : Nat) : Writer :=
  let w := teamWriter s t none (some (storeEntry i t 0 addr (leBytes 4 (leNat (memRead s (partKey t.crew off) 4)))))
  { w with floor := maxW w.floor (tagRead s (partKey t.crew off) 4) }

section

variable {d a off : Nat} {c : Crew} {w : Writer}

theorem vapnd_empty (h : CanIssue s tid t (.vapnd k d a)) (ha : active (viewOf s tid t) k = []) :
    Completes (.vapnd k d a) s tid s := go_of h (if_pos ha)

/-- Each active lane gets the cursor plus its rank among them. -/
theorem vapnd_appends (h : CanIssue s tid t (.vapnd k d a)) (ha : active (viewOf s tid t) k ≠ [])
    (hp : PlainWord s t (sget (viewOf s tid t) a) off c) :
    let act := active (viewOf s tid t) k
    let w := cursorWriter s t (.vapnd k d a) (sget (viewOf s tid t) a) off
    Completes (.vapnd k d a) s tid (writeRegs (appended s tid t off act.length w) tid (act.map fun l =>
      .v d l (BitVec.ofNat 32 (leNat (memRead s (partKey t.crew off) 4) + (act.filter fun j => decide (j < l)).length)))) := by
  intro act w
  have hfill : fillPieces s [PlainWord.piece t (sget (viewOf s tid t) a) off] = (s, none) := rfl
  refine go_of h ?_
  simp only [if_neg ha, hp.aperture_eq, hp.checkLane_eq, hp.watchLanes_eq, watchAct, hfill, arrivePart_of_noWindows hp.windowsOf_eq,
    hp.readPiece_eq, throughKey_of_noWindows hp.windowsOf_eq, Option.isSome_none, Bool.false_eq_true, if_false,
    writePart_of_noWindows hp.windowsOf_eq]
  rfl

theorem appended_mem (n : Nat) : (appended s tid t off n w).mem =
    (memWrite s (partKey t.crew off) (leBytes 4 (leNat (memRead s (partKey t.crew off) 4) + n))).mem := putPart_mem _ _ _ _ _

theorem memRead_appended (n : Nat) (hm : Memory.wf s.mem = true) : memRead (appended s tid t off n w) (partKey t.crew off) 4 =
    leBytes 4 (leNat (memRead s (partKey t.crew off) 4) + n) := by
  have hr := memRead_memWrite (partKey t.crew off) (leBytes 4 (leNat (memRead s (partKey t.crew off) 4) + n)) hm
  rw [leBytes_length] at hr
  rw [← hr]
  exact memRead_congr (appended_mem n) _ _

theorem memGet_appended (n : Nat) {key : Nat} (hk : key < partKey t.crew off ∨ partKey t.crew off + 4 ≤ key) :
    memGet (appended s tid t off n w) key = memGet s key := by
  rw [← memGet_memWrite_ne (s := s) (partKey t.crew off) key (leBytes 4 (leNat (memRead s (partKey t.crew off) 4) + n))
    (by rw [leBytes_length]; exact hk)]
  exact congrArg (smGet 0 · key) (appended_mem n)

theorem appended_teams (n : Nat) : (appended s tid t off n w).teams = tbMod s.teams tid fun u =>
    { u with tagSeen := maxW u.tagSeen (tagRead s (partKey t.crew off) 4) } := by
  simp only [appended, modTeam_teams, putPart_teams, raiseFloor, maxW_zero]

end

end

/-- Settles O26: instruction by instruction, by what it finds. -/
theorem prefetchStashAndAppend : Obligations.PrefetchStashAndAppend := by
  unfold Obligations.PrefetchStashAndAppend
  intro s tid t k
  refine ⟨fun a b nv u llc => pref_completes,
    fun d a b h => ⟨stashmap_empty h, fun off => stashmap_maps h, fun c x => stashmap_faults h⟩,
    fun d discard h => ⟨stashdrop_empty h, stashdrop_faults h, stashdrop_drops h⟩, fun d a h => ⟨vapnd_empty h, ?_⟩⟩
  intro c off hact hcrew hwin hdbg haddr hal hin hsize hring hcount hclean hm
  exact ⟨_, vapnd_appends h hact ⟨hcrew, hwin, hdbg, haddr, hal, hin, hsize, hring, hcount, hclean⟩,
    memRead_appended _ hm, appended_teams _, fun key => memGet_appended _⟩

end Sys2Proof.Proofs.PrefetchStashAppend
end

section
/-! O28: the integer atomic functions (spec/13 R277): each is the number of one operation on bit vectors. -/

namespace Sys2Proof.Proofs.AtomicFunctions

open Sys2Proof.Machine Sys2Proof.Spec Sys2Proof.Laws

/-- An element of 32 or 64 bits is no pair of halves (spec/05 R106). -/
theorem not_isPacked {ty : Ty} (h : tyWidth ty = 32 ∨ tyWidth ty = 64) : ty.isPacked = false := by
  cases ty with
  | h => simp [tyWidth] at h
  | bf => simp [tyWidth] at h
  | _ => rfl

/-- The increment below a bound does not wrap (spec/13 R277). -/
theorem inc_eq {w : Nat} (x y : BitVec w) : (if y.toNat ≤ x.toNat then 0 else x.toNat + 1) = (if y ≤ x then 0 else x + 1#w).toNat := by
  by_cases h : y ≤ x
  · rw [if_pos h, if_pos (BitVec.le_def.mp h)]
    rfl
  · have hlt : x.toNat < y.toNat := Nat.lt_of_not_le (mt BitVec.le_def.mpr h)
    rw [if_neg h, if_neg (Nat.not_le.mpr hlt), BitVec.toNat_add, BitVec.toNat_ofNat, Nat.add_mod_mod,
      Nat.mod_eq_of_lt (Nat.lt_of_le_of_lt hlt y.isLt)]

/-- Settles O28, operation by operation. -/
theorem atomicFunctions : Obligations.AtomicFunctions := by
  unfold Obligations.AtomicFunctions
  rintro ty w x y rfl hw
  have hpos : 0 < tyWidth ty := by omega
  have elem (op : AOp) : atomicF ty op x.toNat y.toNat = atomicElem ty op x.toNat y.toNat := by
    simp only [atomicF, not_isPacked hw, Bool.false_eq_true, if_false]
  simp only [elem]
  exact ⟨addW_eq x y, (BitVec.toNat_and ..).symm, (BitVec.toNat_or ..).symm, (BitVec.toNat_xor ..).symm, rfl,
    minW_eq hpos _ x y, maxWd_eq hpos _ x y, inc_eq x y⟩

end Sys2Proof.Proofs.AtomicFunctions
end

section
/-! O30: the value of an allowance counter (spec/13 R283, R285; spec/21 R421-R424). What the home does on the way, the return of a share and a
recall, keeps the value; then ALDEC and ALINC, each at its core's share and at the home. -/

namespace Sys2Proof.Proofs.AllowanceCounts

open Sys2Proof.Machine Sys2Proof.Spec Sys2Proof.Laws Sys2Proof.Safety

/-! ### What keeps the value -/

/-- `c'` is `c` but for where its value lies and its floor; each core's share is listed once in it too. -/
structure SameValue (c c' : Counter) : Prop where
  ok : CounterOk c'
  value : counterValue c' = counterValue c
  queue : c'.queue = c.queue
  ovf : c'.ovf = c.ovf

section

variable {s : State} {key core n : Nat} {c : Counter}

theorem SameValue.refl (h : CounterOk c) : SameValue c c := ⟨h, rfl, rfl, rfl⟩

theorem SameValue.trans {c' c'' : Counter} (h : SameValue c c') (g : SameValue c' c'') : SameValue c c'' :=
  ⟨g.ok, g.value.trans h.value, g.queue.trans h.queue, g.ovf.trans h.ovf⟩

/-- A recall gathers the value in the reserve. -/
theorem recallShares_sameValue (h : tbGet s.counters key = some c) :
    ∃ c', tbGet (recallShares s key).counters key = some c' ∧ SameValue c c' ∧ c'.reserve = counterValue c ∧ c'.shares = [] := by
  obtain ⟨fl, hc⟩ := recallShares_get h
  exact ⟨_, hc, ⟨List.Pairwise.nil, rfl, rfl, rfl⟩, rfl, rfl⟩

/-- A returned share is in the reserve. -/
theorem returnShare_sameValue (hok : CounterOk c) (h : tbGet s.counters key = some c) :
    ∃ c', tbGet (returnShare s key core).counters key = some c' ∧ SameValue c c' ∧ tbGet c'.shares core = none := by
  refine ⟨_, modCounter_get _ h, ?_⟩
  cases hx : tbGet c.shares core with
  | none => exact ⟨.refl hok, hx⟩
  | some x =>
    refine ⟨⟨CounterOk.tbDel core hok, ?_, rfl, rfl⟩, tbGet_tbDel_self _ _⟩
    have := sum_tbDel hok hx
    simp only [counterValue, shareSum]
    omega

/-- At the limit of the reserve the shares are recalled, or nothing changes. -/
theorem atLimit_sameValue (hok : CounterOk c) (h : tbGet s.counters key = some c) :
    ∃ c', tbGet (atLimit s key).counters key = some c' ∧ SameValue c c' ∧ (c' = c ∨ c'.shares = []) := by
  simp only [atLimit, h]
  split
  · obtain ⟨c', hc, hs, _, hnil⟩ := recallShares_sameValue h
    exact ⟨c', hc, hs, .inr hnil⟩
  · exact ⟨c, h, .refl hok, .inl rfl⟩

/-! ### ALDEC -/

/-- The refusal of an ALDEC, by whether it waits. -/
abbrev refusal (wait : Bool) : Dec := if wait then .queue else .fail

/-- The outcome `d` of an ALDEC of `n` leaves `c'` of the counter `c`: exactly `n` taken, or nothing; with nobody queued and enough there, `n` is
taken (spec/13 R285). -/
def Takes (c c' : Counter) (n : Nat) (wait : Bool) (d : Dec) : Prop :=
  ((∃ fl, d = .ok fl) ∧ counterValue c' + n = counterValue c) ∨
    (d = refusal wait ∧ counterValue c' = counterValue c ∧ (c.queue = [] → counterValue c < n))

theorem Takes.of_sameValue {c₀ c' : Counter} {wait : Bool} {d : Dec} (hs : SameValue c₀ c) (h : Takes c c' n wait d) :
    Takes c₀ c' n wait d := by
  rw [Takes, hs.value, hs.queue] at h
  exact h

/-- What the home grants covers the request and is there (spec/21 R421). -/
theorem grant_bounds {n r : Nat} (h : n ≤ r) :
    n ≤ (if grantLimit ≤ r then n else min (min r (max n ((r + 7) / 8))) (2 ^ 38 - 1 + n)) ∧
      (if grantLimit ≤ r then n else min (min r (max n ((r + 7) / 8))) (2 ^ 38 - 1 + n)) ≤ r := by
  split <;> omega

/-- A grant of `g`, of which `n` is taken, the rest being a new share. -/
theorem granted_value {g : Nat} {fl : W64} (hok : CounterOk c) (hfree : tbGet c.shares core = none) (hn : n ≤ g) (hg : g ≤ c.reserve) :
    counterValue { c with reserve := c.reserve - g, shares := if g = n then c.shares else tbSet c.shares core (g - n, fl) } + n =
      counterValue c := by
  have hsum := sum_tbSet core (g - n, fl) hok
  rw [hfree] at hsum
  dsimp only at hsum
  simp only [counterValue, shareSum]
  split <;> omega

/-- A request at the home of a core that holds no share, or behind others. -/
theorem atHome_takes {wait : Bool} (hok : CounterOk c) (h : tbGet s.counters key = some c)
    (hfree : c.queue = [] → tbGet c.shares core = none) :
    ∃ c', tbGet (aldecAt.atHome key core n s (refusal wait)).1.counters key = some c' ∧
      Takes c c' n wait (aldecAt.atHome key core n s (refusal wait)).2 := by
  simp only [aldecAt.atHome, h]
  by_cases hq : c.queue = []
  · rw [if_neg (not_not_intro hq)]
    by_cases hr : n ≤ c.reserve
    · rw [if_pos hr]
      obtain ⟨hn, hg⟩ := grant_bounds hr
      exact ⟨_, tbGet_tbSet_self _ _ _, .inl ⟨⟨_, rfl⟩, granted_value hok (hfree hq) hn hg⟩⟩
    · rw [if_neg hr]
      obtain ⟨c', hc, hs, hres, hnil⟩ := recallShares_sameValue h
      simp only [hc]
      by_cases hv : n ≤ c'.reserve
      · rw [if_pos hv]
        refine ⟨_, modCounter_get _ hc, .inl ⟨⟨_, rfl⟩, ?_⟩⟩
        rw [← hs.value]
        simp only [counterValue, shareSum]
        omega
      · rw [if_neg hv]
        exact ⟨_, hc, .inr ⟨rfl, hs.value, fun _ => by omega⟩⟩
  · rw [if_pos hq]
    exact ⟨_, h, .inr ⟨rfl, rfl, fun hnil => absurd hnil hq⟩⟩

/-- A request that goes to the home after the limit is seen to. -/
theorem atHome_atLimit_takes {wait : Bool} (hok : CounterOk c) (h : tbGet s.counters key = some c)
    (hfree : c.queue = [] → tbGet c.shares core = none) :
    ∃ c', tbGet (aldecAt.atHome key core n (atLimit s key) (refusal wait)).1.counters key = some c' ∧
      Takes c c' n wait (aldecAt.atHome key core n (atLimit s key) (refusal wait)).2 := by
  obtain ⟨c₁, hc₁, hs, hor⟩ := atLimit_sameValue hok h
  have hfree₁ : c₁.queue = [] → tbGet c₁.shares core = none := by
    rcases hor with rfl | hnil
    · exact hfree
    · exact fun _ => by rw [hnil]; rfl
  obtain ⟨c', hc', ht⟩ := atHome_takes hs.ok hc₁ hfree₁
  exact ⟨c', hc', ht.of_sameValue hs⟩

theorem aldecAt_takes (wait : Bool) (hok : CounterOk c) (h : tbGet s.counters key = some c) :
    ∃ c', tbGet (aldecAt s key core n wait).1.counters key = some c' ∧ Takes c c' n wait (aldecAt s key core n wait).2 := by
  simp only [aldecAt, h]
  by_cases h0 : n = 0
  · rw [if_pos h0]
    exact ⟨c, h, .inl ⟨⟨_, rfl⟩, by rw [h0]; rfl⟩⟩
  · rw [if_neg h0]
    by_cases hq : c.queue = []
    · rw [if_pos hq]
      cases hx : tbGet c.shares core with
      | none => exact atHome_atLimit_takes hok h fun _ => hx
      | some x =>
        by_cases hn : n ≤ x.1
        · simp only [if_pos hn]
          refine ⟨_, modCounter_get _ h, .inl ⟨⟨_, rfl⟩, ?_⟩⟩
          have hsum := sum_tbSet core (x.1 - n, x.2) hok
          rw [hx] at hsum
          dsimp only at hsum
          simp only [counterValue, shareSum]
          omega
        · simp only [if_neg hn]
          obtain ⟨c₁, hc₁, hs, hfree⟩ := returnShare_sameValue (core := core) hok h
          obtain ⟨c', hc', ht⟩ := atHome_atLimit_takes (wait := wait) hs.ok hc₁ fun _ => hfree
          exact ⟨c', hc', ht.of_sameValue hs⟩
    · rw [if_neg hq]
      exact atHome_atLimit_takes hok h fun hnil => absurd hnil hq

theorem aldecTakesExactlyItsCount : AldecTakesExactlyItsCount := by
  intro s key core n wait c h hok
  obtain ⟨c', hc', ht⟩ := aldecAt_takes (core := core) (n := n) wait hok h
  refine ⟨c', hc', ?_⟩
  rcases ht with ⟨⟨fl, hd⟩, hv⟩ | ⟨hd, hv, hlt⟩
  · rw [hd]
    exact ⟨fun _ _ => hv, nofun, nofun, fun _ _ => ⟨fl, rfl⟩⟩
  · rw [hd]
    cases wait with
    | true => exact ⟨nofun, nofun, fun _ => ⟨rfl, hv⟩, fun hq hn => absurd (hlt hq) (Nat.not_lt.mpr hn)⟩
    | false => exact ⟨nofun, fun _ => ⟨rfl, hv⟩, nofun, fun hq hn => absurd (hlt hq) (Nat.not_lt.mpr hn)⟩

/-! ### ALINC -/

/-- `n` added to `c`, up to 2^48 - 1 (spec/21 R423). -/
structure Adds (c c' : Counter) (n : Nat) : Prop where
  value : counterValue c' = min (counterValue c + n) (2 ^ 48 - 1)
  ovf : c'.ovf = (c.ovf || decide (2 ^ 48 - 1 < counterValue c + n))

/-- An increment that the limit does not touch. -/
theorem Adds.of_le {c' : Counter} (hle : counterValue c + n < 2 ^ 48) (hv : counterValue c' = counterValue c + n) (ho : c'.ovf = c.ovf) :
    Adds c c' n := by
  refine ⟨by omega, ?_⟩
  rw [ho, decide_eq_false (by omega), Bool.or_false]

/-- The increment of the reserve by `n`, with the floor of a release. -/
def addReserve (n : Nat) (fl : W64) (c : Counter) : Counter :=
  { c with reserve := min (c.reserve + n) (2 ^ 48 - 1), ovf := c.ovf || decide (2 ^ 48 - 1 < c.reserve + n), floor := maxW c.floor fl }

/-- It is exact where all of the value lies in the reserve, or the sum stays below the limit. -/
theorem addReserve_adds {fl : W64} (hs : c.shares = [] ∨ counterValue c + n < 2 ^ 48) : Adds c (addReserve n fl c) n := by
  rcases hs with hnil | hlt
  · have hres : counterValue c = c.reserve := by rw [counterValue, shareSum_nil c hnil, Nat.add_zero]
    refine ⟨?_, by rw [hres]; rfl⟩
    rw [hres, counterValue, shareSum_nil (addReserve n fl c) hnil, Nat.add_zero]
    rfl
  · have hle : c.reserve + n < 2 ^ 48 := by rw [counterValue] at hlt; omega
    refine .of_le hlt ?_ ?_
    · simp only [counterValue, shareSum, addReserve]
      omega
    · rw [addReserve, decide_eq_false (by omega), Bool.or_false]

theorem alincAtHome_adds {fl : W64} (hok : CounterOk c) (h : tbGet s.counters key = some c) :
    ∃ c', tbGet (alincAt.atHome key n fl s).counters key = some c' ∧ Adds c c' n := by
  simp only [alincAt.atHome, h]
  obtain ⟨c₁, hc₁, hs₁, hor⟩ : ∃ c₁,
      tbGet (if grantLimit ≤ c.reserve ∨ 2 ^ 48 - 1 < counterValue c + n then recallShares s key else s).counters key = some c₁ ∧
      SameValue c c₁ ∧ (c₁.shares = [] ∨ counterValue c₁ + n < 2 ^ 48) := by
    split
    · obtain ⟨c₁, hc₁, hs₁, _, hnil⟩ := recallShares_sameValue h
      exact ⟨c₁, hc₁, hs₁, .inl hnil⟩
    · exact ⟨c, h, .refl hok, .inr (by omega)⟩
  have hadd := addReserve_adds (fl := fl) hor
  obtain ⟨c', hc', hs', _⟩ := atLimit_sameValue (c := addReserve n fl c₁) hs₁.ok (modCounter_get _ hc₁)
  refine ⟨c', hc', hs'.value.trans ?_, hs'.ovf.trans ?_⟩
  · rw [← hs₁.value]; exact hadd.value
  · rw [← hs₁.value, ← hs₁.ovf]; exact hadd.ovf

theorem alincAt_adds {fl : W64} (hok : CounterOk c) (h : tbGet s.counters key = some c) :
    ∃ c', tbGet (alincAt s key core n fl).counters key = some c' ∧ Adds c c' n := by
  simp only [alincAt, h]
  split
  · rename_i x fx hx
    split
    · rename_i hroom
      refine ⟨_, modCounter_get _ h, .of_le hroom.2 ?_ rfl⟩
      have hsum := sum_tbSet core (x + n, maxW fx fl) hok
      split at hx
      · rw [hx] at hsum
        dsimp only at hsum
        simp only [counterValue, shareSum]
        omega
      · cases hx
    · exact alincAtHome_adds hok h
  · exact alincAtHome_adds hok h

theorem alincAddsAndSaturates : AlincAddsAndSaturates := by
  intro s key core n fl c h hok _ _
  obtain ⟨c', hc', hadd⟩ := alincAt_adds (core := core) (n := n) (fl := fl) hok h
  exact ⟨c', hc', hadd.value, hadd.ovf⟩

end

/-- Settles O30. -/
theorem allowanceCountsAreExact : Obligations.AllowanceCountsAreExact := ⟨aldecTakesExactlyItsCount, alincAddsAndSaturates⟩

end Sys2Proof.Proofs.AllowanceCounts
end

section
/-! O31: the fences (spec/13 R286-R289): each raises REDUCTION_LOG_HALT where an entry is unreported, waits for what it orders, and takes effect. -/

namespace Sys2Proof.Proofs.Fences

open Sys2Proof.Machine Sys2Proof.Spec Sys2Proof.Laws

section

variable {s : State} {tid k : Nat} {t : Team} {scope : Scope}

/-- The halt of a fence (spec/13 R289). -/
abbrev Halts (i : Instr) (s : State) (tid : Nat) (t : Team) : Prop := Faults i s tid t s ⟨.reductionLogHalt, 0, t.live, [], 1, 0⟩

theorem not_halting (ha : haltsAt s t = false) : ¬ haltsAt s t = true := by rw [ha]; exact Bool.false_ne_true

/-! ### FENCE -/

/-- What a FENCE waits for: a release for earlier stores, an acquire of a wide scope for loads (spec/13 R287). -/
abbrev Waits (s : State) (tid : Nat) (order : Order) (scope : Scope) : Prop :=
  isRel order = true ∧ mustDrain s tid = true ∨ isAcq order = true ∧ wideScope scope = true ∧ loadsPending s tid = true

theorem waits_iff {order : Order} : ((isRel order && mustDrain s tid) || (isAcq order && wideScope scope && loadsPending s tid)) = true ↔
    Waits s tid order scope := by
  simp only [Bool.or_eq_true, Bool.and_eq_true, and_assoc]

section

variable {order : Order} (h : CanIssue s tid t (.fence k order scope))
include h

theorem fence_halts (ha : haltsAt s t = true) : Halts (.fence k order scope) s tid t := fault_of h (if_pos ha)

theorem fence_waits (ha : haltsAt s t = false) (hw : Waits s tid order scope) : Blocks (.fence k order scope) s tid s .drain :=
  wait_of h ((if_neg (not_halting ha)).trans (if_pos (waits_iff.mpr hw)))

theorem fence_passes (ha : haltsAt s t = false) (hw : ¬ Waits s tid order scope) : Completes (.fence k order scope) s tid
    (passFence (scState order (if isAcq order then fenceAcq s t tid scope else s) tid) tid) :=
  go_of h ((if_neg (not_halting ha)).trans (if_neg (mt waits_iff.mp hw)))

end

/-! ### FENCEO -/

section

variable (h : CanIssue s tid t (.fenceo k scope))
include h

theorem fenceo_halts (ha : haltsAt s t = true) : Halts (.fenceo k scope) s tid t := fault_of h (if_pos ha)

theorem fenceo_passes (ha : haltsAt s t = false) : Completes (.fenceo k scope) s tid (passFence (orderTeam s t tid) tid) :=
  go_of h (if_neg (not_halting ha))

end

/-! ### FENCER -/

section

variable (h : CanIssue s tid t (.fencer k scope))
include h

theorem fencer_halts (ha : haltsAt s t = true) : Halts (.fencer k scope) s tid t := fault_of h (if_pos ha)

/-- The request to each core of the scope carries the floor of the team and of the order S (spec/13 R288). -/
theorem fencer_requests (ha : haltsAt s t = false) (hd : mustDrain s tid = false) :
    let cores := scopeCores s t scope
    let s1 := passFence (cores.foldl (serialise t.ctx (maxW (maxW (relFloor s t) t.tagSeen) s.scFloor))
      (enterS (fenceAcq s t tid scope) tid)) tid
    Holds (.fencer k scope) s tid (launchOp s1 tid (newOp t tid (.fencer k scope) ⟨[], [], []⟩
      (.fencer (cores.map fun c => (c, coreWrites s1 t.ctx c)) 0))) s1.nextId :=
  hold_of h ((if_neg (not_halting ha)).trans (if_neg (by rw [hd]; exact Bool.false_ne_true)))

end

end

/-- Settles O31: fence by fence. -/
theorem fences : Obligations.Fences := by
  unfold Obligations.Fences
  intro s tid t k scope
  exact ⟨fun order h => ⟨fence_halts h, fence_waits h, fence_passes h⟩, fun h => ⟨fenceo_halts h, fenceo_passes h⟩,
    fun h => ⟨fencer_halts h, fencer_requests h⟩⟩

end Sys2Proof.Proofs.Fences
end

section
/-! O32: cache maintenance, translation locks and mapping (spec/13 R290-R293; spec/25 R451), instruction by instruction, each by what its
checks and its walk find. -/

namespace Sys2Proof.Proofs.Maintenance

open Sys2Proof.Machine Sys2Proof.Spec Sys2Proof.Laws

section

variable {s : State} {tid k a b : Nat} {t : Team}

theorem not_draining (hd : mustDrain s tid = false) : ¬ mustDrain s tid = true := by rw [hd]; exact Bool.false_ne_true

/-! ### CMAINT -/

section

variable {op : CmOp} {level : CmLevel} (h : CanIssue s tid t (.cmaint k a b op level))
include h

theorem cmaint_empty (ha : active (viewOf s tid t) k = []) : Completes (.cmaint k a b op level) s tid s := go_of h (if_pos ha)

variable (ha : active (viewOf s tid t) k ≠ []) (hd : mustDrain s tid = false)
include ha hd

theorem cmaint_nothing (hl : (sget (viewOf s tid t) b).toNat = 0) : Completes (.cmaint k a b op level) s tid s :=
  go_of h ((if_neg ha).trans ((if_neg (not_draining hd)).trans (if_pos hl)))

variable (hl : (sget (viewOf s tid t) b).toNat ≠ 0)
include hl

theorem cmaint_outside (hr : globEnd < (sget (viewOf s tid t) a).toNat + (sget (viewOf s tid t) b).toNat) :
    Faults (.cmaint k a b op level) s tid t s
      (fltAt .apertureBounds (maskOf (active (viewOf s tid t) k)) (sget (viewOf s tid t) a) 0) :=
  fault_of h ((if_neg ha).trans ((if_neg (not_draining hd)).trans ((if_neg hl).trans (if_pos hr))))

theorem cmaint_inside (hr : (sget (viewOf s tid t) a).toNat + (sget (viewOf s tid t) b).toNat ≤ globEnd) :
    Completes (.cmaint k a b op level) s tid (cmaintState s t op level (sget (viewOf s tid t) a).toNat
      ((sget (viewOf s tid t) a).toNat + (sget (viewOf s tid t) b).toNat)) :=
  go_of h ((if_neg ha).trans ((if_neg (not_draining hd)).trans ((if_neg hl).trans (if_neg (Nat.not_lt.mpr hr)))))

end

/-! ### TLBLOCK and TLBUNLOCK -/

section

variable (h : CanIssue s tid t (.tlblock k a b))
include h

theorem tlblock_empty (ha : active (viewOf s tid t) k = []) : Completes (.tlblock k a b) s tid s := go_of h (if_pos ha)

/-- Every page of the range is locked: the range is one of the context's. -/
theorem tlblock_locks (ha : active (viewOf s tid t) k ≠ []) (hd : mustDrain s tid = false)
    (hr : rangeCheck (sget (viewOf s tid t) a) (sget (viewOf s tid t) b).toNat = none) {s1 : State}
    (hx : lockPages t.ctx ((sget (viewOf s tid t) a).toNat + (sget (viewOf s tid t) b).toNat) (lockedCount s t.ctx + 4098)
      (sget (viewOf s tid t) a).toNat s = (s1, none))
    (hl : (sget (viewOf s tid t) b).toNat ≠ 0) : Completes (.tlblock k a b) s tid (modCtx s1 t.ctx fun c =>
      { c with locked := insertNew c.locked ((sget (viewOf s tid t) a).toNat, (sget (viewOf s tid t) b).toNat) }) := by
  refine go_of h ((if_neg ha).trans ((if_neg (not_draining hd)).trans ?_))
  simp only [hr, hx, if_neg hl]

end

/-- A locked range cut by [lo, hi) covers what it covered outside it (spec/13 R291). -/
theorem mem_cutRange {lo hi : Nat} {g : Nat × Nat} (hle : lo ≤ hi) (x : Nat) :
    (∃ r ∈ cutRange lo hi g, r.1 ≤ x ∧ x < r.1 + r.2) ↔ (g.1 ≤ x ∧ x < g.1 + g.2) ∧ ¬(lo ≤ x ∧ x < hi) := by
  have hmem (p : Prop) [Decidable p] (r : Nat × Nat) :
      (∃ q ∈ (if p then [r] else []), q.1 ≤ x ∧ x < q.1 + q.2) ↔ p ∧ r.1 ≤ x ∧ x < r.1 + r.2 := by
    split <;> simp [*]
  rw [cutRange]
  split
  · simp only [List.mem_singleton, exists_eq_left]
    omega
  · simp only [List.mem_append, or_and_right, exists_or, hmem]
    omega

theorem mem_cutRanges {lo hi : Nat} (hle : lo ≤ hi) (l : List (Nat × Nat)) (x : Nat) :
    (∃ r ∈ l.flatMap (cutRange lo hi), r.1 ≤ x ∧ x < r.1 + r.2) ↔
      (∃ g ∈ l, g.1 ≤ x ∧ x < g.1 + g.2) ∧ ¬(lo ≤ x ∧ x < hi) := by
  constructor
  · rintro ⟨r, hr, hx⟩
    obtain ⟨g, hg, hrg⟩ := List.mem_flatMap.mp hr
    obtain ⟨hin, hout⟩ := (mem_cutRange hle x).mp ⟨r, hrg, hx⟩
    exact ⟨⟨g, hg, hin⟩, hout⟩
  · rintro ⟨⟨g, hg, hin⟩, hout⟩
    obtain ⟨r, hrg, hx⟩ := (mem_cutRange hle x).mpr ⟨hin, hout⟩
    exact ⟨r, List.mem_flatMap.mpr ⟨g, hg, hrg⟩, hx⟩

/-- What TLBUNLOCK of [lo, hi) leaves: the context's ranges are cut, and the units' entries that meet [lo, hi) are ordinary again. -/
def unlocked (s : State) (ctx lo hi : Nat) : State :=
  let one (e : Ctu) : Ctu := if e.ctx == ctx && e.locked && decide (e.va < hi ∧ lo < e.va + e.size) then { e with locked := false } else e
  let all (m : Tab (List Ctu)) (h : Nat) : Tab (List Ctu) := smSet [] m h ((smGet [] m h).map one)
  let s := modCtx s ctx fun c => { c with locked := c.locked.flatMap (cutRange lo hi) }
  { s with ctu := (List.range 4).foldl all s.ctu }

theorem unlocked_contexts {ctx lo hi : Nat} {c : Context} (hc : tbGet s.contexts ctx = some c) :
    tbGet (unlocked s ctx lo hi).contexts ctx = some { c with locked := c.locked.flatMap (cutRange lo hi) } := by
  refine (tbGet_tbMod_self _ _ _).trans ?_
  rw [hc]
  rfl

section

variable (h : CanIssue s tid t (.tlbunlock k a b))
include h

theorem tlbunlock_empty (ha : active (viewOf s tid t) k = []) : Completes (.tlbunlock k a b) s tid s := go_of h (if_pos ha)

theorem tlbunlock_unlocks (ha : active (viewOf s tid t) k ≠ []) (hd : mustDrain s tid = false)
    (hr : rangeCheck (sget (viewOf s tid t) a) (sget (viewOf s tid t) b).toNat = none) :
    Completes (.tlbunlock k a b) s tid (unlocked s t.ctx (sget (viewOf s tid t) a).toNat
      ((sget (viewOf s tid t) a).toNat + (sget (viewOf s tid t) b).toNat)) := by
  refine go_of h ((if_neg ha).trans ((if_neg (not_draining hd)).trans ?_))
  simp only [hr]
  rfl

end

/-! ### PGMAP -/

/-- The checks of PGMAP pass: the entry is a present leaf and the address, inside the global window, is aligned to its page (spec/13 R292). -/
structure Maps (i : Instr) (s : State) (tid : Nat) (t : Team) (k a b : Nat) : Prop where
  issues : CanIssue s tid t i
  lanes : active (viewOf s tid t) k ≠ []
  drained : mustDrain s tid = false
  inside : (sget (viewOf s tid t) a).toNat < globEnd
  present : pteP (sget (viewOf s tid t) b).toNat = true
  leaf : pteSize (sget (viewOf s tid t) b).toNat ≠ 0
  aligned : (sget (viewOf s tid t) a).toNat % sizeBytes (pteSize (sget (viewOf s tid t) b).toNat) = 0

theorem Maps.passes {i : Instr} (h : Maps i s tid t k a b) {empty drain outside absent misaligned x : Act} :
    (if active (viewOf s tid t) k = [] then empty
      else if mustDrain s tid then drain
      else if globEnd ≤ (sget (viewOf s tid t) a).toNat then outside
      else if !pteP (sget (viewOf s tid t) b).toNat || pteSize (sget (viewOf s tid t) b).toNat == 0 then absent
      else if (sget (viewOf s tid t) a).toNat % sizeBytes (pteSize (sget (viewOf s tid t) b).toNat) ≠ 0 then misaligned
      else x) = x := by
  rw [if_neg h.lanes, if_neg (not_draining h.drained), if_neg (Nat.not_le.mpr h.inside), if_neg (by simp [h.present, h.leaf]),
    if_neg (not_not_intro h.aligned)]

theorem pgmap_empty {d : Nat} (h : CanIssue s tid t (.pgmap k d a b)) (ha : active (viewOf s tid t) k = []) :
    Completes (.pgmap k d a b) s tid s := go_of h (if_pos ha)

section

variable {d : Nat} (h : Maps (.pgmap k d a b) s tid t k a b) {s1 : State} {pa e : Nat}
include h

theorem pgmap_leaf {l : Nat}
    (hw : walk s t.ctx (sget (viewOf s tid t) a).toNat (pteSize (sget (viewOf s tid t) b).toNat - 1) = (s1, .leaf l pa e)) :
    Completes (.pgmap k d a b) s tid (writeRegs s1 tid [.c d false]) :=
  go_of h.issues (h.passes.trans (by dsimp only; rw [hw]))

theorem pgmap_pointer {l : Nat}
    (hw : walk s t.ctx (sget (viewOf s tid t) a).toNat (pteSize (sget (viewOf s tid t) b).toNat - 1) = (s1, .pointer l pa)) :
    Completes (.pgmap k d a b) s tid (writeRegs s1 tid [.c d false]) :=
  go_of h.issues (h.passes.trans (by dsimp only; rw [hw]))

/-- An upper level of the table is missing. -/
theorem pgmap_noTable {l : Nat}
    (hw : walk s t.ctx (sget (viewOf s tid t) a).toNat (pteSize (sget (viewOf s tid t) b).toNat - 1) = (s1, .absent l pa e))
    (hl : l ≠ pteSize (sget (viewOf s tid t) b).toNat - 1) :
    Faults (.pgmap k d a b) s tid t s1
      (fltAt .pageNotPresent (maskOf (active (viewOf s tid t) k)) (sget (viewOf s tid t) a) 0) :=
  fault_of h.issues (h.passes.trans (by dsimp only; rw [hw]; exact if_pos hl))

variable (hw : walk s t.ctx (sget (viewOf s tid t) a).toNat (pteSize (sget (viewOf s tid t) b).toNat - 1) =
  (s1, .absent (pteSize (sget (viewOf s tid t) b).toNat - 1) pa e))
include hw

/-- No entry was present, and its home takes the new one; the page is not one the context has locked. -/
theorem pgmap_maps (hp : pteWritable (drainPte s1 pa) t pa = true) :
    let s2 := writePte (drainPte s1 pa) t tid pa (sget (viewOf s tid t) b)
    let s3 := notePgmap s2 pa (some ((sget (viewOf s tid t) b).toNat, pgFloor s2 tid, s2.free))
    inLocked s3 t.ctx (sget (viewOf s tid t) a).toNat = false →
    Completes (.pgmap k d a b) s tid (writeRegs s3 tid [.c d true]) := by
  intro s2 s3 hl
  refine go_of h.issues (h.passes.trans ?_)
  dsimp only
  rw [hw]
  refine (if_neg (not_not_intro rfl)).trans ((if_neg (by rw [hp]; decide)).trans ?_)
  exact congrArg (fun x => Act.go (writeRegs x tid [.c d true])) (if_neg (by rw [hl]; exact Bool.false_ne_true))

theorem pgmap_lost (hp : pteWritable (drainPte s1 pa) t pa = false) : Completes (.pgmap k d a b) s tid (writeRegs
    (pteLost (.pgmap k d a b) (drainPte s1 pa) t ((active (viewOf s tid t) k).headD 0) (sget (viewOf s tid t) a)
      (sget (viewOf s tid t) b)) tid [.c d false]) := by
  refine go_of h.issues (h.passes.trans ?_)
  dsimp only
  rw [hw]
  exact (if_neg (not_not_intro rfl)).trans (if_pos (by rw [hp]; rfl))

end

/-! ### PGUNMAP -/

/-- The checks of PGUNMAP pass: the entry is not present and the address lies in the global window (spec/13 R293). -/
structure Unmaps (s : State) (tid : Nat) (t : Team) (k a b : Nat) : Prop where
  issues : CanIssue s tid t (.pgunmap k a b)
  lanes : active (viewOf s tid t) k ≠ []
  drained : mustDrain s tid = false
  inside : (sget (viewOf s tid t) a).toNat < globEnd
  notPresent : pteP (sget (viewOf s tid t) b).toNat = false

theorem Unmaps.passes (h : Unmaps s tid t k a b) {empty drain outside present x : Act} :
    (if active (viewOf s tid t) k = [] then empty
      else if mustDrain s tid then drain
      else if globEnd ≤ (sget (viewOf s tid t) a).toNat then outside
      else if pteP (sget (viewOf s tid t) b).toNat then present
      else x) = x := by
  rw [if_neg h.lanes, if_neg (not_draining h.drained), if_neg (Nat.not_le.mpr h.inside),
    if_neg (by rw [h.notPresent]; exact Bool.false_ne_true)]

theorem pgunmap_empty (h : CanIssue s tid t (.pgunmap k a b)) (ha : active (viewOf s tid t) k = []) :
    Completes (.pgunmap k a b) s tid s := go_of h (if_pos ha)

/-- What PGUNMAP leaves of a mapped page of `size` bytes at `base`, whose entry at `pa` it has written: no unit, no L1 and no stash window holds
any of it (spec/13 R293). -/
def unmapped (s : State) (ctx pa base size : Nat) : State :=
  let s := shootDown (notePgmap s pa none) fun e => e.ctx == ctx && decide (e.va < base + size ∧ base < e.va + e.size)
  let s := { s with cores := s.cores.foldl (fun m (e : Nat × Core) => smSet Core.zero m e.1 { e.2 with
    l1 := e.2.l1.filter fun x => !(x.ctx == ctx && decide (base ≤ x.va * 64 ∧ x.va * 64 < base + size)) }) s.cores }
  drainAll (unfillPage s ctx base size)

section

variable (h : Unmaps s tid t k a b) {s1 : State}
include h

theorem pgunmap_noLeaf {x : WalkEnd} (hw : walk s t.ctx (sget (viewOf s tid t) a).toNat 0 = (s1, x)) (hx : ∀ l pa e, x ≠ .leaf l pa e) :
    Completes (.pgunmap k a b) s tid s1 := by
  refine go_of h.issues (h.passes.trans ?_)
  rw [hw]
  cases x with
  | leaf l pa e => exact absurd rfl (hx l pa e)
  | _ => rfl

variable {l pa e : Nat} (hw : walk s t.ctx (sget (viewOf s tid t) a).toNat 0 = (s1, .leaf l pa e))
include hw

theorem pgunmap_waits
    (hn : nmcUses s1 t.ctx ((sget (viewOf s tid t) a).toNat / sizeBytes (l + 1) * sizeBytes (l + 1))
      ((sget (viewOf s tid t) a).toNat / sizeBytes (l + 1) * sizeBytes (l + 1) + sizeBytes (l + 1)) = true) :
    Blocks (.pgunmap k a b) s tid s1 (.pages ((sget (viewOf s tid t) a).toNat / sizeBytes (l + 1) * sizeBytes (l + 1)) (sizeBytes (l + 1))) :=
  wait_of h.issues (h.passes.trans (by rw [hw]; exact if_pos hn))

variable (hn : nmcUses s1 t.ctx ((sget (viewOf s tid t) a).toNat / sizeBytes (l + 1) * sizeBytes (l + 1))
  ((sget (viewOf s tid t) a).toNat / sizeBytes (l + 1) * sizeBytes (l + 1) + sizeBytes (l + 1)) = false)
include hn

theorem pgunmap_lost (hp : pteWritable (drainPte s1 pa) t pa = false) : Completes (.pgunmap k a b) s tid
    (pteLost (.pgunmap k a b) (drainPte s1 pa) t ((active (viewOf s tid t) k).headD 0) (sget (viewOf s tid t) a)
      (sget (viewOf s tid t) b)) := by
  refine go_of h.issues (h.passes.trans ?_)
  rw [hw]
  exact (if_neg (by rw [hn]; exact Bool.false_ne_true)).trans (if_pos (by rw [hp]; rfl))

theorem pgunmap_unmaps (hp : pteWritable (drainPte s1 pa) t pa = true) : Completes (.pgunmap k a b) s tid
    (unmapped (writePte (drainPte s1 pa) t tid pa (sget (viewOf s tid t) b)) t.ctx pa
      ((sget (viewOf s tid t) a).toNat / sizeBytes (l + 1) * sizeBytes (l + 1)) (sizeBytes (l + 1))) := by
  refine go_of h.issues (h.passes.trans ?_)
  rw [hw]
  exact (if_neg (by rw [hn]; exact Bool.false_ne_true)).trans (if_neg (by rw [hp]; decide))

end

end

/-- Settles O32: instruction by instruction. -/
theorem maintenanceAndMapping : Obligations.MaintenanceAndMapping := by
  unfold Obligations.MaintenanceAndMapping
  intro s tid t k a b
  refine ⟨fun op level => ⟨cmaint_empty, fun h ha hd => ⟨cmaint_nothing h ha hd, cmaint_outside h ha hd, cmaint_inside h ha hd⟩⟩,
    ⟨tlblock_empty, fun h ha hd hr hx => tlblock_locks h ha hd hr (Prod.ext rfl hx)⟩,
    ⟨tlbunlock_empty, fun h ha hd hr => ⟨_, tlbunlock_unlocks h ha hd hr, rfl, rfl, fun c hc =>
      ⟨_, unlocked_contexts hc, mem_cutRanges (Nat.le_add_right _ _) c.locked⟩⟩⟩,
    fun d => ⟨pgmap_empty, fun hi ha hd hin hp hs hal => ?pgmap⟩, ⟨pgunmap_empty, fun hi ha hd hin hp => ?pgunmap⟩⟩
  case pgmap =>
    have h : Maps (.pgmap k d a b) s tid t k a b := ⟨hi, ha, hd, hin, hp, hs, hal⟩
    exact ⟨fun s1 l pa e => pgmap_leaf h, fun s1 l pa => pgmap_pointer h, fun s1 l pa e => pgmap_noTable h,
      fun s1 pa e hw => ⟨pgmap_maps h hw, pgmap_lost h hw⟩⟩
  case pgunmap =>
    have h : Unmaps s tid t k a b := ⟨hi, ha, hd, hin, hp⟩
    exact ⟨fun s1 x => pgunmap_noLeaf h, fun s1 l pa e hw => ⟨pgunmap_waits h hw, pgunmap_lost h hw, pgunmap_unmaps h hw⟩⟩

end Sys2Proof.Proofs.Maintenance
end

section
/-! O33: the history instructions (spec/13 R294-R298; spec/21 R402, R405), instruction by instruction. -/

namespace Sys2Proof.Proofs.History

open Sys2Proof.Machine Sys2Proof.Spec Sys2Proof.Laws

/-- A history instruction that completes at `s1`: its values `dest` and its floor are in an operation in flight. -/
abbrev Issued (i : Instr) (s : State) (tid : Nat) (t : Team) (s1 : State) (dest : Tab W64) (fl : W64) (h : Hist) : Prop :=
  Completes i s tid (launchOp s1 tid { newOp t tid i ⟨[], dest, []⟩ (.history h) with floor := fl })

section

variable {s : State} {tid k fs d a : Nat} {t : Team}

/-! ### STAMPGET and HORIZON -/

theorem stampget_waits (h : CanIssue s tid t (.stampget k fs d)) (hd : mustDrain s tid = true) :
    Blocks (.stampget k fs d) s tid s .drain :=
  wait_of h (if_pos hd)

theorem stampget_reads (h : CanIssue s tid t (.stampget k fs d)) (hd : mustDrain s tid = false) :
    Issued (.stampget k fs d) s tid t s [(d, relFloor s t)] 0 (.stampget d) :=
  go_of h (if_neg (by rw [hd]; exact Bool.false_ne_true))

theorem horizon_reads (h : CanIssue s tid t (.horizon k fs d)) : Issued (.horizon k fs d) s tid t
    (modCore s t.home fun c => { c with hcache := maxW c.hcache s.horizon }) [(d, s.horizon)] 0 (.horizon d) :=
  go_of h rfl

/-! ### PIN and UNPIN -/

/-- With the lees off, below the horizon or with every launch pin held none is made (spec/13 R297). -/
theorem pinLaunch_refused {x : W64} {launch b : Nat} (h : leesOn s = false ∨ x.toNat < s.horizon.toNat ∨ 256 ≤ pinsHeld s) :
    pinLaunch s x launch b = (s, 0) := by
  refine if_pos ?_
  rcases h with h | h | h <;> simp [h]

theorem pinLaunch_made {x : W64} {launch b : Nat} (hl : leesOn s = true) (hx : s.horizon.toNat ≤ x.toNat) (hp : pinsHeld s < 256) :
    pinLaunch s x launch b = ({ s with lpins := s.lpins ++ [⟨freePinId s, x, launch, b⟩] }, freePinId s) := by
  refine if_neg ?_
  simp [hl, Nat.not_lt.mpr hx, Nat.not_le.mpr hp]

theorem pin_issues (h : CanIssue s tid t (.pin k fs d a)) {s1 : State} {id : Nat}
    (hp : pinLaunch s (sget (viewOf s tid t) a) t.launch 0 = (s1, id)) :
    Issued (.pin k fs d a) s tid t s1 [(d, BitVec.ofNat 64 id)] 0 (.pin d (sget (viewOf s tid t) a)) :=
  go_of h (by dsimp only; rw [hp]; rfl)

/-- Whether UNPIN of `id` releases a pin: it is the launch's, and not the one that protects the launch. -/
def releases (s : State) (t : Team) (id : Nat) (p : Pin) : Bool :=
  p.id == id && p.launch == t.launch && (match tbGet s.launches t.launch with | some l => l.pin != id | none => true)

theorem releases_iff {id : Nat} {p : Pin} : releases s t id p = true ↔
    p.id = id ∧ p.launch = t.launch ∧ ∀ l, tbGet s.launches t.launch = some l → l.pin ≠ p.id := by
  rw [releases, Bool.and_eq_true, Bool.and_eq_true, beq_iff_eq, beq_iff_eq, and_assoc]
  refine and_congr_right fun hid => and_congr_right fun _ => ?_
  rw [hid]
  cases tbGet s.launches t.launch with
  | none => simp
  | some l => simp

theorem unpin_releases (h : CanIssue s tid t (.unpin k a)) : Completes (.unpin k a) s tid
    { s with lpins := s.lpins.filter fun p => !releases s t (sget (viewOf s tid t) a).toNat p } :=
  go_of h rfl

/-! ### SNAP -/

theorem snap_waits (h : CanIssue s tid t (.snap k fs d)) (hd : mustDrain s tid = true) : Blocks (.snap k fs d) s tid s .drain :=
  wait_of h (if_pos hd)

section

variable (h : CanIssue s tid t (.snap k fs d)) (hd : mustDrain s tid = false)
include h hd

theorem snap_refused (hr : leesOn s = false ∨ 8 ≤ s.gpins.length) :
    Issued (.snap k fs d) s tid t s [(d, 0), (d + 1, 0)] 0 (.snap d) := by
  refine go_of h ((if_neg (by rw [hd]; exact Bool.false_ne_true)).trans (if_pos ?_))
  rcases hr with hr | hr <;> simp [hr]

/-- The sweep gives the stamp, the new generation pin its id (spec/21 R405). -/
theorem snap_pins (hl : leesOn s = true) (hg : s.gpins.length < 8) {s1 s2 : State} {st : W64} {id : Nat}
    (hx : sweep s (relFloor s t) = (s1, st)) (hy : pinGeneration s1 st s1.boundary = (s2, id)) :
    Issued (.snap k fs d) s tid t s2 [(d, st), (d + 1, BitVec.ofNat 64 id)] st (.snap d) := by
  have hopen : ¬ (!leesOn s || decide (8 ≤ s.gpins.length)) = true := by simp [hl, Nat.not_le.mpr hg]
  refine go_of h ((if_neg (by rw [hd]; exact Bool.false_ne_true)).trans ((if_neg hopen).trans ?_))
  rw [hx]
  dsimp only
  rw [hy]
  rfl

end

end

/-- Settles O33: instruction by instruction. -/
theorem historyInstructions : Obligations.HistoryInstructions := by
  unfold Obligations.HistoryInstructions
  intro s tid t k fs d a
  refine ⟨fun h => ⟨stampget_waits h, stampget_reads h⟩, horizon_reads,
    fun h => ⟨fun hr => pin_issues h (pinLaunch_refused hr), fun hl hx hp => pin_issues h (pinLaunch_made hl hx hp)⟩,
    fun h => ⟨_, unpin_releases h, rfl, fun p => ?_⟩, fun h => ⟨snap_waits h, snap_refused h,
      fun hd hl hg => snap_pins h hd hl hg Prod.mk.eta.symm Prod.mk.eta.symm⟩⟩
  rw [List.mem_filter, Bool.not_eq_true', ← Bool.not_eq_true, releases_iff]

end Sys2Proof.Proofs.History
end

section
/-! O22: loads and stores at issue (spec/13 R257-R266, R269). A load and a store of any form has one shape: nothing without lanes, the wait of a
release, the fault of the lanes' checks, the access. Each gets one equation of the shared action per case. -/

namespace Sys2Proof.Laws

open Sys2Proof.Machine Sys2Proof.Spec

@[simp] theorem checkFault_nil (once : Option Mask) : checkFault once [] = none := by cases once <;> rfl

theorem isSc_eq_decide (order : Order) : isSc order = decide (order = .sc) := by cases order <;> rfl

theorem not_mustDrain_of {s : State} {tid : Nat} {rel : Bool} (hd : rel = true → mustDrain s tid = false) :
    ¬ (rel && mustDrain s tid) = true := by
  rw [Bool.and_eq_true]
  rintro ⟨hr, hm⟩
  exact Bool.false_ne_true ((hd hr).symm.trans hm)

section

variable {i : Instr} {s s1 : State} {t : Team} {tid n : Nat} {lanes : List (Nat × W64)} {acc : Acc} {once : Option Mask} {order : Order}
  {scope : Scope} {page : Bool} {dest : List (Nat × List Byte) → Dest} {data : Nat → List Byte} {cs : List LaneCheck}

/-! ### Loads -/

theorem loadAct_empty (hl : lanes = []) : loadAct i t tid s lanes n acc once order scope page dest = .go s := if_pos hl

theorem loadAct_waits (hl : lanes ≠ []) (hr : isRel order = true) (hd : mustDrain s tid = true) :
    loadAct i t tid s lanes n acc once order scope page dest = .wait s .drain :=
  (if_neg hl).trans (if_pos (by rw [hr, hd]; rfl))

/-- What follows the reads of a load (spec/13 R264; spec/19 R379). -/
def afterReads (order : Order) (scope : Scope) (t : Team) (x : State × Reads) : State :=
  let s := if isSc order then noteScRead x.1 x.2.stamp else x.1
  if isAcq order && wideScope scope then dropL1 s t.home t.ctx else s

/-- The operation that will write what a load's lanes have read. -/
def readOp (i : Instr) (t : Team) (tid : Nat) (once : Option Mask) (order : Order) (page : Bool)
    (dest : List (Nat × List Byte) → Dest) (ls : List (Nat × W64 × List Piece)) (s1 s2 : State) (rd : Reads) : Op :=
  { newOp t tid i (dest rd.got) .load with
    floor := if isAcq order then maxW rd.stamp rd.tag else rd.stamp, late := lateOf s2.nextId t once rd.bad,
    ext := extReqs s1 once false page (fun _ _ => none) ls, reads := if page then blocksRead s2 ls rd else [] }

section

variable (hl : lanes ≠ []) (hd : isRel order = true → mustDrain s tid = false) (hc : checkLanes s t tid acc n lanes = (s1, cs))
include hl hd hc

theorem loadAct_faults {f : Flt} (hf : checkFault once (failures cs) = some f) :
    loadAct i t tid s lanes n acc once order scope page dest = .fault s1 f := by
  rw [loadAct, if_neg hl, if_neg (not_mustDrain_of hd), hc]
  dsimp only
  rw [hf]

theorem loadAct_reads (hf : failures cs = []) (hw : watchLanes s1 t false (passed cs) = []) :
    let x := readLanes (dropMixed (scState order s1 tid) t (passed cs)) t (isAcq order) page (passed cs)
    let s2 := afterReads order scope t x
    let s3 := launchOp s2 tid (readOp i t tid once order page dest (passed cs) s1 s2 x.2)
    loadAct i t tid s lanes n acc once order scope page dest = if isAcq order then .hold s3 s2.nextId
      else .go (modTeam s3 tid fun t => { t with tagSeen := maxW t.tagSeen x.2.tag }) := by
  rw [loadAct, if_neg hl, if_neg (not_mustDrain_of hd), hc]
  dsimp only
  rw [hf, checkFault_nil]
  dsimp only
  rw [hw]
  rfl

end

/-! ### Stores -/

theorem storeAct_empty (hl : lanes = []) : storeAct i t tid s lanes n acc once order scope data = .go s := if_pos hl

theorem storeAct_waits (hl : lanes ≠ []) (hr : isRel order = true) (hd : mustDrain s tid = true) :
    storeAct i t tid s lanes n acc once order scope data = .wait s .drain :=
  (if_neg hl).trans (if_pos (by rw [hr, hd]; rfl))

/-- The operation of a store that is not acknowledged. -/
def storeOp (i : Instr) (t : Team) (tid : Nat) (once : Option Mask) (order : Order) (ls : List (Nat × W64 × List Piece)) (s1 : State) : Op :=
  { newOp t tid i ⟨[], [], []⟩ .store with sc := isSc order, ext := extReqs s1 once true false (fun _ _ => none) ls }

/-- The lanes written, after the operation is put in flight. -/
def written (i : Instr) (t : Team) (tid : Nat) (once : Option Mask) (order : Order) (data : Nat → List Byte)
    (ls : List (Nat × W64 × List Piece)) (s1 : State) : State × List (Nat × W64 × Nat) :=
  writeLanes i s1.nextId (scTeam order s1 t) data ls
    (launchOp (scState order s1 tid) tid (storeOp i t tid once order ls s1))

section

variable (hl : lanes ≠ []) (hd : isRel order = true → mustDrain s tid = false) (hc : checkLanes s t tid acc n lanes = (s1, cs))
include hl hd hc

theorem storeAct_faults {f : Flt} (hf : checkFault once (failures cs) = some f) :
    storeAct i t tid s lanes n acc once order scope data = .fault s1 f := by
  rw [storeAct, if_neg hl, if_neg (not_mustDrain_of hd), hc]
  dsimp only
  rw [hf]

theorem storeAct_writes (hf : failures cs = []) (hw : watchLanes s1 t true (passed cs) = []) :
    let x := written i t tid once order data (passed cs) s1
    let s2 := if isAcq order && wideScope scope then dropL1 x.1 t.home t.ctx else x.1
    storeAct i t tid s lanes n acc once order scope data =
      .go (modOp s2 s1.nextId fun op => { op with late := lateOf s1.nextId t once x.2 }) := by
  rw [storeAct, if_neg hl, if_neg (not_mustDrain_of hd), hc]
  dsimp only
  rw [hf, checkFault_nil]
  dsimp only
  rw [hw]
  rfl

end

end

end Sys2Proof.Laws

namespace Sys2Proof.Proofs.LoadsStores

open Sys2Proof.Machine Sys2Proof.Spec Sys2Proof.Laws

section

variable {i : Instr} {s : State} {tid : Nat} {t : Team} {body : Team → Team → Nat → State → Act} (he : exec i s = issue i s body)
  {lanes : List (Nat × W64)} {n : Nat} {acc : Acc} {once : Option Mask} {order : Order} {scope : Scope}
include he

theorem loadIssues_of_loadAct {page : Bool} {dest : List (Nat × List Byte) → Dest}
    (hb : body (viewOf s tid t) t tid s = loadAct i t tid s lanes n acc once order scope page dest) :
    LoadIssues i s tid t lanes n acc once order scope page dest := by
  intro h
  refine ⟨fun hl => he.trans (go_of h (hb.trans (loadAct_empty hl))),
    fun hl hr hd => he.trans (wait_of h (hb.trans (loadAct_waits hl hr hd))), fun hl hd => ⟨fun f hf => ?_, fun hf hw => ?_⟩⟩
  · exact he.trans (fault_of h (hb.trans (loadAct_faults hl hd Prod.mk.eta.symm hf)))
  · have hact := loadAct_reads (i := i) (once := once) (scope := scope) (page := page) (dest := dest) hl hd Prod.mk.eta.symm hf hw
    simp only [afterReads, isSc_eq_decide, decide_eq_true_eq] at hact
    refine ⟨fun ha => he.trans (go_of h (hb.trans (hact.trans (if_neg ?_)))), fun ha => he.trans (hold_of h (hb.trans (hact.trans (if_pos ha))))⟩
    rw [ha]
    exact Bool.false_ne_true

theorem storeIssues_of_storeAct {data : Nat → List Byte}
    (hb : body (viewOf s tid t) t tid s = storeAct i t tid s lanes n ⟨true, some 1, n, false, false⟩ once order scope data) :
    StoreIssues i s tid t lanes n once order scope data := by
  intro h
  refine ⟨fun hl => he.trans (go_of h (hb.trans (storeAct_empty hl))),
    fun hl hr hd => he.trans (wait_of h (hb.trans (storeAct_waits hl hr hd))), fun hl hd => ⟨fun f hf => ?_, fun hf hw => ?_⟩⟩
  · exact he.trans (fault_of h (hb.trans (storeAct_faults hl hd Prod.mk.eta.symm hf)))
  · have hact := storeAct_writes (i := i) (once := once) (scope := scope) (data := data) hl hd Prod.mk.eta.symm hf hw
    simp only [written, storeOp, isSc_eq_decide] at hact
    exact he.trans (go_of h (hb.trans hact))

end

theorem loadsReadAndHold : LoadsReadAndHold := fun _ _ _ =>
  ⟨fun _ => loadIssues_of_loadAct rfl rfl, fun _ => loadIssues_of_loadAct rfl rfl,
    fun _ _ _ _ _ _ _ _ => loadIssues_of_loadAct rfl rfl⟩

/-- The bytes a store takes of its registers in a lane (spec/13 R258). -/
theorem vData_width (r : Team) (d l : Nat) (w : Width) : vData r d l (widthBytes w) =
    ((List.range 4).flatMap fun j => leBytes 4 (vget r (d + j) l).toNat).take (widthBytes w) := by
  cases w <;> rfl

theorem storesWriteAtIssue : StoresWriteAtIssue := fun s tid t =>
  ⟨fun o => storeIssues_of_storeAct rfl (by simp only [← vData_width]; rfl), fun o => storeIssues_of_storeAct rfl rfl⟩

/-- Settles O22. -/
theorem loadsAndStoresIssue : Obligations.LoadsAndStoresIssue := ⟨loadsReadAndHold, storesWriteAtIssue⟩

end Sys2Proof.Proofs.LoadsStores
end

section
/-! O25: as-of loads (spec/13 R267, R268; spec/21 R396; spec/25 R466). First the loads, in the shape of the other loads; then what an as-of
read of a tracked sector finds among the records of its stack. -/

namespace Sys2Proof.Proofs.AsOfLoad

open Sys2Proof.Machine Sys2Proof.Spec Sys2Proof.Laws

/-! ### The loads -/

section

variable {i : Instr} {s : State} {tid : Nat} {t : Team} {lanes : List (Nat × W64)} {w : Width} {once : Option Mask} {st : W64}
  {dest : List (Nat × List Byte) → Dest}

/-- The access of an as-of load. -/
abbrev asofAcc (w : Width) : Acc := ⟨false, some 0, widthBytes w, false, true⟩

theorem asofAct_empty (hl : lanes = []) : asofAct i t tid s lanes w once st dest = .go s := if_pos hl

section

variable (hl : lanes ≠ []) {s1 : State} {cs : List LaneCheck} (hc : checkLanes s t tid (asofAcc w) (widthBytes w) lanes = (s1, cs))
include hl hc

theorem asofAct_faults {f : Flt}
    (hf : checkFault once (failures (asofChecks { s1 with xlFloor := s.xlFloor } st cs)) = some f) :
    asofAct i t tid s lanes w once st dest = .fault { s1 with xlFloor := s.xlFloor } f := by
  refine (if_neg hl).trans ?_
  rw [show checkLanes s t tid { ldAcc w with asof := true } (widthBytes w) lanes = (s1, cs) from hc]
  dsimp only
  rw [hf]

/-- The operation that will write what the lanes read; a late fault keeps the stamp of the version read (spec/25 R466). -/
def asofOp (i : Instr) (t : Team) (tid : Nat) (once : Option Mask) (st : W64) (dest : List (Nat × List Byte) → Dest) (x : State × Reads) : Op :=
  { newOp t tid i (dest x.2.got) .load with
    late := (lateOf x.1.nextId t once x.2.bad).map fun f => { f with stamp := some (asofStamp x.1 st f.phys) } }

theorem asofAct_reads (hf : failures (asofChecks { s1 with xlFloor := s.xlFloor } st cs) = []) :
    let x := asofLanes st (passed (asofChecks { s1 with xlFloor := s.xlFloor } st cs)) { s1 with xlFloor := s.xlFloor }
    asofAct i t tid s lanes w once st dest = .go (launchOp x.1 tid (asofOp i t tid once st dest x)) := by
  refine (if_neg hl).trans ?_
  rw [show checkLanes s t tid { ldAcc w with asof := true } (widthBytes w) lanes = (s1, cs) from hc]
  dsimp only
  rw [hf, checkFault_nil]
  rfl

end

end

theorem asOfLoads : AsOfLoads := by
  intro s tid t r done
  have hdone {i : Instr} {lanes : List (Nat × W64)} {w : Width} {once : Option Mask} {st : W64} {dest : List (Nat × List Byte) → Dest}
      {body : Team → Team → Nat → State → Act} (he : exec i s = issue i s body)
      (hb : body r t tid s = asofAct i t tid s lanes w once st dest) : done i lanes w once st dest := fun h =>
    ⟨fun hl => he.trans (go_of h (hb.trans (asofAct_empty hl))), fun hl =>
      ⟨fun f hf => he.trans (fault_of h (hb.trans (asofAct_faults hl Prod.mk.eta.symm hf))),
        fun hf => he.trans (go_of h (hb.trans (asofAct_reads hl Prod.mk.eta.symm hf)))⟩⟩
  exact ⟨fun o => hdone rfl rfl, fun o => hdone rfl rfl⟩

/-! ### The version current at a stamp -/

section

variable {sec : Nat} {st : W64}

/-- A version of a sector among records. -/
def HasVersion (l : List Lees) (sec : Nat) (d : List Byte) (x : W64) (p : Bool) : Prop := ∃ link tag, Lees.version sec d x link tag p ∈ l

theorem hasVersion_cons {l : List Lees} {sec' link tag : Nat} {d d' : List Byte} {x x' : W64} {p p' : Bool} :
    HasVersion (.version sec' d' x' link tag p' :: l) sec d x p ↔
      (sec' = sec ∧ d = d' ∧ x = x' ∧ p = p') ∨ HasVersion l sec d x p := by
  simp only [HasVersion, List.mem_cons, Lees.version.injEq]
  constructor
  · rintro ⟨k, g, ⟨rfl, rfl, rfl, _, _, rfl⟩ | h⟩
    · exact .inl ⟨rfl, rfl, rfl, rfl⟩
    · exact .inr ⟨k, g, h⟩
  · rintro (⟨rfl, rfl, rfl, rfl⟩ | ⟨k, g, h⟩)
    · exact ⟨link, tag, .inl ⟨rfl, rfl, rfl, rfl, rfl, rfl⟩⟩
    · exact ⟨k, g, .inr h⟩

/-- The version with the largest stamp not above `st`, or that there is none (spec/21 R396). -/
def IsLatest (l : List Lees) (sec : Nat) (st : W64) : Option (W64 × List Byte × Bool) → Prop
  | some (x, d, p) => HasVersion l sec d x p ∧ x.toNat ≤ st.toNat ∧
      ∀ e y q, HasVersion l sec e y q → y.toNat ≤ st.toNat → y.toNat ≤ x.toNat
  | none => ∀ e y q, HasVersion l sec e y q → st.toNat < y.toNat

/-- A record that is no version of the sector at or below `st` is passed over. -/
theorem IsLatest.cons_of {l : List Lees} {r : Lees} {v : Option (W64 × List Byte × Bool)} (h : IsLatest l sec st v)
    (hr : ∀ d x p, HasVersion (r :: l) sec d x p → HasVersion l sec d x p ∨ st.toNat < x.toNat) : IsLatest (r :: l) sec st v := by
  cases v with
  | none => exact fun e y q hy => (hr e y q hy).elim (h e y q) id
  | some v =>
    obtain ⟨x, d, p⟩ := v
    obtain ⟨⟨k, g, hm⟩, hx, hmax⟩ := h
    exact ⟨⟨k, g, List.mem_cons_of_mem _ hm⟩, hx, fun e y q hy hle =>
      (hr e y q hy).elim (hmax e y q · hle) fun hlt => absurd hle (Nat.not_le.mpr hlt)⟩

theorem versionAt_isLatest (l : List Lees) : IsLatest l sec st (versionAt sec st l) := by
  induction l with
  | nil => rintro e y q ⟨_, _, h⟩; cases h
  | cons r l ih =>
    cases r with
    | copy b d x y t g m po => exact ih.cons_of fun e y q ⟨k, g, h⟩ => .inl ⟨k, g, by simpa using h⟩
    | index a u => exact ih.cons_of fun e y q ⟨k, g, h⟩ => .inl ⟨k, g, by simpa using h⟩
    | version sec' d x link tag p =>
      simp only [versionAt]
      by_cases hc : sec' = sec ∧ x.toNat ≤ st.toNat
      · rw [if_pos hc]
        obtain ⟨rfl, hx⟩ := hc
        have hhead : HasVersion (.version sec' d x link tag p :: l) sec' d x p := hasVersion_cons.mpr (.inl ⟨rfl, rfl, rfl, rfl⟩)
        revert ih
        cases versionAt sec' st l with
        | none =>
          intro ih
          refine ⟨hhead, hx, fun e y q hy hle => ?_⟩
          rcases hasVersion_cons.mp hy with ⟨_, _, rfl, _⟩ | hy
          · exact Nat.le_refl _
          · exact absurd hle (Nat.not_le.mpr (ih e y q hy))
        | some v =>
          obtain ⟨u, e, q⟩ := v
          rintro ⟨hu, hust, hmax⟩
          by_cases hlt : x.toNat < u.toNat
          · simp only [if_pos hlt]
            refine ⟨hasVersion_cons.mpr (.inr hu), hust, fun e y q hy hle => ?_⟩
            rcases hasVersion_cons.mp hy with ⟨_, _, rfl, _⟩ | hy
            · exact Nat.le_of_lt hlt
            · exact hmax e y q hy hle
          · simp only [if_neg hlt]
            refine ⟨hhead, hx, fun e y q hy hle => ?_⟩
            rcases hasVersion_cons.mp hy with ⟨_, _, rfl, _⟩ | hy
            · exact Nat.le_refl _
            · exact Nat.le_trans (hmax e y q hy hle) (Nat.not_lt.mp hlt)
      · rw [if_neg hc]
        refine ih.cons_of fun e y q hy => ?_
        rcases hasVersion_cons.mp hy with ⟨hs, _, rfl, _⟩ | hy
        · exact .inr (Nat.lt_of_not_le fun hle => hc ⟨hs, hle⟩)
        · exact .inl hy

end

theorem asOfIsTheLatestVersionNotAfter : AsOfIsTheLatestVersionNotAfter := by
  intro s sec st recs _
  refine ⟨fun h => if_pos h, fun h => ?_⟩
  have hlatest : IsLatest recs sec st (versionAt sec st recs) := versionAt_isLatest recs
  have hread : asOfSector s sec st = (match versionAt sec st recs with
      | some (_, d, p) => (d, p)
      | none => (List.replicate 64 0, false)) := if_neg (Nat.not_le.mpr h)
  rw [hread]
  revert hlatest
  cases versionAt sec st recs with
  | none => exact fun hnone => .inr ⟨hnone, rfl⟩
  | some v =>
    obtain ⟨x, d, p⟩ := v
    rintro ⟨hv, hx, hmax⟩
    exact .inl ⟨d, x, p, hv, hx, hmax, rfl⟩

/-- Settles O25. -/
theorem asOf : Obligations.AsOf := ⟨asOfLoads, asOfIsTheLatestVersionNotAfter⟩

end Sys2Proof.Proofs.AsOfLoad
end

section
/-! O24 and O23: loads and stores in the team's own partition, where no stash window and no debugger is (spec/13 R258, R261, R262; spec/03 R83).
What the two have in common comes first: each lane passes its checks with one piece. -/

namespace Sys2Proof.Laws

open Sys2Proof.Machine Sys2Proof.Spec

/-! ### Lanes in the partition -/

/-- The one piece of a lane's access at `off` of the partition. -/
abbrev partPiece (cid n off : Nat) (x : Nat × W64) : Piece := ⟨x.2.toNat, n, partKey cid off, .part cid off, none⟩

/-- The checked lanes of an access in the partition. -/
abbrev partLanes (cid n : Nat) (off : Nat → Nat) (lanes : List (Nat × W64)) : List (Nat × W64 × List Piece) :=
  lanes.map fun x => (x.1, x.2, [partPiece cid n (off x.1) x])

theorem failures_ok {α : Type} (l : List α) (a : α → Nat) (b : α → W64) (ps : α → List Piece) :
    failures (l.map fun x => (a x, b x, .ok (ps x))) = [] := by
  rw [failures, List.filterMap_map]
  exact List.filterMap_eq_nil_iff.mpr fun _ _ => rfl

theorem passed_ok {α : Type} (l : List α) (a : α → Nat) (b : α → W64) (ps : α → List Piece) :
    passed (l.map fun x => (a x, b x, .ok (ps x))) = l.map fun x => (a x, b x, ps x) := by
  rw [passed, List.filterMap_map]
  exact List.filterMap_eq_map (f := fun x => (a x, b x, ps x)) ▸ rfl

/-- The bytes of a width, aligned, lie in one sector. -/
theorem width_fits (w : Width) {off : Nat} (h : off % widthBytes w = 0) : widthBytes w ≤ 64 - off % 64 := by
  cases w <;> simp only [widthBytes] at * <;> omega

theorem widthBytes_pos (w : Width) : 0 < widthBytes w := by cases w <;> decide

theorem scratch_aligned (w : Width) {off : Nat} (h : off % widthBytes w = 0) : (scratchBase + off) % widthBytes w = 0 := by
  cases w <;> simp only [widthBytes, scratchBase] at * <;> omega

end Sys2Proof.Laws

namespace Sys2Proof.Spec.InScratchpad

open Sys2Proof.Machine Sys2Proof.Laws

section

variable {s : State} {tid : Nat} {t : Team} {lanes : List (Nat × W64)} {w : Width} {off : Nat → Nat}
  (hin : InScratchpad s t lanes (widthBytes w) off)
include hin

theorem windowsOf_eq : windowsOf s t.crew = [] := by
  obtain ⟨c, hcrew, hwin, _⟩ := hin
  rw [windowsOf, hcrew]
  exact hwin

theorem toNat_addr {x : Nat × W64} (hx : x ∈ lanes) : x.2.toNat = scratchBase + off x.1 := by
  obtain ⟨c, _, _, _, hlanes⟩ := hin
  obtain ⟨haddr, _, hend, hsize, _⟩ := hlanes x hx
  rw [haddr]
  exact Nat.mod_eq_of_lt (by rw [scratchBase]; omega)

theorem aperture_eq {x : Nat × W64} (hx : x ∈ lanes) :
    aperture s t x.2 (widthBytes w) = some (.part t.crew (off x.1)) := by
  have haddr := hin.toNat_addr hx
  obtain ⟨c, hcrew, _, _, hlanes⟩ := hin
  obtain ⟨_, _, hend, _⟩ := hlanes x hx
  have hfits : scratchBase + off x.1 - scratchBase + widthBytes w ≤ partSizeOf s t.crew := by
    rw [partSizeOf, hcrew, Nat.add_sub_cancel_left]
    exact hend
  rw [aperture, haddr, if_pos (Nat.le_add_right _ _), if_pos hfits, Nat.add_sub_cancel_left]

theorem checkPiece_eq {x : Nat × W64} (hx : x ∈ lanes) (write : Bool) (role : Nat) :
    checkPiece s t tid ⟨write, some role, widthBytes w, false, false⟩ x.1 x.2 x.2.toNat (widthBytes w) (.part t.crew (off x.1)) =
      (s, .ok (partPiece t.crew (widthBytes w) (off x.1) x)) := by
  have hwin := hin.windowsOf_eq
  obtain ⟨c, _, _, _, hlanes⟩ := hin
  obtain ⟨_, _, _, _, hring, hcount⟩ := hlanes x hx
  simp only [checkPiece, windowAt_of_noWindows hwin, hring, hcount, Bool.and_false, Bool.or_false, Bool.false_eq_true, if_false]

theorem checkLane_eq {x : Nat × W64} (hx : x ∈ lanes) (write : Bool) (role : Nat) :
    checkLane s t tid ⟨write, some role, widthBytes w, false, false⟩ x.1 x.2 (widthBytes w) =
      (s, .ok [partPiece t.crew (widthBytes w) (off x.1) x]) := by
  have hpiece := hin.checkPiece_eq (tid := tid) hx write role
  have haper := hin.aperture_eq hx
  have hal : x.2.toNat % widthBytes w = 0 := by
    rw [hin.toNat_addr hx]
    obtain ⟨c, _, _, _, hlanes⟩ := hin
    exact scratch_aligned w (hlanes x hx).2.1
  have hself : BitVec.ofNat 64 x.2.toNat = x.2 := by rw [BitVec.ofNat_toNat, BitVec.setWidth_eq]
  simp only [checkLane, haper, hal, Loc.isPart, Bool.not_true, Bool.and_false, Bool.false_and, Bool.false_eq_true, if_false, ne_eq,
    not_true_eq_false, List.foldl_cons, List.foldl_nil, hself, hpiece]
  rfl

theorem checkLanes_eq (write : Bool) (role : Nat) {ls : List (Nat × W64)} (hls : ∀ x ∈ ls, x ∈ lanes) :
    checkLanes s t tid ⟨write, some role, widthBytes w, false, false⟩ (widthBytes w) ls =
      (s, ls.map fun x => (x.1, x.2, .ok [partPiece t.crew (widthBytes w) (off x.1) x])) := by
  induction ls with
  | nil => rfl
  | cons x ls ih =>
    rw [checkLanes, hin.checkLane_eq (hls x List.mem_cons_self)]
    dsimp only
    rw [ih fun y hy => hls y (List.mem_cons_of_mem _ hy)]
    rfl

theorem watchLanes_eq (write : Bool) : watchLanes s t write (partLanes t.crew (widthBytes w) off lanes) = [] := by
  obtain ⟨c, hcrew, _, hdbg, _⟩ := hin
  rw [watchLanes, List.filterMap_map]
  refine List.filterMap_eq_nil_iff.mpr fun x _ => ?_
  have hmiss : watchHit s t write (partPiece t.crew (widthBytes w) (off x.1) x) = none := by
    simp only [watchHit, hcrew, hdbg]
    rfl
  simp only [Function.comp_apply, List.findSome?_cons, hmiss]
  rfl

end

end Sys2Proof.Spec.InScratchpad

namespace Sys2Proof.Laws

open Sys2Proof.Machine Sys2Proof.Spec

/-! ### Reads of the partition -/

section

variable {s : State} {t : Team} {cid n off : Nat} {x : Nat × W64}

theorem readPiece_part (hwin : windowsOf s cid = []) (hn : 0 < n) (hfits : n ≤ 64 - off % 64)
    (hclean : poisoned s (sectorOf (partKey cid off)) = false) (acq : Bool) : readPiece s t (partPiece cid n off x) acq =
      (s, .ok (memRead s (partKey cid off) n, 0, tagRead s (partKey cid off) n)) := by
  have hspan : spans (partKey cid off) n 3 = [(partKey cid off, n)] := spans_of_le hn (by rw [partKey_mod]; exact hfits) 1
  simp only [readPiece, settlePart_of_noWindows hwin, partStamp_of_noWindows hwin, hspan, List.any_cons, List.any_nil, hclean]
  rfl

theorem readLane_part (hwin : windowsOf s cid = []) (hn : 0 < n) (hfits : n ≤ 64 - off % 64)
    (hclean : poisoned s (sectorOf (partKey cid off)) = false) (acq page : Bool) :
    readLane s t acq page x.2 [partPiece cid n off x] =
      (s, .ok (memRead s (partKey cid off) n, maxW 0 0, maxW 0 (tagRead s (partKey cid off) n))) := by
  rw [readLane, show fillPieces s [partPiece cid n off x] = (s, none) from rfl]
  simp only [List.foldl_cons, List.foldl_nil, readPiece_part hwin hn hfits hclean]
  rfl

/-- The lanes read leave the state and fail nowhere. -/
theorem readLanes_part {off : Nat → Nat} {lanes : List (Nat × W64)} (hwin : windowsOf s cid = []) (hn : 0 < n)
    (hfits : ∀ x ∈ lanes, n ≤ 64 - off x.1 % 64)
    (hclean : ∀ x ∈ lanes, poisoned s (sectorOf (partKey cid (off x.1))) = false) (acq page : Bool) :
    ∃ rd, readLanes s t acq page (partLanes cid n off lanes) = (s, rd) ∧ rd.bad = [] ∧
      rd.got = lanes.map fun x => (x.1, memRead s (partKey cid (off x.1)) n) := by
  induction lanes with
  | nil => exact ⟨_, rfl, rfl, rfl⟩
  | cons x lanes ih =>
    obtain ⟨rd, hread, hbad, hgot⟩ := ih (fun y hy => hfits y (List.mem_cons_of_mem _ hy)) fun y hy => hclean y (List.mem_cons_of_mem _ hy)
    have hlane := readLane_part (t := t) (x := x) hwin hn (hfits x List.mem_cons_self) (hclean x List.mem_cons_self) acq page
    refine ⟨{ rd with
      got := (x.1, memRead s (partKey cid (off x.1)) n) :: rd.got, stamp := maxW (maxW 0 0) rd.stamp
      tag := maxW (maxW 0 (tagRead s (partKey cid (off x.1)) n)) rd.tag, stamps := (x.1, maxW 0 0) :: rd.stamps }, ?_, hbad, ?_⟩
    · rw [partLanes, List.map_cons, readLanes, hlane]
      dsimp only
      rw [hread]
    · rw [List.map_cons, ← hgot]

theorem dropMixed_part {off : Nat → Nat} {lanes : List (Nat × W64)} (hwin : windowsOf s cid = []) :
    dropMixed s t (partLanes cid n off lanes) = s := by
  have hlines : pieceLines s (partLanes cid n off lanes) = [] := by
    rw [pieceLines, List.flatMap_map]
    refine List.flatMap_eq_nil_iff.mpr fun x _ => ?_
    simp only [chunkKey, windowAt_of_noWindows hwin, List.flatMap_cons, List.flatMap_nil, List.append_nil]
  rw [dropMixed, hlines]
  rfl

end

/-! ### What the destination of a load holds -/

theorem foldl_enterElement_eq (d : Nat) (got : List (Nat × List Byte)) :
    (vLoadDest d got).v = (got.flatMap fun g => vBytes d g.1 g.2).foldl enterElement [] := List.foldl_flatMap.symm

/-- Where each lane's bytes are a function of the lane, each of its registers holds its four (spec/13 R258). -/
theorem tbGet_vLoadDest {d n l j : Nat} {bytes : Nat → List Byte} {ls : List Nat} (hlen : ∀ l ∈ ls, (bytes l).length = n)
    (hls : ∀ l ∈ ls, l < 1024) (hl : l ∈ ls) (hj : j < (n + 3) / 4) :
    tbGet (vLoadDest d (ls.map fun l => (l, bytes l))).v (vkey (d + j) l) =
      some (BitVec.ofNat 32 (leNat (((bytes l).drop (4 * j)).take 4))) := by
  have hmem {e m : Nat} {x : W32} : Wr.v e m x ∈ (ls.map fun l => (l, bytes l)).flatMap (fun g => vBytes d g.1 g.2) ↔
      m ∈ ls ∧ ∃ i < (n + 3) / 4, e = d + i ∧ x = BitVec.ofNat 32 (leNat (((bytes m).drop (4 * i)).take 4)) := by
    simp only [List.mem_flatMap, List.mem_map, vBytes, List.mem_range]
    constructor
    · rintro ⟨_, ⟨m', hm', rfl⟩, i, hi, h⟩
      obtain ⟨rfl, rfl, rfl⟩ := Wr.v.inj h
      exact ⟨hm', i, hlen m' hm' ▸ hi, rfl, rfl⟩
    · rintro ⟨hm, i, hi, rfl, rfl⟩
      exact ⟨_, ⟨m, hm, rfl⟩, i, (hlen m hm).symm ▸ hi, rfl⟩
  rw [foldl_enterElement_eq]
  have hsome := isSome_tbGet_foldl_enterElement (m := []) (.inr ⟨d + j, l, _, rfl, hmem.mpr ⟨hl, j, hj, rfl, rfl⟩⟩)
  obtain ⟨y, hy⟩ := Option.isSome_iff_exists.mp hsome
  rw [hy]
  obtain ⟨e, m, hkey, hw⟩ := (of_tbGet_foldl_enterElement hy).resolve_left (by simp [tbGet])
  obtain ⟨hm, i, _, rfl, rfl⟩ := hmem.mp hw
  obtain ⟨he, rfl⟩ := (vkey_inj (hls m hm) (hls l hl)).mp hkey
  obtain rfl : j = i := by omega
  rfl

/-! ### What ordering leaves -/

/-- The order S changes the floors of its team only (spec/19 R379). -/
theorem scState_frame (order : Order) (s : State) (tid : Nat) : ∃ ts fl, scState order s tid = { s with teams := ts, scFloor := fl } := by
  rw [scState, enterS]
  repeat' split
  all_goals exact ⟨_, _, rfl⟩

section

variable {order : Order} {scope : Scope} {s : State} {tid : Nat} {t : Team} {x : State × Reads}

@[simp] theorem scState_mem : (scState order s tid).mem = s.mem := by obtain ⟨_, _, h⟩ := scState_frame order s tid; rw [h]

@[simp] theorem scState_crews : (scState order s tid).crews = s.crews := by obtain ⟨_, _, h⟩ := scState_frame order s tid; rw [h]

@[simp] theorem scState_poison : (scState order s tid).poison = s.poison := by obtain ⟨_, _, h⟩ := scState_frame order s tid; rw [h]

@[simp] theorem scState_nextId : (scState order s tid).nextId = s.nextId := by obtain ⟨_, _, h⟩ := scState_frame order s tid; rw [h]

/-- What follows a load's reads changes the order S and an L1 only. -/
theorem afterReads_frame (order : Order) (scope : Scope) (t : Team) (x : State × Reads) :
    ∃ cs fl, afterReads order scope t x = { x.1 with cores := cs, scFloor := fl } := by
  rw [afterReads]
  repeat' split
  all_goals exact ⟨_, _, rfl⟩

@[simp] theorem afterReads_mem : (afterReads order scope t x).mem = x.1.mem := by
  obtain ⟨_, _, h⟩ := afterReads_frame order scope t x; rw [h]

@[simp] theorem afterReads_nextId : (afterReads order scope t x).nextId = x.1.nextId := by
  obtain ⟨_, _, h⟩ := afterReads_frame order scope t x; rw [h]

end

end Sys2Proof.Laws

namespace Sys2Proof.Proofs.Scratchpad

open Sys2Proof.Machine Sys2Proof.Spec Sys2Proof.Laws

/-! ### Loads -/

/-- The registers of a width hold its bytes. -/
theorem widthRegs_eq (w : Width) : widthRegs w = (widthBytes w + 3) / 4 := by cases w <;> rfl

/-- The bytes of one register among those read. -/
theorem memRead_register (s : State) (key n j : Nat) :
    ((memRead s key n).drop (4 * j)).take 4 = memRead s (key + 4 * j) (min 4 (n - 4 * j)) := by
  by_cases hj : 4 * j ≤ n
  · rw [List.take_eq_take_min, List.length_drop, memRead_length, memRead_drop_take _ _ _ _ _ (by omega)]
  · rw [List.drop_eq_nil_of_le (by rw [memRead_length]; omega), Nat.sub_eq_zero_of_le (by omega)]
    rfl

/-- A lane of a vector access is an active one. -/
theorem lt_of_mem_memLanes {r : Team} {k a b : Nat} {nv u : Bool} {x : Nat × W64} (hx : x ∈ memLanes r k a b nv u) : x.1 < 1024 := by
  obtain ⟨l, hl, rfl⟩ := List.mem_map.mp hx
  exact active_lt hl

/-- The lanes of a load from the partition: what they read is in an operation in flight, and memory is as it was. -/
theorem loadAct_part {s : State} {tid : Nat} {t : Team} {o : MemOp} {off : Nat → Nat} {lanes : List (Nat × W64)} (i : Instr)
    (hl : lanes ≠ []) (hd : isRel o.order = true → mustDrain s tid = false)
    (hin : InScratchpad s t lanes (widthBytes o.width) off)
    (hclean : ∀ x ∈ lanes, poisoned s (sectorOf (partKey t.crew (off x.1))) = false) (dest : List (Nat × List Byte) → Dest) :
    ∃ s1 op, loadAct i t tid s lanes (widthBytes o.width) (ldAcc o.width) none o.order o.scope false dest =
        (if isAcq o.order then .hold s1 s.nextId else .go s1) ∧
      tbGet s1.ops s.nextId = some op ∧ op.kind = .load ∧ op.team = tid ∧ op.late = none ∧ s1.mem = s.mem ∧
      op.dest = dest (lanes.map fun x => (x.1, memRead s (partKey t.crew (off x.1)) (widthBytes o.width))) := by
  have hchecks := hin.checkLanes_eq (tid := tid) false 0 fun _ hx => hx
  have hwin : windowsOf (scState o.order s tid) t.crew = [] := by rw [windowsOf, scState_crews]; exact hin.windowsOf_eq
  have hfits : ∀ x ∈ lanes, widthBytes o.width ≤ 64 - off x.1 % 64 := fun x hx => by
    obtain ⟨c, _, _, _, hlanes⟩ := hin
    exact width_fits o.width (hlanes x hx).2.1
  have hclean' : ∀ x ∈ lanes, poisoned (scState o.order s tid) (sectorOf (partKey t.crew (off x.1))) = false := fun x hx => by
    rw [poisoned, scState_poison]
    exact hclean x hx
  obtain ⟨rd, hread, hbad, hgot⟩ := readLanes_part (t := t) hwin (widthBytes_pos o.width) hfits hclean' (isAcq o.order) false
  simp only [memRead_congr (scState_mem (order := o.order) (s := s) (tid := tid))] at hgot
  have hact := loadAct_reads (i := i) (once := none) (scope := o.scope) (page := false) (dest := dest) hl hd hchecks
    (failures_ok _ _ _ _) (by rw [passed_ok]; exact hin.watchLanes_eq false)
  simp only [passed_ok, dropMixed_part hwin, hread, afterReads_nextId, scState_nextId] at hact
  generalize hs2 : afterReads o.order o.scope t (scState o.order s tid, rd) = s2 at hact
  generalize hop : readOp i t tid none o.order false dest (partLanes t.crew (widthBytes o.width) off lanes) s s2 rd = op at hact
  have hops : tbGet (launchOp s2 tid op).ops s.nextId = some op := by
    rw [← hs2, ← scState_nextId (order := o.order) (s := s) (tid := tid), ← afterReads_nextId (x := (scState o.order s tid, rd))]
    exact tbGet_tbSet_self _ _ _
  have hmem : s2.mem = s.mem := by rw [← hs2, afterReads_mem, scState_mem]
  have hop' : op.kind = .load ∧ op.team = tid ∧ op.late = none ∧
      op.dest = dest (lanes.map fun x => (x.1, memRead s (partKey t.crew (off x.1)) (widthBytes o.width))) := by
    rw [← hop, readOp, hbad, hgot]
    exact ⟨rfl, rfl, rfl, rfl⟩
  obtain ⟨hkind, hteam, hlate, hdest⟩ := hop'
  cases hacq : isAcq o.order with
  | true =>
    rw [hacq] at hact
    exact ⟨_, op, hact, hops, hkind, hteam, hlate, hmem, hdest⟩
  | false =>
    rw [hacq] at hact
    exact ⟨_, op, hact, hops, hkind, hteam, hlate, hmem, hdest⟩

/-- Settles O24: what the lanes read, then which registers of the destination hold it. -/
theorem scratchpadLoadReadsItsBytes : Obligations.ScratchpadLoadReadsItsBytes := by
  unfold Obligations.ScratchpadLoadReadsItsBytes
  intro s tid t o off r n lanes h hd hl hin hclean
  obtain ⟨s1, op, hact, hops, hkind, hteam, hlate, hmem, hdest⟩ := loadAct_part (.ld o) hl hd hin hclean (vLoadDest o.d)
  refine ⟨s1, op, ?_, hops, hkind, hteam, hlate, hmem, fun x hx j hj => ?_⟩
  · cases hacq : isAcq o.order with
    | true => rw [hacq] at hact; exact hold_of h hact
    | false => rw [hacq] at hact; exact go_of h hact
  · rw [widthRegs_eq] at hj
    have hget := tbGet_vLoadDest (d := o.d) (ls := lanes.map (·.1)) (bytes := fun l => memRead s (partKey t.crew (off l)) n)
      (fun _ _ => memRead_length _ _ _) (fun l hl => ?_) (List.mem_map_of_mem hx) hj
    · rw [List.map_map] at hget
      rw [hdest, ← memRead_register]
      exact hget
    · obtain ⟨y, hy, rfl⟩ := List.mem_map.mp hl
      exact lt_of_mem_memLanes hy

end Sys2Proof.Proofs.Scratchpad
end

section
/-! O23: a store to the team's own partition, byte by byte (spec/13 R258, R261, R262). The runs of a lane's bytes that no higher lane writes are
written one after the other; so a byte comes from the last lane that covers it. -/

namespace Sys2Proof.Laws

open Sys2Proof.Machine Sys2Proof.Spec

/-! ### Bytes of numbers -/

theorem getD_take_drop {α : Type} (l : List α) (d : α) {a m i : Nat} (hi : i < m) : ((l.drop a).take m).getD i d = l.getD (a + i) d := by
  rw [List.getD_eq_getElem?_getD, List.getD_eq_getElem?_getD, List.getElem?_take, if_pos hi, List.getElem?_drop]

theorem getD_leBytes (n v : Nat) {i : Nat} (hi : i < n) : (leBytes n v).getD i 0 = BitVec.ofNat 8 (v / 256 ^ i) := by
  induction n generalizing v i with
  | zero => omega
  | succ n ih =>
    cases i with
    | zero => rw [leBytes, List.getD_cons_zero, Nat.pow_zero, Nat.div_one]
    | succ i => rw [leBytes, List.getD_cons_succ, ih _ (by omega), Nat.div_div_eq_div_mul, Nat.pow_succ']

/-- An entry of blocks of one length, laid one behind the other. -/
theorem getD_flatMap_blocks {α : Type} (f : Nat → List α) (d : α) {c m b : Nat} (hf : ∀ j, (f j).length = c) (hb : b < c * m) :
    ((List.range m).flatMap f).getD b d = (f (b / c)).getD (b % c) d := by
  induction m with
  | zero => omega
  | succ m ih =>
    have hlen : ((List.range m).flatMap f).length = c * m := by simp [hf, Nat.mul_comm]
    rw [List.range_succ, List.flatMap_append, List.flatMap_singleton]
    by_cases hlt : b < c * m
    · rw [List.getD_append _ _ _ _ (by omega), ih hlt]
    · obtain ⟨e, rfl⟩ := Nat.exists_eq_add_of_le (Nat.not_lt.mp hlt)
      rw [Nat.mul_succ] at hb
      have he : e < c := by omega
      rw [List.getD_append_right _ _ _ _ (by omega), hlen, Nat.add_sub_cancel_left, Nat.mul_add_div (by omega), Nat.div_eq_of_lt he,
        Nat.mul_add_mod, Nat.mod_eq_of_lt he, Nat.add_zero]

/-! ### Runs -/

theorem mem_runsOf (l : List Nat) (i : Nat) : (∃ r ∈ runsOf l, r.1 ≤ i ∧ i < r.1 + r.2) ↔ i ∈ l := by
  induction l with
  | nil => simp [runsOf]
  | cons h l ih =>
    rw [List.mem_cons, ← ih, runsOf]
    cases runsOf l with
    | nil =>
      simp only [List.mem_singleton, exists_eq_left, List.not_mem_nil, false_and, exists_false, or_false]
      omega
    | cons r rs =>
      obtain ⟨j, m⟩ := r
      dsimp only
      split
      · simp only [List.exists_mem_cons_iff]
        rw [← or_assoc]
        refine or_congr_left ?_
        omega
      · simp only [List.exists_mem_cons_iff]
        refine or_congr_left ?_
        omega

/-- What no higher lane's piece covers of `n` bytes from a key. -/
theorem mem_ownRuns (k n : Nat) (higher : List (Nat × Piece)) (i : Nat) : (∃ r ∈ ownRuns k n higher, r.1 ≤ i ∧ i < r.1 + r.2) ↔
    i < n ∧ ∀ q ∈ higher, ¬(q.1 ≤ k + i ∧ k + i < q.1 + q.2.n) := by
  rw [ownRuns, mem_runsOf, List.mem_filter, List.mem_range]
  refine and_congr_right fun hi => ?_
  simp only [Bool.not_eq_true', List.any_eq_false, decide_eq_true_eq, List.mem_filter]
  exact ⟨fun h q hq hin => h q ⟨hq, by omega⟩ hin, fun h q hq => h q hq.1⟩

/-! ### Writes of the partition -/

section

variable {s : State} {t : Team} {cid n off : Nat} {x : Nat × W64}

theorem writePiece_part (hwin : windowsOf s cid = []) (a m : Nat) (data : List Byte) (w : Writer) :
    writePiece s t (subPiece (partPiece cid n off x) a m) data w =
      putPart s cid (off + a) data (afterBlocks s (subPiece (partPiece cid n off x) a m) w) :=
  writePart_of_noWindows hwin _ _ _

@[simp] theorem tagWrite_crews (k : Nat) (fl : W64) (m : Nat) : (tagWrite s k fl m).crews = s.crews := by
  induction m generalizing s k with
  | zero => rfl
  | succ m ih => rw [tagWrite, ih]

@[simp] theorem putPart_crews (data : List Byte) (w : Writer) : (putPart s cid off data w).crews = s.crews := by
  rw [putPart, tagWrite_crews, memWrite_crews]

/-- One run written: its bytes are the lane's, and every other byte is as it was. -/
theorem writePiece_part_spec {bs : List Byte} (hlen : bs.length = n) (w : Writer) (r : Nat × Nat) (hwin : windowsOf s cid = [])
    (hwf : Memory.wf s.mem = true) :
    let s' := writePiece s t (subPiece (partPiece cid n off x) r.1 r.2) ((bs.drop r.1).take r.2) w
    windowsOf s' cid = [] ∧ Memory.wf s'.mem = true ∧ ∀ k, memGet s' k =
      if partKey cid off + r.1 ≤ k ∧ k < partKey cid off + r.1 + r.2 ∧ k < partKey cid off + n
        then bs.getD (k - partKey cid off) 0 else memGet s k := by
  intro s'
  have hs' : s' = _ := writePiece_part hwin _ _ _ _
  have hmem : s'.mem = (memWrite s (partKey cid (off + r.1)) ((bs.drop r.1).take r.2)).mem := by rw [hs', putPart_mem]
  refine ⟨by rw [windowsOf, hs', putPart_crews]; exact hwin, by rw [hmem]; exact memWrite_wf _ _ hwf, fun k => ?_⟩
  have hkey : partKey cid (off + r.1) = partKey cid off + r.1 := (Nat.add_assoc _ _ _).symm
  rw [show memGet s' k = memGet (memWrite s _ _) k from congrArg (smGet 0 · k) hmem, memGet_memWrite _ _ _ hwf, hkey, List.length_take,
    List.length_drop, hlen]
  by_cases hk : partKey cid off + r.1 ≤ k ∧ k < partKey cid off + r.1 + r.2 ∧ k < partKey cid off + n
  · rw [if_pos hk, if_pos (by omega), getD_take_drop _ _ (by omega)]
    congr 1
    omega
  · rw [if_neg hk, if_neg (by omega)]

/-- The runs written one after the other. -/
theorem writeRuns_spec {bs : List Byte} (hlen : bs.length = n) (w : Writer) (rs : List (Nat × Nat)) (hwin : windowsOf s cid = [])
    (hwf : Memory.wf s.mem = true) :
    let s' := rs.foldl (fun s r => writePiece s t (subPiece (partPiece cid n off x) r.1 r.2) ((bs.drop r.1).take r.2) w) s
    windowsOf s' cid = [] ∧ Memory.wf s'.mem = true ∧ ∀ k, memGet s' k =
      if ∃ r ∈ rs, partKey cid off + r.1 ≤ k ∧ k < partKey cid off + r.1 + r.2 ∧ k < partKey cid off + n
        then bs.getD (k - partKey cid off) 0 else memGet s k := by
  induction rs generalizing s with
  | nil => exact ⟨hwin, hwf, fun k => (if_neg (by simp)).symm⟩
  | cons r rs ih =>
    obtain ⟨hwin1, hwf1, hget1⟩ := writePiece_part_spec (off := off) (x := x) hlen w r hwin hwf
    obtain ⟨hwin', hwf', hget'⟩ := ih hwin1 hwf1
    refine ⟨hwin', hwf', fun k => (hget' k).trans ?_⟩
    rw [hget1 k]
    simp only [List.exists_mem_cons_iff]
    split
    · next h => rw [if_pos (.inr h)]
    · next h => simp only [h, or_false]

/-! ### The lanes of a store -/

/-- The keyed lanes of a store in the partition. -/
abbrev partKeyed (cid n : Nat) (off : Nat → Nat) (lanes : List (Nat × W64)) : List (Nat × W64 × List (Nat × Piece)) :=
  lanes.map fun x => (x.1, x.2, [(partKey cid (off x.1), partPiece cid n (off x.1) x)])

theorem keyed_part {off : Nat → Nat} (hwin : windowsOf s cid = []) (lanes : List (Nat × W64)) :
    keyed s (partLanes cid n off lanes) = partKeyed cid n off lanes := by
  rw [keyed, List.map_map]
  refine List.map_congr_left fun x _ => ?_
  simp only [Function.comp_apply, List.map_cons, List.map_nil, pieceKey, chunkKey, windowAt_of_noWindows hwin, Option.getD_none]

/-- No lane waits for a fill. -/
theorem fillLanes_part {off : Nat → Nat} (lanes : List (Nat × W64)) :
    fillLanes (partLanes cid n off lanes) s = (s, partLanes cid n off lanes, []) := by
  induction lanes with
  | nil => rfl
  | cons x lanes ih =>
    rw [partLanes, List.map_cons, fillLanes, show fillPieces s [partPiece cid n (off x.1) x] = (s, none) from rfl]
    dsimp only
    rw [ih]

/-- Whether a lane of an access of `n` bytes in the partition covers a location. -/
def covers (cid n : Nat) (off : Nat → Nat) (k : Nat) (x : Nat × W64) : Bool :=
  decide (partKey cid (off x.1) ≤ k ∧ k < partKey cid (off x.1) + n)

/-- A location that no higher lane covers lies in a lane's own runs exactly if the lane covers it. -/
theorem ownRuns_part {off : Nat → Nat} {k : Nat} {lanes : List (Nat × W64)} (hnone : ∀ y ∈ lanes, ¬ covers cid n off k y = true) :
    (∃ r ∈ ownRuns (partKey cid (off x.1)) n ((partKeyed cid n off lanes).flatMap fun x => x.2.2),
      partKey cid (off x.1) + r.1 ≤ k ∧ k < partKey cid (off x.1) + r.1 + r.2 ∧ k < partKey cid (off x.1) + n) ↔
      covers cid n off k x = true := by
  rw [covers, decide_eq_true_eq]
  constructor
  · rintro ⟨r, _, h⟩
    omega
  · rintro ⟨hlo, hhi⟩
    obtain ⟨i, rfl⟩ := Nat.exists_eq_add_of_le hlo
    have hown := (mem_ownRuns (partKey cid (off x.1)) n ((partKeyed cid n off lanes).flatMap fun x => x.2.2) i).mpr
      ⟨by omega, fun q hq hin => ?_⟩
    · obtain ⟨r, hr, h⟩ := hown
      exact ⟨r, hr, by omega⟩
    · obtain ⟨_, hkeyed, hq⟩ := List.mem_flatMap.mp hq
      obtain ⟨y, hy, rfl⟩ := List.mem_map.mp hkeyed
      obtain rfl := List.mem_singleton.mp hq
      exact hnone y hy (decide_eq_true hin)

/-- Each byte after the lanes are written is that of the last lane that covers it, or what it was (spec/13 R261). -/
theorem putLanes_spec {off : Nat → Nat} {i : Instr} {id : Nat} {data : Nat → List Byte} (hlen : ∀ l, (data l).length = n)
    (lanes : List (Nat × W64)) (hwin : windowsOf s cid = []) (hwf : Memory.wf s.mem = true) (k : Nat) :
    memGet (putLanes i id t data (partKeyed cid n off lanes) s) k = ((lanes.filter (covers cid n off k)).getLast?).elim (memGet s k)
      fun x => (data x.1).getD (k - partKey cid (off x.1)) 0 := by
  induction lanes generalizing s with
  | nil => rfl
  | cons x lanes ih =>
    obtain ⟨hwin1, hwf1, hget1⟩ := writeRuns_spec (off := off x.1) (x := x) (hlen x.1)
      (teamWriter s t (some id) (some (storeEntry i t x.1 x.2 (data x.1))))
      (ownRuns (partKey cid (off x.1)) n ((partKeyed cid n off lanes).flatMap fun x => x.2.2)) hwin hwf
    rw [partKeyed, List.map_cons, putLanes]
    simp only [List.foldl_cons, List.foldl_nil]
    rw [ih hwin1 hwf1, List.filter_cons]
    cases hlast : (lanes.filter (covers cid n off k)).getLast? with
    | some y =>
      split
      · rw [List.getLast?_cons, hlast]
        rfl
      · rw [hlast]
        rfl
    | none =>
      have hnil := List.getLast?_eq_none_iff.mp hlast
      rw [hnil, Option.elim_none, hget1 k]
      simp only [ownRuns_part (List.filter_eq_nil_iff.mp hnil)]
      split <;> rfl

end

end Sys2Proof.Laws

namespace Sys2Proof.Proofs.Scratchpad

open Sys2Proof.Machine Sys2Proof.Spec Sys2Proof.Laws

/-! ### Stores -/

theorem vData_length (r : Team) (d l n : Nat) : (vData r d l n).length = n := by
  simp only [vData, List.length_take, List.length_flatMap, leBytes_length, List.map_const', List.length_range, List.sum_replicate,
    smul_eq_mul]
  omega

/-- Byte `b` of a lane's data is that of the register it lies in (spec/13 R258). -/
theorem getD_vData (r : Team) (d l : Nat) {n b : Nat} (hb : b < n) :
    (vData r d l n).getD b 0 = BitVec.ofNat 8 ((vget r (d + b / 4) l).toNat / 256 ^ (b % 4)) := by
  have htake := getD_take_drop ((List.range ((n + 3) / 4)).flatMap fun j => leBytes 4 (vget r (d + j) l).toNat) (0 : Byte) (a := 0) hb
  rw [List.drop_zero, Nat.zero_add] at htake
  rw [vData, htake, getD_flatMap_blocks _ _ (fun j => leBytes_length 4 _) (by omega), getD_leBytes _ _ (Nat.mod_lt _ (by decide))]

/-- A store to the partition: memory afterwards is that after its lanes are written. -/
theorem storeAct_part {s : State} {tid : Nat} {t : Team} {o : MemOp} {off : Nat → Nat} {lanes : List (Nat × W64)} (i : Instr)
    (hl : lanes ≠ []) (hd : isRel o.order = true → mustDrain s tid = false) (hin : InScratchpad s t lanes (widthBytes o.width) off)
    (hwf : Memory.wf s.mem = true) (data : Nat → List Byte) (hlen : ∀ l, (data l).length = widthBytes o.width) :
    ∃ s1, storeAct i t tid s lanes (widthBytes o.width) (stAcc o.width) none o.order o.scope data = .go s1 ∧ ∀ k, memGet s1 k =
      ((lanes.filter (covers t.crew (widthBytes o.width) off k)).getLast?).elim (memGet s k)
        fun x => (data x.1).getD (k - partKey t.crew (off x.1)) 0 := by
  have hact := storeAct_writes (i := i) (once := none) (scope := o.scope) (data := data) hl hd
    (hin.checkLanes_eq (tid := tid) true 1 fun _ hx => hx) (failures_ok _ _ _ _) (by rw [passed_ok]; exact hin.watchLanes_eq true)
  refine ⟨_, hact, fun k => ?_⟩
  rw [passed_ok, written]
  generalize hs2 : launchOp (scState o.order s tid) tid
    (storeOp i t tid none o.order (partLanes t.crew (widthBytes o.width) off lanes) s) = s2
  have hmem : s2.mem = s.mem := by rw [← hs2]; exact scState_mem
  have hwin : windowsOf s2 t.crew = [] := by
    have hcrews : s2.crews = s.crews := by rw [← hs2]; exact scState_crews
    rw [windowsOf, hcrews]
    exact hin.windowsOf_eq
  have hput := putLanes_spec (i := i) (id := s.nextId) (t := scTeam o.order s t) (off := off) hlen lanes hwin (by rw [hmem]; exact hwf) k
  rw [show memGet s2 k = memGet s k from congrArg (smGet 0 · k) hmem] at hput
  rw [← hput, writeLanes, fillLanes_part]
  dsimp only
  rw [keyed_part hwin]
  split <;> rfl

/-- Settles O23: the lanes are written, and the data of a lane is its registers' bytes. -/
theorem scratchpadStoreWritesItsBytes : Obligations.ScratchpadStoreWritesItsBytes := by
  unfold Obligations.ScratchpadStoreWritesItsBytes
  intro s tid t o off r n lanes h hwf hd hl hin
  obtain ⟨s1, hact, hget⟩ := storeAct_part (.st o) hl hd hin hwf (fun l => vData r o.d l n) fun l => vData_length r o.d l n
  refine ⟨s1, go_of h hact, fun k => ?_⟩
  dsimp only
  rw [hget k, show (fun x : Nat × W64 => decide (partKey t.crew (off x.1) ≤ k ∧ k < partKey t.crew (off x.1) + n)) =
    covers t.crew n off k from rfl]
  cases hlast : (lanes.filter (covers t.crew n off k)).getLast? with
  | none => rfl
  | some x =>
    have hcov : covers t.crew n off k x = true := (List.mem_filter.mp (List.mem_of_getLast? hlast)).2
    rw [covers, decide_eq_true_eq] at hcov
    exact getD_vData r o.d x.1 (by omega)

end Sys2Proof.Proofs.Scratchpad
end

section
/-! O38: the engine commands at issue (spec/15 R314-R333). `issueCmd`, where every command whose checks have passed ends, has its two cases
once; then each instruction's checks are followed to it. -/

namespace Sys2Proof.Proofs.EngineIssue

open Sys2Proof.Machine Sys2Proof.Spec Sys2Proof.Laws

/-! ### Into the queue -/

section

variable {i : Instr} {s s1 : State} {tid : Nat} {t : Team} {kind : CmdKind} {record : Option W64} {seen : W64}

theorem issueCmd_full (h : engineCap (engineOf kind) ≤ engineLoad s t.home (engineOf kind)) :
    issueCmd i s t tid kind record seen = .wait s (.engine (engineOf kind)) := if_pos h

/-- An instruction that has come to `issueCmd` waits while its queue is full, and else puts its command there (spec/15 R314). -/
theorem engineQueues_of (he : exec i s = .next (applyAct s tid (wordsOf i) t (issueCmd i s1 t tid kind record seen))) :
    EngineQueues i s s1 tid t kind record seen := by
  refine ⟨fun hfull => ?full, fun hroom => ?room⟩
  case full => rw [Blocks, he, issueCmd_full hfull]; rfl
  case room =>
    rw [Completes, he, issueCmd, if_neg (Nat.not_le.mpr hroom)]
    cases engineOf kind <;> rfl

end

/-! ### Copies -/

section

variable {s s1 : State} {tid : Nat} {t r : Team} {i : Instr} {o : CpOp} {dir : Nat} {frame : Bool}

theorem copyAct_noDescriptor (h : partRange s t (sget r o.d) 128 = none) :
    copyAct i o dir frame r t tid s = .fault s (fltAt .apertureBounds t.live (sget r o.d) 0) := by
  simp only [copyAct, h]
  rfl

/-- The checks of R321 that do not speak of the tile, after the descriptor's bytes `desc` are read in `s1`: the bitmap's place, the
alignments, the descriptor's form, the privilege, then what the bitmap and the record may not touch. -/
structure CopyChecks (s1 : State) (t r : Team) (o : CpOp) (frame : Bool) (desc : List Byte) (bc boff : Nat) : Prop where
  bitmap : partRange s1 t (sget r o.b) (bitmapSpan (descT desc)) = some (bc, boff)
  descriptorAligned : (sget r o.d).toNat % 8 = 0
  tileAligned : (sget r o.a).toNat % 64 = 0
  bitmapAligned : (sget r o.b).toNat % 16 = 0
  wellFormed : copyDescOk desc o.swap = true
  allowed : frame = true ∨ decide (leNat ((desc.drop 8).take 8) / 256 % 2 = 1) = true → t.priv = true
  bitmapOffRings : inRing s1 bc boff (bitmapLen (descT desc)) = false
  recordOffRings : inRing s1 bc (boff + (bitmapSpan (descT desc) - 16)) 16 = false
  bitmapOffCounters : wordsTouch s1 bc boff (bitmapLen (descT desc) / 8) = false
  recordOffCounters : partTouches s1 bc (boff + (bitmapSpan (descT desc) - 16)) 16 = false

/-- The privilege check passes. -/
theorem CopyChecks.privileged {desc : List Byte} {bc boff : Nat} (h : CopyChecks s1 t r o frame desc bc boff) :
    ((frame || leNat ((desc.drop 8).take 8) / 256 % 2 == 1) && !t.priv) = false := by
  by_contra hne
  simp only [Bool.not_eq_false, Bool.and_eq_true, Bool.or_eq_true, beq_iff_eq, Bool.not_eq_true'] at hne
  obtain ⟨hneeds, hnot⟩ := hne
  exact Bool.false_ne_true (hnot.symm.trans (h.allowed (by simpa using hneeds)))

variable {dc doff bc boff : Nat} {desc : List Byte} (hdesc : partRange s t (sget r o.d) 128 = some (dc, doff))
  (hread : engineRead s t.ctx (teamHub t) dc doff 128 = (s1, .ok desc))
include hdesc hread

/-- A copy whose tile is in a partition: the tile lies clear of the bitmap, and one that is written of rings, stash windows and counters. -/
theorem copyAct_tile (h : CopyChecks s1 t r o false desc bc boff) {tc toff : Nat}
    (htile : partRange s1 t (sget r o.a) (descT desc) = some (tc, toff))
    (hclear : ¬(tc = bc ∧ toff < boff + bitmapSpan (descT desc) ∧ boff < toff + descT desc))
    (hwritten : dir = 0 → inRing s1 tc toff (descT desc) = false ∧ inWindow s1 tc toff (descT desc) = false ∧
      touchesCounter s1 (partKey tc toff) (descT desc) = false) :
    copyAct i o dir false r t tid s = issueCmd i s1 t tid (.copy (copyOf desc dir false o.swap (partKey tc toff) bc (partKey bc boff)
      (partKey bc boff + (bitmapSpan (descT desc) - 16)))) none (partStamp s1 dc doff 128) := by
  have hpriv := h.privileged
  have hoverlap : (tc == bc && decide (toff < boff + bitmapSpan (descT desc) ∧ boff < toff + descT desc)) = false := by
    simpa using hclear
  have hring : (dir == 0 && inRing s1 tc toff (descT desc)) = false := by simpa using fun hd => (hwritten hd).1
  have hwindow : (dir == 0 && inWindow s1 tc toff (descT desc)) = false := by simpa using fun hd => (hwritten hd).2.1
  have hcounter : (dir == 0 && touchesCounter s1 (partKey tc toff) (descT desc)) = false := by
    simpa using fun hd => (hwritten hd).2.2
  simp only [copyAct, hdesc, hread, htile, h.bitmap, h.descriptorAligned, h.tileAligned, h.bitmapAligned, h.wellFormed, hoverlap, hpriv,
    hring, h.bitmapOffRings, h.recordOffRings, hwindow, hcounter, h.bitmapOffCounters, h.recordOffCounters, Option.map_some,
    Bool.false_eq_true, if_false, ne_eq, not_true, Bool.not_true, Bool.or_false]

/-- A copy with FRAME: the tile lies in one physical window, not the thirteenth, and one that is written is clear of counters. -/
theorem copyAct_frame (h : CopyChecks s1 t r o true desc bc boff) {w : Nat} (hfirst : windowOf s1 (sget r o.a).toNat = some w)
    (hlast : windowOf s1 ((sget r o.a).toNat + descT desc - 1) = some w) (hw : w ≠ 13)
    (hwritten : dir = 0 → paTouchesCounter s1 (sget r o.a).toNat (descT desc) = false) :
    copyAct i o dir true r t tid s = issueCmd i s1 t tid (.copy (copyOf desc dir true o.swap (sget r o.a).toNat bc (partKey bc boff)
      (partKey bc boff + (bitmapSpan (descT desc) - 16)))) none (partStamp s1 dc doff 128) := by
  have hpriv := h.privileged
  have hcounter : (dir == 0 && paTouchesCounter s1 (sget r o.a).toNat (descT desc)) = false := by simpa using hwritten
  simp only [copyAct, hdesc, hread, hfirst, hlast, h.bitmap, h.descriptorAligned, h.tileAligned, h.bitmapAligned, h.wellFormed, hpriv, hw,
    h.bitmapOffRings, h.recordOffRings, hcounter, h.bitmapOffCounters, h.recordOffCounters, and_self, not_false_iff,
    Bool.false_eq_true, if_true, if_false, ne_eq, not_true, Bool.not_true, Bool.or_false, Bool.and_false]

end

/-- One argument for the three instructions, which differ in their direction and in whether they take FRAME. -/
theorem copiesIssue : Spec.CopiesIssue := by
  intro s tid t o r dva tva bva copy
  have hcopy (i : Instr) (dir : Nat) (frame : Bool)
      (he : CanIssue s tid t i → exec i s = .next (applyAct s tid (wordsOf i) t (copyAct i o dir frame r t tid s))) :
      copy i dir frame := by
    intro hi
    refine ⟨fun hnone => ?outside, ?queued⟩
    case outside => rw [Faults, he hi, copyAct_noDescriptor hnone]; rfl
    case queued =>
      intro dc doff s1 desc hdesc hread T span phys bc boff hb hd8 ht64 hb16 hok hpriv hr1 hr2 hc1 hc2 queued
      have hchecks : CopyChecks s1 t r o frame desc bc boff := ⟨hb, hd8, ht64, hb16, hok, hpriv, hr1, hr2, hc1, hc2⟩
      refine ⟨fun hf tc toff htile hclear hwritten => ?tile, fun hf w hfirst hlast hw hwritten => ?frame⟩
      case tile => subst hf; exact engineQueues_of (copyAct_tile hdesc hread hchecks htile hclear hwritten ▸ he hi)
      case frame => subst hf; exact engineQueues_of (copyAct_frame hdesc hread hchecks hfirst hlast hw hwritten ▸ he hi)
  exact ⟨fun frame => hcopy _ 0 frame fun hi => issue_go hi _, hcopy _ 1 false fun hi => issue_go hi _,
    hcopy _ 2 false fun hi => issue_go hi _⟩

/-! ### Quantising commands -/

section

variable {s : State} {tid : Nat} {t : Team} {i : Instr}

/-- A command after the checks of R328 or R330, which answer a fault or what the command is made from. -/
theorem checked_issues {α : Type} {chk : Except Flt α} {kind : α → CmdKind} {act : Act}
    (he : exec i s = .next (applyAct s tid (wordsOf i) t act))
    (hfault : ∀ f, chk = .error f → act = .fault s f) (hok : ∀ x, chk = .ok x → act = issueCmd i s t tid (kind x) none 0) :
    (∀ f, chk = .error f → Faults i s tid t s f) ∧ (∀ x, chk = .ok x → EngineQueues i s s tid t (kind x) none 0) := by
  refine ⟨fun f hf => ?_, fun x hx => engineQueues_of (hok x hx ▸ he)⟩
  rw [Faults, he, hfault f hf]
  rfl

end

section

variable {s : State} {tid : Nat} {t : Team} {k fs d a : Nat}

/-- QLOAD and QSAVE differ in the command they make. -/
theorem qload_issues {q : Nat} (hi : CanIssue s tid t (.qload k fs a q)) :
    (∀ f, qmoveCheck s t (sget (viewOf s tid t) a) = .error f → Faults (.qload k fs a q) s tid t s f) ∧
    (∀ key, qmoveCheck s t (sget (viewOf s tid t) a) = .ok key →
      EngineQueues (.qload k fs a q) s s tid t (.qload q key) none 0) :=
  checked_issues (issue_go hi _) (fun _ hf => by simp only [hf]) (fun _ hx => by simp only [hx])

theorem qsave_issues {q : Nat} (hi : CanIssue s tid t (.qsave k fs a q)) :
    (∀ f, qmoveCheck s t (sget (viewOf s tid t) a) = .error f → Faults (.qsave k fs a q) s tid t s f) ∧
    (∀ key, qmoveCheck s t (sget (viewOf s tid t) a) = .ok key →
      EngineQueues (.qsave k fs a q) s s tid t (.qsave q key) none 0) :=
  checked_issues (issue_go hi _) (fun _ hf => by simp only [hf]) (fun _ hx => by simp only [hx])

/-- QST has two destinations, at the places of its rows or of its columns. -/
theorem qst_issues {ty : Ty} {q : Nat} {col reset : Bool} (hi : CanIssue s tid t (.qst k fs d a ty q col reset)) :
    let codes := sget (viewOf s tid t) d
    let scales := sget (viewOf s tid t) (d + 1)
    let chk := quantCheck s t (sget (viewOf s tid t) a) [(codes, codesLen ty), (scales, 48)]
    (∀ f, chk = .error f → Faults (.qst k fs d a ty q col reset) s tid t s f) ∧
    (∀ x, chk = .ok x → EngineQueues (.qst k fs d a ty q col reset) s s tid t (.quant ⟨ty, partKey x.1 x.2,
      if col then [none, none, some codes, some scales] else [some codes, some scales, none, none],
      if col then none else some q, if col then some q else none, reset⟩) none 0) :=
  checked_issues (issue_go hi _) (fun _ hf => by simp only [hf]) (fun _ hx => by simp only [hx])

theorem qstd_issues {ty : Ty} {qa qb : Nat} {reset : Bool} (hi : CanIssue s tid t (.qstd k fs d a ty qa qb reset)) :
    let x (j : Nat) := sget (viewOf s tid t) (d + j)
    let chk := quantCheck s t (sget (viewOf s tid t) a) [(x 0, codesLen ty), (x 1, 48), (x 2, codesLen ty), (x 3, 48)]
    (∀ f, chk = .error f → Faults (.qstd k fs d a ty qa qb reset) s tid t s f) ∧
    (∀ p, chk = .ok p → EngineQueues (.qstd k fs d a ty qa qb reset) s s tid t (.quant ⟨ty, partKey p.1 p.2,
      [some (x 0), some (x 1), some (x 2), some (x 3)], some qa, some qb, reset⟩) none 0) :=
  checked_issues (issue_go hi _) (fun _ hf => by simp only [hf]) (fun _ hx => by simp only [hx])

/-! ### Near-memory commands -/

theorem nmcTwo_eq (op : Nat) : nmcTwo op = decide (op = 2 ∨ op = 3) := by
  rw [nmcTwo, Bool.decide_or]
  rfl

/-- The checks of R333 on a command of word `w`, of the operands at `xw` and `yg` and of the record at `record`. -/
structure NmcChecks (s : State) (t : Team) (w : Nat) (xw yg record : W64) : Prop where
  operation : w % 256 ≤ 3
  type : w / 256 % 16 = 8 ∨ w / 256 % 16 = 9
  reserved : w / 4096 % 16 = 0
  xAligned : xw.toNat % 64 = 0
  yAligned : yg.toNat % 64 = 0
  recordAligned : record.toNat % 16 = 0
  xInside : xw.toNat + w / 65536 * nmcBytes (w / 256 % 16) ≤ globEnd ∧ xw.toNat < globEnd
  yInside : nmcTwo (w % 256) = true → yg.toNat + w / 65536 * nmcBytes (w / 256 % 16) ≤ globEnd ∧ yg.toNat < globEnd
  apart : nmcTwo (w % 256) = true → xw = yg ∨ yg.toNat + w / 65536 * nmcBytes (w / 256 % 16) ≤ xw.toNat ∨
    xw.toNat + w / 65536 * nmcBytes (w / 256 % 16) ≤ yg.toNat
  unused : nmcTwo (w % 256) = false → yg = 0
  record : (∃ va, aperture s t record 16 = some (.glob va)) ∨ ∃ cid off, aperture s t record 16 = some (.part cid off) ∧
    inRing s cid off 16 = false ∧ partTouches s cid off 16 = false

theorem NmcChecks.xInWindow {w : Nat} {xw yg record : W64} (h : NmcChecks s t w xw yg record) :
    (decide (globEnd < xw.toNat + w / 65536 * nmcBytes (w / 256 % 16)) || decide (globEnd ≤ xw.toNat)) = false := by
  have := h.xInside
  simp only [Bool.or_eq_false_iff, decide_eq_false_iff_not]
  omega

/-- The second operand lies in the window where there is one. -/
theorem NmcChecks.yInWindow {w : Nat} {xw yg record : W64} (h : NmcChecks s t w xw yg record) :
    ((nmcTwo (w % 256) || decide (yg ≠ 0)) &&
      (decide (globEnd < yg.toNat + w / 65536 * nmcBytes (w / 256 % 16)) || decide (globEnd ≤ yg.toNat))) = false := by
  cases htwo : nmcTwo (w % 256) with
  | true =>
    have := h.yInside htwo
    simp only [Bool.true_or, Bool.true_and, Bool.or_eq_false_iff, decide_eq_false_iff_not]
    omega
  | false => simp only [h.unused htwo, ne_eq, not_true, decide_false, Bool.or_self, Bool.false_and]

/-- The word is a descriptor, and two operands that are not one range are disjoint. -/
theorem NmcChecks.descriptor {w : Nat} {xw yg record : W64} (h : NmcChecks s t w xw yg record) :
    ¬(3 < w % 256 ∨ (w / 256 % 16 ≠ 8 ∧ w / 256 % 16 ≠ 9) ∨ w / 4096 % 16 ≠ 0 ∨ (nmcTwo (w % 256) = false ∧ yg ≠ 0) ∨
      (nmcTwo (w % 256) = true ∧ xw ≠ yg ∧ xw.toNat < yg.toNat + w / 65536 * nmcBytes (w / 256 % 16) ∧
        yg.toNat < xw.toNat + w / 65536 * nmcBytes (w / 256 % 16))) := by
  have hop := h.operation
  have hty := h.type
  have hres := h.reserved
  rintro (hbad | hbad | hbad | ⟨htwo, hbad⟩ | ⟨htwo, hne, hbad⟩)
  · omega
  · omega
  · omega
  · exact hbad (h.unused htwo)
  · rcases h.apart htwo with heq | hdisjoint
    · exact hne heq
    · omega

theorem nmc_issues (hi : CanIssue s tid t (.nmc k fs d a))
    (h : NmcChecks s t (sget (viewOf s tid t) a).toNat (sget (viewOf s tid t) (a + 1)) (sget (viewOf s tid t) (a + 2))
      (sget (viewOf s tid t) d)) :
    let r := viewOf s tid t
    let w := (sget r a).toNat
    EngineQueues (.nmc k fs d a) s s tid t (.nmc ⟨w % 256, if w / 256 % 16 = 9 then .d else .f, w / 65536, sget r (a + 1), sget r (a + 2),
      sget r (a + 3), [], false, [], 0, none⟩) (some (sget r d)) 0 := by
  intro r w
  refine engineQueues_of ((issue_go hi _).trans (congrArg (fun act => Host.Outcome.next (applyAct s tid _ t act)) ?_))
  rcases h.record with ⟨va, hplace⟩ | ⟨cid, off, hplace, hring, hcounter⟩
  · simp only [hplace, h.xInWindow, h.yInWindow, h.xAligned, h.yAligned, h.recordAligned, h.descriptor, ne_eq, not_true,
      Bool.false_eq_true, if_false]
    rfl
  · simp only [hplace, h.xInWindow, h.yInWindow, h.xAligned, h.yAligned, h.recordAligned, h.descriptor, hring, hcounter, ne_eq, not_true,
      Bool.false_eq_true, if_false]
    rfl

end

/-- The quantising commands, whose checks the model names, then NMC. -/
theorem quantAndNmcIssue : Spec.QuantAndNmcIssue := by
  intro s tid t k fs d a
  refine ⟨fun ty q reset hi => ⟨(qst_issues hi).1, fun cid off => (qst_issues hi).2 (cid, off)⟩,
    fun ty q reset hi => ⟨(qst_issues hi).1, fun cid off => (qst_issues hi).2 (cid, off)⟩,
    fun ty qa qb reset hi => ⟨(qstd_issues hi).1, fun cid off => (qstd_issues hi).2 (cid, off)⟩,
    fun q => qload_issues, fun q => qsave_issues, fun hi => ?nmc⟩
  intro w xw yg record op ty n two hop hty hres hx64 hy64 hr16 hxn hx hy hunused hplace
  have htwo : two = nmcTwo op := (nmcTwo_eq op).symm
  rw [htwo] at hy hunused
  exact nmc_issues hi ⟨hop, hty, hres, hx64, hy64, hr16, ⟨hxn, hx⟩, fun h2 => ⟨(hy h2).1, (hy h2).2.1⟩, fun h2 => (hy h2).2.2,
    hunused, hplace⟩

/-- Settles O38: the copies, then the quantising and the near-memory commands. -/
theorem engineCommandsIssue : Obligations.EngineCommandsIssue := ⟨copiesIssue, quantAndNmcIssue⟩

end Sys2Proof.Proofs.EngineIssue
end

section
/-! O43: the steps of the engines (spec/15 R314-R334), each under its own condition. -/

namespace Sys2Proof.Laws

/-- The first number that is kept and answers. -/
theorem findSome?_filter_range {α : Type} {f : Nat → Option α} {p : Nat → Bool} {n m : Nat} {x : α} (hn : n < m) (hp : p n = true)
    (hf : f n = some x) (hbefore : ∀ j, j < n → p j = true → f j = none) : ((List.range m).filter p).findSome? f = some x := by
  have hnone : ((List.range n).filter p).findSome? f = none := by
    rw [List.findSome?_eq_none_iff]
    intro j hj
    obtain ⟨hj, hpj⟩ := List.mem_filter.mp hj
    exact hbefore j (List.mem_range.mp hj) hpj
  induction m with
  | zero => exact absurd hn (Nat.not_lt_zero n)
  | succ m ih =>
    rw [List.range_succ, List.filter_append, List.findSome?_append]
    rcases Nat.lt_succ_iff_lt_or_eq.mp hn with hlt | rfl
    · rw [ih hlt]; rfl
    · rw [hnone, List.filter_singleton, hp]; simp [hf]

end Sys2Proof.Laws

namespace Sys2Proof.Proofs.Engines

open Sys2Proof.Machine Sys2Proof.Spec Sys2Proof.Laws

section

variable {s s1 : State} {id : Nat} {c : Cmd}

/-! ### Acceptance -/

/-- The state in which a command is accepted and its flags are uncounted (spec/15 R314). -/
def accepted (s : State) (id : Nat) (c : Cmd) : State :=
  modTeam (modCmd s id fun c => { c with accepted := true }) c.team fun t => decFlags t c.flags

theorem acceptable_other (hk : ∀ n, c.kind ≠ .nmc n) : acceptable s id c = true := by
  unfold acceptable
  split
  · exact absurd ‹_› (hk _)
  · rfl

/-- A near-memory command may be accepted once no store, atomic or reduction of its team from before it is in flight. -/
theorem acceptable_nmc {n : Nmc} (hk : c.kind = .nmc n) (h : ∀ e ∈ s.ops, e.2.team = c.team → e.1 < id →
    e.2.kind ≠ .store ∧ e.2.kind ≠ .atomic ∧ e.2.kind ≠ .reduction) : acceptable s id c = true := by
  simp only [acceptable, hk, Bool.not_eq_true', List.any_eq_false, Bool.and_eq_true, beq_iff_eq, decide_eq_true_eq]
  rintro e he ⟨⟨hteam, hlt⟩, hkind⟩
  obtain ⟨hstore, hatomic, hreduction⟩ := h e he hteam hlt
  split at hkind
  · exact hstore ‹_›
  · exact hatomic ‹_›
  · exact hreduction ‹_›
  · exact absurd hkind Bool.false_ne_true

section

variable {core slot : Nat} (hnext : acceptNext s core slot = some (id, c))
include hnext

theorem engineAcceptance_accepts (hk : ∀ n, c.kind ≠ .nmc n) : Does (.engineAcceptance core slot) s (accepted s id c) := by
  simp only [Does, exec, execEngineAcceptance, hnext, acceptable_other hk, if_true]
  rfl

variable {n : Nmc} (hk : c.kind = .nmc n) (hacc : acceptable s id c = true)
include hk hacc

theorem engineAcceptance_empty (h0 : n.count = 0) : Does (.engineAcceptance core slot) s
    (modCmd (accepted s id c) id fun c => { c with kind := .nmc { n with ready := true } }) := by
  simp only [Does, exec, execEngineAcceptance, hnext, hacc, hk, h0, if_true, accepted]

/-- The pages of a command with elements are translated at its acceptance (spec/15 R333). -/
theorem engineAcceptance_translates (h0 : n.count ≠ 0) : Does (.engineAcceptance core slot) s
    (finish (nmcReady (accepted s id c) id c n)) := by
  simp only [Does, exec, execEngineAcceptance, hnext, hacc, hk, h0, if_true, if_false, accepted]

end

/-! ### Copies -/

section

variable {k : Copy} {n : Nat}

theorem runningCopy_eq (hc : tbGet s.cmds id = some c) (hk : c.kind = .copy k) (ha : c.accepted = true) (he : c.err = none) :
    runningCopy s id = some (c, k) := by
  simp [runningCopy, hc, hk, ha, he]

variable (hrun : runningCopy s id = some (c, k)) (hn : n < k.chunks) (hleft : n ∉ k.done)
include hrun hn hleft

theorem copyChunkDone_does (hstep : chunkStep s id c k n = (s1, none)) : Does (.copyChunkDone id n) s (finish s1) := by
  simp only [Does, exec, execCopyChunkDone, hrun, Nat.not_le.mpr hn, hleft, or_self, if_false, hstep]

/-- The chunks that are left are tried in order; the first that fails stops the copy with its error (spec/15 R323). -/
theorem copyStop_does {e : EErr} (hbefore : ∀ m, m < n → m ∉ k.done → (chunkStep s id c k m).2 = none)
    (hstep : chunkStep s id c k n = (s1, some e)) :
    Does (.copyStop id) s (finish (modCmd s1 id fun c => { c with err := some (e.1.num, e.2.1) })) := by
  simp only [Does, exec, execCopyStop, hrun]
  rw [findSome?_filter_range (x := (s1, e)) hn (by simpa using hleft) (by rw [hstep])]
  intro m hm hp
  have hnone := hbefore m hm (by simpa using hp)
  split
  next heq => rw [heq] at hnone; exact absurd hnone (Option.some_ne_none _)
  next => rfl

end

/-! ### Quantising and near-memory commands -/

/-- A core's first quantising command that is accepted and not executed is run (spec/15 R327). -/
theorem quantCommandExecute_does {core : Nat} (h : quantNext s core = some id) :
    Does (.quantCommandExecute core) s (finish (quantRun s id)) := by
  simp only [Does, exec, execQuantCommandExecute, h]

/-- A near-memory command whose share at `home` is done. -/
def withoutShare (home : Nat) (c : Cmd) : Cmd :=
  { c with kind := match c.kind with
    | .nmc n => .nmc { n with homes := n.homes.filter (· != home) }
    | x => x }

theorem withoutShare_homes {home : Nat} {n : Nmc} (h : (withoutShare home c).kind = .nmc n) : home ∉ n.homes := by
  unfold withoutShare at h
  dsimp only at h
  split at h
  next m _ => obtain rfl := CmdKind.nmc.inj h; simp
  next hother => exact absurd h (hother n)

/-- A share ends with its channel taken from those the command still has, whatever its sectors did before. -/
theorem nmcShare_ends {n : Nmc} {home : Nat} (hc : tbGet s.cmds id = some c) (hk : c.kind = .nmc n) (ha : c.accepted = true)
    (hh : home ∈ n.homes) : ∃ s1, nmcShare s id home = modCmd s1 id (withoutShare home) := by
  simp only [nmcShare, hc, hk, ha, hh, decide_true, Bool.and_self, if_true]
  exact ⟨_, rfl⟩

theorem cmd_modCmd {f : Cmd → Cmd} {c1 : Cmd} (h : tbGet (modCmd s id f).cmds id = some c1) : ∃ c, c1 = f c := by
  rw [modCmd, tbGet_tbMod_self, Option.map_eq_some_iff] at h
  obtain ⟨c, _, rfl⟩ := h
  exact ⟨c, rfl⟩

theorem nmcPcShare_does {n : Nmc} {home : Nat} (hc : tbGet s.cmds id = some c) (hk : c.kind = .nmc n) (ha : c.accepted = true)
    (hh : home ∈ n.homes) : ∃ s1, Does (.nmcPcShare id home) s (finish s1) ∧
      ∀ c1 n1, tbGet s1.cmds id = some c1 → c1.kind = .nmc n1 → home ∉ n1.homes := by
  refine ⟨nmcShare s id home, rfl, fun c1 n1 hc1 hk1 => ?_⟩
  obtain ⟨s1, hs1⟩ := nmcShare_ends hc hk ha hh
  rw [hs1] at hc1
  obtain ⟨c0, rfl⟩ := cmd_modCmd hc1
  exact withoutShare_homes hk1

/-! ### Completion -/

section

variable (hc : tbGet s.cmds id = some c) (hd : cmdDone c = true) {c1 : Cmd} (hc1 : tbGet (recordCmd s id c).cmds id = some c1)
include hc hd hc1

theorem engineCompletionRecord_waits (hh : c1.homes ≠ []) :
    Does (.engineCompletionRecord id) s (finish (recordCmd s id c)) := by
  simp only [Does, exec, execEngineCompletionRecord, hc, hd, hc1, hh, if_true, if_false]

theorem engineCompletionRecord_ends (hh : c1.homes = []) :
    Does (.engineCompletionRecord id) s (finish (endCmd (recordCmd s id c) id c1)) := by
  simp only [Does, exec, execEngineCompletionRecord, hc, hd, hc1, hh, if_true]

end

end

/-- Settles O43: each clause is one of the steps above. -/
theorem enginesWork : Obligations.EnginesWork := by
  unfold Obligations.EnginesWork
  intro s id c
  refine ⟨fun core slot hnext => ⟨engineAcceptance_accepts hnext, fun n hk hops => ?accept⟩,
    fun k n s1 hc hk ha he hn hleft => copyChunkDone_does (runningCopy_eq hc hk ha he) hn hleft,
    fun k n s1 e hc hk ha he hn hleft => copyStop_does (runningCopy_eq hc hk ha he) hn hleft,
    fun core => quantCommandExecute_does, fun n home => nmcPcShare_does,
    ?complete⟩
  case accept =>
    have hacc := acceptable_nmc hk hops
    exact ⟨engineAcceptance_empty hnext hk hacc, engineAcceptance_translates hnext hk hacc⟩
  case complete =>
    intro hc hd s1 c1 hc1 s2
    exact ⟨engineCompletionRecord_waits hc hd hc1, engineCompletionRecord_ends hc hd hc1⟩

end Sys2Proof.Proofs.Engines
end

section
/-! O50: arbitration (spec/17 R363) and the errors that the world brings to the device: scrubs, flipped bits, SRAM and timing errors
(spec/25 R452-R456). -/

namespace Sys2Proof.Proofs.ErrorsAndArbitration

open Sys2Proof.Machine Sys2Proof.Spec

section

variable {s : State}

/-! ### Arbitration -/

theorem pcGrant_transfer {home c : Nat} (hf : Config.freeBit s.free 8 = false) (hc : grantClass s home = some c) :
    Does (.pcGrant home) s { s with pcq := notePassed home c [] (dropHead home c s.pcq) } := by
  simp only [Does, exec, execPcGrant, hf, Bool.false_and, Bool.false_eq_true, if_false, hc]

theorem pcGrant_refresh {home : Nat} (hf : Config.freeBit s.free 8 = true) (hm : mayGrant s home 1 = true) :
    Does (.pcGrant home) s { s with pcq := notePassed home 1 [] s.pcq } := by
  simp only [Does, exec, execPcGrant, hf, hm, Bool.and_self, if_true]

/-! ### Scrubs -/

/-- A byte of a stack below the end of its stack-local space, addressable or of a lees, is one of HBM. -/
theorem onHbm_of_isHbm {k : Nat} (hk : isHbm k = true) (ha : slaOf k < 48000000000) : onHbm k = true := by
  simp [onHbm, hk, slaEnd, ha]

theorem scrub_sector {loc finder : Nat} (h : slaOf loc < csOf s.leesMode) :
    scrub s loc finder = correctSector s (sectorOf loc) finder :=
  if_neg (by simp [h])

theorem scrub_lees {loc finder : Nat} (hk : isHbm loc = true) (h : csOf s.leesMode ≤ slaOf loc) :
    scrub s loc finder = correctSlot (stackOf loc) finder s (sectorOf loc) :=
  if_pos (by simp [hk, h])

/-- A patrol scrub asks for a transfer of the lowest class and reads its sector as the scrub. -/
theorem patrolScrub_does {loc : Nat} (hk : isHbm loc = true) (ha : slaOf loc < 48000000000) (hr : reachable s loc = true) :
    Does (.patrolScrub loc) s (finish (scrub (pcAsk s (homeOf s loc) 7) loc 1)) :=
  congrArg Host.Outcome.next (if_pos (by rw [onHbm_of_isHbm hk ha, hr]; rfl))

/-- A poisoned sector is read for the scrub alone with a record, and stays as it is (spec/25 R454, R455). -/
theorem correctSector_poisoned {sec finder : Nat} (hp : poisoned s sec = true) :
    correctSector s sec finder = if finder = 1 then pushErr s
      ⟨0x02, 1, 0x10, 2, homeOf s (sec * 64), recAddr s (sec * 64), 0, finder, (versionStamp s sec).toNat⟩ else s :=
  if_pos hp

/-! ### Flipped bits -/

theorem hbmDataError_does {loc b : Nat} (hk : isHbm (loc + b / 8) = true) (ha : slaOf (loc + b / 8) < 48000000000) :
    Does (.hbmDataError loc [b]) s (flipBits s (loc + b / 8) (BitVec.ofNat 8 (2 ^ (b % 8)))) :=
  congrArg Host.Outcome.next (if_pos (onHbm_of_isHbm hk ha))

/-! ### Errors of SRAM -/

section

variable {code : Nat} (hcode : code ≤ 10) (unit slot loc : Nat)
include hcode

theorem sramError_corrected : Does (.sramError code unit slot loc true) s (finish (pushErr
    (modErr s fun e => { e with sramce := satInc e.sramce })
    ⟨0x03, 0, 0, (sramUnit code unit slot loc).1, (sramUnit code unit slot loc).2, sramAddr s code loc, 0, code, 0⟩)) :=
  congrArg Host.Outcome.next (if_neg (Nat.not_lt.mpr hcode))

theorem sramError_uncorrectable : Does (.sramError code unit slot loc false) s (finish (sramUe s code unit slot loc)) :=
  congrArg Host.Outcome.next (if_neg (Nat.not_lt.mpr hcode))

end

/-- An error of the registers of a resident team is consumed by its launch. -/
theorem sramUe_registers {unit slot loc tid : Nat} {t : Team} (ht : teamAt s unit slot = some (tid, t)) :
    sramUe s 0 unit slot loc = consumeBy s t.launch ⟨0x04, 2, 0x10, 0, unit, 0, teamOwner s t, 0, 0⟩ := by
  simp only [sramUe, ht]
  rfl

/-! ### Timing detections -/

/-- The state in which a replay is counted (spec/25 R456). -/
def replayed (s : State) : State := modErr s fun e => { e with treplay := satInc e.treplay }

/-- The record of a launch that consumes a timing error of a core. -/
def timingRecord (s : State) (core lid : Nat) : ErrRec := ⟨0x05, 2, 0x10, 0, core, 0, ownerOf s lid, 0, 0⟩

/-- A core that has failed, its READY bit fallen. -/
def coreFailed (s : State) (core : Nat) : State := finish (coreFalls (modCore s core fun c => { c with failed := true }) core)

theorem timingDetection_replays (core : Nat) : Does (.timingDetection core false) s (replayed s) := rfl

/-- A second detection in a core: a record at once where every launch on it consumes an error already, else each launch consumes. -/
theorem timingDetection_core {core : Nat} (hcore : core < 256) : Does (.timingDetection core true) s (coreFailed
    (if (launchesOn (replayed s) core).all (isDying (replayed s)) then
      pushErr (replayed s) (timingRecord (replayed s) core ((launchesOn (replayed s) core).headD 0))
    else (launchesOn (replayed s) core).foldl (fun s1 lid => consumeBy s1 lid (timingRecord (replayed s) core lid)) (replayed s)) core) :=
  congrArg Host.Outcome.next (if_pos hcore)

theorem timingDetection_dying {core : Nat} (hcore : core < 256)
    (hd : ∀ lid ∈ launchesOn (replayed s) core, isDying (replayed s) lid = true) : Does (.timingDetection core true) s
    (coreFailed (pushErr (replayed s) (timingRecord (replayed s) core ((launchesOn (replayed s) core).headD 0))) core) := by
  have hdoes := timingDetection_core (s := s) hcore
  rwa [if_pos (List.all_eq_true.mpr hd)] at hdoes

theorem timingDetection_consumed {core : Nat} (hcore : core < 256)
    (hd : ¬∀ lid ∈ launchesOn (replayed s) core, isDying (replayed s) lid = true) : Does (.timingDetection core true) s
    (coreFailed ((launchesOn (replayed s) core).foldl
      (fun s1 lid => consumeBy s1 lid (timingRecord (replayed s) core lid)) (replayed s)) core) := by
  have hdoes := timingDetection_core (s := s) hcore
  rwa [if_neg (mt List.all_eq_true.mp hd)] at hdoes

/-- A second detection outside a core: a sector of HBM, or the LLC or its directory at a slice, as the free bits choose. -/
theorem timingDetection_outside {core : Nat} (hcore : 256 ≤ core) : Does (.timingDetection core true) s
    (if Config.freeBit (replayed s).free (2 ^ 79) then finish (loseSector (replayed s) (anySector (replayed s) false))
    else finish (sramUe (replayed s) (if Config.freeBit (replayed s).free (2 ^ 79 + 1) then 3 else 4) ((core - 256) % 256) 0
      (64 * anySector (replayed s) true))) :=
  congrArg Host.Outcome.next (if_neg (Nat.not_lt.mpr hcore))

theorem timingDetection_loses {core : Nat} (hcore : 256 ≤ core) :
    (∃ sec, Does (.timingDetection core true) s (finish (loseSector (replayed s) sec))) ∨
      ∃ code sec, (code = 3 ∨ code = 4) ∧
        Does (.timingDetection core true) s (finish (sramUe (replayed s) code ((core - 256) % 256) 0 (64 * sec))) := by
  have hdoes := timingDetection_outside (s := s) hcore
  cases hhbm : Config.freeBit (replayed s).free (2 ^ 79) with
  | true => exact .inl ⟨_, hdoes.trans (congrArg Host.Outcome.next (if_pos hhbm))⟩
  | false =>
    refine .inr ⟨_, _, ?_, hdoes.trans (congrArg Host.Outcome.next (if_neg (Bool.eq_false_iff.mp hhbm)))⟩
    split
    · exact .inl rfl
    · exact .inr rfl

end

/-- Settles O50: each clause is one of the steps above; a scrub's sector is one of a lees or of the addressable space. -/
theorem errorsAndArbitration : Obligations.ErrorsAndArbitration := by
  unfold Obligations.ErrorsAndArbitration
  intro s
  refine ⟨fun home c => pcGrant_transfer, fun home => pcGrant_refresh, ?scrubs, ?scrubsLees, ?poisoned,
    fun loc b => hbmDataError_does,
    fun code unit slot loc hcode => ⟨sramError_corrected hcode unit slot loc, sramError_uncorrectable hcode unit slot loc⟩,
    fun unit slot loc tid t => sramUe_registers, timingDetection_replays,
    fun core hcore => ⟨timingDetection_dying hcore, timingDetection_consumed hcore⟩, fun core => timingDetection_loses⟩
  case scrubs =>
    intro loc hk hc ha hr
    have hdoes := patrolScrub_does hk ha hr
    rwa [scrub_sector (s := pcAsk s (homeOf s loc) 7) hc] at hdoes
  case scrubsLees =>
    intro loc hk hc ha hr
    have hdoes := patrolScrub_does hk ha hr
    rwa [scrub_lees (s := pcAsk s (homeOf s loc) 7) hk hc] at hdoes
  case poisoned =>
    intro sec finder hp
    exact ⟨fun hne => (correctSector_poisoned hp).trans (if_neg hne),
      fun h1 => (correctSector_poisoned hp).trans (by rw [h1]; rfl)⟩

end Sys2Proof.Proofs.ErrorsAndArbitration
end

section
/-! O27: atomics and reductions at issue (spec/13 R276-R282; spec/19 R379, R387). As with loads and stores, the shared action of each family gets
one equation per case: nothing without lanes, the fault of the lanes' checks, the access. -/

namespace Sys2Proof.Laws

open Sys2Proof.Machine Sys2Proof.Spec

section

variable {i : Instr} {o : AtOp} {r t : Team} {tid : Nat} {s s1 : State} {n : Nat} {cs : List LaneCheck}

/-! ### Returning atomics -/

section

variable {f : Nat → Nat → Option Nat}

theorem atomAct_empty (hl : atLanes r o = []) : atomAct i o r t tid s n f = .go s := if_pos hl

/-- The operation of a returning atomic before its lanes are performed. -/
def atomOp (i : Instr) (o : AtOp) (t : Team) (tid : Nat) (ls : List (Nat × W64 × List Piece)) (s1 : State) : Op :=
  { newOp t tid i ⟨[], [], []⟩ .atomic with sc := isSc o.order, ext := extReqs s1 none false false (fun _ _ => none) ls }

/-- The lanes updated, after the operation is put in flight. -/
def updated (i : Instr) (o : AtOp) (t : Team) (tid : Nat) (f : Nat → Nat → Option Nat) (ls : List (Nat × W64 × List Piece))
    (s1 : State) : State × Reads :=
  atomLanes s1.nextId (scTeam o.order s1 t) f ls (launchOp (scState o.order s1 tid) tid (atomOp i o t tid ls s1))

/-- The operation `id` takes the old values that the lanes have read, their late fault and their floor (spec/13 R278; spec/19 R387). -/
def takeOld (o : AtOp) (t : Team) (id : Nat) (x : State × Reads) : State :=
  modOp (afterReads o.order o.scope t x) id fun op =>
    { op with dest := vLoadDest o.d x.2.got, late := lateOf id t none x.2.bad,
              floor := maxW op.floor (if isAcq o.order then maxW x.2.stamp x.2.tag else x.2.stamp) }

section

variable (hl : atLanes r o ≠ []) (hd : isRel o.order = true → mustDrain s tid = false)
  (hc : checkLanes s t tid (atAcc n) n (atLanes r o) = (s1, cs))
include hl hd hc

theorem atomAct_faults {fl : Flt} (hf : checkFault none (failures cs) = some fl) : atomAct i o r t tid s n f = .fault s1 fl := by
  rw [atomAct, if_neg hl, if_neg (not_mustDrain_of hd), hc]
  dsimp only
  rw [hf]

theorem atomAct_updates (hf : failures cs = []) (hw : watchLanes s1 t true (passed cs) = []) :
    let x := updated i o t tid f (passed cs) s1
    let s3 := takeOld o t s1.nextId x
    atomAct i o r t tid s n f = if isAcq o.order then .hold s3 s1.nextId
      else .go (modTeam s3 tid fun t => { t with tagSeen := maxW t.tagSeen x.2.tag }) := by
  rw [atomAct, if_neg hl, if_neg (not_mustDrain_of hd), hc]
  dsimp only
  rw [hf, checkFault_nil]
  dsimp only
  rw [hw]
  rfl

end

end

/-! ### Reductions -/

section

variable {op : AOp}

theorem redAct_empty (hl : atLanes r o = []) : redAct i o op r t tid s n = .go s := if_pos hl

/-- The operation of a reduction; a request that leaves the device carries the log entry of its failure (spec/13 R281). -/
def redOp (i : Instr) (o : AtOp) (op : AOp) (t : Team) (tid : Nat) (y : Nat → Nat) (ls : List (Nat × W64 × List Piece)) (s1 : State) : Op :=
  { newOp t tid i ⟨[], [], []⟩ .reduction with
    sc := isSc o.order
    ext := extReqs s1 none false false (fun l a => some (redEntry i t o.ty op l a (y l) .dataUncorrectable)) ls }

/-- The lanes reduced, after the operation is put in flight. -/
def reduced (i : Instr) (o : AtOp) (op : AOp) (t : Team) (tid n : Nat) (y : Nat → Nat) (cs : List LaneCheck) (s1 : State) : State × W64 :=
  redLanes i s1.nextId (scTeam o.order s1 t) o.ty op n y cs
    (launchOp (scState o.order s1 tid) tid (redOp i o op t tid y (passed cs) s1))

section

variable (hl : atLanes r o ≠ []) (hd : isRel o.order = true → mustDrain s tid = false)
  (hc : checkLanes s t tid (atAcc n) n (atLanes r o) = (s1, cs))
include hl hd hc

theorem redAct_faults {fl : Flt} (hf : pickFault ((failures cs).filter redPrecise) = some fl) :
    redAct i o op r t tid s n = .fault s1 fl := by
  rw [redAct, if_neg hl, if_neg (not_mustDrain_of hd), hc]
  dsimp only
  rw [hf]

theorem redAct_reduces (hf : pickFault ((failures cs).filter redPrecise) = none) (hw : watchLanes s1 t true (passed cs) = []) :
    let x := reduced i o op t tid n (fun l => vNum r o.d l n) cs s1
    redAct i o op r t tid s n = .go (modTeam x.1 tid fun t => { t with tagSeen := maxW t.tagSeen x.2 }) := by
  rw [redAct, if_neg hl, if_neg (not_mustDrain_of hd), hc]
  dsimp only
  rw [hf]
  dsimp only
  rw [hw]
  rfl

end

end

end

end Sys2Proof.Laws

namespace Sys2Proof.Proofs.Atomics

open Sys2Proof.Machine Sys2Proof.Spec Sys2Proof.Laws

theorem atomicsReturnOldValues : AtomicsReturnOldValues := by
  intro s tid t o r lanes done num b
  have hdone {i : Instr} {n : Nat} {f : Nat → Nat → Option Nat} {body : Team → Team → Nat → State → Act} (he : exec i s = issue i s body)
      (hb : body r t tid s = atomAct i o r t tid s n f) : done i n f := by
    refine fun h => ⟨fun hl => he.trans (go_of h (hb.trans (atomAct_empty hl))), fun hl hd => ⟨fun fl hf => ?_, fun hf hw => ?_⟩⟩
    · exact he.trans (fault_of h (hb.trans (atomAct_faults hl hd Prod.mk.eta.symm hf)))
    · have hact := hb.trans (atomAct_updates hl hd Prod.mk.eta.symm hf hw)
      simp only [updated, atomOp, takeOld, afterReads, isSc_eq_decide, decide_eq_true_eq] at hact
      refine ⟨fun ha => he.trans (hold_of h (hact.trans (if_pos ha))), fun ha => he.trans (go_of h (hact.trans (if_neg ?_)))⟩
      rw [ha]
      exact Bool.false_ne_true
  exact ⟨fun op => hdone rfl rfl, hdone rfl rfl, fun op => hdone rfl rfl⟩

theorem reductionsIssue : ReductionsIssue := by
  intro s tid t o op r lanes done
  have hdone {i : Instr} {n : Nat} {body : Team → Team → Nat → State → Act} (he : exec i s = issue i s body)
      (hb : body r t tid s = redAct i o op r t tid s n) : done i n := by
    refine fun h => ⟨fun hl => he.trans (go_of h (hb.trans (redAct_empty hl))), fun hl hd => ⟨fun fl hf => ?_, fun hf hw => ?_⟩⟩
    · exact he.trans (fault_of h (hb.trans (redAct_faults hl hd Prod.mk.eta.symm hf)))
    · have hact := hb.trans (redAct_reduces hl hd Prod.mk.eta.symm hf hw)
      simp only [reduced, redOp, isSc_eq_decide] at hact
      exact he.trans (go_of h hact)
  exact ⟨hdone rfl rfl, hdone rfl rfl⟩

/-- Settles O27: the atomics and the reductions each by their shared action. -/
theorem atomicsAndReductions : Obligations.AtomicsAndReductions := ⟨atomicsReturnOldValues, reductionsIssue⟩

end Sys2Proof.Proofs.Atomics
end

section
/-! O41: late faults and allowance counters (spec/25 R486; spec/21 R422-R424). -/

namespace Sys2Proof.Proofs.LateFaults

open Sys2Proof.Machine Sys2Proof.Spec Sys2Proof.Laws

/-! ### A late fault where two entries of the table of teams bear one id -/

/-- The late fault of the team at slot 0 of core 0. -/
def dueFault : Late := ⟨1, .dataUncorrectable, 0, 1, [], 0, none, false⟩

/-- The team at slot 0 of core 0, which the debugger does not step. -/
def faulting : Team := { probeTeam 0 with late := [dueFault] }

/-- A team outside a clause that is not resident, its step of one clause not yet at its end. -/
def stepped : Team := { probeTeam 0 with place := none, clause := none, dbg := .clause }

/-- Both bear the id 0: the slot finds the second, the id the first. -/
def sharedId : State := { State.reset.withFetchWord 64 0 with teams := [(0, stepped), (0, faulting)] }

/-- The late fault taken, before the debugger's step at the boundary. -/
def faultTaken : State :=
  enterHandler (modTeam sharedId 0 fun t => { t with late := t.late.filter (· != dueFault), faultStamp := dueFault.stamp }) 0
    (lateFlt dueFault) dueFault.pc true

/-- Whether the first team with the id 0 is halted. -/
def haltedFirst (s : State) : Option Bool := (s.team 0).map Team.halted

theorem teamAt_sharedId : teamAt sharedId 0 0 = some (0, faulting) := by decide +kernel

theorem lateDue_faulting : lateDue faulting = some dueFault := by decide +kernel

theorem haltedFirst_taken : haltedFirst faultTaken = some false := by decide +kernel

theorem haltedFirst_boundary : haltedFirst (lateBoundary faultTaken 0) = some true := by decide +kernel

/-- The end of a step leaves the teams. -/
theorem haltedFirst_finish (s : State) : haltedFirst (finish s) = haltedFirst s :=
  congrArg (fun ts : Tab Team => (tbGet ts 0).map Team.halted) (Quiet.refl s).finish.teams

theorem lateFaultTaken_sharedId : Does (.lateFaultTaken 0 0) sharedId (finish (lateBoundary faultTaken 0)) := by
  simp only [Does, exec, execLateFaultTaken, teamAt_sharedId, lateDue_faulting]
  rfl

/-- Refutes O41: its first clause names the team by its slot and the step changes it by its id, and no premise says that an id names one team.
In `sharedId` the team at the slot is not stepped by the debugger, and the first with its id is: the step halts that one, the clause does not. -/
theorem not_lateFaultsAndCounters : ¬ Obligations.LateFaultsAndCounters := by
  unfold Obligations.LateFaultsAndCounters
  rintro ⟨hlate, _⟩
  obtain ⟨hunstepped, _⟩ := hlate sharedId 0 0 0 faulting dueFault teamAt_sharedId lateDue_faulting
  have hsame := Host.Outcome.next.inj (lateFaultTaken_sharedId.symm.trans (hunstepped (by decide)))
  have hhalted := congrArg haltedFirst hsame
  rw [haltedFirst_finish, haltedFirst_finish, haltedFirst_boundary] at hhalted
  exact absurd (hhalted.trans haltedFirst_taken) (by decide)

end Sys2Proof.Proofs.LateFaults
end

section
/-! O44: homes, the lees, bins, spawned teams and partitions (spec/21 R392, R401, R403; spec/03 R77-R79, R86, R97). Each step is one evaluation of
the model but the start of a spawned team, whose registers are read back. -/

namespace Sys2Proof.Laws

open Sys2Proof.Machine

/-- Elements written one after another: where every write of a place is of one value, the place holds it once it is written. -/
theorem smGet_putElements_agree {ws : List (Nat × W32)} {k : Nat} {x : W32} (hx : ∀ w ∈ ws, w.1 = k → w.2 = x) {m : Tab W32}
    (hm : smWf 0 m = true) (hk : smGet 0 m k = x ∨ ∃ w ∈ ws, w.1 = k) : smGet 0 (putElements ws m) k = x := by
  induction ws generalizing m with
  | nil => exact hk.resolve_right (by simp)
  | cons w ws ih =>
    refine ih (fun u hu => hx u (List.mem_cons_of_mem _ hu)) (smWf_smSet _ _ hm) ?_
    rw [smGet_smSet _ _ _ hm]
    by_cases hwk : w.1 = k
    · exact .inl (by rw [if_pos hwk.symm, hx w List.mem_cons_self hwk])
    · rw [if_neg (Ne.symm hwk)]
      refine hk.imp_right fun ⟨u, hu, huk⟩ => ?_
      rcases List.mem_cons.mp hu with rfl | hu
      · exact absurd huk hwk
      · exact ⟨u, hu, huk⟩

/-- What the records of a bin write: word j of record l in lane l of v j, for the first 16 registers the team has (spec/03 R78). -/
def recordWrites (b : Bin) (nregs : Nat) : List (Nat × W32) :=
  b.records.zipIdx.flatMap fun e => (List.range (min 16 nregs)).map fun j => (vkey j e.2, e.1.getD j 0)

theorem binRegs_eq (b : Bin) (nregs : Nat) : binRegs b nregs = putElements (recordWrites b nregs) [] := by
  simp only [putElements, recordWrites, List.foldl_flatMap, List.foldl_map]
  rfl

/-- Record word j of a spawned team's lane l is in v j of that lane (spec/03 R78). -/
theorem smGet_binRegs {b : Bin} {nregs l j : Nat} {r : List W32} (hb : b.records.length ≤ 1024) (hr : b.records[l]? = some r)
    (hj : j < 16) (hn : j < nregs) : smGet 0 (binRegs b nregs) (vkey j l) = r.getD j 0 := by
  obtain ⟨hl, _⟩ := List.getElem?_eq_some_iff.mp hr
  rw [binRegs_eq]
  refine smGet_putElements_agree (fun w hw hkey => ?_) rfl (.inr ⟨(vkey j l, r.getD j 0), ?_, rfl⟩)
  · obtain ⟨⟨r', l'⟩, he, hw⟩ := List.mem_flatMap.mp hw
    obtain ⟨j', _, rfl⟩ := List.mem_map.mp hw
    have hr' := List.mem_zipIdx_iff_getElem?.mp he
    obtain ⟨hl', _⟩ := List.getElem?_eq_some_iff.mp hr'
    obtain ⟨rfl, rfl⟩ := (vkey_inj (by omega) (by omega)).mp hkey
    exact congrArg (·.getD j' 0) (Option.some.inj (hr'.symm.trans hr))
  · exact List.mem_flatMap.mpr ⟨(r, l), List.mem_zipIdx_iff_getElem?.mpr hr,
      List.mem_map.mpr ⟨j, List.mem_range.mpr (lt_min hj hn), rfl⟩⟩

end Sys2Proof.Laws

namespace Sys2Proof.Proofs.Homes

open Sys2Proof.Machine Sys2Proof.Spec Sys2Proof.Laws

section

variable {s : State}

/-! ### Homes, the lees and horizons -/

theorem trackedWriteAtHome_does {home : Nat} (h : ∃ w ∈ s.homeq, w.home = home) :
    Does (.trackedWriteAtHome home) s (finish (homeStep s home)) :=
  congrArg Host.Outcome.next (if_pos (by simpa using h))

theorem leesReclaim_does {n : Nat} (h : s.press.getLsbD n = true) : Does (.leesReclaim n) s (finish (relieve s n)) :=
  congrArg Host.Outcome.next (if_pos h)

theorem horizonPropagation_does {core : Nat} (h : (s.core core).hcache ≠ s.horizon) :
    Does (.horizonPropagation core) s (modCore s core fun c => { c with hcache := s.horizon }) :=
  congrArg Host.Outcome.next (if_neg h)

/-! ### Bins and the teams they start -/

theorem spawnBinTimer_does {core bin : Nat} {b : Bin} {l : Launch} (hb : tbGet (s.core core).bins bin = some b)
    (hl : tbGet s.launches b.launch = some l) (hdue : b.born + l.spawnT ≤ s.cycle) :
    Does (.spawnBinTimer core bin) s (launchBin s core bin) := by
  simp only [Does, exec, execSpawnBinTimer, hb, hl, hdue, if_true]

theorem spawnedTeamPlacement_does {core : Nat} {b : Bin} {l : Launch} (hb : nextBin s core = some b)
    (hl : tbGet s.launches b.launch = some l) (hcp : s.readyIo.getLsbD 18 = true) :
    Does (.spawnedTeamPlacement core) s (placeBin s core b l) := by
  simp only [Does, exec, execSpawnedTeamPlacement, cpReady, hcp, hb, hl]
  rfl

/-- The team that a bin starts, in slot 0 to 31 of its core (spec/03 R78). -/
def spawnedTeam (s : State) (core : Nat) (b : Bin) (l : Launch) : Team :=
  { newTeam core ((pickOne s 64 (freeSlots s core)).getD 0) b.launch l.ctx (s.nextId + 1)
      ⟨b.entry, b.sptoff, 0, roleGeneral, b.nregs, 32⟩ b.floor l.stackz (l.hwin && decide (32 ≤ b.nregs)) with
    spawned := true, live := laneMask b.records.length, v := binRegs b b.nregs, stk := stackPick s (s.nextId + 2) l.stackz }

theorem placeBin_team (core : Nat) (b : Bin) (l : Launch) :
    (placeBin s core b l).team (s.nextId + 2) = some (spawnedTeam s core b l) :=
  tbGet_tbSet_self s.teams (s.nextId + 2) (spawnedTeam s core b l)

/-! ### Partitions -/

theorem partitionRelease_does {cid : Nat} (h : crewDone s cid = true) : Does (.partitionRelease cid) s (finish (freeCrew s cid)) :=
  congrArg Host.Outcome.next (if_pos h)

/-- The crew that a spill leaves: its partition in the units `us` of the save area, its windows unregistered and unfilled (spec/03 R97). -/
def spilled (us : List Nat) (c : Crew) : Crew :=
  { c with residency := .spilled, saveAt := us, windows := [], spilledWindows := c.windows.map fun w => { w with chunks := [] } }

theorem partitionSpill_does {cid : Nat} {c : Crew} (hc : tbGet s.crews cid = some c) (hs : spillable s cid c = true)
    (hn : spillNeeded s c.cluster c.core = true) : Does (.partitionSpill cid) s (finish (modCrew
      (writeUnits (cleanChunks s cid 0 fun _ _ => true) c.ctx (takeUnits s c.ctx c.partSize)) cid
      (spilled (takeUnits s c.ctx c.partSize)))) := by
  simp only [Does, exec, execPartitionSpill, hc, hs, hn, Bool.and_self, if_true]
  rfl

end

/-- Settles O44: each clause is one of the steps above. -/
theorem homesBinsAndPartitions : Obligations.HomesBinsAndPartitions := by
  unfold Obligations.HomesBinsAndPartitions
  intro s
  refine ⟨fun home => trackedWriteAtHome_does, fun n => leesReclaim_does, fun core => horizonPropagation_does, ?timer, ?spawned,
    fun cid => partitionRelease_does, fun cid c => partitionSpill_does⟩
  case timer =>
    intro core bin b l hb hl hdue
    refine (spawnBinTimer_does hb hl hdue).trans (congrArg (fun f => Host.Outcome.next (modCore s core f)) (funext fun c => ?_))
    cases tbGet c.bins bin <;> rfl
  case spawned =>
    intro core b l hb hl hlen hcp
    exact ⟨_, spawnedTeam s core b l, spawnedTeamPlacement_does hb hl hcp, placeBin_team core b l, rfl, rfl, rfl, rfl, rfl, rfl, rfl, rfl,
      rfl, fun _ => getLsbD_laneMask, fun _ _ _ hr => smGet_binRegs (by omega) hr⟩

end Sys2Proof.Proofs.Homes
end

section
/-! O45: pre-emption, saves and restores (spec/23 R441; spec/03 R90, R92-R97). A request sets each team of the cluster to what R441 has it do; the
other steps are one evaluation of the model each. -/

namespace Sys2Proof.Laws

open Sys2Proof.Machine

/-! ### Entries put into a table one after another -/

section

variable {α : Type} {f : Nat × α → α} {k : Nat}

theorem tbGet_foldl_tbSet_of_ne {l : Tab α} (h : ∀ e ∈ l, e.1 ≠ k) (m : Tab α) :
    tbGet (l.foldl (fun m e => tbSet m e.1 (f e)) m) k = tbGet m k := by
  induction l generalizing m with
  | nil => rfl
  | cons e l ih =>
    exact (ih (fun x hx => h x (List.mem_cons_of_mem _ hx)) _).trans (tbGet_tbSet_ne _ _ (h e List.mem_cons_self).symm)

/-- Where the entries of a key all put one value, the key holds it once one of them is put. -/
theorem tbGet_foldl_tbSet_agree {l : Tab α} {x : α} (hx : ∀ e ∈ l, e.1 = k → f e = x) {m : Tab α}
    (hk : tbGet m k = some x ∨ ∃ e ∈ l, e.1 = k) : tbGet (l.foldl (fun m e => tbSet m e.1 (f e)) m) k = some x := by
  induction l generalizing m with
  | nil => exact hk.resolve_right (by simp)
  | cons e l ih =>
    refine ih (fun u hu => hx u (List.mem_cons_of_mem _ hu)) ?_
    by_cases hek : e.1 = k
    · subst hek
      exact .inl ((tbGet_tbSet_self _ _ _).trans (congrArg some (hx e List.mem_cons_self rfl)))
    · rw [tbGet_tbSet_ne _ _ (Ne.symm hek)]
      refine hk.imp_right fun ⟨u, hu, huk⟩ => ?_
      rcases List.mem_cons.mp hu with rfl | hu
      · exact absurd huk hek
      · exact ⟨u, hu, huk⟩

end

/-! ### Requests -/

/-- The teams after a request to those of `l` (spec/23 R441). -/
def requestedTeams (s : State) (l ts : Tab Team) : Tab Team := l.foldl (fun m e => tbSet m e.1 (requestTeam s e.1 e.2)) ts

/-- What a team is asked to do does not depend on the other teams: requests one after another are requests at once. -/
theorem foldl_requestTeam (s : State) (l ts : Tab Team) :
    l.foldl (fun s e => setTeam s e.1 (requestTeam s e.1 e.2)) { s with teams := ts } =
      { s with teams := requestedTeams s l ts } := by
  induction l generalizing ts with
  | nil => rfl
  | cons e l ih => exact ih _

/-! ### The departure of a team -/

theorem leaveCrew_teams (s : State) (cid kid : Nat) : (leaveCrew s cid kid).teams = s.teams := by
  unfold leaveCrew
  extract_lets gone s1
  have h1 : s1.teams = s.teams := by
    unfold s1
    split <;> rfl
  split
  · exact h1
  · dsimp only
    split <;> exact h1

theorem writeUnits_teams (s : State) (ctx : Nat) (us : List Nat) : (writeUnits s ctx us).teams = s.teams :=
  ((Quiet.refl s).writeUnits ctx us).teams

/-! ### Safe points -/

/-- An element of a vector register after a safe-point save (spec/03 R90). -/
theorem vget_keepLive (rs : List Run) (t : Team) (n : Nat) {l : Nat} (hl : l < 1024) :
    vget (keepLive rs t) n l = if named rs 0 n then vget t n l else 0 := by
  have hreg : vkey n l / 1024 = n := by rw [vkey]; omega
  have hget := smGet_filter 0 t.v (fun key => named rs 0 (key / 1024)) (vkey n l)
  rwa [hreg] at hget

end Sys2Proof.Laws

namespace Sys2Proof.Proofs.Preemption

open Sys2Proof.Machine Sys2Proof.Spec Sys2Proof.Laws

section

variable {s s1 : State} {core slot tid : Nat} {t : Team} {full : Bool}

theorem preemptionRequest_does {kid : Nat} {k : Cluster} (hk : tbGet s.clusters kid = some k) (hp : k.state = .placed)
    (hw : preemptWanted s k = true) :
    Does (.preemptionRequest kid) s { s with teams := requestedTeams s (clusterTeams s k) s.teams } := by
  simp only [Does, exec, execPreemptionRequest, hk, hp, hw, decide_true, Bool.and_self, if_true]
  exact congrArg Host.Outcome.next (foldl_requestTeam s (clusterTeams s k) s.teams)

section

variable (hat : teamAt s core slot = some (tid, t))
include hat

theorem preemptionDeadline_does (hd : t.pre = .drain) (hc : t.reqCycle + 40000 ≤ s.cycle) :
    Does (.preemptionDeadline core slot) s (modTeam s tid fun t => { toHeader t with pre := .quiesce true }) := by
  simp only [Does, exec, execPreemptionDeadline, hat, hd, hc, decide_true, Bool.and_self, if_true]

theorem teamSave_whole (hq : t.pre = .quiesce true) (hm : mayStream s tid t = true) :
    Does (.teamSave core slot) s (modTeam s tid fun t => { t with pre := .save true }) := by
  simp only [Does, exec, execTeamSave, hat, hq, hm, if_true]

section

variable (hq : t.pre = .quiesce false) (hm : mayStream s tid t = true)
include hq hm

theorem teamSave_unreadable (hr : safeRuns s t = (s1, none)) :
    Does (.teamSave core slot) s (finish (modTeam s1 tid fun t => { t with pre := .save true })) := by
  simp only [Does, exec, execTeamSave, hat, hq, hm, hr, if_true, Bool.false_eq_true, if_false]

theorem teamSave_runs {rs : List Run} (hr : safeRuns s t = (s1, some rs)) :
    Does (.teamSave core slot) s (finish (modTeam s1 tid fun t => { keepLive rs t with pre := .save false })) := by
  simp only [Does, exec, execTeamSave, hat, hq, hm, hr, if_true, Bool.false_eq_true, if_false]

end

/-- The state in which the save of a team is written: the team is saved in `us` units, has left its slot, and its matrix engine passes on. -/
def streamed (s : State) (core tid : Nat) (t : Team) (us : List Nat) : State :=
  passMx (modTeam (writeUnits s t.ctx us) tid fun t => { t with pre := .saved, place := none, saveAt := us }) tid core

/-- That state, the team counted out of its crew and cluster. -/
def departed (s : State) (core tid : Nat) (t : Team) : State :=
  let s1 := streamed s core tid t (takeUnits s t.ctx (fullSave t))
  leaveCrew s1 t.crew (match tbGet s1.crews t.crew with | some c => c.cluster | none => 0)

theorem saveStreamDone_does (hs : t.pre = .save full) : Does (.saveStreamDone core slot) s (finish (departed s core tid t)) := by
  simp only [Does, exec, execSaveStreamDone, hat, hs]
  rfl

end

theorem departed_teams : (departed s core tid t).teams = tbMod s.teams tid fun t' =>
    { t' with pre := .saved, place := none, saveAt := takeUnits s t.ctx (fullSave t) } := by
  rw [departed, leaveCrew_teams]
  exact congrArg (tbMod · tid _) (writeUnits_teams _ _ _)

theorem clusterRestoreDone_does {kid : Nat} {k : Cluster} (hk : tbGet s.clusters kid = some k) (hr : k.state = .restoring) :
    let s1 := readSaves { s with clusters := tbMod s.clusters kid fun k => { k with state := .placed } } k
    Does (.clusterRestoreDone kid) s (finish ((clusterTeams s1 k).foldl resumeTeam s1)) := by
  simp only [Does, exec, execClusterRestoreDone, hk, hr, if_true]

end

/-- Settles O45: each clause is one of the steps above. -/
theorem preemptionAndRestore : Obligations.PreemptionAndRestore := by
  unfold Obligations.PreemptionAndRestore
  intro s
  refine ⟨?request, fun core slot tid t => preemptionDeadline_does, ?save, ?streamed, fun kid k => clusterRestoreDone_does, ?live⟩
  case request =>
    intro kid k hk hp hw
    refine ⟨_, preemptionRequest_does hk hp hw, rfl, fun tid hother => tbGet_foldl_tbSet_of_ne hother _, fun tid t ht hone => ?_⟩
    exact tbGet_foldl_tbSet_agree (f := fun e => requestTeam s e.1 e.2) (fun e he htid => by rw [hone e he htid]) (.inr ⟨_, ht, rfl⟩)
  case save =>
    rintro core slot tid t full hat hq hm
    exact ⟨fun hfull => teamSave_whole hat (hfull ▸ hq) hm, fun s1 hfull => teamSave_unreadable hat (hfull ▸ hq) hm,
      fun s1 rs hfull => teamSave_runs hat (hfull ▸ hq) hm⟩
  case streamed =>
    intro core slot tid t full hat ht hs
    refine ⟨_, _, saveStreamDone_does hat hs, ?_, rfl, fun u hu => ?_⟩
    · rw [State.team, departed_teams]
      exact (tbGet_tbMod_self _ _ _).trans (congrArg _ ht)
    · rw [State.team, departed_teams]
      exact tbGet_tbMod_ne _ _ hu
  case live =>
    intro rs t n l
    by_cases hl : l < 1024
    · exact .inl ((vget_keepLive rs t n hl).trans (by simp only [hl, true_and]))
    · exact .inr (Nat.not_lt.mp hl)

end Sys2Proof.Proofs.Preemption
end

section
/-! O46: queue control (spec/23 R426-R428, R431, R432; spec/25 R458). What a write of QCTL does is one equation over its bits; an enable and a
doorbell have one equation per case; what a write of SUSP asks for is told by what it leaves of each cluster. -/

namespace Sys2Proof.Proofs.QueueControl

open Sys2Proof.Machine Sys2Proof.Spec Sys2Proof.Laws

variable {s : State} {q : Nat} {v : W64}

/-! ### What a write of SUSP asks for -/

/-- From `s` to `s'` some of the clusters that `p` names have been asked to leave, and nothing else has changed. -/
structure Asks (p : Nat → Prop) (s s' : State) : Prop where
  frame : s' = { s with clusters := s'.clusters }
  cluster : ∀ kid k, tbGet s.clusters kid = some k → ∃ k', tbGet s'.clusters kid = some k' ∧ k' = { k with asked := k'.asked } ∧
    (k.asked = true → k'.asked = true) ∧ (p kid ∨ k' = k)

namespace Asks

variable {p : Nat → Prop} {s' s'' : State}

theorem refl (s : State) : Asks p s s := ⟨rfl, fun _ k hk => ⟨k, hk, rfl, id, .inr rfl⟩⟩

theorem trans (h : Asks p s s') (g : Asks p s' s'') : Asks p s s'' := by
  refine ⟨by rw [g.frame, h.frame], fun kid k hk => ?_⟩
  obtain ⟨k', hk', hk'eq, hasked', hp'⟩ := h.cluster kid k hk
  obtain ⟨k'', hk'', hk''eq, hasked'', hp''⟩ := g.cluster kid k' hk'
  refine ⟨k'', hk'', by rw [hk''eq, hk'eq], hasked'' ∘ hasked', ?_⟩
  rcases hp' with hp' | rfl
  · exact .inl hp'
  · exact hp''

theorem foldl {α : Type} {f : State → α → State} {l : List α} (hf : ∀ s, ∀ e ∈ l, Asks p s (f s e)) : Asks p s (l.foldl f s) := by
  induction l generalizing s with
  | nil => exact refl s
  | cons e l ih => exact (hf s e List.mem_cons_self).trans (ih fun s x hx => hf s x (List.mem_cons_of_mem _ hx))

/-- One cluster is asked. -/
theorem one {kid : Nat} (hp : p kid) : Asks p s { s with clusters := tbMod s.clusters kid fun k => { k with asked := true } } := by
  refine ⟨rfl, fun j k hk => ?_⟩
  by_cases hj : j = kid
  · subst hj
    exact ⟨{ k with asked := true }, (tbGet_tbMod_self _ _ _).trans (congrArg _ hk), rfl, fun _ => rfl, .inl hp⟩
  · exact ⟨k, (tbGet_tbMod_ne _ _ hj).trans hk, rfl, id, .inr rfl⟩

end Asks

/-- The clusters of a queue's launch that are not saved. -/
def unsavedOf (s : State) (q : Nat) : Tab Cluster := s.clusters.filter fun e => decide (e.2.state ≠ .saved) &&
  (match tbGet s.launches e.2.launch with | some l => l.queue == q | none => false)

theorem askSuspended_asks : Asks (· ∈ (unsavedOf s q).map (·.1)) s (askSuspended s q) := by
  refine Asks.foldl fun s1 i _ => Asks.foldl fun s2 e he => ?_
  split
  · exact Asks.one (List.mem_map_of_mem (List.mem_of_mem_filter he))
  · exact Asks.refl _

/-- Where a key names one cluster, only an unsaved cluster of the queue's launch is asked. -/
theorem not_mem_unsavedOf (hn : (s.clusters.map (·.1)).Nodup) {kid : Nat} {k : Cluster} (hk : tbGet s.clusters kid = some k)
    (h : k.state = .saved ∨ ∀ l, tbGet s.launches k.launch = some l → l.queue ≠ q) : kid ∉ (unsavedOf s q).map (·.1) := by
  intro hmem
  obtain ⟨⟨_, k'⟩, he, rfl⟩ := List.mem_map.mp hmem
  obtain ⟨hin, hsel⟩ := List.mem_filter.mp he
  obtain rfl : k' = k := congrArg Prod.snd (List.inj_on_of_nodup_map hn hin (mem_of_tbGet hk) rfl)
  simp only [Bool.and_eq_true, decide_eq_true_eq] at hsel
  obtain ⟨hsaved, hqueue⟩ := hsel
  rcases h with h | h
  · exact hsaved h
  · split at hqueue
    next l hl => exact h l hl (beq_iff_eq.mp hqueue)
    next => exact absurd hqueue Bool.false_ne_true

/-! ### Writes of QCTL -/

/-- SUSP as written, TORN and BAD cleared where a 1 is written. -/
def cleared (v : W64) (w : Queue) : Queue :=
  { w with susp := v.getLsbD 62, torn := w.torn && !v.getLsbD 61, bad := w.bad && !v.getLsbD 60 }

/-- The fields a write of QCTL leaves: CLASS and LOG2N are written where EN reads 0. -/
def qctlFields (v : W64) (w : Queue) : Queue :=
  { cleared v w with cls := if w.en then w.cls else v.toNat / 256 % 4, log2n := if w.en then w.log2n else v.toNat % 16 }

/-- `s1` after what the write `v` of SUSP in `s` asks for. -/
def suspended (s : State) (q : Nat) (v : W64) (s1 : State) : State :=
  if (s.queue q).susp = false ∧ v.getLsbD 62 = true then askSuspended s1 q else s1

theorem writeQctl_eq (s : State) (q : Nat) (v : W64) : writeQctl s q v =
    if v.getLsbD 63 = true then
      if (s.queue q).en = true then suspended s q v (modQueue s q (qctlFields v))
      else enableQueue (suspended s q v (modQueue s q (qctlFields v))) q
    else if (s.queue q).en = true then teardown (suspended s q v (modQueue s q (qctlFields v))) q false
    else suspended s q v (modQueue s q (qctlFields v)) := by
  have hfields : bitsOf v.toNat 8 2 = v.toNat / 256 % 4 ∧ bitsOf v.toNat 0 4 = v.toNat % 16 := by
    simp only [bitsOf]; omega
  simp only [writeQctl, bitsOf_one_beq_one, bitsOf_one_beq_zero, bitsOf_one_eq_one, hfields, suspended, Bool.and_eq_true,
    Bool.not_eq_true']
  rfl

/-- A change of a queue's registers is what it makes of them. -/
theorem modQueue_congr {f g : Queue → Queue} (h : f (s.queue q) = g (s.queue q)) : modQueue s q f = modQueue s q g :=
  congrArg (fun w => { s with queues := smSet Queue.zero s.queues q w }) h

section

variable (he : (s.queue q).en = true)
include he

theorem qctl_enabled : modQueue s q (qctlFields v) = modQueue s q (cleared v) :=
  modQueue_congr (by simp only [qctlFields, he, if_true]; rfl)

theorem writeQctl_stays (hv : v.getLsbD 63 = true) : writeQctl s q v = suspended s q v (modQueue s q (cleared v)) := by
  rw [writeQctl_eq, if_pos hv, if_pos he, qctl_enabled he]

theorem writeQctl_tears (hv : v.getLsbD 63 = false) :
    writeQctl s q v = teardown (suspended s q v (modQueue s q (cleared v))) q false := by
  rw [writeQctl_eq, if_neg (Bool.eq_false_iff.mp hv), if_pos he, qctl_enabled he]

end

section

variable (he : (s.queue q).en = false)
include he

theorem qctl_disabled : modQueue s q (qctlFields v) =
    modQueue s q fun w => { cleared v w with cls := v.toNat / 256 % 4, log2n := v.toNat % 16 } :=
  modQueue_congr (by simp only [qctlFields, he, Bool.false_eq_true, if_false])

theorem writeQctl_disabled (hv : v.getLsbD 63 = false) : writeQctl s q v = suspended s q v
    (modQueue s q fun w => { cleared v w with cls := v.toNat / 256 % 4, log2n := v.toNat % 16 }) := by
  rw [writeQctl_eq, if_neg (Bool.eq_false_iff.mp hv), if_neg (Bool.eq_false_iff.mp he), qctl_disabled he]

theorem writeQctl_enables (hv : v.getLsbD 63 = true) : writeQctl s q v = enableQueue (suspended s q v
    (modQueue s q fun w => { cleared v w with cls := v.toNat / 256 % 4, log2n := v.toNat % 16 })) q := by
  rw [writeQctl_eq, if_pos hv, if_neg (Bool.eq_false_iff.mp he), qctl_disabled he]

end

section

variable (hq : q < 128)
include hq

theorem queueEnable_does (he : (s.queue q).en = false) (hv : v.getLsbD 63 = true) :
    Does (.queueEnable q v) s (finish (writeQctl s q v)) := by
  simp only [Does, exec, execQueueEnable, isQueue, hq, he, hv, bitsOf_one_beq_one, decide_true, Bool.not_false, Bool.and_self, if_true]

theorem queueTeardown_does (he : (s.queue q).en = true) (hv : v.getLsbD 63 = false) :
    Does (.queueTeardown q v) s (finish (writeQctl s q v)) := by
  simp only [Does, exec, execQueueTeardown, isQueue, hq, he, hv, bitsOf_one_beq_zero, decide_true, Bool.not_false, Bool.and_self, if_true]

theorem queueSuspend_does (hs : (s.queue q).susp = false) (hv : v.getLsbD 62 = true) :
    Does (.queueSuspend q v) s (finish (writeQctl s q v)) := by
  simp only [Does, exec, execQueueSuspend, isQueue, hq, hs, hv, bitsOf_one_beq_one, decide_true, Bool.not_false, Bool.and_self, if_true]

theorem queueUnsuspend_does (hs : (s.queue q).susp = true) (hv : v.getLsbD 62 = false) :
    Does (.queueUnsuspend q v) s (finish (writeQctl s q v)) := by
  simp only [Does, exec, execQueueUnsuspend, isQueue, hq, hs, hv, bitsOf_one_beq_zero, decide_true, Bool.not_false, Bool.and_self, if_true]

theorem tornClear_does (ht : (s.queue q).torn = true) (hv : v.getLsbD 61 = true) :
    Does (.tornClear q v) s (finish (writeQctl s q v)) := by
  simp only [Does, exec, execTornClear, isQueue, hq, ht, hv, bitsOf_one_beq_one, decide_true, Bool.and_self, if_true]

/-! ### Doorbells -/

theorem doorbell_does {s1 : State} (h : writeQdoor s q v = s1) : Does (.doorbell q v) s s1 :=
  congrArg Host.Outcome.next ((if_pos (decide_eq_true hq)).trans h)

end

theorem writeQdoor_notReady (hcp : s.readyIo.getLsbD 18 = false) : writeQdoor s q v = s := if_pos (by rw [cpReady, hcp]; rfl)

theorem writeQdoor_ready (hcp : s.readyIo.getLsbD 18 = true) : writeQdoor s q v =
    if 2 ^ (s.queue q).log2n < (v.toNat % 65536 + 65536 - (s.queue q).head) % 65536 then modQueue s q fun w => { w with bad := true }
    else modQueue s q fun w => { w with tail := v.toNat % 65536 } :=
  if_neg (by rw [cpReady, hcp]; exact Bool.false_ne_true)

/-! ### Enables -/

theorem rebaseDone_rebasing (s : State) : (rebaseDone s).rebasing = false := by
  unfold rebaseDone
  split
  · rfl
  · exact Bool.eq_false_iff.mpr ‹_›

theorem rebaseDone_idle (h : s.rebasing = false) : rebaseDone s = s := if_neg (Bool.eq_false_iff.mp h)

/-- A rebase in progress ends before the enable. -/
theorem enableQueue_rebaseDone (s : State) (q : Nat) : enableQueue (rebaseDone s) q = enableQueue s q := by
  rw [enableQueue, rebaseDone_idle (rebaseDone_rebasing s), enableQueue]

/-- Whether the registers of a queue give it a legal ring (spec/23 R427). -/
def legalRing (s : State) (w : Queue) : Prop :=
  4 ≤ w.log2n ∧ w.log2n ≤ 12 ∧ w.base % 2 ^ (w.log2n + 9) = 0 ∧ inOneWindow s w.base (2 ^ (w.log2n + 9)) = true

section

variable (hr : s.rebasing = false)
include hr

theorem enableQueue_illegal (hl : ¬legalRing s (s.queue q)) : enableQueue s q = modQueue s q fun w => { w with bad := true } := by
  rw [enableQueue, rebaseDone_idle hr]
  refine if_pos ?_
  simp only [legalRing, not_and_or, Nat.not_le, Bool.not_eq_true] at hl
  simpa [or_assoc] using hl

variable (hl : legalRing s (s.queue q))
include hl

theorem enableQueue_legal : enableQueue s q = match enableContext s (s.queue q).ctxAddr with
    | (s1, none) => modQueue s1 q fun w => { w with bad := true }
    | (s1, some i) => modQueue (detach s1 q) q fun w =>
        { w with en := true, head := 0, tail := 0, ctxidx := i, dead := false, killed := false, ring := w.base, ringLog := w.log2n } := by
  obtain ⟨hlow, hhigh, halign, hwindow⟩ := hl
  rw [enableQueue, rebaseDone_idle hr]
  refine (if_neg ?_).trans ?_
  · simp [hwindow, halign, Nat.not_lt.mpr hlow, hhigh]
  · rfl

theorem enableQueue_noContext {s1 : State} (hc : enableContext s (s.queue q).ctxAddr = (s1, none)) :
    enableQueue s q = modQueue s1 q fun w => { w with bad := true } := by
  rw [enableQueue_legal hr hl, hc]

theorem enableQueue_enables {s1 : State} {i : Nat} (hc : enableContext s (s.queue q).ctxAddr = (s1, some i)) :
    enableQueue s q = modQueue (detach s1 q) q fun w =>
      { w with en := true, head := 0, tail := 0, ctxidx := i, dead := false, killed := false, ring := w.base, ringLog := w.log2n } := by
  rw [enableQueue_legal hr hl, hc]

end

/-- Settles O46: each clause is one of the writes above. -/
theorem queueControl : Obligations.QueueControl := by
  unfold Obligations.QueueControl
  intro s q v hq
  refine ⟨queueEnable_does hq, queueTeardown_does hq, queueSuspend_does hq, queueUnsuspend_does hq, tornClear_does hq,
    ⟨writeQctl_stays, writeQctl_tears, fun he => ⟨writeQctl_disabled he, writeQctl_enables he⟩⟩, ⟨askSuspended_asks.frame, ?asked⟩,
    fun _ => ⟨(enableQueue_rebaseDone s q).symm, rebaseDone_rebasing s⟩,
    fun hr => ⟨enableQueue_illegal hr, fun s1 hl => enableQueue_noContext hr hl, fun s1 i hl => enableQueue_enables hr hl⟩,
    fun hcp => doorbell_does hq (writeQdoor_notReady hcp), fun hcp => ⟨fun hin => ?tail, fun hout => ?bad⟩⟩
  case asked =>
    intro hn kid k hk
    obtain ⟨k', hk', heq, hasked, hp⟩ := (askSuspended_asks (q := q)).cluster kid k hk
    exact ⟨k', hk', heq, hasked, fun h => hp.resolve_left (not_mem_unsavedOf hn hk h)⟩
  case tail => exact doorbell_does hq ((writeQdoor_ready hcp).trans (if_neg (Nat.not_lt.mpr hin)))
  case bad => exact doorbell_does hq ((writeQdoor_ready hcp).trans (if_pos hout))

end Sys2Proof.Proofs.QueueControl
end

section
/-! What stays as it is while bytes move between the agents of the memory system. The bookkeeping of the homes, the lees, the LLC and the error
stages (`atRest`) moves no byte and no queued write; writes that reach their homes (`fixtures`) leave the READY bits, the frame table, the masks,
the crews and the host link but for the floors of its ports. -/

namespace Sys2Proof.Laws

open Sys2Proof.Machine

/-- A view of the state that each of the steps leaves is left by all of them. -/
theorem foldl_view {σ α β : Type} {view : σ → β} {f : σ → α → σ} (h : ∀ s e, view (f s e) = view s) (l : List α) (s : σ) :
    view (l.foldl f s) = view s := by
  induction l generalizing s with
  | nil => rfl
  | cons e l ih => exact (ih _).trans (h s e)

theorem next_finish {a b : State} (h : a = b) : (Host.Outcome.next (finish a) : Host.Outcome State Fault Refusal) = .next (finish b) :=
  congrArg (fun x => Host.Outcome.next (finish x)) h

theorem mem_insertNew {α : Type} [DecidableEq α] {l : List α} {x g : α} : x ∈ insertNew l g ↔ x ∈ l ∨ x = g := by
  unfold insertNew
  split
  · exact ⟨.inl, fun h => h.elim id (· ▸ ‹g ∈ l›)⟩
  · simp

/-- The replays of every launch: what its index of writes leaves of it. -/
def replaysOf (s : State) : Nat → Option Nat := fun k => (tbGet s.launches k).map Launch.replays

/-- What a move of bytes leaves as it is. -/
structure Fixtures where
  crews : Tab Crew
  groups : Tab Group
  tracked : List Nat
  stk : Tab Stack
  readyStack : BitVec 12
  readyIo : BitVec 21
  leesMode : Nat
  host : HostLink
  replays : Nat → Option Nat

/-- The fixtures of a state; the floors of the ports follow the writes they made. -/
def fixtures (s : State) : Fixtures :=
  ⟨s.crews, s.groups, s.tracked, s.stk, s.readyStack, s.readyIo, s.leesMode, { s.host with floors := [] }, replaysOf s⟩

/-- What the bookkeeping leaves as it is. -/
structure AtRest where
  mem : List Host.Cell
  homeq : List HomeWrite
  host : HostLink
  fixtures : Fixtures

/-- That of a state. -/
def atRest (s : State) : AtRest := ⟨s.mem, s.homeq, s.host, fixtures s⟩

theorem replaysOf_congr {s s' : State} (h : s'.launches = s.launches) : replaysOf s' = replaysOf s :=
  congrArg (fun m k => (tbGet m k).map Launch.replays) h

/-- A change of the other fields. -/
theorem atRest_upd {s s' : State} (hmem : s'.mem = s.mem) (hhomeq : s'.homeq = s.homeq) (hhost : s'.host = s.host) (hcrews : s'.crews = s.crews)
    (hgroups : s'.groups = s.groups) (htracked : s'.tracked = s.tracked) (hstk : s'.stk = s.stk) (hstack : s'.readyStack = s.readyStack)
    (hio : s'.readyIo = s.readyIo) (hmode : s'.leesMode = s.leesMode) (hlaunches : s'.launches = s.launches) : atRest s' = atRest s := by
  simp only [atRest, fixtures, hmem, hhomeq, hhost, hcrews, hgroups, htracked, hstk, hstack, hio, hmode, replaysOf_congr hlaunches]

theorem fixtures_upd {s s' : State} (hhost : s'.host = s.host) (hcrews : s'.crews = s.crews) (hgroups : s'.groups = s.groups)
    (htracked : s'.tracked = s.tracked) (hstk : s'.stk = s.stk) (hstack : s'.readyStack = s.readyStack) (hio : s'.readyIo = s.readyIo)
    (hmode : s'.leesMode = s.leesMode) (hlaunches : s'.launches = s.launches) : fixtures s' = fixtures s := by
  simp only [fixtures, hhost, hcrews, hgroups, htracked, hstk, hstack, hio, hmode, replaysOf_congr hlaunches]

theorem fixtures_of_atRest {s s' : State} (h : atRest s' = atRest s) : fixtures s' = fixtures s := congrArg AtRest.fixtures h

variable {s s' : State}

/-- A launch put back with its replays leaves those of all launches. -/
theorem replaysOf_tbSet {k : Nat} {l l' : Launch} (hl : tbGet s.launches k = some l) (hr : l'.replays = l.replays) :
    replaysOf { s with launches := tbSet s.launches k l' } = replaysOf s := by
  funext j
  by_cases hj : j = k
  · simp [replaysOf, hj, hl, hr]
  · simp [replaysOf, tbGet_tbSet_ne _ _ hj]

/-- So does a change of a launch that leaves its own. -/
theorem replaysOf_modLaunch {f : Launch → Launch} (k : Nat) (hf : ∀ l, (f l).replays = l.replays) :
    replaysOf (modLaunch s k f) = replaysOf s := by
  funext j
  by_cases hj : j = k
  · simp [replaysOf, hj, Function.comp_def, hf]
  · simp [replaysOf, tbGet_tbMod_ne _ _ hj]

/-- A launch put back with its replays is bookkeeping. -/
theorem atRest_tbSet {k : Nat} {l l' : Launch} (hl : tbGet s.launches k = some l) (hr : l'.replays = l.replays) :
    atRest { s with launches := tbSet s.launches k l' } = atRest s :=
  congrArg (fun x => AtRest.mk s.mem s.homeq s.host { fixtures s with replays := x }) (replaysOf_tbSet hl hr)

theorem atRest_modLaunch {f : Launch → Launch} (k : Nat) (hf : ∀ l, (f l).replays = l.replays) : atRest (modLaunch s k f) = atRest s :=
  congrArg (fun x => AtRest.mk s.mem s.homeq s.host { fixtures s with replays := x }) (replaysOf_modLaunch k hf)

/-! ### What the fixtures determine -/

theorem crews_of_fixtures (h : fixtures s' = fixtures s) : s'.crews = s.crews := congrArg Fixtures.crews h

theorem readyIo_of_fixtures (h : fixtures s' = fixtures s) : s'.readyIo = s.readyIo := congrArg Fixtures.readyIo h

theorem replaysOf_of_fixtures (h : fixtures s' = fixtures s) : replaysOf s' = replaysOf s := congrArg Fixtures.replays h

theorem hostlim_of_fixtures (h : fixtures s' = fixtures s) : s'.host.hostlim = s.host.hostlim :=
  congrArg (fun x => x.host.hostlim) h

theorem keyOfPa_of_fixtures (h : fixtures s' = fixtures s) (pa : Nat) : keyOfPa s' pa = keyOfPa s pa := by
  have hmode : s'.leesMode = s.leesMode := congrArg Fixtures.leesMode h
  simp only [keyOfPa, hmode, hostlim_of_fixtures h]

theorem reachable_of_fixtures (h : fixtures s' = fixtures s) (k : Nat) : reachable s' k = reachable s k := by
  have hstack : s'.readyStack = s.readyStack := congrArg Fixtures.readyStack h
  simp only [reachable, stackReady, portUp, hstack, readyIo_of_fixtures h]

theorem trackedPa_of_fixtures (h : fixtures s' = fixtures s) (pa : Nat) : trackedPa s' pa = trackedPa s pa := by
  have htracked : s'.tracked = s.tracked := congrArg Fixtures.tracked h
  simp only [trackedPa, htracked]

theorem homeOf_of_fixtures (h : fixtures s' = fixtures s) (k : Nat) : homeOf s' k = homeOf s k := by
  have hstk : s'.stk = s.stk := congrArg Fixtures.stk h
  simp only [homeOf, State.stack, hstk]

theorem paUsable_of_fixtures (h : fixtures s' = fixtures s) (pa n : Nat) : paUsable s' pa n = paUsable s pa n := by
  simp only [paUsable, keyOfPa_of_fixtures h, reachable_of_fixtures h]

theorem stashPlaces_of_fixtures (h : fixtures s' = fixtures s) (sec : Nat) : stashPlaces s' sec = stashPlaces s sec := by
  simp only [stashPlaces, crews_of_fixtures h]

/-! ### Bookkeeping -/

@[simp] theorem atRest_pushErr (r : ErrRec) : atRest (pushErr s r) = atRest s :=
  atRest_upd rfl rfl rfl rfl rfl rfl rfl rfl rfl rfl rfl

@[simp] theorem atRest_pcAsk (home cls : Nat) : atRest (pcAsk s home cls) = atRest s :=
  atRest_upd rfl rfl rfl rfl rfl rfl rfl rfl rfl rfl rfl

@[simp] theorem atRest_pcMiss (sec cls : Nat) : atRest (pcMiss s sec cls) = atRest s :=
  atRest_upd rfl rfl rfl rfl rfl rfl rfl rfl rfl rfl rfl

@[simp] theorem atRest_setPoison (sec : Nat) (b : Bool) : atRest (setPoison s sec b) = atRest s :=
  atRest_upd rfl rfl rfl rfl rfl rfl rfl rfl rfl rfl rfl

@[simp] theorem atRest_backInvalidate (sec : Nat) : atRest (backInvalidate s sec) = atRest s :=
  atRest_upd rfl rfl rfl rfl rfl rfl rfl rfl rfl rfl rfl

@[simp] theorem atRest_markShared (sec : Nat) : atRest (markShared s sec) = atRest s :=
  atRest_upd rfl rfl rfl rfl rfl rfl rfl rfl rfl rfl rfl

@[simp] theorem atRest_setClock (home c : Nat) : atRest (setClock s home c) = atRest s := by
  unfold setClock
  split <;> exact atRest_upd rfl rfl rfl rfl rfl rfl rfl rfl rfl rfl rfl

@[simp] theorem atRest_correctSector (sec finder : Nat) : atRest (correctSector s sec finder) = atRest s := by
  unfold correctSector
  dsimp only
  repeat' split
  all_goals exact atRest_upd rfl rfl rfl rfl rfl rfl rfl rfl rfl rfl rfl

@[simp] theorem atRest_sense (sec finder : Nat) : atRest (sense s sec finder) = atRest s := by
  unfold sense
  split
  · rw [atRest_correctSector]
    split <;> exact atRest_upd rfl rfl rfl rfl rfl rfl rfl rfl rfl rfl rfl
  · rfl

@[simp] theorem atRest_writeBack (sec : Nat) : atRest (writeBack s sec) = atRest s := by
  unfold writeBack
  split <;> exact atRest_upd rfl rfl rfl rfl rfl rfl rfl rfl rfl rfl rfl

@[simp] theorem atRest_llcEvict : atRest (llcEvict s) = atRest s := by
  unfold llcEvict
  split
  · rfl
  · exact atRest_writeBack _

@[simp] theorem atRest_addDirty (sec : Nat) : atRest (addDirty s sec) = atRest s := by
  unfold addDirty
  split
  · rfl
  · exact Eq.trans (atRest_upd rfl rfl rfl rfl rfl rfl rfl rfl rfl rfl rfl) (atRest_llcEvict (s := s))

@[simp] theorem atRest_touchCxl (sec : Nat) (dirty : Bool) : atRest (touchCxl s sec dirty) = atRest s := by
  unfold touchCxl
  split
  · exact atRest_upd rfl rfl rfl rfl rfl rfl rfl rfl rfl rfl rfl
  · exact Eq.trans (atRest_upd rfl rfl rfl rfl rfl rfl rfl rfl rfl rfl rfl) (atRest_llcEvict (s := s))

@[simp] theorem atRest_uncache (sec : Nat) : atRest (uncache s sec) = atRest s :=
  Eq.trans (atRest_upd rfl rfl rfl rfl rfl rfl rfl rfl rfl rfl rfl) (atRest_writeBack (s := s) sec)

/-! ### The lees -/

@[simp] theorem atRest_reclaimHead (n want fuel : Nat) : atRest (reclaimHead n want fuel s) = atRest s := by
  induction fuel generalizing s with
  | zero => rfl
  | succ fuel ih =>
    unfold reclaimHead
    split
    · rfl
    · split
      · rfl
      · split
        · rfl
        · exact ih.trans (atRest_upd rfl rfl rfl rfl rfl rfl rfl rfl rfl rfl rfl)

@[simp] theorem atRest_reclaimStep (n want : Nat) : atRest (reclaimStep s n want) = atRest s := atRest_reclaimHead _ _ _

@[simp] theorem atRest_releaseLaunchPin : atRest (releaseLaunchPin s) = atRest s := by
  unfold releaseLaunchPin
  split
  · rename_i p _
    have hpins : atRest { s with lpins := s.lpins.filter fun q => q.id != p.id } = atRest s :=
      atRest_upd rfl rfl rfl rfl rfl rfl rfl rfl rfl rfl rfl
    refine (atRest_pushErr _).trans ((atRest_modLaunch (s := { s with lpins := _ }) p.launch fun l => ?_).trans hpins)
    split <;> rfl
  · rfl

@[simp] theorem atRest_releaseGenPin : atRest (releaseGenPin s) = atRest s := by
  unfold releaseGenPin
  split <;> exact atRest_upd rfl rfl rfl rfl rfl rfl rfl rfl rfl rfl rfl

@[simp] theorem atRest_reclaim (n want fuel : Nat) : atRest (reclaim n want fuel s) = atRest s := by
  induction fuel generalizing s with
  | zero => exact atRest_reclaimStep _ _
  | succ fuel ih =>
    unfold reclaim
    dsimp only
    split
    · exact atRest_reclaimStep _ _
    · split
      · simp
      · simp [ih]

@[simp] theorem atRest_writeSlots (n slot count : Nat) : atRest (writeSlots s n slot count) = atRest s := by
  unfold writeSlots
  split
  · rfl
  · refine foldl_view (fun s x => ?_) _ s
    refine (foldl_view (fun s y => ?_) _ _).trans (atRest_upd rfl rfl rfl rfl rfl rfl rfl rfl rfl rfl rfl)
    split <;> exact atRest_upd rfl rfl rfl rfl rfl rfl rfl rfl rfl rfl rfl

@[simp] theorem atRest_appendLees (n : Nat) (r : Lees) : atRest (appendLees s n r) = atRest s := by
  have hroom : atRest (if slotsUsed s n + slotsOf r ≤ slotsAll s then s else reclaim n (slotsOf r) ((livePins s).length + 1) s) = atRest s := by
    split
    · rfl
    · exact atRest_reclaim _ _ _
  have hslots : ∀ (s1 : State) m, atRest (writeSlots s1 n m (slotsOf r)) = atRest s1 := fun _ _ => atRest_writeSlots _ _ _
  have hadd : ∀ s1 : State, atRest { s1 with lees := smSet [] s1.lees n (leesOf s1 n ++ [r]) } = atRest s1 := fun _ =>
    atRest_upd rfl rfl rfl rfl rfl rfl rfl rfl rfl rfl rfl
  have hpress : ∀ s1 : State, atRest (if (slotsAll s1 - slotsUsed s1 n) * 64 < slotsAll s1 then
      { s1 with press := setBit s1.press n true } else s1) = atRest s1 := by
    intro s1
    split
    · exact atRest_upd rfl rfl rfl rfl rfl rfl rfl rfl rfl rfl rfl
    · rfl
  exact (hpress _).trans ((hadd _).trans ((hslots _ _).trans hroom))

@[simp] theorem atRest_noteIndex (n launch : Nat) : atRest (noteIndex s n launch) = atRest s := by
  unfold noteIndex
  split
  · exact atRest_upd rfl rfl rfl rfl rfl rfl rfl rfl rfl rfl rfl
  · exact atRest_appendLees _ _

@[simp] theorem atRest_indexSector (launch sec : Nat) : atRest (indexSector s launch sec) = atRest s := by
  unfold indexSector
  split
  · rename_i l hl
    split
    · exact (atRest_noteIndex _ _).trans (atRest_tbSet hl rfl)
    · rfl
  · rfl

@[simp] theorem atRest_indexBlock (launch blk : Nat) : atRest (indexBlock s launch blk) = atRest s := by
  unfold indexBlock
  split
  · rename_i l hl
    split
    · exact (atRest_noteIndex _ _).trans (atRest_tbSet hl rfl)
    · rfl
  · rfl

@[simp] theorem atRest_settleBlock (blk : Nat) : atRest (settleBlock s blk) = atRest s :=
  (foldl_view (fun _ _ => atRest_correctSector _ _) _ _).trans (foldl_view (fun _ _ => atRest_writeBack _) _ s)

@[simp] theorem atRest_beforeUntracked (k tag launch : Nat) : atRest (beforeUntracked s k tag launch) = atRest s := by
  have hcopy : ∀ r, atRest (appendLees (pcAsk (settleBlock s (k / 4096)) (homeOf (settleBlock s (k / 4096)) k) 4) (stackOf k) r) = atRest s :=
    fun _ => (atRest_appendLees _ _).trans ((atRest_pcAsk _ _).trans (atRest_settleBlock _))
  have hmarks : ∀ s1 : State, atRest s1 = atRest s → atRest (indexBlock { s1 with
      blocks := smSet 0 s1.blocks (k / 4096) s1.boundary,
      lees := smSet [] s1.lees (stackOf k) (markMixed (k / 4096) tag (leesOf s1 (stackOf k))) } launch (k / 4096)) = atRest s := fun _ h =>
    (atRest_indexBlock _ _).trans (Eq.trans (atRest_upd rfl rfl rfl rfl rfl rfl rfl rfl rfl rfl rfl) h)
  unfold beforeUntracked
  dsimp only
  apply hmarks
  split
  · rfl
  · split
    · exact hcopy _
    · rfl

/-! ### Bytes written -/

@[simp] theorem fixtures_memWrite (k : Nat) (bs : List Byte) : fixtures (memWrite s k bs) = fixtures s := by
  induction bs generalizing s k with
  | nil => rfl
  | cons b bs ih => exact ih _

@[simp] theorem fixtures_tagWrite (k : Nat) (fl : W64) (n : Nat) : fixtures (tagWrite s k fl n) = fixtures s := by
  induction n generalizing s k with
  | zero => rfl
  | succ n ih => exact (ih _).trans (fixtures_upd rfl rfl rfl rfl rfl rfl rfl rfl rfl)

@[simp] theorem fixtures_copyTags (src dst n : Nat) : fixtures (copyTags s src dst n) = fixtures s := by
  induction n generalizing s src dst with
  | zero => rfl
  | succ n ih => exact (ih _ _).trans (fixtures_upd rfl rfl rfl rfl rfl rfl rfl rfl rfl)

@[simp] theorem fixtures_setPoison (sec : Nat) (b : Bool) : fixtures (setPoison s sec b) = fixtures s :=
  fixtures_upd rfl rfl rfl rfl rfl rfl rfl rfl rfl

@[simp] theorem fixtures_forwardStash (sec : Nat) : fixtures (forwardStash s sec) = fixtures s :=
  foldl_view (fun _ _ => by simp) _ s

@[simp] theorem fixtures_keepQueued (sec : Nat) : fixtures (keepQueued s sec) = fixtures s := by
  refine foldl_view (fun s w => ?_) _ s
  split
  · split <;> simp
  · rfl

@[simp] theorem fixtures_putUntracked (k : Nat) (data : List Byte) (fl : W64) (tag launch : Nat) :
    fixtures (putUntracked s k data fl tag launch) = fixtures s := by
  have hwrite : ∀ s1 x, fixtures (tagWrite (memWrite { s1 with flips := x } k data) k fl data.length) = fixtures s1 := fun s1 x =>
    (fixtures_tagWrite _ _ _).trans ((fixtures_memWrite _ _).trans (fixtures_upd rfl rfl rfl rfl rfl rfl rfl rfl rfl))
  have hbefore : fixtures (if isHbm k then beforeUntracked s k tag launch else s) = fixtures s := by
    split
    · exact fixtures_of_atRest (atRest_beforeUntracked _ _ _)
    · rfl
  have hpoison : ∀ s1 : State, fixtures (if data.length = 64 then setPoison s1 (sectorOf k) false else s1) = fixtures s1 := by
    intro s1
    split <;> [exact fixtures_setPoison _ _; rfl]
  have hdirty : ∀ s1 : State, fixtures (if isHbm k then addDirty s1 (sectorOf k)
      else if isCxl k then touchCxl s1 (sectorOf k) true else s1) = fixtures s1 := by
    intro s1
    split
    · exact fixtures_of_atRest (atRest_addDirty _)
    · split
      · exact fixtures_of_atRest (atRest_touchCxl _ _)
      · rfl
  exact (hdirty _).trans ((hpoison _).trans ((hwrite _ _).trans hbefore))

@[simp] theorem fixtures_stampAssign (k : Nat) (data : List Byte) (fl : W64) (tag launch : Nat) (poison : Bool) :
    fixtures (stampAssign s k data fl tag launch poison).1 = fixtures s := by
  have hindex : ∀ s1 : State, fixtures (indexSector s1 launch (sectorOf k)) = fixtures s1 := fun _ =>
    fixtures_of_atRest (atRest_indexSector _ _)
  have hwrite : ∀ s1 x y, fixtures (tagWrite (memWrite { s1 with sectors := x, flips := y } k data) k fl data.length) = fixtures s1 :=
    fun s1 x y => (fixtures_tagWrite _ _ _).trans ((fixtures_memWrite _ _).trans (fixtures_upd rfl rfl rfl rfl rfl rfl rfl rfl rfl))
  have hclock : ∀ c, fixtures (setClock (correctSector s (sectorOf k) 3) (homeOf s k) c) = fixtures s := fun c =>
    fixtures_of_atRest ((atRest_setClock _ _).trans (atRest_correctSector _ _))
  have hlees : ∀ (s1 : State) r x, fixtures (if leesOn s1 = true then appendLees (pcAsk s1 (homeOf s k) 4) (stackOf k) r
      else { s1 with horizon := x }) = fixtures s1 := by
    intro s1 r x
    split
    · exact fixtures_of_atRest ((atRest_appendLees _ _).trans (atRest_pcAsk _ _))
    · rfl
  unfold stampAssign
  dsimp only
  split
  · rfl
  · refine (hindex _).trans ?_
    split
    · exact (hwrite _ _ _).trans ((hlees _ _ _).trans (hclock _))
    · split <;> exact (hwrite _ _ _).trans ((hlees _ _ _).trans (hclock _))

/-! ### Writes that reach their homes -/

@[simp] theorem fixtures_returnStamp (w : HomeWrite) (r : Option W64) : fixtures (returnStamp s w r) = fixtures s := by
  have hline : fixtures (stampL1 s w r) = fixtures s := by
    unfold stampL1
    split <;> rfl
  have hlater : ∀ (s1 : State) o x, fixtures (raiseLater s1 o x) = fixtures s1 := by
    intro s1 o x
    unfold raiseLater
    split <;> rfl
  have hop : ∀ s1 : State, fixtures (returnOp s1 w r) = fixtures s1 := by
    intro s1
    unfold returnOp
    split
    · exact hlater _ _ _
    · unfold failCmd
      split
      · split <;> rfl
      · rfl
    · split <;> rfl
  have hothers : ∀ (s1 : State) x, fixtures (returnOthers s1 w x) = fixtures s1 := by
    intro s1 x
    unfold returnOthers
    cases w.cmd <;> cases w.port <;> rfl
  exact (hothers _ _).trans ((hop _).trans hline)

@[simp] theorem fixtures_homeStep (home : Nat) : fixtures (homeStep s home) = fixtures s := by
  unfold homeStep
  split
  · rfl
  · rename_i w rest _
    have hthrough : ∀ s1 : State, fixtures (putThrough s1 w) = fixtures s1 := by
      intro s1
      refine (fixtures_of_atRest (atRest_uncache _)).trans ?_
      simp [fixtures_of_atRest (atRest_backInvalidate (s := s1) (sectorOf w.key))]
    dsimp only
    split
    · split
      · rw [fixtures_returnStamp, hthrough]; rfl
      · rw [fixtures_returnStamp]; rfl
    · split
      · rw [fixtures_returnStamp]
        change fixtures (ite _ _ _) = _
        split
        · rw [fixtures_keepQueued, fixtures_forwardStash, fixtures_stampAssign]; rfl
        · rw [fixtures_stampAssign]; rfl
      · rw [fixtures_returnStamp]; rfl

theorem fixtures_drainWrites (p : HomeWrite → Bool) (fuel : Nat) (s : State) : fixtures (drainWrites p fuel s) = fixtures s := by
  induction fuel generalizing s with
  | zero => rfl
  | succ fuel ih =>
    unfold drainWrites
    split
    · exact (ih _).trans (fixtures_homeStep _)
    · rfl

theorem fixtures_drainPa (pa n : Nat) : fixtures (drainPa s pa n) = fixtures s := by
  refine foldl_view (fun s x => ?_) _ s
  dsimp only
  split
  · rename_i l hl
    split
    · exact fixtures_drainWrites _ _ _
    · rfl
  · rfl

end Sys2Proof.Laws
end

section
/-! O47: launches (spec/23 R428, R433, R434, R438; spec/25 R457, R458, R460; spec/21 R418, R419). Each step is one evaluation of the model under its
own condition; a STATUS that cannot be written needs that the writes drained before it leave the READY bits. -/

namespace Sys2Proof.Proofs.Launches

open Sys2Proof.Machine Sys2Proof.Spec Sys2Proof.Laws

variable {s s1 s2 : State} {q lid : Nat} {l : Launch}

/-! ### Admission -/

/-- The record at HEAD, as the CP reads it (spec/23 R428). -/
def readRecord (s : State) (q : Nat) : State × Option (List Byte) :=
  if paUsable s (recordPa s q (s.queue q).head) 512 = true then readPa s (recordPa s q (s.queue q).head) 512 0 else (s, none)

section

variable (he : eligible s q = true)
include he

theorem launchAdmission_refuses {code : Nat} (hc : deadCode (s.queue q) = some code) :
    Does (.launchAdmission q) s (finish (completeRecord s q code 0)) := by
  simp only [Does, exec, execLaunchAdmission, he, hc, Bool.not_true, Bool.false_eq_true, if_false]

section

variable (hc : deadCode (s.queue q) = none)
include hc

theorem launchAdmission_unreadable (hr : readRecord s q = (s1, none)) : Does (.launchAdmission q) s
    (finish (tornRec (completeRecord (setTorn s1 q) q 0x05 0x10) q 2 0x10 0)) := by
  rw [readRecord] at hr
  simp only [Does, exec, execLaunchAdmission, he, hc, hr, Bool.not_true, Bool.false_eq_true, if_false]

variable {d : List Byte} (hr : readRecord s q = (s1, some d))
include hr

theorem launchAdmission_illFormed {off : Nat} (hk : recordCheck s1 (s.queue q).ctxidx d = (s2, .error off)) :
    Does (.launchAdmission q) s (finish (completeRecord s2 q 0x01 off)) := by
  rw [readRecord] at hr
  simp only [Does, exec, execLaunchAdmission, he, hc, hr, hk, Bool.not_true, Bool.false_eq_true, if_false]

theorem launchAdmission_admits {spt : List Nat} (hk : recordCheck s1 (s.queue q).ctxidx d = (s2, .ok spt)) :
    Does (.launchAdmission q) s (finish (admitRecord s2 q (s.queue q).ctxidx d spt)) := by
  rw [readRecord] at hr
  simp only [Does, exec, execLaunchAdmission, he, hc, hr, hk, Bool.not_true, Bool.false_eq_true, if_false]

end

end

theorem deadCode_killed {r : Queue} (h : r.killed = true) : deadCode r = some 0x06 := if_pos h

/-- A queue that is torn, torn down or disabled completes its records unread (spec/23 R432; spec/25 R458). -/
theorem deadCode_ended {r : Queue} (hk : r.killed = false) (h : r.torn = true ∨ r.dead = true ∨ r.en = false) :
    deadCode r = some 0x05 :=
  (if_neg (Bool.eq_false_iff.mp hk)).trans (if_pos (by simpa [or_assoc] using h))

theorem deadCode_live {r : Queue} (hk : r.killed = false) (h : ¬(r.torn = true ∨ r.dead = true ∨ r.en = false)) : deadCode r = none :=
  (if_neg (Bool.eq_false_iff.mp hk)).trans (if_neg (by simpa [or_assoc] using h))

/-- A STATUS whose memory cannot be reached is lost, and HEAD goes on (spec/23 R428). -/
theorem completeRecord_unreachable {code detail : Nat} (h : paUsable s (recordPa s q (s.queue q).head) 8 = false) :
    completeRecord s q code detail = modQueue s q fun r => { r with head := (r.head + 1) % 65536 } := by
  have hput : devicePut s (recordPa s q (s.queue q).head) (leBytes 8 (statusWord code detail)) = none := by
    refine if_neg ?_
    rw [leBytes_length, paWritable, paUsable_of_fixtures (fixtures_drainPa _ _), h]
    exact Bool.false_ne_true
  rw [completeRecord, putStatus, hput]
  rfl

/-! ### Placement -/

theorem clusterPlacement_notReady (hcp : s.readyIo.getLsbD 18 = false) (c : Nat) : Does (.clusterPlacement c) s s :=
  congrArg Host.Outcome.next (if_pos (by rw [cpReady, hcp]; rfl))

theorem spawnedTeamPlacement_notReady (hcp : s.readyIo.getLsbD 18 = false) (c : Nat) : Does (.spawnedTeamPlacement c) s s :=
  congrArg Host.Outcome.next (if_pos (by rw [cpReady, hcp]; rfl))

section

variable (hcp : s.readyIo.getLsbD 18 = true)
include hcp

theorem clusterPlacement_saved {kid : Nat} {k : Cluster} (hk : tbGet s.clusters kid = some k) (hl : tbGet s.launches k.launch = some l)
    (hs : k.state = .saved) (hsusp : (s.queue l.queue).susp = false) (hd : l.dying = none) :
    Does (.clusterPlacement kid) s (placeSaved s kid k l) := by
  simp only [Does, exec, execClusterPlacement, cpReady, hcp, hk, hl, hs, hsusp, hd, Bool.not_true, Bool.not_false, decide_true,
    Option.isNone_none, Bool.and_self, Bool.false_eq_true, if_false, if_true]

theorem clusterPlacement_next (hk : tbGet s.clusters lid = none) (hl : tbGet s.launches lid = some l) (hm : mayPlace s l = true) :
    Does (.clusterPlacement lid) s (finish (placeNext s lid l)) := by
  simp only [Does, exec, execClusterPlacement, cpReady, hcp, hk, hl, hm, Bool.not_true, Bool.false_eq_true, if_false, if_true]

/-! ### Completion and consumption -/

theorem launchCompletion_does (hl : tbGet s.launches lid = some l) (he : launchEmpty s lid = true) (hw : writesSettled s lid = true)
    (hd : l.dying = none) (hr : l.restoring = false) : Does (.launchCompletion lid) s (finish (forgetContext
      (completeLaunch (endLaunch s lid l) l (l.doneCode.getD (0, 0)).1 (l.doneCode.getD (0, 0)).2) l.ctx)) := by
  simp only [Does, exec, execLaunchCompletion, completable, cpReady, hcp, hl, he, hw, hd, hr, Bool.not_false, Option.isNone_none,
    Bool.and_self, if_true]

end

theorem completeLaunch_attached (hd : l.detached = false) (code detail : Nat) :
    completeLaunch s l code detail = completeRecord s l.queue code detail :=
  if_neg (Bool.eq_false_iff.mp hd)

theorem consume_does {r : ErrRec} (hl : tbGet s.launches lid = some l) (hd : l.dying = some r) (hr : l.restoring = false) :
    Does (.consume lid r.code) s (finish (modLaunch (killLaunch s lid) lid fun l => { l with restoring := true })) := by
  simp only [Does, exec, execConsume, hl, hd, hr, Bool.not_false, decide_true, Bool.and_self, if_true]

/-! ### Rollback -/

/-- The state in which the record of what a launch consumed is queued (spec/25 R457). -/
def consumed (s : State) (l : Launch) : State := match l.dying with | some r => pushErr s r | none => s

/-- The fault code of that record. -/
def consumedCode (l : Launch) : Nat := match l.dying with | some r => r.code | none => 0

theorem consumed_eq (s : State) (l : Launch) : ∃ es, consumed s l = { s with errq := es } := by
  unfold consumed
  split <;> exact ⟨_, rfl⟩

theorem ownerOf_consumed : ownerOf (consumed s l) lid = ownerOf s lid := by
  obtain ⟨es, hes⟩ := consumed_eq s l
  rw [hes]
  rfl

theorem restorable_consumed : restorable (consumed s l) lid l = restorable s lid l := by
  obtain ⟨es, hes⟩ := consumed_eq s l
  rw [hes]
  rfl

/-- The writes of a launch undone, with the record of the rollback (spec/21 R418, R419). -/
def rolledBack (s : State) (lid : Nat) (l : Launch) : State :=
  pushErr (rollBack (consumed s l) lid l) ⟨0x0C, 3, consumedCode l, 3, 0, 0, ownerOf s lid, l.replays, (l.sl.getD 0).toNat⟩

/-- A launch that ends with a code (spec/21 R419; spec/25 R458). -/
def stopped (lid code detail : Nat) (s : State) : State :=
  modLaunch s lid fun l => { l with doneCode := some (code, detail), dying := none, restoring := false }

/-! What a roll-back leaves of the launches is their replays. -/

theorem replaysOf_recallOne (sec : Nat) (pc : W64) (p : Nat × Nat × Nat × Nat × Nat) : replaysOf (recallOne sec pc s p) = replaysOf s := by
  have huncached : ∀ (s1 : State) (b : Bool), fixtures (if b then uncache s1 sec else s1) = fixtures s1 := by
    intro s1 b
    split <;> [exact fixtures_of_atRest (atRest_uncache _); rfl]
  have hpoison : ∀ (s1 : State) (b : Bool), fixtures (if b then setPoison s1 sec true else s1) = fixtures s1 := by
    intro s1 b
    split <;> [exact fixtures_setPoison _ _; rfl]
  have hback : ∀ (s1 : State) key launch tag unc, replaysOf (writeChunkBack s1 sec key launch tag unc) = replaysOf s1 :=
    fun s1 key launch tag unc => replaysOf_of_fixtures ((huncached _ _).trans ((fixtures_forwardStash _).trans
      ((hpoison _ _).trans ((fixtures_copyTags _ _ _).trans (fixtures_putUntracked _ _ _ _ _)))))
  unfold recallOne
  dsimp only
  split
  · split
    · exact hback _ _ _ _ _
    · rfl
  · rfl

theorem replaysOf_combineGroup (sec : Nat) : replaysOf (combineGroup s sec) = replaysOf s := by
  unfold combineGroup
  split
  · rfl
  · rename_i g _
    have hpart : ∀ s1 : State, replaysOf (g.parts.foldl (combinePart g.ty g.op g.floor (sec * 64)) s1) = replaysOf s1 :=
      foldl_view (fun _ _ => foldl_view (fun _ _ => replaysOf_of_fixtures ((fixtures_tagWrite _ _ _).trans (fixtures_memWrite _ _))) _ _) _
    have hbefore : ∀ s1 : State, replaysOf (g.members.foldl
        (fun s m => if isHbm (sec * 64) then beforeUntracked s (sec * 64) m.2.2 m.2.1 else s) s1) = replaysOf s1 := by
      refine foldl_view (fun s1 m => ?_) _
      split <;> [exact replaysOf_of_fixtures (fixtures_of_atRest (atRest_beforeUntracked _ _ _)); rfl]
    have hsense : replaysOf (sense { s with groups := tbDel s.groups sec } sec 0) = replaysOf s :=
      (replaysOf_of_fixtures (fixtures_of_atRest (atRest_sense (s := { s with groups := _ }) _ _))).trans (replaysOf_congr rfl)
    have hdirty : ∀ s1 : State, replaysOf (if isHbm (sec * 64) then addDirty s1 sec else touchCxl s1 sec true) = replaysOf s1 := fun s1 =>
      replaysOf_of_fixtures (fixtures_of_atRest (by split <;> simp))
    dsimp only
    split
    · exact (replaysOf_of_fixtures (fixtures_forwardStash _)).trans ((hdirty _).trans ((hpart _).trans ((hbefore _).trans hsense)))
    · exact hsense

theorem replaysOf_drainSector (sec : Nat) : replaysOf (drainSector s sec) = replaysOf s :=
  replaysOf_of_fixtures (fixtures_drainWrites _ _ _)

theorem replaysOf_settle (sec finder : Nat) : replaysOf (settle s sec finder) = replaysOf s := by
  have hdrain : ∀ (b : Bool) s1, replaysOf (if b then drainSector s1 sec else s1) = replaysOf s1 := fun b s1 => by
    split <;> [exact replaysOf_drainSector _; rfl]
  calc replaysOf (settle s sec finder)
    _ = replaysOf (recallStash (combineGroup (if isHbm (sec * 64) || isCxl (sec * 64) then drainSector (sense s sec finder) sec
          else sense s sec finder) sec) sec) :=
        replaysOf_of_fixtures (fixtures_of_atRest ((atRest_markShared _).trans (atRest_backInvalidate _)))
    _ = _ := foldl_view (fun _ _ => replaysOf_recallOne _ _ _) _ _
    _ = _ := replaysOf_combineGroup _
    _ = _ := hdrain _ _
    _ = replaysOf s := replaysOf_of_fixtures (fixtures_of_atRest (atRest_sense _ _))

theorem replaysOf_correctLees (n finder : Nat) (p : Lees → Bool) : replaysOf (correctLees s n finder p) = replaysOf s := by
  unfold correctLees
  split
  · rfl
  · refine foldl_view (fun s1 sec => ?_) _ s
    have hsector := replaysOf_of_fixtures (fixtures_of_atRest (atRest_correctSector (s := s1) sec finder))
    unfold correctSlot
    dsimp only
    split <;> exact hsector

theorem replaysOf_rewriteSector (st : W64) (sec : Nat) : replaysOf (rewriteSector st s sec) = replaysOf s := by
  have hlees := (replaysOf_correctLees (s := drainSector s sec) (stackOf (sec * 64)) 0 (ofSector sec)).trans (replaysOf_drainSector _)
  unfold rewriteSector
  dsimp only
  split
  · exact (replaysOf_of_fixtures ((fixtures_forwardStash _).trans (fixtures_stampAssign _ _ _ _ _ _))).trans hlees
  · exact hlees

theorem replaysOf_rewriteBlock (boundary blk : Nat) : replaysOf (rewriteBlock boundary s blk) = replaysOf s := by
  have hlees := replaysOf_correctLees (s := s) (stackOf (blk * 4096)) 0 (ofSector (blk * 64))
  have hbytes : ∀ (s1 : State) m f p, replaysOf { s1 with mem := m, flips := f, poison := p } = replaysOf s1 := fun _ _ _ _ =>
    replaysOf_congr rfl
  unfold rewriteBlock
  dsimp only
  split
  · exact hlees
  · refine (foldl_view (fun _ _ => replaysOf_of_fixtures ((fixtures_forwardStash _).trans (fixtures_of_atRest (atRest_addDirty _)))) _ _).trans ?_
    refine (hbytes _ _ _ _).trans ((replaysOf_of_fixtures (fixtures_tagWrite _ _ _)).trans ?_)
    refine (replaysOf_of_fixtures (fixtures_of_atRest (atRest_beforeUntracked _ _ _))).trans ?_
    exact (foldl_view (fun _ _ => replaysOf_settle _ _) _ _).trans hlees

theorem replaysOf_rollBack (lid : Nat) (l : Launch) : replaysOf (rollBack s lid l) = replaysOf s := by
  unfold rollBack
  split
  · exact (foldl_view (fun _ _ => replaysOf_rewriteBlock _ _) _ _).trans (foldl_view (fun _ _ => replaysOf_rewriteSector _ _) _ s)
  · rfl

/-- The replays of a launch that is stopped are those it had before its roll-back. -/
theorem stopped_replays (hl : tbGet s.launches lid = some l) (code : Nat) : modLaunch (rolledBack s lid l) lid (fun l =>
    { l with doneCode := some (code, l.replays), dying := none, restoring := false }) = stopped lid code l.replays (rolledBack s lid l) := by
  have hconsumed : replaysOf (consumed s l) = replaysOf s := by
    obtain ⟨es, hes⟩ := consumed_eq s l
    exact hes ▸ replaysOf_congr rfl
  have hview : replaysOf (rolledBack s lid l) lid = replaysOf s lid :=
    congrFun ((replaysOf_of_fixtures (fixtures_of_atRest (atRest_pushErr _))).trans ((replaysOf_rollBack lid l).trans hconsumed)) lid
  have hs : replaysOf s lid = some l.replays := by simp only [replaysOf, hl, Option.map_some]
  obtain ⟨v, hv, hreplays⟩ := Option.map_eq_some_iff.mp (hview.trans hs)
  refine congrArg (fun x => { rolledBack s lid l with launches := x }) (tbMod_congr hv ?_)
  rw [hreplays]

/-- The queue of a launch that is not restored is torn, with its record (spec/25 R458). -/
def tornBy (s : State) (lid : Nat) (l : Launch) : State :=
  tornRec (setTorn (consumed s l) l.queue) l.queue (if l.prot then 1 else 0) (consumedCode l) (ownerOf s lid)

section

variable (hl : tbGet s.launches lid = some l) (hd : restoreDue s lid l = true)
include hl hd

theorem rollbackRestore_does : Does (.rollbackRestore lid) s (if restorable s lid l = true then
    finish (if decide (0 < l.retry) = true then replay (rolledBack s lid l) lid else stopped lid 0x04 l.replays (rolledBack s lid l))
    else finish (stopped lid 0x05 (consumedCode l) (tornBy s lid l))) := by
  rw [← stopped_replays hl, rolledBack, tornBy, ← ownerOf_consumed (l := l), ← restorable_consumed]
  simp only [Does, exec, execRollbackRestore, hl, hd, if_true]
  rfl

theorem rollbackRestore_restores (hr : restorable s lid l = true) : Does (.rollbackRestore lid) s (finish
    (if decide (0 < l.retry) = true then replay (rolledBack s lid l) lid else stopped lid 0x04 l.replays (rolledBack s lid l))) :=
  (rollbackRestore_does hl hd).trans (congrArg Host.Outcome.next (if_pos hr))

theorem rollbackRestore_tears (hr : restorable s lid l = false) : Does (.rollbackRestore lid) s
    (finish (stopped lid 0x05 (consumedCode l) (tornBy s lid l))) :=
  (rollbackRestore_does hl hd).trans (congrArg Host.Outcome.next (if_neg (Bool.eq_false_iff.mp hr)))

end

theorem restoreDue_of (hr : l.restoring = true) (hw : writesSettled s lid = true) (hcp : s.readyIo.getLsbD 18 = true) :
    restoreDue s lid l = true := by
  simp only [restoreDue, cpReady, hcp, hr, hw, Bool.and_self]

/-- Settles O47: each clause is one of the steps above. -/
theorem launches : Obligations.Launches := by
  unfold Obligations.Launches
  intro s
  refine ⟨fun q he => ⟨fun hk => launchAdmission_refuses he (deadCode_killed hk),
      fun hk hends => launchAdmission_refuses he (deadCode_ended hk hends), fun hk hends => ?admission⟩,
    fun q code detail => completeRecord_unreachable,
    fun hcp c => ⟨clusterPlacement_notReady hcp c, spawnedTeamPlacement_notReady hcp c⟩,
    fun kid k l hk hl hs hsusp hd hcp => clusterPlacement_saved hcp hk hl hs hsusp hd,
    fun lid l hk hl hm hcp => clusterPlacement_next hcp hk hl hm,
    fun lid l hl he hw hd hr hcp => launchCompletion_does hcp hl he hw hd hr,
    fun l code detail hd => completeLaunch_attached hd code detail,
    fun lid l r => consume_does, fun lid l hl hr hw hcp => ?rollback⟩
  case admission =>
    have hc := deadCode_live hk hends
    exact ⟨fun s1 => launchAdmission_unreadable he hc, fun s1 d hr => ⟨fun s2 off => launchAdmission_illFormed he hc hr,
      fun s2 spt => launchAdmission_admits he hc hr⟩⟩
  case rollback =>
    have hd := restoreDue_of hr hw hcp
    refine ⟨fun hrest hretry => ?_, fun hrest hretry => ?_, rollbackRestore_tears hl hd⟩
    · exact (rollbackRestore_restores hl hd hrest).trans (congrArg (fun x => Host.Outcome.next (finish x)) (if_pos (decide_eq_true hretry)))
    · exact (rollbackRestore_restores hl hd hrest).trans (congrArg (fun x => Host.Outcome.next (finish x)) (if_neg (by simp [hretry])))

end Sys2Proof.Proofs.Launches
end

section
/-! O51: the host's service and the debugger (spec/25 R459-R464; spec/23 R446, R447; spec/21 R395, R408-R415; spec/27 R477). Each command has its
outcomes under exclusive conditions; what a restore that stops part-way leaves undefined lies on HBM, and the change of a granule moves no other
granule's bit. -/

namespace Sys2Proof.Proofs.HostService

open Sys2Proof.Machine Sys2Proof.Spec Sys2Proof.Laws

variable {s : State} {core slot ctx addr tid : Nat} {v : W64}

/-! ### Parked teams (spec/25 R462) -/

/-- A parked team with a command for it. -/
def commanded (s : State) (core slot ctx tid op : Nat) : State :=
  modTeam (parkTeam s core slot ctx false) tid fun t => { t with parkCmd := op }

theorem parkCommand_notReady (h : relengReady s = false) (op : Nat) :
    parkCommand s core slot ctx op = parkTeam s core slot ctx s.err.parkRef := by
  simp [parkCommand, h]

theorem parkCommand_none (h : relengReady s = true) (hp : parkedAt s core slot ctx = none) (op : Nat) :
    parkCommand s core slot ctx op = parkTeam s core slot ctx true := by
  simp [parkCommand, h, hp]

theorem parkCommand_team {t : Team} (h : relengReady s = true) (hp : parkedAt s core slot ctx = some (tid, t)) (op : Nat) :
    parkCommand s core slot ctx op =
      if running t then parkPending (commanded s core slot ctx tid op) tid else commanded s core slot ctx tid op := by
  simp only [parkCommand, h, hp, Bool.not_true, Bool.false_eq_true, if_false, commanded]

/-- The team at the slot takes the command now, or at its restore. -/
theorem parked_does {t : Team} {i : Instr} {op : Nat} (hi : exec i s = .next (finish (parkCommand s core slot ctx op)))
    (h : relengReady s = true) (hp : parkedAt s core slot ctx = some (tid, t)) :
    (running t = true → Does i s (finish (parkPending (commanded s core slot ctx tid op) tid))) ∧
      (running t = false → Does i s (finish (commanded s core slot ctx tid op))) := by
  have hteam := hi.trans (next_finish (parkCommand_team h hp op))
  exact ⟨fun hr => hteam.trans (next_finish (if_pos hr)), fun hr => hteam.trans (next_finish (if_neg (Bool.eq_false_iff.mp hr)))⟩

/-! ### Contexts (spec/25 R459, R460) -/

theorem contextResume_notReady (h : relengReady s = false) : contextResume s ctx = parkCtx s ctx s.err.parkRef := by
  simp [contextResume, h]

theorem contextResume_halted {c : Context} (h : relengReady s = true) (hc : tbGet s.contexts ctx = some c) (hh : c.halted.isSome = true) :
    contextResume s ctx = resumeContext (parkCtx s ctx false) ctx := by
  simp [contextResume, h, hc, hh]

theorem contextResume_refused {c : Context} (h : relengReady s = true) (hc : tbGet s.contexts ctx = some c) (hh : c.halted = none) :
    contextResume s ctx = parkCtx s ctx true := by
  simp [contextResume, h, hc, hh]

theorem contextKill_notReady (h : relengReady s = false) : contextKill s ctx = parkCtx s ctx s.err.parkRef := by
  simp [contextKill, h]

theorem contextKill_live {c : Context} (h : relengReady s = true) (hc : tbGet s.contexts ctx = some c) (he : c.record ≠ endedRecord) :
    contextKill s ctx = killContext (parkCtx s ctx false) ctx 0 := by
  have hk : (c.record != endedRecord) = true := bne_iff_ne.mpr he
  simp [contextKill, h, hc, hk]

theorem contextKill_unknown (h : relengReady s = true) (hc : tbGet s.contexts ctx = none) : contextKill s ctx = parkCtx s ctx true := by
  simp [contextKill, h, hc]

/-! ### The error ring's registers (spec/25 R463, R464) -/

theorem writeErrctl_eq (s : State) (v : W64) : writeErrctl s v = modErr s fun e => { e with
    en := v.getLsbD 63, ie := v.getLsbD 62, log2n := if s.err.en = true then s.err.log2n else v.toNat % 32,
    head := if (v.getLsbD 63 && !s.err.en) = true then 0 else s.err.head,
    tail := if (v.getLsbD 63 && !s.err.en) = true then 0 else s.err.tail } := by
  have hn : bitsOf v.toNat 0 5 = v.toNat % 32 := by simp [bitsOf]
  simp only [writeErrctl, modErr, bitsOf_one_beq_one, hn]

theorem writeErrhead_within (h : (s.err.tail + 2 ^ 32 - v.toNat % 2 ^ 32) % 2 ^ 32 ≤ 2 ^ s.err.log2n) :
    writeErrhead s v = modErr s fun e => { e with head := v.toNat % 2 ^ 32 } :=
  congrArg (fun e => { s with err := e }) (if_neg (Nat.not_lt.mpr h))

theorem writeErrhead_beyond (h : 2 ^ s.err.log2n < (s.err.tail + 2 ^ 32 - v.toNat % 2 ^ 32) % 2 ^ 32) :
    writeErrhead s v = modErr s fun e => { e with headbad := true } :=
  congrArg (fun e => { s with err := e }) (if_pos h)

/-! ### Rebase (spec/21 R395) -/

theorem busyHost_iff (s : State) : (anyContext s || livePins s != []) = true ↔ anyContext s = true ∨ livePins s ≠ [] := by
  simp

theorem rebaseRequest_refused (hr : s.rebasing = false) (hb : anyContext s = true ∨ livePins s ≠ []) :
    rebaseRequest s = { s with rbRefuse := true } :=
  (if_neg (Bool.eq_false_iff.mp hr)).trans (if_pos ((busyHost_iff s).mpr hb))

theorem rebaseRequest_accepted (hr : s.rebasing = false) (hc : anyContext s = false) (hp : livePins s = []) :
    rebaseRequest s = { s with rebasing := true } :=
  (if_neg (Bool.eq_false_iff.mp hr)).trans (if_neg fun hb => by simp [hc, hp] at hb)

theorem stamp_of_mem_zeroStamps {m : Tab (W64 × Nat)} {e : Nat × W64 × Nat} (he : e ∈ zeroStamps m) : e.2.1 = 0 := by
  obtain ⟨x, -, rfl⟩ := List.mem_map.mp he
  rfl

theorem rebaseComplete_does (hr : s.rebasing = true) : ∃ s1, Does .rebaseComplete s s1 ∧ s1.rebasing = false ∧ s1.rbDone = true ∧
    s1.clocks = [] ∧ s1.lees = [] ∧ s1.horizon = 0 ∧ s1.mem = s.mem ∧ s1.tags = s.tags ∧ ∀ e ∈ s1.sectors, e.2.1 = 0 :=
  ⟨_, congrArg Host.Outcome.next (if_pos hr), rfl, rfl, rfl, rfl, rfl, rfl, rfl, fun _ => stamp_of_mem_zeroStamps⟩

/-! ### The kiln's commands (spec/21 R408-R411) -/

/-- A kiln command starts, is only stored, or finds the kiln busy (spec/21 R409; spec/01 R20). -/
theorem kilnStart_cases {i : Instr} {op : Nat} {f : State → State} (hi : exec i s = .next (kilnStart s op addr f)) :
    (s.readyIo.getLsbD 19 = false → Does i s (setKilncmd s op addr)) ∧
    (s.readyIo.getLsbD 19 = true → s.kiln.isSome = true → Does i s { setKilncmd s op addr with kilnStatus := 8 }) ∧
    (s.readyIo.getLsbD 19 = true → s.kiln = none → Does i s (finish (f { setKilncmd s op addr with kilnBytes := 0 }))) := by
  have hready : s.readyIo.getLsbD 19 = true → ¬(!kilnReady (setKilncmd s op addr)) = true := fun h hn => by
    rw [show kilnReady (setKilncmd s op addr) = true from h] at hn
    cases hn
  refine ⟨fun h => hi.trans (congrArg _ (if_pos ((Bool.not_eq_true' _).mpr h))),
    fun h hk => hi.trans (congrArg _ ((if_neg (hready h)).trans (if_pos hk))),
    fun h hk => hi.trans (congrArg _ ((if_neg (hready h)).trans (if_neg fun hn => ?_)))⟩
  rw [show (setKilncmd s op addr).kiln = none from hk] at hn
  cases hn

/-- A restore, with the conditions of spec/21 R409 and R415 as propositions. -/
theorem restoreCmd_eq (addr : Nat) (s : State) : restoreCmd addr s = kilnStart s 2 addr fun s => match kilnRecord s addr with
    | (s, none) => kilnEnd s 2
    | (s, some k) =>
      if anyContext s = true ∨ livePins s ≠ [] then kilnEnd s 6
      else if hostUsable s k.commit 256 = false then kilnEnd s 2
      else match readPa s (hostPa k.commit) 256 4 with
        | (s, none) => kilnEnd s 3
        | (s, some d) => restoreFrom s k d := by
  unfold restoreCmd
  congr 1
  funext s
  simp only [Bool.or_eq_true, bne_iff_ne, Bool.not_eq_true'] <;> rfl

/-! ### A restore's checks (spec/21 R413, R415) -/

section

variable {k : KilnRec} {d : List Byte} {m : List Host.Cell}

/-- The clocks and the stacks allow that HBM be written back. -/
def CanRestore (s : State) : Prop := restoreStamps s = true ∧ ∀ i, i < 12 → stackReady s i = true

theorem cannotRestore_iff (s : State) : (!restoreStamps s || (List.range 12).any fun i => !stackReady s i) = true ↔ ¬CanRestore s := by
  simp only [CanRestore, Bool.or_eq_true, Bool.not_eq_true', List.any_eq_true, List.mem_range, not_and_or, not_forall, Bool.not_eq_true, exists_prop]

/-- A commit record is of this device: its shape, its carving and its masks. -/
def OfDevice (s : State) (d : List Byte) : Prop :=
  recNum d 48 8 = shapeWord s ∧ recNum d 56 8 = s.leesMode ∧ (d.drop 128).take 64 = masksDigest s

theorem otherDevice_iff : (recNum d 48 8 ≠ shapeWord s || recNum d 56 8 ≠ s.leesMode || (d.drop 128).take 64 != masksDigest s) = true ↔
    ¬OfDevice s d := by
  simp only [OfDevice, Bool.or_eq_true, decide_eq_true_eq, bne_iff_ne, not_and_or, or_assoc]

theorem restoreFrom_malformed (h : recNum d 0 8 ≠ kilnMagic ∨ k.len < recNum d 40 8) : restoreFrom s k d = kilnEnd s 5 := if_pos h

/-- What becomes of a restore whose area `m` could be read: its digest is checked first, then the device, then the clocks and the stacks. -/
def areaRead (s : State) (k : KilnRec) (d : List Byte) (m : List Host.Cell) : State :=
  if (d.drop 64).take 64 != areaDigest m (recNum d 40 8) then kilnReadEnd s 5 (recNum d 40 8)
  else if recNum d 48 8 ≠ shapeWord s || recNum d 56 8 ≠ s.leesMode || (d.drop 128).take 64 != masksDigest s then
    kilnReadEnd s 4 (recNum d 40 8)
  else if !restoreStamps s || (List.range 12).any fun i => !stackReady s i then kilnReadEnd s 2 (recNum d 40 8)
  else { s with kiln := some (.restore ⟨k.dest, recNum d 40 8, recNum d 32 8, BitVec.ofNat 64 (recNum d 16 8)⟩),
                kilnBytes := recNum d 40 8 }

section

variable (hmagic : recNum d 0 8 = kilnMagic) (hlen : recNum d 40 8 ≤ k.len)
include hmagic hlen

theorem wellFormed : ¬(recNum d 0 8 ≠ kilnMagic ∨ k.len < recNum d 40 8) := fun h => h.elim (absurd hmagic) (Nat.not_lt.mpr hlen)

theorem restoreFrom_unreachable (hu : hostUsable s k.dest (recNum d 40 8) = false) : restoreFrom s k d = kilnEnd s 2 :=
  (if_neg (wellFormed hmagic hlen)).trans (if_pos ((Bool.not_eq_true' _).mpr hu))

variable (hu : hostUsable s k.dest (recNum d 40 8) = true)
include hu

theorem restoreFrom_poisoned (ha : getArea s k.dest (recNum d 40 8) = none) :
    restoreFrom s k d = kilnEnd { s with kilnBytes := areaGood s k.dest (recNum d 40 8) } 3 := by
  refine (if_neg (wellFormed hmagic hlen)).trans ?_
  rw [hu, ha]
  rfl

theorem restoreFrom_areaRead (ha : getArea s k.dest (recNum d 40 8) = some m) : restoreFrom s k d = areaRead s k d m := by
  refine (if_neg (wellFormed hmagic hlen)).trans ?_
  rw [hu, ha]
  rfl

end

theorem areaRead_damaged (h : ¬(d.drop 64).take 64 = areaDigest m (recNum d 40 8)) :
    areaRead s k d m = kilnEnd { s with kilnBytes := recNum d 40 8 } 5 := if_pos (bne_iff_ne.mpr h)

section

variable (hwhole : (d.drop 64).take 64 = areaDigest m (recNum d 40 8))
include hwhole

theorem areaRead_otherDevice (h : ¬OfDevice s d) : areaRead s k d m = kilnEnd { s with kilnBytes := recNum d 40 8 } 4 :=
  (if_neg fun hn => bne_iff_ne.mp hn hwhole).trans (if_pos (otherDevice_iff.mpr h))

variable (hdevice : OfDevice s d)
include hdevice

theorem areaRead_blocked (h : ¬CanRestore s) : areaRead s k d m = kilnEnd { s with kilnBytes := recNum d 40 8 } 2 :=
  (if_neg fun hn => bne_iff_ne.mp hn hwhole).trans
    ((if_neg fun hn => otherDevice_iff.mp hn hdevice).trans (if_pos ((cannotRestore_iff s).mpr h)))

theorem areaRead_runs (h : CanRestore s) : areaRead s k d m =
    { s with kilnBytes := recNum d 40 8, kiln := some (.restore ⟨k.dest, recNum d 40 8, recNum d 32 8, BitVec.ofNat 64 (recNum d 16 8)⟩) } :=
  (if_neg fun hn => bne_iff_ne.mp hn hwhole).trans
    ((if_neg fun hn => otherDevice_iff.mp hn hdevice).trans (if_neg fun hn => (cannotRestore_iff s).mp hn h))

end

end

/-! ### A restore that runs -/

section

variable {r : Restore}

theorem kilnAbort_restore (hr : s.readyIo.getLsbD 19 = true) (hk : s.kiln = some (.restore r)) :
    Does .kilnAbort s (finish (kilnEnd (undefineHbm { s with kilncmd := 0 }) 7)) := by
  simp only [Does, exec, execKilnAbort, abortCmd, kilnReady, hr, hk, if_true, restoreStop]

theorem kilnCommit_restore (hr : s.readyIo.getLsbD 19 = true) (hk : s.kiln = some (.restore r)) :
    Does .kilnCommit s (finish (restoreRun s r)) := by
  simp only [Does, exec, execKilnCommit, kilnReady, hr, hk, if_true]

/-- A restore stops where the host, the clocks or the stacks do not allow it. -/
theorem restoreStops_iff (s : State) (r : Restore) :
    (!hostUsable s r.dest r.image || !restoreStamps s || (List.range 12).any fun i => !stackReady s i) = true ↔
      ¬(hostUsable s r.dest r.image = true ∧ CanRestore s) := by
  rw [Bool.or_assoc, Bool.or_eq_true, cannotRestore_iff, Bool.not_eq_true', ← Bool.not_eq_true, ← not_and_or]

theorem restoreRun_stops (h : ¬(hostUsable s r.dest r.image = true ∧ CanRestore s)) : restoreRun s r = kilnEnd (undefineHbm s) 2 :=
  if_pos ((restoreStops_iff s r).mpr h)

theorem restoreRun_can (h : hostUsable s r.dest r.image = true ∧ CanRestore s) : restoreRun s r = match getArea s r.dest r.image with
    | none => restoreStop s 3
    | some m => kilnEnd (restoreEnd (restoreExtents (settleAll s) m r.count) r.stamp) 0 :=
  if_neg fun hn => (restoreStops_iff s r).mp hn h

theorem restoreRun_poisoned (h : hostUsable s r.dest r.image = true ∧ CanRestore s) (ha : getArea s r.dest r.image = none) :
    restoreRun s r = kilnEnd (undefineHbm s) 3 := by
  rw [restoreRun_can h, ha]
  rfl

theorem restoreRun_writes {m : List Host.Cell} (h : hostUsable s r.dest r.image = true ∧ CanRestore s)
    (ha : getArea s r.dest r.image = some m) :
    restoreRun s r = kilnEnd (restoreEnd (restoreExtents (settleAll s) m r.count) r.stamp) 0 := by
  rw [restoreRun_can h, ha]

end

/-! What is undefined lies on HBM. -/

theorem csOf_lt (mode : Nat) : csOf mode < 2 ^ 36 := by
  have : csOf mode ≤ 48000000000 := Nat.sub_le _ _
  omega

theorem isHbm_hbmKey {n sla : Nat} (hn : n < 12) (hs : sla < 2 ^ 36) : isHbm (hbmKey n sla) = true := by
  unfold isHbm hbmKey
  exact decide_eq_true ⟨by omega, by omega⟩

/-- Writes that all go to other keys leave a key. -/
theorem smGet_foldl_of_ne {α β : Type} {d : α} {a : Nat} {f : List (Nat × α) → β → List (Nat × α)} {l : List β}
    (h : ∀ x ∈ l, ∀ m, smGet d (f m x) a = smGet d m a) (m : List (Nat × α)) : smGet d (l.foldl f m) a = smGet d m a := by
  induction l generalizing m with
  | nil => rfl
  | cons x l ih => exact (ih (fun y hy => h y (List.mem_cons_of_mem _ hy)) _).trans (h x List.mem_cons_self m)

theorem memGet_undefineHbm {a : Nat} (h : isHbm a = false) : memGet (undefineHbm s) a = memGet s a := by
  refine smGet_foldl_of_ne (fun n hn _ => smGet_foldl_of_ne (fun x hx _ => smGet_smSet_ne _ _ _ ?_) _) _
  rintro rfl
  rw [isHbm_hbmKey (List.mem_range.mp hn) ((List.mem_range.mp hx).trans (csOf_lt _))] at h
  cases h

/-! ### A drain that runs (spec/21 R412, R414) -/

theorem kilnAbort_drain {k : Drain} (hr : s.readyIo.getLsbD 19 = true) (hk : s.kiln = some (.drain k)) :
    Does .kilnAbort s (finish (kilnEnd { s with kilncmd := 0 } 7)) := by
  simp only [Does, exec, execKilnAbort, abortCmd, kilnReady, hr, hk, if_true]

/-- The state after the commit record, MAGIC last. -/
def committed (s : State) (p : Pin) (k : Drain) (m : List Host.Cell) : State :=
  writePa (writePa s (hostPa k.commit + 8) (commitBytes s p k (areaDigest m (imageLen s))) (deviceWriter s)) (hostPa k.commit)
    (leBytes 8 kilnMagic) (deviceWriter s)

theorem kilnCommit_drain {k : Drain} {p : Pin} {m : List Host.Cell} (hr : s.readyIo.getLsbD 19 = true) (hk : s.kiln = some (.drain k))
    (hp : genPin s k.gen = some p) (hu : hostUsable s k.commit 256 = true) (ha : getArea s k.dest (imageLen s) = some m) :
    Does .kilnCommit s (finish (kilnEnd { committed s p k m with gpins := (committed s p k m).gpins.filter fun q => q.id != k.gen } 0)) := by
  simp only [Does, exec, execKilnCommit, drainEnd, kilnReady, hr, hk, hp, hu, ha, if_true, Bool.not_true, Bool.false_eq_true, if_false,
    committed]

theorem kilnCommit_notReady (h : s.readyIo.getLsbD 19 = false) : Does .kilnCommit s s := by
  simp only [Does, exec, execKilnCommit, kilnReady, h, Bool.false_eq_true, if_false]

theorem kilnAbort_notReady (h : s.readyIo.getLsbD 19 = false) : Does .kilnAbort s { s with kilncmd := 0 } := by
  simp only [Does, exec, execKilnAbort, abortCmd, kilnReady, h, Bool.false_eq_true, if_false]

/-! ### The frame table (spec/27 R477) -/

/-- The granule of FRAMECMD. -/
def cmdGranule (v : W64) : Nat := v.toNat % 2 ^ 52 / 65536 * 65536

/-- The state after FRAMECMD's fields are stored. -/
def frameStored (s : State) (v : W64) : State :=
  modHost (if v.getLsbD 62 then modHost s fun h => { h with frameRef := false } else s) fun h =>
    { h with frameGran := cmdGranule v, frameT := v.getLsbD 1 }

theorem framecmdGo_does (h : v.getLsbD 0 = true) : Does (.framecmdGo v) s
    (if s.host.frameRun.isSome = true ∨ s.gpins ≠ [] ∨ granuleOk s (cmdGranule v) = false
      then modHost (frameStored s v) fun h => { h with frameRef := true }
      else modHost (frameStored s v) fun h => { h with frameRun := some (cmdGranule v, v.getLsbD 1) }) := by
  have hgo : ¬bitsOf v.toNat 0 1 = 0 := by rw [bitsOf_one, h]; decide
  have hgran : bitsOf v.toNat 16 36 * 65536 = cmdGranule v := congrArg (· * 65536) (bitsOf_eq_mod_div _ _ _)
  simp only [Does, exec, execFramecmdGo, writeFramecmd, bitsOf_one_eq_one, h, if_true, hgo, if_false, hgran, bitsOf_one_beq_one]
  refine congrArg _ (if_congr ?_ rfl rfl)
  simp only [Bool.or_eq_true, bne_iff_ne, Bool.not_eq_true', or_assoc]
  cases v.getLsbD 62 <;> rfl

theorem tracked_changeFrame (s : State) (g : Nat) (t : Bool) :
    (changeFrame s g t).tracked = if t then insertNew s.tracked g else s.tracked.filter (· != g) := by
  unfold changeFrame
  extract_lets s1 secs s2 s3
  have h2 : Quiet s s2 := Quiet.foldl _ ((Quiet.refl s).shootDown _) fun _ _ h => (h.settle _ _).writeBack _
  have h3 : Quiet s s3 := h2.unfillChunks _
  dsimp only
  rw [h3.tracked]

theorem frameChangeComplete_does {g : Nat} {t : Bool} (hr : s.host.frameRun = some (g, t)) (hd : frameDue s = true) :
    ∃ s1, Does .frameChangeComplete s (finish s1) ∧ s1.host.frameRun = none ∧ (t = true → g ∈ s1.tracked) ∧
      (t = false → g ∉ s1.tracked) ∧ ∀ h, h ≠ g → (h ∈ s1.tracked ↔ h ∈ s.tracked) := by
  have htracked := tracked_changeFrame s g t
  refine ⟨modHost (changeFrame s g t) fun h => { h with frameRun := none }, ?_, rfl, ?_, ?_, fun h hne => ?_⟩
  · simp only [Does, exec, execFrameChangeComplete, hr, hd, if_true]
  all_goals simp only [modHost, htracked]
  · rintro rfl
    exact mem_insertNew.mpr (.inr rfl)
  · rintro rfl
    simp
  · cases t <;> simp [mem_insertNew, hne]

/-- The host's service. -/
theorem hostService : HostService := by
  intro s core slot ctx addr v
  refine ⟨fun h => ⟨?parkNotReady, ?ctxNotReady⟩, fun h hp => ?parkNone, fun tid t h hp => ⟨?resume, ?skip, ?killTeam⟩,
    fun c h hc => ⟨fun hh => next_finish (contextResume_halted h hc hh), fun hh => next_finish (contextResume_refused h hc hh),
      fun he => next_finish (contextKill_live h hc he)⟩,
    fun h hc => next_finish (contextKill_unknown h hc), congrArg Host.Outcome.next (writeErrctl_eq s v),
    ⟨fun h => congrArg Host.Outcome.next (writeErrhead_within h), fun h => congrArg Host.Outcome.next (writeErrhead_beyond h)⟩,
    fun hr => ⟨fun hb => congrArg Host.Outcome.next (rebaseRequest_refused hr hb),
      fun hc hp => congrArg Host.Outcome.next (rebaseRequest_accepted hr hc hp)⟩,
    rebaseComplete_does, ⟨?drain, ?release, ?restore⟩, fun h => ⟨kilnCommit_notReady h, kilnAbort_notReady h⟩, fun k d => ?restoreFrom,
    fun r hr hk => ?restoreRun, ⟨rfl, fun a => memGet_undefineHbm⟩,
    fun k hr hk => ⟨kilnAbort_drain hr hk, fun p m hp hu ha => kilnCommit_drain hr hk hp hu ha⟩, fun h => ?framecmd,
    fun g t => frameChangeComplete_does⟩
  case parkNotReady =>
    intro i hi
    simp only [List.mem_cons, List.not_mem_nil, or_false] at hi
    obtain rfl | rfl | rfl := hi <;> exact next_finish (parkCommand_notReady h _)
  case ctxNotReady =>
    intro i hi
    simp only [List.mem_cons, List.not_mem_nil, or_false] at hi
    obtain rfl | rfl := hi
    · exact next_finish (contextResume_notReady h)
    · exact next_finish (contextKill_notReady h)
  case parkNone =>
    intro i hi
    simp only [List.mem_cons, List.not_mem_nil, or_false] at hi
    obtain rfl | rfl | rfl := hi <;> exact next_finish (parkCommand_none h hp _)
  case resume =>
    exact parked_does rfl h hp
  case skip =>
    exact parked_does rfl h hp
  case killTeam =>
    exact parked_does rfl h hp
  case drain => exact kilnStart_cases (i := .kilnDrain addr) (show _ = Host.Outcome.next (drainCmd addr s) from rfl)
  case release => exact kilnStart_cases (i := .kilnReleaseGeneration addr) (show _ = Host.Outcome.next (releaseCmd addr s) from rfl)
  case restore => exact kilnStart_cases (i := .kilnRestore addr) (congrArg Host.Outcome.next (restoreCmd_eq addr s))
  case restoreFrom =>
    refine ⟨restoreFrom_malformed, fun hm hl => ⟨restoreFrom_unreachable hm hl, fun hu =>
      ⟨restoreFrom_poisoned hm hl hu, fun m ha => ?_⟩⟩⟩
    have hread := restoreFrom_areaRead hm hl hu ha
    exact ⟨fun h => hread.trans (areaRead_damaged h), fun hw h => hread.trans (areaRead_otherDevice hw h),
      fun hw hd h => hread.trans (areaRead_blocked hw hd h), fun hw hd h => hread.trans (areaRead_runs hw hd h)⟩
  case restoreRun =>
    have hcommit := kilnCommit_restore hr hk
    exact ⟨kilnAbort_restore hr hk, fun hn => hcommit.trans (next_finish (restoreRun_stops hn)),
      fun hc ha => hcommit.trans (next_finish (restoreRun_poisoned hc ha)),
      fun m hc ha => hcommit.trans (next_finish (restoreRun_writes hc ha))⟩
  case framecmd =>
    have hdoes := framecmdGo_does (s := s) h
    refine ⟨fun hn => hdoes.trans (congrArg _ (if_pos hn)), fun hrun hpins hg => hdoes.trans (congrArg _ (if_neg ?_))⟩
    rintro (hn | hn | hn)
    · simp [hrun] at hn
    · exact hn hpins
    · exact Bool.eq_false_iff.mp hn hg

/-! ### The debugger (spec/23 R446, R447) -/

section

variable {t : Team}

theorem dbg_none (hd : dbgTeam s core = none) {i : Instr}
    (hi : i ∈ [Instr.dbgHalt core, .dbgResume core, .dbgStepInstruction core, .dbgStepClause core]) : Does i s s := by
  simp only [List.mem_cons, List.not_mem_nil, or_false] at hi
  obtain rfl | rfl | rfl | rfl := hi
  · simp only [Does, exec, execDbgHalt, dbgHalt, hd]
  · simp only [Does, exec, execDbgResume, dbgResume, hd]
  · simp only [Does, exec, execDbgStepInstruction, dbgStep, hd]
  · simp only [Does, exec, execDbgStepClause, dbgStep, hd]

variable (hd : dbgTeam s core = some (tid, t))
include hd

theorem dbgHalt_halted (hh : t.halted = true) : Does (.dbgHalt core) s s := by
  simp only [Does, exec, execDbgHalt, dbgHalt, hd, hh, if_true]

theorem dbgHalt_running (hh : t.halted = false) : Does (.dbgHalt core) s (haltTeam s tid t) := by
  simp only [Does, exec, execDbgHalt, dbgHalt, hd, hh, Bool.false_eq_true, if_false]

theorem dbgResume_team : Does (.dbgResume core) s (modTeam s tid fun t => { t with halted := false, dbg := .none }) := by
  simp only [Does, exec, execDbgResume, dbgResume, hd]

theorem dbgStep_halted (hh : t.halted = true) (d : DbgStep) :
    dbgStep s core d = modTeam s tid fun t => { t with halted := false, dbg := d } := by
  simp only [dbgStep, hd, hh, if_true]

end

theorem debugger : Debugger := by
  intro s core
  refine ⟨fun hd i => dbg_none hd, fun tid t hd => ⟨dbgHalt_halted hd, fun hh hm => ?inside, fun hh hm => ?boundary, dbgResume_team hd,
    fun hh => ⟨congrArg Host.Outcome.next (dbgStep_halted hd hh _), congrArg Host.Outcome.next (dbgStep_halted hd hh _)⟩⟩, rfl⟩
  case inside =>
    refine (dbgHalt_running hd hh).trans ?_
    simp only [haltTeam, hm, if_true]
  case boundary =>
    refine (dbgHalt_running hd hh).trans ?_
    simp only [haltTeam, hm, Bool.false_eq_true, if_false]

/-- Settles O51: the two halves. -/
theorem hostServiceAndDebugger : Obligations.HostServiceAndDebugger := ⟨hostService, debugger⟩

end Sys2Proof.Proofs.HostService
end

section
/-! O52: resets, attestation and READY bits (spec/27 R480-R484; spec/01 R20-R28; spec/25 R466). Each step is one evaluation of the model under its
own condition. -/

namespace Sys2Proof.Proofs.Links

open Sys2Proof.Machine Sys2Proof.Spec Sys2Proof.Laws

variable {s : State}

/-! ### Attestation (spec/27 R482) -/

theorem spdmRequest_does (hp : s.host.pwrgd = true) (hr : s.host.resetN = true) (what : Spdm) :
    Does (.spdmRequest what) s (modHost s fun h => { h with spdm := h.spdm ++ [spdmAnswer s what] }) := by
  simp only [Does, exec, execSpdmRequest, hp, hr, Bool.and_self, if_true]

/-! ### Boot and pins (spec/27 R481, R483) -/

theorem imageGood_iff (i : Image) : imageGood i = true ↔ i.signed = true ∧ i.keyHash = Config.fuseKeyHash ∧ Config.fuseMinSvn ≤ i.svn := by
  simp only [imageGood, Bool.and_eq_true, beq_iff_eq, decide_eq_true_eq, and_assoc]

/-- The device as RESET_N leaves it with the image that is found. -/
def released (s : State) (b0 b1 : Bool) (i : Image) (ok : Bool) (svn fwver : Nat) : State := modHost (resetState s) fun h => { h with
  resetN := true, bifur0 := b0, bifur1 := b1, image := some i, fwok := ok, fwbad := !ok, svn := svn, fwver := fwver }

section

variable (hp : s.host.pwrgd = true) (hr : s.host.resetN = false) (ht : s.host.thermtrip = false) (b0 b1 : Bool) {i : Image}
include hp hr ht

theorem resetRelease_boots (hi : imageGood i = true) : Does (.resetRelease b0 b1 i) s
    { released s b0 b1 i true (i.svn % 2 ^ 16) (i.fwver % 2 ^ 32) with leesMode := s.leesNext.toNat } := by
  simp only [Does, exec, execResetRelease, hp, hr, ht, hi, Bool.not_false, Bool.and_self, if_true]
  rfl

theorem resetRelease_fails (hi : imageGood i = false) : Does (.resetRelease b0 b1 i) s (released s b0 b1 i false 0 0) := by
  simp only [Does, exec, execResetRelease, hp, hr, ht, hi, Bool.not_false, Bool.and_self, if_true, Bool.false_eq_true, if_false]
  rfl

end

theorem resetNAssertion_does (hp : s.host.pwrgd = true) : Does .resetNAssertion s (resetState s) := congrArg Host.Outcome.next (if_pos hp)

/-! ### READY bits (spec/01 R20-R26; spec/25 R466) -/

theorem coreFalls_ready {n : Nat} (h : s.readyCore.getLsbD n = true) : coreFalls s n =
    pushErr { s with readyCore := setBit s.readyCore n false } ⟨0x06, 1, 0, 0, n, 0, 0, 0x100 + 8 * (n / 64), n % 64⟩ := if_pos h

theorem stackFalls_ready {n : Nat} (h : s.readyStack.getLsbD n = true) : stackFalls s n =
    pushErr { s with readyStack := setBit s.readyStack n false } ⟨0x06, 1, 0, 2, 64 * n, 0, 0, 0x120, n⟩ := if_pos h

theorem stackFalls_down {n : Nat} (h : s.readyStack.getLsbD n = false) : stackFalls s n = s := if_neg (Bool.eq_false_iff.mp h)

theorem ioFalls_ready {n : Nat} (h : s.readyIo.getLsbD n = true) : ioFalls s n =
    pushErr { s with readyIo := setBit s.readyIo n false } ⟨0x06, 1, 0, 3, 0, 0, 0, 0x128, n⟩ := if_pos h

theorem huanenDown_ready {p : Nat} (h : s.readyIo.getLsbD (2 + p) = true) : huanenDown s p =
    pushErr { s with readyIo := setBit s.readyIo (2 + p) false } ⟨0x06, 1, 0, 5, p, 0, 0, 0x128, 2 + p⟩ := if_pos h

theorem relengFalls_ready (h : s.readyIo.getLsbD 20 = true) : relengFalls s =
    setIo (finish (pushErr s ⟨0x06, 1, 0, 3, 0, 0, 0, 0x128, 20⟩)) 20 false := if_pos h

/-- The bit of a channel group falls, with its record. -/
def groupDown (s : State) (n g : Nat) : State :=
  pushErr { s with readyGroup := setBit s.readyGroup (4 * n + g) false } ⟨0x06, 1, 0, 2, 64 * n, 0, 0, 0x120, 12 + 4 * n + g⟩

theorem readyFall_group {n g : Nat} (hn : n < 12) (hg : g < 4) (h : s.readyGroup.getLsbD (4 * n + g) = true) :
    Does (.readyFall (.group n g)) s (finish (stackFalls (groupDown s n g) n)) :=
  next_finish (if_pos ⟨hn, hg, h⟩)

theorem readyFalls (s : State) : ReadyFalls s := by
  refine ⟨fun n hn h => next_finish ((if_pos hn).trans (coreFalls_ready h)),
    fun n hn => ⟨fun h => next_finish ((if_pos hn).trans (stackFalls_ready h)), fun g hg h => ?group⟩,
    fun h => next_finish (ioFalls_ready h),
    fun h => next_finish (ioFalls_ready h),
    fun h => next_finish (relengFalls_ready h),
    fun p hp h => next_finish ((if_pos hp).trans (huanenDown_ready h))⟩
  case group =>
    have hfalls := readyFall_group hn hg h
    exact ⟨fun hs => hfalls.trans (next_finish (stackFalls_ready (s := groupDown s n g) hs)),
      fun hs => hfalls.trans (next_finish (stackFalls_down (s := groupDown s n g) hs))⟩

end Sys2Proof.Proofs.Links
end

section
/-! O52: host access to HBM (spec/27 R471; spec/21 R392, R393, R400). Where no agent holds a sector and no write is on its way to it, settling it is
bookkeeping, and a host write of it moves the bytes that it carries and no other. -/

namespace Sys2Proof.Laws

open Sys2Proof.Machine

variable {s s' : State}

theorem mem_of_atRest (h : atRest s' = atRest s) : s'.mem = s.mem := congrArg AtRest.mem h

theorem homeq_of_atRest (h : atRest s' = atRest s) : s'.homeq = s.homeq := congrArg AtRest.homeq h

theorem host_of_atRest (h : atRest s' = atRest s) : s'.host = s.host := congrArg AtRest.host h

theorem groups_of_fixtures (h : fixtures s' = fixtures s) : s'.groups = s.groups := congrArg Fixtures.groups h

/-! ### Sectors that nobody holds -/

theorem drainWrites_none {p : HomeWrite → Bool} (h : s.homeq.find? p = none) (fuel : Nat) : drainWrites p fuel s = s := by
  cases fuel with
  | zero => rfl
  | succ fuel => simp only [drainWrites, h]

theorem drainSector_none {sec : Nat} (h : ∀ w ∈ s.homeq, sectorOf w.key ≠ sec) : drainSector s sec = s :=
  drainWrites_none (List.find?_eq_none.mpr fun w hw => by simpa using h w hw) _

theorem combineGroup_none {sec : Nat} (h : tbGet s.groups sec = none) : combineGroup s sec = s := by
  simp only [combineGroup, h]

theorem recallStash_nil {sec : Nat} (h : stashPlaces s sec = []) : recallStash s sec = s := by
  rw [recallStash, h, List.foldl_nil]

theorem forwardStash_nil {sec : Nat} (h : stashPlaces s sec = []) : forwardStash s sec = s := by
  rw [forwardStash, h, List.foldl_nil]

/-- Settling a sector that no agent holds and to which nothing is on its way is bookkeeping. -/
theorem atRest_settle {sec : Nat} (hq : ∀ w ∈ s.homeq, sectorOf w.key ≠ sec) (hg : tbGet s.groups sec = none) (hp : stashPlaces s sec = [])
    (finder : Nat) : atRest (settle s sec finder) = atRest s := by
  have hsense := atRest_sense (s := s) sec finder
  have hdrain : (if isHbm (sec * 64) || isCxl (sec * 64) then drainSector (sense s sec finder) sec else sense s sec finder) =
      sense s sec finder := by
    rw [drainSector_none fun w hw => hq w (homeq_of_atRest hsense ▸ hw), ite_self]
  have hcombine : combineGroup (sense s sec finder) sec = sense s sec finder :=
    combineGroup_none (by rw [groups_of_fixtures (fixtures_of_atRest hsense), hg])
  have hrecall : recallStash (sense s sec finder) sec = sense s sec finder :=
    recallStash_nil (by rw [stashPlaces_of_fixtures (fixtures_of_atRest hsense), hp])
  unfold settle
  dsimp only
  rw [atRest_markShared, atRest_backInvalidate, hdrain, hcombine, hrecall, hsense]

/-! ### The bytes of an untracked write -/

theorem mem_memWrite_congr (h : s'.mem = s.mem) (k : Nat) (bs : List Byte) : (memWrite s' k bs).mem = (memWrite s k bs).mem := by
  induction bs generalizing s s' k with
  | nil => exact h
  | cons b bs ih => exact ih (congrArg (fun m => smSet 0 m k b) h) _

theorem mem_putUntracked (k : Nat) (data : List Byte) (fl : W64) (tag launch : Nat) :
    (putUntracked s k data fl tag launch).mem = (memWrite s k data).mem := by
  have hbefore : (if isHbm k then beforeUntracked s k tag launch else s).mem = s.mem := by
    split <;> [exact mem_of_atRest (atRest_beforeUntracked _ _ _); rfl]
  have hpoison : ∀ s1 : State, (if data.length = 64 then setPoison s1 (sectorOf k) false else s1).mem = s1.mem := fun s1 => by
    split <;> rfl
  have hdirty : ∀ s1 : State, (if isHbm k then addDirty s1 (sectorOf k) else if isCxl k then touchCxl s1 (sectorOf k) true else s1).mem =
      s1.mem := by
    intro s1
    split
    · exact mem_of_atRest (atRest_addDirty _)
    · split <;> [exact mem_of_atRest (atRest_touchCxl _ _); rfl]
  have hwrite : ∀ (s1 : State) x, s1.mem = s.mem → (tagWrite (memWrite { s1 with flips := x } k data) k fl data.length).mem =
      (memWrite s k data).mem := fun s1 x h => (tagWrite_mem _ _ _ _).trans (mem_memWrite_congr (s' := { s1 with flips := x }) h _ _)
  exact (hdirty _).trans ((hpoison _).trans (hwrite _ _ hbefore))

end Sys2Proof.Laws

namespace Sys2Proof.Proofs.Links

open Sys2Proof.Machine Sys2Proof.Spec Sys2Proof.Laws

variable {s : State} {port addr n : Nat}

/-! ### Reads -/

/-- After a read of the host: the floor of its port is raised, and the host may hold the sectors. -/
def hostHas (s : State) (port addr n : Nat) : State :=
  let s1 := raiseHostFloor s port (paSectors s addr n)
  if Config.freeBit s1.free 10 then holdSectors s1 (paSectors s addr n) else s1

theorem mem_holdSectors (s : State) (secs : List Nat) : (holdSectors s secs).mem = s.mem := by
  unfold holdSectors
  dsimp only
  exact foldl_view (view := State.mem) (f := noteReader .host) (fun _ _ => rfl) secs _

theorem mem_hostHas (s : State) (port addr n : Nat) : (hostHas s port addr n).mem = s.mem := by
  unfold hostHas
  dsimp only
  split
  · exact mem_holdSectors _ _
  · rfl

section

variable (hp : port < 2) (hr : s.readyIo.getLsbD port = true) (hsec : addr % 64 + n ≤ 64) (hend : addr + n ≤ interleavedEnd s)
include hp hr hsec hend

theorem hostMemRead_notReady (ha : allStacksReady s = false) : Does (.hostMemRead port addr n) s (answerHost s n none) := by
  simp only [Does, exec, execHostMemRead, hp, hr, hsec, hend, ha, decide_true, and_self, Bool.and_self, Bool.not_true, Bool.not_false,
    Bool.false_eq_true, if_false, if_true]

variable (ha : allStacksReady s = true) {s1 : State}
include ha

theorem hostMemRead_uncorrectable (h : readPa s addr n 5 = (s1, none)) :
    Does (.hostMemRead port addr n) s (finish (answerHost s1 n none)) := by
  simp only [Does, exec, execHostMemRead, hp, hr, hsec, hend, ha, h, decide_true, and_self, Bool.and_self, Bool.not_true,
    Bool.false_eq_true, if_false]

theorem hostMemRead_reads {d : List Byte} (h : readPa s addr n 5 = (s1, some d)) :
    ∃ s2, Does (.hostMemRead port addr n) s (finish s2) ∧ s2.host.lastRead = d ∧ s2.host.lastPoison = false ∧ s2.mem = s1.mem := by
  refine ⟨answerHost (hostHas s1 port addr n) n (some d), ?_, rfl, rfl, mem_hostHas _ _ _ _⟩
  simp only [Does, exec, execHostMemRead, hp, hr, hsec, hend, ha, h, decide_true, and_self, Bool.and_self, Bool.not_true, Bool.false_eq_true,
    if_false, hostHas]

end

/-! ### Writes -/

variable {data : List Byte} {poison : Bool} {k : Nat}

theorem hostMemWrite_does (hp : port < 2) (hr : s.readyIo.getLsbD port = true) (hsec : addr % 64 + data.length ≤ 64)
    (hend : addr + data.length ≤ interleavedEnd s) :
    Does (.hostMemWrite port addr data poison) s (finish (hostWrite s port addr data poison)) := by
  simp only [Does, exec, execHostMemWrite, hp, hr, hsec, hend, decide_true, and_self, Bool.and_self, if_true]

/-- The state in which a host write finds its sector: poisoned data are recorded first (spec/25 R466). -/
def poisonNoted (s : State) (port k : Nat) (data : List Byte) (poison : Bool) : State := if poison then poisonIn s 4 port k data else s

theorem poisonNoted_eq (s : State) (port k : Nat) (data : List Byte) (poison : Bool) :
    ∃ es, poisonNoted s port k data poison = { s with errq := es } := by
  unfold poisonNoted
  split <;> exact ⟨_, rfl⟩

/-- The writer that a port's tracked write is. -/
def portWriter (s : State) (port : Nat) : Writer :=
  { tag := 0, launch := 0, floor := smGet 0 s.host.floors port, op := none, cmd := none, port := some port, line := none, chunk := none,
    log := none }

/-- The write that a port queues when the bookkeeping before it is done. -/
theorem queueHome_port {s1 : State} (h : atRest s1 = atRest s) :
    (queueHome s1 k data (portWriter s1 port) poison).mem = s.mem ∧
      ∃ w, (queueHome s1 k data (portWriter s1 port) poison).homeq = s.homeq ++ [w] ∧ w.home = homeOf s k ∧ w.key = k ∧ w.data = data ∧ w.poison = poison ∧ w.floor = smGet 0 s.host.floors port ∧ w.tag = 0 := by
  have hasked : atRest (pcAsk s1 (homeOf s1 k) (writeClass s1 (portWriter s1 port))) = atRest s := (atRest_pcAsk _ _).trans h
  exact ⟨(mem_of_atRest hasked :), _, congrArg (· ++ [_]) (homeq_of_atRest hasked), homeOf_of_fixtures (fixtures_of_atRest h) k, rfl, rfl, rfl,
    congrArg (fun x : HostLink => smGet 0 x.floors port) (host_of_atRest h), rfl⟩

/-- An untracked write of the host, with the poison of its data. -/
def putHost (s : State) (port k : Nat) (data : List Byte) (poison : Bool) : State :=
  if poison then setPoison (putUntracked s k data (smGet 0 s.host.floors port) 0 0) (sectorOf k) true
  else putUntracked s k data (smGet 0 s.host.floors port) 0 0

theorem fixtures_putHost : fixtures (putHost s port k data poison) = fixtures s := by
  unfold putHost
  split
  · exact (fixtures_setPoison _ _).trans (fixtures_putUntracked _ _ _ _ _)
  · exact fixtures_putUntracked _ _ _ _ _

theorem mem_putHost : (putHost s port k data poison).mem = (memWrite s k data).mem := by
  unfold putHost
  split <;> exact mem_putUntracked _ _ _ _ _

theorem poisoned_putHost : poisoned (putHost s port k data true) (sectorOf k) = true :=
  decide_eq_true (mem_insertNew.mpr (.inr rfl))

section

variable (hk : keyOfPa s addr = some k) (hreach : reachable s k = true) (hback : quiesceBack s k = false)
include hk hreach hback

theorem hostWrite_reaches : hostWrite s port addr data poison =
    if trackedPa s addr then
      queueHome (settle (poisonNoted s port k data poison) (sectorOf k) 5) k data
        (portWriter (settle (poisonNoted s port k data poison) (sectorOf k) 5) port) poison
    else forwardStash (putHost (settle (poisonNoted s port k data poison) (sectorOf k) 5) port k data poison) (sectorOf k) := by
  obtain ⟨es, hes⟩ := poisonNoted_eq s port k data poison
  have hback' : quiesceBack (poisonNoted s port k data poison) k = false := hes ▸ hback
  have hreach' : reachable (poisonNoted s port k data poison) k = true := hes ▸ hreach
  have htracked : trackedPa (poisonNoted s port k data poison) addr = trackedPa s addr := hes ▸ rfl
  have hstart : hostWrite s port addr data poison =
      if quiesceBack (poisonNoted s port k data poison) k then
        takeBack (poisonNoted s port k data poison) port k data (trackedPa (poisonNoted s port k data poison) addr) poison
      else if !reachable (poisonNoted s port k data poison) k then poisonNoted s port k data poison
      else if trackedPa (settle (poisonNoted s port k data poison) (sectorOf k) 5) addr then
        queueHome (settle (poisonNoted s port k data poison) (sectorOf k) 5) k data
          (portWriter (settle (poisonNoted s port k data poison) (sectorOf k) 5) port) poison
      else forwardStash (putHost (settle (poisonNoted s port k data poison) (sectorOf k) 5) port k data poison) (sectorOf k) := by
    simp only [hostWrite, hk]
    rfl
  have hsettled : trackedPa (settle (poisonNoted s port k data poison) (sectorOf k) 5) addr = trackedPa s addr := by
    have hquiet := ((Quiet.refl (poisonNoted s port k data poison)).settle (sectorOf k) 5).tracked
    rw [← htracked]
    simp only [trackedPa, hquiet]
  rw [hstart, hback', hreach', hsettled]
  rfl

end

section

variable (hplaces : stashPlaces s (sectorOf k) = []) (hq : ∀ w ∈ s.homeq, sectorOf w.key ≠ sectorOf k)
  (hg : tbGet s.groups (sectorOf k) = none)
include hplaces hq hg

theorem atRest_settled : atRest (settle (poisonNoted s port k data poison) (sectorOf k) 5) = atRest s := by
  obtain ⟨es, hes⟩ := poisonNoted_eq s port k data poison
  rw [hes]
  exact (atRest_settle (s := { s with errq := es }) hq hg hplaces 5).trans (atRest_upd rfl rfl rfl rfl rfl rfl rfl rfl rfl rfl rfl)

/-- An untracked write is not forwarded: no stash holds its sector. -/
theorem hostWrite_lands (hk : keyOfPa s addr = some k) (hreach : reachable s k = true) (hback : quiesceBack s k = false)
    (ht : trackedPa s addr = false) :
    hostWrite s port addr data poison = putHost (settle (poisonNoted s port k data poison) (sectorOf k) 5) port k data poison := by
  rw [hostWrite_reaches hk hreach hback, ht]
  refine forwardStash_nil ?_
  rw [stashPlaces_of_fixtures (fixtures_putHost.trans (fixtures_of_atRest (atRest_settled hplaces hq hg))), hplaces]

theorem mem_hostWrite (hk : keyOfPa s addr = some k) (hreach : reachable s k = true) (hback : quiesceBack s k = false)
    (ht : trackedPa s addr = false) : (hostWrite s port addr data poison).mem = (memWrite s k data).mem := by
  rw [hostWrite_lands hplaces hq hg hk hreach hback ht, mem_putHost]
  exact mem_memWrite_congr (mem_of_atRest (atRest_settled hplaces hq hg)) _ _

/-- A tracked write waits for its home, and is what the home gets. -/
theorem hostWrite_queues (hk : keyOfPa s addr = some k) (hreach : reachable s k = true) (hback : quiesceBack s k = false)
    (ht : trackedPa s addr = true) :
    (hostWrite s port addr data poison).mem = s.mem ∧ ∃ w, (hostWrite s port addr data poison).homeq = s.homeq ++ [w] ∧ w.home = homeOf s k ∧
      w.key = k ∧ w.data = data ∧ w.poison = poison ∧ w.floor = smGet 0 s.host.floors port ∧ w.tag = 0 := by
  rw [hostWrite_reaches hk hreach hback, ht, if_pos rfl]
  exact queueHome_port (atRest_settled hplaces hq hg)

end

theorem hostWriteLands (s : State) (port : Nat) : HostWriteLands s port := by
  intro addr data poison k hp hr hsec hend hk hreach hwf hback hplaces hq hg
  have hdoes := hostMemWrite_does (poison := poison) hp hr hsec hend
  refine ⟨fun ht => ⟨_, hdoes, fun a => ?_, ?_⟩, fun ht => ?_⟩
  · exact (congrArg (smGet 0 · a) (mem_hostWrite hplaces hq hg hk hreach hback ht)).trans (memGet_memWrite k a data hwf)
  · rintro rfl
    rw [hostWrite_lands hplaces hq hg hk hreach hback ht]
    exact poisoned_putHost
  · obtain ⟨hmem, w, hw⟩ := hostWrite_queues (port := port) (data := data) (poison := poison) hplaces hq hg hk hreach hback ht
    exact ⟨_, w, hdoes, hmem, hw⟩

end Sys2Proof.Proofs.Links
end

section
/-! O52: the accesses of peers (spec/27 R479, R480; spec/13 R280; spec/25 R454, R466). -/

namespace Sys2Proof.Laws

open Sys2Proof.Machine

variable {s s' : State} {pa : Nat}

/-! ### Addresses on the device -/

/-- Whether an address lies in a window of HBM, populated or not. -/
def InHbmWindow (s : State) (pa : Nat) : Prop := pa < 12 * csOf s.leesMode ∨ stackBase ≤ pa ∧ pa < stackBase + 12 * 2 ^ 36

/-- The key of an address on HBM is told by the mode of the lees. -/
theorem keyOfPa_of_leesMode (hl : s'.leesMode = s.leesMode) (h : InHbmWindow s pa) : keyOfPa s' pa = keyOfPa s pa := by
  unfold keyOfPa
  rw [hl]
  dsimp only
  by_cases hlow : pa < 12 * csOf s.leesMode
  · rw [if_pos hlow, if_pos hlow]
  · have hstack := h.resolve_left hlow
    rw [if_neg hlow, if_neg hlow, if_pos hstack, if_pos hstack]

theorem recAddr_of_isHbm (hl : s'.leesMode = s.leesMode) {k : Nat} (hk : isHbm k = true) : recAddr s' k = recAddr s k := by
  unfold recAddr
  rw [keyOfPa_of_leesMode hl (.inr (of_decide_eq_true hk))]

theorem inHbmWindow_of_windowOf {w : Nat} (h : windowOf s pa = some w) (hw : w ≠ 13) : InHbmWindow s pa := by
  by_contra hn
  obtain ⟨hlow, hstack⟩ := not_or.mp hn
  unfold windowOf at h
  rw [if_neg hlow, if_neg hstack] at h
  split at h
  · exact hw (Option.some.inj h).symm
  · cases h

/-- A populated address on HBM has a key there. -/
theorem isHbm_of_keyOfPa (h : InHbmWindow s pa) {k : Nat} (hk : keyOfPa s pa = some k) : isHbm k = true := by
  unfold keyOfPa at hk
  dsimp only at hk
  have hcs : csOf s.leesMode ≤ 48000000000 := Nat.sub_le _ _
  by_cases hlow : pa < 12 * csOf s.leesMode
  · rw [if_pos hlow] at hk
    obtain rfl := Option.some.inj hk
    unfold isHbm hbmKey
    exact decide_eq_true ⟨by omega, by omega⟩
  · have hstack := h.resolve_left hlow
    rw [if_neg hlow, if_pos hstack] at hk
    split at hk
    · obtain rfl := Option.some.inj hk
      exact decide_eq_true hstack
    · cases hk

/-- The address that a record of a location on HBM carries. -/
theorem recAddr_keyOfPa (hl : s'.leesMode = s.leesMode) (h : InHbmWindow s pa) :
    recAddr s' ((keyOfPa s' pa).getD 0) = recAddr s ((keyOfPa s pa).getD 0) := by
  rw [keyOfPa_of_leesMode hl h]
  cases hk : keyOfPa s pa with
  | none =>
    have hzero : ∀ x : State, recAddr x 0 = 0 := fun x => ite_self _
    exact (hzero s').trans (hzero s).symm
  | some k => exact recAddr_of_isHbm hl (isHbm_of_keyOfPa h hk)

/-! ### Error records and stashes -/

theorem errq_memWrite (k : Nat) (bs : List Byte) : (memWrite s k bs).errq = s.errq := by
  induction bs generalizing s k with
  | nil => rfl
  | cons b bs ih => exact ih _

theorem errq_copyTags (src dst n : Nat) : (copyTags s src dst n).errq = s.errq := by
  induction n generalizing s src dst with
  | zero => rfl
  | succ n ih => exact ih _ _

theorem errq_setPoison (sec : Nat) (b : Bool) : (setPoison s sec b).errq = s.errq := rfl

theorem errq_forwardStash (sec : Nat) : (forwardStash s sec).errq = s.errq := by
  unfold forwardStash
  refine foldl_view (view := State.errq) (fun s p => ?_) _ s
  rw [errq_setPoison, errq_copyTags, errq_memWrite]

end Sys2Proof.Laws

namespace Sys2Proof.Proofs.Links

open Sys2Proof.Machine Sys2Proof.Spec Sys2Proof.Laws

variable {s s1 : State} {off pa n : Nat} {op : PeerOp} {d old : List Byte}

theorem inHbmWindow_of_exportedPa (h : exportedPa s off n = some pa) : InHbmWindow s pa := by
  unfold exportedPa untrackedHbm at h
  dsimp only at h
  obtain ⟨hx, hpa⟩ := Option.ite_none_right_eq_some.mp h
  obtain rfl := Option.some.inj hpa
  simp only [Bool.and_eq_true] at hx
  obtain ⟨-, ⟨hw, -⟩, -⟩ := hx
  split at hw
  · rename_i w hwindow
    exact inHbmWindow_of_windowOf hwindow (bne_iff_ne.mp hw)
  · cases hw

/-! ### What an access answers -/

section

variable (hup : (List.range 16).any (fun p => s.readyIo.getLsbD (2 + p)) = true)
include hup

theorem peerAccess_outside (he : exportedPa s off (peerBytes d op) = none) : Does (.peerAccess off op d) s (refusePeer s 0x05) := by
  simp only [Does, exec, execPeerAccess, hup, he, Bool.not_true, Bool.false_eq_true, if_false]

variable (he : exportedPa s off (peerBytes d op) = some pa)
include he

theorem peerAccess_unreachable (hu : paUsable s pa (peerBytes d op) = false) : Does (.peerAccess off op d) s (refusePeer s 0x10) := by
  simp only [Does, exec, execPeerAccess, hup, he, hu, Bool.not_true, Bool.not_false, Bool.false_eq_true, if_false, if_true]

variable (hu : paUsable s pa (peerBytes d op) = true)
include hu

theorem peerAccess_answers {r : List Byte} (h : peerDo s off pa op d = (s1, some r)) :
    Does (.peerAccess off op d) s (finish (answerHost s1 r.length (some r))) := by
  simp only [Does, exec, execPeerAccess, hup, he, hu, h, Bool.not_true, Bool.false_eq_true, if_false]

theorem peerAccess_fails (h : peerDo s off pa op d = (s1, none)) : Does (.peerAccess off op d) s (finish (refusePeer s1 0x10)) := by
  simp only [Does, exec, execPeerAccess, hup, he, hu, h, Bool.not_true, Bool.false_eq_true, if_false]

end

/-! ### Atomics and reductions (spec/13 R280) -/

section

variable {f : Nat → Option Nat}

theorem peerUpdate_unreadable (h : readPa s pa n 0 = (s1, none)) : peerUpdate s pa n f = (s1, none) := by
  simp only [peerUpdate, h]

/-- The bytes of a peer's update, with the floor that it read. -/
def updated (s1 : State) (pa n x : Nat) : State :=
  writePa s1 pa (leBytes n x) (peerWriter s1 (match keyOfPa s1 pa with | some k => tagRead s1 k n | none => 0))

theorem peerUpdate_writes (h : readPa s pa n 0 = (s1, some old)) {x : Nat} (hf : f (leNat old) = some x) :
    peerUpdate s pa n f = (updated s1 pa n x, some old) := by
  simp only [peerUpdate, h, hf]
  rfl

theorem peerUpdate_leaves (h : readPa s pa n 0 = (s1, some old)) (hf : f (leNat old) = none) : peerUpdate s pa n f = (s1, some old) := by
  simp only [peerUpdate, h, hf]

end

theorem peerDo_unreadable (h : readPa s pa (peerBytes d op) 0 = (s1, none)) (hop : ∀ p, op ≠ .write p) : peerDo s off pa op d = (s1, none) := by
  cases op with
  | read n => exact h
  | write p => exact absurd rfl (hop p)
  | atomic ty f => exact peerUpdate_unreadable (n := atBytes ty) (f := fun old => some (atomicF ty f old (leNat d))) h
  | cas ty e => exact peerUpdate_unreadable (n := atBytes ty) (f := fun old => if old = e then some (leNat d) else none) h
  | reduction ty f =>
    have hupdate : peerUpdate s pa (atBytes ty) (fun old => some (atomicF ty f old (leNat d))) = (s1, none) := peerUpdate_unreadable h
    simp only [peerDo, hupdate]

theorem peerDo_atomic {ty : Ty} {f : AOp} (h : readPa s pa (atBytes ty) 0 = (s1, some old)) :
    peerDo s off pa (.atomic ty f) d = (updated s1 pa (atBytes ty) (atomicF ty f (leNat old) (leNat d)), some old) :=
  peerUpdate_writes (f := fun old => some (atomicF ty f old (leNat d))) h rfl

theorem peerDo_cas_equal {ty : Ty} {e : Nat} (h : readPa s pa (atBytes ty) 0 = (s1, some old)) (he : leNat old = e) :
    peerDo s off pa (.cas ty e) d = (updated s1 pa (atBytes ty) (leNat d), some old) :=
  peerUpdate_writes (f := fun old => if old = e then some (leNat d) else none) h (if_pos he)

theorem peerDo_cas_other {ty : Ty} {e : Nat} (h : readPa s pa (atBytes ty) 0 = (s1, some old)) (he : leNat old ≠ e) :
    peerDo s off pa (.cas ty e) d = (s1, some old) :=
  peerUpdate_leaves (f := fun old => if old = e then some (leNat d) else none) h (if_neg he)

theorem peerDo_reduction {ty : Ty} {f : AOp} (h : readPa s pa (atBytes ty) 0 = (s1, some old)) :
    peerDo s off pa (.reduction ty f) d = (updated s1 pa (atBytes ty) (atomicF ty f (leNat old) (leNat d)), some []) := by
  have hupdate : peerUpdate s pa (atBytes ty) (fun old => some (atomicF ty f old (leNat d))) = _ := peerUpdate_writes h rfl
  simp only [peerDo, hupdate]

/-! ### Poisoned writes (spec/25 R454, R466) -/

/-- After a peer's poisoned write: its sectors are poisoned, where stashes hold them too. -/
def poisonedWrite (s : State) (pa : Nat) (d : List Byte) : State :=
  (paSectors (writePa s pa d (peerWriter s 0)) pa d.length).foldl (fun s x => forwardStash (setPoison s x true) x)
    (writePa s pa d (peerWriter s 0))

theorem errq_poisonedWrite : (poisonedWrite s pa d).errq = (writePa s pa d (peerWriter s 0)).errq :=
  foldl_view (view := State.errq) (fun s x => (errq_forwardStash x).trans (errq_setPoison (s := s) x true)) _ _

theorem leesMode_poisonedWrite : (poisonedWrite s pa d).leesMode = s.leesMode :=
  (Quiet.foldl _ ((Quiet.refl s).writePa _ _ _) fun _ _ h => (h.setPoison _ _).forwardStash _).leesMode

theorem peerWrite_poisoned (h : InHbmWindow s pa) : ∃ port, (peerWrite s off pa d true).errq =
    (writePa s pa d (peerWriter s 0)).errq ++ [⟨0x10, 1, 0, 5, port, recAddr s ((keyOfPa s pa).getD 0), 0, leNat (d.take 8), 0⟩] := by
  refine ⟨huanenPort (poisonedWrite s pa d) off, ?_⟩
  rw [← errq_poisonedWrite, ← recAddr_keyOfPa leesMode_poisonedWrite h]
  rfl

theorem peerAccesses (s : State) : PeerAccesses s := by
  intro hup off op d
  refine ⟨fun he => ?_, fun pa he => ⟨fun hu => ?_, fun hu => ⟨fun hop => ?_, fun hop => ?_, fun s1 h hop => ?_, fun s1 old h => ?_⟩⟩⟩
  · exact peerAccess_outside hup (by cases op <;> exact he)
  · exact peerAccess_unreachable hup (by cases op <;> exact he) (by cases op <;> exact hu)
  · subst hop
    exact peerAccess_answers hup he hu rfl
  · subst hop
    obtain ⟨port, herrq⟩ := peerWrite_poisoned (off := off) (d := d) (inHbmWindow_of_exportedPa he)
    exact ⟨_, port, peerAccess_answers hup he hu rfl, herrq⟩
  · exact peerAccess_fails hup (by cases op <;> exact he) (by cases op <;> exact hu) (peerDo_unreadable (by cases op <;> exact h) hop)
  · refine ⟨fun m hop => ?_, fun ty f hop => ?_, fun ty e hop => ⟨fun hold => ?_, fun hold => ?_⟩, fun ty f hop => ?_⟩
    all_goals subst hop
    · exact peerAccess_answers hup he hu h
    · exact peerAccess_answers hup he hu (peerDo_atomic h)
    · exact peerAccess_answers hup he hu (peerDo_cas_equal h hold)
    · exact peerAccess_answers hup he hu (peerDo_cas_other h hold)
    · exact peerAccess_answers hup he hu (peerDo_reduction h)

end Sys2Proof.Proofs.Links
end

section
/-! O52: links and ports (spec/27 R469, R470, R473; spec/25 R451, R486; spec/13 R273, R281). A port's bit follows its links. When it falls each
request in flight on it is lost to its operation, to the stash chunk it was to fill and to the command it was made for, and nothing else of the state. -/

namespace Sys2Proof.Proofs.Links

open Sys2Proof.Machine Sys2Proof.Spec Sys2Proof.Laws

variable {s : State} {port : Nat}

/-! ### Links that come up -/

/-- Whether a port's strap gives it two links (spec/27 R470). -/
def bifurcated (s : State) (port : Nat) : Bool := if port = 0 then s.host.bifur0 else s.host.bifur1

theorem linksOf_bifurcated (h : bifurcated s port = true) : linksOf s port = [2 * port, 2 * port + 1] := if_pos h

theorem linksOf_single (h : bifurcated s port = false) : linksOf s port = [2 * port] := if_neg (Bool.eq_false_iff.mp h)

theorem mem_linksOf {half : Nat} (h : half = 0 ∨ half = 1 ∧ bifurcated s port = true) : 2 * port + half ∈ linksOf s port := by
  cases hb : bifurcated s port with
  | true =>
    rw [linksOf_bifurcated hb]
    rcases h with rfl | ⟨rfl, -⟩ <;> simp
  | false =>
    obtain rfl : half = 0 := h.resolve_right fun hh => by simp [hb] at hh
    simp [linksOf_single hb]

/-- The links after one has come up: all of them where it is the only one, or where the other half is up. -/
theorem linksUp_setLink {half : Nat} (hp : port < 2) (h : half = 0 ∨ half = 1 ∧ bifurcated s port = true) :
    linksUp (setLink s (2 * port + half) true) port = true ↔
      half = 0 ∧ bifurcated s port = false ∨ bifurcated s port = true ∧ s.host.links.getLsbD (2 * port + (1 - half)) = true := by
  have hbit : ∀ j, j < 4 → (setLink s (2 * port + half) true).host.links.getLsbD j =
      if j = 2 * port + half then true else s.host.links.getLsbD j := fun j hj =>
    getLsbD_setBit _ _ _ _ (by omega) hj
  cases hb : bifurcated s port with
  | true =>
    have hlinks : linksUp (setLink s (2 * port + half) true) port = [2 * port, 2 * port + 1].all fun i =>
        (setLink s (2 * port + half) true).host.links.getLsbD i :=
      congrArg (List.all · _) (linksOf_bifurcated (s := setLink s (2 * port + half) true) hb)
    rw [hlinks]
    simp only [List.all_cons, List.all_nil, Bool.and_true, Bool.and_eq_true, hbit (2 * port) (by omega), hbit (2 * port + 1) (by omega)]
    rcases h with rfl | ⟨rfl, -⟩ <;> simp
  | false =>
    obtain rfl : half = 0 := h.resolve_right fun hh => by simp [hb] at hh
    have hlinks : linksUp (setLink s (2 * port + 0) true) port = [2 * port].all fun i => (setLink s (2 * port + 0) true).host.links.getLsbD i :=
      congrArg (List.all · _) (linksOf_single (s := setLink s (2 * port + 0) true) hb)
    rw [hlinks]
    simp only [List.all_cons, List.all_nil, Bool.and_true, hbit (2 * port) (by omega)]
    simp

theorem cxlLinkUp_does {half : Nat} (hp : port < 2) (h : half = 0 ∨ half = 1 ∧ bifurcated s port = true) (hb : booted s = true)
    (hr : s.readyIo.getLsbD 20 = true) : Does (.cxlLinkUp (2 * port + half)) s
      (if linksUp (setLink s (2 * port + half) true) port then setIo (setLink s (2 * port + half) true) port true
       else setLink s (2 * port + half) true) := by
  have hhalf : half < 2 := by omega
  have hport : (2 * port + half) / 2 = port := by omega
  refine congrArg Host.Outcome.next ((if_pos ⟨by omega, hport.symm ▸ mem_linksOf h, hb, hr⟩).trans ?_)
  rw [hport]

/-! ### Requests that are lost -/

theorem loseOp_reduction {o : Op} (h : o.kind = .reduction) (id : Nat) (priv : Bool) (bad : List ExtReq) : loseOp o id priv bad =
    { o with logs := o.logs ++ (bad.filterMap (·.log)).foldl insertNew [] } := by
  simp only [loseOp, h]

theorem loseOp_other {o : Op} (h : o.kind ≠ .reduction) (id : Nat) (priv : Bool) (bad : List ExtReq) : loseOp o id priv bad =
    { o with late := addLate o id priv bad,
             dest := { o.dest with v := o.dest.v.filter fun e => !bad.any fun r => r.lane == e.1 % 1024, s := [] } } := by
  unfold loseOp
  split
  · exact absurd ‹o.kind = .reduction› h
  · rfl

theorem ext_loseOp (o : Op) (id : Nat) (priv : Bool) (bad : List ExtReq) : (loseOp o id priv bad).ext = o.ext := by
  unfold loseOp
  split <;> rfl

section

variable {l : Late} {bad : List ExtReq} {r : ExtReq}

theorem code_foldl_lateLane : (bad.foldl lateLane l).code = l.code := foldl_view (view := Late.code) (f := lateLane) (fun _ _ => rfl) bad l

theorem mask_lateLane (l : Late) (r : ExtReq) : (lateLane l r).mask = l.mask ||| maskOf [r.lane] := rfl

theorem mask_foldl_lateLane_of_mask {i : Nat} (h : l.mask.getLsbD i = true) : (bad.foldl lateLane l).mask.getLsbD i = true := by
  induction bad generalizing l with
  | nil => exact h
  | cons x bad ih => exact ih (by rw [mask_lateLane, BitVec.getLsbD_or, h, Bool.true_or])

theorem mask_foldl_lateLane (hr : r ∈ bad) (hl : r.lane < 1024) : (bad.foldl lateLane l).mask.getLsbD r.lane = true := by
  induction bad generalizing l with
  | nil => cases hr
  | cons x bad ih =>
    rcases List.mem_cons.mp hr with rfl | hr
    · refine mask_foldl_lateLane_of_mask (l := lateLane l r) ?_
      rw [mask_lateLane, BitVec.getLsbD_or, getLsbD_maskOf hl]
      simp
    · exact ih hr

/-- A lost request makes the late fault of its operation, with its lane. -/
theorem addLate_of_mem (o : Op) (id : Nat) (priv : Bool) (hr : r ∈ bad) : ∃ l, addLate o id priv bad = some l ∧
    (o.late = none → l.code = .dataUncorrectable) ∧ (r.lane < 1024 → l.mask.getLsbD r.lane = true) := by
  cases bad with
  | nil => cases hr
  | cons x bad =>
    refine ⟨_, rfl, fun h => ?_, fun hl => mask_foldl_lateLane hr hl⟩
    exact code_foldl_lateLane.trans (by rw [h]; rfl)

theorem mem_foldl_insertNew {α : Type} [DecidableEq α] {x : α} {l m : List α} : x ∈ l.foldl insertNew m ↔ x ∈ m ∨ x ∈ l := by
  induction l generalizing m with
  | nil => simp
  | cons y l ih => rw [List.foldl_cons, ih, mem_insertNew, List.mem_cons, or_assoc]

end

/-- What the loss of some requests makes of their operation. -/
def LostOp (id : Nat) (bad : List ExtReq) (o o' : Op) : Prop := bad = [] ∧ o' = o ∨ bad ≠ [] ∧ ∃ priv, o' = loseOp o id priv bad

section

variable {id : Nat} {bad : List ExtReq} {o o' : Op} {r : ExtReq}

theorem LostOp.ext_eq (h : LostOp id bad o o') : o'.ext = o.ext := by
  obtain ⟨-, rfl⟩ | ⟨-, priv, rfl⟩ := h
  · rfl
  · exact ext_loseOp _ _ _ _

theorem LostOp.eq_of_nil (h : LostOp id bad o o') (hb : bad = []) : o' = o := h.elim And.right fun hn => absurd hb hn.1

theorem LostOp.eq_loseOp (h : LostOp id bad o o') (hr : r ∈ bad) : ∃ priv, o' = loseOp o id priv bad :=
  h.elim (fun hn => absurd (hn.1 ▸ hr) List.not_mem_nil) And.right

/-- An operation that is no reduction has the fault, and writes no destination in the lane of a lost request. -/
theorem LostOp.faults (h : LostOp id bad o o') (hr : r ∈ bad) (hk : o.kind ≠ .reduction) :
    (∃ l, o'.late = some l ∧ (o.late = none → l.code = .dataUncorrectable) ∧ (r.lane < 1024 → l.mask.getLsbD r.lane = true)) ∧
      ∀ e ∈ o'.dest.v, e.1 % 1024 ≠ r.lane := by
  obtain ⟨priv, rfl⟩ := h.eq_loseOp hr
  rw [loseOp_other hk]
  refine ⟨addLate_of_mem o id priv hr, fun e he hlane => ?_⟩
  obtain ⟨-, hgone⟩ := List.mem_filter.mp he
  have hany : (bad.any fun r => r.lane == e.1 % 1024) = true := List.any_eq_true.mpr ⟨r, hr, beq_iff_eq.mpr hlane.symm⟩
  rw [hany] at hgone
  cases hgone

/-- A reduction logs the lane. -/
theorem LostOp.logs (h : LostOp id bad o o') (hr : r ∈ bad) (hk : o.kind = .reduction) {x : LogEntry} (hx : r.log = some x) : x ∈ o'.logs := by
  obtain ⟨priv, rfl⟩ := h.eq_loseOp hr
  rw [loseOp_reduction hk]
  exact List.mem_append_right _ (mem_foldl_insertNew.mpr (.inr (List.mem_filterMap.mpr ⟨r, hr, hx⟩)))

end

/-! ### What the loss of requests leaves -/

/-- Of the state the operations and the crews' windows are changed. -/
def OnlyLost (s s' : State) : Prop := s' = { s with ops := s'.ops, crews := s'.crews }

theorem OnlyLost.trans {s1 s2 : State} (h1 : OnlyLost s s1) (h2 : OnlyLost s1 s2) : OnlyLost s s2 := by
  unfold OnlyLost at h1 h2 ⊢
  rw [h2, h1]

theorem onlyLost_foldl {α : Type} {f : State → α → State} (h : ∀ s a, OnlyLost s (f s a)) (l : List α) (s : State) :
    OnlyLost s (l.foldl f s) := by
  induction l generalizing s with
  | nil => rfl
  | cons a l ih => exact (h s a).trans (ih _)

theorem onlyLost_dropFill (s : State) (r : ExtReq) : OnlyLost s (dropFill s r) := by
  unfold dropFill
  split <;> rfl

theorem onlyLost_loseReqs (s : State) (id : Nat) (o : Op) (bad : List ExtReq) : OnlyLost s (loseReqs s id o bad) := by
  unfold loseReqs
  split
  · rfl
  · exact (onlyLost_foldl onlyLost_dropFill bad s).trans rfl

/-- The state after the requests in flight on a port are lost, before its commands hear of it. -/
def reqsLost (s : State) (port : Nat) : State := s.ops.foldl (fun u e => loseReqs u e.1 e.2 (flying s port e)) s

theorem onlyLost_reqsLost (s : State) (port : Nat) : OnlyLost s (reqsLost s port) := onlyLost_foldl (fun _ _ => onlyLost_loseReqs _ _ _ _) _ s

/-- No operation has a request on the port any more. -/
def withoutLink (port : Nat) (m : Tab Op) : Tab Op := m.map fun e => (e.1, { e.2 with ext := e.2.ext.filter fun r => r.link / 2 != port })

theorem losePort_eq (s : State) (port : Nat) : losePort s port = { s with
    crews := (reqsLost s port).crews, cmds := s.cmds.map (loseCopy s port),
    ops := withoutLink port (reqsLost s port).ops } := by
  have h : reqsLost s port = { s with ops := (reqsLost s port).ops, crews := (reqsLost s port).crews } := onlyLost_reqsLost s port
  exact congrArg (fun u : State => { u with
    cmds := u.cmds.map (loseCopy s port), ops := withoutLink port (reqsLost s port).ops }) h

/-! Operations. -/

theorem ops_dropFill (s : State) (r : ExtReq) : (dropFill s r).ops = s.ops := by
  unfold dropFill
  split <;> rfl

section

variable {id : Nat} {o x : Op} {bad : List ExtReq}

theorem tbGet_loseReqs_self (h : tbGet s.ops id = some o) : ∃ o', tbGet (loseReqs s id x bad).ops id = some o' ∧ LostOp id bad o o' := by
  unfold loseReqs
  split
  · exact ⟨o, h, .inl ⟨‹_›, rfl⟩⟩
  · have hops : (bad.foldl dropFill s).ops = s.ops := foldl_view (view := State.ops) (f := dropFill) ops_dropFill bad s
    exact ⟨_, (tbGet_tbMod_self _ _ _).trans (by rw [hops, h]; rfl), .inr ⟨‹_›, _, rfl⟩⟩

theorem tbGet_loseReqs_ne {j : Nat} (hj : j ≠ id) : tbGet (loseReqs s id x bad).ops j = tbGet s.ops j := by
  unfold loseReqs
  split
  · rfl
  · have hops : (bad.foldl dropFill s).ops = s.ops := foldl_view (view := State.ops) (f := dropFill) ops_dropFill bad s
    exact (tbGet_tbMod_ne _ _ hj).trans (by rw [hops])

variable {lost : Nat × Op → List ExtReq}

theorem tbGet_foldl_loseReqs_ne {l : Tab Op} (h : ∀ e ∈ l, e.1 ≠ id) (s : State) :
    tbGet (l.foldl (fun u e => loseReqs u e.1 e.2 (lost e)) s).ops id = tbGet s.ops id := by
  induction l generalizing s with
  | nil => rfl
  | cons e l ih =>
    exact (ih (fun x hx => h x (List.mem_cons_of_mem _ hx)) _).trans (tbGet_loseReqs_ne (h e List.mem_cons_self).symm)

/-- With one entry for each operation, each loses its own requests. -/
theorem tbGet_foldl_loseReqs {l : Tab Op} (hn : (l.map (·.1)).Nodup) (hm : (id, x) ∈ l) (h : tbGet s.ops id = some o) :
    ∃ o', tbGet (l.foldl (fun u e => loseReqs u e.1 e.2 (lost e)) s).ops id = some o' ∧ LostOp id (lost (id, x)) o o' := by
  induction l generalizing s with
  | nil => cases hm
  | cons e l ih =>
    obtain ⟨he, hn⟩ := List.nodup_cons.mp hn
    rcases List.mem_cons.mp hm with rfl | hm
    · obtain ⟨o', ho', hlost⟩ := tbGet_loseReqs_self (x := x) (bad := lost (id, x)) h
      exact ⟨o', (tbGet_foldl_loseReqs_ne (fun y hy hid => he (List.mem_map.mpr ⟨y, hy, hid⟩)) _).trans ho', hlost⟩
    · have hid : id ≠ e.1 := fun hid => he (List.mem_map.mpr ⟨_, hm, hid⟩)
      exact ih hn hm ((tbGet_loseReqs_ne hid).trans h)

end

/-! Stash chunks. -/

/-- A chunk of a window is not filled. -/
def Unfilled (c : Crew) (woff i : Nat) : Prop := ∀ w ∈ c.windows, w.off = woff → tbGet w.chunks i = none

/-- A crew after chunks that it waited for are dropped. -/
def Dropped (c c' : Crew) : Prop := c' = { c with windows := c'.windows } ∧ ∀ woff i, Unfilled c woff i → Unfilled c' woff i

theorem Dropped.refl (c : Crew) : Dropped c c := ⟨rfl, fun _ _ => id⟩

theorem Dropped.trans {a b c : Crew} (h1 : Dropped a b) (h2 : Dropped b c) : Dropped a c := by
  obtain ⟨hb, h1⟩ := h1
  obtain ⟨hc, h2⟩ := h2
  refine ⟨?_, fun woff i h => h2 _ _ (h1 _ _ h)⟩
  rw [hc, hb]

/-- Of a crew, chunks are dropped, those of `gone` among them. -/
def Drops (cid : Nat) (gone : Nat → Nat → Prop) (s s' : State) : Prop := ∀ c, tbGet s.crews cid = some c →
  ∃ c', tbGet s'.crews cid = some c' ∧ Dropped c c' ∧ ∀ woff i, gone woff i → Unfilled c' woff i

theorem drops_foldl {α : Type} {cid : Nat} {f : State → α → State} {gone : α → Nat → Nat → Prop} {l : List α}
    (h : ∀ s, ∀ a ∈ l, Drops cid (gone a) s (f s a)) (s : State) : Drops cid (fun woff i => ∃ a ∈ l, gone a woff i) s (l.foldl f s) := by
  induction l generalizing s with
  | nil => exact fun c hc => ⟨c, hc, .refl c, fun _ _ ⟨a, ha, _⟩ => absurd ha List.not_mem_nil⟩
  | cons a l ih =>
    intro c hc
    obtain ⟨c1, hc1, hd1, hgone1⟩ := h s a List.mem_cons_self c hc
    obtain ⟨c2, hc2, hd2, hgone2⟩ := ih (fun s x hx => h s x (List.mem_cons_of_mem _ hx)) (f s a) c1 hc1
    refine ⟨c2, hc2, hd1.trans hd2, fun woff i ⟨x, hx, hg⟩ => ?_⟩
    rcases List.mem_cons.mp hx with rfl | hx
    · exact hd2.2 _ _ (hgone1 _ _ hg)
    · exact hgone2 _ _ ⟨x, hx, hg⟩

/-- A crew's windows without one chunk. -/
def withoutChunk (c : Crew) (woff i : Nat) : Crew :=
  { c with windows := c.windows.map fun w => if w.off = woff then { w with chunks := tbDel w.chunks i } else w }

theorem unfilled_withoutChunk (c : Crew) (woff i : Nat) : Unfilled (withoutChunk c woff i) woff i := by
  intro w hw hoff
  obtain ⟨v, hv, rfl⟩ := List.mem_map.mp hw
  split at hoff
  · rw [if_pos ‹_›]
    exact tbGet_tbDel_self _ _
  · exact absurd hoff ‹_›

theorem dropped_withoutChunk (c : Crew) (woff i : Nat) : Dropped c (withoutChunk c woff i) := by
  refine ⟨rfl, fun a j h w hw hoff => ?_⟩
  obtain ⟨v, hv, rfl⟩ := List.mem_map.mp hw
  split at hoff
  · rw [if_pos ‹_›]
    by_cases hj : j = i
    · exact hj ▸ tbGet_tbDel_self _ _
    · exact (tbGet_tbDel_ne _ hj).trans (h v hv hoff)
  · rw [if_neg ‹_›]
    exact h v hv hoff

theorem drops_dropFill (cid : Nat) (s : State) (r : ExtReq) : Drops cid (fun woff i => r.fill = some (cid, woff, i)) s (dropFill s r) := by
  intro c hc
  unfold dropFill
  split
  · rename_i x woff i hfill
    by_cases hx : cid = x
    · subst hx
      refine ⟨withoutChunk c woff i, (tbGet_tbMod_self _ _ _).trans (by rw [hc]; rfl), dropped_withoutChunk c woff i, fun a j h => ?_⟩
      obtain ⟨-, rfl, rfl⟩ : cid = cid ∧ woff = a ∧ i = j := by simpa [hfill] using h
      exact unfilled_withoutChunk c woff i
    · refine ⟨c, (tbGet_tbMod_ne _ _ hx).trans hc, .refl c, fun a j h => ?_⟩
      rw [hfill] at h
      exact absurd (congrArg Prod.fst (Option.some.inj h)).symm hx
  · rename_i hfill
    exact ⟨c, hc, .refl c, fun a j h => by rw [hfill] at h; cases h⟩

theorem drops_loseReqs (cid : Nat) (s : State) (id : Nat) (o : Op) (bad : List ExtReq) :
    Drops cid (fun woff i => ∃ r ∈ bad, r.fill = some (cid, woff, i)) s (loseReqs s id o bad) := by
  unfold loseReqs
  split
  · rename_i hb
    exact fun c hc => ⟨c, hc, .refl c, fun _ _ ⟨r, hr, _⟩ => absurd (hb ▸ hr) List.not_mem_nil⟩
  · exact drops_foldl (fun s r _ => drops_dropFill cid s r) s

theorem drops_reqsLost (cid : Nat) (s : State) (port : Nat) : Drops cid
    (fun woff i => ∃ e ∈ s.ops, ∃ r ∈ flying s port e, r.fill = some (cid, woff, i)) s (reqsLost s port) :=
  drops_foldl (gone := fun e woff i => ∃ r ∈ flying s port e, r.fill = some (cid, woff, i)) (fun _ _ _ => drops_loseReqs cid _ _ _ _) s

/-! Commands. -/

theorem loseCopy_cases (s : State) (port : Nat) (c : Nat × Cmd) : (loseCopy s port c).1 = c.1 ∧ ((loseCopy s port c).2 = c.2 ∨
    c.2.err = none ∧ ∃ a, (loseCopy s port c).2 = { c.2 with err := some (0x10, a) }) := by
  unfold loseCopy
  split
  · split
    · rename_i hc
      split
      · simp only [Bool.and_eq_true, Option.isNone_iff_eq_none] at hc
        exact ⟨rfl, .inr ⟨hc.1.2, _, rfl⟩⟩
      · exact ⟨rfl, .inl rfl⟩
    · exact ⟨rfl, .inl rfl⟩
  · exact ⟨rfl, .inl rfl⟩

end Sys2Proof.Proofs.Links
end

section
/-! O52: a port that falls, and the obligation. -/

namespace Sys2Proof.Proofs.Links

open Sys2Proof.Machine Sys2Proof.Spec Sys2Proof.Laws

variable {s : State} {port : Nat}

/-! ### What a port that falls loses -/

theorem mem_flying {e : Nat × Op} {r : ExtReq} (h : r ∈ flying s port e) : r ∈ e.2.ext ∧ r.link / 2 = port := by
  obtain ⟨hr, hon⟩ := List.mem_filter.mp h
  exact ⟨hr, beq_iff_eq.mp (Bool.and_eq_true_iff.mp hon).1⟩

theorem losePort_op (hn : (s.ops.map (·.1)).Nodup) {id : Nat} {o : Op} (h : tbGet s.ops id = some o) :
    ∃ o', LostOp id (flying s port (id, o)) o o' ∧
      tbGet (losePort s port).ops id = some { o' with ext := o.ext.filter fun r => decide (r.link / 2 ≠ port) } := by
  obtain ⟨o', ho', hlost⟩ := tbGet_foldl_loseReqs (lost := flying s port) hn (mem_of_tbGet h) h
  refine ⟨o', hlost, ?_⟩
  have hext : (o'.ext.filter fun r => r.link / 2 != port) = o.ext.filter fun r => decide (r.link / 2 ≠ port) := by
    rw [hlost.ext_eq]
    exact congrArg (List.filter · o.ext) (funext fun r => by rw [Bool.eq_iff_iff, bne_iff_ne, decide_eq_true_iff])
  rw [← hext, losePort_eq]
  exact (tbGet_map _ _ _).trans (by rw [reqsLost, ho']; rfl)

theorem losePort_crew {cid : Nat} {c : Crew} (h : tbGet s.crews cid = some c) : ∃ c', tbGet (losePort s port).crews cid = some c' ∧
    c' = { c with windows := c'.windows } ∧
    ∀ e ∈ s.ops, ∀ r ∈ flying s port e, ∀ woff i, r.fill = some (cid, woff, i) →
      ∀ w ∈ c'.windows, w.off = woff → tbGet w.chunks i = none := by
  obtain ⟨c', hc', hdropped, hgone⟩ := drops_reqsLost cid s port c h
  rw [losePort_eq]
  exact ⟨c', hc', hdropped.1, fun e he r hr woff i hfill => hgone woff i ⟨e, he, r, hr, hfill⟩⟩

theorem losePort_cmd {e : Nat × Cmd} (h : e ∈ (losePort s port).cmds) : ∃ c ∈ s.cmds, c.1 = e.1 ∧ (e.2 = c.2 ∨
    c.2.err = none ∧ ∃ a, e.2 = { c.2 with err := some (0x10, a) }) := by
  rw [losePort_eq] at h
  obtain ⟨c, hc, rfl⟩ := List.mem_map.mp h
  obtain ⟨hid, herr⟩ := loseCopy_cases s port c
  exact ⟨c, hc, hid.symm, herr⟩

/-! ### The fall of a port's bit -/

theorem cxl_returnStamp (w : HomeWrite) (r : Option W64) : (returnStamp s w r).cxl = s.cxl := by
  have hline : (stampL1 s w r).cxl = s.cxl := by
    unfold stampL1
    split <;> rfl
  have hlater : ∀ (s1 : State) o x, (raiseLater s1 o x).cxl = s1.cxl := by
    intro s1 o x
    unfold raiseLater
    split <;> rfl
  have hop : ∀ s1 : State, (returnOp s1 w r).cxl = s1.cxl := by
    intro s1
    unfold returnOp
    split
    · exact hlater _ _ _
    · unfold failCmd
      split
      · split <;> rfl
      · rfl
    · split <;> rfl
  have hothers : ∀ (s1 : State) x, (returnOthers s1 w x).cxl = s1.cxl := by
    intro s1 x
    unfold returnOthers
    cases w.cmd <;> cases w.port <;> rfl
  exact (hothers _ _).trans ((hop _).trans hline)

/-- A port's requests and writes are lost without its lines and its bit. -/
theorem cxl_loseWrites (s : State) (port : Nat) : (loseWrites (losePort s port) port).cxl = s.cxl := by
  unfold loseWrites
  refine (foldl_view (view := State.cxl) (f := fun s w => returnStamp s w none) (fun _ _ => cxl_returnStamp _ _) _ _).trans ?_
  rw [losePort_eq]

theorem readyIo_loseWrites (s : State) (port : Nat) : (loseWrites (losePort s port) port).readyIo = s.readyIo := by
  unfold loseWrites
  refine (readyIo_of_fixtures (foldl_view (view := fixtures) (f := fun s w => returnStamp s w none)
    (fun _ _ => fixtures_returnStamp _ _) _ _)).trans ?_
  rw [losePort_eq]

/-- The state after a port's fall (spec/27 R473). -/
def fallen (s : State) (port : Nat) : State :=
  pushErr ((s.cxl.filter fun l => l.port == (port == 1) && l.dirty).foldl (fun s l => setPoison s l.key true)
    { loseWrites (losePort s port) port with
      readyIo := setBit s.readyIo port false, cxl := s.cxl.filter fun l => !(l.port == (port == 1)) })
    ⟨0x06, 1, 0, 4, port, 0, 0, 0x128, port⟩

theorem portDown_ready (h : s.readyIo.getLsbD port = true) : portDown s port = fallen s port := by
  have hcxl := cxl_loseWrites s port
  have hio := readyIo_loseWrites s port
  refine (if_pos h).trans ?_
  dsimp only [setIo]
  rw [hcxl, hio]
  rfl

theorem portDown_down (h : s.readyIo.getLsbD port = false) : portDown s port = s := if_neg (Bool.eq_false_iff.mp h)

theorem cxlLinkDown_does {half : Nat} (hp : port < 2) (hh : half < 2) (h : s.host.links.getLsbD (2 * port + half) = true) :
    Does (.cxlLinkDown (2 * port + half)) s (finish (portDown (setLink s (2 * port + half) false) port)) := by
  have hport : (2 * port + half) / 2 = port := by omega
  refine congrArg Host.Outcome.next ((if_pos ⟨by omega, h⟩).trans ?_)
  rw [hport]

theorem linksUpAndDown (s : State) (port : Nat) : LinksUpAndDown s port := by
  refine ⟨fun half hp hhalf hb hr => ?up, ⟨fun half hp hh hlink => ?down, fun hp hr => ?fall⟩, ?frame, fun hn id o ho => ?op,
    fun cid c => losePort_crew, fun e => losePort_cmd⟩
  case up =>
    have hdoes := cxlLinkUp_does hp hhalf hb hr
    exact ⟨fun hup => hdoes.trans (congrArg _ (if_pos ((linksUp_setLink hp hhalf).mpr hup))),
      fun hup => hdoes.trans (congrArg _ (if_neg fun h => hup ((linksUp_setLink hp hhalf).mp h)))⟩
  case down =>
    have hdoes := cxlLinkDown_does hp hh hlink
    exact ⟨fun hr => hdoes.trans (next_finish (portDown_down (s := setLink s _ false) hr)),
      fun hr => hdoes.trans (next_finish (portDown_ready (s := setLink s _ false) hr))⟩
  case fall =>
    exact next_finish ((if_pos hp).trans
      (portDown_ready (s := setLink (setLink s (2 * port) false) (2 * port + 1) false) hr))
  case frame =>
    rw [losePort_eq]
  case op =>
    obtain ⟨o', hlost, hget⟩ := losePort_op hn ho
    refine ⟨_, hget, rfl, fun hf => ?_, fun r hr => ?_⟩
    · rw [hlost.eq_of_nil hf]
    · obtain ⟨hext, hport⟩ := mem_flying hr
      exact ⟨hext, hport, hlost.faults hr, fun hk x => hlost.logs hr hk⟩

/-- Settles O52: the parts above, one for each of its clauses. -/
theorem linksPinsAndReady : Obligations.LinksPinsAndReady := by
  intro s port
  refine ⟨fun addr n hp hr hsec hend => ⟨hostMemRead_notReady hp hr hsec hend, fun s1 ha => hostMemRead_uncorrectable hp hr hsec hend ha,
      fun s1 d ha => hostMemRead_reads hp hr hsec hend ha⟩,
    fun addr data poison hp hr hsec hend => hostMemWrite_does hp hr hsec hend, hostWriteLands s port, linksUpAndDown s port,
    fun hp hr => congrArg Host.Outcome.next ((if_pos hp).trans (congrArg finish (huanenDown_ready hr))), peerAccesses s,
    fun hp hr => ⟨spdmRequest_does hp hr .certificates, ⟨s.free, spdmRequest_does hp hr .challenge⟩, fun i hi => ?measurements⟩,
    fun hp hr ht b0 b1 i => ⟨fun hi => resetRelease_boots hp hr ht b0 b1 ((imageGood_iff i).mpr hi),
      fun hi => resetRelease_fails hp hr ht b0 b1 (Bool.eq_false_iff.mpr fun h => hi ((imageGood_iff i).mp h))⟩,
    rfl, ⟨_, rfl, rfl, rfl, rfl⟩, ⟨_, rfl, rfl, rfl, rfl, rfl⟩,
    fun hp => ⟨resetState s, resetNAssertion_does hp, rfl, rfl, rfl, rfl, rfl, rfl, rfl, rfl, rfl, rfl, rfl, hp, rfl, rfl⟩,
    fun f hf => congrArg Host.Outcome.next (if_pos hf), readyFalls s⟩
  case measurements =>
    have hanswer : spdmAnswer s .measurements = Config.spdmMeasurements i.id := by simp only [spdmAnswer, hi]
    exact hanswer ▸ spdmRequest_does hp hr .measurements

end Sys2Proof.Proofs.Links
end
